-- ==== Sys2Proof/Word.lean ====
section
/-! DEFINITION. The plain word types of the SF-64 (R4, R45, R99): bytes, register words, register pairs,
instruction words, and sparse maps. No rule of behaviour stands here. -/
namespace Sys2Proof

/-- A byte of memory. -/
abbrev Byte := BitVec 8
/-- A 32-bit register (R45). -/
abbrev Word := BitVec 32
/-- A 64-bit register pair or special register (R46). -/
abbrev DWord := BitVec 64
/-- A 96-bit instruction word or drill command (R309, R328). -/
abbrev IWord := BitVec 96

/-- A sparse map: key and value pairs in ascending key order. What an unlisted key reads as is said at each use. -/
abbrev SMap (α : Type) := List (Nat × α)

end Sys2Proof
end

