-- ==== Sys2Proof/Syntax.lean ====
section
/-! DEFINITION. The syntax of the SF-64: the fields of the five instruction formats (R314, R316), the fields of a
drill command (R328), the operands of the device's events, and the ONE inductive `Instr`: one constructor per row
of spec/opcode_table.json. Rows that are device events (no instruction word) carry what the event names. -/
namespace Sys2Proof

/-- Guard and extension, common to every word (R314): GNEG [85], GPRED [84:82], FX [81:80]. -/
structure Guard where
  neg  : BitVec 1
  pred : BitVec 3
  fx   : BitVec 2
  deriving DecidableEq, Repr

/-- Format A, register (R316). -/
structure FmtA where
  g    : Guard
  d    : BitVec 9
  a    : BitVec 9
  am   : BitVec 12
  b    : BitVec 9
  c    : BitVec 9
  ty   : BitVec 5
  mods : BitVec 7
  imm  : BitVec 20
  deriving DecidableEq, Repr

/-- Format I, immediate (R316); `rsv` is bits [49:48]. -/
structure FmtI where
  g    : Guard
  d    : BitVec 9
  a    : BitVec 9
  am   : BitVec 12
  rsv  : BitVec 2
  ty   : BitVec 5
  mods : BitVec 11
  imm  : BitVec 32
  deriving DecidableEq, Repr

/-- Format M, memory (R316, R317). -/
structure FmtM where
  g      : Guard
  data   : BitVec 9
  base   : BitVec 9
  am     : BitVec 12
  index  : BitVec 9
  width  : BitVec 4
  space  : BitVec 4
  order  : BitVec 3
  scope  : BitVec 2
  hint   : BitVec 2
  offset : BitVec 26
  deriving DecidableEq, Repr

/-- Format E, engine (R316). -/
structure FmtE where
  g      : Guard
  status : BitVec 9
  coord  : BitVec 9
  rslot  : BitVec 4
  tag    : BitVec 6
  espec  : BitVec 11
  opnd   : BitVec 9
  ectl   : BitVec 32
  deriving DecidableEq, Repr

/-- Format H, clause header (R316, R322, R323); `rsv` is bits [51:0]. -/
structure FmtH where
  g    : Guard
  wait : BitVec 12
  len  : BitVec 5
  seta : BitVec 5
  setb : BitVec 5
  unif : BitVec 1
  rsv  : BitVec 52
  deriving DecidableEq, Repr

/-- A drill command below its opcode (R328). -/
structure DCmd where
  id   : BitVec 8
  p1v  : BitVec 1
  p1   : BitVec 8
  p2v  : BitVec 1
  p2   : BitVec 8
  acc  : BitVec 4
  reca : BitVec 4
  recb : BitVec 4
  ctl  : BitVec 50
  deriving DecidableEq, Repr

/-- A request of the host mailbox (R215). `host`: made by the host through BAR2. `misused`: a reserved field, or a field the
operation does not use, is nonzero (R216). -/
structure MbxReq where
  queue   : Nat
  address : Nat
  nextSeq : Nat
  index   : Nat
  count   : Nat
  tag     : DWord
  host    : Bool
  misused : Bool
  deriving DecidableEq, Repr

/-- What a cache eviction names (R135, R139, R142, R136, R227). -/
inductive EvictWhat where
  | l1 (core line : Nat)
  | rdc (field line : Nat)
  | viewOf (line : Nat)
  | fetchBuffer (core line : Nat)
  | coreTlb (core idx : Nat)
  | walkAheadTlb (field idx : Nat)
  | terminusTlb (idx : Nat)
  | placementCache (idx : Nat)
  deriving DecidableEq, Repr

/-- Where a soft error strikes (R58, R140, R188). -/
inductive ErrorPlace where
  | register (blk rank reg : Nat)
  | home (pa : Nat)
  | l1 (core pa : Nat)
  | rdc (field pa : Nat)
  | scratch (core off : Nat)
  | llcScratch (field slice way off : Nat)
  | furrow (field slice way row seg : Nat)
  deriving DecidableEq, Repr

/-- Where a consist is formed from (R31, R353, R97). -/
inductive FormFrom where
  | siding (idx : Nat)
  | rankGroup (blk k : Nat) (pc : DWord)
  | saved (blk idx : Nat)
  deriving DecidableEq, Repr

/-- What another package's Collective Engine or Terminus sends (R266, R268, R271, R277). `coll`: a member's latched descriptor. `links`: the package's
link table: its links that are UP, the far ends of its Quifin links (link, package, link), and its fallow field. `partialChunk`: a node there sends its
partial, as the contributions it combines, to its parent here. `resultChunk`: the chunk's result, when the root lies in another package. `chunkDone`:
every destination of that package holds the chunk. `ended`: a kill or a denial there ends the collective. -/
inductive QuifinMsg where
  | coll (pkg field : Nat) (desc : List Byte)
  | links (pkg : Nat) (up : List Nat) (far : List (Nat × Nat × Nat)) (fallow : Nat)
  | partialChunk (seq : DWord) (chunk node : Nat) (sources : List (List Byte))
  | resultChunk (seq : DWord) (chunk : Nat) (bytes : List Byte)
  | chunkDone (seq : DWord) (chunk pkg : Nat)
  | ended (seq : DWord) (denied : Bool)
  deriving DecidableEq, Repr

/-- The outcome of one start-up step's two actions, and its detail (R299, R301, R302). -/
structure BootAct where
  primary   : Bool
  alternate : Bool
  detail    : BitVec 16
  deriving DecidableEq, Repr

/-- An object in flash with the public key it carries and its signature (R304). -/
structure Signed where
  bytes : List Byte
  key   : List Byte
  sig   : List Byte
  deriving DecidableEq, Repr

/-- What start-up meets outside (R299-R305): the configuration record copies and firmware images, the outcome of each step, the links whose training
fails, the DRAM temperature of each field when its pseudo-channels are trained (1/16 degree), the control-space blocks that the security engine grants to
the host (R288), and where the start is cut short: in a step's primary action (false) or in its alternate. -/
structure BootInputs where
  cfgA  : Signed
  cfgB  : Signed
  fwA   : Signed
  fwB   : Signed
  acts  : List BootAct
  downLinks : List Nat
  tdram : List Int
  grants : List Nat
  cut   : Option (Nat × Bool)
  deriving DecidableEq, Repr

/-- A governor's inputs at an evaluation (R291, R292): hottest logic sensor, top DRAM sensor (1/16 degree), power (1/16 W), and, by region
block address, the measured DRAM traffic and power shares in 1/1024 (R256). -/
structure GovInputs where
  tlogic : Int
  tdram  : Int
  power  : Nat
  shares : List (Nat × Nat × Nat)
  deriving DecidableEq, Repr

/-- The instructions, drill commands and events of the SF-64: one constructor per row of spec/opcode_table.json.
A constructor that carries a format is an instruction word of R340-R344; one that carries `DCmd` is a drill command of R346; the
others are the device's events. -/
inductive Instr where
  -- control (R340)
  | clause (f : FmtH)
  | nop (f : FmtA)
  | br (f : FmtI)
  | brx (f : FmtA)
  | call (f : FmtI)
  | callx (f : FmtA)
  | ret (f : FmtA)
  | exit (f : FmtA)
  | trap (f : FmtI)
  | tret (f : FmtA)
  | marshal (f : FmtA)
  | marshalRank (f : FmtA)
  | yield (f : FmtA)
  | yieldExpiry (core cn : Nat)
  | repeatN (f : FmtI)
  | sleep (f : FmtA)
  | sleepExpiry (blk rank : Nat)
  | waitaddr (f : FmtM)
  | wakeaddr (f : FmtM)
  | preemptOff (f : FmtA)
  | preemptOn (f : FmtA)
  | preemptOverrun (blk : Nat)
  | bar (f : FmtA)
  | bara (f : FmtA)
  | barw (f : FmtA)
  | grow (f : FmtA)
  | shrink (f : FmtA)
  | growa (f : FmtA)
  | shrinka (f : FmtA)
  | growStarved (blk req : Nat)
  | gets (f : FmtA)
  | sets (f : FmtA)
  | launch (f : FmtA)
  | launchRecordWrite (idx : Nat)
  | depdec (f : FmtA)
  | counterDecrement (idx : Nat)
  | locq (f : FmtM)
  -- integer, address and predicate (R341)
  | add (f : FmtA)
  | sub (f : FmtA)
  | addc (f : FmtA)
  | subb (f : FmtA)
  | mul (f : FmtA)
  | mulhi (f : FmtA)
  | mad (f : FmtA)
  | madw (f : FmtA)
  | div (f : FmtA)
  | rem (f : FmtA)
  | min (f : FmtA)
  | max (f : FmtA)
  | abs (f : FmtA)
  | neg (f : FmtA)
  | and (f : FmtA)
  | or (f : FmtA)
  | xor (f : FmtA)
  | not (f : FmtA)
  | andn (f : FmtA)
  | shl (f : FmtA)
  | shr (f : FmtA)
  | sar (f : FmtA)
  | rot (f : FmtA)
  | bfe (f : FmtA)
  | bfi (f : FmtA)
  | popc (f : FmtA)
  | clz (f : FmtA)
  | ctz (f : FmtA)
  | brev (f : FmtA)
  | sel (f : FmtA)
  | cmp (f : FmtA)
  | mov (f : FmtA)
  | movi (f : FmtI)
  | lea (f : FmtM)
  | add64 (f : FmtA)
  | sub64 (f : FmtA)
  | mad64 (f : FmtA)
  | pand (f : FmtA)
  | por (f : FmtA)
  | pxor (f : FmtA)
  | pnot (f : FmtA)
  | pmov (f : FmtA)
  -- float, conversion, cross-lane (R342)
  | fadd (f : FmtA)
  | fsub (f : FmtA)
  | fmul (f : FmtA)
  | fma (f : FmtA)
  | fmin (f : FmtA)
  | fmax (f : FmtA)
  | fcmp (f : FmtA)
  | fclass (f : FmtA)
  | frnd (f : FmtA)
  | frcp (f : FmtA)
  | frsq (f : FmtA)
  | fsqrt (f : FmtA)
  | fexp2 (f : FmtA)
  | flog2 (f : FmtA)
  | fsin (f : FmtA)
  | fcos (f : FmtA)
  | ftanh (f : FmtA)
  | fsig (f : FmtA)
  | fdot2 (f : FmtA)
  | fdot4 (f : FmtA)
  | cvt (f : FmtA)
  | cvts (f : FmtA)
  | pack2 (f : FmtA)
  | unpack (f : FmtA)
  | scalex (f : FmtA)
  | q4enc (f : FmtA)
  | q4dec (f : FmtA)
  | ballot (f : FmtA)
  | matchEq (f : FmtA)
  | vote (f : FmtA)
  | reduce (f : FmtA)
  | scan (f : FmtA)
  | shfl (f : FmtA)
  | slotof (f : FmtA)
  | rankof (f : FmtA)
  -- memory (R343)
  | ld (f : FmtM)
  | ldx (f : FmtM)
  | st (f : FmtM)
  | atom (f : FmtM)
  | atomn (f : FmtM)
  | cas (f : FmtM)
  | fence (f : FmtM)
  | prefetch (f : FmtM)
  | clean (f : FmtM)
  | inval (f : FmtM)
  | ysend (f : FmtM)
  | yrecv (f : FmtM)
  | yprobe (f : FmtA)
  -- engines (R343)
  | trec (f : FmtE)
  | tcopy (f : FmtE)
  | tstore (f : FmtE)
  | tcopymc (f : FmtE)
  | recvarm (f : FmtE)
  | tagwait (f : FmtE)
  | tagffs (f : FmtE)
  | tagclr (f : FmtE)
  | tagstat (f : FmtE)
  | drill (f : FmtA)
  | mready (f : FmtA)
  | mwait (f : FmtA)
  | accrd (f : FmtA)
  | accwr (f : FmtA)
  | nanrd (f : FmtA)
  | wpart (f : FmtE)
  | fwload (f : FmtE)
  | fwstore (f : FmtE)
  | fwop (f : FmtE)
  | fwred (f : FmtE)
  | fwfill (f : FmtE)
  | coll (f : FmtE)
  | collq (f : FmtA)
  -- system (R344)
  | trsync (f : FmtA)
  | tlbinvVa (f : FmtA)
  | tlbinvRoot (f : FmtA)
  | tlbinvAll (f : FmtA)
  | tlbinvAck (idx agent : Nat)
  | ctxsave (f : FmtA)
  | ctxload (f : FmtA)
  | errinj (f : FmtA)
  -- the drill (R346)
  | drillStreamRead (blk : Nat)
  | dnop (c : DCmd)
  | dend (c : DCmd)
  | dbarBar (c : DCmd)
  | dbarReady (c : DCmd)
  | dzero (c : DCmd)
  | dldacc (c : DCmd)
  | dstacc (c : DCmd)
  | dscale (c : DCmd)
  | dmma (c : DCmd)
  | drillCommandRetire (blk slot : Nat)
  -- core and yard events
  | instructionResultReturn (blk rank out : Nat)
  | accessComplete (blk rank out : Nat)
  | clauseEnd (core : Nat)
  | sidingDue (core idx : Nat)
  | consistForm (core : Nat) (src : FormFrom)
  | shadowCompare (core : Nat) (differ : BitVec 32)
  | spill (core blk rank quantum : Nat)
  -- fault answers
  | fqcmdReplay (field : Nat) (seq : Word)
  | fqcmdDeny (field : Nat) (seq : Word)
  | signalBoxEvent (sb : Nat)
  -- scheduler
  | contextSave (blk : Nat)
  | resumption (blk : Nat)
  | blockRetire (blk : Nat)
  | killDrained (idx : Nat)
  | cmdNop (q : Nat)
  | cmdLaunch (q : Nat)
  | cmdSignal (q : Nat)
  | signalDone (q : Nat)
  | cmdDepset (q : Nat)
  | doorbell (q : Nat) (value : Word)
  -- mailbox requests (R215)
  | bind (r : MbxReq)
  | stop (r : MbxReq)
  | resume (r : MbxReq)
  | kill (r : MbxReq)
  | unbind (r : MbxReq)
  | uselist (r : MbxReq)
  | useclear (r : MbxReq)
  -- control-space registers
  | mbxindbGo (host : Bool)
  | mbxoutctlWrite (v : DWord)
  | mbxoutrdWrite (v : DWord)
  | rcbsync (addr : Nat)
  | plinv (addr : DWord)
  | depctrWrite (n : Nat) (v : Word)
  | ftwctlWrite (field w : Nat) (v : DWord)
  | ftwRegisterWrite (field w reg : Nat) (v : DWord)
  | linkDisable (id : Nat)
  | linkEnable (id : Nat)
  | linkinjArm (id : Nat) (v : DWord)
  | injectorFire (id : Nat)
  | pcpwrActive (field pch : Nat)
  | pcpwrSelfRefresh (field pch : Nat)
  | pcpwrPowerDown (field pch : Nat)
  | pcpwrHoldEnd (field : Nat)
  | wmapcmd (v : DWord)
  | bootresetClear (host : Bool)
  | registerWrite (off : Nat) (v : DWord)
  | hostAccess (pa : Nat) (write : Bool) (bytes : List Byte)
  -- memories and engines
  | cacheEviction (w : EvictWhat)
  | copyComplete (op count : Nat)
  | multicastDelivery (op k : Nat)
  | wpartSwitchPoint (field slice : Nat)
  | furrowOperationComplete (field op : Nat)
  -- collectives and links
  | chunkReduced (seq : DWord) (chunk : Nat)
  | chunkDelivered (seq : DWord) (chunk : Nat)
  | reTree (seq : DWord)
  | linkFailure (id : Nat)
  | linkTrainingStart (id : Nat)
  | linkTrainingEnd (id : Nat) (ok : Bool)
  -- the module as a device
  | governorEvaluation (field : Nat) (i : GovInputs)
  | trip (field : Nat) (tlogic tdram : Int)
  | clockStretch (field cycles : Nat)
  | retrainStart (field pch : Nat)
  | retrainEnd (field cycles : Nat)
  | moduleReset (b : BootInputs)
  | upperTierGate (field : Nat)
  | upperTierUngate (field : Nat)
  | migration (src dst len : Nat)
  | rangeEviction (region : Nat) (va dst : Nat)
  | rangeMigrateBack (q : Nat) (va dst : Nat)
  | inFieldTest (field : Nat)
  | softError (p : ErrorPlace) (double : Bool)
  | chunkPartialArrival (seq : DWord) (chunk node : Nat)
  | quifinMessage (m : QuifinMsg)
  -- an opcode that R335-R344 do not define
  | undefinedOpcode (w : IWord)
  -- events without operands
  | queueVisit
  | trinvVa
  | trinvRoot
  | trinvAll
  | wmapCommandComplete
  deriving DecidableEq, Repr

end Sys2Proof
end

