-- ==== Sys2Proof/Machine/Bits.lean ====
section
/-! DEFINITION. Bit fields, byte order and sparse maps: the helpers every other file of the machine uses. -/
namespace Sys2Proof.Machine

/-- The low `n` bytes of a value, lowest address first (R4). -/
def toBytes {w : Nat} : Nat → BitVec w → List Byte
  | 0, _ => []
  | n + 1, v => v.setWidth 8 :: toBytes n (v >>> 8)

/-- The value of bytes, lowest address first (R4). -/
def ofBytes (w : Nat) : List Byte → BitVec w
  | [] => 0
  | b :: bs => (ofBytes w bs <<< 8) ||| b.setWidth w

/-- Bits [lo + width - 1 : lo] (R4, R8). -/
abbrev bits {w : Nat} (v : BitVec w) (lo width : Nat) : BitVec width := v.extractLsb' lo width
/-- The same, as a number. -/
abbrev nbits {w : Nat} (v : BitVec w) (lo width : Nat) : Nat := (v.extractLsb' lo width).toNat
/-- One bit. -/
abbrev bit {w : Nat} (v : BitVec w) (i : Nat) : Bool := v.getLsbD i
/-- `v` with bits [lo + width - 1 : lo] replaced by `x` modulo 2^width. -/
def setBits {w : Nat} (v : BitVec w) (lo width x : Nat) : BitVec w :=
  let mask : BitVec w := BitVec.ofNat w ((2 ^ width - 1) * 2 ^ lo)
  (v &&& ~~~mask) ||| (BitVec.ofNat w (x * 2 ^ lo) &&& mask)
/-- 1 for true. -/
def b2n (b : Bool) : Nat := if b then 1 else 0
/-- `x` rounded up to a multiple of `k`. -/
def roundUp (x k : Nat) : Nat := (x + k - 1) / k * k
/-- ceil(x / k). -/
def ceilDiv (x k : Nat) : Nat := (x + k - 1) / k
/-- Two's complement reading of a `w`-bit number. -/
def toSigned (w x : Nat) : Int := if x % 2 ^ w < 2 ^ (w - 1) then (x % 2 ^ w : Nat) else (x % 2 ^ w : Nat) - (2 ^ w : Nat)
/-- An integer modulo 2^w (R100). -/
def wrap (w : Nat) (x : Int) : Nat := (x % (2 ^ w : Nat)).toNat

/-- The entry of a sparse map. -/
def mfind {α : Type} : SMap α → Nat → Option α
  | [], _ => none
  | (k, v) :: rest, i => if k = i then some v else mfind rest i
/-- The entry, or what an unlisted key reads as. -/
def mget {α : Type} (d : α) (m : SMap α) (i : Nat) : α := (mfind m i).getD d
/-- Put an entry, keeping ascending key order. -/
def mput {α : Type} : SMap α → Nat → α → SMap α
  | [], i, x => [(i, x)]
  | (k, v) :: rest, i, x =>
    if i < k then (i, x) :: (k, v) :: rest
    else if i = k then (i, x) :: rest
    else (k, v) :: mput rest i x
/-- Remove an entry. -/
def mdel {α : Type} (m : SMap α) (i : Nat) : SMap α := m.filter (fun e => e.1 != i)
/-- The keys. -/
def mkeys {α : Type} (m : SMap α) : List Nat := m.map (·.1)

/-- 0, 1, …, n - 1. -/
abbrev upto (n : Nat) : List Nat := List.range n

/-- The first element of least key. -/
def leastBy {α : Type} (key : α → Nat) : List α → Option α
  | [] => none
  | a :: l =>
    match leastBy key l with
    | none => some a
    | some b => if key b < key a then some b else some a

/-- Insertion into a list ordered by a key, after equal keys. -/
def insertBy {α : Type} (key : α → Nat) (a : α) : List α → List α
  | [] => [a]
  | b :: l => if key a < key b then a :: b :: l else b :: insertBy key a l

/-- A list put in ascending key order; equal keys keep their order. -/
def sortBy {α : Type} (key : α → Nat) (l : List α) : List α := l.foldl (fun acc a => insertBy key a acc) []

/-- Replace element `i` of a list. -/
def setNth {α : Type} (l : List α) (i : Nat) (a : α) : List α := l.set i a

/-- Modify the elements that satisfy a test. -/
def modWhere {α : Type} (p : α → Bool) (f : α → α) (l : List α) : List α := l.map (fun a => if p a then f a else a)

end Sys2Proof.Machine
end

