-- ==== Sys2Proof/Decode.lean ====
section
/-! DEFINITION. Decoding of 96-bit instruction words (R309, R314-R317, R335-R346) and of drill commands (R328), total on any
word: an undefined opcode becomes `undefinedOpcode`, whose meaning raises ILLEGAL_OP (R336). AFTER it the encoder, written from the same tables.
Two mnemonics of one opcode are told apart by the field their description names (MODS, or CTL[4] of `dbar`). -/
namespace Sys2Proof

/-- Bits [hi:lo] of an instruction word, lo and width given (R4, R8). -/
abbrev IWord.at (w : IWord) (lo width : Nat) : BitVec width := w.extractLsb' lo width

/-- GNEG, GPRED and FX of a word (R314). -/
def decGuard (w : IWord) : Guard := { neg := w.at 85 1, pred := w.at 82 3, fx := w.at 80 2 }

/-- The fields of format A (R316). -/
def decA (w : IWord) : FmtA :=
  { g := decGuard w, d := w.at 71 9, a := w.at 62 9, am := w.at 50 12, b := w.at 41 9, c := w.at 32 9, ty := w.at 27 5,
    mods := w.at 20 7, imm := w.at 0 20 }

/-- The fields of format I (R316). -/
def decI (w : IWord) : FmtI :=
  { g := decGuard w, d := w.at 71 9, a := w.at 62 9, am := w.at 50 12, rsv := w.at 48 2, ty := w.at 43 5, mods := w.at 32 11,
    imm := w.at 0 32 }

/-- The fields of format M (R316). -/
def decM (w : IWord) : FmtM :=
  { g := decGuard w, data := w.at 71 9, base := w.at 62 9, am := w.at 50 12, index := w.at 41 9, width := w.at 37 4,
    space := w.at 33 4, order := w.at 30 3, scope := w.at 28 2, hint := w.at 26 2, offset := w.at 0 26 }

/-- The fields of format E (R316). -/
def decE (w : IWord) : FmtE :=
  { g := decGuard w, status := w.at 71 9, coord := w.at 62 9, rslot := w.at 58 4, tag := w.at 52 6, espec := w.at 41 11,
    opnd := w.at 32 9, ectl := w.at 0 32 }

/-- The fields of format H (R316). -/
def decH (w : IWord) : FmtH :=
  { g := decGuard w, wait := w.at 68 12, len := w.at 63 5, seta := w.at 58 5, setb := w.at 53 5, unif := w.at 52 1, rsv := w.at 0 52 }

/-- The fields of a drill command (R328). -/
def decD (w : IWord) : DCmd :=
  { id := w.at 80 8, p1v := w.at 79 1, p1 := w.at 71 8, p2v := w.at 70 1, p2 := w.at 62 8, acc := w.at 58 4, reca := w.at 54 4,
    recb := w.at 50 4, ctl := w.at 0 50 }

/-- The instruction a 96-bit word holds (R335-R344). -/
def decodeWord (w : IWord) : Instr :=
  match (w.at 86 10).toNat with
  | 0x000 => .clause (decH w)
  | 0x001 => .nop (decA w)
  | 0x002 => .br (decI w)
  | 0x003 => .brx (decA w)
  | 0x004 => .call (decI w)
  | 0x005 => .callx (decA w)
  | 0x006 => .ret (decA w)
  | 0x007 => .exit (decA w)
  | 0x008 => .trap (decI w)
  | 0x009 => .tret (decA w)
  | 0x00A => if (decA w).mods.getLsbD 0 then .marshalRank (decA w) else .marshal (decA w)
  | 0x00B => .yield (decA w)
  | 0x00C => .repeatN (decI w)
  | 0x00D => .sleep (decA w)
  | 0x00E => .waitaddr (decM w)
  | 0x00F => .wakeaddr (decM w)
  | 0x010 => if (decA w).mods.getLsbD 0 then .preemptOn (decA w) else .preemptOff (decA w)
  | 0x011 => .bar (decA w)
  | 0x012 => .bara (decA w)
  | 0x013 => .barw (decA w)
  | 0x014 => .grow (decA w)
  | 0x015 => .shrink (decA w)
  | 0x016 => .growa (decA w)
  | 0x017 => .shrinka (decA w)
  | 0x018 => .gets (decA w)
  | 0x019 => .sets (decA w)
  | 0x01A => .launch (decA w)
  | 0x01B => .depdec (decA w)
  | 0x01C => .locq (decM w)
  | 0x040 => .add (decA w)
  | 0x041 => .sub (decA w)
  | 0x042 => .addc (decA w)
  | 0x043 => .subb (decA w)
  | 0x044 => .mul (decA w)
  | 0x045 => .mulhi (decA w)
  | 0x046 => .mad (decA w)
  | 0x047 => .madw (decA w)
  | 0x048 => .div (decA w)
  | 0x049 => .rem (decA w)
  | 0x04A => .min (decA w)
  | 0x04B => .max (decA w)
  | 0x04C => .abs (decA w)
  | 0x04D => .neg (decA w)
  | 0x04E => .and (decA w)
  | 0x04F => .or (decA w)
  | 0x050 => .xor (decA w)
  | 0x051 => .not (decA w)
  | 0x052 => .andn (decA w)
  | 0x053 => .shl (decA w)
  | 0x054 => .shr (decA w)
  | 0x055 => .sar (decA w)
  | 0x056 => .rot (decA w)
  | 0x057 => .bfe (decA w)
  | 0x058 => .bfi (decA w)
  | 0x059 => .popc (decA w)
  | 0x05A => .clz (decA w)
  | 0x05B => .ctz (decA w)
  | 0x05C => .brev (decA w)
  | 0x05D => .sel (decA w)
  | 0x05E => .cmp (decA w)
  | 0x05F => .mov (decA w)
  | 0x060 => .movi (decI w)
  | 0x061 => .lea (decM w)
  | 0x062 => .add64 (decA w)
  | 0x063 => .sub64 (decA w)
  | 0x064 => .mad64 (decA w)
  | 0x065 => .pand (decA w)
  | 0x066 => .por (decA w)
  | 0x067 => .pxor (decA w)
  | 0x068 => .pnot (decA w)
  | 0x069 => .pmov (decA w)
  | 0x080 => .fadd (decA w)
  | 0x081 => .fsub (decA w)
  | 0x082 => .fmul (decA w)
  | 0x083 => .fma (decA w)
  | 0x084 => .fmin (decA w)
  | 0x085 => .fmax (decA w)
  | 0x086 => .fcmp (decA w)
  | 0x087 => .fclass (decA w)
  | 0x088 => .frnd (decA w)
  | 0x089 => .frcp (decA w)
  | 0x08A => .frsq (decA w)
  | 0x08B => .fsqrt (decA w)
  | 0x08C => .fexp2 (decA w)
  | 0x08D => .flog2 (decA w)
  | 0x08E => .fsin (decA w)
  | 0x08F => .fcos (decA w)
  | 0x090 => .ftanh (decA w)
  | 0x091 => .fsig (decA w)
  | 0x092 => .fdot2 (decA w)
  | 0x093 => .fdot4 (decA w)
  | 0x0C0 => .cvt (decA w)
  | 0x0C1 => .cvts (decA w)
  | 0x0C2 => .pack2 (decA w)
  | 0x0C3 => .unpack (decA w)
  | 0x0C4 => .scalex (decA w)
  | 0x0C5 => .q4enc (decA w)
  | 0x0C6 => .q4dec (decA w)
  | 0x0C8 => .ballot (decA w)
  | 0x0C9 => .matchEq (decA w)
  | 0x0CA => .vote (decA w)
  | 0x0CB => .reduce (decA w)
  | 0x0CC => .scan (decA w)
  | 0x0CD => .shfl (decA w)
  | 0x0CE => .slotof (decA w)
  | 0x0CF => .rankof (decA w)
  | 0x100 => .ld (decM w)
  | 0x101 => .ldx (decM w)
  | 0x102 => .st (decM w)
  | 0x103 => .atom (decM w)
  | 0x104 => .atomn (decM w)
  | 0x105 => .cas (decM w)
  | 0x106 => .fence (decM w)
  | 0x107 => .prefetch (decM w)
  | 0x108 => .clean (decM w)
  | 0x109 => .inval (decM w)
  | 0x10A => .ysend (decM w)
  | 0x10B => .yrecv (decM w)
  | 0x10C => .yprobe (decA w)
  | 0x140 => .trec (decE w)
  | 0x141 => .tcopy (decE w)
  | 0x142 => .tstore (decE w)
  | 0x143 => .tcopymc (decE w)
  | 0x144 => .recvarm (decE w)
  | 0x145 => .tagwait (decE w)
  | 0x146 => .tagffs (decE w)
  | 0x147 => .tagclr (decE w)
  | 0x148 => .tagstat (decE w)
  | 0x180 => .drill (decA w)
  | 0x181 => .mready (decA w)
  | 0x182 => .mwait (decA w)
  | 0x183 => .accrd (decA w)
  | 0x184 => .accwr (decA w)
  | 0x185 => .nanrd (decA w)
  | 0x1C0 => .wpart (decE w)
  | 0x1C1 => .fwload (decE w)
  | 0x1C2 => .fwstore (decE w)
  | 0x1C3 => .fwop (decE w)
  | 0x1C4 => .fwred (decE w)
  | 0x1C5 => .fwfill (decE w)
  | 0x1C8 => .coll (decE w)
  | 0x1C9 => .collq (decA w)
  | 0x3C0 => .trsync (decA w)
  | 0x3C1 => if (decA w).mods = 0 then .tlbinvVa (decA w) else if (decA w).mods = 1 then .tlbinvRoot (decA w) else .tlbinvAll (decA w)
  | 0x3C2 => .ctxsave (decA w)
  | 0x3C3 => .ctxload (decA w)
  | 0x3C4 => .errinj (decA w)
  | _ => .undefinedOpcode w

/-- The drill command a 96-bit word holds; none for an undefined DOP (R329, R346). -/
def decodeDrill (w : IWord) : Option Instr :=
  match (w.at 88 8).toNat with
  | 0x01 => some (.dnop (decD w))
  | 0x02 => some (.dend (decD w))
  | 0x03 => some (if (decD w).ctl.getLsbD 4 then .dbarReady (decD w) else .dbarBar (decD w))
  | 0x08 => some (.dzero (decD w))
  | 0x09 => some (.dldacc (decD w))
  | 0x0A => some (.dstacc (decD w))
  | 0x0B => some (.dscale (decD w))
  | 0x10 => some (.dmma (decD w))
  | _ => none

/-- The instruction in a 12-byte slot, lowest byte first (R309). -/
def decodeBytes (bs : List Byte) : Option Instr :=
  if bs.length = 12 then some (decodeWord (Machine.ofBytes 96 bs)) else none

/-- The decoder's answer on a table row's word: the word's bytes laid out in a slot as R309 stores them. -/
def decodeTableWord (_nbits w : Nat) : Option Instr :=
  decodeBytes (Machine.toBytes 12 (BitVec.ofNat 96 w))

/-- GNEG, GPRED, FX below an opcode (R314). -/
def encGuard (op : BitVec 10) (g : Guard) : BitVec 16 := op ++ g.neg ++ g.pred ++ g.fx
def encA (op : BitVec 10) (f : FmtA) : IWord := encGuard op f.g ++ f.d ++ f.a ++ f.am ++ f.b ++ f.c ++ f.ty ++ f.mods ++ f.imm
def encI (op : BitVec 10) (f : FmtI) : IWord := encGuard op f.g ++ f.d ++ f.a ++ f.am ++ f.rsv ++ f.ty ++ f.mods ++ f.imm
def encM (op : BitVec 10) (f : FmtM) : IWord :=
  encGuard op f.g ++ f.data ++ f.base ++ f.am ++ f.index ++ f.width ++ f.space ++ f.order ++ f.scope ++ f.hint ++ f.offset
def encE (op : BitVec 10) (f : FmtE) : IWord :=
  encGuard op f.g ++ f.status ++ f.coord ++ f.rslot ++ f.tag ++ f.espec ++ f.opnd ++ f.ectl
def encH (op : BitVec 10) (f : FmtH) : IWord := encGuard op f.g ++ f.wait ++ f.len ++ f.seta ++ f.setb ++ f.unif ++ f.rsv
def encD (op : BitVec 8) (c : DCmd) : IWord :=
  op ++ c.id ++ c.p1v ++ c.p1 ++ c.p2v ++ c.p2 ++ c.acc ++ c.reca ++ c.recb ++ c.ctl

/-- The word of an instruction or drill command (R309-R346); none for a device event, which has no word. -/
def encode (i : Instr) : Option IWord :=
  match i with
  | .clause f => some (encH 0x000 f)
  | .nop f => some (encA 0x001 f)
  | .br f => some (encI 0x002 f)
  | .brx f => some (encA 0x003 f)
  | .call f => some (encI 0x004 f)
  | .callx f => some (encA 0x005 f)
  | .ret f => some (encA 0x006 f)
  | .exit f => some (encA 0x007 f)
  | .trap f => some (encI 0x008 f)
  | .tret f => some (encA 0x009 f)
  | .marshal f => some (encA 0x00A f)
  | .marshalRank f => some (encA 0x00A f)
  | .yield f => some (encA 0x00B f)
  | .repeatN f => some (encI 0x00C f)
  | .sleep f => some (encA 0x00D f)
  | .waitaddr f => some (encM 0x00E f)
  | .wakeaddr f => some (encM 0x00F f)
  | .preemptOff f => some (encA 0x010 f)
  | .preemptOn f => some (encA 0x010 f)
  | .bar f => some (encA 0x011 f)
  | .bara f => some (encA 0x012 f)
  | .barw f => some (encA 0x013 f)
  | .grow f => some (encA 0x014 f)
  | .shrink f => some (encA 0x015 f)
  | .growa f => some (encA 0x016 f)
  | .shrinka f => some (encA 0x017 f)
  | .gets f => some (encA 0x018 f)
  | .sets f => some (encA 0x019 f)
  | .launch f => some (encA 0x01A f)
  | .depdec f => some (encA 0x01B f)
  | .locq f => some (encM 0x01C f)
  | .add f => some (encA 0x040 f)
  | .sub f => some (encA 0x041 f)
  | .addc f => some (encA 0x042 f)
  | .subb f => some (encA 0x043 f)
  | .mul f => some (encA 0x044 f)
  | .mulhi f => some (encA 0x045 f)
  | .mad f => some (encA 0x046 f)
  | .madw f => some (encA 0x047 f)
  | .div f => some (encA 0x048 f)
  | .rem f => some (encA 0x049 f)
  | .min f => some (encA 0x04A f)
  | .max f => some (encA 0x04B f)
  | .abs f => some (encA 0x04C f)
  | .neg f => some (encA 0x04D f)
  | .and f => some (encA 0x04E f)
  | .or f => some (encA 0x04F f)
  | .xor f => some (encA 0x050 f)
  | .not f => some (encA 0x051 f)
  | .andn f => some (encA 0x052 f)
  | .shl f => some (encA 0x053 f)
  | .shr f => some (encA 0x054 f)
  | .sar f => some (encA 0x055 f)
  | .rot f => some (encA 0x056 f)
  | .bfe f => some (encA 0x057 f)
  | .bfi f => some (encA 0x058 f)
  | .popc f => some (encA 0x059 f)
  | .clz f => some (encA 0x05A f)
  | .ctz f => some (encA 0x05B f)
  | .brev f => some (encA 0x05C f)
  | .sel f => some (encA 0x05D f)
  | .cmp f => some (encA 0x05E f)
  | .mov f => some (encA 0x05F f)
  | .movi f => some (encI 0x060 f)
  | .lea f => some (encM 0x061 f)
  | .add64 f => some (encA 0x062 f)
  | .sub64 f => some (encA 0x063 f)
  | .mad64 f => some (encA 0x064 f)
  | .pand f => some (encA 0x065 f)
  | .por f => some (encA 0x066 f)
  | .pxor f => some (encA 0x067 f)
  | .pnot f => some (encA 0x068 f)
  | .pmov f => some (encA 0x069 f)
  | .fadd f => some (encA 0x080 f)
  | .fsub f => some (encA 0x081 f)
  | .fmul f => some (encA 0x082 f)
  | .fma f => some (encA 0x083 f)
  | .fmin f => some (encA 0x084 f)
  | .fmax f => some (encA 0x085 f)
  | .fcmp f => some (encA 0x086 f)
  | .fclass f => some (encA 0x087 f)
  | .frnd f => some (encA 0x088 f)
  | .frcp f => some (encA 0x089 f)
  | .frsq f => some (encA 0x08A f)
  | .fsqrt f => some (encA 0x08B f)
  | .fexp2 f => some (encA 0x08C f)
  | .flog2 f => some (encA 0x08D f)
  | .fsin f => some (encA 0x08E f)
  | .fcos f => some (encA 0x08F f)
  | .ftanh f => some (encA 0x090 f)
  | .fsig f => some (encA 0x091 f)
  | .fdot2 f => some (encA 0x092 f)
  | .fdot4 f => some (encA 0x093 f)
  | .cvt f => some (encA 0x0C0 f)
  | .cvts f => some (encA 0x0C1 f)
  | .pack2 f => some (encA 0x0C2 f)
  | .unpack f => some (encA 0x0C3 f)
  | .scalex f => some (encA 0x0C4 f)
  | .q4enc f => some (encA 0x0C5 f)
  | .q4dec f => some (encA 0x0C6 f)
  | .ballot f => some (encA 0x0C8 f)
  | .matchEq f => some (encA 0x0C9 f)
  | .vote f => some (encA 0x0CA f)
  | .reduce f => some (encA 0x0CB f)
  | .scan f => some (encA 0x0CC f)
  | .shfl f => some (encA 0x0CD f)
  | .slotof f => some (encA 0x0CE f)
  | .rankof f => some (encA 0x0CF f)
  | .ld f => some (encM 0x100 f)
  | .ldx f => some (encM 0x101 f)
  | .st f => some (encM 0x102 f)
  | .atom f => some (encM 0x103 f)
  | .atomn f => some (encM 0x104 f)
  | .cas f => some (encM 0x105 f)
  | .fence f => some (encM 0x106 f)
  | .prefetch f => some (encM 0x107 f)
  | .clean f => some (encM 0x108 f)
  | .inval f => some (encM 0x109 f)
  | .ysend f => some (encM 0x10A f)
  | .yrecv f => some (encM 0x10B f)
  | .yprobe f => some (encA 0x10C f)
  | .trec f => some (encE 0x140 f)
  | .tcopy f => some (encE 0x141 f)
  | .tstore f => some (encE 0x142 f)
  | .tcopymc f => some (encE 0x143 f)
  | .recvarm f => some (encE 0x144 f)
  | .tagwait f => some (encE 0x145 f)
  | .tagffs f => some (encE 0x146 f)
  | .tagclr f => some (encE 0x147 f)
  | .tagstat f => some (encE 0x148 f)
  | .drill f => some (encA 0x180 f)
  | .mready f => some (encA 0x181 f)
  | .mwait f => some (encA 0x182 f)
  | .accrd f => some (encA 0x183 f)
  | .accwr f => some (encA 0x184 f)
  | .nanrd f => some (encA 0x185 f)
  | .wpart f => some (encE 0x1C0 f)
  | .fwload f => some (encE 0x1C1 f)
  | .fwstore f => some (encE 0x1C2 f)
  | .fwop f => some (encE 0x1C3 f)
  | .fwred f => some (encE 0x1C4 f)
  | .fwfill f => some (encE 0x1C5 f)
  | .coll f => some (encE 0x1C8 f)
  | .collq f => some (encA 0x1C9 f)
  | .trsync f => some (encA 0x3C0 f)
  | .tlbinvVa f => some (encA 0x3C1 f)
  | .tlbinvRoot f => some (encA 0x3C1 f)
  | .tlbinvAll f => some (encA 0x3C1 f)
  | .ctxsave f => some (encA 0x3C2 f)
  | .ctxload f => some (encA 0x3C3 f)
  | .errinj f => some (encA 0x3C4 f)
  | .dnop c => some (encD 0x01 c)
  | .dend c => some (encD 0x02 c)
  | .dbarBar c => some (encD 0x03 c)
  | .dbarReady c => some (encD 0x03 c)
  | .dzero c => some (encD 0x08 c)
  | .dldacc c => some (encD 0x09 c)
  | .dstacc c => some (encD 0x0A c)
  | .dscale c => some (encD 0x0B c)
  | .dmma c => some (encD 0x10 c)
  | .undefinedOpcode w => some w
  | .yieldExpiry _ _ => none
  | .sleepExpiry _ _ => none
  | .preemptOverrun _ => none
  | .growStarved _ _ => none
  | .launchRecordWrite _ => none
  | .counterDecrement _ => none
  | .tlbinvAck _ _ => none
  | .drillStreamRead _ => none
  | .drillCommandRetire _ _ => none
  | .instructionResultReturn _ _ _ => none
  | .accessComplete _ _ _ => none
  | .clauseEnd _ => none
  | .sidingDue _ _ => none
  | .consistForm _ _ => none
  | .shadowCompare _ _ => none
  | .spill _ _ _ _ => none
  | .fqcmdReplay _ _ => none
  | .fqcmdDeny _ _ => none
  | .signalBoxEvent _ => none
  | .contextSave _ => none
  | .resumption _ => none
  | .blockRetire _ => none
  | .killDrained _ => none
  | .cmdNop _ => none
  | .cmdLaunch _ => none
  | .cmdSignal _ => none
  | .signalDone _ => none
  | .cmdDepset _ => none
  | .doorbell _ _ => none
  | .bind _ => none
  | .stop _ => none
  | .resume _ => none
  | .kill _ => none
  | .unbind _ => none
  | .uselist _ => none
  | .useclear _ => none
  | .mbxindbGo _ => none
  | .mbxoutctlWrite _ => none
  | .mbxoutrdWrite _ => none
  | .rcbsync _ => none
  | .plinv _ => none
  | .depctrWrite _ _ => none
  | .ftwctlWrite _ _ _ => none
  | .ftwRegisterWrite _ _ _ _ => none
  | .linkDisable _ => none
  | .linkEnable _ => none
  | .linkinjArm _ _ => none
  | .injectorFire _ => none
  | .pcpwrActive _ _ => none
  | .pcpwrSelfRefresh _ _ => none
  | .pcpwrPowerDown _ _ => none
  | .pcpwrHoldEnd _ => none
  | .wmapcmd _ => none
  | .bootresetClear _ => none
  | .registerWrite _ _ => none
  | .hostAccess _ _ _ => none
  | .cacheEviction _ => none
  | .copyComplete _ _ => none
  | .multicastDelivery _ _ => none
  | .wpartSwitchPoint _ _ => none
  | .furrowOperationComplete _ _ => none
  | .chunkReduced _ _ => none
  | .chunkDelivered _ _ => none
  | .reTree _ => none
  | .linkFailure _ => none
  | .linkTrainingStart _ => none
  | .linkTrainingEnd _ _ => none
  | .governorEvaluation _ _ => none
  | .trip _ _ _ => none
  | .clockStretch _ _ => none
  | .retrainStart _ _ => none
  | .retrainEnd _ _ => none
  | .moduleReset _ => none
  | .upperTierGate _ => none
  | .upperTierUngate _ => none
  | .migration _ _ _ => none
  | .rangeEviction _ _ _ => none
  | .rangeMigrateBack _ _ _ => none
  | .inFieldTest _ => none
  | .softError _ _ => none
  | .chunkPartialArrival _ _ _ => none
  | .quifinMessage _ => none
  | .queueVisit => none
  | .trinvVa => none
  | .trinvRoot => none
  | .trinvAll => none
  | .wmapCommandComplete => none

end Sys2Proof
end

