-- ==== Sys2Proof/Machine/Num.lean ====
section
/-! DEFINITION. Floating point: the formats of R101-R104, rounding (R105-R107), NaNs (R108), comparison and selection (R109), exact
sums, and the functions of R391. A finite value is exact: sign, magnitude and a power of two. Arithmetic is on integers, so nothing is rounded before
the one rounding a rule asks for. -/
namespace Sys2Proof.Machine

/-- A float format (R101, R102): exponent and fraction widths, bias, and whether it has infinities. -/
structure Fmt where
  ew : Nat
  fw : Nat
  bias : Nat
  inf : Bool := true
  deriving DecidableEq, Repr

def fmtF32 : Fmt := { ew := 8, fw := 23, bias := 127 }
def fmtF16 : Fmt := { ew := 5, fw := 10, bias := 15 }
def fmtBf16 : Fmt := { ew := 8, fw := 7, bias := 127 }
def fmtE4m3 : Fmt := { ew := 4, fw := 3, bias := 7, inf := false }
def fmtE5m2 : Fmt := { ew := 5, fw := 2, bias := 15 }

/-- The format of an element of a float type (R327). -/
def fmtOf (ty : Nat) : Fmt :=
  match ty with
  | 13 | 18 => fmtF16
  | 14 | 19 => fmtBf16
  | 15 => fmtE4m3
  | 16 => fmtE5m2
  | _ => fmtF32

/-- A float value: a NaN with its sign and its fraction left-aligned to 23 bits, an infinity, or (-1)^neg * m * 2^e. -/
inductive FV where
  | nan (neg : Bool) (frac : Nat)
  | inf (neg : Bool)
  | fin (neg : Bool) (m : Nat) (e : Int)
  deriving DecidableEq, Repr, Inhabited

/-- Rounding: ties to even, ties away, toward zero, toward -inf, toward +inf (R8, R106, R390). -/
inductive Rnd where
  | even | away | rz | down | up
  deriving DecidableEq, Repr

def fzero : FV := .fin false 0 0
def canonNan : FV := .nan false 0x400000
def FV.isNan : FV → Bool
  | .nan _ _ => true
  | _ => false
def FV.isInf : FV → Bool
  | .inf _ => true
  | _ => false
def FV.isZero : FV → Bool
  | .fin _ m _ => m == 0
  | _ => false
def FV.sign : FV → Bool
  | .nan n _ | .inf n | .fin n _ _ => n
def FV.flip : FV → FV
  | .nan n f => .nan (!n) f
  | .inf n => .inf (!n)
  | .fin n m e => .fin (!n) m e

/-- The value of an encoding (R101, R102). -/
def fdecode (f : Fmt) (x : Nat) : FV :=
  let frac := x % 2 ^ f.fw
  let ex := x / 2 ^ f.fw % 2 ^ f.ew
  let neg := x / 2 ^ (f.fw + f.ew) % 2 == 1
  if ex == 0 then .fin neg frac (1 - (f.bias : Int) - f.fw)
  else if f.inf && ex == 2 ^ f.ew - 1 then (if frac == 0 then .inf neg else .nan neg (frac * 2 ^ (23 - f.fw)))
  else if !f.inf && ex == 2 ^ f.ew - 1 && frac == 2 ^ f.fw - 1 then .nan neg (frac * 2 ^ (23 - f.fw))
  else .fin neg (2 ^ f.fw + frac) ((ex : Int) - f.bias - f.fw)

/-- Sign bit and lower bits put together. -/
def fpack (f : Fmt) (neg : Bool) (mag : Nat) : Nat := (if neg then 2 ^ (f.fw + f.ew) else 0) + mag
/-- Largest finite magnitude's encoding (R102). -/
def maxFin (f : Fmt) : Nat := if f.inf then (2 ^ f.ew - 1) * 2 ^ f.fw - 1 else 2 ^ (f.ew + f.fw) - 2
/-- Magnitude encoding of infinity. -/
def infMag (f : Fmt) : Nat := (2 ^ f.ew - 1) * 2 ^ f.fw
/-- The NaN of a format from a NaN's sign and fraction (R108). -/
def nanBits (f : Fmt) (neg : Bool) (frac : Nat) : Nat :=
  if f.fw ≤ 3 then fpack f neg (if f.inf then infMag f + 2 ^ (f.fw - 1) else 2 ^ (f.ew + f.fw) - 1)
  else
    let t := frac / 2 ^ (23 - f.fw)
    let q := if t / 2 ^ (f.fw - 1) % 2 == 1 then t else t + 2 ^ (f.fw - 1)
    fpack f neg (infMag f + q)

/-- m / 2^k rounded to an integer (R106). -/
def rshRound (r : Rnd) (neg : Bool) (m k : Nat) : Nat :=
  if k == 0 then m
  else if Nat.log2 m + 1 < k then
    (match r with
     | .down => if neg && m != 0 then 1 else 0
     | .up => if !neg && m != 0 then 1 else 0
     | _ => 0)
  else
    let q := m / 2 ^ k
    let rem := m % 2 ^ k
    let half := 2 ^ (k - 1)
    let inc := match r with
      | .even => half < rem || (rem == half && q % 2 == 1)
      | .away => half ≤ rem
      | .rz => false
      | .down => neg && rem != 0
      | .up => !neg && rem != 0
    if inc then q + 1 else q

/-- A value delivered to a float format (R107, R108): its encoding. -/
def narrowF (f : Fmt) (r : Rnd) (sat : Bool) (v : FV) : Nat :=
  match v with
  | .nan n fr => nanBits f n fr
  | .inf n => if sat then fpack f n (maxFin f) else if f.inf then fpack f n (infMag f) else nanBits f n 0
  | .fin n m e =>
    if m == 0 then fpack f n 0
    else
      let ex : Int := (Nat.log2 m : Int) + e
      let emin : Int := 1 - (f.bias : Int)
      let lsb : Int := max (ex - f.fw) (emin - f.fw)
      let q := if lsb ≤ e then m * 2 ^ (e - lsb).toNat else rshRound r n m (lsb - e).toNat
      if q < 2 ^ f.fw then fpack f n q
      else
        -- a carry out of the fraction moves into the exponent field by itself
        let field : Int := lsb + f.fw + f.bias
        let mag : Nat := (field.toNat - 1) * 2 ^ f.fw + q
        if maxFin f < mag then
          (if sat || r == .rz then fpack f n (maxFin f) else if f.inf then fpack f n (infMag f) else nanBits f n 0)
        else fpack f n mag

/-- One `round_even` rounding to a format (R105). -/
abbrev fround (f : Fmt) (v : FV) : Nat := narrowF f .even false v

/-- An integer of 2^w values from a float (R107): clamped, NaN gives 0. -/
def narrowI (signed : Bool) (w : Nat) (r : Rnd) (v : FV) : Int :=
  let lo : Int := if signed then -(2 ^ (w - 1) : Nat) else 0
  let hi : Int := if signed then (2 ^ (w - 1) : Nat) - 1 else (2 ^ w : Nat) - 1
  match v with
  | .nan _ _ => 0
  | .inf n => if n then lo else hi
  | .fin n m e =>
    let q : Nat := if 0 ≤ e then (if m == 0 then 0 else m * 2 ^ (min e 200).toNat) else rshRound r n m (-e).toNat
    let x : Int := if n then -(q : Int) else q
    max lo (min hi x)

/-- The value of an integer. -/
def fvInt (x : Int) : FV := .fin (x < 0) x.natAbs 0

/-- The signed integer m scaled to exponent e0 (e0 ≤ e). -/
def scaled (n : Bool) (m : Nat) (e e0 : Int) : Int :=
  let x : Int := m * 2 ^ (e - e0).toNat
  if n then -x else x

/-- The exact sum of two finite values; a zero sum is -0 only of two -0 (R105). -/
def addFin (n1 : Bool) (m1 : Nat) (e1 : Int) (n2 : Bool) (m2 : Nat) (e2 : Int) : FV :=
  if m1 == 0 && m2 == 0 then .fin (n1 && n2) 0 0
  else if m1 == 0 then .fin n2 m2 e2
  else if m2 == 0 then .fin n1 m1 e1
  else
    let e0 := min e1 e2
    let s := scaled n1 m1 e1 e0 + scaled n2 m2 e2 e0
    if s == 0 then .fin false 0 0 else .fin (s < 0) s.natAbs e0

/-- Exact sum with IEEE specials (R108). -/
def fvAdd (a b : FV) : FV :=
  match a, b with
  | .nan n f, _ => .nan n f
  | _, .nan n f => .nan n f
  | .inf x, .inf y => if x == y then .inf x else canonNan
  | .inf x, _ => .inf x
  | _, .inf y => .inf y
  | .fin n1 m1 e1, .fin n2 m2 e2 => addFin n1 m1 e1 n2 m2 e2

/-- Exact product with IEEE specials (R108). -/
def fvMul (a b : FV) : FV :=
  match a, b with
  | .nan n f, _ => .nan n f
  | _, .nan n f => .nan n f
  | .inf x, .inf y => .inf (x != y)
  | .inf x, .fin y m _ => if m == 0 then canonNan else .inf (x != y)
  | .fin y m _, .inf x => if m == 0 then canonNan else .inf (x != y)
  | .fin n1 m1 e1, .fin n2 m2 e2 => .fin (n1 != n2) (m1 * m2) (e1 + e2)

/-- a - b; a NaN in b keeps its sign. -/
def fvSub (a b : FV) : FV := fvAdd a (if b.isNan then b else b.flip)
/-- a * b + c exactly; NaNs in the order a, b, c. -/
def fvFma (a b c : FV) : FV :=
  if a.isNan then a else if b.isNan then b else if c.isNan then c else fvAdd (fvMul a b) c

/-- a < b on numbers; `negz`: -0 lies below +0 (R109). -/
def fvLt (negz : Bool) (a b : FV) : Bool :=
  match a, b with
  | .nan _ _, _ => false
  | _, .nan _ _ => false
  | .inf x, .inf y => x && !y
  | .inf x, _ => x
  | _, .inf y => !y
  | .fin n1 m1 e1, .fin n2 m2 e2 =>
    if m1 == 0 && m2 == 0 then negz && n1 && !n2
    else let e0 := min e1 e2; scaled n1 m1 e1 e0 < scaled n2 m2 e2 e0
def fvEq (a b : FV) : Bool := !a.isNan && !b.isNan && !fvLt false a b && !fvLt false b a

/-- fmin and fmax (R109). -/
def fvMin (a b : FV) : FV := if a.isNan then (if b.isNan then a else b) else if b.isNan then a else if fvLt true b a then b else a
def fvMax (a b : FV) : FV := if a.isNan then (if b.isNan then a else b) else if b.isNan then a else if fvLt true a b then b else a

/-- A left-to-right exact sum of terms, the first NaN winning (R392). -/
def fvSum (l : List FV) : FV :=
  match l with
  | [] => fzero
  | a :: rest => rest.foldl fvAdd a

/-- Clamp of `.sat` (R389): to [+0, 1]; NaN and -0 give +0. -/
def satUnit (f : Fmt) (x : Nat) : Nat :=
  match fdecode f x with
  | .nan _ _ => 0
  | v => if v.isZero || v.sign then 0 else if fvLt false (.fin false 1 0) v then f.bias * 2 ^ f.fw else x

/-- Rounding to an integral value (R390). -/
def fvIntegral (r : Rnd) (v : FV) : FV :=
  match v with
  | .fin n m e => if 0 ≤ e then v else .fin n (rshRound r n m (-e).toNat) 0
  | v => v

-- Functions of R391, in fixed point on integers. --------------------------------------------------

/-- Integer square root, by bits from 2^k down. -/
def isqrtLoop (n : Nat) : Nat → Nat → Nat
  | 0, r => if (r + 1) * (r + 1) ≤ n then r + 1 else r
  | k + 1, r => let t := r + 2 ^ (k + 1); isqrtLoop n k (if t * t ≤ n then t else r)
def isqrt (n : Nat) : Nat := if n == 0 then 0 else isqrtLoop n (Nat.log2 n / 2 + 1) 0

/-- A positive value m * 2^e known to lie strictly between two neighbours of its last place: one bit below it is set (`inexact`), so a later
rounding sees a remainder. -/
def sticky (neg : Bool) (m : Nat) (e : Int) (inexact : Bool) : FV := .fin neg (2 * m + b2n inexact) (e - 1)

/-- Fraction bits of the fixed-point work. -/
abbrev fxP : Nat := 448
/-- pi * 2^640, truncated. -/
def piFx : Nat := 0x3243f6a8885a308d313198a2e03707344a4093822299f31d0082efa98ec4e6c89452821e638d01377be5466cf34e90c6cc0ac29b7c97c50dd3f84d5b5b54709179216d5d98979fb1bd1310ba698dfb5ac
/-- x * 2^fxP, truncated, of a nonnegative m * 2^e. -/
def toFx (m : Nat) (e : Int) : Nat := let k := e + fxP; if 0 ≤ k then m * 2 ^ k.toNat else m / 2 ^ (-k).toNat

/-- Sum of the exponential series of y/2^fxP: term, index, fuel. -/
def expLoop (y : Nat) : Nat → Nat → Nat → Nat → Nat
  | 0, _, _, s => s
  | fuel + 1, k, t, s => let t' := t * y / 2 ^ fxP / k; if t' == 0 then s else expLoop y fuel (k + 1) t' (s + t')
/-- e^(y / 2^fxP) in fixed point, for 0 ≤ y < 2^fxP. -/
def expFx (y : Nat) : Nat := expLoop y 120 1 (2 ^ fxP) (2 ^ fxP)
/-- 2 artanh(z / 2^fxP). -/
def atanhLoop (z2 : Nat) : Nat → Nat → Nat → Nat → Nat
  | 0, _, _, s => s
  | fuel + 1, k, t, s => let t' := t * z2 / 2 ^ fxP; if t' == 0 then s else atanhLoop z2 fuel (k + 2) t' (s + t' / (k + 2))
def atanh2Fx (z : Nat) : Nat := 2 * atanhLoop (z * z / 2 ^ fxP) 160 1 z z
/-- ln 2 in fixed point: 2 artanh(1/3). -/
def ln2Fx : Nat := atanh2Fx (2 ^ fxP / 3)
/-- Alternating series of sine (from k = 1) and cosine (from k = 0). -/
def sinLoop (y2 : Nat) : Nat → Nat → Int → Int → Int
  | 0, _, _, s => s
  | fuel + 1, k, t, s =>
    let t' := -(t * y2 / (2 ^ fxP : Nat)) / (((k + 1) * (k + 2) : Nat) : Int)
    if t' == 0 || t' == -1 then s else sinLoop y2 fuel (k + 2) t' (s + t')
def sinFx (y : Nat) : Int := sinLoop (y * y / 2 ^ fxP) 90 1 y y
def cosFx (y : Nat) : Int := sinLoop (y * y / 2 ^ fxP) 90 0 (2 ^ fxP : Nat) (2 ^ fxP : Nat)

/-- Clamp of a magnitude to below 2^11 where the result is out of every format's range. -/
def clampMag (m : Nat) (e : Int) : Nat × Int := if 11 < (Nat.log2 m : Int) + e then (2048, 0) else (m, e)

/-- 2^(i + f) from x = m * 2^e (signed): the integral part and the fixed-point fraction, toward minus infinity, and whether the fraction is nonzero. -/
def splitFx (n : Bool) (m : Nat) (e : Int) : Int × Nat × Bool :=
  let (m, e) := clampMag m e
  let x := toFx m e
  let lost := e + fxP < 0 && m % 2 ^ (-(e + fxP)).toNat != 0
  let v : Int := if n then -(x : Int) - (if lost then 1 else 0) else x
  let i := v / (2 ^ fxP : Nat)
  let f := (v % (2 ^ fxP : Nat)).toNat
  (i, f, f != 0 || lost)

/-- e^x for x = m * 2^e (signed), as m' * 2^e' of about fxP bits. -/
def expVal (n : Bool) (m : Nat) (e : Int) : Nat × Int :=
  let (m, e) := clampMag m e
  let x := toFx m e
  let v : Int := if n then -(x : Int) else x
  let i := v / (ln2Fx : Nat)
  let r := (v % (ln2Fx : Nat)).toNat
  (expFx r, i - fxP)

/-- The functions of R391 on a value. -/
inductive Fn where
  | rcp | rsq | sqrt | exp2 | log2 | sin | cos | tanh | sig
  deriving DecidableEq, Repr

/-- Quadrant and fixed-point remainder of x = m * 2^e by pi/2. -/
def quad (m : Nat) (e : Int) : Nat × Nat :=
  -- x and pi/2 at 640 + 64 fraction bits
  let k := e + 640
  let x := if 0 ≤ k then m * 2 ^ k.toNat else m / 2 ^ (-k).toNat
  let h := piFx / 2
  (x / h % 4, x % h / 2 ^ (640 - fxP))

/-- The exact value of a function where it is exact, else a value that rounds as the exact one does (conventions: DEDUCED, assumption 24). -/
def fvFn (g : Fn) (v : FV) : FV :=
  match v with
  | .nan _ _ => v
  | .inf n =>
    match g with
    | .rcp => .fin n 0 0
    | .rsq => if n then canonNan else fzero
    | .sqrt => if n then canonNan else v
    | .exp2 => if n then fzero else v
    | .log2 => if n then canonNan else v
    | .sin | .cos => canonNan
    | .tanh => .fin n 1 0
    | .sig => if n then fzero else .fin false 1 0
  | .fin n m e =>
    if m == 0 then
      match g with
      | .rcp | .rsq => .inf n
      | .sqrt | .sin | .tanh => v
      | .exp2 | .cos => .fin false 1 0
      | .log2 => .inf true
      | .sig => .fin false 1 (-1)
    else
      match g with
      | .rcp => let t := 2 ^ (Nat.log2 m + 64); sticky n (t / m) (-(e + ((Nat.log2 m + 64 : Nat) : Int))) (t % m != 0)
      | .rsq =>
        if n then canonNan
        else
          let m2 := if e % 2 == 0 then m else 2 * m
          let e2 := if e % 2 == 0 then e else e - 1
          let k := Nat.log2 m2 + 64
          let t := 2 ^ (2 * k)
          let s := isqrt (t / m2)
          sticky false s (-(e2 / 2) - k) (s * s * m2 != t)
      | .sqrt =>
        if n then canonNan
        else
          let m2 := if e % 2 == 0 then m else 2 * m
          let e2 := if e % 2 == 0 then e else e - 1
          let t := m2 * 2 ^ 128
          let s := isqrt t
          sticky false s (e2 / 2 - 64) (s * s != t)
      | .exp2 =>
        let (i, f, ix) := splitFx n m e
        if ix then sticky false (expFx (f * ln2Fx / 2 ^ fxP)) (i - fxP) true else .fin false 1 i
      | .log2 =>
        if n then canonNan
        else
          let b := Nat.log2 m
          let x := (b : Int) + e
          if m == 2 ^ b then fvInt x
          else
            let y := m * 2 ^ fxP / 2 ^ b
            let z := (y - 2 ^ fxP) * 2 ^ fxP / (y + 2 ^ fxP)
            let l := atanh2Fx z * 2 ^ fxP / ln2Fx
            let s : Int := x * (2 ^ fxP : Nat) + l
            sticky (s < 0) s.natAbs (-(fxP : Int)) true
      | .sin =>
        if (Nat.log2 m : Int) + e < -100 then sticky n (m * 2 ^ 64 - 1) (e - 64) true
        else
        let (q, r) := quad m e
        let s : Int := match q with | 0 => sinFx r | 1 => cosFx r | 2 => -(sinFx r) | _ => -(cosFx r)
        sticky ((s < 0) != n) s.natAbs (-(fxP : Int)) true
      | .cos =>
        let (q, r) := quad m e
        let s : Int := match q with | 0 => cosFx r | 1 => -(sinFx r) | 2 => -(cosFx r) | _ => sinFx r
        sticky (s < 0) s.natAbs (-(fxP : Int)) true
      | .tanh =>
        if (Nat.log2 m : Int) + e < -100 then sticky n (m * 2 ^ 64 - 1) (e - 64) true
        else
        -- (t - 1) / (t + 1) with t = e^(2x), x > 0
        let (t, et) := expVal false m (e + 1)
        let k := (et + fxP).toNat
        let a := t * 2 ^ k - 2 ^ fxP
        let d := t * 2 ^ k + 2 ^ fxP
        sticky n (a * 2 ^ fxP / d) (-(fxP : Int)) true
      | .sig =>
        let (t, et) := expVal n m e
        if n then
          -- t / (1 + t), t < 1
          let k := (-et).toNat
          sticky false (t * 2 ^ fxP / (2 ^ k + t)) (et + ((k : Nat) : Int) - fxP) true
        else
          -- t / (1 + t), t > 1
          let u := t * 2 ^ (et + fxP).toNat
          sticky false (u * 2 ^ fxP / (u + 2 ^ fxP)) (-(fxP : Int)) true

-- Q4X (R110-R114) ----------------------------------------------------------------------------------

/-- The value of an E8M0 code (R104). -/
def e8m0 (e : Nat) : FV := if e == 255 then canonNan else .fin false 1 ((e : Int) - 127)

/-- Element `i`'s nibble of 16 data bytes. -/
def q4nib (d : BitVec 128) (i : Nat) : Nat := nbits d (4 * i) 4

/-- Outlier pairs: bytes with exactly one escape nibble, ascending (R111). -/
def q4pairs (d : BitVec 128) : List Nat :=
  (upto 16).filter (fun j => (q4nib d (2 * j) == 8) != (q4nib d (2 * j + 1) == 8))

/-- The value of an outlier's code; a NaN is the canonical one with the code's sign (R112). -/
def q4code (c : Nat) : FV := match fdecode fmtE4m3 c with | .nan n _ => .nan n 0x400000 | v => v
/-- The value of element `i` of a block (R111, R112). -/
def q4elem (d : BitVec 128) (scale : BitVec 16) (i : Nat) : FV :=
  let s := e8m0 (nbits scale 0 8)
  if s.isNan then canonNan
  else
    let j := i / 2
    let mine := q4nib d i
    let other := q4nib d (2 * j + (1 - i % 2))
    if mine == 8 && other == 8 then fzero
    else if mine == 8 || other == 8 then
      match (q4pairs d).idxOf? j with
      | some 0 => if mine == 8 then fvMul (q4code (nbits scale 8 4 * 16 + other)) s else fzero
      | some 1 => if mine == 8 then fvMul (q4code (nbits scale 12 4 * 16 + other)) s else fzero
      | _ => fzero
    else fvMul (fvInt (toSigned 4 mine)) s

/-- Magnitude of a value; NaN as zero. -/
def fvAbs : FV → FV
  | .nan _ f => .nan false f
  | .inf _ => .inf false
  | .fin _ m e => .fin false m e

/-- The two outliers of a block, in the order they are chosen (R113). -/
def q4outliers (x : List FV) (exp : Nat) : List Nat :=
  let lim : FV := .fin false 15 ((exp : Int) - 128)
  let cand := (upto 32).filter (fun i => fvLt false lim (fvAbs (x.getD i fzero)))
  -- descending magnitude, ties to the lower index
  let ins := fun (l : List Nat) (i : Nat) =>
    l.takeWhile (fun j => !fvLt false (fvAbs (x.getD j fzero)) (fvAbs (x.getD i fzero))) ++
      i :: l.dropWhile (fun j => !fvLt false (fvAbs (x.getD j fzero)) (fvAbs (x.getD i fzero)))
  let ordered := cand.foldl ins []
  ordered.foldl (fun out i => if out.length < 2 && !out.contains (i ^^^ 1) then out ++ [i] else out) []

/-- A block encoded with scale 2^(exp - 127) (R113): data and scale record. -/
def q4encode (x : List FV) (exp : Nat) : BitVec 128 × BitVec 16 :=
  let inv : FV := .fin false 1 (127 - (exp : Int))
  let out := q4outliers x exp
  let code := fun i => narrowF fmtE4m3 .away true (fvMul (x.getD i fzero) inv)
  let nib := fun i =>
    if out.contains i then 8
    else if out.contains (i ^^^ 1) then code (i ^^^ 1) % 16
    else match x.getD i fzero with
      | .nan _ _ => 0
      | .inf n => if n then 9 else 7
      | v => wrap 4 (max (-7) (min 7 (narrowI true 32 .away (fvMul v inv))))
  let data := (upto 32).foldl (fun (d : BitVec 128) i => setBits d (4 * i) 4 (nib i)) 0
  let lo := out.foldl min 32
  let hi := out.foldl max 0
  let highA := if out.length ≥ 1 then code lo / 16 else 0
  let highB := if out.length == 2 then code hi / 16 else 0
  (data, BitVec.ofNat 16 (exp + highA * 256 + highB * 4096))

/-- EXP derived from the values (R114) (conventions: DEDUCED, assumption 25). -/
def q4exp (x : List FV) : Nat :=
  let fins := (x.filter (fun v => match v with | .fin _ _ _ => true | _ => false)).map fvAbs
  let ins := fun (l : List FV) (v : FV) => l.takeWhile (fun w => !fvLt false w v) ++ v :: l.dropWhile (fun w => !fvLt false w v)
  let ordered := fins.foldl ins []
  let m3 := ordered.getD 2 fzero
  let m := if m3.isZero then ordered.getD 0 fzero else m3
  if m.isZero then 0x7F
  else ((upto 255).find? (fun (e : Nat) => !fvLt false (.fin false 7 ((e : Int) - 127)) m)).getD 254

end Sys2Proof.Machine
end

