-- ==== Sys2Proof/Config.lean ====
section
/-! DEFINITION. The free values of the model (R9): bit patterns the spec leaves undefined. They have no body, so nothing can be proved of them but
what holds of every value. Each use applies one to the counter `State.free`, which the use advances. -/
namespace Sys2Proof

/-- An undefined 32-bit value (R9) (DESIGN CHOICE, assumption 2). -/
opaque Config.freeWord : Nat → Word
/-- An undefined byte (R9) (DESIGN CHOICE, assumption 2). -/
opaque Config.freeByte : Nat → Byte
/-- An open choice between two outcomes that the spec allows (DESIGN CHOICE, assumptions 2, 22). -/
opaque Config.freeBool : Nat → Bool
/-- `abs` and `neg` of an operand read as q4x (R326): the rule gives them for float, i and n types only (DESIGN CHOICE, assumption 13). -/
opaque Config.q4xAbsNeg : Bool → Bool → Nat → Word

/-- The digest of the root public key that the Terminus ROM holds (R304): fixed for the device, and not in the spec (DESIGN CHOICE, assumption 105). -/
opaque Config.rootKeyDigest : BitVec 512

end Sys2Proof
end

