-- ==== Sys2Proof/Machine/State.lean ====
section
/-! DEFINITION. The state of the SF-64: everything the spec gives the machine, as plain data, and its value after reset.
Maps are sparse lists in ascending key order; a key a map does not list holds the value its docstring names. -/
namespace Sys2Proof.Machine

/-- Reasons the machine stops. Both are raised when a step is asked of an agent that has nothing to do; the device never
does so, and they are safe. -/
inductive Fault where
  /-- An instruction word was handed to `exec` although the core in turn runs no clause and begins none. Raised by the issue of
  every instruction (R26, R27). Safe: no instruction issues there on the device either. -/
  | noConsist
  /-- A drill command was handed to `exec` although the block in turn has no such command issuing. Raised by every drill command
  (R219). Safe. -/
  | noDrill
  deriving DecidableEq, Repr

/-- Reasons an instruction gets no meaning. -/
inductive Refusal where
  /-- The instruction has no meaning in the model yet. Raised by exec's arms only. Safe. -/
  | notModelled (mnemonic : String)
  deriving DecidableEq, Repr

/-- The three trap states of a thread (R86). -/
inductive TrapState where
  | normal | raised | handler
  deriving DecidableEq, Repr, Inhabited

/-- A recorded or queued trap cause (R84, R85): CODE, DETAIL, the TRAPPC and TRAPVA it will write, and the REPCOUNT values
(DONE, TOTAL) of a cause raised inside a `repeat` (R358). -/
structure TrapInfo where
  code   : BitVec 8
  detail : BitVec 8
  pc     : DWord
  va     : DWord
  rep    : Option (BitVec 16 × BitVec 16)
  deriving DecidableEq, Repr, Inhabited

/-- What a `mwait` waits for (R440): a command of the drill's table by its unique number, the first command with this ID read from now
on, or the retirement of `dend`. -/
inductive MTarget where
  | cmd (uid : Nat)
  | firstId (id : BitVec 8)
  | all
  deriving DecidableEq, Repr, Inhabited

/-- A stabling-table wait (R33). -/
inductive Wait where
  | barrier (b : Nat)
  | address (watch : Nat)
  /-- A sleep of some cycles that the end of the running clause starts (R359), and a sleep that runs. -/
  | doze (n : Nat)
  | sleep (deadline : Nat)
  | grow (req : Nat)
  | tag (mask : DWord) (any : Bool)
  | matrix (t : MTarget) (pc : DWord)
  | ysend
  | yrecv
  | rank
  deriving DecidableEq, Repr, Inhabited

/-- Where a thread stands in the yard (R29, R30, R33, R353). -/
inductive Place where
  | consist (uid : Nat)
  | siding (idx : Nat)
  | ready
  | waiting
  | rankWait
  | exited
  deriving DecidableEq, Repr, Inhabited

/-- How a thread came to its next PC, which decides its target check (R90, R311): without a checked transfer, by a branch, call or
return, or by a `tret` (`written`: a `sets` has written TRAPPC since delivery). -/
inductive Via where
  | fall
  | branch
  | tret (written : Bool)
  deriving DecidableEq, Repr, Inhabited

/-- A flag cleared by a clause (R71-R73): flag number, clause, which conditions set it again, and whether the thread has left that clause.
A flag with no such entry reads set (R70). -/
structure FlagWait where
  flag   : Nat
  clause : Nat
  onA    : Bool
  onB    : Bool
  closed : Bool := false
  deriving DecidableEq, Repr, Inhabited

/-- An outstanding result (`a`) or memory access (`b`) of a clause (R71, R72). -/
structure Out where
  id     : Nat
  clause : Nat
  a      : Bool
  b      : Bool
  /-- Field and pseudo-channel of each access, whether one of them was held when it was made, and whether it waits for earlier accesses (R148). -/
  pchs   : List (Nat × Nat) := []
  held   : Bool := false
  fence  : Bool := false
  /-- The registers that a held load or atomic owes (R27, R148). -/
  dests  : List Nat := []
  deriving DecidableEq, Repr, Inhabited

/-- A thread (R45, R48, R70, R84, R85, R91). -/
structure Thread where
  /-- v0-v255, 32 bits each (R45); a register not listed reads +0. -/
  vregs   : SMap Word := []
  /-- s0-s63, 32 bits each (R45, R49); a register not listed reads 0. -/
  sregs   : SMap Word := []
  /-- p0-p6 in bits 0-6 (R45); bit 7 is not read: p7 reads 1 (R50). -/
  preds   : BitVec 8 := 0
  /-- The thread's PC at its next clause, its resume PC (R74, R85). -/
  pc      : DWord := 0
  /-- The target set by a control transfer of the running clause (R349). -/
  nextPc  : Option DWord := none
  /-- How `pc` was reached (R311). -/
  via     : Via := .fall
  /-- False once the thread has left its block (R39). -/
  live    : Bool := true
  place   : Place := .ready
  /-- The waits begun and not over (R33); the thread is woken when none is left. -/
  waits   : List Wait := []
  /-- A wait has begun in the running clause, over or not (R29, R33). -/
  began   : Bool := false
  /-- Images of flags f0-f11 (R70): those cleared and what they wait for. -/
  flags   : List FlagWait := []
  outs    : List Out := []
  /-- Pending marks: register specifier and operand-log entry (R60). -/
  marks   : List (Nat × Nat) := []
  trap    : TrapState := .normal
  /-- The cause recorded in the running clause (R86). -/
  raised  : Option TrapInfo := none
  /-- TRAPCAUSE, TRAPPC, TRAPVA (R84, R85). -/
  cause   : Word := 0
  trappc  : DWord := 0
  trapva  : DWord := 0
  /-- A `sets` has written TRAPPC since delivery (R90). -/
  trappcWritten : Bool := false
  /-- The kept REPCOUNT of a thread that trapped inside a `repeat` (R358). -/
  keptRep : Word := 0
  /-- Queued deferred causes, one of each kind (R86). -/
  deferred : List TrapInfo := []
  /-- Register words with stored bit errors (R58): the register, and which bits are inverted: bits 0 and 1 those that `errinj` inverts (R373), bits 2 and 3
one and another of the rest. -/
  regErr  : List (Nat × BitVec 4) := []
  /-- Registers whose value lies in the backing area only (R55, R56). -/
  spilled : List Nat := []
  /-- Quanta pinned by a spill fault, with the fault record's number (R57); none while the record waits for a place in a full fault queue (R217), or the
write-back for its pseudo-channel (R148). -/
  pinned  : List (Nat × Option Word) := []
  /-- The next shadowed instruction reports a mismatch (R373, kind 4). -/
  shadowInj : Bool := false
  /-- Orders threads whose waits ended before the clause in which they began did (R455). -/
  woke    : Nat := 0
  deriving DecidableEq, Repr, Inhabited

/-- A `repeat` in progress (R82, R356, R357). -/
structure Rep where
  total : Nat
  done  : Nat
  step  : Nat
  mask  : BitVec 4
  guarded : Bool
  deriving DecidableEq, Repr, Inhabited

/-- The clause state of a consist (R74) with the fetched slots of the clause (R312). -/
structure Clause where
  id        : Nat
  header    : DWord
  len       : Nat
  issued    : Nat := 0
  words     : List IWord := []
  suspended : Bool := false
  /-- It is suspended for an entry of a full operand log, or a place in a full fault queue (R27, R217). -/
  noRoom    : Bool := false
  stopped   : List Nat := []
  marshalled : Bool := false
  rankWait  : List Nat := []
  exits     : List Nat := []
  yielded   : Bool := false
  rep       : Option Rep := none
  /-- The instructions that the line words mark as the second of a pair (R310, R313). -/
  pairs     : List Nat := []
  deriving DecidableEq, Repr, Inhabited

/-- A consist (R74-R76): block, slot map (32 slots, rank or vacant), canonical mark, clause state. -/
structure Consist where
  uid    : Nat
  blk    : Nat
  slots  : List (Option Nat)
  canon  : Bool := false
  base   : Nat := 0
  clause : Option Clause := none
  /-- The step at which the consist became eligible (R26); none while it is not. -/
  eligible : Option Nat := none
  /-- Local cycle before which a `yield` keeps it ineligible (R354). -/
  yieldUntil : Option Nat := none
  /-- The number of the fault record its next clause's fetch waits on (R230). -/
  fetchWait : Option Word := none
  /-- A replay command has released its fetch while its block was not resident: the next fault of it is a refault (R232). -/
  again : Bool := false
  deriving DecidableEq, Repr, Inhabited

/-- An operand-log entry (R59): the instruction as it issued, its PC, the registers of the consist's members then, the faulted
threads, the destination registers marked, and its fault record. -/
structure LogEntry where
  id      : Nat
  uid     : Nat
  slot    : Nat
  cn      : Nat
  instr   : Instr
  pc      : DWord
  clause  : Nat
  slots   : List (Option Nat)
  canon   : Bool
  base    : Nat
  snap    : List (Nat × SMap Word × SMap Word × BitVec 8)
  lanes   : List Nat
  /-- Every active thread of the instruction, as (slot, rank), and the `repeat` it issued in. -/
  all     : List (Nat × Nat) := []
  rep     : Option Rep := none
  dests   : List Nat
  seq     : Word
  access  : Nat
  /-- 4 KiB pages of the recorded accesses; empty for a register fill (R165). -/
  pages   : List Nat := []
  /-- Source registers that the replay fills again (R59): rank and register. -/
  fills   : List (Nat × Nat) := []
  acquire : Bool := false
  waiting : Bool := true
  refaulted : Bool := false
  /-- A commanded replay of `trec` that waits for its record slot (R432). -/
  retry   : Bool := false
  /-- Orders the replay commands that wait (R60). -/
  arrival : Nat := 0
  deriving DecidableEq, Repr

/-- A siding (R30, R31): its key, its threads with their arrival times, and whether it is due. -/
structure Siding where
  blk     : Nat
  pc      : DWord
  handler : Bool
  ranks   : List Nat
  since   : Nat
  due     : Bool
  /-- The step at which it opened, which orders sidings of one local cycle. -/
  order   : Nat := 0
  deriving DecidableEq, Repr, Inhabited

/-- A 128-byte cache line (R135): data, which bytes are present, which are dirty, the `.ro` mark of R413, poisoned 8-byte words (R140), and the way of
its slice that holds an alias line (R137). -/
structure Line where
  data   : BitVec 1024
  valid  : BitVec 128
  dirty  : BitVec 128
  kept   : Bool := false
  poison : BitVec 16 := 0
  way    : Nat := 0
  deriving DecidableEq, Repr, Inhabited

/-- A cached leaf translation (R227): root, virtual base, log2 of its size, physical base, W, X, D, and the world of its granule; of a page of 1 GiB, the
granules of it that were secure when it was filled, numbered from its base (R145). -/
structure TlbEntry where
  root   : Nat
  va     : Nat
  log2   : Nat
  pa     : Nat
  w      : Bool
  x      : Bool
  d      : Bool
  secure : Bool
  secs   : List Nat := []
  deriving DecidableEq, Repr, Inhabited

/-- A yoke FIFO entry (R77, R218): the launch of its sender and 128 bytes; `up` says which way it travels (toward the upper core). -/
structure YEntry where
  launch : Nat
  up     : Bool
  bytes  : List Byte
  deriving DecidableEq, Repr, Inhabited

/-- A thread waiting in `ysend` or `yrecv` (R425): block, rank and the access it will make. -/
structure YWaiter where
  blk   : Nat
  rank  : Nat
  space : Nat
  addr  : Nat
  deriving DecidableEq, Repr, Inhabited

/-- An instruction in the shadow queue (R92): block and, by slot, the ranks whose results are compared. -/
structure ShadowEnt where
  blk   : Nat
  pc    : DWord
  slots : List (Option Nat)
  forced : BitVec 32
  /-- REPCOUNT of the iteration, for an instruction issued in a `repeat` (R82). -/
  rep    : Option (BitVec 16 × BitVec 16) := none
  deriving DecidableEq, Repr, Inhabited

/-- A physical core (R20, R25, R30, R55, R77, R92, R135, R136, R227). -/
structure Core where
  /-- Consists by consist number 0-63. -/
  consists : SMap Consist := []
  /-- Sidings 0-63. -/
  sidings  : SMap Siding := []
  /-- Threads marked ready, oldest first: block and rank. -/
  ready    : List (Nat × Nat) := []
  /-- The consist number whose clause the port runs (R27). -/
  running  : Option Nat := none
  /-- L1 lines by physical line number (R135). -/
  l1       : SMap Line := []
  /-- Core TLB (R227). -/
  tlb      : List TlbEntry := []
  /-- Fetch buffer: 64-byte fetch lines by physical address (R136). -/
  fetchBuf : SMap (BitVec 512) := []
  /-- Scratchpad bytes by physical offset; a byte not listed reads 0 (R132). -/
  scratch  : SMap Byte := []
  /-- Poisoned and single-bit-error scratch words (8-byte word number, double). -/
  scratchErr : List (Nat × Bool) := []
  /-- FIFO toward the yoke partner, oldest first (R77). -/
  fifo     : List YEntry := []
  ysendQ   : List YWaiter := []
  yrecvQ   : List YWaiter := []
  /-- Shadow queue of at most 8 (R92). -/
  shadowQ  : List ShadowEnt := []
  /-- Slots whose result the next comparison with idle lanes finds different (R92). -/
  laneErr  : BitVec 32 := 0
  /-- The core keeps room for a block held for it by the upper-tier gate (R456). -/
  heldFor  : Bool := false
  deriving DecidableEq, Repr, Inhabited

/-- One phase of a numbered barrier (R364, R365): its number, its fixed count (0: every live thread) and who arrived. -/
structure Phase where
  no      : Nat
  count   : Nat
  arrived : List Nat
  deriving DecidableEq, Repr, Inhabited

/-- A numbered barrier: incomplete phases oldest first, phases completed, and phases the drill has consumed (R447). -/
structure Barrier where
  phases    : List Phase := []
  next      : Nat := 0
  completed : Nat := 0
  consumed  : Nat := 0
  deriving DecidableEq, Repr, Inhabited

/-- A tag (R278): set bit, outstanding count, completion record, and the number of the `coll` last issued on it (R452). -/
structure Tag where
  set   : Bool := true
  count : Nat := 0
  crec  : Word := 0
  coll  : Option Nat := none
  /-- The widest scope of the completions merged since the tag was last set, for its acquire (R169). -/
  scope : Nat := 0
  deriving DecidableEq, Repr, Inhabited

/-- A record slot (R79): the 128-byte record, valid bit, reference count. -/
structure RecSlot where
  bits  : BitVec 1024 := 0
  valid : Bool := false
  refs  : Nat := 0
  deriving DecidableEq, Repr, Inhabited

/-- A receive slot of multicast (R435). -/
inductive RecvSlot where
  | idle
  | armed (off len tag : Nat)
  | receiving (off len tag : Nat)
  deriving DecidableEq, Repr, Inhabited

/-- A command in the drill's table (R219): its unique number, the command, the uids of its predecessors, whether it has issued and finished,
its progress row, whether it waits on a fault, its latched records, and its NaN count so far. -/
structure DEnt where
  uid     : Nat
  instr   : Instr
  cmd     : DCmd
  preds   : List Nat
  issued  : Bool := false
  done    : Bool := false
  failed  : Option (BitVec 8) := none
  denied  : Bool := false
  row     : Nat := 0
  fault   : Option Word := none
  recA    : Option (BitVec 1024) := none
  recB    : Option (BitVec 1024) := none
  nans    : Nat := 0
  /-- As `Consist.again`. -/
  again   : Bool := false
  /-- Orders the commands as they issued (R445). -/
  order   : Nat := 0
  deriving DecidableEq, Repr

/-- A command read since the last `drill` (R440): its ID and unique number, whether it has retired, and the commands that are complete when it
is: its predecessors and the earlier ones of its tile, with theirs (R52). -/
structure DPast where
  id      : BitVec 8
  uid     : Nat
  retired : Bool := false
  before  : List Nat := []
  deriving DecidableEq, Repr, Inhabited

/-- A block's drill (R219, R328, R329, R438-R440). -/
structure Drill where
  reading : Bool := false
  addr    : DWord := 0
  fault   : Option Word := none
  table   : List DEnt := []
  failure : Option (BitVec 8) := none
  history : List DPast := []
  nextUid : Nat := 0
  /-- Ready counters 0-15 (R439). -/
  readyCtr : SMap Nat := []
  /-- Commands that write a tile and that no `mwait` has completed yet: uid and tile (R52). -/
  owed    : List (Nat × Nat) := []
  /-- As `Consist.again`. -/
  again   : Bool := false
  deriving DecidableEq, Repr, Inhabited

/-- A request of `grow` or its kin that waits for backing (R367): its number, kind (0 grow, 1 growa), operand, destination specifier, consist, threads, PC, start. -/
structure GrowReq where
  id    : Nat
  kind  : Nat
  x     : Nat
  d     : BitVec 9
  ranks : List Nat
  pc    : DWord
  /-- Local cycle of its field at which it began to wait, less the cycles it waited on other fields (R367); while its block is saved, the cycles it has waited. -/
  since : Int
  /-- Number of the outstanding result (R71). -/
  out   : Nat
  /-- The operand-log entry it was replayed from (R60). -/
  entry : Option Nat := none
  deriving DecidableEq, Repr, Inhabited

/-- A `trsync` that waits for acknowledgements (R235): its outstanding number, its threads and the invalidations it waits for. -/
structure Sync where
  out    : Nat
  ranks  : List Nat
  invals : List Nat
  deriving DecidableEq, Repr, Inhabited

/-- The life of a block (R36, R37, R40, R42). -/
inductive BlkPhase where
  | resident | stopping | saved | killed
  deriving DecidableEq, Repr, Inhabited

/-- The snapshot of a completed barrier in a rollback region (R64): the threads with their registers and yard state, the consists, sidings and ready
order, and the barriers. -/
structure Snapshot where
  members  : SMap Thread
  consists : List Consist
  sidings  : List Siding
  ready    : List Nat
  barriers : SMap Barrier
  /-- Requests with a lower number were made before the barrier completed: their results are the snapshot's too. -/
  mark     : Nat := 0
  deriving DecidableEq, Repr, Inhabited

/-- A block (R16, R20, R48, R66, R68, R91, R94). -/
structure Block where
  id       : Nat
  launch   : Nat
  queue    : Nat
  /-- Physical address of the region control block (R17). -/
  region   : Nat
  phase    : BlkPhase := .resident
  /-- Physical core key (field * 256 + core). -/
  core     : Nat
  /-- Logical FIELDID and COREID (R68). -/
  lfield   : Nat
  lcore    : Nat
  index    : Nat
  gridpos  : DWord
  griddim  : DWord
  threads  : Nat
  /-- ALLOT.REGS (R63). -/
  allot    : Nat
  args     : DWord
  /-- Base of the register-backing area (R53). -/
  backing  : DWord
  scratchStart : Nat
  scratchSize  : Nat
  /-- The saved scratch grant of a block that is not resident (R132). -/
  savedScratch : SMap Byte := []
  savedScratchErr : List (Nat × Bool) := []
  /-- Its save has begun: its tiles are no longer live (R148, R298). -/
  saving   : Bool := false
  /-- Killed while it stood on its core, whose room stays its own until DRAINED (R42). -/
  occupies : Bool := false
  accs     : Nat
  /-- Accumulator elements by tile * 1024 + row * 32 + column; an element not listed reads +0.0 (R52). -/
  acc      : SMap Word := []
  recs     : List RecSlot := []
  tags     : List Tag := []
  recv     : SMap RecvSlot := []
  /-- Neighbourhood: first block of it, rows, columns, own slot (R23, R201). -/
  nbhd     : Option (Nat × Nat × Nat × Nat) := none
  members  : SMap Thread := []
  barriers : SMap Barrier := []
  /-- Operand-log entries of the block's consists (R59). -/
  log      : List LogEntry := []
  /-- Non-preemptible window: counter and holders; closed when no holder (R91). -/
  winStart : Nat := 0
  holders  : List Nat := []
  drill    : Drill := {}
  /-- NANCNT (R282). -/
  nancnt   : Word := 0
  grows    : List GrowReq := []
  /-- `trsync`s under way (R235). -/
  syncs    : List Sync := []
  /-- Snapshot of the last completed barrier (R64), and whether one is due at the end of this instruction. -/
  snapshot : Option Snapshot := none
  snapDue  : Bool := false
  /-- A first SHADOW_MISMATCH or REG_UNCORR has rolled the block back in this interval (R93). -/
  rolled   : Bool := false
  /-- Held by `ctxsave`, by a halt for debug (R372, R89), or for its core by the gate (R456). -/
  held     : Bool := false
  coreHeld : Bool := false
  halted   : Bool := false
  /-- Context handle (R372). -/
  handle   : DWord := 0
  /-- Status of its last resumption: CTX_BAD (2) where the image failed its checks (R96). -/
  resumeStatus : Nat := 0
  /-- Saved consists, sidings and ready order of a block that is not resident (R94). -/
  savedConsists : List Consist := []
  savedSidings  : List Siding := []
  savedReady    : List Nat := []
  savedSend     : List YWaiter := []
  savedRecv     : List YWaiter := []
  /-- Field and pseudo-channel of the bytes of its accumulator save area (R298). -/
  savePchs : List (Nat × Nat) := []
  /-- Dispatch time, order of dispatch and residence so far in core-cycles (R206, R207). -/
  since    : Nat := 0
  order    : Nat := 0
  residence : Nat := 0
  deriving DecidableEq, Repr, Inhabited

/-- A furrow sequencer operation (R186, R457). -/
structure FwOp where
  id     : Nat
  blk    : Nat
  /-- Key of the issuing core. -/
  core   : Nat
  tag    : Nat
  instr  : Instr
  /-- Way mask; an accepted `wpart` names every way. -/
  ways   : BitVec 16
  /-- Operand values read at issue: first register operand, pair or coordinates. -/
  vals   : List DWord
  record : Option (BitVec 1024) := none
  slot   : Option Nat := none
  column : Nat := 0
  image  : Option (BitVec 32) := none
  fault  : Option Word := none
  poisoned : Bool := false
  discard : Bool := false
  /-- The segments of bad parity it reads have been counted (R283). -/
  counted : Bool := false
  /-- As `Consist.again`. -/
  again   : Bool := false
  deriving DecidableEq, Repr

/-- An LLC slice (R137, R173-R178, R187): partition in force, committed partition, partition number, queue, furrow world, furrow rows. -/
structure Slice where
  inForce   : BitVec 32 := 0
  committed : BitVec 32 := 0
  number    : Word
  queue     : List FwOp := []
  furWorld  : Option Bool := none
  /-- Furrow bits: key way * 128 + row; a row not listed is 0 in every column (R180). -/
  rows      : SMap (BitVec 65536) := []
  /-- Row segments with bad parity: way, row, segment (R188). -/
  badSeg    : List (Nat × Nat × Nat) := []
  /-- LLC scratch bytes: key way * 2^20 + offset; a byte not listed reads 0 (R137). -/
  scratch   : SMap Byte := []
  scratchErr : List (Nat × Bool) := []
  deriving DecidableEq, Repr, Inhabited

/-- The work that waits for the answer to a fault record (R230). -/
inductive FSource where
  | consist (blk entry : Nat)
  | fetch (blk uid : Nat)
  | copy (op : Nat)
  | furrow (field slice op : Nat)
  | drillRead (blk : Nat)
  | drillCmd (blk uid : Nat)
  | coll (seq : DWord) (field chunk : Nat)
  | collDesc (op : Nat)
  | spill (blk rank quantum : Nat)
  | double (blk : Nat)
  deriving DecidableEq, Repr, Inhabited

/-- A fault record (R229), its source, and whether it still awaits an answer. -/
structure FRec where
  va      : DWord
  seq     : Word
  kind    : BitVec 3
  refault : Bool
  access  : BitVec 4
  source  : BitVec 2
  secure  : Bool
  core    : BitVec 8
  unit    : BitVec 6
  drill   : Bool
  double  : Bool
  root    : Nat
  level   : BitVec 3
  entry   : BitVec 3
  cause   : BitVec 6
  pa      : Nat
  src     : FSource
  open_   : Bool
  /-- Handed to the signal box (R217): the record has left the field's queue. -/
  taken   : Bool := false
  /-- The effective FAULTHOST of its block's region and the block's handle when it was sent (R214, R230). -/
  host    : Bool := false
  handle  : DWord := 0
  /-- Its replayed atomic met an alias address (R408). -/
  aliased : Bool := false
  deriving DecidableEq, Repr, Inhabited

/-- A non-leaf entry of a field's walk cache (R227): root, level of the table entry read, the address bits that lead to it, and the next table. -/
structure WalkEntry where
  root   : Nat
  level  : Nat
  prefix_ : Nat
  table  : Nat
  deriving DecidableEq, Repr, Inhabited

/-- The registers of one fill-transform window (R249). -/
structure Window where
  ctl   : DWord := 0
  enc   : DWord := 0
  len   : DWord := 0
  scale : DWord := 0
  deriving DecidableEq, Repr, Inhabited

/-- A performance counter (R287). -/
structure Perf where
  sel : DWord := 0
  cnt : BitVec 48 := 0
  deriving DecidableEq, Repr, Inhabited

/-- A watch of `waitaddr` (R360, R361): number, physical address, size, block and rank, and registration order. -/
structure Watch where
  id   : Nat
  pa   : Nat
  blk  : Nat
  rank : Nat
  deriving DecidableEq, Repr, Inhabited

/-- A field (R5, R12, R139, R187, R217, R284, R287, R290-R298). -/
structure Field where
  /-- Local cycles since reset (R5). -/
  now      : Nat := 0
  /-- Remote-data cache (R139). -/
  rdc      : SMap Line := []
  /-- Walk-ahead TLB of the Tensor Translation Unit (R227). -/
  walkTlb  : List TlbEntry := []
  /-- Walk cache, at most 256 entries (R227). -/
  walkCache : List WalkEntry := []
  faults   : List FRec := []
  faultSeq : Word := 0
  slices   : SMap Slice := []
  curSlice : Nat := 0
  scrWorld : Option Bool := none
  windows  : SMap Window := []
  perf     : SMap Perf := []
  /-- Event counters by offset 0x000-0x078 (R284); one not listed is 0. -/
  evcnt    : SMap DWord := []
  watches  : List Watch := []
  /-- GRADIENT (R290), the requirement in force and its relaxed history (R292), GOVSENSE (R291). -/
  state    : Nat := 0
  ceiling  : Nat := 0
  tripped  : Bool := false
  capForce : Nat := 0
  divForce : Nat := 0
  relCap   : Nat := 0
  relDiv   : Nat := 0
  sense    : DWord := 0
  shares   : List (Nat × Nat × Nat) := []
  /-- By region block address, the BWSHARE and POWSHARE limits that stay in force until the window in progress ends (R257). -/
  oldShares : List (Nat × Nat × Nat) := []
  /-- Pseudo-channel power states (0 ACTIVE, 1 SELF_REFRESH, 2 POWER_DOWN); one not listed is ACTIVE (R298). -/
  pchState : SMap Nat := []
  pcpwr    : DWord := 0
  pcpwrErr : Bool := false
  /-- 0 none, 1 PENDING, 2 HELD_ACC (R298). -/
  pcpwrReq : Nat := 0
  /-- The pseudo-channel being retrained (R297). -/
  retrain  : Option Nat := none
  /-- TD as last sensed, by start-up's training or by an evaluation, and at the last training of each pseudo-channel, in 1/16 degree (R291, R297). -/
  td       : Int := 0
  trainTd  : SMap Int := []
  /-- The single-bit corrections of each pseudo-channel in the window in progress (R297). -/
  corrected : SMap Nat := []
  /-- The upper tier is powered down (R78, R456), and the yokes' lower-tier buffers by lower core. -/
  gated    : Bool := false
  /-- A gate of its upper tier has begun and is not down yet (R456). -/
  gating   : Bool := false
  yokeBuf  : SMap (List YEntry) := []
  testing  : Bool := false
  deriving DecidableEq, Repr, Inhabited

/-- QSTATE (R194). -/
inductive QState where
  | unbound | active | stopped | faulted | killing
  deriving DecidableEq, Repr, Inhabited

/-- A queue slot (R193, R194, R205, R206, R208, R209). -/
structure Queue where
  state   : QState := .unbound
  /-- The loaded descriptor's 256 bits (R193). -/
  desc    : BitVec 256 := 0
  wr      : Word := 0
  rd      : Word := 0
  deficit : Int := 0
  nextSeq : DWord := 1
  /-- Launches taken and not ended, and commands pending completion. -/
  launches : List Nat := []
  /-- The launch at the head, not wholly dispatched (R202). -/
  head    : Option Nat := none
  /-- A SIGNAL at the head, taken and waiting: its index and the entry's bits (R197). -/
  signal  : Option (Nat × BitVec 512) := none
  /-- The release of the head's WAITV is latched (R260). -/
  released : Bool := false
  deriving DecidableEq, Repr, Inhabited

/-- A launch taken by the arbiter (R198, R202, R41). -/
structure Launch where
  id      : Nat
  queue   : Nat
  index   : Nat
  entry   : BitVec 512
  kdesc   : BitVec 256 := 0
  checked : Bool := false
  /-- Next block (linear index) to dispatch; `live` blocks dispatched and not ended. -/
  next    : Nat := 0
  live    : Nat := 0
  /-- No further block of it is dispatched (R41). -/
  stop    : Bool := false
  killed  : Bool := false
  sum     : Nat := 0
  ended   : Bool := false
  /-- Ranges of its use list that found no room in device memory and stay in host memory (R242). -/
  stay    : List (Nat × Nat) := []
  deriving DecidableEq, Repr, Inhabited

/-- A launch record on its way to the Terminus (R196, R369): block, threads, destination specifier, image, queue, launching region, and the
outstanding-result number. -/
structure InFlight where
  blk    : Nat
  ranks  : List Nat
  d      : BitVec 9
  image  : BitVec 512
  queue  : Nat
  region : Nat
  out    : Nat
  clause : Nat
  entry  : Option Nat
  /-- The held pseudo-channels that its record's read has reached (R148). -/
  pchs   : List (Nat × Nat) := []
  deriving DecidableEq, Repr, Inhabited

/-- A multi-element copy of the Tensor Copy Engine (R433, R436). -/
structure Copy where
  id      : Nat
  blk     : Nat
  kind    : Nat
  /-- 0 tcopy, 1 tstore, 2 tcopymc. -/
  tag     : Nat
  slot    : Nat
  record  : BitVec 1024
  coords  : List Int
  space   : Nat
  off     : Nat
  counter : Option Nat
  mask    : BitVec 24 := 0
  rslot   : Nat := 0
  elem    : Nat := 0
  refusal : BitVec 24 := 0
  doneMask : BitVec 24 := 0
  fault   : Option Word := none
  poisoned : Bool := false
  /-- `tcopymc`: the receivers that have accepted, and the elements read, last first (R436). -/
  accepted : BitVec 24 := 0
  data    : List Nat := []
  /-- Bytes that it will not write, because a write by another has taken them over while it stood inside their word or granule, and the bytes that it still has to
write of words it has written in part (R171). -/
  lost    : List Nat := []
  half    : List Nat := []
  /-- As `Consist.again`. -/
  again   : Bool := false
  deriving DecidableEq, Repr, Inhabited

/-- An invalidation under way (R234): form (0 va, 1 root, 2 all), address, root, the agents that have not acknowledged (core TLBs by core key; field
f's walk-ahead TLB and walk cache 16384 + f; the Terminus 16448), and the issuing threads' outstanding number. -/
structure Inval where
  id     : Nat
  form   : Nat
  va     : Nat
  root   : Nat
  agents : List Nat
  blk    : Option Nat
  ranks  : List Nat
  out    : Nat
  clause : Nat
  deriving DecidableEq, Repr, Inhabited

/-- A `ctxsave` whose status waits for the save (R372): the named block, the issuing block and threads, the destination, the outstanding number. -/
structure CtxWait where
  target : Nat
  blk    : Nat
  ranks  : List Nat
  d      : BitVec 9
  out    : Nat
  /-- The operand-log entry it was replayed from (R60). -/
  entry  : Option Nat := none
  deriving DecidableEq, Repr, Inhabited

/-- A member of a collective whose `coll` was accepted (R266): number of the `coll`, package, field, block, tag, source, destination, latched
descriptor, whether it has completed, and the fault records its parts wait on, each with the chunk of its part (R277). -/
structure CMember where
  id    : Nat
  pkg   : Nat
  field : Nat
  blk   : Nat
  tag   : Nat
  src   : DWord
  dst   : DWord
  desc  : List Byte
  done  : Bool := false
  faults : List (Nat × Word) := []
  /-- As `Consist.again`: a replay command could not walk its access again, or not report what that met (R232). -/
  again : Bool := false
  deriving DecidableEq, Repr, Inhabited

/-- One chunk of a collective (R271, R272): phase, members (package * 64 + field) whose contribution has reached the
root, the partial of each tree node as the sources it combines (one for an order that rounds at each combination), the nodes that have sent theirs to
their parent, the result sent down the tree, and the packages whose destinations hold it. -/
structure Chunk where
  phase   : Nat := 0
  arrived : List Nat := []
  partials : SMap (List (List Byte)) := []
  sent    : List Nat := []
  result  : List Byte := []
  pkgsDone : List Nat := []
  /-- A re-tree has set it back to PENDING and its milepost is still to be written (R276). -/
  reset   : Bool := false
  deriving DecidableEq, Repr, Inhabited

/-- An edge of a tree set (R268): its key (package, link ID) and the nodes it joins (package * 64 + field); in a tree, `a` is the parent. -/
structure Edge where
  pkg  : Nat
  link : Nat
  a    : Nat
  b    : Nat
  deriving DecidableEq, Repr, Inhabited

/-- A collective (R265-R277). -/
structure Collective where
  seq      : DWord
  members  : List CMember
  started  : Bool := false
  /-- Its milepost area has been zeroed (R272). -/
  zeroed   : Bool := false
  trees    : List (List Edge) := []
  gen      : Nat := 0
  paused   : Bool := false
  chunks   : List Chunk := []
  status   : Option (BitVec 8) := none
  /-- Further `coll`s of members that had joined it, which completed at once (R266, R451). -/
  dups     : List Nat := []
  deriving DecidableEq, Repr, Inhabited

/-- What another package's link table gives (R268): its links that are UP, the far ends of its Quifin links (link, package, link), and its fallow field. -/
structure RemoteLinks where
  up     : List Nat
  far    : List (Nat × Nat × Nat)
  fallow : Nat
  deriving DecidableEq, Repr, Inhabited

/-- A link (R262-R264) and its fault injector (R285). -/
structure Link where
  state   : Nat := 0
  disable : Bool := false
  downs   : BitVec 16 := 0
  inj     : DWord := 0
  injN    : DWord := 0
  injC    : DWord := 0
  injF    : Word := 0
  deriving DecidableEq, Repr, Inhabited

/-- A leaf entry that a move has cleared (R240): root, virtual base, log2 of its size, its address, and the entry as it was. -/
structure MovedLeaf where
  root : Nat
  va   : Nat
  log2 : Nat
  at_  : Nat
  pte  : DWord
  deriving DecidableEq, Repr, Inhabited

/-- A migration or eviction by the Terminus between the clearing of the leaf entries and the copy (R240, R242): the region, the range, its destination, and
the entries cleared. -/
structure Move where
  region : Nat
  lo     : Nat
  n      : Nat
  dst    : Nat
  /-- The source pages: physical address, destination, size. -/
  pages  : List (Nat × Nat × Nat)
  leaves : List MovedLeaf
  deriving DecidableEq, Repr, Inhabited

/-- What a signal-box event asks (R211). -/
inductive SbWhat where
  | fault (field : Nat) (seq : Word)
  | queueFault (queue : Nat) (jseq : DWord) (status : BitVec 8)
  | region (addr : Nat) (why : Nat) (handle : DWord)
  | link (id newState : Nat)
  | governor (field : Nat) (sense : DWord) (state : Nat) (trip : Bool)
  | power (field pch state : Nat) (start : Bool)
  | request (bits : BitVec 512) (host : Bool)
  /-- An event that writes no mailbox entry: a budget change, a re-tree, a retraining. -/
  | note
  deriving DecidableEq, Repr, Inhabited

/-- An event of the signal box's queue (R211): sequence number, lock key, what it asks, and the core that holds it. -/
structure SbEvent where
  seq  : DWord
  key  : Nat × Nat
  what : SbWhat
  held : Option Nat := none
  deriving DecidableEq, Repr, Inhabited

/-- A kill under way (R42): number, what it kills, the blocks, and the queue whose journal records DRAINED. -/
structure Kill where
  id     : Nat
  blocks : List Nat
  queue  : Option Nat
  deriving DecidableEq, Repr, Inhabited

/-- A use list (R215, R241). -/
structure UseList where
  queue  : Nat
  index  : Nat
  ranges : List (Nat × Nat)
  deriving DecidableEq, Repr, Inhabited

/-- Whose step the next one is, when the agenda is empty: a core's, a block's drill's, or the device's own. -/
inductive Turn where
  | core (g : Nat)
  | drill (blk uid : Nat)
  | device
  deriving DecidableEq, Repr, Inhabited

/-- An element of the agenda: the model's only input. -/
inductive Act where
  | event (i : Instr)
  | turn (t : Turn)
  /-- The signal box measures an object of its own (R305). -/
  | measure (object : List Byte)
  /-- The signal box requests the pre-emption of a block (R35). -/
  | preempt (blk : Nat)
  /-- An event that a pseudo-channel has held happens now (R148). -/
  | served (i : Instr)
  deriving DecidableEq, Repr

/-- The state of one SF-64 package. -/
structure State where
  /-- Home memory (R4, R128, R138): device memory of every field and host memory by 52-bit physical address, in canonical form; a byte not
  listed reads 0 (R299 step KEYS for device memory). -/
  mem       : List Host.Cell := []
  /-- Home words (8-byte word number) with a single-bit error (false) or poison (true) (R140). -/
  memErr    : List (Nat × Bool) := []
  /-- Of words with a single-bit error that `errinj` has made: which of the bits it inverts is wrong, 1 or 2 (R373). -/
  memFlip   : SMap Nat := []
  /-- Alias lines the LLCs hold, by physical line number (R141, R142). -/
  aliasLines : SMap Line := []
  /-- Watches on host memory, which the Terminus holds (R361). -/
  hostWatches : List Watch := []
  /-- World map: granule number (PA / 2 MiB) to SECURE and KEYSLOT, bits 0 and 3:1; not listed: non-secure, slot 0 (R306). -/
  worldMap  : SMap (BitVec 4) := []
  fields    : SMap Field := []
  cores     : SMap Core := []
  blocks    : SMap Block := []
  turn      : Turn := .device
  agenda    : List Act := []
  /-- Of the step in progress: the held pseudo-channels that its accesses have reached (R147, R148). -/
  touched   : List (Nat × Nat) := []
  /-- Events whose accesses wait, with the held pseudo-channels they have reached, in their order of arrival (R147, R148, R172). -/
  heldEvs   : List (List (Nat × Nat) × Instr) := []
  -- numbering of things the model makes
  nextBlk   : Nat := 0
  nextUid   : Nat := 0
  nextId    : Nat := 0
  /-- Steps taken; orders the moments at which consists become eligible (R26). -/
  ticks     : Nat := 0
  /-- The model's own counter for free values (R9). -/
  free      : Nat := 0
  -- the Terminus
  queues    : SMap Queue := []
  launches  : SMap Launch := []
  inflight  : List InFlight := []
  /-- Decrements on their way to the Terminus (R370). -/
  decs      : List Nat := []
  /-- DEPCTR 0-4095; one not listed is 0 (R258). -/
  depctr    : SMap Word := []
  /-- Per level, the arbiter's pointer (R205). -/
  pointers  : SMap Nat := []
  /-- Region control blocks the Terminus has read, by address (R257). -/
  rcbs      : SMap (BitVec 2048) := []
  /-- Charges by region block address: CORES units and BACKING bytes (R256). -/
  charges   : SMap (Nat × Nat) := []
  /-- Backing-pool and context-pool allotments: region address, base, size, block. -/
  pools     : List (Nat × Nat × Nat × Nat) := []
  termTlb   : List TlbEntry := []
  /-- Cached Placement Table leaf entries: root, acre, entry (R238). -/
  placeCache : List (Nat × Nat × BitVec 16) := []
  kills     : List Kill := []
  useLists  : List UseList := []
  /-- Ranges that a use list has named, by root: root, address, length (R242). -/
  hostRanges : List (Nat × Nat × Nat) := []
  /-- Migrations and evictions of the Terminus under way (R240, R242). -/
  moves     : List Move := []
  events    : List SbEvent := []
  eventSeq  : DWord := 0
  -- mailbox registers (R213)
  mbxOutBase : DWord := 0
  mbxOutCtl  : DWord := 0
  mbxOutWr   : Word := 0
  mbxOutRd   : Word := 0
  mbxIn      : BitVec 512 := 0
  mbxBusy    : Bool := false
  mbxLost    : Bool := false
  /-- The HOST step has exposed the BARs, and the FW step has started the signal box's firmware (R299). -/
  hostUp    : Bool := false
  fwUp      : Bool := false
  /-- Blocks of the control space (offset / 2^20) that the security engine grants to the host (R288, R308). -/
  grants    : List Nat := []
  -- translation registers (R236)
  trinvVa   : DWord := 0
  trinvRoot : DWord := 0
  invals    : List Inval := []
  ctxWaits  : List CtxWait := []
  -- engines
  copies    : List Copy := []
  colls     : List Collective := []
  /-- `coll`s whose descriptor read waits, on a fault record or to be made at all (R266, R217): the member, the descriptor's address, and whether it is read for a replay. -/
  collWait  : List (CMember × DWord × Bool) := []
  /-- Last partition number issued (R178). -/
  partition : Word
  links     : SMap Link := []
  /-- Link tables received from other packages, by package (R268). -/
  remoteLinks : SMap RemoteLinks := []
  /-- Package counters DEPUNDER and RETREE (R284). -/
  pkgCnt    : SMap DWord := []
  -- security and start-up (R299-R307)
  wmapBusy  : Option DWord := none
  wmapErr   : Bool := false
  /-- World-map command register as last written (R307). -/
  wmapCmd   : DWord := 0
  cfg       : List Byte := []
  /-- Boot-step records 0x01-0x08 in flash, 16 bytes each (R301). -/
  bootRecs  : SMap (BitVec 128) := []
  bootStat  : DWord := 0
  startNo   : Word := 0
  meas      : BitVec 512 := 0
  /-- The key of each key slot has been generated in this start (R306). -/
  keysMade  : Bool := false
  /-- MSI-X vectors raised, newest first (R193, R213, R308). -/
  msix      : List Nat := []
  deriving DecidableEq, Repr

/-- The machine right after reset: nothing listed, so every register holds the value its field's docstring names. Partition numbers 0x100 to 0x2FF
have gone to the 512 slices (R178) (conventions: DESIGN CHOICE, assumption 3; DESIGN CHOICE, assumption 52). -/
def State.reset : State :=
  { partition := 0x2FF }

end Sys2Proof.Machine
end

