-- ==== Sys2Proof/Machine/Shape.lean ====
section
/-! DEFINITION. The shape of an instruction word: which registers its fields name, and whether every field, specifier, modifier
and type holds a value the spec allows (order 7 of R324; R314-R328, R347, R374-R403, R404-R426, R430-R431). What depends on the block's grants is in
`grantOk`. -/
namespace Sys2Proof.Machine

/-- The null specifier (R319). -/
abbrev null : BitVec 9 := 0x1FF

def isV (s : BitVec 9) : Bool := s.toNat < 0x100
def isS (s : BitVec 9) : Bool := 0x100 ≤ s.toNat && s.toNat < 0x140
def isP (s : BitVec 9) : Bool := 0x140 ≤ s.toNat && s.toNat < 0x148
def isAcc (s : BitVec 9) : Bool := 0x148 ≤ s.toNat && s.toNat < 0x158
def isConst (s : BitVec 9) : Bool := 0x180 ≤ s.toNat && s.toNat < 0x1A0
/-- A v or s register. -/
def isR (s : BitVec 9) : Bool := isV s || isS s
/-- An even v or s pair (R46). -/
def isPair (s : BitVec 9) : Bool := isR s && s.toNat % 2 == 0

-- type codes (R327)
def tyB : List Nat := [0, 1, 2, 3]
def tyI : List Nat := [4, 5, 6, 7]
def tyN : List Nat := [8, 9, 10, 11]
def tyIN : List Nat := [4, 5, 6, 7, 8, 9, 10, 11]
def tyBIN : List Nat := [0, 1, 2, 3, 4, 5, 6, 7, 8, 9, 10, 11]
/-- The types F of R389. -/
def tyF : List Nat := [12, 13, 14, 18, 19]
def isB (ty : Nat) : Bool := ty < 4
def isI (ty : Nat) : Bool := 4 ≤ ty && ty < 8
def isN (ty : Nat) : Bool := 8 ≤ ty && ty < 12
def isFloat (ty : Nat) : Bool := 12 ≤ ty && ty ≤ 19 && ty != 17
def is64 (ty : Nat) : Bool := ty == 3 || ty == 7 || ty == 11

/-- Width in bits of one element of a type (R99, R101). -/
def tyW (ty : Nat) : Nat :=
  if ty < 12 then 8 <<< (ty % 4)
  else match ty with
    | 13 | 14 | 18 | 19 => 16
    | 15 | 16 => 8
    | _ => 32

/-- Operand kinds (R375, R347): `no` must be null; `r`, `r32`, `w`, `p`; `rImm`, `r32Imm` may come from IMM20; `reg` is a v or s register
or inline constant read as n32 or null with IMM20; `pair` an even register pair; `acc` an accumulator tile. -/
inductive Opd where
  | no | r | r32 | w | p | rImm | r32Imm | pair | acc
  deriving DecidableEq, Repr

/-- An inline constant that the type can take (R320) (conventions: DEDUCED, assumption 14). -/
def constOk (ty : Nat) (s : BitVec 9) : Bool :=
  isConst s && (isFloat ty || !(0x199 ≤ s.toNat && s.toNat ≤ 0x19C))

/-- The types that take their value from IMM20 (R376), and IMM20's form. -/
def immOk (ty : Nat) (imm : BitVec 20) : Bool :=
  ty != 15 && ty != 16 && ty != 17 && (!(ty == 13 || ty == 14 || ty == 18 || ty == 19) || imm.toNat < 0x10000)

/-- Conventions: DEDUCED, assumption 14. -/
def srcOk (k : Opd) (ty : Nat) (s : BitVec 9) (imm : BitVec 20) : Bool :=
  match k with
  | .no => s == null
  | .r => constOk ty s || (if is64 ty then isPair s else isR s)
  | .rImm => constOk ty s || (if is64 ty then isPair s else isR s) || (s == null && immOk ty imm)
  | .r32 => constOk 10 s || isR s
  | .r32Imm => constOk 10 s || isR s || s == null
  | .w => constOk 11 s || isPair s
  | .p => isP s
  | .pair => isPair s
  | .acc => isAcc s

def dstOk (k : Opd) (ty : Nat) (s : BitVec 9) : Bool :=
  match k with
  | .no => s == null
  | .r | .rImm => s == null || (if is64 ty then isPair s else isR s)
  | .r32 | .r32Imm => s == null || isR s
  | .w | .pair => s == null || isPair s
  | .p => s == null || isP s
  | .acc => isAcc s

/-- How many registers an operand of a kind and type names. -/
def opdN (k : Opd) (ty : Nat) : Nat :=
  match k with
  | .no => 0
  | .r | .rImm => if is64 ty then 2 else 1
  | .w | .pair => 2
  | _ => 1

/-- The lane modifier's legality (R325); `b`: operand A is a b type or a predicate. -/
def amOk (am : BitVec 12) (spec : BitVec 9) (b : Bool) : Bool :=
  let cls := nbits am 10 2
  let seg := nbits am 7 3
  let dist := nbits am 2 5
  seg ≤ 5 &&
  (match cls with
   | 0 => seg == 0 && dist == 0
   | 1 => true
   | 2 => [1, 2, 4, 8, 16].contains dist && dist < 2 ^ seg
   | _ => dist < 2 ^ seg) &&
  (cls == 0 || !isConst spec) && !(b && (bit am 0 || bit am 1))

/-- Registers an operand field names: first specifier, how many, the lane modifier it is read through, and the number of leading slots whose members'
copies a position instruction reads instead of the active threads' own (R377). `vz`: a thread whose source slot is vacant reads nothing (R326). `who`:
0 each active thread reads for itself, 1 for every active thread (R377), 2 the lowest-slot active thread alone reads (R347, R428). -/
structure RegUse where
  spec : BitVec 9
  n    : Nat
  am   : BitVec 12 := 0
  slots : Nat := 0
  vz   : Bool := false
  who  : Nat := 0
  deriving DecidableEq, Repr

/-- What the word of an instruction fixes. -/
structure Shape where
  legal  : Bool := true
  reads  : List RegUse := []
  writes : List RegUse := []
  /-- Registers named by the fields D (DATA), A (BASE), B (INDEX), C, for `repeat` (R356). -/
  specs  : List (BitVec 9 × Nat) := []
  /-- Record slots, tags and tiles named (R20, R318). -/
  recs   : List Nat := []
  tags   : List Nat := []
  accs   : List Nat := []
  /-- First coordinate register, whose record slot fixes how many are read (R433). -/
  coord  : Option (BitVec 9) := none
  /-- The instruction accesses memory (R165). -/
  mem    : Bool := false
  deriving DecidableEq, Repr

def useOf (s : BitVec 9) (n : Nat) (am : BitVec 12 := 0) (slots : Nat := 0) (vz : Bool := false) : List RegUse :=
  if (isR s || isP s) && n != 0 then [{ spec := s, n := n, am := am, slots := slots, vz := vz }] else []
/-- A consist instruction's shape: the lowest-slot active thread alone reads (R347). -/
def once (h : Shape) : Shape := { h with reads := h.reads.map (fun u => { u with who := 2 }) }
/-- A position instruction's shape: each active thread's result depends on the sources of all (R377). -/
def together (h : Shape) : Shape := { h with reads := h.reads.map (fun u => if u.slots == 0 then { u with who := 1 } else u) }

/-- Guard extension: FX must be 0 (R338). -/
def fxOk (g : Guard) : Bool := g.fx == 0

/-- A format A instruction: kinds of D, A, B, C; types accepted; MODS bits assigned; the type A is read in; whether IMM20 has a use of its own; whether
AM may be nonzero; whether D is also read; the leading slots whose members supply A and B (R377). -/
def shA (f : FmtA) (d a b c : Opd) (tys : List Nat) (mods : Nat) (extra : Bool := true) (tyA : Nat := f.ty.toNat) (tyD : Nat := f.ty.toNat)
    (immUsed : Bool := false) (am : Bool := true) (readD : Bool := false) (slotsA : Nat := 0) (slotsB : Nat := 0) (vz : Bool := false) : Shape :=
  let ty := f.ty.toNat
  let hasImm := (b == .rImm || b == .r32Imm) && f.b == null || (c == .rImm || c == .r32Imm) && f.c == null ||
    (a == .rImm || a == .r32Imm) && f.a == null
  { legal := fxOk f.g && tys.contains ty && dstOk d tyD f.d && srcOk a tyA f.a f.imm && srcOk b ty f.b f.imm && srcOk c ty f.c f.imm &&
      (f.mods.toNat &&& (127 - (mods ||| 64)) == 0) && (!(bit f.mods 6) || vz || nbits f.am 10 2 != 0) &&
      (if am && a != .no then amOk f.am f.a (a == .p || ((a == .r || a == .rImm) && isB tyA)) else f.am == 0) &&
      (hasImm || immUsed || f.imm == 0) && extra
    reads := (if readD then useOf f.d (opdN d tyD) else []) ++ useOf f.a (opdN a tyA) f.am slotsA (bit f.mods 6) ++ useOf f.b (opdN b ty) 0 slotsB ++ useOf f.c (opdN c ty)
    writes := useOf f.d (opdN d tyD)
    specs := [(f.d, opdN d tyD), (f.a, opdN a tyA), (f.b, opdN b ty), (f.c, opdN c ty)] }

/-- A format A control instruction: TY, AM and the unused MODS are 0 (R347). -/
def shCtl (f : FmtA) (d a b : Opd) (mods : Nat := 0) (extra : Bool := true) (immUsed : Bool := false) : Shape :=
  shA f d a b .no [0] mods extra (immUsed := immUsed) (am := false)

/-- Format I with the fields a transfer uses (R347): D a link pair or null. -/
def shI (f : FmtI) (d : Opd) (extra : Bool := true) : Shape :=
  { legal := fxOk f.g && f.rsv == 0 && f.ty == 0 && f.mods == 0 && f.am == 0 && f.a == null && dstOk d 0 f.d && extra
    writes := useOf f.d (opdN d 0) }

/-- Access width in bytes (R317). -/
def widthOf (f : FmtM) : Nat := 2 ^ (nbits f.width 0 3)
/-- Registers a DATA operand of that width names (R405). -/
def dataN (f : FmtM) : Nat := match nbits f.width 0 3 with | 3 => 2 | 4 => 4 | _ => 1
/-- The register group is aligned as its width asks (R405). -/
def groupOk (s : BitVec 9) (n : Nat) : Bool := s.toNat % n == 0

/-- Legality of the address fields (R318): spaces, BASE and INDEX, and AM on BASE. -/
def addrOk (f : FmtM) (index : Bool := true) : Bool :=
  f.space.toNat ≤ 4 && nbits f.width 0 3 ≤ 4 && f.hint != 3 &&
  (if f.space == 0 then isPair f.base else isR f.base || f.base == null) &&
  (if f.base == null then f.am == 0 else amOk f.am f.base true) &&
  (if index then isR f.index || f.index == null else true)

/-- The spaces and scopes (R149, R317). -/
def isG (f : FmtM) : Bool := f.space == 0
/-- Orders accepted (R152); `.prom` needs package or system scope. -/
def orderOk (f : FmtM) (orders : List Nat) : Bool :=
  orders.contains f.order.toNat && (!([5, 7].contains f.order.toNat) || 2 ≤ f.scope.toNat && isG f)

def shM (f : FmtM) (legal : Bool) (reads writes : List RegUse) (nd ni : Nat) : Shape :=
  { legal := fxOk f.g && legal
    reads := useOf f.base (if isG f then 2 else 1) f.am ++ reads
    writes := writes
    specs := [(f.data, nd), (f.base, if isG f then 2 else 1), (f.index, ni), (null, 0)]
    mem := true }

/-- The type an inline constant in DATA is read in: the b type of the width (R405). -/
def bTy (f : FmtM) : Nat := nbits f.width 0 3
def dataSrcOk (f : FmtM) : Bool := isR f.data && groupOk f.data (dataN f) || nbits f.width 0 3 ≤ 3 && constOk (bTy f) f.data

-- ATOP (R415, R416)
def atopClass (f : FmtM) : Nat := nbits f.offset 20 2
def atopOp (f : FmtM) : Nat := nbits f.offset 22 4
def atopOk (f : FmtM) : Bool :=
  let w := nbits f.width 0 3
  (match atopClass f with | 0 | 1 => w == 2 || w == 3 | _ => w == 2) &&
  (match atopOp f with
   | 0 | 1 | 2 | 6 => true
   | 3 | 4 | 5 => atopClass f ≤ 1
   | 7 | 8 => atopClass f == 1
   | _ => false)

/-- Legality of the fields every format E instruction shares (R430). -/
def shE (f : FmtE) (status coord opnd : Opd) (espec ectl : Nat) (tag slot : Bool) (extra : Bool := true) (coordReg : Bool := false) : Shape :=
  { legal := fxOk f.g && dstOk status 0 f.status && (if coordReg then isR f.coord else srcOk coord 10 f.coord 0) &&
      srcOk opnd 10 f.opnd 0 && (f.espec.toNat &&& (2047 - espec) == 0) && (f.ectl.toNat &&& (0xFFFFFFFF - ectl) == 0) &&
      (tag || f.tag == 0) && (slot || f.rslot == 0) && extra
    reads := (if coordReg then [] else useOf f.coord (opdN coord 10)) ++ useOf f.opnd (opdN opnd 10)
    writes := useOf f.status (opdN status 0)
    recs := if slot then [f.rslot.toNat] else []
    tags := if tag then [f.tag.toNat] else []
    coord := if coordReg then some f.coord else none
    mem := true }

/-- Condition fields of `cmp` and `fcmp` (R383, R390). -/
def condC (f : FmtA) : Opd := if nbits f.mods 3 2 == 0 then .no else .p

/-- The types `reduce` and `scan` accept for an operation (R401). -/
def reduceTys (op : Nat) : List Nat := if op ≤ 2 then [6, 7, 10, 11, 12, 13, 14, 18, 19] else if op ≤ 5 then [2, 3] else []

/-- Special registers that exist (R66), and those of 64 bits. -/
def spNums : List Nat := [0, 1, 2, 3, 4, 5, 6, 7, 8, 9, 0xA, 0x10, 0x11, 0x18, 0x19, 0x20, 0x21, 0x30, 0x31, 0x32, 0x40, 0x41, 0x48, 0x50, 0x60]
def sp64 (n : Nat) : Bool := [2, 3, 9, 0x20, 0x31, 0x32].contains n

/-- IMM32 of `movi` equals the register image of an 8- or 16-bit type (R385). -/
def moviOk (ty : Nat) (imm : BitVec 32) : Bool :=
  match tyW ty with
  | 8 => if ty == 4 then (imm.setWidth 8).signExtend 32 == imm else imm.toNat < 0x100
  | 16 => if ty == 5 then (imm.setWidth 16).signExtend 32 == imm else if 18 ≤ ty then true else imm.toNat < 0x10000
  | _ => true

/-- The shape of every instruction word (conventions: DEDUCED, assumptions 15, 16, 82). -/
def shape : Instr → Shape
  | .clause f => { legal := f.g.fx == 0 }
  | .nop f => shCtl f .no .no .no
  | .br f => shI f .no
  | .brx f => shCtl f .no .pair .no
  | .call f => shI f .pair
  | .callx f => shCtl f .pair .pair .no
  | .ret f => shCtl f .no .pair .no
  | .exit f => shCtl f .no .no .no
  | .trap f => shI f .no (f.imm.toNat < 256)
  | .tret f => shCtl f .no .no .no
  | .marshal f => shCtl f .no .no .no 1
  | .marshalRank f => shCtl f .no .no .no 1
  | .yield f => shCtl f .no .no .no
  | .repeatN f =>
    { legal := fxOk f.g && f.rsv == 0 && f.ty == 0 && f.am == 0 && f.d == null && nbits f.mods 5 2 == 0 &&
        (if bit f.mods 4 then isS f.a && f.imm == 0 else f.a == null && nbits f.imm 16 16 == 0)
      reads := useOf f.a 1 }
  | .sleep f => shCtl f .no .r32Imm .no
  | .waitaddr f =>
    shM f (addrOk f && isG f && (nbits f.width 0 3 == 2 || nbits f.width 0 3 == 3) && f.order == 0 && f.scope == 0 && f.hint == 0 && dataSrcOk f)
      (useOf f.index 1 ++ useOf f.data (dataN f)) [] (dataN f) 1
  | .wakeaddr f =>
    shM f (addrOk f && isG f && (nbits f.width 0 3 == 2 || nbits f.width 0 3 == 3) && f.order == 0 && f.scope == 0 && f.hint == 0 &&
      (f.data == null || isR f.data || constOk 10 f.data)) (useOf f.index 1 ++ useOf f.data 1) [] 1 1
  | .preemptOff f => shCtl f .no .no .no 1
  | .preemptOn f => shCtl f .no .no .no 1
  | .bar f => shCtl f .no .no .no 0 (nbits f.imm 16 4 == 0) true
  | .bara f => shCtl f .no .no .no 0 (nbits f.imm 16 4 == 0) true
  | .barw f => shCtl f .no .no .no 0 (nbits f.imm 16 4 == 0) true
  | .grow f => once (shCtl f .r32 .r32Imm .no 0 (nbits f.imm 9 11 == 0))
  | .shrink f => once (shCtl f .r32 .r32Imm .no 0 (nbits f.imm 9 11 == 0))
  | .growa f => once (shCtl f .r32 .r32Imm .no 0 (nbits f.imm 9 11 == 0))
  | .shrinka f => once (shCtl f .r32 .r32Imm .no 0 (nbits f.imm 9 11 == 0))
  | .gets f =>
    shCtl f (if sp64 f.imm.toNat then .pair else .r32) .no .no 0 (spNums.contains f.imm.toNat) true
  | .sets f => shCtl f .no .pair .no 0 (f.imm.toNat == 0x31) true
  | .launch f => once (shCtl f .r32 .pair .r32Imm 0 ((f.d == null || isS f.d) && nbits f.imm 8 12 == 0))
  | .depdec f => shCtl f .r32 .r32Imm .no 0 (nbits f.imm 12 8 == 0)
  | .locq f =>
    shM f (addrOk f && isG f && nbits f.width 0 3 == 0 && f.order == 0 && f.scope == 0 && f.hint == 0 && (f.data == null || isR f.data))
      (useOf f.index 1) (useOf f.data 1) 1 1
  | .add f => shA f .r .r .rImm .no tyIN 1
  | .sub f => shA f .r .r .rImm .no tyIN 1
  | .addc f => let s := shA f .r .r .rImm .p [6, 7, 10, 11] 0; { s with writes := s.writes ++ useOf f.c 1 }
  | .subb f => let s := shA f .r .r .rImm .p [6, 7, 10, 11] 0; { s with writes := s.writes ++ useOf f.c 1 }
  | .mul f => shA f .r .r .rImm .no tyIN 0
  | .mulhi f => shA f .r .r .rImm .no tyIN 0
  | .mad f => shA f .r .r .rImm .r tyIN 0
  | .madw f => shA f .w .r .rImm .w [6, 10] 0
  | .div f => shA f .r .r .rImm .no tyIN 0
  | .rem f => shA f .r .r .rImm .no tyIN 0
  | .min f => shA f .r .r .rImm .no tyIN 0
  | .max f => shA f .r .r .rImm .no tyIN 0
  | .abs f => shA f .r .r .no .no tyI 1
  | .neg f => shA f .r .r .no .no tyIN 1 (!(bit f.mods 0 && isN f.ty.toNat))
  | .and f => shA f .r .r .rImm .no tyBIN 0
  | .or f => shA f .r .r .rImm .no tyBIN 0
  | .xor f => shA f .r .r .rImm .no tyBIN 0
  | .not f => shA f .r .r .no .no tyBIN 0
  | .andn f => shA f .r .r .rImm .no tyBIN 0
  | .shl f => shA f .r .r .r32Imm .no tyBIN 0
  | .shr f => shA f .r .r .r32Imm .no tyBIN 0
  | .sar f => shA f .r .r .r32Imm .no tyBIN 0
  | .rot f => shA f .r .r .r32Imm .no tyBIN 0
  | .bfe f => shA f .r .r .r32Imm .no [2, 3, 6, 7, 10, 11] 0
  | .bfi f => shA f .r .r .r .r32Imm [2, 3, 6, 7, 10, 11] 0
  | .popc f => shA f .r32 .r .no .no tyB 0
  | .clz f => shA f .r32 .r .no .no tyB 0
  | .ctz f => shA f .r32 .r .no .no tyB 0
  | .brev f => shA f .r .r .no .no tyB 0
  | .sel f => shA f .r .r .rImm .p (List.range 20) 0
  | .cmp f => shA f .p .r .rImm (condC f) tyBIN 0x1F (nbits f.mods 0 3 ≤ 5 && (!isB f.ty.toNat || nbits f.mods 0 3 ≤ 1))
  | .mov f => shA f .r .r .no .no (List.range 20) 0
  | .movi f =>
    { legal := fxOk f.g && f.rsv == 0 && f.mods == 0 && f.am == 0 && f.a == null && f.ty.toNat < 20 && dstOk .r f.ty.toNat f.d && moviOk f.ty.toNat f.imm
      writes := useOf f.d (opdN .r f.ty.toNat), specs := [(f.d, opdN .r f.ty.toNat), (null, 0), (null, 0), (null, 0)] }
  | .lea f =>
    { shM f (addrOk f && f.order == 0 && f.scope == 0 && f.hint == 0 && dstOk (if isG f then .pair else .r32) 0 f.data)
      (useOf f.index 1) (useOf f.data (if isG f then 2 else 1)) (if isG f then 2 else 1) 1 with mem := false }
  | .add64 f => shA f .w .w .rImm .no [6, 10] 0 (!bit f.am 0 && !bit f.am 1)
  | .sub64 f => shA f .w .w .rImm .no [6, 10] 0 (!bit f.am 0 && !bit f.am 1)
  | .mad64 f => shA f .w .w .rImm .w [6, 10] 0 (!bit f.am 0 && !bit f.am 1)
  | .pand f => shA f .p .p .p .no [0] 0
  | .por f => shA f .p .p .p .no [0] 0
  | .pxor f => shA f .p .p .p .no [0] 0
  | .pnot f => shA f .p .p .no .no [0] 0
  | .pmov f => shA f .p .p .no .no [0] 0
  | .fadd f => shA f .r .r .rImm .no tyF 1
  | .fsub f => shA f .r .r .rImm .no tyF 1
  | .fmul f => shA f .r .r .rImm .no tyF 1
  | .fma f => shA f .r .r .rImm .r tyF 1
  | .fmin f => shA f .r .r .rImm .no tyF 0
  | .fmax f => shA f .r .r .rImm .no tyF 0
  | .fcmp f => shA f .p .r .rImm (condC f) [12, 13, 14] 0x1F
  | .fclass f => shA f .p .r .no .no [12, 13, 14] 0 (nbits f.imm 9 11 == 0) (immUsed := true)
  | .frnd f => shA f .r .r .no .no tyF 3
  | .frcp f => shA f .r .r .no .no tyF 0
  | .frsq f => shA f .r .r .no .no tyF 0
  | .fsqrt f => shA f .r .r .no .no tyF 0
  | .fexp2 f => shA f .r .r .no .no tyF 0
  | .flog2 f => shA f .r .r .no .no tyF 0
  | .fsin f => shA f .r .r .no .no tyF 0
  | .fcos f => shA f .r .r .no .no tyF 0
  | .ftanh f => shA f .r .r .no .no tyF 0
  | .fsig f => shA f .r .r .no .no tyF 0
  | .fdot2 f => shA f .r32 .r .r .r [18, 19] 0
  | .fdot4 f => shA f .r32 .r .r .r [15, 16] 0
  | .cvt f => shA f .r .r .no .no (List.range 17) 0x1F (nbits f.mods 0 5 ≤ 16 && nbits f.imm 2 18 == 0 && nbits f.imm 0 2 != 3)
      (tyA := nbits f.mods 0 5) (immUsed := true)
  | .cvts f => shA f .r .r .no .no (List.range 17) 0x1F (nbits f.mods 0 5 ≤ 16) (tyA := nbits f.mods 0 5)
  | .pack2 f =>
    let narrow := f.ty == 15 || f.ty == 16
    let s := shA { f with ty := 12 } .r32 .r .r .no [12] (if narrow then 3 else 2) (!narrow || f.d != null) (readD := narrow)
    { s with legal := s.legal && [15, 16, 18, 19].contains f.ty.toNat }
  | .unpack f => shA f .r32 .r .no .no [4, 5, 8, 9, 15, 16, 18, 19] 3 (tyW f.ty.toNat == 8 || !bit f.mods 1)
  | .scalex f => shA f .r .r .r32Imm .no tyF 1
  | .q4enc f =>
    let h := shA f .r32 .r (if bit f.mods 0 then .no else .r32Imm) .no [12, 13, 14] 3 (am := false)
    { h with reads := (together { h with reads := useOf f.a 1 }).reads ++ (once { h with reads := if bit f.mods 0 then [] else useOf f.b 1 }).reads }
  | .q4dec f => shA f .r .r32 .r32 .no [12, 13, 14] 0 (am := false) (slotsA := 4) (slotsB := 1)
  | .ballot f => together (shA f .r32 .p .no .no [0] 0 (am := false))
  | .matchEq f => together (shA f .r32 .r .no .no [2, 3] 0 (am := false))
  | .vote f => together (shA f .p .p .no .no [0] 3 (am := false))
  | .reduce f => together (shA f .r .r .no .no (reduceTys (nbits f.mods 0 3)) 0x3F (nbits f.mods 3 3 ≤ 5))
  | .scan f => together (shA f .r .r .no .no (reduceTys (nbits f.mods 0 3)) 0xF)
  | .shfl f => shA f .r .r .r32Imm .no [2, 3] 3 (am := false) (slotsA := 32) (vz := true)
  | .slotof f => shA f .r .r .no .no [10] 0
  | .rankof f => shA f .r .r .no .no [10] 0
  | .ld f =>
    shM f (addrOk f && orderOk f [0, 1, 5] && (f.hint == 0 || isG f) && isV f.data && groupOk f.data (dataN f)) (useOf f.index 1) (useOf f.data (dataN f)) (dataN f) 1
  | .ldx f =>
    once (shM f (addrOk f && orderOk f [0, 1, 5] && (f.hint == 0 || isG f) && isS f.data && groupOk f.data (dataN f)) (useOf f.index 1) (useOf f.data (dataN f)) (dataN f) 1)
  | .st f =>
    shM f (addrOk f && orderOk f [0, 2] && (f.hint == 0 || f.hint == 2 && isG f) && dataSrcOk f)
      (useOf f.index 1 ++ useOf f.data (dataN f)) [] (dataN f) 1
  | .atom f =>
    shM f (addrOk f false && orderOk f [0, 1, 2, 3, 5, 7] && f.hint == 0 && !bit f.width 3 && atopOk f && isV f.data && groupOk f.data (dataN f) &&
      isR f.index && groupOk f.index (dataN f)) (useOf f.index (dataN f)) (useOf f.data (dataN f)) (dataN f) (dataN f)
  | .atomn f =>
    shM f (addrOk f && orderOk f [0, 1, 2, 3, 5, 7] && f.hint == 0 && atopOk f && dataSrcOk f)
      (useOf f.index 1 ++ useOf f.data (dataN f)) [] (dataN f) 1
  | .cas f =>
    shM f (addrOk f false && orderOk f [0, 1, 2, 3, 5, 7] && f.hint == 0 && !bit f.width 3 && nbits f.offset 20 6 == 0 &&
      (nbits f.width 0 3 == 2 || nbits f.width 0 3 == 3) && isV f.data && groupOk f.data (dataN f) && isR f.index && groupOk f.index (dataN f))
      (useOf f.index (dataN f) ++ useOf f.data (dataN f)) (useOf f.data (dataN f)) (dataN f) (dataN f)
  | .fence f =>
    let prom := f.order == 5 || f.order == 7
    { shM f (orderOk f [1, 2, 3, 5, 7] && f.data == null && f.index == null && f.width == 0 && f.space == 0 && f.hint == 0 &&
      (if prom then addrOk f else f.base == null && f.am == 0 && f.offset == 0)) [] [] 0 0 with specs := [] }
  | .prefetch f =>
    shM f (addrOk f && isG f && f.order == 0 && f.scope == 0 && f.width == 0 && f.data == null) (useOf f.index 1) [] 0 1
  | .clean f =>
    shM f (addrOk f && isG f && f.order == 0 && f.hint == 0 && f.width == 0 && f.data == null) (useOf f.index 1) [] 0 1
  | .inval f =>
    shM f (addrOk f && isG f && f.order == 0 && f.hint == 0 && f.width == 0 && f.data == null) (useOf f.index 1) [] 0 1
  | .ysend f =>
    shM f (addrOk f && 1 ≤ f.space.toNat && f.space.toNat ≤ 3 && f.order == 0 && f.scope == 0 && f.hint == 0 && f.width == 0 && f.data == null) (useOf f.index 1) [] 0 1
  | .yrecv f =>
    shM f (addrOk f && 1 ≤ f.space.toNat && f.space.toNat ≤ 3 && f.order == 0 && f.scope == 0 && f.hint == 0 && f.width == 0 && f.data == null) (useOf f.index 1) [] 0 1
  | .yprobe f => shCtl f .p .no .no 1
  | .trec f => shE f .r32 .no .pair 0 0 false true
  | .tcopy f => shE f .no .no (if f.opnd == null then .no else .r32) 3 0x1FFF true true (f.espec != 3) true
  | .tstore f => shE f .no .no (if f.opnd == null then .no else .r32) 3 0x1FFF true true (f.espec != 3) true
  | .tcopymc f => shE f .no .no .no 7 0xFFFFFF true true (f.ectl != 0) true
  | .recvarm f => shE f .no .r32 .r32 7 0 true false
  | .tagwait f => shE f .no .no (if f.opnd == null then .no else .pair) 1 0 (f.opnd == null) false
  | .tagffs f => shE f .r32 .no (if f.opnd == null then .no else .pair) 0 0 false false
  | .tagclr f => shE f .no .no (if f.opnd == null then .no else .pair) 0 0 (f.opnd == null) false
  | .tagstat f => shE f .r32 .no .no 1 0 true false
  | .drill f => once (shCtl f .no .pair .no)
  | .mready f => shCtl f .no .no .no 0 (f.imm.toNat < 16) true
  | .mwait f => shCtl f .no .no .no 1 (if bit f.mods 0 then f.imm == 0 else f.imm.toNat < 256) true
  | .accrd f => { shA f .r .acc .r32Imm .no [2, 12] 0 (am := false) with accs := [f.a.toNat - 0x148] }
  | .accwr f => { shA f .acc .r .r32Imm .no [2, 12] 0 (am := false) with accs := [f.d.toNat - 0x148], writes := [] }
  | .nanrd f => shCtl f .r32 .no .no
  | .wpart f => shE f .r32 .no .r32 7 0 true false
  | .fwload f => shE f .r32 .no .r32 0x7F 0x1FFF true true true true
  | .fwstore f => shE f .r32 .no .r32 0x7F 0x1FFF true true true true
  | .fwop f => shE f .r32 .r32 .r32 7 0x7FFFFFFF true false
      (nbits f.ectl 22 5 ≤ 13 && nbits f.ectl 28 3 ≤ 5 && (nbits f.ectl 28 3 == 0 || nbits f.ectl 22 5 == 9))
  | .fwred f => shE f .r32 .pair .r32 7 0xFFFFFFFF true false
  | .fwfill f => shE f .r32 .r32 .r32 7 0x1FFFFFFF true false
  | .coll f =>
    let dst : BitVec 9 := f.espec.setWidth 9
    let s := shE f .no .pair .pair 0x1FF 0 true false (isPair dst)
    { s with reads := s.reads ++ useOf dst 2 }
  | .collq f => { shCtl f .r32 .no .no 0 (f.imm.toNat < 64) true with tags := [f.imm.toNat] }
  | .trsync f => shCtl f .no .no .no
  | .tlbinvVa f => once (shCtl f .no .pair .pair)
  | .tlbinvRoot f => once (shCtl f .no .no .pair 1)
  | .tlbinvAll f => shCtl f .no .no .no 2 (f.mods == 2)
  | .ctxsave f => once (shCtl f .r32 .pair .no)
  | .ctxload f => once (shCtl f .r32 .pair .no)
  | .errinj f =>
    let k := nbits f.mods 0 3
    match k with
    | 0 | 1 => { shCtl f .no .no .r32 7 (isV f.b) with reads := [], writes := useOf f.b 1 }
    | 2 | 3 => shCtl f .no .pair .no 7
    | _ => shCtl f .no .no .no 7 (k == 4)
  | _ => {}

/-- The guard of a word. -/
def guardOf : Instr → Option Guard
  | .clause f => some f.g
  | .br f | .call f | .trap f | .repeatN f | .movi f => some f.g
  | .waitaddr f | .wakeaddr f | .locq f | .lea f | .ld f | .ldx f | .st f | .atom f | .atomn f | .cas f | .fence f | .prefetch f | .clean f
  | .inval f | .ysend f | .yrecv f => some f.g
  | .trec f | .tcopy f | .tstore f | .tcopymc f | .recvarm f | .tagwait f | .tagffs f | .tagclr f | .tagstat f | .wpart f | .fwload f | .fwstore f
  | .fwop f | .fwred f | .fwfill f | .coll f => some f.g
  | .nop f | .brx f | .callx f | .ret f | .exit f | .tret f | .marshal f | .marshalRank f | .yield f | .sleep f | .preemptOff f | .preemptOn f
  | .bar f | .bara f | .barw f | .grow f | .shrink f | .growa f | .shrinka f | .gets f | .sets f | .launch f | .depdec f => some f.g
  | .add f | .sub f | .addc f | .subb f | .mul f | .mulhi f | .mad f | .madw f | .div f | .rem f | .min f | .max f | .abs f | .neg f | .and f
  | .or f | .xor f | .not f | .andn f | .shl f | .shr f | .sar f | .rot f | .bfe f | .bfi f | .popc f | .clz f | .ctz f | .brev f | .sel f
  | .cmp f | .mov f | .add64 f | .sub64 f | .mad64 f | .pand f | .por f | .pxor f | .pnot f | .pmov f => some f.g
  | .fadd f | .fsub f | .fmul f | .fma f | .fmin f | .fmax f | .fcmp f | .fclass f | .frnd f | .frcp f | .frsq f | .fsqrt f | .fexp2 f | .flog2 f
  | .fsin f | .fcos f | .ftanh f | .fsig f | .fdot2 f | .fdot4 f | .cvt f | .cvts f | .pack2 f | .unpack f | .scalex f | .q4enc f | .q4dec f
  | .ballot f | .matchEq f | .vote f | .reduce f | .scan f | .shfl f | .slotof f | .rankof f => some f.g
  | .yprobe f | .drill f | .mready f | .mwait f | .accrd f | .accwr f | .nanrd f | .collq f | .trsync f | .tlbinvVa f | .tlbinvRoot f
  | .tlbinvAll f | .ctxsave f | .ctxload f | .errinj f => some f.g
  | .undefinedOpcode w => some { neg := w.extractLsb' 85 1, pred := w.extractLsb' 82 3, fx := w.extractLsb' 80 2 }
  | _ => none

/-- A privileged opcode (R337). -/
def privileged : Instr → Bool
  | .trsync _ | .tlbinvVa _ | .tlbinvRoot _ | .tlbinvAll _ | .ctxsave _ | .ctxload _ | .errinj _ => true
  | _ => false

/-- A control transfer (R321). -/
def isTransfer : Instr → Bool
  | .br _ | .brx _ | .call _ | .callx _ | .ret _ | .exit _ | .trap _ | .tret _ => true
  | _ => false

/-- An engine instruction (R430, R431). -/
def isEngine : Instr → Bool
  | .trec _ | .tcopy _ | .tstore _ | .tcopymc _ | .recvarm _ | .tagwait _ | .tagffs _ | .tagclr _ | .tagstat _ | .drill _ | .mready _ | .mwait _
  | .accrd _ | .accwr _ | .nanrd _ | .wpart _ | .fwload _ | .fwstore _ | .fwop _ | .fwred _ | .fwfill _ | .coll _ | .collq _ => true
  | _ => false

/-- `ysend` and `yrecv`, which stand last (R424). -/
def isYoke : Instr → Bool
  | .ysend _ | .yrecv _ => true
  | _ => false

/-- The instructions `repeat` may repeat (R356). -/
def repeatable : Instr → Bool
  | .nop _ => true
  | .ld _ | .ldx _ | .st _ | .atom _ | .atomn _ | .cas _ | .prefetch _ | .clean _ | .inval _ => true
  | .add _ | .sub _ | .addc _ | .subb _ | .mul _ | .mulhi _ | .mad _ | .madw _ | .div _ | .rem _ | .min _ | .max _ | .abs _ | .neg _ | .and _
  | .or _ | .xor _ | .not _ | .andn _ | .shl _ | .shr _ | .sar _ | .rot _ | .bfe _ | .bfi _ | .popc _ | .clz _ | .ctz _ | .brev _ | .sel _
  | .cmp _ | .mov _ | .movi _ | .lea _ | .add64 _ | .sub64 _ | .mad64 _ | .pand _ | .por _ | .pxor _ | .pnot _ | .pmov _ => true
  | .fadd _ | .fsub _ | .fmul _ | .fma _ | .fmin _ | .fmax _ | .fcmp _ | .fclass _ | .frnd _ | .frcp _ | .frsq _ | .fsqrt _ | .fexp2 _ | .flog2 _
  | .fsin _ | .fcos _ | .ftanh _ | .fsig _ | .fdot2 _ | .fdot4 _ | .cvt _ | .cvts _ | .pack2 _ | .unpack _ | .scalex _ | .q4enc _ | .q4dec _
  | .ballot _ | .matchEq _ | .vote _ | .reduce _ | .scan _ | .shfl _ | .slotof _ | .rankof _ => true
  | _ => false

/-- Instructions of the shadowed classes (R92): groups 1 to 3 but for `lea`. -/
def shadowed (i : Instr) : Bool :=
  repeatable i && !(shape i).mem && (match i with | .nop _ | .lea _ => false | _ => true)

/-- The stepped fields of a `repeat` name v registers the instruction uses, with even steps on groups (R356) (conventions: DEDUCED, assumption 16). -/
def stepOk (mask : BitVec 4) (step : Nat) (i : Instr) : Bool :=
  let sp := (shape i).specs
  (upto 4).all (fun k => !bit mask k || (match sp[k]? with
    | some (s, n) => isV s && n != 0 && (n < 2 || step % 2 == 0)
    | none => false))

/-- `spec` moved by `k` registers; none above v255 (R357). -/
def stepSpec (on : Bool) (k : Nat) (s : BitVec 9) : Option (BitVec 9) :=
  if on then (if s.toNat + k < 256 then some (BitVec.ofNat 9 (s.toNat + k)) else none) else some s

def stepA (mask : BitVec 4) (k : Nat) (f : FmtA) : Option FmtA :=
  match stepSpec (bit mask 0) k f.d, stepSpec (bit mask 1) k f.a, stepSpec (bit mask 2) k f.b, stepSpec (bit mask 3) k f.c with
  | some d, some a, some b, some c => some { f with d := d, a := a, b := b, c := c }
  | _, _, _, _ => none
def stepI (mask : BitVec 4) (k : Nat) (f : FmtI) : Option FmtI :=
  match stepSpec (bit mask 0) k f.d with
  | some d => some { f with d := d }
  | none => none
def stepM (mask : BitVec 4) (k : Nat) (f : FmtM) : Option FmtM :=
  match stepSpec (bit mask 0) k f.data, stepSpec (bit mask 1) k f.base, stepSpec (bit mask 2) k f.index with
  | some d, some a, some b => some { f with data := d, base := a, index := b }
  | _, _, _ => none

/-- Legality against the block's grants and thread count (R20, R364, R436). -/
def grantOk (i : Instr) (b : Block) : Bool :=
  let sh := shape i
  sh.recs.all (· < b.recs.length) && sh.tags.all (· < b.tags.length) && sh.accs.all (· < b.accs) &&
  (match i with
   | .bar f | .bara f | .barw f => nbits f.imm 4 12 ≤ b.threads
   | .tcopymc f => nbits f.ectl 0 24 < 2 ^ (match b.nbhd with | some (_, h, w, _) => h * w | none => 1)
   | _ => true)

end Sys2Proof.Machine
end

