-- ==== Sys2Proof/Machine/Ops.lean ====
section
/-! DEFINITION. The named operations over the state: accessors, region fields, the yard's filing and wakes, fault records, taking a trap and
returning from one. -/
namespace Sys2Proof.Machine

-- Accessors -------------------------------------------------------------------------------------------

def getCore (s : State) (g : Nat) : Core := mget {} s.cores g
def modCore (g : Nat) (f : Core → Core) (s : State) : State := { s with cores := mput s.cores g (f (getCore s g)) }
def getBlk (s : State) (b : Nat) : Block := mget default s.blocks b
/-- Modify a block; there is nothing to modify of one that does not exist. -/
def modBlk (b : Nat) (f : Block → Block) (s : State) : State :=
  match mfind s.blocks b with
  | some k => { s with blocks := mput s.blocks b (f k) }
  | none => s
def getTh (s : State) (b r : Nat) : Thread := mget {} (getBlk s b).members r
def modTh (b r : Nat) (f : Thread → Thread) (s : State) : State :=
  modBlk b (fun k => match mfind k.members r with
    | some t => { k with members := mput k.members r (f t) }
    | none => k) s
def getFld (s : State) (f : Nat) : Field := mget {} s.fields f
def modFld (i : Nat) (f : Field → Field) (s : State) : State := { s with fields := mput s.fields i (f (getFld s i)) }
def getQ (s : State) (q : Nat) : Queue := mget {} s.queues q
def modQ (q : Nat) (f : Queue → Queue) (s : State) : State := { s with queues := mput s.queues q (f (getQ s q)) }
def modConsist (g cn : Nat) (f : Consist → Consist) (s : State) : State :=
  modCore g (fun c => match mfind c.consists cn with
    | some k => { c with consists := mput c.consists cn (f k) }
    | none => c) s

/-- Physical field of a core key (R12). -/
abbrev fieldOf (g : Nat) : Nat := g / 256
/-- Yoke partner (R12). -/
def partner (g : Nat) : Nat := fieldOf g * 256 + ((g % 256) ^^^ 0x80)
/-- Torus distance (R13). -/
def torusDist (a b : Nat) : Nat :=
  let d := fun (x y : Nat) => let k := if x < y then y - x else x - y; min k (8 - k)
  d (a / 8) (b / 8) + d (a % 8) (b % 8)
/-- The fallow field: CFG.FALLOW (R303); 45 before a record is read (conventions: DESIGN CHOICE, assumption 60). -/
def fallow (s : State) : Nat := if s.cfg.length < 6 then 45 else ((s.cfg.getD 5 0).toNat) % 64

/-- A block on its core (R36). -/
def resident (b : Block) : Bool := b.phase == .resident || b.phase == .stopping
def nowOf (s : State) (g : Nat) : Nat := (getFld s (fieldOf g)).now

/-- A fresh free word (R9) (conventions: DESIGN CHOICE, assumption 2). -/
def freeW (s : State) : Word × State := (Config.freeWord s.free, { s with free := s.free + 1 })
/-- Conventions: DESIGN CHOICE, assumption 2. -/
def freeB (s : State) : Bool × State := (Config.freeBool s.free, { s with free := s.free + 1 })

-- Regions ---------------------------------------------------------------------------------------------

def rcbOf (s : State) (a : Nat) : BitVec 2048 := mget 0 s.rcbs a
/-- Effective value of an inherited region field (R254): walk up the path, at most 8 blocks. -/
def effField (s : State) (ovr lo w dflt : Nat) : Nat → Nat → Nat
  | 0, _ => dflt
  | fuel + 1, a =>
    let r := rcbOf s a
    if bit r (64 + ovr) then nbits r lo w
    else if nbits r 0 52 == 0 then dflt
    else effField s ovr lo w dflt fuel (nbits r 0 52)
def eff (s : State) (a ovr lo w dflt : Nat) : Nat := effField s ovr lo w dflt 9 a
def regPriority (s : State) (a : Nat) : Nat := eff s a 0 84 5 31
def regFaultPol (s : State) (a : Nat) : Nat := eff s a 1 89 2 0
def regFaultHost (s : State) (a : Nat) : Bool := eff s a 2 91 1 0 == 1
def regSecure (s : State) (a : Nat) : Bool := eff s a 3 92 1 0 == 1
def regShadow (s : State) (a : Nat) : Nat := eff s a 4 93 2 0
def regRollback (s : State) (a : Nat) : Bool := eff s a 5 95 1 0 == 1
def regFurrow (s : State) (a : Nat) : Bool := eff s a 6 96 1 0 == 1
def regGradCeil (s : State) (a : Nat) : Option Nat := match eff s a 7 97 3 8 with | 8 => none | n => some n
def regAge (s : State) (a : Nat) : Nat := eff s a 8 100 13 64
def regRoot (s : State) (a : Nat) : Nat := eff s a 9 256 52 0
def regPlace (s : State) (a : Nat) : Nat := eff s a 10 320 52 0
def regTrapEntry (s : State) (a : Nat) : DWord := BitVec.ofNat 64 (eff s a 11 384 64 0)
/-- The path from a region to the root (R253, R255). -/
def regPath (s : State) : Nat → Nat → List Nat
  | 0, _ => []
  | fuel + 1, a => a :: (let p := nbits (rcbOf s a) 0 52; if p == 0 then [] else regPath s fuel p)
def pathOf (s : State) (a : Nat) : List Nat := regPath s 8 a
/-- `a` is `anc` or lies below it (R17). -/
def below (s : State) (anc a : Nat) : Bool := (pathOf s a).contains anc
/-- The world of a block (R254). -/
def secureOf (s : State) (b : Nat) : Bool := regSecure s (getBlk s b).region
def rootOf (s : State) (b : Nat) : Nat := regRoot s (getBlk s b).region

-- Counters --------------------------------------------------------------------------------------------

/-- Add to an event counter of a field (R283, R284). -/
def evAdd (f off n : Nat) (s : State) : State :=
  modFld f (fun k => { k with evcnt := mput k.evcnt off (mget 0 k.evcnt off + BitVec.ofNat 64 n) }) s
/-- Does a counter's selection cover an event (R287)? `req`: the requester's world, none without a requester; `core`: of a core event (conventions: DESIGN CHOICE, assumption 41). -/
def perfSel (sel : DWord) (code : Nat) (core : Option Nat) (req : Option Bool) : Bool :=
  nbits sel 0 6 == code && bit sel 6 &&
  (match req with | some sec => (if sec then bit sel 7 else bit sel 8) | none => true) &&
  (match core with | some c => !bit sel 9 || nbits sel 10 8 == c | none => true)
/-- Count an event on the field's performance counters (R287) (conventions: DESIGN CHOICE, assumption 41). -/
def perfAdd (f code : Nat) (core : Option Nat) (req : Option Bool) (n : Nat) (s : State) : State :=
  let k := getFld s f
  if k.perf.isEmpty then s
  else modFld f (fun k => { k with perf := k.perf.map (fun e =>
    if perfSel e.2.sel code core req then
      let t := e.2.cnt.toNat + n
      (e.1, { sel := if 2 ^ 48 ≤ t then e.2.sel ||| (1 <<< 63) else e.2.sel, cnt := BitVec.ofNat 48 t })
    else e) }) s
/-- A core event of a block (conventions: DESIGN CHOICE, assumption 41). -/
def perfCore (g b code n : Nat) (s : State) : State := perfAdd (fieldOf g) code (some (g % 256)) (some (secureOf s b)) n s

-- The yard: filing and waking ---------------------------------------------------------------------------

/-- The siding a thread joins, under its key (R30, R88): of those with room the one with fewest threads, ties to the lowest number. -/
def sidingFor (c : Core) (b : Nat) (pc : DWord) (h : Bool) : Option Nat :=
  (leastBy (fun e => e.2.ranks.length) (c.sidings.filter (fun e =>
    e.2.blk == b && e.2.pc == pc && e.2.handler == h && e.2.ranks.length < 32))).map (·.1)
/-- The lowest free number below `n` of a map. -/
def freeKey {α : Type} (m : SMap α) (n : Nat) : Option Nat := (upto n).find? (fun i => (mfind m i).isNone)

/-- File one thread (R30) (conventions: DEDUCED, assumptions 11, 20). -/
def fileThread (g b r : Nat) (s : State) : State :=
  let c := getCore s g
  let t := getTh s b r
  let h := t.trap == .handler
  match sidingFor c b t.pc h with
  | some i =>
    let sd := mget default c.sidings i
    let ranks := insertBy id r sd.ranks
    modTh b r (fun t => { t with place := .siding i })
      (modCore g (fun c => { c with sidings := mput c.sidings i { sd with ranks := ranks, due := sd.due || ranks.length == 32 } }) s)
  | none =>
    match freeKey c.sidings 64 with
    | some i =>
      modTh b r (fun t => { t with place := .siding i })
        (modCore g (fun c => { c with sidings := mput c.sidings i { blk := b, pc := t.pc, handler := h, ranks := [r], since := nowOf s g, due := false, order := s.ticks } }) s)
    | none =>
      modTh b r (fun t => { t with place := .ready }) (modCore g (fun c => { c with ready := c.ready ++ [(b, r)] }) s)

/-- A thread whose waits are over becomes ready and is filed (R33, R37); in a saved block it is only marked. -/
def makeReady (b r : Nat) (s : State) : State :=
  let k := getBlk s b
  if resident k then fileThread k.core b r s
  else modBlk b (fun k => { k with savedReady := k.savedReady ++ [r] }) (modTh b r (fun t => { t with place := .ready }) s)

/-- A thread begins a wait (R33). -/
def beginWait (b r : Nat) (w : Wait) (s : State) : State := modTh b r (fun t => { t with waits := t.waits ++ [w], began := true }) s
/-- The field's local cycle reaches a moment (R5), and sidings that have waited their age threshold become due (R31). The cycles that pass are counted, and
those in which a pseudo-channel is held (R287). -/
def setNow (f t : Nat) (s : State) : State :=
  let k := getFld s f
  let s := perfAdd f 0x00 none none (t - k.now) s
  let s := if k.retrain.isSome || k.pcpwrReq == 2 then perfAdd f 0x14 none none (t - k.now) s else s
  let s := modFld f (fun k => { k with now := max k.now t }) s
  let n := (getFld s f).now
  { s with cores := s.cores.map (fun e => if fieldOf e.1 == f then (e.1, { e.2 with sidings := e.2.sidings.map (fun x =>
      (x.1, { x.2 with due := x.2.due || (x.2.since + regAge s (getBlk s x.2.blk).region ≤ n && (getBlk s x.2.blk).phase == .resident) })) }) else e) }
/-- End the waits of a thread that satisfy a test; wake it when none is left (R33), and note the order of the wakes (R455) (conventions: DEDUCED, assumption 9). -/
def endWait (b r : Nat) (p : Wait → Bool) (s : State) : State :=
  let t := getTh s b r
  let ws := t.waits.filter (fun w => !p w)
  let gone := ws.isEmpty && !t.waits.isEmpty
  let s := modTh b r (fun t => { t with waits := ws, woke := if gone then s.nextId else t.woke }) { s with nextId := if gone then s.nextId + 1 else s.nextId }
  if t.place == .waiting && gone then makeReady b r s else s

/-- When a siding frees, the oldest ready threads are filed (R30). -/
def fileReady (g : Nat) : Nat → State → State
  | 0, s => s
  | fuel + 1, s =>
    let c := getCore s g
    match c.ready with
    | [] => s
    | (b, r) :: rest =>
      let t := getTh s b r
      if (sidingFor c b t.pc (t.trap == .handler)).isSome || (freeKey c.sidings 64).isSome then
        fileReady g fuel (fileThread g b r (modCore g (fun c => { c with ready := rest }) s))
      else s

/-- Ranks of the block's live threads. -/
def liveRanks (k : Block) : List Nat := (k.members.filter (fun e => e.2.live)).map (·.1)

/-- The deferred-cause queue holds one cause of each kind (R86); `rep`: REPCOUNT of the iteration that raised it (R82). -/
def queueDeferred (b r : Nat) (code detail : Nat) (va : DWord) (s : State) (rep : Option (BitVec 16 × BitVec 16) := none) : State :=
  modTh b r (fun t =>
    if t.deferred.any (fun d => d.code == BitVec.ofNat 8 code) then t
    else { t with deferred := t.deferred ++ [{ code := BitVec.ofNat 8 code, detail := BitVec.ofNat 8 detail, pc := 0, va := va, rep := rep }] }) s

-- Signal-box events and fault records -----------------------------------------------------------------

/-- Put an event in the signal box's queue (R211, R212) (conventions: DEDUCED, assumption 57). -/
def sbEvent (key : Nat × Nat) (what : SbWhat) (s : State) : State :=
  { s with eventSeq := s.eventSeq + 1, events := s.events ++ [{ seq := s.eventSeq + 1, key := key, what := what }] }

/-- Records that stand in a field's fault queue (R217): those awaiting an answer, and double-fault records not yet handed on (conventions: DEDUCED, assumption 48). -/
def faultsOpen (s : State) (f : Nat) : Nat := ((getFld s f).faults.filter (fun r => r.open_ || (r.double && !r.taken))).length
/-- The fault queue has a place (R217). -/
def faultRoom (s : State) (f : Nat) : Bool := faultsOpen s f < 256

/-- Send a fault record (R217, R229): it takes the field's next number (conventions: DEDUCED, assumption 48). -/
def sendFault (f : Nat) (r : FRec) (s : State) : Word × State :=
  let q := (getFld s f).faultSeq + 1
  let s := modFld f (fun k => { k with faultSeq := q, faults := k.faults ++ [{ r with seq := q }] }) s
  (q, sbEvent (0, f) (.fault f q) s)

/-- The fields of a record about a block (R229). -/
def blkRec (s : State) (b : Nat) (va : DWord) (src : FSource) : FRec :=
  { va := va, seq := 0, kind := 0, refault := false, access := 0, source := 0, secure := secureOf s b, core := BitVec.ofNat 8 ((getBlk s b).core % 256),
    unit := 0, drill := false, double := false, root := rootOf s b, level := 0, entry := 0, cause := 0, pa := 0, src := src, open_ := true
    host := regFaultHost s (getBlk s b).region, handle := (getBlk s b).handle }

-- Traps -----------------------------------------------------------------------------------------------

/-- Trap codes (R83). -/
abbrev cTrap : Nat := 1
abbrev cIllegalOp : Nat := 2
abbrev cIllegalEnc : Nat := 3
abbrev cPriv : Nat := 4
abbrev cIllegalTarget : Nat := 5
abbrev cFetchParity : Nat := 6
abbrev cFetchFault : Nat := 7
abbrev cRegRange : Nat := 8
abbrev cRegUncorr : Nat := 9
abbrev cWorld : Nat := 0xA
abbrev cMisalign : Nat := 0xB
abbrev cAliasAtomic : Nat := 0xC
abbrev cLscratch : Nat := 0xD
abbrev cRecordEmpty : Nat := 0xE
abbrev cGrowStarved : Nat := 0xF
abbrev cPageDenied : Nat := 0x10
abbrev cOverrun : Nat := 0x11
abbrev cShadow : Nat := 0x12

/-- Record a precise cause on a thread (R86): only the first of a clause, but a precise cause goes before deferred ones. -/
def recordTrap (b r : Nat) (code detail : Nat) (pc va : DWord) (rep : Option (BitVec 16 × BitVec 16)) (s : State) : State :=
  modTh b r (fun t =>
    match t.raised with
    | some _ => t
    | none => { t with raised := some { code := BitVec.ofNat 8 code, detail := BitVec.ofNat 8 detail, pc := pc, va := va, rep := rep },
                       trap := if t.trap == .normal then .raised else t.trap }) s

/-- Write the trap registers and go to the handler (R84-R87). `i.pc` is TRAPPC. -/
def enterHandler (entry : DWord) (i : TrapInfo) (t : Thread) : Thread :=
  { t with
    cause := i.code.setWidth 32 ||| (i.detail.setWidth 32 <<< 8) ||| (if i.rep.isSome then 0x10000 else 0)
    trappc := i.pc, trapva := i.va, trappcWritten := false
    keptRep := match i.rep with | some (d, n) => n ++ d | none => 0
    pc := entry, via := .fall, nextPc := none, raised := none, trap := .handler }

/-- Return from the handler (R86, R90): next PC is TRAPPC, TRAPCAUSE and the kept REPCOUNT become 0. -/
def leaveHandler (t : Thread) : Thread :=
  { t with nextPc := some t.trappc, via := .tret t.trappcWritten, cause := 0, keptRep := 0, trap := .normal }

/-- The record of a double fault (R89, R229). -/
def doubleRec (s : State) (b : Nat) (i : TrapInfo) (cn : Nat) : FRec :=
  { blkRec s b i.va (.double b) with
    double := true, cause := i.code.setWidth 6, open_ := false, unit := BitVec.ofNat 6 cn
    access := if [0xA, 0xB, 0xC, 0xD, 0x10].contains i.code.toNat then
        (match i.detail.toNat with | 5 => 8 | n => BitVec.ofNat 4 n) else 0 }

end Sys2Proof.Machine
end

