-- ==== Sys2Proof/Machine/Mem.lean ====
section
/-! DEFINITION. Memory: physical targets and homes (R128-R131), home memory and its errors (R140), alias views (R141-R143), the L1s and remote-data
caches (R135, R139), write-back and invalidation (R160-R166), watches (R361), and translation (R221-R227). Write-backs and fills move whole lines. -/
namespace Sys2Proof.Machine

-- Home memory -----------------------------------------------------------------------------------------

/-- What an address that home memory does not list reads as (R299 step KEYS) (conventions: DESIGN CHOICE, assumption 1). -/
abbrev memDefault : Byte := 0
/-- A byte of home memory (conventions: DESIGN CHOICE, assumption 1). -/
def memGet (m : List Host.Cell) (a : Nat) : Byte := mget memDefault m a
/-- Home memory with one byte written, in canonical form (conventions: DESIGN CHOICE, assumption 1). -/
def memPut (m : List Host.Cell) (a : Nat) (v : Byte) : List Host.Cell := if v = memDefault then mdel m a else mput m a v
/-- Canonical form: addresses strictly rising, no entry equal to what an unlisted address reads as (conventions: DESIGN CHOICE, assumption 1). -/
def Memory.wf : List Host.Cell → Bool
  | [] => true
  | (a, v) :: rest => v != memDefault && rest.all (fun c => a < c.1) && Memory.wf rest
/-- The cells of an area after a write where a mask says so; `old`: the area's cells before. -/
def maskCells (old : List Host.Cell) (a : Nat) : List (Bool × Byte) → List Host.Cell
  | [] => []
  | (k, b) :: bs =>
    let v := if k then b else memGet old a
    if v = memDefault then maskCells old (a + 1) bs else (a, v) :: maskCells old (a + 1) bs
/-- Bytes written from an address up, where a mask says so. -/
def memPutMask (m : List Host.Cell) (a : Nat) (bs : List (Bool × Byte)) : List Host.Cell :=
  m.filter (fun c => c.1 < a) ++ maskCells (m.filter (fun c => a ≤ c.1 && c.1 < a + bs.length)) a bs ++ m.filter (fun c => a + bs.length ≤ c.1)
/-- Bytes written from an address up. -/
def memPuts (m : List Host.Cell) (a : Nat) (bs : List Byte) : List Host.Cell := memPutMask m a (bs.map (fun b => (true, b)))
/-- Bytes read from an address up. -/
def memBytes (m : List Host.Cell) (a n : Nat) : List Byte := (upto n).map (fun i => memGet m (a + i))
/-- A byte in its place in a line. -/
def placeByte (b : Byte) (i : Nat) : BitVec 1024 := (b.setWidth 1024 : BitVec 1024) <<< (8 * i)
/-- A 128-byte line of home memory by its number. -/
def memLine (m : List Host.Cell) (ln : Nat) : BitVec 1024 :=
  m.foldl (fun (acc : BitVec 1024) c => if ln * 128 ≤ c.1 && c.1 < ln * 128 + 128 then acc ||| placeByte c.2 (c.1 % 128) else acc) 0

-- Physical addresses (R128, R129) ------------------------------------------------------------------------

inductive Target where
  | host
  | viewOf (f w o : Nat)
  | dev (f off : Nat)
  | ctl (off : Nat)
  | unbacked
  deriving DecidableEq, Repr

def target (pa : Nat) : Target :=
  if 2 ^ 52 ≤ pa then .unbacked
  else if pa / 2 ^ 51 == 1 then .host
  else if pa / 2 ^ 48 % 8 != 0 then .unbacked
  else if pa / 2 ^ 47 % 2 == 1 then
    (if pa / 2 ^ 46 % 2 == 0 then .viewOf (pa / 2 ^ 36 % 64) (pa / 2 ^ 42 % 16) (pa % 2 ^ 36) else .unbacked)
  else match pa / 2 ^ 42 % 32 with
    | 0 => .dev (pa / 2 ^ 36 % 64) (pa % 2 ^ 36)
    | 31 => .ctl (pa % 2 ^ 42)
    | _ => .unbacked

def getWin (s : State) (f w : Nat) : Window := mget {} (getFld s f).windows w
/-- An alias offset inside a live window (R141). -/
def aliasLive (s : State) (f w o : Nat) : Bool := let k := getWin s f w; bit k.ctl 0 && o < nbits k.len 0 24 * 4096
/-- The address is backed (R128, R141). -/
def backed (s : State) (pa : Nat) : Bool :=
  match target pa with
  | .viewOf f w o => aliasLive s f w o
  | .unbacked => false
  | _ => true
/-- The home field of a line; none for host memory (R129). -/
def homeOf (pa : Nat) : Option Nat :=
  match target pa with
  | .viewOf f _ _ => some f
  | .dev f _ => some f
  | _ => none
/-- Device physical address of an offset of a field (R128). -/
abbrev devPA (f off : Nat) : Nat := f * 2 ^ 36 + off
/-- World of a device granule (R145). -/
def granSecure (s : State) (pa : Nat) : Bool := bit (mget 0 s.worldMap (pa / 2 ^ 21)) 0
/-- World of an address (R145, R251). -/
def paSecure (s : State) (pa : Nat) : Bool :=
  match target pa with
  | .host => false
  | .dev _ _ => granSecure s pa
  | .viewOf f w o => let k := getWin s f w
    granSecure s (devPA f (nbits k.enc 0 36 + (if nbits k.ctl 1 2 == 2 then o / 4 else o / 2)))
  | _ => true

-- Watches (R361) ----------------------------------------------------------------------------------------

/-- Wake the thread of a watch. -/
def wakeOne (w : Watch) (s : State) : State := endWait w.blk w.rank (fun x => x == .address w.id) s
/-- One write at home to some device lines of a field wakes and removes every watch on them, in registration order. -/
def wakeLines (f : Nat) (lns : List Nat) (s : State) : State :=
  let ws := (getFld s f).watches.filter (fun w => lns.contains (w.pa / 128))
  if ws.isEmpty then s
  else ws.foldl (fun s w => wakeOne w s) (modFld f (fun k => { k with watches := k.watches.filter (fun w => !lns.contains (w.pa / 128)) }) s)
/-- A write at home to a device line wakes its watches. -/
def wakeLine (ln : Nat) (s : State) : State :=
  match homeOf (ln * 128) with
  | none => s
  | some f => wakeLines f [ln] s

-- Lines and byte masks -----------------------------------------------------------------------------------

/-- One bit per byte widened to the byte. -/
def byteMask (m : BitVec 128) : BitVec 1024 :=
  (upto 128).foldl (fun (acc : BitVec 1024) i => if bit m i then acc ||| (0xFF#1024 <<< (8 * i)) else acc) 0
abbrev fullMask : BitVec 128 := BitVec.allOnes 128
/-- Bytes [lo, lo + n) of a line. -/
def rangeMask (lo n : Nat) : BitVec 128 := BitVec.ofNat 128 ((2 ^ n - 1) * 2 ^ lo)
/-- `a` with the bytes of `m` taken from `b`. -/
def mergeBytes (a b : BitVec 1024) (m : BitVec 128) : BitVec 1024 :=
  if m = fullMask then b else let k := byteMask m; (a &&& ~~~k) ||| (b &&& k)
/-- The 8-byte words that a byte mask covers whole, and those it touches. -/
def wordsWhole (m : BitVec 128) : List Nat := (upto 16).filter (fun i => nbits m (8 * i) 8 == 255)
def wordsTouched (m : BitVec 128) : List Nat := (upto 16).filter (fun i => nbits m (8 * i) 8 != 0)
/-- The words of a list as a mask. -/
def wordMask (ws : List Nat) : BitVec 16 := ws.foldl (fun (q : BitVec 16) w => q ||| (1 <<< w)) 0
/-- The poison of the words that some bytes touch. -/
def keepPoison (m : BitVec 128) (p : BitVec 16) : BitVec 16 := p &&& wordMask (wordsTouched m)

-- Alias views (R141, R115) ---------------------------------------------------------------------------------

/-- Encoded bytes of an alias line: data range and scale range (offset in the field, length). -/
def aliasRanges (k : Window) (o : Nat) : Nat × Nat × Nat × Nat :=
  if nbits k.ctl 1 2 == 2 then (nbits k.enc 0 36 + o / 4, 32, nbits k.scale 0 36 + o / 32, 4) else (nbits k.enc 0 36 + o / 2, 64, 0, 0)
/-- Decode an alias line (R115). -/
def aliasDecode (s : State) (f w o : Nat) : BitVec 1024 :=
  let k := getWin s f w
  let (e, n, sb, sn) := aliasRanges k o
  let data := memBytes s.mem (devPA f e) n
  let elems : List Nat :=
    match nbits k.ctl 1 2 with
    | 2 =>
      let sc := memBytes s.mem (devPA f sb) sn
      (upto 64).map (fun i => fround fmtBf16 (q4elem (ofBytes 128 (data.drop (16 * (i / 32)) |>.take 16)) (ofBytes 16 (sc.drop (2 * (i / 32)) |>.take 2)) (i % 32)))
    | 1 => data.map (fun b => match fdecode fmtE5m2 b.toNat with | .nan n _ => fpack fmtBf16 n 0x7FC0 | v => fround fmtBf16 v)
    | _ => data.map (fun b => match fdecode fmtE4m3 b.toNat with | .nan n _ => fpack fmtBf16 n 0x7FC0 | v => fround fmtBf16 v)
  ofBytes 1024 (elems.flatMap (fun x => toBytes 2 (BitVec.ofNat 16 x)))
/-- Re-encode an alias line (R115, R113, R114): data bytes and scale bytes. -/
def aliasEncode (k : Window) (d : BitVec 1024) : List Byte × List Byte :=
  let v := (upto 64).map (fun i => fdecode fmtBf16 (nbits d (16 * i) 16))
  match nbits k.ctl 1 2 with
  | 2 =>
    let blk := fun (l : List FV) => q4encode l (q4exp l)
    let a := blk (v.take 32)
    let b := blk (v.drop 32)
    (toBytes 16 a.1 ++ toBytes 16 b.1, toBytes 2 a.2 ++ toBytes 2 b.2)
  | 1 => (v.map (fun x => BitVec.ofNat 8 (narrowF fmtE5m2 .away true x)), [])
  | _ => (v.map (fun x => BitVec.ofNat 8 (narrowF fmtE4m3 .away true x)), [])

-- Access at the home (R138) ----------------------------------------------------------------------------------

/-- Words of a range of home bytes with an error of a kind. -/
def errWords (s : State) (pa n : Nat) (dbl : Bool) : List Nat :=
  (s.memErr.filter (fun e => e.2 == dbl && pa / 8 ≤ e.1 && e.1 ≤ (pa + n - 1) / 8)).map (·.1)
/-- Pseudo-channel of a device address (R131). -/
def pchOf (pa : Nat) : Nat := (pa / 256 % 32) ^^^ (pa / 2 ^ 18 % 32)
/-- Correct the single-bit errors of a range, counting each at its home (R140), and on its pseudo-channel for R297. -/
def correctHome (pa n : Nat) (s : State) : State :=
  if s.memErr.isEmpty then s
  else
    let ws := errWords s pa n false
    let s := { s with memErr := s.memErr.filter (fun e => !(e.2 == false && ws.contains e.1)) }
    match homeOf pa with
    | some f => modFld f (fun k => { k with corrected := ws.foldl (fun m w => let p := pchOf (w * 8); mput m p (mget 0 m p + 1)) k.corrected }) (evAdd f 0x30 ws.length s)
    | none => s

/-- Field and pseudo-channel of the device memory under an address (R131, R141). -/
def pchsOf (s : State) (pa : Nat) : List (Nat × Nat) :=
  match target pa with
  | .dev f _ => [(f, pchOf pa)]
  | .viewOf f w o =>
    let (e, _, sb, sn) := aliasRanges (getWin s f w) o
    if sn == 0 then [(f, pchOf (devPA f e))] else [(f, pchOf (devPA f e)), (f, pchOf (devPA f sb))]
  | _ => []
/-- A pseudo-channel holds its accesses: it retrains, or a request for it has status HELD_ACC (R147, R148). -/
def pchHeld (s : State) (c : Nat × Nat) : Bool :=
  let k := getFld s c.1
  k.retrain == some c.2 || (k.pcpwrReq == 2 && nbits k.pcpwr 0 5 == c.2)
/-- An access reaches a pseudo-channel: a powered-down one returns to ACTIVE (R298), and one that holds its accesses is noted (R147, R148) (conventions: DEDUCED,
assumptions 73, 95). -/
def wakePch (pa : Nat) (s : State) : State :=
  match target pa with
  | .dev f _ =>
    let s := if pchHeld s (f, pchOf pa) then { s with touched := (f, pchOf pa) :: s.touched } else s
    if (getFld s f).pchState.isEmpty then s else modFld f (fun k => { k with pchState := mdel k.pchState (pchOf pa) }) s
  | _ => s
/-- LLC slice and set of a device or alias address, and its set in another field's RDC (R131). -/
def llcSlice (pa : Nat) : Nat := (pa / 2 ^ 7 % 8) ^^^ (pa / 2 ^ 17 % 8)
def llcSet (pa : Nat) : Nat := pa / 2 ^ 10 % 8192
def rdcSet (pa : Nat) : Nat := (pa / 2 ^ 7 % 8192) ^^^ (pa / 2 ^ 36 % 64)
/-- A slice, by default with its first partition number (R178) (conventions: DESIGN CHOICE, assumption 52). -/
def getSlice (s : State) (f i : Nat) : Slice := (mfind (getFld s f).slices i).getD { number := BitVec.ofNat 32 (0x100 + f * 8 + i) }
/-- Role of a way in a partition image (R173). -/
def role (img : BitVec 32) (way : Nat) : Nat := nbits img (2 * way) 2
/-- Drop an alias line from the LLC, re-encoding it when dirty (R142). A poisoned word of it poisons every encoded word of the line, and a poisoned encoded
word the whole alias line (conventions: DESIGN CHOICE, assumption 99). -/
def aliasDrop (ln : Nat) (s : State) : State :=
  match mfind s.aliasLines ln, target (ln * 128) with
  | some l, .viewOf f w o =>
    let s := { s with aliasLines := mdel s.aliasLines ln }
    if l.dirty = 0 then s
    else
      let k := getWin s f w
      let (e, n, sb, sn) := aliasRanges k o
      let (db, scb) := aliasEncode k l.data
      let old := s.memErr.filter (fun x => x.2 && devPA f e / 8 ≤ x.1 && x.1 < (devPA f e + n) / 8)
      let s := { s with
        mem := memPuts (memPuts s.mem (devPA f e) db) (devPA f sb) scb
        memErr := s.memErr.filter (fun x => !(devPA f e / 8 ≤ x.1 && x.1 < (devPA f e + n) / 8)) }
      let s := if l.poison = 0 then s
        else evAdd f 0x40 ((n / 8) - old.length) { s with memErr := s.memErr ++ (upto (n / 8)).map (fun i => (devPA f e / 8 + i, true)) }
      let s := wakePch (devPA f e) (if sn == 0 then s else wakePch (devPA f sb) s)
      wakeLines f (if sn == 0 then [devPA f e / 128] else [devPA f e / 128, devPA f sb / 128]) s
  | _, _ => s
/-- The alias lines that a slice's set holds (R131, R137). -/
def aliasIn (s : State) (f pa : Nat) : SMap Line :=
  s.aliasLines.filter (fun e => homeOf (e.1 * 128) == some f && llcSlice (e.1 * 128) == llcSlice pa && llcSet (e.1 * 128) == llcSet pa)
/-- A cache way of a set for a line: the lowest without an alias line, or that of a victim, which leaves (R137) (conventions: DESIGN CHOICE, assumption 99). -/
def aliasWay (f pa : Nat) (s : State) : Nat × State :=
  let ws := (upto 16).filter (fun w => role (getSlice s f (llcSlice pa)).inForce w == 0)
  match ws.find? (fun w => (aliasIn s f pa).all (fun e => e.2.way != w)) with
  | some w => (w, s)
  | none =>
    let (x, s) := freeW s
    let w := ws.getD (x.toNat % max 1 ws.length) 0
    (w, ((aliasIn s f pa).filter (fun e => e.2.way == w)).foldl (fun s e => aliasDrop e.1 s) s)
/-- Read a line at its home: data and poisoned words. An alias line is decoded and kept; the words that a poisoned encoded word poisons in it do not count in POISON (R141,
R142, R284) (conventions: DEDUCED, assumption 18; DESIGN CHOICE, assumption 129). -/
def homeRead (ln : Nat) (s : State) : (BitVec 1024 × BitVec 16) × State :=
  let pa := ln * 128
  match target pa with
  | .viewOf f w o =>
    match mfind s.aliasLines ln with
    | some l => ((l.data, l.poison), s)
    | none =>
      let (e, n, sb, sn) := aliasRanges (getWin s f w) o
      let s := correctHome (devPA f e) n (correctHome (devPA f sb) sn s)
      let s := wakePch (devPA f e) (if sn == 0 then s else wakePch (devPA f sb) s)
      let bad := !(errWords s (devPA f e) n true).isEmpty || (sn != 0 && !(errWords s (devPA f sb) sn true).isEmpty)
      let d := aliasDecode s f w o
      let p : BitVec 16 := if bad then BitVec.allOnes 16 else 0
      let (w, s) := aliasWay f pa s
      ((d, p), { s with aliasLines := mput s.aliasLines ln { data := d, valid := fullMask, dirty := 0, poison := p, way := w } })
  | _ =>
    let s := correctHome pa 128 (wakePch pa s)
    let p := (errWords s pa 128 true).foldl (fun (p : BitVec 16) w => p ||| (1 <<< (w % 16))) 0
    ((memLine s.mem ln, p), s)

/-- Some bytes of a line are written: a copy that stands inside a word of them does not write them any more (R171). -/
def overtake (ln : Nat) (m : BitVec 128) (s : State) : State :=
  if s.copies.all (fun c => c.half.isEmpty) then s
  else { s with copies := s.copies.map (fun c =>
    let hit := c.half.filter (fun b => b / 128 == ln && bit m (b % 128))
    { c with lost := c.lost ++ hit, half := c.half.filter (fun b => !hit.contains b) }) }
/-- Write bytes of a line at its home: errors of whole words overwritten are cleared, and watches wake (R140, R361). A copy of an alias line that is written back when its
window is disabled is decoded under the window's registers as they stand (R143, R252) (conventions: DEDUCED, assumption 18; DESIGN CHOICE, assumption 127). -/
def homeWrite (ln : Nat) (d : BitVec 1024) (m : BitVec 128) (s : State) : State :=
  if m = 0 then s
  else
  let s := overtake ln m s
  match target (ln * 128) with
  | .viewOf _ _ _ =>
    let (_, s) := homeRead ln s
    match mfind s.aliasLines ln with
    | some l => { s with aliasLines := mput s.aliasLines ln { l with
        data := mergeBytes l.data d m, dirty := l.dirty ||| m
        poison := l.poison &&& ~~~wordMask (wordsWhole m) } }
    | none => s
  | _ =>
    let s := { s with
      mem := memPutMask s.mem (ln * 128) ((upto 128).map (fun i => (bit m i, bits d (8 * i) 8)))
      memErr := s.memErr.filter (fun e => !(e.1 / 16 == ln && (wordsWhole m).contains (e.1 % 16))) }
    wakeLine ln (wakePch (ln * 128) s)

/-- Write the poison of the words written back with them (R140). -/
def homePoison (ln : Nat) (p : BitVec 16) (m : BitVec 128) (s : State) : State :=
  let ws := (wordsTouched m).filter (fun w => bit p w)
  if ws.isEmpty then s
  else match target (ln * 128) with
  | .viewOf _ _ _ => { s with aliasLines := s.aliasLines.map (fun e => if e.1 == ln then (e.1, { e.2 with poison := e.2.poison ||| keepPoison m p }) else e) }
  | _ => { s with memErr := s.memErr.filter (fun e => !(e.1 / 16 == ln && ws.contains (e.1 % 16))) ++ ws.map (fun w => (ln * 16 + w, true)) }

-- Caches (R135, R139) ----------------------------------------------------------------------------------------

/-- A cached line completed with what lies below. -/
def fillLine (l : Line) (d : BitVec 1024) (p : BitVec 16) : Line :=
  { l with data := mergeBytes d l.data l.valid, valid := fullMask, poison := keepPoison l.valid l.poison ||| (p &&& ~~~wordMask (wordsWhole l.valid)) }
/-- The aligned 16-byte parts of a line that a byte mask covers whole. -/
def partsWhole (m : BitVec 128) : List Nat := (upto 8).filter (fun i => nbits m (16 * i) 16 == 65535)
/-- The bytes a line may keep: dirty ones, and those of aligned 16-byte parts that are there whole. -/
def keptBytes (l : Line) : BitVec 128 := l.valid &&& (l.dirty ||| (partsWhole l.valid).foldl (fun (m : BitVec 128) w => m ||| rangeMask (16 * w) 16) 0)
/-- A line gives up clean bytes of parts that are not whole, so that no later aligned load of up to 16 bytes joins bytes of two moments of its home (R153). -/
def wholeWords (l : Line) : Line := { l with valid := keptBytes l, poison := keepPoison (keptBytes l) l.poison }
/-- A line whose dirty bytes have been written back. -/
def cleaned (l : Line) : Line := wholeWords { l with dirty := 0 }
/-- A cache with a line, which goes when it holds no byte. -/
def putKept (ln : Nat) (l : Line) (c : SMap Line) : SMap Line := if l.valid = 0 then mdel c ln else mput c ln l
/-- A cached line with bytes written. -/
def putLine (l : Line) (d : BitVec 1024) (m : BitVec 128) : Line :=
  { l with data := mergeBytes l.data d m, valid := l.valid ||| m, dirty := l.dirty ||| m, kept := false
           poison := l.poison &&& ~~~wordMask (wordsWhole m) }
abbrev emptyLine : Line := { data := 0, valid := 0, dirty := 0 }

/-- The field-scope point of a line is the field's RDC (R150). -/
def viaRdc (f ln : Nat) : Bool := match homeOf (ln * 128) with | some h => h != f | none => false
/-- A transfer between fields passes data flits over the torus ports of the fields on its way. The spec gives neither their number nor the way: each field that counts them
adds a free number (R287) (conventions: DESIGN CHOICE, assumption 41). -/
def flits (s : State) : State :=
  (s.fields.filter (fun e => e.2.perf.any (fun p => nbits p.2.sel 0 6 == 0x13))).foldl (fun s e =>
    let (x, s) := freeW s
    perfAdd e.1 0x13 none none x.toNat s) s
/-- Of `n` requests at the home LLC of an address some miss: those whose line it may not hold (R287) (conventions: DESIGN CHOICE, assumption 41). -/
def llcMiss (w : Option Bool) (n pa : Nat) (s : State) : State :=
  match homeOf pa with
  | none => s
  | some h =>
    if (getFld s h).perf.all (fun e => nbits e.2.sel 0 6 != 0x0C) then s
    else
      let (x, s) := freeW s
      perfAdd h 0x0C none w (x.toNat % (n + 1)) s
/-- `n` requests from a field to another's home are counted at both (R287) (conventions: DESIGN CHOICE, assumption 41). -/
def crossReq (w : Option Bool) (n f h : Nat) (s : State) : State := if h == f then s else flits (perfAdd h 0x0F none w n (perfAdd f 0x0E none w n s))
/-- A request from a field to a home is counted at both when the home is another field's, and where it misses in the home LLC (R287). -/
def homeReq (w : Option Bool) (f ln : Nat) (s : State) : State :=
  match homeOf (ln * 128) with
  | none => s
  | some h => llcMiss w 1 (ln * 128) (crossReq w 1 f h s)
/-- The request of a walker: of a field, or of the Terminus or the host port, which lie in none. -/
def walkReq (w : Bool) (fld : Option Nat) (ln : Nat) (s : State) : State :=
  match fld with
  | some f => homeReq (some w) f ln s
  | none => llcMiss (some w) 1 (ln * 128) s
/-- Write back the dirty bytes of one RDC line. The write-back makes no request of a world (R287). -/
def cleanRdc (f ln : Nat) (s : State) : State :=
  match mfind (getFld s f).rdc ln with
  | none => s
  | some l =>
    if l.dirty = 0 then s
    else homePoison ln l.poison l.dirty (homeWrite ln l.data l.dirty (modFld f (fun k => { k with rdc := putKept ln (cleaned l) k.rdc }) (homeReq none f ln s)))
/-- Room for a line in its RDC set of 16 ways (R131): a victim is written back and leaves (conventions: DESIGN CHOICE, assumption 98). -/
def rdcRoom (f ln : Nat) (s : State) : State :=
  let set := ((getFld s f).rdc).filter (fun e => rdcSet (e.1 * 128) == rdcSet (ln * 128))
  if set.length < 16 || (mfind set ln).isSome then s
  else
    let (x, s) := freeW s
    let v := (mkeys set).getD (x.toNat % set.length) 0
    modFld f (fun k => { k with rdc := mdel k.rdc v }) (cleanRdc f v s)
/-- Read some bytes of a line at the field-scope point (R150) for a requester of a world (conventions: DEDUCED, assumption 17). -/
def fldRead (w : Bool) (f ln : Nat) (need : BitVec 128) (s : State) : (BitVec 1024 × BitVec 16) × State :=
  if viaRdc f ln then
    let l := mget emptyLine (getFld s f).rdc ln
    if need &&& ~~~l.valid = 0 then ((l.data, l.poison), s)
    else
      let ((d, p), s) := homeRead ln (homeReq (some w) f ln (rdcRoom f ln s))
      let l := fillLine l d p
      ((l.data, l.poison), perfAdd f 0x0D none (some w) 1 (modFld f (fun k => { k with rdc := mput k.rdc ln l }) s))
  else homeRead ln (homeReq (some w) f ln s)
/-- Write bytes of a line at the field-scope point, for a requester of a world or for none. -/
def fldWrite (w : Option Bool) (f ln : Nat) (d : BitVec 1024) (m : BitVec 128) (s : State) : State :=
  if viaRdc f ln then modFld f (fun k => { k with rdc := mput k.rdc ln (putLine (mget emptyLine k.rdc ln) d m) }) (rdcRoom f ln (overtake ln m s))
  else homeWrite ln d m (homeReq w f ln s)
/-- Write back the dirty bytes of one L1 line (R161). -/
def cleanL1 (g ln : Nat) (s : State) : State :=
  match mfind (getCore s g).l1 ln with
  | none => s
  | some l =>
    if l.dirty = 0 then s
    else
      let f := fieldOf g
      let s := fldWrite none f ln l.data l.dirty (modCore g (fun c => { c with l1 := putKept ln (cleaned l) c.l1 }) s)
      if viaRdc f ln then
        modFld f (fun k => { k with rdc := k.rdc.map (fun e => if e.1 == ln then (e.1, { e.2 with poison := e.2.poison ||| keepPoison l.dirty l.poison }) else e) }) s
      else homePoison ln l.poison l.dirty s
/-- Room for a line in an L1 of 768 KiB (R1): a victim is written back and leaves (conventions: DESIGN CHOICE, assumption 98). -/
def l1Room (g ln : Nat) (s : State) : State :=
  let l := (getCore s g).l1
  if l.length < 6144 || (mfind l ln).isSome then s
  else
    let (x, s) := freeW s
    let v := (mkeys l).getD (x.toNat % l.length) 0
    modCore g (fun c => { c with l1 := mdel c.l1 v }) (cleanL1 g v s)
/-- Read some bytes of a line through the core's L1; `ro`: a fill is marked (R413) (conventions: DEDUCED, assumption 17). -/
def l1Read (w : Bool) (g ln : Nat) (need : BitVec 128) (ro : Bool) (s : State) : (BitVec 1024 × BitVec 16) × State :=
  let l := mget emptyLine (getCore s g).l1 ln
  if need &&& ~~~l.valid = 0 then ((l.data, l.poison), s)
  else
    let ((d, p), s) := fldRead w (fieldOf g) ln fullMask (l1Room g ln s)
    let l := { fillLine l d p with kept := l.kept || ro }
    ((l.data, l.poison), perfAdd (fieldOf g) 0x0B (some (g % 256)) (some w) 1 (modCore g (fun c => { c with l1 := mput c.l1 ln l }) s))
/-- Conventions: DEDUCED, assumptions 17, 87. -/
def l1Write (g ln : Nat) (d : BitVec 1024) (m : BitVec 128) (s : State) : State :=
  modCore g (fun c => { c with l1 := mput c.l1 ln (putLine (mget emptyLine c.l1 ln) d m) }) (l1Room g ln (overtake ln m s))
def flushL1 (g : Nat) (s : State) : State := (mkeys (getCore s g).l1).foldl (fun s ln => cleanL1 g ln s) s
def flushRdc (f : Nat) (s : State) : State := (mkeys (getFld s f).rdc).foldl (fun s ln => cleanRdc f ln s) s
/-- A cache loses its clean bytes; marked lines stay when `keep` (R160, R413). -/
def dropClean (keep : Bool) (m : SMap Line) : SMap Line :=
  (m.filter (fun e => e.2.dirty != 0 || (keep && e.2.kept))).map (fun e => if keep && e.2.kept then e else (e.1, { e.2 with valid := e.2.dirty, poison := keepPoison e.2.dirty e.2.poison }))
def invalL1 (keep : Bool) (g : Nat) (s : State) : State := modCore g (fun c => { c with l1 := dropClean keep c.l1 }) s
def invalRdc (f : Nat) (s : State) : State := modFld f (fun k => { k with rdc := dropClean false k.rdc }) s
/-- Drop given bytes of a line from a cache, dirty or clean, with the mark of R413 (R163, R169). -/
def dropBytes (m : BitVec 128) (ln : Nat) (c : SMap Line) : SMap Line :=
  match mfind c ln with
  | none => c
  | some l => putKept ln (wholeWords { l with valid := l.valid &&& ~~~m, dirty := l.dirty &&& ~~~m, kept := false }) c
/-- A line loses the clean ones of some bytes: those above the point where an access read them, so that no later load of the core reads older ones (R155, R160). -/
def dropRead (m : BitVec 128) (ln : Nat) (c : SMap Line) : SMap Line :=
  match mfind c ln with
  | none => c
  | some l => if l.valid &&& m &&& ~~~l.dirty = 0 then c else putKept ln (wholeWords { l with valid := l.valid &&& ~~~(m &&& ~~~l.dirty) }) c

/-- The write-back of a release (R161). -/
def release (g scope : Nat) (s : State) : State :=
  if scope == 0 then s
  else
    let s := flushL1 g s
    if scope == 1 then s else flushRdc (fieldOf g) s
/-- The invalidation of an acquire (R160); `keep`: marked lines stay (R413). -/
def acquire (g scope : Nat) (keep : Bool) (s : State) : State :=
  if scope == 0 then s
  else
    let s := invalL1 keep g s
    if scope == 1 then s else invalRdc (fieldOf g) s
/-- Promotion at a home (R166). -/
def promote (g : Nat) (h : Option Nat) (s : State) : State :=
  match h with
  | none => s
  | some h =>
    if h == fieldOf g || h == fallow s then s
    else flushRdc h ((mkeys s.cores).foldl (fun s c => if fieldOf c == h then flushL1 c s else s) s)

/-- Bytes of a line range. -/
def lineBytes (d : BitVec 1024) (lo n : Nat) : List Byte := toBytes n (d >>> (8 * lo))
/-- A line with bytes placed from `lo`. -/
def lineWith (bs : List Byte) (lo : Nat) : BitVec 1024 := ofBytes 1024 bs <<< (8 * lo)
/-- Poison of the words that a byte range touches. -/
def poisonOf (p : BitVec 16) (lo n : Nat) : Bool := (wordsTouched (rangeMask lo n)).any (fun w => bit p w)

-- Translation (R221-R227) --------------------------------------------------------------------------------------

/-- The agents that hold translations (R227). -/
inductive Agent where
  | core (g : Nat)
  | ttu (f : Nat)
  | term
  deriving DecidableEq, Repr

def tlbOf (s : State) : Agent → List TlbEntry
  | .core g => (getCore s g).tlb
  | .ttu f => (getFld s f).walkTlb
  | .term => s.termTlb
/-- The field whose walk cache an agent uses; the Terminus uses none (R227). -/
def fldOf : Agent → Option Nat
  | .core g => some (fieldOf g)
  | .ttu f => some f
  | .term => none
def tlbCap : Agent → Nat
  | .core _ => 1024
  | .ttu _ => 16384
  | .term => 512
def setTlb (a : Agent) (l : List TlbEntry) (s : State) : State :=
  match a with
  | .core g => modCore g (fun c => { c with tlb := l }) s
  | .ttu f => modFld f (fun k => { k with walkTlb := l }) s
  | .term => { s with termTlb := l }

/-- Canonical form (R126). -/
def canonical (va : DWord) : Bool := (va.setWidth 57).signExtend 64 == va

/-- Kinds of fault (R226, R229). -/
abbrev kPage : Nat := 0
abbrev kProt : Nat := 1
abbrev kCanon : Nat := 2
abbrev kBadPa : Nat := 3
abbrev kBadPte : Nat := 4
abbrev kPoison : Nat := 5
abbrev kWorld : Nat := 6
abbrev kSpill : Nat := 7
/-- PROT, for a replayed atomic that meets an alias address (R408): a record's three bits of KIND hold 1. -/
abbrev kAlias : Nat := 9

/-- Where a walk ends: a fault, or a leaf with its level, its entry's address and the entry. -/
inductive Walk where
  | fault (kind level : Nat)
  | leaf (level : Nat) (at_ : Nat) (pte : DWord)
  deriving DecidableEq, Repr

/-- A table a walk may read (R221, R222). -/
def tableOk (s : State) (sec : Bool) (pa : Nat) : Bool := pa < 2 ^ 51 && backed s pa && (sec || !paSecure s pa)
/-- A page-table entry; one with a poisoned word is read as its bytes are (conventions: DESIGN CHOICE, assumption 100). -/
def readPte (w : Bool) (fld : Option Nat) (pa : Nat) (s : State) : DWord × State :=
  let ((d, _), s) := homeRead (pa / 128) (walkReq w fld (pa / 128) s)
  (bits d (8 * (pa % 128)) 64, s)

/-- The field's cached non-leaf entry on a walk's path (R227). -/
def walkCached (s : State) (fld : Option Nat) (root level : Nat) (va : DWord) : Option Nat :=
  match fld with
  | none => none
  | some f => ((getFld s f).walkCache.find? (fun e => e.root == root && e.level == level && e.prefix_ == nbits va 0 57 / 2 ^ (3 + 9 * level))).map (·.table)
/-- Keep a non-leaf entry (R227). -/
def walkKeep (fld : Option Nat) (root level : Nat) (va : DWord) (table : Nat) (s : State) : State :=
  match fld with
  | none => s
  | some f => modFld f (fun k => { k with walkCache := { root := root, level := level, prefix_ := nbits va 0 57 / 2 ^ (3 + 9 * level), table := table } :: k.walkCache.take 255 }) s

/-- The walk from a level down (R221, R222), through the walk cache of field `fld` (conventions: DEDUCED, assumption 23). -/
def walkFrom (fld : Option Nat) (root : Nat) (sec : Bool) (va : DWord) : Nat → Nat → State → Walk × State
  | 0, _, s => (.fault kBadPte 1, s)
  | lvl + 1, table, s =>
    let level := lvl + 1
    let at_ := table + 8 * nbits va (12 + 9 * lvl) 9
    match walkCached s fld root level va with
    | some next => if tableOk s sec next then walkFrom fld root sec va lvl next s else (.fault kBadPte level, s)
    | none =>
    let (e, s) := readPte sec fld at_ s
    if !bit e 0 then (.fault kPage level, s)
    else if nbits e 7 5 != 0 || nbits e 62 2 != 0 then (.fault kBadPte level, s)
    else if bit e 3 then
      (if 4 ≤ level || (level == 3 && nbits e 12 18 != 0) || (level == 2 && nbits e 12 9 != 0) then (.fault kBadPte level, s)
       else (.leaf level at_ e, s))
    else if level == 1 then (.fault kBadPte level, s)
    else
      let next := nbits e 12 40 * 4096
      if tableOk s sec next then walkFrom fld root sec va lvl next (walkKeep fld root level va next s) else (.fault kBadPte level, s)
/-- A whole walk (R221, R226). -/
def walk (fld : Option Nat) (root : Nat) (sec : Bool) (va : DWord) (s : State) : Walk × State :=
  if !canonical va then (.fault kCanon 0, s)
  else if root % 4096 == 0 && tableOk s sec root then walkFrom fld root sec va 5 root s
  else (.fault kBadPte 5, s)

/-- What translation gives: an address, a fault record's content, a world violation (R226), or no execute permission. -/
inductive Xl where
  | ok (pa : Nat)
  | fault (kind level pa : Nat)
  | world
  | noexec
  deriving DecidableEq, Repr

/-- The translation to install for a leaf: its size and base, 64 KiB groups included (R224). -/
def leafEntry (root level at_ : Nat) (pte : DWord) (va : DWord) (sec d : Bool) (s : State) : TlbEntry × State :=
  let base := nbits pte 12 40 * 4096
  let v := nbits va 0 57
  let mk := fun (lg : Nat) (pa : Nat) (dd : Bool) =>
    ({ root := root, va := v / 2 ^ lg * 2 ^ lg, log2 := lg, pa := pa, w := bit pte 1, x := bit pte 2, d := dd, secure := sec
       secs := if lg ≤ 21 then [] else (upto 512).filter (fun i => paSecure s (pa + i * 2 ^ 21)) } : TlbEntry)
  if level == 1 && bit pte 4 then
    let g := at_ / 128 * 128
    let ((line, _), s) := homeRead (g / 128) s
    let es : List DWord := (upto 16).map (fun i => bits line (64 * i) 64)
    let b0 := nbits (es.getD 0 0) 12 40 * 4096
    let good := b0 % 65536 == 0 && ((upto 16).zip es).all (fun (i, e) => bit e 0 && bit e 4 && bit e 1 == bit pte 1 && bit e 2 == bit pte 2 &&
      bit e 6 == bit pte 6 && nbits e 12 40 * 4096 == b0 + i * 4096 && paSecure s (b0 + i * 4096) == sec)
    if good then (mk 16 b0 d, s) else (mk 12 base d, s)
  else (mk (12 + 9 * (level - 1)) base d, s)

/-- The world that a translation recorded for an address when it was filled (R145): a page of 1 GiB spans many granules. -/
def xlSecure (e : TlbEntry) (va : DWord) : Bool := if e.log2 ≤ 21 then e.secure else e.secs.contains (nbits va 0 57 % 2 ^ e.log2 / 2 ^ 21)
/-- The checks of a translation against an access: 0 read, 1 write, 2 fetch (R226, R145). No line of a granule that has become secure satisfies a non-secure access (conventions: DESIGN CHOICE, assumption 94). -/
def xlCheck (s : State) (e : TlbEntry) (sec : Bool) (acc level : Nat) (va : DWord) : Xl :=
  let pa := e.pa + nbits va 0 57 % 2 ^ e.log2
  if !backed s pa then .fault kBadPa level pa
  else if acc == 1 && !e.w then .fault kProt level 0
  else if (xlSecure e va || paSecure s pa) && !sec then .world
  else if acc == 2 && !e.x then .noexec
  else .ok pa

/-- Translation by a walk: it sets A, and D for a write, of the entry walked, and installs the leaf. Of a 64 KiB group the other entries keep their A (R223, R225, R227)
(conventions: DESIGN CHOICE, assumption 125). -/
def translateWalk (ag : Agent) (root : Nat) (sec : Bool) (va : DWord) (acc : Nat) (s : State) : Xl × State :=
  let v := nbits va 0 57
  match walk (fldOf ag) root sec va s with
  | (.fault k l, s) => (.fault k l 0, s)
  | (.leaf level at_ pte, s) =>
    let base := nbits pte 12 40 * 4096
    let pa0 := base + v % 2 ^ (12 + 9 * (level - 1))
    let gs := paSecure s pa0
    let probe : TlbEntry := { root := root, va := v, log2 := 12 + 9 * (level - 1), pa := base, w := bit pte 1, x := bit pte 2, d := bit pte 6, secure := gs
                              secs := if gs then [v % 2 ^ (12 + 9 * (level - 1)) / 2 ^ 21] else [] }
    match xlCheck s probe sec acc level va with
    | .ok pa =>
      let d := bit pte 6 || acc == 1
      let pte' := pte ||| 0x20 ||| (if acc == 1 then 0x40 else 0)
      let s := if pte' = pte then s
        else homeWrite (at_ / 128) ((pte'.setWidth 1024 : BitVec 1024) <<< (8 * (at_ % 128))) (rangeMask (at_ % 128) 8) (walkReq sec (fldOf ag) (at_ / 128) s)
      let (e, s) := leafEntry root level at_ pte' va gs d s
      let l := (tlbOf s ag).filter (fun x => !(x.root == root && x.va == e.va && x.log2 == e.log2))
      (.ok pa, setTlb ag (e :: l.take (tlbCap ag - 1)) s)
    | x => (x, s)
/-- The cached translation of an address. -/
def tlbHit (ag : Agent) (root : Nat) (va : DWord) (s : State) : Option TlbEntry :=
  if canonical va then (tlbOf s ag).find? (fun e => e.root == root && nbits va 0 57 / 2 ^ e.log2 == e.va / 2 ^ e.log2) else none
/-- Translate an address for an access by an agent (R221-R227): by its cached entry, or by a walk (conventions: DEDUCED, assumption 23). -/
def translate (ag : Agent) (root : Nat) (sec : Bool) (va : DWord) (acc : Nat) (s : State) : Xl × State :=
  match tlbHit ag root va s with
  | some e => if acc == 1 && e.w && !e.d then translateWalk ag root sec va acc s else (xlCheck s e sec acc ((e.log2 - 12) / 9 + 1) va, s)
  | none => translateWalk ag root sec va acc s

/-- A `tlbinv` form drops the entries of a list (R234): 0 va, 1 root, 2 all. -/
def tlbDrop (form va root : Nat) (l : List TlbEntry) : List TlbEntry :=
  l.filter (fun e => !(form == 2 || e.root / 4096 == root / 4096 && (form == 1 ||
    (let p := va % 2 ^ 57 / 4096 * 4096; e.va < p + 4096 && p < e.va + 2 ^ e.log2))))

/-- The walk-cache entries a `tlbinv` form drops (R234). -/
def walkDrop (form va root : Nat) (l : List WalkEntry) : List WalkEntry :=
  l.filter (fun e => !(form == 2 || e.root / 4096 == root / 4096 && (form == 1 || e.prefix_ == va % 2 ^ 57 / 2 ^ (3 + 9 * e.level))))

/-- Which bytes a translated access covers, cut at line ends: (line, first byte, count). -/
def lineParts : Nat → Nat → Nat → List (Nat × Nat × Nat)
  | 0, _, _ => []
  | fuel + 1, pa, n => if n == 0 then [] else let lo := pa % 128; let k := min n (128 - lo); (pa / 128, lo, k) :: lineParts fuel (pa + k) (n - k)

end Sys2Proof.Machine
end

