-- ==== Sys2Proof/Machine/Operands.lean ====
section
/-! DEFINITION. Operands: inline constants and immediates (R320, R376), register images (R99, R101), the lane modifier (R326), and the reading
and writing of registers by an issuing instruction (R46-R51, R60). An instruction reads its operands from the registers as they stood when it issued. -/
namespace Sys2Proof.Machine

/-- Registers of a consist's members at one moment: rank, vector, scalar, predicates. -/
abbrev Snap := List (Nat × SMap Word × SMap Word × BitVec 8)

/-- An instruction's execution: where it issues, its threads as (slot, rank), and the registers it reads. `entry`: the operand-log entry it
is replayed from (R60); `fill`: the entry that threads of it with a fault on a register fill have taken (R59). `all`: its active threads, those included. -/
structure Ctx where
  g      : Nat
  cn     : Nat
  uid    : Nat
  blk    : Nat
  slots  : List (Option Nat)
  canon  : Bool
  base   : Nat
  clause : Nat
  setA   : Bool
  setB   : Bool
  last   : Bool
  afterYoke : Bool
  pc     : DWord
  rep    : Option Rep
  exec   : List (Nat × Nat)
  active : List (Nat × Nat)
  regs   : Snap
  entry  : Option Nat := none
  fill   : Option Nat := none
  all    : List (Nat × Nat) := []
  paired : Bool := false
  deriving DecidableEq, Repr

/-- Members of a slot map, in slot order: (slot, rank). -/
def membersOf (slots : List (Option Nat)) : List (Nat × Nat) :=
  ((upto 32).zip slots).filterMap (fun (i, o) => o.map (fun r => (i, r)))
/-- The member thread in a slot (R75). -/
def slotRank (c : Ctx) (slot : Nat) : Option Nat := (c.slots[slot]?).join

/-- p7 reads 1 (R50). -/
def predBit (p : BitVec 8) (k : Nat) : Bool := k == 7 || bit p k
/-- One 32-bit register of a snapshot by specifier number; predicates as 0 or 1. -/
def snapReg (e : SMap Word × SMap Word × BitVec 8) (num : Nat) : Word :=
  if num < 0x100 then mget 0 e.1 num
  else if num < 0x140 then mget 0 e.2.1 (num - 0x100)
  else if num < 0x148 then (if predBit e.2.2 (num - 0x140) then 1 else 0)
  else 0
def regOf (c : Ctx) (rank num : Nat) : Word := snapReg (mget ([], [], 0) c.regs rank) num
/-- `n` registers from a specifier up, the lowest in the low bits (R46). -/
def regsOf (c : Ctx) (rank : Nat) (spec : BitVec 9) (n : Nat) : Nat :=
  (upto n).foldl (fun v i => v + (regOf c rank (spec.toNat + i)).toNat * 2 ^ (32 * i)) 0

/-- A float value packed for an operand of a type: both elements of an x2 type, and four of an 8-bit packed operand (R320) (conventions: DEDUCED, assumption 14). -/
def repl (ty : Nat) (packed : Bool) (x : Nat) : Nat :=
  if ty == 18 || ty == 19 then x + x * 65536
  else if packed && tyW ty == 8 then x * 0x01010101
  else x
/-- The narrowing rule of a target (R106) (conventions: DEDUCED, assumption 26). -/
def narrowRule (ty : Nat) : Rnd := if tyW ty < 16 then .away else .even
/-- The value of an inline constant in a type (R320) (conventions: DEDUCED, assumption 14). -/
def constVal (ty : Nat) (packed : Bool) (s : BitVec 9) : Nat :=
  let w := tyW ty
  let k := s.toNat
  if isFloat ty then
    let f := fmtOf ty
    let x :=
      if k ≤ 0x190 then narrowF f (narrowRule ty) true (fvInt (k - 0x180))
      else if k ≤ 0x198 then narrowF f (narrowRule ty) true (fvInt (-((k : Int) - 0x190)))
      else if k == 0x199 then narrowF f (narrowRule ty) true (.fin false 1 (-1))
      else if k == 0x19A then narrowF f (narrowRule ty) true (.fin true 1 (-1))
      else if k == 0x19B then narrowF f (narrowRule ty) true (.fin false 1 (-2))
      else if k == 0x19C then narrowF f (narrowRule ty) true (.fin true 1 (-2))
      else if k == 0x19D then (if f.inf then infMag f else maxFin f)
      else if k == 0x19E then fpack f true (if f.inf then infMag f else maxFin f)
      else nanBits f false 0x400000
    repl ty packed x
  else
    let x :=
      if k ≤ 0x190 then k - 0x180
      else if k ≤ 0x198 then wrap w (-((k : Int) - 0x190))
      else if k == 0x19D then (if isN ty then 2 ^ w - 1 else 2 ^ (w - 1) - 1)
      else if k == 0x19E then (if isN ty then 0 else 2 ^ (w - 1))
      else 2 ^ w - 1
    repl ty packed (x % 2 ^ w)
/-- The value of IMM20 in a type (R376). -/
def immVal (ty : Nat) (imm : BitVec 20) : Nat :=
  let w := tyW ty
  if isFloat ty then
    (if ty == 12 then imm.toNat * 4096 else repl ty false (imm.toNat % 65536))
  else if isN ty then imm.toNat % 2 ^ w
  else wrap w imm.toInt

/-- Container width of an operand in registers, in bits. -/
def opW (ty : Nat) : Nat := if is64 ty then 64 else 32
/-- A source field without lane modifier: register, inline constant or IMM20. -/
def srcVal (c : Ctx) (rank ty : Nat) (s : BitVec 9) (imm : BitVec 20) (packed : Bool := false) : Nat :=
  if s = null then immVal ty imm
  else if isConst s then constVal ty packed s
  else regsOf c rank s (if is64 ty then 2 else 1)
/-- An r32 source: n32 whatever TY is; IMM20 zero-extended (R375, R376). -/
def src32 (c : Ctx) (rank : Nat) (s : BitVec 9) (imm : BitVec 20) : Nat :=
  if s = null then imm.toNat else srcVal c rank 10 s imm
/-- A 64-bit pair source of kind w, read as b64 (R320, R375). -/
def src64 (c : Ctx) (rank : Nat) (s : BitVec 9) : Nat := srcVal c rank 3 s 0
/-- A predicate source. -/
def srcP (c : Ctx) (rank : Nat) (s : BitVec 9) : Bool := regOf c rank s.toNat == 1

/-- The slot a lane modifier reads (R326). -/
def amSource (am : BitVec 12) (slot : Nat) : Nat :=
  let size := 2 ^ nbits am 7 3
  let dist := nbits am 2 5
  let seg := slot / size * size
  match nbits am 10 2 with
  | 0 => slot
  | 1 => seg + (slot % size + dist) % size
  | 2 => slot ^^^ dist
  | _ => seg + dist
/-- `abs` and `neg` on one element (R326) (conventions: DESIGN CHOICE, assumption 13). -/
def absNegElem (ty w : Nat) (ab ng : Bool) (x : Nat) : Nat :=
  if isFloat ty then
    let x := if ab then x % 2 ^ (w - 1) else x
    if ng then x ^^^ 2 ^ (w - 1) else x
  else
    let x := if ab && 2 ^ (w - 1) ≤ x && !isN ty then (2 ^ w - x) % 2 ^ w else x
    if ng then (2 ^ w - x) % 2 ^ w else x
/-- Elements an operand packs: 2 for x2 types, `packed` 8- or 16-bit elements fill the register (R326). -/
def elemsOf (ty : Nat) (packed : Bool) : Nat :=
  if ty == 18 || ty == 19 then 2 else if packed then 32 / tyW ty else 1
def absNeg (ty : Nat) (packed ab ng : Bool) (x : Nat) : Nat :=
  if !ab && !ng then x
  else if ty == 17 then (Config.q4xAbsNeg ab ng x).toNat
  else
    let w := tyW ty
    let n := elemsOf ty packed
    (upto n).foldl (fun v i => v + absNegElem ty w ab ng (x / 2 ^ (w * i) % 2 ^ w) * 2 ^ (w * i)) 0
/-- A source read through a lane modifier (R326): `z` is VZ. -/
def amVal (c : Ctx) (am : BitVec 12) (z : Bool) (slot rank : Nat) (read : Nat → Nat) : Nat :=
  match slotRank c (amSource am slot) with
  | some r => read r
  | none => if z then 0 else read rank
/-- Operand A of a format A instruction in a type (R326). -/
def srcA (c : Ctx) (f : FmtA) (ty : Nat) (packed : Bool) (slot rank : Nat) : Nat :=
  absNeg ty packed (bit f.am 0) (bit f.am 1)
    (amVal c f.am (bit f.mods 6) slot rank (fun r => srcVal c r ty f.a 0 packed))
/-- Operand A as a predicate. -/
def srcAP (c : Ctx) (f : FmtA) (slot rank : Nat) : Bool :=
  amVal c f.am (bit f.mods 6) slot rank (fun r => b2n (srcP c r f.a)) == 1
/-- The value of a type in its low bits (R99, R101). -/
def low (ty x : Nat) : Nat := x % 2 ^ tyW ty
/-- A result's register image (R99). -/
def image (ty x : Nat) : Nat :=
  let w := tyW ty
  if (ty == 4 || ty == 5) then wrap 32 (toSigned w x) else x % 2 ^ (max w (if ty == 18 || ty == 19 then 32 else w))

-- Writing registers ---------------------------------------------------------------------------------------

/-- Write one register of a thread by specifier number: p7 and null discard (R50, R319); a stored error is gone (R58). -/
def putReg (num : Nat) (v : Word) (t : Thread) : Thread :=
  if num < 0x100 then { t with vregs := mput t.vregs num v, regErr := t.regErr.filter (fun e => e.1 != num), spilled := t.spilled.filter (· != num) }
  else if num < 0x140 then { t with sregs := mput t.sregs (num - 0x100) v }
  else if num < 0x147 then { t with preds := setBits t.preds (num - 0x140) 1 (v.toNat % 2) }
  else t
/-- The mark of a register goes away (R60). -/
def dropMark (num : Nat) (t : Thread) : Thread := { t with marks := t.marks.filter (fun m => m.1 != num) }
/-- Write `n` registers from a specifier for one thread. A replay writes only where its entry holds the mark, and clears it (R60). -/
def writeReg (c : Ctx) (rank : Nat) (spec : BitVec 9) (n v : Nat) (s : State) : State :=
  if spec = null then s
  else modTh c.blk rank (fun t =>
    (upto n).foldl (fun t i =>
      let num := spec.toNat + i
      let w : Word := BitVec.ofNat 32 (v / 2 ^ (32 * i))
      match c.entry with
      | none => putReg num w (dropMark num t)
      | some e => if t.marks.contains (num, e) then putReg num w (dropMark num t) else t) t) s
/-- The lowest-slot active thread of the instruction (R49), whether or not its register fill has faulted. -/
def firstOf (c : Ctx) : Option (Nat × Nat) := match c.all with | l :: _ => some l | [] => c.active.head?
/-- Write a destination for every active thread; a scalar destination takes the lowest-slot active thread's value (R49). -/
def writeLanes (c : Ctx) (spec : BitVec 9) (n : Nat) (val : Nat × Nat → Nat) (s : State) : State :=
  match firstOf c with
  | none => s
  | some first =>
    let v0 := val first
    let targets := if isS spec && c.entry.isSome then membersOf c.slots else c.active
    targets.foldl (fun s l => writeReg c l.2 spec n (if isS spec then v0 else val l) s) s
/-- Write a predicate destination (R50). -/
def writeP (c : Ctx) (spec : BitVec 9) (val : Nat × Nat → Bool) (s : State) : State :=
  c.active.foldl (fun s l => writeReg c l.2 spec 1 (b2n (val l)) s) s
/-- Write a destination of a type (R99). -/
def writeTy (c : Ctx) (spec : BitVec 9) (ty : Nat) (val : Nat × Nat → Nat) (s : State) : State :=
  writeLanes c spec (if is64 ty then 2 else 1) (fun l => image ty (val l)) s

-- Addresses (R318) ---------------------------------------------------------------------------------------------

/-- Base of a format M address, through AM. -/
def baseVal (c : Ctx) (f : FmtM) (slot rank : Nat) : Nat :=
  if f.base = null then 0
  else amVal c f.am false slot rank (fun r => regsOf c r f.base (if isG f then 2 else 1))
/-- A format M address; `idx`: INDEX is an index, `off`: the offset. -/
def addrOf (c : Ctx) (f : FmtM) (idx : Bool) (off : Int) (slot rank : Nat) : Nat :=
  let i : Int := if idx && f.index != null then toSigned 32 (regOf c rank f.index.toNat).toNat else 0
  let i := if bit f.width 3 then i * widthOf f else i
  wrap (if isG f then 64 else 32) (baseVal c f slot rank + i + off)
/-- The usual address: INDEX and the 26-bit OFFSET. -/
def addrM (c : Ctx) (f : FmtM) (l : Nat × Nat) : Nat := addrOf c f true f.offset.toInt l.1 l.2
/-- The address of `atom` and `cas`, and of `atomn` (R415). -/
def addrAtom (c : Ctx) (f : FmtM) (idx : Bool) (l : Nat × Nat) : Nat := addrOf c f idx (f.offset.setWidth 20).toInt l.1 l.2
/-- The DATA operand of a store. -/
def dataVal (c : Ctx) (f : FmtM) (rank : Nat) : Nat :=
  if isConst f.data then constVal (bTy f) false f.data else regsOf c rank f.data (dataN f)

end Sys2Proof.Machine
end

