-- ==== Sys2Proof/Machine/Flags.lean ====
section
/-! DEFINITION. Flag computations: the completion flags of a thread (R70-R73) and the conditions of `cmp` and `fcmp` (R383, R390). -/
namespace Sys2Proof.Machine

/-- Does the instruction count for set-flag B (R72)? -/
def countsB (i : Instr) : Bool :=
  match i with
  | .ld _ | .ldx _ | .st _ | .atom _ | .atomn _ | .cas _ | .clean _ | .inval _ | .fence _ | .waitaddr _ | .wakeaddr _ | .trec _ | .trsync _ => true
  | _ => false

/-- An engine instruction whose hand-over counts for set-flag B until its engine accepts it (R72). -/
def handsOver (i : Instr) : Bool :=
  match i with
  | .tcopy _ | .tstore _ | .tcopymc _ | .fwload _ | .fwstore _ | .fwop _ | .fwred _ | .fwfill _ | .wpart _ | .coll _ => true
  | _ => false

/-- A cleared flag's condition holds again (R71, R72): the thread has left the clause, no result or access of the clause is outstanding, and no entry
of the clause still marks a register (A) or awaits its access (B) (conventions: DEDUCED, assumption 8). -/
def flagMet (k : Block) (rank : Nat) (t : Thread) (w : FlagWait) : Bool :=
  w.closed &&
  (!w.onA || (!t.outs.any (fun o => o.clause == w.clause && o.a) &&
    !t.marks.any (fun m => k.log.any (fun e => e.id == m.2 && e.clause == w.clause)))) &&
  (!w.onB || (!t.outs.any (fun o => o.clause == w.clause && o.b) &&
    !k.log.any (fun e => e.clause == w.clause && e.lanes.contains rank && (!e.pages.isEmpty || countsB e.instr || handsOver e.instr))))
/-- Every flag of a wait mask reads set for every member (R70, R73): it has not been cleared, or its condition holds again. -/
def flagsReady (k : Block) (members : List (Nat × Nat)) (mask : BitVec 12) : Bool :=
  members.all (fun l => let t := mget {} k.members l.2; t.flags.all (fun w => !bit mask w.flag || flagMet k l.2 t w))
/-- A clause begins: its set-flags are cleared for a member (R71-R73). 16 names none (conventions: DEDUCED, assumption 8). -/
def clearFlags (clause seta setb : Nat) (t : Thread) : Thread :=
  let drop := fun (l : List FlagWait) (n : Nat) => l.filter (fun w => w.flag != n)
  let fl := drop (drop t.flags seta) setb
  { t with flags := fl ++
      (if seta == 16 then (if setb == 16 then [] else [{ flag := setb, clause := clause, onA := false, onB := true }])
       else if setb == seta then [{ flag := seta, clause := clause, onA := true, onB := true }]
       else { flag := seta, clause := clause, onA := true, onB := false } ::
         (if setb == 16 then [] else [{ flag := setb, clause := clause, onA := false, onB := true }])) }
/-- The clause ends for a member. -/
def closeFlags (clause : Nat) (t : Thread) : Thread :=
  { t with flags := t.flags.map (fun w => if w.clause == clause then { w with closed := true } else w) }

/-- Conditions of `cmp` (R383) on two numbers. -/
def condHolds (cond : Nat) (a b : Int) : Bool :=
  match cond with
  | 0 => a == b
  | 1 => a != b
  | 2 => a < b
  | 3 => a ≤ b
  | 4 => b < a
  | _ => b ≤ a
/-- Conditions of `fcmp` (R390, R109). -/
def fcondHolds (cond : Nat) (a b : FV) : Bool :=
  let nan := a.isNan || b.isNan
  match cond with
  | 0 => fvEq a b
  | 1 => nan || !fvEq a b
  | 2 => fvLt false a b
  | 3 => !nan && !fvLt false b a
  | 4 => fvLt false b a
  | 5 => !nan && !fvLt false a b
  | 6 => !nan
  | _ => nan
/-- How a condition combines with C (R383). -/
def combine (how : Nat) (cond c : Bool) : Bool :=
  match how with
  | 0 => cond
  | 1 => cond && c
  | 2 => cond || c
  | _ => cond != c

end Sys2Proof.Machine
end

