-- ==== Sys2Proof/Machine/Issue.lean ====
section
/-! DEFINITION. The issue of an instruction (R25-R28, R47, R51, R56-R61, R165, R314-R324, R356-R358): its context, the causes found in the order of R324,
suspension, register fills, the operand log, shadow issue and rollback, and the step past the instruction. -/
namespace Sys2Proof.Machine

/-- What the effect of an instruction answers: the state after it; a stall, which holds the port (R27); a suspension (R27); or, at a replay, a new
fault (R61). -/
inductive Fin where
  | done (s : State)
  | stall
  | suspend
  | refault (kind level pa : Nat) (va : DWord) (access : Nat)
  deriving DecidableEq, Repr

-- Slots and PCs (R309, R311, R349) ----------------------------------------------------------------------

def slotNum (pc : DWord) : Nat := (pc >>> 6).toNat * 5 + nbits pc 0 6 / 12
/-- Address of slot `n`, modulo 2^64. -/
def slotAddr (n : Int) : DWord :=
  let m := n % 5
  BitVec.ofInt 64 (n / 5 * 64 + m * 12)
def nextSlot (pc : DWord) : DWord := slotAddr (slotNum pc + 1)
/-- A PC's bits [5:0] name a slot (R311). -/
def slotOk (pc : DWord) : Bool := [0, 12, 24, 36, 48].contains (nbits pc 0 6)

-- The clause header word (R316) ---------------------------------------------------------------------------

def hdrWait (w : IWord) : BitVec 12 := bits w 68 12
def hdrLen (w : IWord) : Nat := nbits w 63 5
def hdrSetA (w : IWord) : Nat := nbits w 58 5
def hdrSetB (w : IWord) : Nat := nbits w 53 5

-- Scratch spaces (R125, R132-R134, R137) --------------------------------------------------------------------

/-- Where a byte of a scratch space lies: nowhere, in a physical scratchpad (core key, offset), or in a grant of the secure world that the block may
not reach. -/
inductive Spot where
  | none
  | pad (g off : Nat)
  | world
  deriving DecidableEq, Repr

/-- The block that owns neighbourhood slot `k` (R134) (conventions: DEDUCED, assumption 64). -/
def nbOwner (s : State) (b k : Nat) : Option Block :=
  let me := getBlk s b
  match me.nbhd with
  | none => if k == 0 then some me else none
  | some (first, _, _, _) =>
    (s.blocks.find? (fun e => match e.2.nbhd with | some (f, _, _, o) => f == first && o == k && resident e.2 | none => false)).map (·.2)
/-- A byte of `.s`, `.w` or `.n` (space codes 1, 2, 3) (conventions: DEDUCED, assumption 64). -/
def spot (s : State) (b space x : Nat) : Spot :=
  let me := getBlk s b
  let grant := fun (o : Option Block) (y : Nat) => match o with
    | some k => if y < k.scratchSize then Spot.pad k.core (k.scratchStart + y) else .none
    | none => .none
  match space with
  | 1 => grant (some me) x
  | 3 => grant (nbOwner s b (x / 2 ^ 18)) (x % 2 ^ 18)
  | _ =>
    if x < 0x1000000 || 0x5000000 ≤ x then .none
    else
      let g := fieldOf me.core * 256 + (x - 0x1000000) / 2 ^ 18
      let y := x % 2 ^ 18
      match s.blocks.find? (fun e => resident e.2 && e.2.core == g && e.2.scratchStart ≤ y && y < e.2.scratchStart + e.2.scratchSize) with
      | some e =>
        if e.2.region == me.region then .pad g y
        else if secureOf s e.1 && !secureOf s b then .world
        else .none
      | none => .none
/-- Conventions: DEDUCED, assumption 87. -/
def spots (s : State) (b space x n : Nat) : List Spot := (upto n).map (fun i => spot s b space ((x + i) % 2 ^ 32))

-- Choosing a consist (R26) ----------------------------------------------------------------------------------

def consistOf (s : State) (g cn : Nat) : Option Consist := mfind (getCore s g).consists cn
/-- The consist whose clause the port runs or would run next (R26, R27): earliest eligible, ties to the lowest number. -/
def pick (s : State) (g : Nat) : Option Nat :=
  match (getCore s g).running with
  | some cn => some cn
  | none => (leastBy (fun e => e.2.eligible.getD 0) ((getCore s g).consists.filter (fun e => e.2.eligible.isSome))).map (·.1)

def snapOf (k : Block) (members : List (Nat × Nat)) : Snap :=
  members.map (fun l => let t := mget {} k.members l.2; (l.2, t.vregs, t.sregs, t.preds))

/-- The guard's value for a rank (R315). -/
def guardHolds (sn : Snap) (gd : Guard) (rank : Nat) : Bool :=
  predBit (mget ([], [], 0) sn rank).2.2 gd.pred.toNat != (gd.neg == 1)

/-- Register numbers a list of uses names. -/
def useNums (us : List RegUse) : List Nat := us.flatMap (fun u => (upto u.n).map (fun i => u.spec.toNat + i))
/-- The second of two words reads no register, and no guard, that the first writes (R313). -/
def pairFits (w1 w2 : IWord) : Bool :=
  let i := decodeWord w2
  let reads := useNums (shape i).reads ++ (match guardOf i with | some g => [0x140 + g.pred.toNat] | none => [])
  (useNums (shape (decodeWord w1)).writes).all (fun n => !reads.contains n)
/-- Instruction `n` of a clause issues in one cycle with the one before it, which issued alone or as the first of the pair (R313). -/
def pairAt (cl : Clause) : Nat → Bool
  | 0 => false
  | n + 1 => cl.pairs.contains (n + 1) && pairFits (cl.words.getD (n + 1) 0) (cl.words.getD (n + 2) 0) && !pairAt cl n
/-- The execution of an instruction word in the running clause of a core. -/
def ctxAt (s : State) (g cn : Nat) (i : Instr) : Option Ctx :=
  match consistOf s g cn with
  | none => none
  | some k =>
    match k.clause with
    | none => none
    | some cl =>
      let blk := getBlk s k.blk
      let ms := membersOf k.slots
      let ex := ms.filter (fun l => !cl.stopped.contains l.2 && (mget {} blk.members l.2).live)
      let sn := snapOf blk ms
      let gd := (guardOf i).getD { neg := 0, pred := 7, fx := 0 }
      some {
        g := g, cn := cn, uid := k.uid, blk := k.blk, slots := k.slots, canon := k.canon, base := k.base, clause := cl.id
        setA := hdrSetA (cl.words.headD 0) != 16, setB := hdrSetB (cl.words.headD 0) != 16
        last := cl.issued + 1 == cl.len
        afterYoke := match cl.words[cl.issued]? with | some w => cl.issued != 0 && (nbits w 86 10 == 0x10A || nbits w 86 10 == 0x10B) | none => false
        pc := slotAddr (slotNum cl.header + 1 + cl.issued), rep := cl.rep
        exec := ex, active := ex.filter (fun l => guardHolds sn gd l.2), regs := sn, all := ex.filter (fun l => guardHolds sn gd l.2)
        paired := cl.rep.isNone && !cl.suspended && pairAt cl cl.issued }

/-- The execution of `i` by the core in turn (R26, R27). -/
def context (i : Instr) (s : State) : Option Ctx :=
  match s.turn with
  | .core g => match pick s g with | some cn => ctxAt s g cn i | none => none
  | _ => none

def modClause (g cn : Nat) (f : Clause → Clause) (s : State) : State :=
  modConsist g cn (fun k => { k with clause := k.clause.map f }) s

-- Raising causes ---------------------------------------------------------------------------------------------

/-- REPCOUNT as a trap inside a `repeat` keeps it (R358). -/
def repOf (c : Ctx) : Option (BitVec 16 × BitVec 16) := c.rep.map (fun r => (BitVec.ofNat 16 r.done, BitVec.ofNat 16 r.total))
/-- Raise a precise cause on some of the instruction's threads (R28, R86): they stop in the clause, unless it is a replay that raises it (conventions: DEDUCED, assumption 33). -/
def raiseAt (c : Ctx) (pc : DWord) (ls : List (Nat × Nat)) (code detail : Nat) (va : Nat → DWord) (s : State) : State :=
  (if c.entry.isSome then id else modClause c.g c.cn (fun cl => { cl with stopped := cl.stopped ++ (ls.map (·.2)) }))
    (ls.foldl (fun s l => recordTrap c.blk l.2 code detail pc (va l.2) (repOf c) s) s)
def raise (c : Ctx) (ls : List (Nat × Nat)) (code : Nat) (s : State) : State := raiseAt c c.pc ls code 0 (fun _ => 0) s

-- The register file (R53-R58) ----------------------------------------------------------------------------------------

/-- Address of a quantum in the backing area (R53). -/
def quantumAddr (k : Block) (q rank : Nat) : DWord := k.backing + BitVec.ofNat 64 (q * k.threads * 32 + rank * 32)
/-- Fill one quantum from its backing bytes, read through the L1 (R55, R56, R146): the registers that lie there only. A poisoned word gives its bytes as they
are (conventions: DESIGN CHOICE, assumption 100). -/
def fillQuantum (g b r q pa : Nat) (s : State) : State :=
  let ((d, _), s) := l1Read (secureOf s b) g (pa / 128) (rangeMask (pa % 128) 32) false s
  let w : BitVec 256 := bits d (8 * (pa % 128)) 256
  perfCore g b 0x0A 1 (modTh b r (fun t =>
    let t' := (t.spilled.filter (fun n => n / 8 == q)).foldl (fun (t : Thread) n => { t with vregs := mput t.vregs n (bits w (32 * (n % 8)) 32) }) t
    { t' with spilled := t'.spilled.filter (fun n => n / 8 != q) }) s)
/-- Level at which the walk of an address ends (R229) (conventions: DEDUCED, assumption 40). -/
def leafLevel (s : State) (g b : Nat) (va : Nat) : Nat :=
  match (walk (some (fieldOf g)) (rootOf s b) (secureOf s b) (BitVec.ofNat 64 va) s).1 with
  | .leaf l _ _ => l
  | .fault _ l => l
/-- A thread with its spilled registers as their backing bytes have them, where those translate. -/
def peekSpilled (s : State) (b r : Nat) (t : Thread) : Thread :=
  t.spilled.foldl (fun (t : Thread) n =>
    let k := getBlk s b
    match (translate (.core k.core) (rootOf s b) (secureOf s b) (quantumAddr k (n / 8) r) 0 s).1 with
    | .ok pa =>
      let d := (l1Read (secureOf s b) k.core (pa / 128) (rangeMask (pa % 128) 32) false s).1.1
      { t with vregs := mput t.vregs n (bits d (8 * (pa % 128) + 32 * (n % 8)) 32), spilled := t.spilled.filter (· != n) }
    | _ => t) t
/-- More than one bit of a word is inverted (R58). -/
def twoBits (m : BitVec 4) : Bool := m &&& (m - 1) != 0
/-- Registers of a quantum that lie in the register file and are written back: not those with a double-bit error. -/
def quantumRegs (t : Thread) (q : Nat) : List Nat :=
  ((upto 8).map (fun i => q * 8 + i)).filter (fun n => !t.spilled.contains n && !t.regErr.any (fun e => e.1 == n && twoBits e.2))
/-- A quantum is about to be written back over bytes that the block's snapshot (R64), or a source that an operand-log entry fills again (R59, R60), still
needs: they keep the old values. -/
def keepOld (b r : Nat) (rs : List Nat) (pa : Nat) (s : State) : State :=
  let k := getBlk s b
  let old := fun (t : Thread) => rs.filter (fun n => t.spilled.contains n)
  let snapNeeds := match k.snapshot with | some sn => old (mget {} sn.members r) | none => []
  let needs := k.log.any (fun e => e.fills.any (fun x => x.1 == r && rs.contains x.2))
  if snapNeeds.isEmpty && !needs then s
  else
    let ((d, _), s) := l1Read (secureOf s b) k.core (pa / 128) (rangeMask (pa % 128) 32) false s
    let val := fun (n : Nat) => (bits d (8 * (pa % 128) + 32 * (n % 8)) 32 : Word)
    modBlk b (fun k => { k with
      snapshot := k.snapshot.map (fun sn => match mfind sn.members r with
        | some t => { sn with members := mput sn.members r { t with
            vregs := snapNeeds.foldl (fun m n => mput m n (val n)) t.vregs, spilled := t.spilled.filter (fun n => !snapNeeds.contains n) } }
        | none => sn)
      log := k.log.map (fun e =>
        let mine := e.fills.filter (fun x => x.1 == r && rs.contains x.2)
        if mine.isEmpty then e
        else
          let old := mget ([], [], 0) e.snap r
          { e with snap := mput e.snap r (mine.foldl (fun m x => mput m x.2 (val x.2)) old.1, old.2), fills := e.fills.filter (fun x => !mine.contains x) }) }) s
/-- Write a quantum back through the L1, or send a SPILL record and pin it; with the fault queue full the record waits, with the quantum pinned (R57, R217). -/
def spillNow (b r q : Nat) (refault : Bool) (s : State) : State :=
  let k := getBlk s b
  let g := k.core
  let va := quantumAddr k q r
  let faulted := fun (level : Nat) (s : State) =>
    if !faultRoom s (fieldOf g) then modTh b r (fun t => { t with pinned := t.pinned ++ [(q, none)] }) s
    else
      let (n, s) := sendFault (fieldOf g) { blkRec s b va (.spill b r q) with kind := 7, level := BitVec.ofNat 3 level, access := 5, source := 3, refault := refault } s
      modTh b r (fun t => { t with pinned := t.pinned ++ [(q, some n)] }) s
  match translate (.core g) (rootOf s b) (secureOf s b) va 1 s with
  | (.ok pa, s) =>
    let t := getTh s b r
    let rs := quantumRegs t q
    let s := keepOld b r rs pa s
    let d : BitVec 1024 := rs.foldl (fun (d : BitVec 1024) n => d ||| ((mget 0 t.vregs n).setWidth 1024 <<< (8 * (pa % 128) + 32 * (n % 8)))) 0
    let m : BitVec 128 := rs.foldl (fun (m : BitVec 128) n => m ||| rangeMask (pa % 128 + 4 * (n % 8)) 4) 0
    let fixed := (t.regErr.filter (fun e => !twoBits e.2 && rs.contains e.1)).length
    let s := if fixed == 0 then s else evAdd (fieldOf g) 0x20 fixed s
    let s := modTh b r (fun t => { t with
      vregs := t.vregs.filter (fun e => !rs.contains e.1), spilled := t.spilled ++ rs, regErr := t.regErr.filter (fun e => twoBits e.2 || !rs.contains e.1) }) s
    perfCore g b 0x09 1 (l1Write g (pa / 128) d m s)
  | (.fault _ l _, s) => faulted l s
  | (_, s) => faulted (leafLevel s g b va.toNat) s
/-- The held pseudo-channels that what turned one state into another has reached (R147, R148). -/
def heldReach (s t : State) : List (Nat × Nat) := t.touched.take (t.touched.length - s.touched.length)
/-- Spill a quantum; where a pseudo-channel holds its accesses it waits, pinned (R57, R147, R148) (conventions: DEDUCED, assumption 95). -/
def spillQuantum (b r q : Nat) (refault : Bool) (s : State) : State :=
  let t := spillNow b r q refault s
  if (heldReach s t).isEmpty then t else modTh b r (fun t => { t with pinned := t.pinned ++ [(q, none)] }) s
/-- Quanta of a thread that the register file holds: those with a register written or filled and not spilled since. A register that nothing has written reads +0 and needs no
place (R48, R55, R56) (conventions: DEDUCED, assumption 108). -/
def fileQuanta (t : Thread) : List Nat := ((mkeys t.vregs).map (· / 8)).eraseDups
/-- Block, rank and quantum of every place taken in a core's register file (R55). -/
def filePlaces (s : State) (g : Nat) : List (Nat × Nat × Nat) :=
  s.blocks.flatMap (fun e => if resident e.2 && e.2.core == g then e.2.members.flatMap (fun m => (fileQuanta m.2).map (fun q => (e.1, m.1, q))) else [])
/-- Quanta in a register file of 128 KiB (R1). -/
abbrev fileSize : Nat := 4096
def placePinned (s : State) (x : Nat × Nat × Nat) : Bool := (getTh s x.1 x.2.1).pinned.any (fun p => p.1 == x.2.2)
/-- Spill quanta of a core, by a free choice among those neither pinned nor in use, until some more fit (R55, R57) (conventions: DEDUCED, assumption 108). -/
def fileRoom (g : Nat) (keep : List (Nat × Nat × Nat)) (need : Nat) : Nat → State → State
  | 0, s => s
  | fuel + 1, s =>
    let ps := filePlaces s g
    if ps.length + need ≤ fileSize then s
    else
      let vs := ps.filter (fun x => !placePinned s x && !keep.contains x)
      match vs with
      | [] => s
      | v :: _ =>
        let (x, s) := freeW s
        let v := vs.getD (x.toNat % vs.length) v
        fileRoom g keep need fuel (spillQuantum v.1 v.2.1 v.2.2 false s)

-- Rollback (R64, R93) -----------------------------------------------------------------------------------------

/-- The block's consists and sidings leave its core, and ready threads take the sidings that free (R30). -/
def clearYard (b : Nat) (s : State) : State :=
  let g := (getBlk s b).core
  fileReady g (getCore s g).ready.length (modCore g (fun c => { c with
    running := match c.running with
      | some cn => (match mfind c.consists cn with | some k => if k.blk == b then none else some cn | none => none)
      | none => none
    consists := c.consists.filter (fun e => e.2.blk != b), sidings := c.sidings.filter (fun e => e.2.blk != b)
    ready := c.ready.filter (fun e => e.1 != b) }) s)
/-- Take the snapshot of a completed barrier (R64); the running clause is kept as suspended after this instruction. Registers that lie in the backing area alone are
held with the values they have there, where their page translates (conventions: DEDUCED, assumption 31). -/
def takeSnapshot (b : Nat) (s : State) : State :=
  let k := getBlk s b
  let c := getCore s k.core
  let sn : Snapshot := {
    members := k.members.map (fun m => (m.1, peekSpilled s b m.1 m.2))
    consists := (c.consists.filter (fun e => e.2.blk == b)).map (fun e =>
      { e.2 with clause := e.2.clause.map (fun cl => { cl with suspended := true }), eligible := none })
    sidings := (c.sidings.filter (fun e => e.2.blk == b)).map (·.2)
    ready := (c.ready.filter (fun e => e.1 == b)).map (·.2)
    barriers := k.barriers, mark := s.nextId }
  modBlk b (fun k => { k with snapshot := some sn, snapDue := false, rolled := false }) s
/-- Registers of snapshots whose page has come to translate are held with the values they have there, before anything is stored over them (R64) (conventions: DEDUCED,
assumption 31). -/
def keepFills (s : State) : State :=
  s.blocks.foldl (fun s kb => match kb.2.snapshot with
    | none => s
    | some sn => if sn.members.all (fun m => m.2.spilled.isEmpty) then s
      else modBlk kb.1 (fun k => { k with snapshot := some { sn with members := sn.members.map (fun m => (m.1, peekSpilled s kb.1 m.1 m.2)) } }) s) s
/-- A thread after a rollback: its registers and yard state as in the snapshot; no marks; its outstanding accesses, its pinned quanta and its trap registers with the
causes that wait for delivery as they are (R64, R98). -/
def rolledThread (now old : Thread) : Thread :=
  { old with
    marks := [], flags := now.flags.map (fun w => { w with closed := true }), outs := now.outs, pinned := now.pinned
    cause := now.cause, trappc := now.trappc, trapva := now.trapva, trappcWritten := now.trappcWritten, keptRep := now.keptRep, deferred := now.deferred }
/-- The barriers after a rollback: phases as in the snapshot, but the count of phases that the drill has consumed, which runs over the block's whole life (R64, R447). -/
def rolledBarriers (now old : SMap Barrier) : SMap Barrier :=
  (mkeys now).foldl (fun m n => mput m n { mget {} old n with consumed := (mget {} now n).consumed }) old
/-- A rollback: registers, yard state and barriers as at the last completed barrier, no marks or log entries, tiles +0.0; requests made since then go on, but their results
reach no register. The allotment, which only R63 changes, stays as it is (R64, R68, R98) (conventions: DEDUCED, assumptions 31, 121; DESIGN CHOICE, assumption 107). -/
def rollback (b : Nat) (s : State) : State :=
  let k := getBlk s b
  match k.snapshot with
  | none => s
  | some sn =>
    let s := clearYard b (evAdd (fieldOf k.core) 0x68 1 s)
    let mine := fun (blk out : Nat) (entry : Option Nat) => blk == b && entry.isNone && sn.mark ≤ out
    let s := { s with
      inflight := s.inflight.map (fun q => if mine q.blk q.out q.entry then { q with d := null } else q)
      ctxWaits := s.ctxWaits.map (fun q => if mine q.blk q.out q.entry then { q with d := null } else q) }
    modBlk b (fun k => { k with
      members := sn.members.map (fun e => (e.1, rolledThread (mget {} k.members e.1) e.2))
      log := [], acc := [], barriers := rolledBarriers k.barriers sn.barriers, rolled := true
      savedConsists := sn.consists, savedSidings := sn.sidings, savedReady := sn.ready, snapshot := some sn }) s
/-- A wait that is over although its event has gone by: what it waits for no longer stands (R64). -/
def waitGone (s : State) (b r : Nat) (w : Wait) : Bool :=
  let k := getBlk s b
  let c := getCore s k.core
  match w with
  | .address id => !(s.hostWatches.any (fun x => x.id == id) || s.fields.any (fun f => f.2.watches.any (fun x => x.id == id)))
  | .grow id => !k.grows.any (fun x => x.id == id)
  | .ysend => !c.ysendQ.any (fun x => x.blk == b && x.rank == r)
  | .yrecv => !c.yrecvQ.any (fun x => x.blk == b && x.rank == r)
  | .tag m any => let hit := (upto k.tags.length).filter (fun i => bit m i)
    if any then hit.any (fun i => (k.tags.getD i {}).set) else hit.all (fun i => (k.tags.getD i {}).set)
  | .matrix (.cmd u) _ => !k.drill.table.any (fun e => e.uid == u)
  | .matrix (.firstId _) _ => !k.drill.reading
  | .matrix .all _ => !k.drill.reading && !k.drill.table.any (fun e => match e.instr with | .dend _ => true | _ => false)
  | _ => false
/-- After a rollback the restored threads are filed, and waits whose event has gone by end. -/
def settleYard (b : Nat) (s : State) : State :=
  let k := getBlk s b
  let has := fun (r : Nat) (p : Wait → Bool) => (mget {} k.members r).waits.any p
  let s := modCore k.core (fun c => { c with
    ysendQ := c.ysendQ.filter (fun x => x.blk != b || has x.rank (· == .ysend))
    yrecvQ := c.yrecvQ.filter (fun x => x.blk != b || has x.rank (· == .yrecv)) }) s
  let s := modBlk b (fun k => { k with savedSidings := [], savedReady := [], grows := k.grows.filter (fun q => q.ranks.any (fun r => has r (· == .grow q.id))) }) s
  (mkeys k.members).foldl (fun s r =>
    match (getTh s b r).place with
    | .siding _ | .ready => fileThread k.core b r s
    | .waiting => endWait b r (fun w => waitGone s b r w) s
    | _ => s) s
/-- SHADOW_MISMATCH or REG_UNCORR in a rollback region: the first of a barrier interval rolls back (R93). Before the block's first completed barrier there is
no snapshot to go back to, and the cause is raised (conventions: DESIGN CHOICE, assumption 101). -/
def rollsBack (s : State) (b : Nat) : Bool :=
  let k := getBlk s b
  regRollback s k.region && !k.rolled && k.snapshot.isSome

-- Shadow issue (R92, R93) ---------------------------------------------------------------------------------------

/-- Mismatches of some threads (slot and rank) at an instruction (R93): the first of an interval rolls the block back, in a region that does so. -/
def shadowMismatch (b : Nat) (ls : List (Nat × Nat)) (pc : DWord) (rep : Option (BitVec 16 × BitVec 16)) (s : State) : State :=
  if ls.isEmpty then s
  else
    let s := evAdd (fieldOf (getBlk s b).core) 0x60 ls.length (ls.foldl (fun s l => modTh b l.2 (fun t => { t with shadowInj := false }) s) s)
    if rollsBack s b then settleYard b (rollback b s) else ls.foldl (fun s l => queueDeferred b l.2 cShadow l.1 pc s rep) s
/-- Compare some threads of an instruction with their clones in idle lanes (R92): an armed injection differs (R373), and so do the slots that
SHADOW_COMPARE named beforehand (conventions: DESIGN CHOICE, assumption 91). -/
def shadowCompareNow (c : Ctx) (ls : List (Nat × Nat)) (s : State) : State :=
  let s := perfCore c.g c.blk 0x15 1 (evAdd (fieldOf c.g) 0x50 1 s)
  let e := (getCore s c.g).laneErr
  shadowMismatch c.blk (ls.filter (fun l => (getTh s c.blk l.2).shadowInj || bit e l.1)) c.pc (repOf c) (if e = 0 then s else modCore c.g (fun k => { k with laneErr := 0 }) s)
/-- Shadow issue of an instruction that has issued (R92). -/
def shadowIssue (i : Instr) (c : Ctx) (s : State) : State :=
  let mode := regShadow s (getBlk s c.blk).region
  if mode == 0 || mode == 3 || !shadowed i then s
  else
    let n := c.active.length
    if n < 32 then shadowCompareNow c (c.active.take (32 - n)) s
    else if mode == 1 then s
    else if (getCore s c.g).shadowQ.length < 8 then
      let q : ShadowEnt := { blk := c.blk, pc := c.pc, slots := c.slots, rep := repOf c
                             forced := c.active.foldl (fun (f : BitVec 32) l => if (getTh s c.blk l.2).shadowInj then f ||| (1 <<< l.1) else f) 0 }
      let s := modCore c.g (fun k => { k with shadowQ := k.shadowQ ++ [q] }) s
      if q.forced = 0 then s else c.active.foldl (fun s l => modTh c.blk l.2 (fun t => { t with shadowInj := false }) s) s
    else evAdd (fieldOf c.g) 0x58 1 s

-- The operand log (R59-R61) ----------------------------------------------------------------------------------------

/-- The entries of a consist. -/
def logOf (s : State) (b uid : Nat) : List LogEntry := ((getBlk s b).log).filter (fun e => e.uid == uid)
/-- An entry is free, and the fault queue has a place (R59, R217). -/
def logRoom (s : State) (c : Ctx) : Bool := (logOf s c.blk c.uid).length < 8 && faultRoom s (fieldOf c.g)
/-- Take an entry for the faulted threads of an instruction (R59): its record names the lowest-slot one; marks go to `marked` for each register of
`dests`. -/
def takeEntry (c : Ctx) (i : Instr) (lanes marked : List Nat) (dests : List Nat) (kind level pa access : Nat) (va : DWord) (pages : List Nat)
    (acq : Bool) (s : State) : State :=
  let id := s.nextId
  let used := (logOf s c.blk c.uid).map (·.slot)
  let slot := ((upto 8).find? (fun k => !used.contains k)).getD 0
  let rc : FRec := { blkRec s c.blk va (.consist c.blk id) with
    kind := BitVec.ofNat 3 kind, level := BitVec.ofNat 3 level, pa := pa, access := BitVec.ofNat 4 access, unit := BitVec.ofNat 6 c.cn, entry := BitVec.ofNat 3 slot }
  let (seq, s) := sendFault (fieldOf c.g) rc s
  let e : LogEntry := {
    id := id, uid := c.uid, slot := slot, cn := c.cn, instr := i, pc := c.pc, clause := c.clause, slots := c.slots, canon := c.canon,
    base := c.base, snap := c.regs, lanes := lanes, all := c.all, rep := c.rep, dests := dests, seq := seq, access := access, pages := pages, acquire := acq }
  let s := modBlk c.blk (fun k => { k with log := k.log ++ [e] }) { s with nextId := s.nextId + 1 }
  let s := perfCore c.g c.blk 0x08 1 s
  marked.foldl (fun s r => modTh c.blk r (fun t => dests.foldl (fun t d =>
    { dropMark d t with marks := (dropMark d t).marks ++ [(d, id)] }) t) s) s
def modEntry (b id : Nat) (f : LogEntry → LogEntry) (s : State) : State := modBlk b (fun k => { k with log := modWhere (fun e => e.id == id) f k.log }) s
/-- Free an entry with its marks (R60). -/
def dropEntry (b id : Nat) (s : State) : State :=
  modBlk b (fun k => { k with
    log := k.log.filter (fun e => e.id != id)
    members := k.members.map (fun m => (m.1, { m.2 with marks := m.2.marks.filter (fun x => x.2 != id) })) }) s
/-- A request's result reaches a thread: its outstanding number goes, and the destination is written, after a replay only where the entry still holds the mark (R60, R71). -/
def lateWrite (d : BitVec 9) (v : Word) (out : Nat) (entry : Option Nat) (t : Thread) : Thread :=
  let t := { t with outs := t.outs.filter (fun o => o.id != out) }
  if d = null then t
  else match entry with
    | none => putReg d.toNat v (dropMark d.toNat t)
    | some e => if t.marks.contains (d.toNat, e) then putReg d.toNat v (dropMark d.toNat t) else t
/-- A request's result reaches its threads, and the entry it was replayed from is freed (R60). That of a request made before the block's last completed barrier is the
snapshot's too (R64) (conventions: DEDUCED, assumption 121). -/
def lateResult (b : Nat) (ranks : List Nat) (d : BitVec 9) (v : Word) (out : Nat) (entry : Option Nat) (s : State) : State :=
  let s := ranks.foldl (fun s r => modTh b r (lateWrite d v out entry) s) s
  match entry, (getBlk s b).snapshot with
  | some e, _ => dropEntry b e s
  | none, some sn => if out < sn.mark then modBlk b (fun k => { k with snapshot := some { sn with members := sn.members.map (fun m =>
      if ranks.contains m.1 then (m.1, lateWrite d v out none m.2) else m) } }) s else s
  | none, none => s
/-- Slot of a rank. -/
def slotOf (c : Ctx) (r : Nat) : Nat := (((membersOf c.slots).find? (fun l => l.2 == r)).map (·.1)).getD 32
/-- An instruction that has taken an entry for register fills meets faults on accesses of other threads: they join the entry, whose one record names the
lowest-slot faulted thread (R59). -/
def joinEntry (c : Ctx) (id : Nat) (lanes marked : List Nat) (dests : List Nat) (kind level pa access : Nat) (va : DWord) (pages : List Nat) (s : State) : State :=
  match (getBlk s c.blk).log.find? (fun e => e.id == id) with
  | none => s
  | some e =>
    let first := fun (l : List Nat) => (leastBy (slotOf c) l).map (slotOf c)
    let ahead := match first lanes, first e.lanes with | some a, some b => a < b | _, _ => false
    let s := if !ahead then s else modFld (fieldOf c.g) (fun k => { k with faults := modWhere (fun r => r.seq == e.seq && r.open_) (fun r =>
      { r with va := va, kind := BitVec.ofNat 3 kind, level := BitVec.ofNat 3 level, pa := pa, access := BitVec.ofNat 4 access }) k.faults }) s
    let s := modEntry c.blk id (fun e => { e with lanes := e.lanes ++ lanes, pages := pages, access := if ahead then access else e.access }) s
    marked.foldl (fun s r => modTh c.blk r (fun t => dests.foldl (fun t d => { dropMark d t with marks := (dropMark d t).marks ++ [(d, id)] }) t) s) s

-- Suspension (R27, R60, R165, R410, R57) ---------------------------------------------------------------------------

/-- The ranks whose copies of a used register an active thread's result depends on (R60, R326, R347, R377). -/
def srcRanks (c : Ctx) (u : RegUse) (l : Nat × Nat) : List Nat :=
  let own := fun (l : Nat × Nat) => match slotRank c (amSource u.am l.1) with | some r => [r] | none => if u.vz then [] else [l.2]
  if u.slots != 0 then ((membersOf c.slots).filter (fun l => l.1 < u.slots)).map (·.2)
  else match u.who with
    | 0 => own l
    | 1 => c.active.flatMap own
    | _ => (c.active.take 1).flatMap own
/-- The ranks whose copies of a used register the instruction reads. -/
def readRanks (c : Ctx) (u : RegUse) : List Nat :=
  if u.slots != 0 || u.who != 0 then srcRanks c u (0, 0) else c.active.flatMap (srcRanks c u)
/-- Coordinate registers of an engine instruction (R433). -/
def coordUse (k : Block) (sh : Shape) : List RegUse :=
  match sh.coord, sh.recs with
  | some sp, rs :: _ => (match k.recs[rs]? with
    | some r => if r.valid then [{ spec := sp, n := nbits r.bits 69 3 }] else []
    | none => [])
  | _, _ => []
def readsOf (s : State) (c : Ctx) (sh : Shape) : List RegUse := sh.reads ++ coordUse (getBlk s c.blk) sh
/-- What an instruction accesses for a thread: space, address and bytes (R165). -/
def accessOf (c : Ctx) (i : Instr) (l : Nat × Nat) : Option (Nat × Nat × Nat) :=
  match i with
  | .ld f | .ldx f | .st f | .waitaddr f | .wakeaddr f | .prefetch f | .clean f | .inval f => some (f.space.toNat, addrM c f l, widthOf f)
  | .ysend f | .yrecv f => some (f.space.toNat, addrM c f l, 128)
  | .atom f | .cas f => some (f.space.toNat, addrAtom c f false l, widthOf f)
  | .atomn f => some (f.space.toNat, addrAtom c f true l, widthOf f)
  | .trec f => some (0, regsOf c l.2 f.opnd 2, 128)
  | .launch f => some (0, regsOf c l.2 f.a 2, 64)
  | .fence f => if [5, 7].contains f.order.toNat then some (0, addrOf c f false f.offset.toInt l.1 l.2, 1) else none
  | .errinj f => if [2, 3].contains (nbits f.mods 0 3) then some (0, src64 c l.2 f.a, 8) else none
  | _ => none
/-- The 4 KiB pages an access touches: of global memory, or of the grant of a block that a scratch access names, wherever that block stands (R165, R168). -/
def pageKeys (s : State) (b space addr n : Nat) : List Nat :=
  match space with
  | 0 => [addr / 4096]
  | 4 => [2 ^ 61 + addr / 4096, 2 ^ 61 + (addr + n - 1) / 4096].eraseDups
  | sp => ((spots s b sp addr n).filterMap (fun p => match p with
    | .pad g off => (s.blocks.find? (fun e => resident e.2 && e.2.core == g && e.2.scratchStart ≤ off && off < e.2.scratchStart + e.2.scratchSize)).map (fun e =>
        2 ^ 62 + e.1 * 64 + (off - e.2.scratchStart) / 4096)
    | _ => none)).eraseDups
/-- A release of any scope, a `fence`, an arrival at a barrier, or an engine hand-over that R165 names. -/
def isReleasing (i : Instr) : Bool :=
  match i with
  | .st f => f.order == 2
  | .atom f | .atomn f | .cas f => [2, 3, 7].contains f.order.toNat
  | .fence _ | .tcopy _ | .tstore _ | .tcopymc _ | .mready _ | .drill _ | .fwload _ | .fwstore _ | .fwop _ | .fwred _ | .fwfill _ | .wpart _ | .coll _ => true
  | .launch _ | .depdec _ | .trsync _ | .bar _ | .bara _ => true
  | _ => false
/-- An access with acquire order (R151). -/
def isAcquiring (i : Instr) : Bool :=
  match i with
  | .ld f | .ldx f | .atom f | .atomn f | .cas f | .fence f => [1, 3, 5, 7].contains f.order.toNat
  | _ => false
/-- The quanta of registers that an instruction names: block, rank and quantum. -/
def usedQuanta (c : Ctx) (us : List RegUse) : List (Nat × Nat × Nat) :=
  (us.flatMap (fun u => if isV u.spec then (readRanks c u).flatMap (fun r => (upto u.n).map (fun j => (c.blk, r, (u.spec.toNat + j) / 8))) else [])).eraseDups
/-- The quanta an instruction must bring into the register file: those it reads that are spilled, and those it writes that are not there (R56). -/
def newQuanta (c : Ctx) (reads writes : List RegUse) (s : State) : List (Nat × Nat × Nat) :=
  let th := fun (x : Nat × Nat × Nat) => getTh s x.1 x.2.1
  (((usedQuanta c reads).filter (fun x => (th x).spilled.any (fun n => n / 8 == x.2.2))) ++ usedQuanta c writes).eraseDups.filter (fun x => !(fileQuanta (th x)).contains x.2.2)
/-- Every quantum the core could evict is pinned, or in use by the instruction itself, and what it needs does not fit (R57). -/
def fileFull (c : Ctx) (reads writes : List RegUse) (s : State) : Bool :=
  let new := newQuanta c reads writes s
  !new.isEmpty && (let ps := filePlaces s c.g
    fileSize < (ps.filter (fun x => placePinned s x || (usedQuanta c (reads ++ writes)).contains x)).length + new.length)
/-- The instruction's guard is a predicate with a pending mark of a thread still executing (R60, R315). -/
def guardPending (i : Instr) (c : Ctx) (s : State) : Bool :=
  match guardOf i with
  | some g => g.pred != 7 && c.exec.any (fun l => (getTh s c.blk l.2).marks.any (fun m => m.1 == 0x140 + g.pred.toNat))
  | none => false
/-- The instruction suspends its clause before it acts: it reads a register with a pending mark (R60), an access or hand-over of a thread of it waits for its replay and comes
before it (R165, R410, R428), or the register file has no room (R57). The accesses are the threads', whatever consist each was in when it made them (conventions: DEDUCED,
assumption 32). -/
def mustSuspend (i : Instr) (c : Ctx) (s : State) : Bool :=
  let sh := shape i
  let k := getBlk s c.blk
  let reads := readsOf s c sh
  guardPending i c s ||
  reads.any (fun u => (readRanks c u).any (fun r =>
    let t := mget {} k.members r
    t.marks.any (fun m => u.spec.toNat ≤ m.1 && m.1 < u.spec.toNat + u.n))) ||
  k.log.any (fun e => (e.waiting || e.retry) && (!e.pages.isEmpty || countsB e.instr || isReleasing e.instr) && c.active.any (fun l => e.lanes.contains l.2 &&
    (isReleasing i || (e.acquire && isEngine i) || ((e.acquire || e.pages.isEmpty || !e.fills.isEmpty) && sh.mem) ||
     (match accessOf c i l with | some (sp, a, n) => (pageKeys s c.blk sp a n).any (fun p => e.pages.contains p) | none => false)))) ||
  fileFull c reads sh.writes s
/-- `sets` writes TRAPPC (R90). -/
def isSets : Instr → Bool
  | .sets _ => true
  | _ => false
/-- An instruction that reads or writes TRAPPC (R67, R90). -/
def usesTrapPc : Instr → Bool
  | .tret _ | .sets _ => true
  | .gets f => f.imm == 0x31
  | _ => false
/-- An entry of an active thread waits that the instruction must follow in program order: a hand-over to an engine before any engine instruction (R428), a `sets` before
what uses TRAPPC (R67). -/
def orderHeld (i : Instr) (c : Ctx) (s : State) : Bool :=
  (getBlk s c.blk).log.any (fun e => (e.waiting || e.retry) && c.active.any (fun l => e.lanes.contains l.2) &&
    ((isEngine e.instr && isEngine i) || (isSets e.instr && usesTrapPc i)))
/-- A `trsync` of an active thread waits, and the instruction would access memory or command a unit (R235). -/
def syncHeld (i : Instr) (c : Ctx) (s : State) : Bool :=
  (getBlk s c.blk).syncs.any (fun y => c.active.any (fun l => y.ranks.contains l.2)) &&
  ((shape i).mem || isEngine i || privileged i || (match i with | .launch _ | .depdec _ => true | _ => false))
/-- An instruction that acts on the thread's next PC, its waits or its block. Where it takes an entry, the end of the clause waits for its replay (conventions: DEDUCED,
assumption 32). -/
def heldOnFill (i : Instr) : Bool :=
  match i with
  | .brx _ | .callx _ | .ret _ | .sleep _ | .grow _ | .growa _ | .shrink _ | .shrinka _ | .tagwait _ | .sets _ | .ysend _ | .yrecv _ => true
  | _ => false
/-- Suspend the clause of a consist (R27). -/
def suspendAt (g cn b : Nat) (s : State) (noRoom : Bool := false) : State :=
  perfCore g b 0x05 1
    (modCore g (fun k => { k with running := none })
      (modConsist g cn (fun k => { k with eligible := none, clause := k.clause.map (fun cl => { cl with suspended := true, noRoom := noRoom }) }) s))
/-- Suspend the running clause (R27). -/
def suspendClause (c : Ctx) (s : State) : State := suspendAt c.g c.cn c.blk s
/-- Suspend it for want of an operand-log entry, or of a place in the fault queue (R27, R217). -/
def suspendFull (c : Ctx) (s : State) : State := suspendAt c.g c.cn c.blk s true

-- Past the instruction (R71, R72, R74, R357) --------------------------------------------------------------------------

/-- The clause's count after an instruction, or, for an instruction issued in a `repeat`, the `repeat`'s after an iteration. -/
def stepClause (cl : Clause) (inRep execLeft : Bool) : Clause :=
  match inRep, cl.rep with
  | true, some r =>
    if r.done + 1 < r.total && execLeft then { cl with rep := some { r with done := r.done + 1 }, suspended := false, noRoom := false }
    else { cl with rep := none, issued := cl.issued + 1, suspended := false, noRoom := false }
  | _, _ => { cl with issued := cl.issued + 1, suspended := false, noRoom := false }
/-- The instruction has issued: the clause moves on, and the port holds the consist. The second of a pair issues in the cycle of the first (R313) (conventions: DESIGN
CHOICE, assumption 41). -/
def advance (c : Ctx) (s : State) : State :=
  let s := modConsist c.g c.cn (fun k => { k with clause := k.clause.map (fun cl =>
    stepClause cl c.rep.isSome (c.exec.any (fun l => !cl.stopped.contains l.2))) }) s
  let s := modCore c.g (fun k => { k with
    running := match mfind k.consists c.cn with
      | some x => if x.uid == c.uid then some c.cn else none
      | none => none }) s
  let s := perfCore c.g c.blk 0x01 (if c.paired then 0 else 1) (perfCore c.g c.blk 0x02 1 s)
  if (getBlk s c.blk).snapDue then takeSnapshot c.blk s else s
/-- The pseudo-channels that a thread's access reaches (R131, R148). -/
def accessPchs (s : State) (c : Ctx) (i : Instr) (l : Nat × Nat) : List (Nat × Nat) :=
  match accessOf c i l with
  | some (0, a, _) => (match (translate (.core c.g) (rootOf s c.blk) (secureOf s c.blk) (BitVec.ofNat 64 a) 0 s).1 with | .ok pa => pchsOf s pa | _ => [])
  | _ => []
/-- Some pseudo-channel of the package holds its accesses (R147, R148). -/
def anyHeld (s : State) : Bool := s.fields.any (fun f => f.2.retrain.isSome || f.2.pcpwrReq == 2)
/-- What an instruction leaves outstanding for a thread (R71, R72, R148). -/
def outOf (i : Instr) (c : Ctx) (a b : Bool) (ps : List (Nat × Nat)) (s : State) : Out :=
  let held := ps.any (pchHeld s)
  { id := s.nextId, clause := c.clause, a := a, b := b, pchs := ps, held := held, fence := b && isReleasing i, dests := if held then useNums (shape i).writes else [] }
/-- Note what is outstanding for a thread, where a flag or a later access looks at it. -/
def noteOut (b r : Nat) (o : Out) (s : State) : State :=
  if !o.a && !o.b && !o.held then s else modTh b r (fun t => { t with outs := t.outs ++ [o] }) { s with nextId := s.nextId + 1 }
/-- Note the results and accesses of an instruction for the clause's flags (R71, R72), and accesses that a pseudo-channel holds, for fences and later reads (R148). `hit`:
the held pseudo-channels it has reached; those that no thread's own access names, its write-backs reached, or the lines that left a cache for its own. -/
def noteOuts (i : Instr) (c : Ctx) (a b : Bool) (hit : List (Nat × Nat)) (s : State) : State :=
  let a := a && c.setA
  let b := b && c.setB
  let m := (shape i).mem && (a || b || anyHeld s)
  if !a && !b && !m && hit.isEmpty then s
  else
    let own := c.active.map (fun l => (l.2, if m then accessPchs s c i l else []))
    let rest := (hit.filter (fun p => own.all (fun x => !x.2.contains p))).eraseDups
    own.foldl (fun s x => noteOut c.blk x.1 (outOf i c a b (x.2 ++ rest) s) s) s
/-- Accesses of clauses without flags that no pseudo-channel holds any more have been served (R148). -/
def serveHeld (s : State) : State :=
  s.blocks.foldl (fun s kb => if kb.2.members.all (fun m => m.2.outs.all (fun o => o.a || o.b || o.pchs.any (pchHeld s))) then s
    else modBlk kb.1 (fun k => { k with members := k.members.map (fun m => (m.1, { m.2 with outs := m.2.outs.filter (fun o => o.a || o.b || o.pchs.any (pchHeld s)) })) }) s) s

-- Register causes (R47, R56, R58) --------------------------------------------------------------------------------------

/-- The instruction names a v register at or above the allotment (R47). -/
def rangeBad (allot : Nat) (us : List RegUse) : Bool := us.any (fun u => isV u.spec && allot < u.spec.toNat + u.n)
/-- Active threads that read a word with a double-bit error (R58). -/
def uncorrLanes (s : State) (c : Ctx) (reads : List RegUse) : List (Nat × Nat) :=
  let k := getBlk s c.blk
  let bad := fun (u : RegUse) (r : Nat) => (mget {} k.members r).regErr.any (fun e => twoBits e.2 && u.spec.toNat ≤ e.1 && e.1 < u.spec.toNat + u.n)
  if k.members.all (fun e => e.2.regErr.isEmpty) then []
  else c.active.filter (fun l => reads.any (fun u => (srcRanks c u l).any (bad u)))
/-- Single-bit errors of the words read are corrected and counted (R58). -/
def correctRegs (s : State) (c : Ctx) (reads : List RegUse) : State :=
  let k := getBlk s c.blk
  if k.members.all (fun e => e.2.regErr.isEmpty) then s
  else reads.foldl (fun s u => (readRanks c u).foldl (fun s r =>
    let t := getTh s c.blk r
    let hit := t.regErr.filter (fun e => !twoBits e.2 && u.spec.toNat ≤ e.1 && e.1 < u.spec.toNat + u.n)
    if hit.isEmpty then s
    else evAdd (fieldOf c.g) 0x20 hit.length (modTh c.blk r (fun t => { t with regErr := t.regErr.filter (fun e => !hit.contains e) }) s)) s) s

/-- The spilled registers, with their ranks, that an active thread's result depends on (R56). -/
def fillsOf (c : Ctx) (reads : List RegUse) (s : State) (l : Nat × Nat) : List (Nat × Nat) :=
  (reads.flatMap (fun u => (srcRanks c u l).flatMap (fun r =>
    ((getTh s c.blk r).spilled.filter (fun n => u.spec.toNat ≤ n && n < u.spec.toNat + u.n)).map (fun n => (r, n))))).eraseDups
/-- Fill a thread's spilled quanta in turn (R55, R56): the rank and quantum of each fill that faults, with the fault. -/
def fillRegs (g b : Nat) (qs : List (Nat × Nat)) (s : State) : List ((Nat × Nat) × Nat × Nat × Nat × DWord) × State :=
  qs.foldl (fun (acc : List ((Nat × Nat) × Nat × Nat × Nat × DWord) × State) x =>
    let va := quantumAddr (getBlk s b) x.2 x.1
    match translate (.core g) (rootOf acc.2 b) (secureOf acc.2 b) va 0 acc.2 with
    | (.ok pa, s) => (acc.1, fillQuantum g b x.1 x.2 pa s)
    | (.fault kd lv pa, s) => (acc.1 ++ [(x, kd, lv, pa, va)], s)
    | (_, s) => (acc.1 ++ [(x, kWorld, leafLevel s g b va.toNat, 0, va)], s)) ([], s)
/-- The quanta an instruction's active threads must fill. -/
def quantaOf (c : Ctx) (reads : List RegUse) (s : State) : List (Nat × Nat) :=
  if (getBlk s c.blk).members.all (fun e => e.2.spilled.isEmpty) then []
  else (c.active.flatMap (fun l => (fillsOf c reads s l).map (fun x => (x.1, x.2 / 8)))).eraseDups
/-- The threads whose results wait for a fill that faulted; with a scalar destination every thread waits for the lowest-slot one (R49, R59). -/
def fillLanes (c : Ctx) (sh : Shape) (reads : List RegUse) (s : State) : List (Nat × Nat) :=
  let hit := fun (l : Nat × Nat) => !(fillsOf c reads s l).isEmpty
  if sh.writes.any (fun u => isS u.spec) && (c.active.take 1).any hit then c.active else c.active.filter hit
/-- The threads of a list that an instruction's causes and faults are about: of `ldx`, the lowest-slot one alone (R412) (conventions: DEDUCED, assumption 83). -/
def causeLanes (i : Instr) (ls : List (Nat × Nat)) : List (Nat × Nat) :=
  match i with
  | .ldx _ => ls.take 1
  | _ => ls
/-- The entry and the record of the register fills that faulted (R59). -/
def fillFault (c : Ctx) (i : Instr) (sh : Shape) (reads : List RegUse) (fl : List (Nat × Nat))
    (faults : List ((Nat × Nat) × Nat × Nat × Nat × DWord)) (s : State) : State :=
  let want := (fl.flatMap (fillsOf c reads s)).eraseDups
  let x := want.findSome? (fun w => faults.find? (fun x => x.1 == (w.1, w.2 / 8)))
  match x with
  | none => s
  | some (_, kd, lv, pa, va) =>
    let s' := takeEntry { c with regs := snapOf (getBlk s c.blk) (membersOf c.slots) } i ((causeLanes i fl).map (·.2)) (fl.map (·.2)) (useNums sh.writes) kd lv pa 4 va [] (isAcquiring i) s
    modEntry c.blk s.nextId (fun e => { e with fills := want }) s'

/-- Registers of a thread whose result a request still owes (R27, R367, R369, R372), or an access that a pseudo-channel holds (R147, R148). -/
def owedRegs (s : State) (b r : Nat) : List (BitVec 9) :=
  ((getBlk s b).grows.filter (fun q => q.ranks.contains r && q.entry.isNone)).map (·.d) ++
  (s.inflight.filter (fun q => q.blk == b && q.ranks.contains r && q.entry.isNone)).map (·.d) ++
  (s.ctxWaits.filter (fun q => q.blk == b && q.ranks.contains r && q.entry.isNone)).map (·.d) ++
  ((getTh s b r).outs.filter (fun o => o.held && o.pchs.any (pchHeld s))).flatMap (fun o => o.dests.map (BitVec.ofNat 9))
/-- The scoreboard holds the port: the instruction reads or writes a register whose result is outstanding (R27) (conventions: DEDUCED, assumption 30). -/
def scoreboard (c : Ctx) (uses : List RegUse) (s : State) : Bool :=
  uses.any (fun u => (readRanks c u).any (fun r => (owedRegs s c.blk r).any (fun d => u.spec.toNat ≤ d.toNat && d.toNat < u.spec.toNat + u.n)))
/-- Note an outstanding result or access that a later event settles (R71, R72). -/
def pendOut (c : Ctx) (id : Nat) (a b : Bool) (s : State) : State :=
  if !(a && c.setA) && !(b && c.setB) then s
  else c.active.foldl (fun s l => modTh c.blk l.2 (fun t => { t with outs := t.outs ++ [{ id := id, clause := c.clause, a := a && c.setA, b := b && c.setB }] }) s) s

-- Issue ----------------------------------------------------------------------------------------------------------------

/-- Causes 5 to 7 of R324, which depend on the word and the block only (conventions: DEDUCED, assumption 16). -/
def wordCause (i i0 : Instr) (c : Ctx) (s : State) : Option Nat :=
  match i with
  | .undefinedOpcode _ => some cIllegalOp
  | _ =>
    if privileged i && !secureOf s c.blk then some cPriv
    else if !(shape i).legal || !grantOk i (getBlk s c.blk) || c.afterYoke || (isTransfer i && !c.last) ||
        (match i with | .clause _ => true | .repeatN _ => c.last | _ => false) ||
        (match c.rep with | some r => r.guarded || !repeatable i || !stepOk r.mask r.step i0 | none => false) then some cIllegalEnc
    else none

/-- `prefetch` never traps and sends no fault record: a thread that meets a cause, or whose register fill faults, drops out of it (R421). -/
def dropsFaults : Instr → Bool
  | .prefetch _ => true
  | _ => false
/-- Raise a cause of the operands on the threads it is about; a `prefetch` drops it. -/
def raiseOperand (i : Instr) (c : Ctx) (ls : List (Nat × Nat)) (code : Nat) (s : State) : State := if dropsFaults i then s else raise c (causeLanes i ls) code s
/-- The threads that go on past those with a cause: an `ldx` whose one thread has a cause performs nothing (R412). -/
def goOn (i : Instr) (c : Ctx) (bad : List (Nat × Nat)) : List (Nat × Nat) :=
  match i with
  | .ldx _ => if bad.isEmpty then c.active else []
  | _ => c.active.filter (fun l => !bad.contains l)

/-- Issue an instruction in its context. `i0`: the word as written; `i`: with the fields of a `repeat` stepped; `over`: a stepped register lies above v255.
`eff` is the instruction's own effect on its active threads. A register fill that a pseudo-channel holds stalls it (R147, R148) (conventions: DEDUCED, assumptions 30, 32, 95). -/
def issueIn (i0 i : Instr) (tooFar : Bool) (eff : Ctx → State → Fin) (c : Ctx) (s : State) : State :=
  match wordCause i i0 c s with
  | some code => advance c (raise c c.exec code s)
  | none =>
    let sh := shape i
    let reads := readsOf s c sh
    if guardPending i c s then suspendClause c s
    else if c.active.isEmpty then advance c s
    else if tooFar || rangeBad (getBlk s c.blk).allot (reads ++ sh.writes) then advance c (raiseOperand i c c.active cRegRange s)
    else if scoreboard c (reads ++ sh.writes) s || syncHeld i c s then s
    else if mustSuspend i c s || orderHeld i c s then suspendClause c s
    else
      let new := newQuanta c reads sh.writes s
      let s := if new.isEmpty then s else fileRoom c.g (usedQuanta c (reads ++ sh.writes)) new.length (2 * fileSize) s
      if fileFull c reads sh.writes s then suspendClause c s
      else
      let bad := causeLanes i (uncorrLanes s c reads)
      if !bad.isEmpty && rollsBack s c.blk && !dropsFaults i then settleYard c.blk (rollback c.blk (evAdd (fieldOf c.g) 0x28 bad.length s))
      else
        let s1 := correctRegs (if bad.isEmpty || dropsFaults i then s else evAdd (fieldOf c.g) 0x28 bad.length (raise c bad cRegUncorr s)) c reads
        let ok := goOn i c bad
        let c1 := { c with active := ok, all := ok }
        let (faults, s2) := fillRegs c.g c.blk (quantaOf c1 reads s1) s1
        if !(heldReach s1 s2).isEmpty then s
        else if !faults.isEmpty && !dropsFaults i && !logRoom s c then suspendFull c s
        else
          let fl := if faults.isEmpty then [] else fillLanes c1 sh reads s2
          let s3 := if faults.isEmpty || dropsFaults i then s2 else fillFault c1 i sh reads fl faults s2
          let c2 := { c1 with active := ok.filter (fun l => !fl.contains l), regs := snapOf (getBlk s3 c.blk) (membersOf c.slots)
                              fill := if faults.isEmpty then none else some s2.nextId }
          if c2.active.isEmpty then advance c s3
          else match eff c2 s3 with
            | .done s4 => advance c (shadowIssue i c2 (noteOuts i c2 (!sh.writes.isEmpty) (countsB i) (heldReach s3 s4) s4))
            | .stall => s
            | .suspend => suspendFull c s
            | .refault _ _ _ _ _ => s

end Sys2Proof.Machine
end

