-- ==== Sys2Proof/Machine/Yard.lean ====
section
/-! DEFINITION. The yard and the clause (R26-R43, R74-R76, R85-R91, R309-R313, R321-R323, R352-R354, R364-R365): fetching and checking a clause, its
beginning and its end, trap delivery and double faults, kills, barriers, sidings and consists, eligibility. -/
namespace Sys2Proof.Machine

-- Bytes at home -------------------------------------------------------------------------------------------

/-- Write bytes at their home (R150), cut into lines, as the Terminus and the host port do: a request of no field. -/
def homePuts (pa : Nat) (bs : List Byte) (s : State) : State :=
  (lineParts 20 pa bs.length).foldl (fun (acc : List Byte × State) (ln, lo, n) =>
    (acc.1.drop n, homeWrite ln (lineWith (acc.1.take n) lo) (rangeMask lo n) (llcMiss none 1 (ln * 128) acc.2))) (bs, s) |>.2
/-- Bytes read at their home, and whether one is poisoned. -/
def homeGets (pa n : Nat) (s : State) : List Byte × Bool × State :=
  (lineParts 20 pa n).foldl (fun (acc : List Byte × Bool × State) (ln, lo, k) =>
    let ((d, p), s) := homeRead ln (llcMiss none 1 (ln * 128) acc.2.2)
    (acc.1 ++ lineBytes d lo k, acc.2.1 || poisonOf p lo k, s)) ([], false, s)

-- The journal (R209) -----------------------------------------------------------------------------------------

/-- Raise an MSI-X vector. -/
def msixRaise (v : Nat) (s : State) : State := { s with msix := v :: s.msix }
/-- Write a queue's next journal entry (R209); COMPLETED and FAILED raise the queue's vector when it asks (R193). -/
def journal (q index event status : Nat) (tag data : DWord) (s : State) : State :=
  let k := getQ s q
  let j := nbits k.desc 128 52
  let n := nbits k.desc 180 5
  let e : BitVec 256 := data ++ tag ++ (0 : BitVec 16) ++ BitVec.ofNat 8 status ++ BitVec.ofNat 8 event ++ BitVec.ofNat 32 index ++ k.nextSeq
  let s := homePuts (j + k.nextSeq.toNat % 2 ^ n * 32) (toBytes 32 e) s
  let s := modQ q (fun k => { k with nextSeq := k.nextSeq + 1 }) s
  if (event == 4 || event == 5) && bit k.desc 58 then msixRaise (nbits k.desc 193 11) s else s

-- Charges (R256) -----------------------------------------------------------------------------------------------

/-- Add to the CORES and BACKING charges of every node on a region's path. -/
def chargePath (region : Nat) (cores backing : Int) (s : State) : State :=
  (pathOf s region).foldl (fun s a =>
    let c := mget (0, 0) s.charges a
    { s with charges := mput s.charges a (((c.1 : Int) + cores).toNat, ((c.2 : Int) + backing).toNat) }) s
/-- Every node's CORES budget on a path leaves room for some blocks (R256). -/
def coresRoom (s : State) (region n : Nat) : Bool :=
  (pathOf s region).all (fun a => !bit (rcbOf s a) 78 || (mget (0, 0) s.charges a).1 + n ≤ nbits (rcbOf s a) 128 16)
/-- Every node's BACKING budget on a path leaves room for some bytes (R256). -/
def backingRoom (s : State) (region n : Nat) : Bool :=
  (pathOf s region).all (fun a => !bit (rcbOf s a) 81 || (mget (0, 0) s.charges a).2 + n ≤ nbits (rcbOf s a) 192 40)
/-- A path has room for the charges of a dispatch. -/
def pathRoom (s : State) (region cores backing : Nat) : Bool := coresRoom s region cores && backingRoom s region backing
/-- Bytes a block's current allotment charges (R20). -/
def backingOf (k : Block) : Nat := k.threads * k.allot * 4
/-- The queue's deficit when a block leaves its core (R206). -/
def departDeficit (k : Block) (s : State) : State :=
  let now := nowOf s k.core
  let res := k.residence + (now - k.since)
  modQ k.queue (fun q => { q with deficit := q.deficit + 4096 - ((now - k.since : Nat) : Int) })
    (modBlk k.id (fun b => { b with residence := res }) s)

-- Barriers (R364, R365) ------------------------------------------------------------------------------------------

/-- A phase is complete: its arrivals reach its count, or for count 0 every live thread has arrived. -/
def phaseDone (live : List Nat) (p : Phase) : Bool :=
  if p.count == 0 then live.all (fun r => p.arrived.contains r) else p.count ≤ p.arrived.length
/-- The leading complete phases of a barrier complete, in order. -/
def completePhases (live : List Nat) : Nat → Barrier → Barrier
  | 0, b => b
  | fuel + 1, b =>
    match b.phases with
    | p :: rest => if phaseDone live p then completePhases live fuel { b with phases := rest, completed := b.completed + 1 } else b
    | [] => b
/-- Recheck one barrier of a block: completed phases wake their waiters and, in a rollback region, make the snapshot due (R64). -/
def recheckBarrier (b n : Nat) (s : State) : State :=
  let k := getBlk s b
  let bar := mget {} k.barriers n
  let bar' := completePhases (liveRanks k) bar.phases.length bar
  if bar'.completed == bar.completed then s
  else
    let s := modBlk b (fun k => { k with barriers := mput k.barriers n bar', snapDue := k.snapDue || regRollback s k.region }) s
    (mkeys k.members).foldl (fun s r =>
      endWait b r (fun w => w == .barrier n && !bar'.phases.any (fun p => p.arrived.contains r)) s) s
def recheckBarriers (b : Nat) (s : State) : State := (mkeys (getBlk s b).barriers).foldl (fun s n => recheckBarrier b n s) s
/-- A thread arrives at the oldest incomplete phase at which it has not arrived (R364); the first arrival fixes a phase's count. -/
def arrive (b r n count : Nat) (s : State) : State :=
  let k := getBlk s b
  let bar := mget {} k.barriers n
  let bar' : Barrier :=
    match bar.phases.find? (fun p => !p.arrived.contains r) with
    | some p => { bar with phases := modWhere (fun q => q.no == p.no) (fun q => { q with arrived := q.arrived ++ [r] }) bar.phases }
    | none => { bar with phases := bar.phases ++ [{ no := bar.next, count := count, arrived := [r] }], next := bar.next + 1 }
  recheckBarrier b n (modBlk b (fun k => { k with barriers := mput k.barriers n bar' }) s)
/-- A thread waits for the phases at which it has arrived (R364). -/
def barrierWait (b r n : Nat) (s : State) : State :=
  let bar := mget {} (getBlk s b).barriers n
  if bar.phases.any (fun p => p.arrived.contains r) then beginWait b r (.barrier n) s else s

-- Kills and stops (R35, R36, R42, R89, R91) ------------------------------------------------------------------------

/-- Leave the holders of the block's window (R91). -/
def leaveWindow (b r : Nat) (s : State) : State := modBlk b (fun k => { k with holders := k.holders.filter (· != r) }) s
/-- A block stops issuing and leaves its core's yard, queues and shadow queue. -/
def evictYard (b : Nat) (s : State) : State :=
  let g := (getBlk s b).core
  modCore g (fun c => { c with
    ysendQ := c.ysendQ.filter (fun x => x.blk != b), yrecvQ := c.yrecvQ.filter (fun x => x.blk != b)
    shadowQ := c.shadowQ.filter (fun x => x.blk != b) }) (clearYard b s)
/-- Entries of a launch that has completed or been killed leave the yoke FIFOs (R218). -/
def purgeYoke (launch : Nat) (s : State) : State :=
  { s with
    cores := s.cores.map (fun e => (e.1, { e.2 with fifo := e.2.fifo.filter (fun y => y.launch != launch) }))
    fields := s.fields.map (fun e => (e.1, { e.2 with yokeBuf := e.2.yokeBuf.map (fun y => (y.1, y.2.filter (fun z => z.launch != launch))) })) }
/-- The furrow operations of a killed block go; an accepted `wpart` stays, and will set no tag (R190). -/
def fwDiscard (b : Nat) (q : List FwOp) : List FwOp :=
  (q.filter (fun o => o.blk != b || o.image.isSome)).map (fun o => if o.blk == b then { o with discard := true } else o)
/-- The fault records of furrow operations that have gone need no answer. -/
def fwForget (gone : List Nat) (rs : List FRec) : List FRec :=
  (modWhere (fun r => match r.src with | .furrow _ _ op => gone.contains op | _ => false) (fun r => { r with open_ := false }) rs).filter (fun r =>
    r.open_ || !r.taken || (match r.src with | .furrow _ _ op => !gone.contains op | _ => true))
/-- The furrow operations of a block that `fwDiscard` drops. -/
def fwGone (b : Nat) (k : Field) : List Nat := k.slices.flatMap (fun x => (x.2.queue.filter (fun o => o.blk == b && o.image.isNone)).map (·.id))
/-- Begin a kill of blocks (R42): they stop at once, their waits and watches go, and the kill drains later (conventions: DEDUCED, assumptions 53, 54). -/
def killBlocks (bs : List Nat) (queue : Option Nat) (s : State) : State :=
  let bs := bs.filter (fun b => let p := (getBlk s b).phase; p == .resident || p == .stopping || p == .saved)
  let s := bs.foldl (fun s b =>
    let k := getBlk s b
    let s := if resident k then chargePath k.region (-1) 0 (departDeficit k s) else s
    let s := evictYard b s
    let s := modBlk b (fun k => { k with phase := .killed, holders := [], occupies := resident k, savedConsists := [], savedSidings := [], savedReady := [], savedSend := [], savedRecv := [], savePchs := if resident k then k.savePchs else [] }) s
    let s := { s with
      launches := s.launches.map (fun e => if e.1 == k.launch then (e.1, { e.2 with killed := true }) else e)
      hostWatches := s.hostWatches.filter (fun w => w.blk != b)
      fields := s.fields.map (fun e => (e.1, { e.2 with
        watches := e.2.watches.filter (fun w => w.blk != b), faults := fwForget (fwGone b e.2) e.2.faults, slices := e.2.slices.map (fun x => (x.1, { x.2 with queue := fwDiscard b x.2.queue })) })) }
    s) s
  { s with kills := s.kills ++ [{ id := s.nextId, blocks := bs, queue := queue }], nextId := s.nextId + 1 }
/-- The blocks of a queue that are not ended. -/
def blocksOfQueue (s : State) (q : Nat) : List Nat := (s.blocks.filter (fun e => e.2.queue == q)).map (·.1)
/-- Kill a queue (R208): its blocks, no further head, journal KILLED. One whose kill is still draining has no more blocks to kill, and drains with it. -/
def killQueue (q : Nat) (s : State) : State :=
  if (getQ s q).state == .killing then journal q 0 6 0 0 0 s
  else
  let s := modQ q (fun k => { k with state := .killing }) s
  let s := journal q 0 6 0 0 0 s
  let s := { s with launches := s.launches.map (fun e => if e.2.queue == q && !e.2.ended then (e.1, { e.2 with stop := true, killed := true }) else e) }
  killBlocks (blocksOfQueue s q) (some q) s
/-- Stop a block for pre-emption (R36 step 1). -/
def stopBlock (b : Nat) (s : State) : State :=
  modBlk b (fun k => if k.phase == .resident then { k with phase := .stopping } else k) s
/-- The neighbours a block stops and resumes with (R35): every block of its neighbourhood. -/
def unitOf (s : State) (b : Nat) : List Nat :=
  match (getBlk s b).nbhd with
  | none => [b]
  | some (first, _, _, _) => (s.blocks.filter (fun e => (match e.2.nbhd with | some (f, _, _, _) => f == first | none => false))).map (·.1)
/-- Request the pre-emption of a block's unit (R35). -/
def preemptUnit (b : Nat) (s : State) : State := (unitOf s b).foldl (fun s x => stopBlock x s) s
/-- Stop a queue (R208). -/
def stopQueue (q : Nat) (s : State) : State :=
  if (getQ s q).state == .active then journal q 0 8 0 0 0 (modQ q (fun k => { k with state := .stopped }) s) else s
/-- Apply a region's fault-domain policy to a block (R89). -/
def faultPolicy (b : Nat) (s : State) : State :=
  let k := getBlk s b
  match regFaultPol s k.region with
  | 0 => killBlocks [b] none (journal k.queue 0 6 0 0 0 s)
  | 2 =>
    let s := modBlk b (fun k => { k with held := true, halted := true }) (preemptUnit b s)
    sbEvent (2, k.region) (.region k.region 1 k.handle) (stopQueue k.queue s)
  | _ =>
    let qs := (s.queues.filter (fun e => e.2.state != .unbound && below s k.region (nbits e.2.desc 64 52))).map (·.1)
    let s := sbEvent (2, k.region) (.region k.region 2 k.handle) s
    qs.foldl (fun s q => killQueue q s) s

-- Trap delivery (R85-R90) ---------------------------------------------------------------------------------------------

/-- Send a double-fault record and apply the policy (R89). It joins the field's fault queue even where that holds 256 records. A thread whose block is halted
for debug goes on, once the block is released, in the Handler state at its PC: past the clause that raised the second cause, or at entry 0 (conventions: DEDUCED, assumption
55; DESIGN CHOICE, assumptions 102, 111). -/
def doubleFault (b r cn : Nat) (i : TrapInfo) (s : State) : State :=
  let (_, s) := sendFault (fieldOf (getBlk s b).core) (doubleRec s b i cn) s
  faultPolicy b (modTh b r (fun t => { t with raised := none }) s)
/-- Deliver what a thread's clause boundary owes it (R86): its recorded cause, else, in the Normal state, its first queued cause. A thread that has
begun a wait keeps it. What a stopping or saved block owes is delivered on resume (R38) (conventions: DEDUCED, assumptions 10, 11, 12). -/
def deliver (b r cn : Nat) (s : State) : State :=
  let t := getTh s b r
  let entry := regTrapEntry s (getBlk s b).region
  if (getBlk s b).phase != .resident then s
  else match t.raised with
  | some i =>
    if t.trap == .handler then doubleFault b r cn i s
    else
      let s := modTh b r (enterHandler entry i) s
      if entry = 0 then doubleFault b r cn i s else s
  | none =>
    match t.deferred with
    | d :: rest =>
      if t.trap == .normal then
        let i := { d with pc := t.pc }
        let s := modTh b r (fun t => enterHandler entry i { t with deferred := rest }) s
        if entry = 0 then doubleFault b r cn i s else s
      else s
    | [] => s

/-- A cause recorded on a waiting thread is delivered at once; a thread whose clause has not ended takes it there (R86, R367, R440). -/
def takeRaised (b r : Nat) (s : State) : State :=
  match (getTh s b r).place with
  | .waiting => deliver b r 0 s
  | .rankWait => deliver b r 0 (modTh b r (fun t => { t with place := .waiting }) s)
  | _ => s

-- Fetch (R309-R313, R136) ------------------------------------------------------------------------------------------------

inductive Fetch where
  | line (d : BitVec 512)
  | fault (kind level pa : Nat)
  | world
  | noexec
  deriving DecidableEq, Repr

/-- Read a fetch line through the core's fetch buffer (R136, R230) (conventions: DEDUCED, assumption 19). -/
def fetchLine (g b : Nat) (va : DWord) (s : State) : Fetch × State :=
  match translate (.core g) (rootOf s b) (secureOf s b) va 2 s with
  | (.fault k l p, s) => (.fault k l p, s)
  | (.world, s) => (.world, s)
  | (.noexec, s) => (.noexec, s)
  | (.ok pa, s) =>
    match mfind (getCore s g).fetchBuf (pa / 64) with
    | some d => (.line d, s)
    | none =>
      let ((d, p), s) := fldRead (secureOf s b) (fieldOf g) (pa / 128) (rangeMask (pa % 128 / 64 * 64) 64) s
      if poisonOf p (pa % 128 / 64 * 64) 64 then (.fault kPoison 0 pa, s)
      else
        let h : BitVec 512 := d.extractLsb' (pa % 128 / 64 * 512) 512
        (.line h, modCore g (fun c => { c with fetchBuf := mput c.fetchBuf (pa / 64) h }) s)
/-- Slot `i` of a line, its TARGETS bit, the parity and the reserved bits (R309, R310). -/
def slotWord (d : BitVec 512) (i : Nat) : IWord := d.extractLsb' (96 * i) 96
def targetBit (d : BitVec 512) (i : Nat) : Bool := bit d (480 + 19 + i)
def xorBits {w : Nat} (v : BitVec w) (n : Nat) : Bool := (upto n).foldl (fun p i => p != bit v i) false
def parityOk (d : BitVec 512) : Bool := (upto 8).all (fun k => xorBits (d.extractLsb' (60 * k) 60 : BitVec 60) 60 == bit d (480 + 24 + k))
def lineRsvOk (d : BitVec 512) : Bool := nbits d 480 15 == 0
/-- The virtual addresses of the fetch lines that slots n .. n + k cover (R311). -/
def linesOf (n k : Nat) : List DWord := (upto ((n + k) / 5 - n / 5 + 1)).map (fun i => BitVec.ofNat 64 ((n / 5 + i) * 64))
/-- Fetch lines in turn until one fails: the lines, and the failure with its address. -/
def fetchLines (g b : Nat) : List DWord → State → List (BitVec 512) × Option (DWord × Fetch) × State
  | [], s => ([], none, s)
  | va :: rest, s =>
    match fetchLine g b va s with
    | (.line d, s) =>
      let (ds, e, s) := fetchLines g b rest s
      (d :: ds, e, s)
    | (x, s) => ([], some (va, x), s)

/-- Header rules (R322). -/
def headerOk (w : IWord) : Bool :=
  nbits w 86 10 == 0 && 1 ≤ hdrLen w && hdrLen w ≤ 24 && (hdrSetA w ≤ 11 || hdrSetA w == 16) && (hdrSetB w ≤ 11 || hdrSetB w == 16) &&
  nbits w 80 6 == 28 && nbits w 0 52 == 0

/-- The PC a consist's threads stand at. -/
def frontPc (s : State) (b : Nat) (ms : List (Nat × Nat)) : DWord := (ms.head?.map (fun l => (getTh s b l.2).pc)).getD 0
/-- The header word a consist's next clause starts with, as the core would fetch it now; 0 where it cannot. -/
def peekHeader (s : State) (g : Nat) (k : Consist) : IWord :=
  if (membersOf k.slots).isEmpty then 0
  else
    let pc := frontPc s k.blk (membersOf k.slots)
    match (fetchLine g k.blk (pc &&& ~~~63) s).1 with
    | .line d => if slotOk pc then slotWord d (nbits pc 0 6 / 12) else 0
    | _ => 0

/-- Put a clause in place whose threads `stopped` do not execute it. -/
def placeClause (g cn : Nat) (cl : Clause) (s : State) : State :=
  modCore g (fun c => { c with running := some cn }) (modConsist g cn (fun k => { k with clause := some cl, eligible := none, again := false }) s)
/-- No thread begins the clause: the cause is recorded on each, and the clause's end delivers it (R324) (conventions: DEDUCED, assumption 84). -/
def failClause (g cn : Nat) (k : Consist) (code detail : Nat) (pc va : DWord) (s : State) : State :=
  let ms := membersOf k.slots
  let s := ms.foldl (fun s l => recordTrap k.blk l.2 code detail pc va none s) s
  placeClause g cn { id := s.nextId, header := pc, len := 0, stopped := ms.map (·.2) } { s with nextId := s.nextId + 1 }

/-- A thread that came by a transfer has not reached a transfer target (R312, R351). -/
def wrongLanding (v : Via) (ok tgt : Bool) : Bool :=
  match v with
  | .fall => false
  | .branch => !ok || !tgt
  | .tret w => !ok || (w && !tgt)
/-- Begin the clause of a consist at a boundary (R26, R311, R312, R322-R324). `hdr`: the word in the header slot (conventions: DEDUCED, assumption 84). -/
def beginClause (g cn : Nat) (hdr : IWord) (s : State) : State :=
  match consistOf s g cn with
  | none => s
  | some k =>
    let b := k.blk
    let ms := membersOf k.slots
    let pc := frontPc s b ms
    if ms.any (fun l => let t := getTh s b l.2; t.raised.isSome || (t.trap == .normal && !t.deferred.isEmpty)) then
      -- a cause is delivered at this boundary; no clause begins
      placeClause g cn { id := s.nextId, header := pc, len := 0 } { s with nextId := s.nextId + 1 }
    else
      let n := slotNum (if slotOk pc then pc else pc &&& ~~~63)
      let len := if nbits hdr 86 10 == 0 && 1 ≤ hdrLen hdr && hdrLen hdr ≤ 24 then hdrLen hdr else 0
      let (ds, bad, s) := fetchLines g b (linesOf n len) s
      match bad with
      | some (va, .noexec) => failClause g cn k cFetchFault 0 (if va = pc &&& ~~~63 then pc else va) va s
      | some (va, .world) => failClause g cn k cWorld 3 (if va = pc &&& ~~~63 then pc else va) va s
      | some (va, .fault kd lv pa) =>
        if !faultRoom s (fieldOf g) then s
        else
          let rc : FRec := { blkRec s b va (.fetch b k.uid) with
            kind := BitVec.ofNat 3 kd, level := BitVec.ofNat 3 lv, pa := pa, access := 3, source := 1, unit := BitVec.ofNat 6 cn, refault := k.again }
          let (seq, s) := sendFault (fieldOf g) rc s
          modConsist g cn (fun k => { k with fetchWait := some seq, eligible := none, again := false }) s
      | some (_, .line _) => s
      | none =>
        let lines := (linesOf n len).zip ds
        match lines.find? (fun e => !parityOk e.2), lines.find? (fun e => !lineRsvOk e.2) with
        | some (va, _), _ => failClause g cn k cFetchParity 0 (if va = pc &&& ~~~63 then pc else va) va s
        | none, some (va, _) => failClause g cn k cIllegalEnc 0 (if va = pc &&& ~~~63 then pc else va) va s
        | none, none =>
          let tgt := targetBit (ds.headD 0) (nbits pc 0 6 / 12)
          let wrong := ms.filter (fun l => wrongLanding (getTh s b l.2).via (slotOk pc) tgt)
          let s := wrong.foldl (fun s l => recordTrap b l.2 cIllegalTarget 0 pc (pc &&& ~~~63) none s) s
          let rest := ms.filter (fun l => !wrong.contains l)
          if !headerOk hdr || rest.isEmpty then
            let s := rest.foldl (fun s l => recordTrap b l.2 cIllegalEnc 0 pc 0 none s) s
            placeClause g cn { id := s.nextId, header := pc, len := 0, stopped := ms.map (·.2) } { s with nextId := s.nextId + 1 }
          else
            let id := s.nextId
            let s := rest.foldl (fun s l => modTh b l.2 (clearFlags id (hdrSetA hdr) (hdrSetB hdr)) s) { s with nextId := id + 1 }
            let line := fun (m : Nat) => ds.getD (m / 5 - n / 5) 0
            let words := hdr :: (upto len).map (fun i => slotWord (line (n + 1 + i)) ((n + 1 + i) % 5))
            let pairs := (upto len).filter (fun i => i != 0 && (n + 1 + i) % 5 != 0 && bit (line (n + 1 + i)) (480 + 14 + (n + 1 + i) % 5))
            perfCore g b 0x04 1 (placeClause g cn { id := id, header := pc, len := len, words := words, stopped := wrong.map (·.2), pairs := pairs } s)

-- Exit and rank waits (R39, R350, R352, R353) ---------------------------------------------------------------------------

/-- A thread leaves its block (R39, R91). -/
def leaveBlock (b r : Nat) (s : State) : State :=
  recheckBarriers b (leaveWindow b r (modTh b r (fun t => { t with live := false, place := .exited, waits := [], raised := none, deferred := [] }) s))
/-- The live ranks of group k (R353). -/
def groupRanks (k : Block) (grp : Nat) : List Nat := (liveRanks k).filter (fun r => r / 32 == grp)
/-- Group k of a block is complete (R353): every live thread is in a rank wait, and no other wait of it stands. -/
def groupComplete (k : Block) (grp : Nat) : Bool :=
  let rs := groupRanks k grp
  !rs.isEmpty && rs.all (fun r => let t := mget {} k.members r; t.place == .rankWait && t.waits.all (· == .rank))

-- Clause end (R28-R30, R32, R86) ------------------------------------------------------------------------------------------

/-- The due siding of a core that goes first: the oldest, ties to the lowest number (R31); none of a block that is stopping, which forms no consist (R36). -/
def firstDue (s : State) (g : Nat) : Option Nat :=
  (leastBy (fun e => e.2.order) ((getCore s g).sidings.filter (fun e => e.2.due && (getBlk s e.2.blk).phase == .resident))).map (·.1)
/-- Something on the core waits for a consist number that none has free (R32, R97). -/
def numbersShort (s : State) (g : Nat) : Bool :=
  let c := getCore s g
  64 ≤ c.consists.length && (!c.ready.isEmpty || (firstDue s g).isSome || s.blocks.any (fun e => e.2.core == g && e.2.phase == .resident && !e.2.savedConsists.isEmpty))
/-- The clause has no instruction left to issue, or no thread left to execute one. -/
def clauseOver (s : State) (k : Consist) (cl : Clause) : Bool :=
  cl.len ≤ cl.issued || (membersOf k.slots).all (fun l => cl.stopped.contains l.2 || !(getTh s k.blk l.2).live)

/-- The sleeps of a clause start at its end (R359). -/
def startSleep (now : Nat) (t : Thread) : Thread := { t with waits := t.waits.map (fun w => match w with | .doze n => .sleep (now + n) | w => w) }
/-- The replay of an instruction of the clause that acts on its threads' next PC, waits or block is outstanding (R59). -/
def heldEnd (s : State) (k : Consist) (cl : Clause) : Bool :=
  (logOf s k.blk k.uid).any (fun e => e.clause == cl.id && (e.waiting || e.retry) && heldOnFill e.instr)
/-- The end of a clause (R29, R455) (conventions: DEDUCED, assumptions 10, 109, 120). -/
def endClause (g cn : Nat) (s : State) : State :=
  match consistOf s g cn with
  | none => s
  | some k =>
    match k.clause with
    | none => s
    | some cl =>
      let b := k.blk
      let ms := membersOf k.slots
      let after := slotAddr (slotNum cl.header + 1 + cl.len)
      let stopping := (getBlk s b).phase != .resident
      -- next PCs
      let s := ms.foldl (fun s l => modTh b l.2 (fun t =>
        closeFlags cl.id (match t.nextPc with
          | some p => { t with pc := p, nextPc := none }
          | none => if cl.len == 0 then t else { t with pc := after, via := .fall }))
        (modTh b l.2 (startSleep (nowOf s g)) s)) s
      -- the consist's clause is over
      let s := modCore g (fun c => { c with running := if c.running == some cn then none else c.running }) (modConsist g cn (fun k => { k with clause := none }) s)
      -- exits, then traps
      let s := cl.exits.foldl (fun s r => leaveBlock b r s) s
      let s := if stopping then s else ms.foldl (fun s l => if (getTh s b l.2).live then deliver b l.2 cn s else s) s
      if (getBlk s b).phase != .resident && (getBlk s b).phase != .stopping then s
      else
        let owed := fun (r : Nat) => (getTh s b r).raised.isSome
        let rankw := fun (r : Nat) => cl.rankWait.contains r && !cl.stopped.contains r && (getTh s b r).trap == .normal && (getTh s b r).live
        let stays := ms.filter (fun l => let t := getTh s b l.2; t.live && !t.began && t.waits.isEmpty && !rankw l.2 && !owed l.2)
        let same := match stays with
          | [] => false
          | l :: rest => let t := getTh s b l.2
            rest.all (fun m => let u := getTh s b m.2; u.pc == t.pc && (u.trap == .handler) == (t.trap == .handler))
        -- threads woken before the clause's end come after the others, in the order of their wakes
        let early := fun (l : Nat × Nat) => let t := getTh s b l.2; t.began && t.waits.isEmpty
        let sorted := sortBy (fun (l : Nat × Nat) => l.2) (ms.filter (fun l => !early l)) ++ sortBy (fun (l : Nat × Nat) => (getTh s b l.2).woke) (ms.filter early)
        let s := ms.foldl (fun s l => modTh b l.2 (fun t => { t with began := false }) s) s
        let intact := stays.length == ms.length && same && !cl.marshalled
        if intact && !numbersShort s g then
          let age := regAge s (getBlk s b).region
          modConsist g cn (fun k => { k with yieldUntil := if cl.yielded then some (nowOf s g + age) else none, eligible := none }) s
        else
          let s := if intact then perfCore g b 0x07 1 s else s
          let s := modCore g (fun c => { c with consists := mdel c.consists cn }) s
          sorted.foldl (fun s l =>
            let r := l.2
            let t := getTh s b r
            if !t.live then s
            else if t.raised.isSome && t.waits.isEmpty then
              -- stopping: the trap is delivered on resume (R38)
              modBlk b (fun k => { k with savedReady := k.savedReady ++ [r] }) (modTh b r (fun t => { t with place := .ready }) s)
            else if rankw r then modTh b r (fun t => { t with place := .rankWait }) s
            else if !t.waits.isEmpty then modTh b r (fun t => { t with place := .waiting }) s
            else fileThread g b r s) s

/-- CLAUSE_END on a core: the running clause, when it is over. -/
def execClauseEnd (core : Nat) (s : State) : Host.Outcome State Fault Refusal :=
  match pick s core with
  | none => .next s
  | some cn =>
    match consistOf s core cn with
    | none => .next s
    | some k =>
      match k.clause with
      | none => .next s
      | some cl =>
        if clauseOver s k cl then
          if heldEnd s k cl then .next (suspendAt core cn k.blk s)
          else
          let s := endClause core cn s
          .next (if (getBlk s k.blk).snapDue then takeSnapshot k.blk s else s)
        else .next s

-- Sidings and consists (R30-R32, R75, R353, R97) ---------------------------------------------------------------------------

/-- SIDING_DUE: a siding whose oldest thread has waited the age threshold becomes due (R31). -/
def execSidingDue (core idx : Nat) (s : State) : Host.Outcome State Fault Refusal :=
  match mfind (getCore s core).sidings idx with
  | none => .next s
  | some sd =>
    if (getBlk s sd.blk).phase != .resident then .next s
    else .next (setNow (fieldOf core) (sd.since + regAge s (getBlk s sd.blk).region) s)

/-- Put a new consist on a free number, and say where its threads are (conventions: DEDUCED, assumption 20). -/
def addConsist (g : Nat) (k : Consist) (s : State) : State :=
  match freeKey (getCore s g).consists 64 with
  | none => s
  | some cn =>
    let s := modCore g (fun c => { c with consists := mput c.consists cn k }) s
    let s := perfCore g k.blk 0x06 1 s
    (membersOf k.slots).foldl (fun s l => modTh k.blk l.2 (fun t => { t with place := .consist k.uid }) s) s
/-- The canonical slot map of some ranks of a group (R75). -/
def canonSlots (grp : Nat) (rs : List Nat) : List (Option Nat) := (upto 32).map (fun i => if rs.contains (32 * grp + i) then some (32 * grp + i) else none)
/-- The PCs of a complete group, by ascending lowest rank (R353). -/
def groupPcs (k : Block) (grp : Nat) : List DWord :=
  (groupRanks k grp).foldl (fun l r => let p := (mget {} k.members r).pc; if l.contains p then l else l ++ [p]) []

/-- A saved consist of the core waits for a number; it goes first (R97). -/
def savedWaits (s : State) (g : Nat) : Bool := s.blocks.any (fun e => e.2.core == g && e.2.phase == .resident && !e.2.savedConsists.isEmpty)
/-- A complete rank group of the core waits for a number; it goes before due sidings (R353). -/
def groupWaits (s : State) (g : Nat) : Bool :=
  s.blocks.any (fun e => e.2.core == g && e.2.phase == .resident && e.2.members.any (fun m => m.2.place == .rankWait && (m.2.waits.contains .rank || groupComplete e.2 (m.1 / 32))))
/-- CONSIST_FORM: a due siding, a complete rank group or a saved consist takes a free consist number (R31, R353, R97). -/
def execConsistForm (core : Nat) (src : FormFrom) (s : State) : Host.Outcome State Fault Refusal :=
  let c := getCore s core
  if 64 ≤ c.consists.length then .next s
  else
  match src with
  | .siding idx =>
    if firstDue s core != some idx || savedWaits s core || groupWaits s core then .next s
    else
      let sd := mget default c.sidings idx
      let s := modCore core (fun c => { c with sidings := mdel c.sidings idx }) s
      let slots := (upto 32).map (fun i => sd.ranks[i]?)
      let s := addConsist core { uid := s.nextUid, blk := sd.blk, slots := slots, base := sd.ranks.headD 0 } { s with nextUid := s.nextUid + 1 }
      .next (fileReady core (getCore s core).ready.length s)
  | .rankGroup b grp pc =>
    let k := getBlk s b
    if k.core != core || k.phase != .resident || savedWaits s core || !((groupComplete k grp) || (groupRanks k grp).any (fun r => (mget {} k.members r).waits.contains .rank)) then .next s
    else
      -- a complete group's threads are marked; each PC in turn takes a number
      let s := if groupComplete k grp then (groupRanks k grp).foldl (fun s r => modTh b r (fun t => { t with waits := [.rank] }) s) s else s
      let k := getBlk s b
      let waiting := (groupRanks k grp).filter (fun r => let t := mget {} k.members r; t.place == .rankWait && t.waits.contains .rank)
      let pcs := waiting.foldl (fun l r => let p := (mget {} k.members r).pc; if l.contains p then l else l ++ [p]) ([] : List DWord)
      if pcs.head? != some pc then .next s
      else
        let rs := waiting.filter (fun r => (mget {} k.members r).pc == pc)
        let s := rs.foldl (fun s r => modTh b r (fun t => { t with waits := [] }) s) s
        .next (addConsist core { uid := s.nextUid, blk := b, slots := canonSlots grp rs, canon := true, base := 32 * grp } { s with nextUid := s.nextUid + 1 })
  | .saved b idx =>
    let k := getBlk s b
    match k.savedConsists[idx]? with
    | some sc =>
      if k.core != core || k.phase != .resident then .next s
      else .next (addConsist core sc (modBlk b (fun k => { k with savedConsists := k.savedConsists.eraseIdx idx }) s))
    | none => .next s

-- Eligibility (R26, R27) ----------------------------------------------------------------------------------------------------

/-- The suspended instruction of a consist could now go on (R27). -/
def resumable (s : State) (g cn : Nat) (cl : Clause) : Bool :=
  match cl.words[1 + cl.issued]? with
  | none => match consistOf s g cn with | some k => !heldEnd s k cl | none => true
  | some w =>
    let i := decodeWord w
    match ctxAt s g cn i with
    | some c => !mustSuspend i c s && !orderHeld i c s && (!cl.noRoom || logRoom s c)
    | none => true
/-- A line of the clause that a consist would begin is not in the core's fetch buffer, and its pseudo-channel holds its accesses (R136, R147, R148). -/
def fetchHeld (s : State) (g : Nat) (k : Consist) : Bool :=
  anyHeld s &&
  (let pc := frontPc s k.blk (membersOf k.slots)
   let hdr := peekHeader s g k
   let len := if nbits hdr 86 10 == 0 && 1 ≤ hdrLen hdr && hdrLen hdr ≤ 24 then hdrLen hdr else 0
   (linesOf (slotNum (if slotOk pc then pc else pc &&& ~~~63)) len).any (fun va =>
     match (translate (.core g) (rootOf s k.blk) (secureOf s k.blk) va 2 s).1 with
     | .ok pa => (mfind (getCore s g).fetchBuf (pa / 64)).isNone && (pchsOf s pa).any (pchHeld s)
     | _ => false))
/-- A consist is eligible (R26): at a boundary with its wait mask set, or at a suspended instruction that can go on. With every flag set no header need be
looked at. -/
def eligibleNow (s : State) (g cn : Nat) (k : Consist) : Bool :=
  let b := getBlk s k.blk
  b.phase == .resident && k.fetchWait.isNone && !(k.clause.isNone && fetchHeld s g k) &&
  (match k.clause with
   | some cl => if cl.suspended then resumable s g cn cl else false
   | none => (match k.yieldUntil with | some t => t ≤ nowOf s g | none => true) &&
      (flagsReady b (membersOf k.slots) (BitVec.allOnes 12) ||
       flagsReady b (membersOf k.slots) (let w := peekHeader s g k; if nbits w 86 10 == 0 then hdrWait w else 0)))
/-- Stamp the consists of every core that have become eligible (R26). -/
def settle (s : State) : State :=
  { s with
    ticks := s.ticks + 1
    cores := s.cores.map (fun e => (e.1, { e.2 with consists := e.2.consists.map (fun x =>
      (x.1, { x.2 with eligible := if eligibleNow s e.1 x.1 x.2 then some (x.2.eligible.getD s.ticks) else none })) })) }

/-- An instruction handed to the core in turn while no clause runs: it stands in the header slot of the consist that would begin one, and the clause is
checked and refused (R322, R340); with no such consist nothing can issue (conventions: DEDUCED, assumption 7). -/
def noClause (i : Instr) (s : State) : Host.Outcome State Fault Refusal :=
  match s.turn with
  | .core g =>
    match pick s g with
    | some cn => .next (beginClause g cn ((encode i).getD (BitVec.allOnes 96)) s)
    | none => .fault .noConsist
  | _ => .fault .noConsist

/-- Issue a format A instruction: the `repeat` in progress steps its registers (R357). -/
def issueA (mk : FmtA → Instr) (f : FmtA) (eff : FmtA → Ctx → State → Fin) (s : State) : Host.Outcome State Fault Refusal :=
  match context (mk f) s with
  | none => noClause (mk f) s
  | some c =>
    match c.rep with
    | none => .next (issueIn (mk f) (mk f) false (eff f) c s)
    | some r =>
      match stepA r.mask (r.done * r.step) f with
      | some f' => .next (issueIn (mk f) (mk f') false (eff f') c s)
      | none => .next (issueIn (mk f) (mk f) true (eff f) c s)
def issueI (mk : FmtI → Instr) (f : FmtI) (eff : FmtI → Ctx → State → Fin) (s : State) : Host.Outcome State Fault Refusal :=
  match context (mk f) s with
  | none => noClause (mk f) s
  | some c =>
    match c.rep with
    | none => .next (issueIn (mk f) (mk f) false (eff f) c s)
    | some r =>
      match stepI r.mask (r.done * r.step) f with
      | some f' => .next (issueIn (mk f) (mk f') false (eff f') c s)
      | none => .next (issueIn (mk f) (mk f) true (eff f) c s)
def issueM (mk : FmtM → Instr) (f : FmtM) (eff : FmtM → Ctx → State → Fin) (s : State) : Host.Outcome State Fault Refusal :=
  match context (mk f) s with
  | none => noClause (mk f) s
  | some c =>
    match c.rep with
    | none => .next (issueIn (mk f) (mk f) false (eff f) c s)
    | some r =>
      match stepM r.mask (r.done * r.step) f with
      | some f' => .next (issueIn (mk f) (mk f') false (eff f') c s)
      | none => .next (issueIn (mk f) (mk f) true (eff f) c s)
/-- Issue a format E instruction; none is repeatable (R429). -/
def issueE (mk : FmtE → Instr) (f : FmtE) (eff : FmtE → Ctx → State → Fin) (s : State) : Host.Outcome State Fault Refusal :=
  match context (mk f) s with
  | none => noClause (mk f) s
  | some c => .next (issueIn (mk f) (mk f) false (eff f) c s)

end Sys2Proof.Machine
end

