-- ==== Sys2Proof/Machine/Ctl.lean ====
section
/-! DEFINITION. Reading the Terminus control space (R288): the registers of R194, R213, R236, R249, R258, R262, R283-R287, R291, R298, R302, R305 and
R307. -/
namespace Sys2Proof.Machine

/-- Bits of the package configuration record (R303). -/
def cfgBits (s : State) (lo n : Nat) : Nat := nbits (ofBytes 2048 s.cfg) lo n
/-- CFG.PKGID (R303). -/
def pkgId (s : State) : Nat := cfgBits s 46 4
/-- The CFG.QUIFIN entry of a Quifin link: far package and far link ID; none at 0xFFF, or before a record is read (R303). -/
def quifinFar (s : State) (id : Nat) : Option (Nat × Nat) :=
  let e := cfgBits s (64 + (id - 136) * 12) 12
  if s.cfg.isEmpty || e == 0xFFF then none else some (e % 16, e / 16)
/-- LINKENT.KIND (R261, R262). -/
def linkKind (id : Nat) : Nat := if id < 128 then 0 else if id < 136 then 1 else if id < 152 then 2 else 3
/-- End A and end B of a link (R261, R262). -/
def linkEnds (id : Nat) : Nat × Nat :=
  if id < 64 then
    let m := id / 8 * 8 + (id % 8 + 1) % 8
    (id, m)
  else if id < 128 then (id - 64, (id - 64 + 8) % 64)
  else if id < 136 then (8 * (id - 128), 0)
  else if id < 144 then (id - 136, 0)
  else if id < 152 then (id - 88, 0)
  else (0, 0)
/-- Lanes per direction (R263). -/
def linkLanes (id : Nat) : Nat := match linkKind id with | 0 => 64 | 1 => 16 | 2 => 8 | _ => 0
def getLink (s : State) (id : Nat) : Link := mget {} s.links id
def modLink (id : Nat) (f : Link → Link) (s : State) : State := { s with links := mput s.links id (f (getLink s id)) }
/-- LINKENT of a link (R262). -/
def linkEnt (s : State) (id : Nat) : DWord :=
  let l := getLink s id
  let rem := if linkKind id == 2 then ((quifinFar s id).map (·.1)).getD 0 else 0
  BitVec.ofNat 64 (l.state + b2n l.disable * 4 + linkKind id * 8 + (linkEnds id).1 * 32 + (linkEnds id).2 * 2048 + rem * 2 ^ 17 + l.downs.toNat * 2 ^ 32)

def qCode : QState → Nat
  | .unbound => 0
  | .active => 1
  | .stopped => 2
  | .faulted => 3
  | .killing => 4

/-- PCPWRSTAT of a field (R298). -/
def pcpwrStat (k : Field) : DWord :=
  let p := nbits k.pcpwr 0 5
  BitVec.ofNat 64 (p + mget 0 k.pchState p * 32 + k.pcpwrReq * 128 + b2n k.pcpwrErr * 512)

/-- The 8 bytes at an 8-aligned offset of the control space, as a secure reader sees them (R288). -/
def ctlRead (s : State) (off : Nat) : DWord :=
  let o := off % 2 ^ 20
  match off / 2 ^ 20 with
  | 0 =>
    if 0x1000 ≤ o then 0
    else
      let q := getQ s (o / 16)
      if o % 16 == 0 then q.rd ++ q.wr else BitVec.ofNat 64 (qCode q.state)
  | 2 =>
    match o with
    | 0x08 => s.trinvVa
    | 0x10 => s.trinvRoot
    | 0x20 => BitVec.ofNat 64 (b2n (!s.invals.isEmpty))
    | _ => 0
  | 3 =>
    if 0x20000 ≤ o || 0x200 ≤ o % 0x800 then 0
    else
      let w := getWin s (o / 0x800) (o % 0x800 / 0x20)
      match o % 0x20 with
      | 0 => w.ctl
      | 8 => w.enc
      | 0x10 => w.len
      | _ => w.scale
  | 4 =>
    if o < 0x4000 then mget 0 s.depctr (o / 4 + 1) ++ mget 0 s.depctr (o / 4)
    else if o < 0xC000 then (if o % 0x200 ≤ 0x78 then mget 0 (getFld s ((o - 0x4000) / 0x200)).evcnt (o % 0x200) else 0)
    else if o < 0x10000 then mget 0 s.pkgCnt (o - 0xC000)
    else if o < 0x14000 && o % 0x100 < 0x80 then
      let p : Perf := mget ({} : Perf) (getFld s ((o - 0x10000) / 0x100)).perf (o % 0x100 / 16)
      if o % 16 == 0 then p.sel else p.cnt.setWidth 64
    else 0
  | 5 =>
    if o < 0x800 then linkEnt s (o / 8)
    else if 0x1000 ≤ o && o < 0x3000 then
      let l := getLink s ((o - 0x1000) / 0x20)
      match o % 0x20 with
      | 0 => l.inj
      | 8 => l.injN
      | 0x10 => l.injC
      | _ => l.injF.setWidth 64
    else 0
  | 6 =>
    if o < 0x4000 && o % 0x100 == 0 then (getFld s (o / 0x100)).sense
    else if 0x8000 ≤ o && o < 0x8400 then
      let k := getFld s ((o - 0x8000) / 16)
      if o % 16 == 0 then k.pcpwr else pcpwrStat k
    else 0
  | 7 =>
    if o < 0x40 then bits s.meas (8 * o) 64
    else match o with
    | 0x40 => s.bootStat
    | 0x50 => s.wmapCmd
    | 0x58 => BitVec.ofNat 64 (b2n s.wmapBusy.isSome + 2 * b2n s.wmapErr)
    | _ => 0
  | 8 =>
    match o with
    | 0x00 => s.mbxOutBase
    | 0x08 => s.mbxOutCtl
    | 0x10 => s.mbxOutWr.setWidth 64
    | 0x18 => s.mbxOutRd.setWidth 64
    | 0x88 => BitVec.ofNat 64 (b2n s.mbxBusy + 2 * b2n s.mbxLost)
    | _ => if 0x40 ≤ o && o < 0x80 then bits s.mbxIn (8 * (o - 0x40)) 64 else 0
  | _ => 0

/-- `n` bytes of the control space from any offset. -/
def ctlBytes (s : State) (off n : Nat) : List Byte :=
  (upto n).map (fun i => let a := off + i; bits (ctlRead s (a / 8 * 8)) (8 * (a % 8)) 8)
/-- A register of access code SO (R6): the windows, the counters, the injectors, the governors and the world-map command (R249, R258, R283, R285, R287, R291, R298, R307). -/
def ctlSecureOnly (off : Nat) : Bool :=
  let o := off % 2 ^ 20
  match off / 2 ^ 20 with
  | 3 | 4 | 6 => true
  | 5 => decide (0x1000 ≤ o) && decide (o % 0x20 < 0x10)
  | 7 => decide (0x50 ≤ o) && decide (o < 0x60)
  | _ => false
/-- Registers that a non-secure access reaches: those of code SO, which it reads as zero and whose write raises PRIV (R6), and MEAS, which anyone may read (R305); any other
is closed to it (R145) (conventions: DEDUCED, assumption 106). -/
def ctlOpen (off n acc : Nat) : Bool := (upto n).all (fun i => ctlSecureOnly (off + i)) || (acc == 0 && 0x700000 ≤ off && off + n ≤ 0x700040)
/-- The same bytes for a reader of a world: a non-secure one reads zero in a register of code SO (R6). -/
def ctlSeen (sec : Bool) (s : State) (off n : Nat) : List Byte :=
  ((upto n).zip (ctlBytes s off n)).map (fun x => if !sec && ctlSecureOnly (off + x.1) then 0 else x.2)
/-- What the bytes of a register that a store does not reach are written with: as they read, but 0 to MBXINSTAT, whose ones clear (R6). -/
def ctlKeep (s : State) (base : Nat) : DWord := if base == 0x800088 then 0 else ctlRead s base
/-- The register writes that bytes written to the control space make: each 8-byte register touched. A store to QRDIDX alone, which is read-only, writes nothing
(R6) (conventions: DEDUCED, assumption 65). -/
def ctlWrites (s : State) (off : Nat) (bs : List Byte) : List (Nat × DWord) :=
  let first := off / 8
  let last := (off + bs.length - 1) / 8
  (upto (last - first + 1)).filterMap (fun i =>
    let base := (first + i) * 8
    let hit := fun (k : Nat) => decide (off ≤ base + k) && decide (base + k < off + bs.length)
    if base < 0x1000 && base % 16 == 0 && (upto 4).all (fun k => !hit k) then none
    else some (base, ofBytes 64 ((upto 8).map (fun k => if hit k then bs.getD (base + k - off) 0 else bits (ctlKeep s base) (8 * k) 8))))
/-- The device's register writes that bytes written to the control space make: a dependence counter by itself, any other register whole (conventions: DEDUCED, assumption 65). -/
def ctlEvents (s : State) (off : Nat) (bs : List Byte) : List Instr :=
  if 0x400000 ≤ off && off + bs.length ≤ 0x404000 && off % 4 == 0 && bs.length % 4 == 0 then
    (upto (bs.length / 4)).map (fun i => .depctrWrite ((off - 0x400000) / 4 + i) (ofBytes 32 ((bs.drop (4 * i)).take 4)))
  else (ctlWrites s off bs).map (fun w => .registerWrite w.1 w.2)

end Sys2Proof.Machine
end

