-- ==== Sys2Proof/Machine/Access.lean ====
section
/-! DEFINITION. Per-lane memory accesses: the five spaces (R124-R134, R137), points of coherence (R150, R155, R163), the causes of R408, faults into the
operand log (R59), replay (R61), and the backing area (R54). -/
namespace Sys2Proof.Machine

def modSlice (f i : Nat) (h : Slice → Slice) (s : State) : State :=
  let x := h (getSlice s f i)
  modFld f (fun k => { k with slices := mput k.slices i x }) s
/-- The LLC scratch ways of a field in the order of R137: (slice, way). -/
def lMap (s : State) (f : Nat) : List (Nat × Nat) :=
  (upto 8).flatMap (fun i => ((upto 16).filter (fun w => role (getSlice s f i).inForce w == 1)).map (fun w => (i, w)))

def padRead (s : State) (g off : Nat) : Byte := mget 0 (getCore s g).scratch off
/-- Bytes of scratchpads, numbered above the physical addresses. -/
def padKey (g off : Nat) : Nat := 2 ^ 60 + g * 2 ^ 18 + off
def padWrite (g off : Nat) (v : Byte) (s : State) : State :=
  modCore g (fun c => { c with scratch := if v = 0 then mdel c.scratch off else mput c.scratch off v }) (overtake (padKey g off / 128) (rangeMask (off % 128) 1) s)

-- Points of coherence (R150, R155) ---------------------------------------------------------------------------

/-- The dirty bytes of a cached line laid over what lies below: a thread sees its own earlier writes (R155). A word they cover whole has the poison of the cached line
alone (R140). -/
def overlay (c : SMap Line) (ln : Nat) (x : BitVec 1024 × BitVec 16) : BitVec 1024 × BitVec 16 :=
  match mfind c ln with
  | none => x
  | some l =>
    if l.dirty = 0 then x
    else (mergeBytes x.1 l.data l.dirty, (x.2 &&& ~~~wordMask (wordsWhole l.dirty)) ||| keepPoison l.dirty l.poison)
/-- The core's copies of some bytes, and for a read at the home the field's, go, dirty ones apart: a later load of the core is no older than the read (R155). -/
def readPast (g pt ln : Nat) (m : BitVec 128) (s : State) : State :=
  let s := modCore g (fun c => { c with l1 := dropRead m ln c.l1 }) s
  if pt == 1 then s else modFld (fieldOf g) (fun k => { k with rdc := dropRead m ln k.rdc }) s
/-- Read some bytes of a line at a point: 0 the L1, 1 the field-scope point, 2 the home, 3 the home alone, bypassing the issuing core's and field's copies (R360). -/
def readPoint (w : Bool) (g pt ln : Nat) (m : BitVec 128) (ro : Bool) (s : State) : (BitVec 1024 × BitVec 16) × State :=
  match pt with
  | 0 => l1Read w g ln m ro s
  | 1 => let (x, s) := fldRead w (fieldOf g) ln m s; (overlay (getCore s g).l1 ln x, readPast g pt ln m s)
  | 3 => homeRead ln (homeReq (some w) (fieldOf g) ln s)
  | _ => let (x, s) := homeRead ln (homeReq (some w) (fieldOf g) ln s)
    (overlay (getCore s g).l1 ln (if viaRdc (fieldOf g) ln then overlay (getFld s (fieldOf g)).rdc ln x else x), readPast g pt ln m s)
/-- Write bytes at a point; the core's and the field's own copies of them above it go. -/
def writePoint (w : Bool) (g pt ln : Nat) (d : BitVec 1024) (m : BitVec 128) (s : State) : State :=
  match pt with
  | 0 => l1Write g ln d m s
  | 1 => modCore g (fun c => { c with l1 := dropBytes m ln c.l1 }) (fldWrite (some w) (fieldOf g) ln d m s)
  | _ => modCore g (fun c => { c with l1 := dropBytes m ln c.l1 })
      (modFld (fieldOf g) (fun k => { k with rdc := dropBytes m ln k.rdc }) (homeWrite ln d m (homeReq (some w) (fieldOf g) ln s)))
/-- Before an atomic beyond the L1: the dirty bytes of its location go to its point, and the copies above go (R163). -/
def pushBytes (g pt ln : Nat) (m : BitVec 128) (s : State) : State :=
  if pt == 0 then s
  else
    let f := fieldOf g
    let l := mget emptyLine (getCore s g).l1 ln
    let s := if l.dirty &&& m = 0 then s else fldWrite none f ln l.data (l.dirty &&& m) s
    let s := modCore g (fun c => { c with l1 := dropBytes m ln c.l1 }) s
    if pt == 1 || !viaRdc f ln then s
    else
      let r := mget emptyLine (getFld s f).rdc ln
      let s := if r.dirty &&& m = 0 then s else homeWrite ln r.data (r.dirty &&& m) (homeReq none f ln s)
      modFld f (fun k => { k with rdc := dropBytes m ln k.rdc }) s
/-- The point of an access of a scope (R150). -/
def pointOf (scope : Nat) : Nat := min scope 2

-- Locations ------------------------------------------------------------------------------------------------------

/-- A resolved access. -/
inductive Loc where
  | g (pa : Nat)
  | sc (spots : List Spot)
  | l (off : Nat)
  deriving DecidableEq, Repr

/-- What resolving an access gives: a location, a trap, or a fault. -/
inductive Res where
  | loc (x : Loc)
  | trap (code : Nat)
  | fault (kind level pa : Nat)
  deriving DecidableEq, Repr

/-- An access: space, bytes, whether it must be aligned, 0 read or 1 write, the kind of R84 and of R229, whether it is an atomic, whether it
consumes what it reads and at which point, whether it is an acquire, and, where it may cross a 128-byte block, its own alignment. -/
structure Req where
  space  : Nat
  n      : Nat
  align  : Bool
  acc    : Nat
  detail : Nat
  code   : Nat
  atomic : Bool := false
  consume : Bool := true
  pt     : Nat := 0
  acq    : Bool := false
  al     : Nat := 0
  deriving DecidableEq, Repr

/-- Poisoned words of scratch storage under an access (R140). -/
def spotsPoison (s : State) (ps : List Spot) : Bool :=
  ps.any (fun p => match p with | .pad g off => (getCore s g).scratchErr.any (fun e => e.2 && e.1 == off / 8) | _ => false)
def lWay (s : State) (f off : Nat) : Nat × Nat := (lMap s f).getD (off / 2 ^ 20) (0, 0)
def lPoison (s : State) (f off n : Nat) : Bool :=
  (upto n).any (fun i => let a := off + i; let (sl, w) := lWay s f a
    (getSlice s f sl).scratchErr.any (fun e => e.2 && e.1 == (w * 2 ^ 20 + a % 2 ^ 20) / 8))

/-- An access has reached a physical address: it meets a fault where it would consume a poisoned word (R140). -/
def reached (g b : Nat) (q : Req) (pa : Nat) (s : State) : Res :=
  if q.consume && poisonOf (readPoint (secureOf s b) g q.pt (pa / 128) (rangeMask (pa % 128) q.n) false s).1.2 (pa % 128) q.n then .fault kPoison 0 pa else .loc (.g pa)
/-- A global access that meets a world violation (R145, R226): WORLD, unless it is to control-space registers that the non-secure world reaches: a read gives what `ctlSeen`
does, a write raises PRIV (R6, R305) (conventions: DEDUCED, assumption 106). -/
def ctlAccess (g b : Nat) (q : Req) (addr : Nat) (s : State) : Res × State :=
  match translate (.core g) (rootOf s b) true (BitVec.ofNat 64 addr) 0 s with
  | (.ok pa, s') =>
    match target pa with
    | .ctl off => if ctlOpen off q.n q.acc then (if q.acc == 1 then .trap cPriv else .loc (.g pa), s') else (.trap cWorld, s)
    | _ => (.trap cWorld, s)
  | _ => (.trap cWorld, s)
/-- The causes 2 to 4 of R408 for one access. A POISON fault of a word of scratch storage, which has no physical address, reports PA 0 (conventions: DESIGN CHOICE, assumption
119). -/
def resolve (g b : Nat) (q : Req) (addr : Nat) (s : State) : Res × State :=
  if (if q.al != 0 then addr % q.al != 0 else (q.align && addr % q.n != 0) || 128 < addr % 128 + q.n) then (.trap cMisalign, s)
  else match q.space with
  | 0 =>
    match translate (.core g) (rootOf s b) (secureOf s b) (BitVec.ofNat 64 addr) q.acc s with
    | (.fault k l p, s) => (.fault k l p, s)
    | (.world, s) => ctlAccess g b q addr s
    | (.noexec, s) => (.trap cWorld, s)
    | (.ok pa, s) =>
      match target pa with
      | .viewOf _ _ _ =>
        if q.atomic then (.trap cAliasAtomic, s) else (reached g b q pa s, s)
      | .ctl _ => (.loc (.g pa), s)
      | _ => (reached g b q pa s, s)
  | 4 =>
    let f := fieldOf g
    if (lMap s f).length * 2 ^ 20 < addr + q.n then (.trap cLscratch, s)
    else if (getFld s f).scrWorld != some (secureOf s b) then (.trap cWorld, s)
    else if q.consume && lPoison s f addr q.n then (.fault kPoison 0 0, s)
    else (.loc (.l addr), s)
  | sp =>
    let ps := spots s b sp addr q.n
    if ps.contains .world then (.trap cWorld, s)
    else if q.consume && spotsPoison s ps then (.fault kPoison 0 0, s)
    else (.loc (.sc ps), s)

/-- Bytes read at a location for a requester of a world. -/
def rdLoc (w : Bool) (g pt : Nat) (ro : Bool) (x : Loc) (n : Nat) (s : State) : List Byte × State :=
  match x with
  | .g pa =>
    match target pa with
    | .ctl off => (ctlSeen w s off n, s)
    | _ => let ((d, _), s) := readPoint w g pt (pa / 128) (rangeMask (pa % 128) n) ro s; (lineBytes d (pa % 128) n, s)
  | .sc ps => (ps.map (fun p => match p with | .pad k off => padRead s k off | _ => 0), s)
  | .l off => ((upto n).map (fun i => let (sl, w) := lWay s (fieldOf g) (off + i)
      mget 0 (getSlice s (fieldOf g) sl).scratch (w * 2 ^ 20 + (off + i) % 2 ^ 20)), s)
/-- Words of scratch storage that a write covers whole lose their poison (R140) (conventions: DEDUCED, assumption 88). -/
def spotsClean (ps : List Spot) (s : State) : State :=
  ps.foldl (fun s p => match p with
    | .pad g off => if (getCore s g).scratchErr.isEmpty then s
      else if (upto 8).all (fun i => ps.contains (.pad g (off / 8 * 8 + i))) then modCore g (fun c => { c with scratchErr := c.scratchErr.filter (fun e => e.1 != off / 8) }) s
      else s
    | _ => s) s
/-- Write bytes at a location, for a requester of a world. A write to the control space becomes the register writes it makes, which the device performs next. -/
def wrLoc (w : Bool) (g pt : Nat) (x : Loc) (bs : List Byte) (s : State) : State :=
  match x with
  | .g pa =>
    match target pa with
    | .ctl off => { s with agenda := s.agenda ++ (ctlEvents s off bs).map .event }
    | _ => writePoint w g pt (pa / 128) (lineWith bs (pa % 128)) (rangeMask (pa % 128) bs.length) s
  | .sc ps =>
    spotsClean ps ((ps.zip bs).foldl (fun s (p, v) => match p with | .pad k off => padWrite k off v s | _ => s) s)
  | .l off =>
    ((upto bs.length).zip bs).foldl (fun s (i, v) =>
      let f := fieldOf g
      let (sl, w) := lWay s f (off + i)
      let key := w * 2 ^ 20 + (off + i) % 2 ^ 20
      modSlice f sl (fun k => { k with
        scratch := if v = 0 then mdel k.scratch key else mput k.scratch key v
        scratchErr := if off ≤ (off + i) / 8 * 8 && (off + i) / 8 * 8 + 8 ≤ off + bs.length then k.scratchErr.filter (fun e => e.1 != key / 8) else k.scratchErr }) s) s
/-- The location exists: an atomic outside the extent changes nothing (R125). -/
def locThere : Loc → Bool
  | .sc ps => ps.all (fun p => p != .none)
  | _ => true

-- The lanes of an instruction ----------------------------------------------------------------------------------------

/-- A lane with its address. -/
abbrev LaneAt := (Nat × Nat) × Nat

def resolveAll (g b : Nat) (q : Req) : List LaneAt → State → List (LaneAt × Res) × State
  | [], s => ([], s)
  | x :: rest, s =>
    let (r, s) := resolve g b q x.2 s
    let (rs, s) := resolveAll g b q rest s
    ((x, r) :: rs, s)
/-- The pages an entry records (R165). -/
def lanePages (s : State) (b : Nat) (q : Req) (ls : List LaneAt) : List Nat := (ls.flatMap (fun l => pageKeys s b q.space l.2 q.n)).eraseDups

/-- The fault, or the location, that a lane's access met. -/
def resFault (r : LaneAt × Res) : Option (LaneAt × Nat × Nat × Nat) := match r.2 with | .fault k l p => some (r.1, k, l, p) | _ => none
def resLoc (r : LaneAt × Res) : Option (LaneAt × Loc) := match r.2 with | .loc x => some (r.1, x) | _ => none
/-- At a replay the access keeps the entry: a fault, a world violation, or an alias address for an atomic (R61, R408). -/
def resKeeps (r : LaneAt × Res) : Bool := match r.2 with | .fault _ _ _ => true | .trap code => code == cWorld || code == cAliasAtomic | .loc _ => false
/-- A lane's access that traps raises its cause. -/
def resRaise (c : Ctx) (q : Req) (s : State) (r : LaneAt × Res) : State :=
  match r.2 with
  | .trap code => raiseAt c c.pc [r.1.1] code (if code == cPriv then 0 else q.detail) (fun _ => BitVec.ofNat 64 r.1.2) s
  | _ => s
/-- Every access of an instruction (R408, R59, R61): traps, faults into one operand-log entry, and `perform` on the lanes that resolve. `marked`:
the ranks whose destinations are marked; none: the faulted ones. With a page walk that a pseudo-channel holds, the instruction waits (R147, R148) (conventions: DEDUCED,
assumption 95). -/
def accessLanes (c : Ctx) (i : Instr) (q : Req) (dests : List Nat) (marked : Option (List Nat)) (lanes : List LaneAt)
    (perform : List (LaneAt × Loc) → State → State) (s : State) : Fin :=
  let (rs, s1) := resolveAll c.g c.blk q lanes s
  if !(heldReach s s1).isEmpty then .stall
  else match c.entry with
  | some _ =>
    match rs.find? resKeeps with
    | some (x, .fault k l p) => .refault k l p (BitVec.ofNat 64 x.2) q.code
    | some (x, .trap code) => .refault (if code == cWorld then kWorld else kAlias) (if q.space == 0 then leafLevel s c.g c.blk x.2 else 0) 0 (BitVec.ofNat 64 x.2) q.code
    | _ => .done (perform (rs.filterMap resLoc) (rs.foldl (resRaise c q) s1))
  | none =>
    let faults := rs.filterMap resFault
    if !faults.isEmpty && c.fill.isNone && !logRoom s c then .suspend
    else
      let s1 := rs.foldl (resRaise c q) s1
      let s1 := match faults with
        | [] => s1
        | (x, k, l, p) :: _ =>
          let ranks := faults.map (fun f => f.1.1.2)
          let pages := lanePages s1 c.blk q (faults.map (·.1))
          (match c.fill with
           | none => takeEntry c i ranks (marked.getD ranks) dests k l p q.code (BitVec.ofNat 64 x.2) pages q.acq s1
           | some id => joinEntry c id ranks (marked.getD ranks) dests k l p q.code (BitVec.ofNat 64 x.2) pages s1)
      .done (perform (rs.filterMap resLoc) s1)

-- The backing area (R53, R54) ------------------------------------------------------------------------------------------

/-- The resident block, thread and register whose backing bytes an address names (R53). -/
def backingAt (s : State) (root va : Nat) : Option (Nat × Nat × Nat) :=
  match s.blocks.find? (fun e => resident e.2 && rootOf s e.1 / 4096 == root / 4096 && e.2.backing.toNat ≤ va && va < e.2.backing.toNat + e.2.threads * 1024) with
  | some e =>
    let o := va - e.2.backing.toNat
    let q := o / (e.2.threads * 32)
    some (e.1, o % (e.2.threads * 32) / 32, q * 8 + o % 32 / 4)
  | none => none
/-- Bytes loaded from a resident block's backing area are undefined (R54, R9). -/
def backingFree (s : State) (root va : Nat) (bs : List Byte) : List Byte :=
  ((upto bs.length).zip bs).map (fun (i, b) => if (backingAt s root (va + i)).isSome then Config.freeByte (s.free * 2 ^ 64 + (va + i)) else b)
/-- A store to a resident block's backing area leaves the registers it covers undefined (R54). -/
def backingStore (root va n : Nat) (s : State) : State :=
  let hits := ((upto n).filterMap (fun i => backingAt s root (va + i))).eraseDups
  hits.foldl (fun s (b, r, reg) =>
    let (w, s) := freeW s
    modTh b r (fun t => { t with vregs := mput t.vregs reg w, spilled := t.spilled.filter (· != reg) }) s) s

end Sys2Proof.Machine
end

