-- ==== Sys2Proof/Machine/Image.lean ====
section
/-! DEFINITION. The context image (R94-R96): CRC-32C, the image of a block as bytes, its writing to the context pool, and the checks of R96. Its layout after
the header is private to the device (conventions: DESIGN CHOICE, assumption 36). -/
namespace Sys2Proof.Machine

-- Virtual ranges of the Terminus (R146) ----------------------------------------------------------------------------

/-- Translate an address for the Terminus under a region. -/
def termXl (region : Nat) (va : DWord) (acc : Nat) (s : State) : Option Nat × State :=
  match translate .term (regRoot s region) (regSecure s region) va acc s with
  | (.ok pa, s) => (some pa, s)
  | (_, s) => (none, s)
/-- Write bytes from a virtual address up, in pieces that no page cuts; none where a piece has no translation. -/
def termPuts (region : Nat) : Nat → DWord → List Byte → State → Option State
  | 0, _, _, s => some s
  | fuel + 1, va, bs, s =>
    let k := 2048 - nbits va 0 11
    if bs.isEmpty then some s
    else match termXl region va 1 s with
      | (some pa, s) => termPuts region fuel (va + BitVec.ofNat 64 k) (bs.drop k) (homePuts pa (bs.take k) s)
      | (none, _) => none
/-- Bytes read from a virtual address up; none where a piece has no translation or is poisoned. -/
def termGets (region : Nat) : Nat → DWord → Nat → State → Option (List Byte) × State
  | 0, _, _, s => (some [], s)
  | fuel + 1, va, n, s =>
    let k := min n (2048 - nbits va 0 11)
    if n == 0 then (some [], s)
    else match termXl region va 0 s with
      | (none, s) => (none, s)
      | (some pa, s) =>
        match homeGets pa k s with
        | (_, true, s) => (none, s)
        | (bs, false, s) =>
          let (rest, s) := termGets region fuel (va + BitVec.ofNat 64 k) (n - k) s
          (rest.map (fun r => bs ++ r), s)

-- CRC-32C (R96) -----------------------------------------------------------------------------------------------------

/-- One bit of the reflected CRC-32C (conventions: PRESUMED, assumption 104). -/
def crcBit (c : Word) : Word := if bit c 0 then (c >>> 1) ^^^ 0x82F63B78 else c >>> 1
def crcByte (c : Word) (b : Byte) : Word := (upto 8).foldl (fun c _ => crcBit c) (c ^^^ b.setWidth 32)
/-- CRC-32C of bytes. -/
def crc32c (bs : List Byte) : Word := ~~~(bs.foldl crcByte (BitVec.allOnes 32))

-- The image (R94, R96) ------------------------------------------------------------------------------------------------

/-- Bytes whose content is private to the device (conventions: DESIGN CHOICE, assumption 36). -/
def privBytes (n : Nat) (s : State) : List Byte × State := ((upto n).map (fun i => Config.freeByte (s.free + i)), { s with free := s.free + n })
/-- Scalar and predicate registers of a thread (257 bytes), and its trap registers (24 bytes). -/
def threadBytes (t : Thread) : List Byte := (upto 64).flatMap (fun i => toBytes 4 (mget 0 t.sregs i)) ++ toBytes 1 t.preds
def trapBytes (t : Thread) : List Byte := toBytes 4 t.cause ++ toBytes 8 t.trappc ++ toBytes 8 t.trapva ++ toBytes 4 t.keptRep
/-- Accumulator tiles, 4 KiB each. -/
def tileBytes (k : Block) : List Byte := (upto (k.accs * 1024)).flatMap (fun i => toBytes 4 (mget 0 k.acc i))
/-- Offset of the accumulator tiles in an image: they follow the header. -/
abbrev tilesAt : Nat := 16
/-- Size of an image with some number of consists, header included (R94) (conventions: DESIGN CHOICE, assumption 36). -/
def imageLen (threads consists scratch accs recs tags : Nat) : Nat :=
  tilesAt + accs * 4096 + threads * (257 + 32 + 24 + 8) + consists * 768 + 8 + scratch + recs * 128 + tags * 16 + 2048
/-- The header of an image (R96). -/
def ctxHeader (len : Nat) (crc : Word) (threads : Nat) : List Byte :=
  toBytes 16 (BitVec.ofNat 128 (0x5346 + 0x01 * 2 ^ 16 + len * 2 ^ 32 + crc.toNat * 2 ^ 64 + threads * 2 ^ 96))
/-- The image of a block that holds `scratch` in its grant and has `n` consists: each item of R94 in turn (conventions: DESIGN CHOICE, assumption 36). -/
def imageOf (k : Block) (scratch : SMap Byte) (n : Nat) (s : State) : List Byte × State :=
  let ths := k.members.map (·.2)
  let (yard, s) := privBytes (32 * ths.length) s
  let (cons, s) := privBytes (768 * n + 8 * ths.length) s
  let (rest, s) := privBytes (16 * k.tags.length + 2048) s
  let body := tileBytes k ++ ths.flatMap threadBytes ++ yard ++ ths.flatMap trapBytes ++ cons ++ toBytes 8 (BitVec.ofNat 64 k.winStart) ++
    (upto k.scratchSize).map (fun i => mget 0 scratch i) ++ k.recs.flatMap (fun r => toBytes 128 r.bits) ++ rest
  let len := tilesAt + body.length
  (ctxHeader len (crc32c (ctxHeader len 0 k.threads ++ body)) k.threads ++ body, s)
/-- The checks of R96 on the image at a block's handle: MAGIC, VERSION, reserved fields, and the CRC of LENGTH bytes. An image that cannot be read whole, or
whose LENGTH is out of the block's allotment, fails (conventions: DESIGN CHOICE, assumption 36). -/
def ctxGood (b : Nat) (s : State) : Bool × State :=
  let k := getBlk s b
  match termGets k.region 4 k.handle 16 s with
  | (none, s) => (false, s)
  | (some h, s) =>
    let w : BitVec 128 := ofBytes 128 h
    let len := nbits w 32 32
    if nbits w 0 32 != 0x00015346 || nbits w 108 20 != 0 || len < 16 || imageLen k.threads 64 k.scratchSize k.accs k.recs.length k.tags.length < len then (false, s)
    else match termGets k.region 1000 (k.handle + 16) (len - 16) s with
      | (none, s) => (false, s)
      | (some body, s) => (crc32c (h.take 8 ++ List.replicate 4 0 ++ h.drop 12 ++ body) == (bits w 64 32 : Word), s)

end Sys2Proof.Machine
end

