-- ==== Sys2Proof/Machine/Control.lean ====
section
/-! DEFINITION. The control group (R347-R373), `trsync` and `tlbinv` (R233-R236), and the events of the yard's waits. -/
namespace Sys2Proof.Machine

-- Transfers (R349-R351) ----------------------------------------------------------------------------------------

/-- `nop` (R355). -/
def effNop (_ : FmtA) (_ : Ctx) (s : State) : Fin := .done s
/-- Set the next PC of each active thread (R349). -/
def jump (c : Ctx) (dst : Nat × Nat → DWord) (s : State) : State :=
  c.active.foldl (fun s l => modTh c.blk l.2 (fun t => { t with nextPc := some (dst l), via := .branch }) s) s
/-- The slot IMM32 slots away (R349). -/
def relTarget (c : Ctx) (imm : BitVec 32) : DWord := slotAddr (slotNum c.pc + imm.toInt)
/-- The value of the A pair. -/
def pairA (c : Ctx) (f : FmtA) (l : Nat × Nat) : DWord := BitVec.ofNat 64 (src64 c l.2 f.a)
def effBr (f : FmtI) (c : Ctx) (s : State) : Fin := .done (jump c (fun _ => relTarget c f.imm) s)
def effBrx (f : FmtA) (c : Ctx) (s : State) : Fin := .done (jump c (pairA c f) s)
def effCall (f : FmtI) (c : Ctx) (s : State) : Fin :=
  .done (jump c (fun _ => relTarget c f.imm) (writeLanes c f.d 2 (fun _ => (nextSlot c.pc).toNat) s))
def effCallx (f : FmtA) (c : Ctx) (s : State) : Fin :=
  .done (jump c (pairA c f) (writeLanes c f.d 2 (fun _ => (nextSlot c.pc).toNat) s))
def effRet (f : FmtA) (c : Ctx) (s : State) : Fin := .done (jump c (pairA c f) s)
/-- `exit` (R350). -/
def effExit (_ : FmtA) (c : Ctx) (s : State) : Fin :=
  .done (modClause c.g c.cn (fun cl => { cl with exits := cl.exits ++ c.active.map (·.2) }) s)
/-- `trap` (R351). -/
def effTrap (f : FmtI) (c : Ctx) (s : State) : Fin :=
  .done (raiseAt c (nextSlot c.pc) c.active cTrap (nbits f.imm 0 8) (fun _ => 0) s)
/-- `tret` (R351, R86). -/
def effTret (_ : FmtA) (c : Ctx) (s : State) : Fin :=
  .done (c.active.foldl (fun s l =>
    if (getTh s c.blk l.2).trap == .handler then modTh c.blk l.2 leaveHandler s else raise c [l] cIllegalOp s) s)

-- Marshalling, yielding, repeating (R352-R357) --------------------------------------------------------------------

def effMarshal (_ : FmtA) (c : Ctx) (s : State) : Fin := .done (modClause c.g c.cn (fun cl => { cl with marshalled := true }) s)
def effMarshalRank (_ : FmtA) (c : Ctx) (s : State) : Fin :=
  let rs := (c.active.map (·.2)).filter (fun r => (getTh s c.blk r).trap != .handler)
  .done (modClause c.g c.cn (fun cl => { cl with marshalled := true, rankWait := cl.rankWait ++ rs }) s)
/-- `yield` (R354): its AGE cycles count from the clause's end. -/
def effYield (_ : FmtA) (c : Ctx) (s : State) : Fin := .done (modClause c.g c.cn (fun cl => { cl with yielded := true }) s)
/-- YIELD_EXPIRY: the AGE cycles of a yielded consist have passed (R354). -/
def execYieldExpiry (core cn : Nat) (s : State) : Host.Outcome State Fault Refusal :=
  match consistOf s core cn with
  | some k =>
    match k.yieldUntil with
    | some t => .next (modConsist core cn (fun k => { k with yieldUntil := none }) (setNow (fieldOf core) t s))
    | none => .next s
  | none => .next s
/-- The instruction after a `repeat` breaks R356 by its words alone. -/
def repeatBad (f : FmtI) (w : IWord) : Bool :=
  let i := decodeWord w
  !(f.g.neg == 0 && f.g.pred == 7) || !repeatable i || !stepOk (bits f.mods 0 4) (nbits f.mods 7 4 + 1) i
/-- `repeat` (R356, R357). -/
def effRepeatN (f : FmtI) (c : Ctx) (s : State) : Fin :=
  let first := ((membersOf c.slots).map (·.2)).headD 0
  let count := if bit f.mods 4 then min (regOf c first f.a.toNat).toNat 65535 else nbits f.imm 0 16
  if count == 0 then
    let w := match (consistOf s c.g c.cn).bind (·.clause) with
      | some cl => cl.words.getD (2 + cl.issued) 0
      | none => 0
    let s := if repeatBad f w then raiseAt c (nextSlot c.pc) c.exec cIllegalEnc 0 (fun _ => 0) s else s
    .done (modClause c.g c.cn (fun cl => { cl with issued := cl.issued + 1 }) s)
  else .done (modClause c.g c.cn (fun cl =>
    { cl with rep := some { total := count, done := 0, step := nbits f.mods 7 4 + 1, mask := bits f.mods 0 4
                            guarded := !(f.g.neg == 0 && f.g.pred == 7) } }) s)

-- Sleep and address waits (R359-R362) ------------------------------------------------------------------------------

/-- `sleep` (R359): its cycles count from the clause's end (conventions: DEDUCED, assumption 28). -/
def effSleep (f : FmtA) (c : Ctx) (s : State) : Fin :=
  .done (c.active.foldl (fun s l =>
    let n := src32 c l.2 f.a f.imm
    if n == 0 then s else beginWait c.blk l.2 (.doze n) s) s)
def sleepOf : Wait → Option Nat
  | .sleep d => some d
  | _ => none
/-- SLEEP_EXPIRY: a sleeping thread's cycles have passed (R359). -/
def execSleepExpiry (blk rank : Nat) (s : State) : Host.Outcome State Fault Refusal :=
  let t := getTh s blk rank
  match t.waits.findSome? sleepOf with
  | some d =>
    if resident (getBlk s blk) && (t.place == .waiting || t.place == .rankWait) then
      .next (endWait blk rank (fun w => w == .sleep d) (setNow (fieldOf (getBlk s blk).core) d s))
    else .next s
  | none => .next s

/-- Register a watch (R361); a full table wakes the oldest one. -/
def addWatch (w : Watch) (s : State) : State :=
  match homeOf w.pa with
  | some f =>
    let l := (getFld s f).watches
    if l.length < 2048 then modFld f (fun k => { k with watches := k.watches ++ [w] }) s
    else
      let s := modFld f (fun k => { k with watches := k.watches.drop 1 ++ [w] }) s
      match l with | o :: _ => wakeOne o s | [] => s
  | none =>
    let l := s.hostWatches
    if l.length < 1024 then { s with hostWatches := l ++ [w] }
    else
      let s := { s with hostWatches := l.drop 1 ++ [w] }
      match l with | o :: _ => wakeOne o s | [] => s
/-- `waitaddr` (R360): at a replay it compares, registers nothing and does not wait. -/
def effWaitaddr (f : FmtM) (c : Ctx) (s : State) : Fin :=
  let n := widthOf f
  accessLanes c (.waitaddr f) { space := 0, n := n, align := true, acc := 0, detail := 0, code := 0, pt := 3 } [] none
    (c.active.map (fun l => (l, addrM c f l))) (fun ls s =>
      if c.entry.isSome then s
      else ls.foldl (fun s (x : LaneAt × Loc) =>
        match x.2 with
        | .g pa =>
          let r := x.1.1.2
          let (bs, s) := rdLoc (secureOf s c.blk) c.g 3 false (.g pa) n s
          if (ofBytes 64 bs).toNat == dataVal c f r % 2 ^ (8 * n) then
            let s := addWatch { id := s.nextId, pa := pa, blk := c.blk, rank := r } s
            beginWait c.blk r (.address s.nextId) { s with nextId := s.nextId + 1 }
          else s
        | _ => s) s) s
/-- Wake up to `n` watches on a physical address, oldest first (R362). -/
def wakeAt (pa : Nat) (n : Option Nat) (s : State) : State :=
  let pickW := fun (l : List Watch) => let hit := l.filter (fun w => w.pa == pa); match n with | some k => hit.take k | none => hit
  match homeOf pa with
  | some f =>
    let ws := pickW (getFld s f).watches
    ws.foldl (fun s w => wakeOne w s) (modFld f (fun k => { k with watches := k.watches.filter (fun w => !ws.contains w) }) s)
  | none =>
    let ws := pickW s.hostWatches
    ws.foldl (fun s w => wakeOne w s) { s with hostWatches := s.hostWatches.filter (fun w => !ws.contains w) }
/-- `wakeaddr` (R362). -/
def effWakeaddr (f : FmtM) (c : Ctx) (s : State) : Fin :=
  accessLanes c (.wakeaddr f) { space := 0, n := widthOf f, align := true, acc := 0, detail := 5, code := 8, consume := false } [] none
    (c.active.map (fun l => (l, addrM c f l))) (fun ls s =>
      ls.foldl (fun s (x : LaneAt × Loc) =>
        match x.2 with
        | .g pa => wakeAt pa (if f.data = null then none else some (srcVal c x.1.1.2 10 f.data 0)) s
        | _ => s) s) s

-- Windows and barriers (R363-R365) ------------------------------------------------------------------------------------

def effPreemptOff (_ : FmtA) (c : Ctx) (s : State) : Fin :=
  let rs := c.active.map (·.2)
  .done (modBlk c.blk (fun k => { k with
    winStart := if k.holders.isEmpty then nowOf s c.g else k.winStart
    holders := k.holders ++ rs.filter (fun r => !k.holders.contains r) }) s)
def effPreemptOn (_ : FmtA) (c : Ctx) (s : State) : Fin :=
  .done (c.active.foldl (fun s l => leaveWindow c.blk l.2 s) s)
/-- PREEMPT_OVERRUN: an open window reaches its bound (R91). -/
def execPreemptOverrun (blk : Nat) (s : State) : Host.Outcome State Fault Refusal :=
  let k := getBlk s blk
  if k.holders.isEmpty || !resident k then .next s
  else
    let f := fieldOf k.core
    let s := evAdd f 0x78 1 (setNow f (k.winStart + 65536) s)
    let s := k.holders.foldl (fun s r => queueDeferred blk r cOverrun 0 0 s) s
    .next (modBlk blk (fun k => { k with holders := [] }) s)
def effBar (f : FmtA) (c : Ctx) (s : State) : Fin :=
  .done (c.active.foldl (fun s l => barrierWait c.blk l.2 (nbits f.imm 0 4) s)
    (c.active.foldl (fun s l => arrive c.blk l.2 (nbits f.imm 0 4) (nbits f.imm 4 12) s) s))
def effBara (f : FmtA) (c : Ctx) (s : State) : Fin :=
  .done (c.active.foldl (fun s l => arrive c.blk l.2 (nbits f.imm 0 4) (nbits f.imm 4 12) s) s)
def effBarw (f : FmtA) (c : Ctx) (s : State) : Fin :=
  .done (c.active.foldl (fun s l => barrierWait c.blk l.2 (nbits f.imm 0 4) s) s)

-- Allotment (R366, R367, R63) ------------------------------------------------------------------------------------------

/-- Set the allotment of every thread of a block (R63), with its charge (R256). -/
def setAllot (b n : Nat) (s : State) : State :=
  let k := getBlk s b
  let s := chargePath k.region 0 (((n : Int) - k.allot) * 4 * k.threads) s
  let lo := min n k.allot
  modBlk b (fun k => { k with
    allot := n
    members := k.members.map (fun e => (e.1, { e.2 with
      vregs := e.2.vregs.filter (fun v => v.1 < lo), marks := e.2.marks.filter (fun m => m.1 < lo || 256 ≤ m.1)
      spilled := e.2.spilled.filter (· < lo), pinned := e.2.pinned.filter (fun p => p.1 * 8 < lo), regErr := e.2.regErr.filter (fun v => v.1 < lo) })) }) s
/-- The new allotment of a request that raises it: 0 `grow`, 1 `growa` (R366). -/
def growTo (kind cur x : Nat) : Nat :=
  let u := roundUp x 8
  if kind == 0 then min 256 (cur + u) else min 256 (max cur u)
/-- The request's BACKING charge fits on the whole region path (R257, R367). -/
def growFits (s : State) (b n : Nat) : Bool :=
  let k := getBlk s b
  n ≤ k.allot || backingRoom s k.region ((n - k.allot) * 4 * k.threads)
/-- Re-evaluate one waiting request (R367) (conventions: DEDUCED, assumption 27). -/
def growTry (b id : Nat) (s : State) : State :=
  match (getBlk s b).grows.find? (fun q => q.id == id) with
  | none => s
  | some q =>
    let n := growTo q.kind (getBlk s b).allot q.x
    if growFits s b n then
      let s := setAllot b n s
      let s := lateResult b q.ranks q.d (BitVec.ofNat 32 n) q.out q.entry (modBlk b (fun k => { k with grows := k.grows.filter (fun r => r.id != id) }) s)
      q.ranks.foldl (fun s r => endWait b r (fun w => w == .grow id) s) s
    else s
/-- Backing has been returned: each block's oldest waiting request is re-evaluated, and the next ones after it, oldest first (R366, R367) (conventions: DEDUCED, assumption 27). -/
def growWake (s : State) : State :=
  let all := s.blocks.flatMap (fun e => if e.2.phase == .killed then [] else e.2.grows.map (fun q => (q.id, e.1)))
  (sortBy (fun (x : Nat × Nat) => x.1) all).foldl (fun s x => if ((getBlk s x.2).grows.head?.map (·.id)) == some x.1 then growTry x.2 x.1 s else s) s
/-- The operand of a consist instruction: the lowest-slot active thread's. -/
def lead (c : Ctx) : Nat := ((firstOf c).map (·.2)).getD 0
/-- Conventions: DEDUCED, assumption 27. -/
def growReq (kind : Nat) (f : FmtA) (c : Ctx) (s : State) : Fin :=
  let x := src32 c (lead c) f.a f.imm
  let n := growTo kind (getBlk s c.blk).allot x
  if (getBlk s c.blk).grows.isEmpty && growFits s c.blk n then .done (writeLanes c f.d 1 (fun _ => n) (setAllot c.blk n s))
  else
    let id := s.nextId
    let rs := c.active.map (·.2)
    let q : GrowReq := { id := id, kind := kind, x := x, d := f.d, ranks := rs, pc := c.pc, since := nowOf s c.g, out := id, entry := c.entry }
    let s := modBlk c.blk (fun k => { k with grows := k.grows ++ [q] }) { s with nextId := id + 1 }
    .done (pendOut c id true false (rs.foldl (fun s r => beginWait c.blk r (.grow id) s) s))
def effGrow (f : FmtA) (c : Ctx) (s : State) : Fin := growReq 0 f c s
def effGrowa (f : FmtA) (c : Ctx) (s : State) : Fin := growReq 1 f c s
def effShrink (f : FmtA) (c : Ctx) (s : State) : Fin :=
  let n := max 8 ((getBlk s c.blk).allot - roundUp (src32 c (lead c) f.a f.imm) 8)
  .done (growWake (writeLanes c f.d 1 (fun _ => n) (setAllot c.blk n s)))
def effShrinka (f : FmtA) (c : Ctx) (s : State) : Fin :=
  let n := max 8 (min (getBlk s c.blk).allot (roundUp (src32 c (lead c) f.a f.imm) 8))
  .done (growWake (writeLanes c f.d 1 (fun _ => n) (setAllot c.blk n s)))
/-- GROW_STARVED: a waiting request has waited 2^20 local cycles of residence (R367). A thread that has left its block meanwhile takes nothing; of one whose clause has not ended
the cause waits for that end (conventions: DEDUCED, assumption 27). -/
def execGrowStarved (blk req : Nat) (s : State) : Host.Outcome State Fault Refusal :=
  let k := getBlk s blk
  match k.grows.find? (fun q => q.id == req) with
  | none => .next s
  | some q =>
    if k.phase != .resident then .next s
    else
      let f := fieldOf k.core
      let s := setNow f (q.since + 2 ^ 20).toNat s
      let s := modBlk blk (fun k => { k with grows := k.grows.filter (fun r => r.id != req) }) s
      let s := (q.ranks.filter (fun r => (getTh s blk r).live)).foldl (fun s r =>
        let s := recordTrap blk r cGrowStarved 0 q.pc 0 none (modTh blk r (fun t => { t with outs := t.outs.filter (fun o => o.id != q.out) }) s)
        endWait blk r (fun w => w == .grow req) (takeRaised blk r s)) s
      .next (growWake (match q.entry with | some e => dropEntry blk e s | none => s))

-- Special registers (R66-R68, R368) ---------------------------------------------------------------------------------------

/-- Entries of the yoke FIFO toward the partner, and of the one from it (R77, R78). -/
def fifoTo (s : State) (g : Nat) : List YEntry :=
  if (getFld s (fieldOf g)).gated then (mget [] (getFld s (fieldOf g)).yokeBuf (g % 128)).filter (fun y => y.up == (g % 256 < 128))
  else (getCore s g).fifo
def fifoFrom (s : State) (g : Nat) : List YEntry :=
  if (getFld s (fieldOf g)).gated then (mget [] (getFld s (fieldOf g)).yokeBuf (g % 128)).filter (fun y => y.up != (g % 256 < 128))
  else (getCore s (partner g)).fifo
/-- TAGREC (R281). -/
def tagRec (k : Block) : Nat :=
  match k.tags.find? (fun t => t.set && nbits t.crec 0 8 != 0) with
  | some t => t.crec.toNat
  | none => 0
/-- OPLOG (R62). -/
def opLog (es : List LogEntry) : Nat :=
  es.foldl (fun n e => n + b2n e.waiting * 2 ^ (8 + e.slot) + b2n e.refaulted * 2 ^ (16 + e.slot)) es.length
/-- SLOTMAP (R76). -/
def slotMap (c : Ctx) : Nat :=
  let ms := membersOf c.slots
  let dense := (ms.zip (upto 32)).all (fun x => x.1.1 == x.2 && x.1.2 == (ms.map (·.2)).headD 0 + x.2)
  ms.length + b2n c.canon * 64 + c.base * 128 + b2n dense * 2 ^ 18
/-- MPROG (R80); with rows 0-31 complete and the command not retired it reads row 31. A command has begun when it has issued, a `dmma` that waits behind another included, and
the oldest is the first in stream order (conventions: DESIGN CHOICE, assumptions 96, 122). -/
def mProg (k : Block) : Nat :=
  match k.drill.table.find? (fun e => e.issued) with
  | some e => e.cmd.id.toNat + min e.row 31 * 256 + 2 ^ 13 + b2n e.fault.isSome * 2 ^ 14
  | none => 0
/-- CPROG (R81). -/
def cProg (s : State) (b : Nat) : Nat :=
  match leastBy (fun c => c.tag) (s.copies.filter (fun c => c.blk == b && c.fault.isSome)) with
  | some c => c.tag + 64 + c.elem * 128
  | none => 0
/-- The value of a special register for a thread (R66, R68). -/
def special (s : State) (c : Ctx) (r num : Nat) : Nat :=
  let k := getBlk s c.blk
  let t := getTh s c.blk r
  let f := getFld s (fieldOf c.g)
  match num with
  | 0x00 => r
  | 0x01 => k.index
  | 0x02 => k.gridpos.toNat
  | 0x03 => k.griddim.toNat
  | 0x04 => k.threads
  | 0x05 => k.lcore
  | 0x06 => k.lfield
  | 0x07 => k.lcore ^^^ 0x80
  | 0x08 => k.allot
  | 0x09 => k.args.toNat
  | 0x0A => opLog (logOf s c.blk c.uid)
  | 0x10 => slotMap c
  | 0x11 => if t.trap == .handler then t.keptRep.toNat else 0
  | 0x18 => 16 - (fifoTo s c.g).length
  | 0x19 => (fifoFrom s c.g).length
  | 0x20 => ((upto k.tags.length).zip k.tags).foldl (fun n x => n + b2n x.2.set * 2 ^ x.1) 0
  | 0x21 => tagRec k
  | 0x30 => t.cause.toNat
  | 0x31 => t.trappc.toNat
  | 0x32 => t.trapva.toNat
  | 0x40 => mProg k
  | 0x41 => cProg s c.blk
  | 0x48 => k.nancnt.toNat
  | 0x50 => f.state + f.ceiling * 8 + b2n f.tripped * 64
  | _ => (getSlice s (fieldOf c.g) f.curSlice).committed.toNat
def effGets (f : FmtA) (c : Ctx) (s : State) : Fin :=
  .done (writeLanes c f.d (if sp64 f.imm.toNat then 2 else 1) (fun l => special s c l.2 f.imm.toNat) s)
/-- `sets` of TRAPPC (R90): outside a handler it raises PRIV. -/
def effSets (f : FmtA) (c : Ctx) (s : State) : Fin :=
  .done (c.active.foldl (fun s l =>
    if (getTh s c.blk l.2).trap == .handler then modTh c.blk l.2 (fun t => { t with trappc := pairA c f l, trappcWritten := true }) s
    else raise c [l] cPriv s) s)

-- Launch and dependences (R369-R371) -----------------------------------------------------------------------------------------

/-- `launch` (R369). At a replay the entry stays until the status arrives (conventions: DEDUCED, assumption 39). -/
def effLaunch (f : FmtA) (c : Ctx) (s : State) : Fin :=
  let t := lead c
  let addr := src64 c t f.a
  let q : Req := { space := 0, n := 64, align := true, acc := 0, detail := 0, code := 0, pt := 2 }
  let s1 := release c.g 2 s
  let rs := c.active.map (·.2)
  match resolve c.g c.blk q addr s1 with
  | (.loc x, s2) =>
    if !(heldReach s1 s2).isEmpty then .stall
    else
    let (bs, s2) := rdLoc (secureOf s2 c.blk) c.g 2 false x 64 s2
    let img : BitVec 512 := setBits (ofBytes 512 bs) 0 8 1
    let id := s2.nextId
    let rec_ : InFlight := {
      blk := c.blk, ranks := rs, d := f.d, image := img, queue := src32 c t f.b f.imm, region := (getBlk s c.blk).region
      out := id, clause := c.clause, entry := c.entry, pchs := heldReach s s2 }
    .done (pendOut c id (f.d != null) false { s2 with inflight := s2.inflight ++ [rec_], nextId := id + 1 })
  | (.trap code, s2) =>
    if c.entry.isSome && code == cWorld then .refault kWorld (leafLevel s c.g c.blk addr) 0 (BitVec.ofNat 64 addr) 0
    else .done (raiseAt c c.pc c.active code 0 (fun _ => BitVec.ofNat 64 addr) s2)
  | (.fault k l p, s2) =>
    if c.entry.isSome then .refault k l p (BitVec.ofNat 64 addr) 0
    else if !logRoom s c then .suspend
    else .done (takeEntry c (.launch f) rs rs (useNums (useOf f.d 1)) k l p 0 (BitVec.ofNat 64 addr) [addr / 4096] false s2)
/-- `depdec` (R370). -/
def effDepdec (f : FmtA) (c : Ctx) (s : State) : Fin :=
  let s := c.active.foldl (fun s l =>
    let n := src32 c l.2 f.a f.imm
    let s := release c.g 2 s
    if n < 4096 then { s with decs := s.decs ++ [n] } else s) s
  .done (writeLanes c f.d 1 (fun l => b2n (4096 ≤ src32 c l.2 f.a f.imm)) s)
/-- COUNTER_DECREMENT: the Terminus applies a decrement on its way (R259). -/
def decCounter (n : Nat) (s : State) : State :=
  let v := mget 0 s.depctr n
  if v = 0 then { s with pkgCnt := mput s.pkgCnt 0 (mget 0 s.pkgCnt 0 + 1) } else { s with depctr := mput s.depctr n (v - 1) }
def execCounterDecrement (idx : Nat) (s : State) : Host.Outcome State Fault Refusal :=
  match s.decs[idx]? with
  | some n => .next (decCounter n { s with decs := s.decs.eraseIdx idx })
  | none => .next s

/-- Little-endian value of `n` bytes of home memory. -/
def memNat (s : State) (a n : Nat) : Nat := (ofBytes 64 (memBytes s.mem a n)).toNat
/-- The Placement Table's leaf entry of an address's acre (R237), through the Terminus's cache (R238). -/
def placeLeaf (s : State) (root : Nat) (va : DWord) : Option (BitVec 16) :=
  let acre := nbits va 21 36
  match s.placeCache.find? (fun e => e.1 == root && e.2.1 == acre) with
  | some e => some e.2.2
  | none =>
    let p := BitVec.ofNat 64 (memNat s (root + 8 * nbits va 45 12) 8)
    if !bit p 0 then none
    else
      let m := BitVec.ofNat 64 (memNat s (nbits p 12 40 * 4096 + 8 * nbits va 33 12) 8)
      if !bit m 0 then none else some (BitVec.ofNat 16 (memNat s (nbits m 12 40 * 4096 + 2 * nbits va 21 12) 2))
/-- A read of the Placement Table reaches the pseudo-channels of the entries it reads, where the cache does not hold the leaf (R238, R298). -/
def placeReads (root : Nat) (va : DWord) (s : State) : State :=
  if s.placeCache.any (fun e => e.1 == root && e.2.1 == nbits va 21 36) then s
  else
    let a := root + 8 * nbits va 45 12
    let s' := wakePch a s
    let p := BitVec.ofNat 64 (memNat s a 8)
    if !bit p 0 then s'
    else
      let b := nbits p 12 40 * 4096 + 8 * nbits va 33 12
      let s' := wakePch b s'
      let m := BitVec.ofNat 64 (memNat s b 8)
      if !bit m 0 then s' else wakePch (nbits m 12 40 * 4096 + 2 * nbits va 21 12) s'
/-- The home of an acre; none without an entry (R237). -/
def placeHome (s : State) (root : Nat) (va : DWord) : Option Nat :=
  match placeLeaf s root va with
  | some e => if bit e 6 && nbits e 8 8 == 0 then some (nbits e 0 6) else none
  | none => none
/-- The physical address a core's read of an address would reach, without setting A or D (R371). -/
def peekPa (s : State) (g b : Nat) (va : DWord) : Option Nat :=
  let root := rootOf s b
  let v := nbits va 0 57
  let hit := if canonical va then (getCore s g).tlb.find? (fun e => e.root == root && v / 2 ^ e.log2 == e.va / 2 ^ e.log2) else none
  let ent : Option TlbEntry := match hit with
    | some e => some e
    | none =>
      match (walk (some (fieldOf g)) root (secureOf s b) va s).1 with
      | .leaf lv _ pte =>
        let base := nbits pte 12 40 * 4096
        let lg := 12 + 9 * (lv - 1)
        some { root := root, va := v, log2 := lg, pa := base, w := bit pte 1, x := bit pte 2, d := false, secure := paSecure s (base + v % 2 ^ lg) }
      | .fault _ _ => none
  match ent with
  | some e => (match xlCheck s e (secureOf s b) 0 1 va with | .ok pa => some pa | _ => none)
  | none => none
/-- LOCQ (R371). -/
def locqOf (s : State) (g b : Nat) (va : DWord) : Nat :=
  match peekPa s g b va with
  | none => 2 ^ 31
  | some pa =>
    let host := match target pa with | .host => true | _ => false
    let alias_ := match target pa with | .viewOf _ _ _ => true | _ => false
    let home := (homeOf pa).getD 0
    let acre := placeHome s (regPlace s (getBlk s b).region) va
    home + b2n host * 64 + b2n alias_ * 128 + (if host then 0 else torusDist (fieldOf g) home) * 256 + acre.getD 0 * 4096 + b2n acre.isSome * 2 ^ 18 +
      b2n (!host && home == fallow s) * 2 ^ 19 + b2n (paSecure s pa) * 2 ^ 30
/-- The reads that a peek at a translation makes: a walk, where the TLB has no entry (R298, R371). -/
def peekReads (g b : Nat) (va : DWord) (s : State) : State :=
  if (tlbHit (.core g) (rootOf s b) va s).isSome then s else (walk (some (fieldOf g)) (rootOf s b) (secureOf s b) va s).2
/-- What `locq` reads for its threads, besides giving them their words (R371). -/
def locqReads (c : Ctx) (f : FmtM) (s : State) : State :=
  c.active.foldl (fun s l =>
    let va : DWord := BitVec.ofNat 64 (addrM c f l)
    placeReads (regPlace s (getBlk s c.blk).region) va (peekReads c.g c.blk va s)) s
def effLocq (f : FmtM) (c : Ctx) (s : State) : Fin :=
  .done (writeLanes c f.data 1 (fun l => locqOf s c.g c.blk (BitVec.ofNat 64 (addrM c f l))) (locqReads c f s))

-- System instructions (R233-R236, R372, R373) ----------------------------------------------------------------------------------

/-- Agents that hold an entry an invalidation drops; the others acknowledge at once (R234). -/
def invalAgents (s : State) (form va root : Nat) : List Nat :=
  let hits := fun (l : List TlbEntry) => l.length != (tlbDrop form va root l).length
  (s.cores.filter (fun e => hits e.2.tlb)).map (·.1) ++
  (s.fields.filter (fun e => hits e.2.walkTlb || e.2.walkCache.length != (walkDrop form va root e.2.walkCache).length)).map (fun e => 16384 + e.1) ++
  (if hits s.termTlb then [16448] else [])
/-- Send an invalidation to every agent (R234) (conventions: DEDUCED, assumption 38). -/
def startInval (form va root : Nat) (blk : Option Nat) (ranks : List Nat) (out clause : Nat) (s : State) : State :=
  let ag := invalAgents s form va root
  if ag.isEmpty then s
  else { s with invals := s.invals ++ [{ id := s.nextId, form := form, va := va, root := root, agents := ag, blk := blk, ranks := ranks, out := out, clause := clause }]
                nextId := s.nextId + 1 }
/-- Dirty bytes that accesses through some translations have left in a field's RDC, and in a core's L1, reach their homes (R234). -/
def performAt (g : Option Nat) (f : Nat) (es : List TlbEntry) (s : State) : State :=
  let hit := fun (ln : Nat) => es.any (fun e => e.pa / 128 ≤ ln && ln < (e.pa + 2 ^ e.log2) / 128)
  let s := match g with
    | some g => ((mkeys (getCore s g).l1).filter hit).foldl (fun s ln => cleanL1 g ln s) s
    | none => s
  ((mkeys (getFld s f).rdc).filter hit).foldl (fun s ln => cleanRdc f ln s) s
/-- The entries of a list that an invalidation drops (R234). -/
def tlbHits (form va root : Nat) (l : List TlbEntry) : List TlbEntry := l.filter (fun e => !(tlbDrop form va root l).contains e)
/-- An agent performs the accesses it has made with the entries it loses at their homes, and drops the entries (R234) (conventions: DEDUCED, assumption 38). -/
def agentDrop (ag form va root : Nat) (s : State) : State :=
  let s := if ag < 16384 then performAt (some ag) (fieldOf ag) (tlbHits form va root (getCore s ag).tlb) s
    else if ag < 16448 then performAt none (ag - 16384) (tlbHits form va root (getFld s (ag - 16384)).walkTlb) s
    else s
  if ag < 16384 then modCore ag (fun c => { c with tlb := tlbDrop form va root c.tlb }) s
  else if ag < 16448 then modFld (ag - 16384) (fun k => { k with walkTlb := tlbDrop form va root k.walkTlb, walkCache := walkDrop form va root k.walkCache }) s
  else { s with termTlb := tlbDrop form va root s.termTlb }
/-- An outstanding number of some threads is settled (R71, R72). -/
def dropOuts (b : Nat) (rs : List Nat) (out : Nat) (s : State) : State :=
  rs.foldl (fun s r => modTh b r (fun t => { t with outs := t.outs.filter (fun o => o.id != out) }) s) s
/-- An invalidation is acknowledged by every agent: the `trsync`s that waited for no other complete (R235). -/
def endSyncs (b inval : Nat) (s : State) : State :=
  let ys := (getBlk s b).syncs.map (fun y => { y with invals := y.invals.filter (· != inval) })
  (ys.filter (fun y => y.invals.isEmpty)).foldl (fun s y => dropOuts b y.ranks y.out s) (modBlk b (fun k => { k with syncs := ys.filter (fun y => !y.invals.isEmpty) }) s)
/-- TLBINV_ACK: an agent drops its entries and acknowledges (R234). -/
def execTlbinvAck (idx agent : Nat) (s : State) : Host.Outcome State Fault Refusal :=
  match s.invals[idx]? with
  | none => .next s
  | some v =>
    if !v.agents.contains agent then .next s
    else
      let s := agentDrop agent v.form v.va v.root s
      let left := v.agents.filter (· != agent)
      if !left.isEmpty then .next { s with invals := s.invals.set idx { v with agents := left } }
      else
        let s := { s with invals := s.invals.eraseIdx idx }
        match v.blk with
        | some b => .next (endSyncs b v.id (dropOuts b v.ranks v.out s))
        | none => .next s
def tlbinvForm (form va root : Nat) (c : Ctx) (s : State) : Fin :=
  let id := s.nextId
  let s' := startInval form va root (some c.blk) (c.active.map (·.2)) id c.clause { s with nextId := id + 1 }
  .done (if s'.invals.length == s.invals.length then s' else pendOut c id false true s')
def effTlbinvVa (f : FmtA) (c : Ctx) (s : State) : Fin := tlbinvForm 0 (src64 c (lead c) f.a) (src64 c (lead c) f.b) c s
def effTlbinvRoot (f : FmtA) (c : Ctx) (s : State) : Fin := tlbinvForm 1 0 (src64 c (lead c) f.b) c s
def effTlbinvAll (_ : FmtA) (c : Ctx) (s : State) : Fin := tlbinvForm 2 0 0 c s
/-- `trsync` (R235): a package-scope release; then, until every earlier `tlbinv` of its threads is acknowledged, no later access of theirs begins
(conventions: DEDUCED, assumption 38). -/
def effTrsync (_ : FmtA) (c : Ctx) (s : State) : Fin :=
  let rs := c.active.map (·.2)
  let s := release c.g 2 s
  let vs := (s.invals.filter (fun v => v.blk == some c.blk && rs.any (fun r => v.ranks.contains r))).map (·.id)
  if vs.isEmpty then .done s
  else
    let id := s.nextId
    .done (pendOut c id false true
      (modBlk c.blk (fun k => { k with syncs := k.syncs ++ [{ out := id, ranks := rs, invals := vs }] }) { s with nextId := id + 1 }))

/-- The block a context handle names (R372). -/
def handleBlk (s : State) (h : Nat) : Option Block :=
  (s.blocks.find? (fun e => e.2.handle.toNat == h && (resident e.2 || e.2.phase == .saved))).map (·.2)
def ctxStatus (f : FmtA) (c : Ctx) (v : Nat) (s : State) : Fin := .done (writeLanes c f.d 1 (fun _ => v) s)
/-- `ctxsave` (R372): it holds the block, and its status waits for the save. -/
def effCtxsave (f : FmtA) (c : Ctx) (s : State) : Fin :=
  match handleBlk s (src64 c (lead c) f.a) with
  | none => ctxStatus f c 1 s
  | some k =>
    if k.id == c.blk then ctxStatus f c 3 s
    else
      let s := modBlk k.id (fun k => { k with held := true }) s
      if k.phase == .saved then ctxStatus f c 0 s
      else
        let id := s.nextId
        let s := preemptUnit k.id { s with nextId := id + 1 }
        .done (pendOut c id (f.d != null) false
          { s with ctxWaits := s.ctxWaits ++ [{ target := k.id, blk := c.blk, ranks := c.active.map (·.2), d := f.d, out := id, entry := c.entry }] })
/-- `ctxload` (R372). -/
def effCtxload (f : FmtA) (c : Ctx) (s : State) : Fin :=
  match handleBlk s (src64 c (lead c) f.a) with
  | none => ctxStatus f c 1 s
  | some k =>
    if k.id == c.blk then ctxStatus f c 3 s
    else if k.phase != .saved then ctxStatus f c 4 s
    else
      match ctxGood k.id s with
      | (true, s) => ctxStatus f c 0 (modBlk k.id (fun k => { k with held := false, halted := false }) s)
      | (false, s) => ctxStatus f c 2 s

/-- Which bits of a home word are inverted: bits 0 and 1 those that `errinj` inverts, bits 2 and 3 one and another of the rest (R373). -/
def homeBits (s : State) (w : Nat) : BitVec 4 :=
  if s.memErr.contains (w, false) then (match mget 0 s.memFlip w with | 1 => 1 | 2 => 2 | _ => 4) else 0
/-- A word of home memory has these bits inverted: none, one, or more, which poisons it (R140). -/
def setHome (w : Nat) (e : BitVec 4) (s : State) : State :=
  { s with
    memErr := s.memErr.filter (fun x => x.1 != w) ++ (if e = 0 then [] else [(w, twoBits e)])
    memFlip := if e = 1 ∨ e = 2 then mput s.memFlip w e.toNat else mdel s.memFlip w }
/-- A word of home memory gets a bit error, of `errinj` (`inj`) or another (R140, R373): inversions of one bit restore it. A double-bit error drops a clean line of the LLC or
poisons the word; which of the two lies there is not told. At an alias address whose line the LLC does not hold, a single-bit error is counted and a double-bit one does
nothing (conventions: DESIGN CHOICE, assumptions 22, 129). POISON counts words that were not poisoned (R284). -/
def homeError (inj : Bool) (pa : Nat) (dbl : Bool) (s : State) : State :=
  let w := pa / 8
  let poisoned := s.memErr.contains (w, true)
  let e0 := homeBits s w
  let e := e0 ^^^ (if inj then (if dbl then 3 else 1) else if dbl then 12 &&& ~~~e0 else if e0 = 4 then 8 else 4)
  match homeOf pa with
  | none => s
  | some f =>
    let bit_ : BitVec 16 := 1 <<< (w % 16)
    match target pa with
    | .viewOf _ _ _ =>
      if !dbl then evAdd f 0x30 1 s
      else (match mfind s.aliasLines (pa / 128) with
        | some l =>
          if l.dirty = 0 then evAdd f 0x38 1 { s with aliasLines := mdel s.aliasLines (pa / 128) }
          else (if l.poison &&& bit_ = 0 then evAdd f 0x40 1 else id) { s with aliasLines := mput s.aliasLines (pa / 128) { l with poison := l.poison ||| bit_ } }
        | none => s)
    | _ =>
      if poisoned && !dbl then s
      else if !poisoned && !twoBits e then setHome w e s
      else
        let (clean, s) := freeB s
        if clean then evAdd f 0x38 1 s else (if poisoned then id else evAdd f 0x40 1) (setHome w (if poisoned then 12 else e) s)
/-- The bits of a register word that are inverted (R58). -/
def errBits (t : Thread) (num : Nat) : BitVec 4 := ((t.regErr.find? (fun e => e.1 == num)).map (·.2)).getD 0
/-- Bits of a register word are inverted; a second inversion restores them (R58, R373) (conventions: DEDUCED, assumptions 21, 29). -/
def regError (b r num : Nat) (m : BitVec 4) (s : State) : State :=
  modTh b r (fun t =>
    let e := errBits t num ^^^ m
    { t with regErr := (if e = 0 then [] else [(num, e)]) ++ t.regErr.filter (fun e => e.1 != num) }) s
/-- `errinj` (R373). -/
def effErrinj (f : FmtA) (c : Ctx) (s : State) : Fin :=
  match nbits f.mods 0 3 with
  | 0 => .done (c.active.foldl (fun s l => regError c.blk l.2 f.b.toNat 1 s) s)
  | 1 => .done (c.active.foldl (fun s l => regError c.blk l.2 f.b.toNat 3 s) s)
  | 4 => .done (if regShadow s (getBlk s c.blk).region == 0 then s
      else c.active.foldl (fun s l => modTh c.blk l.2 (fun t => { t with shadowInj := true }) s) s)
  | k => accessLanes c (.errinj f) { space := 0, n := 8, align := true, acc := 0, detail := 0, code := 0, consume := false } [] none
      (c.active.map (fun l => (l, src64 c l.2 f.a)))
      (fun ls s => ls.foldl (fun s (x : LaneAt × Loc) => match x.2 with | .g pa => homeError true pa (k == 3) s | _ => s) s) s

-- The instructions -------------------------------------------------------------------------------------------------------------

/-- `clause` where a consist stands at a clause boundary begins its clause; inside a clause it raises ILLEGAL_ENC (R321, R322, R340). -/
def execClause (f : FmtH) (s : State) : Host.Outcome State Fault Refusal :=
  match context (.clause f) s with
  | some c => .next (issueIn (.clause f) (.clause f) false (fun _ s => .done s) c s)
  | none => noClause (.clause f) s
def execNop (f : FmtA) (s : State) : Host.Outcome State Fault Refusal := issueA .nop f effNop s
def execBr (f : FmtI) (s : State) : Host.Outcome State Fault Refusal := issueI .br f effBr s
def execBrx (f : FmtA) (s : State) : Host.Outcome State Fault Refusal := issueA .brx f effBrx s
def execCall (f : FmtI) (s : State) : Host.Outcome State Fault Refusal := issueI .call f effCall s
def execCallx (f : FmtA) (s : State) : Host.Outcome State Fault Refusal := issueA .callx f effCallx s
def execRet (f : FmtA) (s : State) : Host.Outcome State Fault Refusal := issueA .ret f effRet s
def execExit (f : FmtA) (s : State) : Host.Outcome State Fault Refusal := issueA .exit f effExit s
def execTrap (f : FmtI) (s : State) : Host.Outcome State Fault Refusal := issueI .trap f effTrap s
def execTret (f : FmtA) (s : State) : Host.Outcome State Fault Refusal := issueA .tret f effTret s
def execMarshal (f : FmtA) (s : State) : Host.Outcome State Fault Refusal := issueA .marshal f effMarshal s
def execMarshalRank (f : FmtA) (s : State) : Host.Outcome State Fault Refusal := issueA .marshalRank f effMarshalRank s
def execYield (f : FmtA) (s : State) : Host.Outcome State Fault Refusal := issueA .yield f effYield s
/-- `repeat` acts for the consist whatever its guard, which is illegal (R356). -/
def execRepeatN (f : FmtI) (s : State) : Host.Outcome State Fault Refusal :=
  match context (.repeatN f) s with
  | none => noClause (.repeatN f) s
  | some c =>
    .next (issueIn (.repeatN f) (.repeatN f) false (effRepeatN f) { c with active := c.exec, all := c.exec } s)
def execSleep (f : FmtA) (s : State) : Host.Outcome State Fault Refusal := issueA .sleep f effSleep s
def execWaitaddr (f : FmtM) (s : State) : Host.Outcome State Fault Refusal := issueM .waitaddr f effWaitaddr s
def execWakeaddr (f : FmtM) (s : State) : Host.Outcome State Fault Refusal := issueM .wakeaddr f effWakeaddr s
def execPreemptOff (f : FmtA) (s : State) : Host.Outcome State Fault Refusal := issueA .preemptOff f effPreemptOff s
def execPreemptOn (f : FmtA) (s : State) : Host.Outcome State Fault Refusal := issueA .preemptOn f effPreemptOn s
def execBar (f : FmtA) (s : State) : Host.Outcome State Fault Refusal := issueA .bar f effBar s
def execBara (f : FmtA) (s : State) : Host.Outcome State Fault Refusal := issueA .bara f effBara s
def execBarw (f : FmtA) (s : State) : Host.Outcome State Fault Refusal := issueA .barw f effBarw s
def execGrow (f : FmtA) (s : State) : Host.Outcome State Fault Refusal := issueA .grow f effGrow s
def execShrink (f : FmtA) (s : State) : Host.Outcome State Fault Refusal := issueA .shrink f effShrink s
def execGrowa (f : FmtA) (s : State) : Host.Outcome State Fault Refusal := issueA .growa f effGrowa s
def execShrinka (f : FmtA) (s : State) : Host.Outcome State Fault Refusal := issueA .shrinka f effShrinka s
def execGets (f : FmtA) (s : State) : Host.Outcome State Fault Refusal := issueA .gets f effGets s
def execSets (f : FmtA) (s : State) : Host.Outcome State Fault Refusal := issueA .sets f effSets s
def execLaunch (f : FmtA) (s : State) : Host.Outcome State Fault Refusal := issueA .launch f effLaunch s
def execDepdec (f : FmtA) (s : State) : Host.Outcome State Fault Refusal := issueA .depdec f effDepdec s
def execLocq (f : FmtM) (s : State) : Host.Outcome State Fault Refusal := issueM .locq f effLocq s
def execTrsync (f : FmtA) (s : State) : Host.Outcome State Fault Refusal := issueA .trsync f effTrsync s
def execTlbinvVa (f : FmtA) (s : State) : Host.Outcome State Fault Refusal := issueA .tlbinvVa f effTlbinvVa s
def execTlbinvRoot (f : FmtA) (s : State) : Host.Outcome State Fault Refusal := issueA .tlbinvRoot f effTlbinvRoot s
def execTlbinvAll (f : FmtA) (s : State) : Host.Outcome State Fault Refusal := issueA .tlbinvAll f effTlbinvAll s
def execCtxsave (f : FmtA) (s : State) : Host.Outcome State Fault Refusal := issueA .ctxsave f effCtxsave s
def execCtxload (f : FmtA) (s : State) : Host.Outcome State Fault Refusal := issueA .ctxload f effCtxload s
def execErrinj (f : FmtA) (s : State) : Host.Outcome State Fault Refusal := issueA .errinj f effErrinj s
/-- A word whose opcode R335-R344 do not define raises ILLEGAL_OP (R336). -/
def execUndefinedOpcode (w : IWord) (s : State) : Host.Outcome State Fault Refusal :=
  match context (.undefinedOpcode w) s with
  | some c => .next (issueIn (.undefinedOpcode w) (.undefinedOpcode w) false (fun _ s => .done s) c s)
  | none => noClause (.undefinedOpcode w) s

end Sys2Proof.Machine
end

