-- ==== Sys2Proof/Machine/Int.lean ====
section
/-! DEFINITION. Integer, bit, move, address and predicate instructions (R379-R388). -/
namespace Sys2Proof.Machine

/-- The value of an integer or bit type: signed for the i types (R99). -/
def sval (ty x : Nat) : Int := if isI ty then toSigned (tyW ty) x else (x % 2 ^ tyW ty : Nat)
/-- Operands A, B and C of an instruction in a type, in its low bits (R99). -/
def opA (c : Ctx) (f : FmtA) (ty : Nat) (l : Nat × Nat) : Nat := low ty (srcA c f ty false l.1 l.2)
def opB (c : Ctx) (f : FmtA) (ty : Nat) (l : Nat × Nat) : Nat := low ty (srcVal c l.2 ty f.b f.imm)
def opC (c : Ctx) (f : FmtA) (ty : Nat) (l : Nat × Nat) : Nat := low ty (srcVal c l.2 ty f.c f.imm)

/-- Smallest and largest value of a type. -/
def tyMin (ty : Nat) : Int := if isI ty then -(2 ^ (tyW ty - 1) : Nat) else 0
def tyMax (ty : Nat) : Int := if isI ty then (2 ^ (tyW ty - 1) : Nat) - 1 else (2 ^ tyW ty : Nat) - 1
/-- `.sat` (R379). -/
def satTo (ty : Nat) (on : Bool) (x : Int) : Int := if on then max (tyMin ty) (min (tyMax ty) x) else x

/-- Results of one, two and three integer operands, modulo 2^w (R379). -/
def intOp1 (op : Nat → Int → Int) (f : FmtA) (c : Ctx) (s : State) : Fin :=
  let ty := f.ty.toNat
  .done (writeTy c f.d ty (fun l => wrap (tyW ty) (op ty (sval ty (opA c f ty l)))) s)
def intOp2 (op : Nat → Int → Int → Int) (f : FmtA) (c : Ctx) (s : State) : Fin :=
  let ty := f.ty.toNat
  .done (writeTy c f.d ty (fun l => wrap (tyW ty) (op ty (sval ty (opA c f ty l)) (sval ty (opB c f ty l)))) s)
def intOp3 (op : Nat → Int → Int → Int → Int) (f : FmtA) (c : Ctx) (s : State) : Fin :=
  let ty := f.ty.toNat
  .done (writeTy c f.d ty (fun l => wrap (tyW ty) (op ty (sval ty (opA c f ty l)) (sval ty (opB c f ty l)) (sval ty (opC c f ty l)))) s)

def effAdd (f : FmtA) (c : Ctx) (s : State) : Fin := intOp2 (fun ty a b => satTo ty (bit f.mods 0) (a + b)) f c s
def effSub (f : FmtA) (c : Ctx) (s : State) : Fin := intOp2 (fun ty a b => satTo ty (bit f.mods 0) (a - b)) f c s
/-- The carry of `addc` and `subb` (R380). -/
def carryIn (c : Ctx) (f : FmtA) (l : Nat × Nat) : Nat := b2n (srcP c l.2 f.c)
def effAddc (f : FmtA) (c : Ctx) (s : State) : Fin :=
  let ty := f.ty.toNat
  let total := fun (l : Nat × Nat) => opA c f ty l + opB c f ty l + carryIn c f l
  .done (writeP c f.c (fun l => 2 ^ tyW ty ≤ total l) (writeTy c f.d ty (fun l => total l % 2 ^ tyW ty) s))
def effSubb (f : FmtA) (c : Ctx) (s : State) : Fin :=
  let ty := f.ty.toNat
  let total := fun (l : Nat × Nat) => (opA c f ty l : Int) - opB c f ty l - carryIn c f l
  .done (writeP c f.c (fun l => total l < 0) (writeTy c f.d ty (fun l => wrap (tyW ty) (total l)) s))
def effMul (f : FmtA) (c : Ctx) (s : State) : Fin := intOp2 (fun _ a b => a * b) f c s
def effMulhi (f : FmtA) (c : Ctx) (s : State) : Fin := intOp2 (fun ty a b => a * b / (2 ^ tyW ty : Nat)) f c s
def effMad (f : FmtA) (c : Ctx) (s : State) : Fin := intOp3 (fun _ a b x => a * b + x) f c s
def effMadw (f : FmtA) (c : Ctx) (s : State) : Fin :=
  let ty := f.ty.toNat
  .done (writeLanes c f.d 2 (fun l => wrap 64 (sval ty (opA c f ty l) * sval ty (opB c f ty l) + src64 c l.2 f.c)) s)
/-- `div` and `rem` (R381). -/
def divOf (ty : Nat) (a b : Int) : Int := if b == 0 then (if a < 0 then tyMin ty else tyMax ty) else a.tdiv b
def remOf (_ : Nat) (a b : Int) : Int := if b == 0 then a else a - b * a.tdiv b
def effDiv (f : FmtA) (c : Ctx) (s : State) : Fin := intOp2 divOf f c s
def effRem (f : FmtA) (c : Ctx) (s : State) : Fin := intOp2 remOf f c s
def effMin (f : FmtA) (c : Ctx) (s : State) : Fin := intOp2 (fun _ a b => min a b) f c s
def effMax (f : FmtA) (c : Ctx) (s : State) : Fin := intOp2 (fun _ a b => max a b) f c s
def effAbs (f : FmtA) (c : Ctx) (s : State) : Fin := intOp1 (fun ty a => satTo ty (bit f.mods 0) a.natAbs) f c s
def effNeg (f : FmtA) (c : Ctx) (s : State) : Fin := intOp1 (fun ty a => satTo ty (bit f.mods 0) (-a)) f c s

/-- Bitwise results on the w bits of two operands. -/
def bitOp2 (op : Nat → Nat → Nat → Nat) (f : FmtA) (c : Ctx) (s : State) : Fin :=
  let ty := f.ty.toNat
  .done (writeTy c f.d ty (fun l => op (tyW ty) (opA c f ty l) (opB c f ty l)) s)
def effAnd (f : FmtA) (c : Ctx) (s : State) : Fin := bitOp2 (fun _ a b => a &&& b) f c s
def effOr (f : FmtA) (c : Ctx) (s : State) : Fin := bitOp2 (fun _ a b => a ||| b) f c s
def effXor (f : FmtA) (c : Ctx) (s : State) : Fin := bitOp2 (fun _ a b => a ^^^ b) f c s
def effAndn (f : FmtA) (c : Ctx) (s : State) : Fin := bitOp2 (fun w a b => a &&& (2 ^ w - 1 - b)) f c s
/-- A result of A's w bits alone. -/
def bitOp1 (op : Nat → Nat → Nat) (f : FmtA) (c : Ctx) (s : State) : Fin :=
  let ty := f.ty.toNat
  .done (writeTy c f.d ty (fun l => op (tyW ty) (opA c f ty l)) s)
def effNot (f : FmtA) (c : Ctx) (s : State) : Fin := bitOp1 (fun w a => 2 ^ w - 1 - a) f c s
/-- Bit i of the result is bit w - 1 - i (R379). -/
def revBits (w a : Nat) : Nat := (upto w).foldl (fun v i => 2 * v + a / 2 ^ i % 2) 0
def effBrev (f : FmtA) (c : Ctx) (s : State) : Fin := bitOp1 revBits f c s

/-- The shifts of R382 on w bits, by k. -/
def shlOf (w a k : Nat) : Nat := if w ≤ k then 0 else a * 2 ^ k % 2 ^ w
def shrOf (w a k : Nat) : Nat := if w ≤ k then 0 else a / 2 ^ k
def sarOf (w a k : Nat) : Nat := wrap w (toSigned w a / (2 ^ (min k (w - 1)) : Nat))
def rotOf (w a k : Nat) : Nat := (a * 2 ^ (k % w) + a / 2 ^ (w - k % w)) % 2 ^ w
def shiftOp (op : Nat → Nat → Nat → Nat) (f : FmtA) (c : Ctx) (s : State) : Fin :=
  let ty := f.ty.toNat
  .done (writeTy c f.d ty (fun l => op (tyW ty) (opA c f ty l) (src32 c l.2 f.b f.imm)) s)
def effShl (f : FmtA) (c : Ctx) (s : State) : Fin := shiftOp shlOf f c s
def effShr (f : FmtA) (c : Ctx) (s : State) : Fin := shiftOp shrOf f c s
def effSar (f : FmtA) (c : Ctx) (s : State) : Fin := shiftOp sarOf f c s
def effRot (f : FmtA) (c : Ctx) (s : State) : Fin := shiftOp rotOf f c s
/-- Position and length of a field control (R382). -/
def fieldPos (k : Nat) : Nat := k % 256
def fieldLen (w k : Nat) : Nat := min (k / 256 % 256) (w - fieldPos k)
def bfeOf (signed : Bool) (w a k : Nat) : Nat :=
  let n := fieldLen w k
  let x := a / 2 ^ fieldPos k % 2 ^ n
  if n == 0 then 0 else if signed then wrap w (toSigned n x) else x
def bfiOf (w a b k : Nat) : Nat :=
  let n := fieldLen w k
  let p := fieldPos k
  if n == 0 then a else a % 2 ^ p + b % 2 ^ n * 2 ^ p + a / 2 ^ (p + n) * 2 ^ (p + n)
def effBfe (f : FmtA) (c : Ctx) (s : State) : Fin := shiftOp (bfeOf (isI f.ty.toNat)) f c s
def effBfi (f : FmtA) (c : Ctx) (s : State) : Fin :=
  let ty := f.ty.toNat
  .done (writeTy c f.d ty (fun l => bfiOf (tyW ty) (opA c f ty l) (opB c f ty l) (src32 c l.2 f.c f.imm)) s)

/-- One bits, leading zeros and trailing zeros of w bits (R379). -/
def popcOf (w a : Nat) : Nat := ((upto w).filter (fun i => a.testBit i)).length
def clzOf (w a : Nat) : Nat := if a == 0 then w else w - 1 - Nat.log2 a
def ctzOf (w a : Nat) : Nat := ((upto w).find? (fun i => a.testBit i)).getD w
def countOp (op : Nat → Nat → Nat) (f : FmtA) (c : Ctx) (s : State) : Fin :=
  let ty := f.ty.toNat
  .done (writeLanes c f.d 1 (fun l => op (tyW ty) (opA c f ty l)) s)
def effPopc (f : FmtA) (c : Ctx) (s : State) : Fin := countOp popcOf f c s
def effClz (f : FmtA) (c : Ctx) (s : State) : Fin := countOp clzOf f c s
def effCtz (f : FmtA) (c : Ctx) (s : State) : Fin := countOp ctzOf f c s

/-- The predicate a comparison delivers (R383). -/
def condOut (c : Ctx) (f : FmtA) (cond : Nat × Nat → Bool) (s : State) : Fin :=
  .done (writeP c f.d (fun l => combine (nbits f.mods 3 2) (cond l) (srcP c l.2 f.c)) s)
def effCmp (f : FmtA) (c : Ctx) (s : State) : Fin :=
  let ty := f.ty.toNat
  condOut c f (fun l => condHolds (nbits f.mods 0 3) (sval ty (opA c f ty l)) (sval ty (opB c f ty l))) s

-- Moves (R384, R385) ----------------------------------------------------------------------------------------

def effSel (f : FmtA) (c : Ctx) (s : State) : Fin :=
  let ty := f.ty.toNat
  .done (writeTy c f.d ty (fun l => if srcP c l.2 f.c then srcA c f ty false l.1 l.2 else srcVal c l.2 ty f.b f.imm) s)
def effMov (f : FmtA) (c : Ctx) (s : State) : Fin := .done (writeTy c f.d f.ty.toNat (fun l => srcA c f f.ty.toNat false l.1 l.2) s)
/-- `movi` (R385): its shape has checked that IMM32 is the image of a narrow type. -/
def effMovi (f : FmtI) (c : Ctx) (s : State) : Fin :=
  let ty := f.ty.toNat
  .done (writeLanes c f.d (if is64 ty then 2 else 1) (fun _ => if ty == 3 || ty == 7 then wrap 64 f.imm.toInt else f.imm.toNat) s)

-- Addresses (R386, R387) ------------------------------------------------------------------------------------

def effLea (f : FmtM) (c : Ctx) (s : State) : Fin :=
  let k := getBlk s c.blk
  .done (writeLanes c f.data (if isG f then 2 else 1) (fun l =>
    let a := addrM c f l
    if f.space != 1 then a
    else if a < k.scratchSize then 0x1000000 + c.g % 256 * 0x40000 + k.scratchStart + a else 0xFFFFFFFF) s)
/-- A 64-bit A and a 32-bit B, extended by the type (R387). -/
def wideOp (op : Int → Int → Int → Int) (f : FmtA) (c : Ctx) (s : State) : Fin :=
  let ty := f.ty.toNat
  .done (writeLanes c f.d 2 (fun l => wrap 64 (op (srcA c f 3 false l.1 l.2 : Nat) (sval ty (opB c f ty l)) (src64 c l.2 f.c : Nat))) s)
def effAdd64 (f : FmtA) (c : Ctx) (s : State) : Fin := wideOp (fun a b _ => a + b) f c s
def effSub64 (f : FmtA) (c : Ctx) (s : State) : Fin := wideOp (fun a b _ => a - b) f c s
def effMad64 (f : FmtA) (c : Ctx) (s : State) : Fin := wideOp (fun a b x => a * b + x) f c s

-- Predicates (R388) ------------------------------------------------------------------------------------------

def predOp (op : Bool → Bool → Bool) (f : FmtA) (c : Ctx) (s : State) : Fin :=
  .done (writeP c f.d (fun l => op (srcAP c f l.1 l.2) (srcP c l.2 f.b)) s)
def effPand (f : FmtA) (c : Ctx) (s : State) : Fin := predOp (fun a b => a && b) f c s
def effPor (f : FmtA) (c : Ctx) (s : State) : Fin := predOp (fun a b => a || b) f c s
def effPxor (f : FmtA) (c : Ctx) (s : State) : Fin := predOp (fun a b => a != b) f c s
def effPnot (f : FmtA) (c : Ctx) (s : State) : Fin := predOp (fun a _ => !a) f c s
def effPmov (f : FmtA) (c : Ctx) (s : State) : Fin := predOp (fun a _ => a) f c s

-- The instructions --------------------------------------------------------------------------------------------

def execAdd (f : FmtA) (s : State) : Host.Outcome State Fault Refusal := issueA .add f effAdd s
def execSub (f : FmtA) (s : State) : Host.Outcome State Fault Refusal := issueA .sub f effSub s
def execAddc (f : FmtA) (s : State) : Host.Outcome State Fault Refusal := issueA .addc f effAddc s
def execSubb (f : FmtA) (s : State) : Host.Outcome State Fault Refusal := issueA .subb f effSubb s
def execMul (f : FmtA) (s : State) : Host.Outcome State Fault Refusal := issueA .mul f effMul s
def execMulhi (f : FmtA) (s : State) : Host.Outcome State Fault Refusal := issueA .mulhi f effMulhi s
def execMad (f : FmtA) (s : State) : Host.Outcome State Fault Refusal := issueA .mad f effMad s
def execMadw (f : FmtA) (s : State) : Host.Outcome State Fault Refusal := issueA .madw f effMadw s
def execDiv (f : FmtA) (s : State) : Host.Outcome State Fault Refusal := issueA .div f effDiv s
def execRem (f : FmtA) (s : State) : Host.Outcome State Fault Refusal := issueA .rem f effRem s
def execMin (f : FmtA) (s : State) : Host.Outcome State Fault Refusal := issueA .min f effMin s
def execMax (f : FmtA) (s : State) : Host.Outcome State Fault Refusal := issueA .max f effMax s
def execAbs (f : FmtA) (s : State) : Host.Outcome State Fault Refusal := issueA .abs f effAbs s
def execNeg (f : FmtA) (s : State) : Host.Outcome State Fault Refusal := issueA .neg f effNeg s
def execAnd (f : FmtA) (s : State) : Host.Outcome State Fault Refusal := issueA .and f effAnd s
def execOr (f : FmtA) (s : State) : Host.Outcome State Fault Refusal := issueA .or f effOr s
def execXor (f : FmtA) (s : State) : Host.Outcome State Fault Refusal := issueA .xor f effXor s
def execNot (f : FmtA) (s : State) : Host.Outcome State Fault Refusal := issueA .not f effNot s
def execAndn (f : FmtA) (s : State) : Host.Outcome State Fault Refusal := issueA .andn f effAndn s
def execShl (f : FmtA) (s : State) : Host.Outcome State Fault Refusal := issueA .shl f effShl s
def execShr (f : FmtA) (s : State) : Host.Outcome State Fault Refusal := issueA .shr f effShr s
def execSar (f : FmtA) (s : State) : Host.Outcome State Fault Refusal := issueA .sar f effSar s
def execRot (f : FmtA) (s : State) : Host.Outcome State Fault Refusal := issueA .rot f effRot s
def execBfe (f : FmtA) (s : State) : Host.Outcome State Fault Refusal := issueA .bfe f effBfe s
def execBfi (f : FmtA) (s : State) : Host.Outcome State Fault Refusal := issueA .bfi f effBfi s
def execPopc (f : FmtA) (s : State) : Host.Outcome State Fault Refusal := issueA .popc f effPopc s
def execClz (f : FmtA) (s : State) : Host.Outcome State Fault Refusal := issueA .clz f effClz s
def execCtz (f : FmtA) (s : State) : Host.Outcome State Fault Refusal := issueA .ctz f effCtz s
def execBrev (f : FmtA) (s : State) : Host.Outcome State Fault Refusal := issueA .brev f effBrev s
def execSel (f : FmtA) (s : State) : Host.Outcome State Fault Refusal := issueA .sel f effSel s
def execCmp (f : FmtA) (s : State) : Host.Outcome State Fault Refusal := issueA .cmp f effCmp s
def execMov (f : FmtA) (s : State) : Host.Outcome State Fault Refusal := issueA .mov f effMov s
def execMovi (f : FmtI) (s : State) : Host.Outcome State Fault Refusal := issueI .movi f effMovi s
def execLea (f : FmtM) (s : State) : Host.Outcome State Fault Refusal := issueM .lea f effLea s
def execAdd64 (f : FmtA) (s : State) : Host.Outcome State Fault Refusal := issueA .add64 f effAdd64 s
def execSub64 (f : FmtA) (s : State) : Host.Outcome State Fault Refusal := issueA .sub64 f effSub64 s
def execMad64 (f : FmtA) (s : State) : Host.Outcome State Fault Refusal := issueA .mad64 f effMad64 s
def execPand (f : FmtA) (s : State) : Host.Outcome State Fault Refusal := issueA .pand f effPand s
def execPor (f : FmtA) (s : State) : Host.Outcome State Fault Refusal := issueA .por f effPor s
def execPxor (f : FmtA) (s : State) : Host.Outcome State Fault Refusal := issueA .pxor f effPxor s
def execPnot (f : FmtA) (s : State) : Host.Outcome State Fault Refusal := issueA .pnot f effPnot s
def execPmov (f : FmtA) (s : State) : Host.Outcome State Fault Refusal := issueA .pmov f effPmov s

end Sys2Proof.Machine
end

