-- ==== Sys2Proof/Machine/Float.lean ====
section
/-! DEFINITION. Floating-point and conversion instructions (R389-R397). -/
namespace Sys2Proof.Machine

/-- Element `i` of an operand of a float type (R101). -/
def fel (ty x i : Nat) : FV := fdecode (fmtOf ty) (x / 2 ^ (tyW ty * i) % 2 ^ tyW ty)
/-- Elements of a type: 2 of an x2 type. -/
def elemN (ty : Nat) : Nat := elemsOf ty false
/-- A register built of elements. -/
def joinEls (ty n : Nat) (el : Nat → Nat) : Nat := (upto n).foldl (fun v i => v + el i * 2 ^ (tyW ty * i)) 0

/-- A float result of each element of A, B and C, rounded once and clamped when `.sat` is given (R389, R105). -/
def fltOp (sat : Bool) (op : FV → FV → FV → FV) (f : FmtA) (c : Ctx) (s : State) : Fin :=
  let ty := f.ty.toNat
  let fm := fmtOf ty
  .done (writeTy c f.d ty (fun l =>
    let a := srcA c f ty false l.1 l.2
    let b := srcVal c l.2 ty f.b f.imm
    let d := srcVal c l.2 ty f.c f.imm
    joinEls ty (elemN ty) (fun i =>
      let x := fround fm (op (fel ty a i) (fel ty b i) (fel ty d i))
      if sat then satUnit fm x else x)) s)
def effFadd (f : FmtA) (c : Ctx) (s : State) : Fin := fltOp (bit f.mods 0) (fun a b _ => fvAdd a b) f c s
def effFsub (f : FmtA) (c : Ctx) (s : State) : Fin := fltOp (bit f.mods 0) (fun a b _ => fvSub a b) f c s
def effFmul (f : FmtA) (c : Ctx) (s : State) : Fin := fltOp (bit f.mods 0) (fun a b _ => fvMul a b) f c s
def effFma (f : FmtA) (c : Ctx) (s : State) : Fin := fltOp (bit f.mods 0) fvFma f c s
def effFmin (f : FmtA) (c : Ctx) (s : State) : Fin := fltOp false (fun a b _ => fvMin a b) f c s
def effFmax (f : FmtA) (c : Ctx) (s : State) : Fin := fltOp false (fun a b _ => fvMax a b) f c s

/-- `fcmp` (R390). -/
def effFcmp (f : FmtA) (c : Ctx) (s : State) : Fin :=
  let ty := f.ty.toNat
  condOut c f (fun l => fcondHolds (nbits f.mods 0 3) (fel ty (srcA c f ty false l.1 l.2) 0) (fel ty (srcVal c l.2 ty f.b f.imm) 0)) s
/-- The class of a value, as its bit of `fclass`'s mask (R390). -/
def fclassOf (fm : Fmt) (v : FV) : Nat :=
  match v with
  | .nan _ _ => 8
  | .inf n => if n then 0 else 7
  | .fin n m _ => if m == 0 then (if n then 3 else 4) else if m < 2 ^ fm.fw then (if n then 2 else 5) else (if n then 1 else 6)
def effFclass (f : FmtA) (c : Ctx) (s : State) : Fin :=
  let ty := f.ty.toNat
  .done (writeP c f.d (fun l => bit f.imm (fclassOf (fmtOf ty) (fel ty (srcA c f ty false l.1 l.2) 0))) s)
/-- The direction of `frnd` (R390). -/
def frndMode (m : Nat) : Rnd :=
  match m with
  | 0 => .even
  | 1 => .rz
  | 2 => .down
  | _ => .up
def effFrnd (f : FmtA) (c : Ctx) (s : State) : Fin := fltOp false (fun a _ _ => fvIntegral (frndMode (nbits f.mods 0 2)) a) f c s

def effFrcp (f : FmtA) (c : Ctx) (s : State) : Fin := fltOp false (fun a _ _ => fvFn .rcp a) f c s
def effFrsq (f : FmtA) (c : Ctx) (s : State) : Fin := fltOp false (fun a _ _ => fvFn .rsq a) f c s
def effFsqrt (f : FmtA) (c : Ctx) (s : State) : Fin := fltOp false (fun a _ _ => fvFn .sqrt a) f c s
def effFexp2 (f : FmtA) (c : Ctx) (s : State) : Fin := fltOp false (fun a _ _ => fvFn .exp2 a) f c s
def effFlog2 (f : FmtA) (c : Ctx) (s : State) : Fin := fltOp false (fun a _ _ => fvFn .log2 a) f c s
def effFsin (f : FmtA) (c : Ctx) (s : State) : Fin := fltOp false (fun a _ _ => fvFn .sin a) f c s
def effFcos (f : FmtA) (c : Ctx) (s : State) : Fin := fltOp false (fun a _ _ => fvFn .cos a) f c s
def effFtanh (f : FmtA) (c : Ctx) (s : State) : Fin := fltOp false (fun a _ _ => fvFn .tanh a) f c s
def effFsig (f : FmtA) (c : Ctx) (s : State) : Fin := fltOp false (fun a _ _ => fvFn .sig a) f c s

/-- The exact dot product of n elements and C, rounded once to f32 (R392): the first NaN among the sources goes first. -/
def dotOf (ty n a b : Nat) (x : FV) : Nat :=
  let srcs := (upto n).flatMap (fun i => [fel ty a i, fel ty b i]) ++ [x]
  match srcs.find? FV.isNan with
  | some v => fround fmtF32 v
  | none => fround fmtF32 (fvSum ((upto n).map (fun i => fvMul (fel ty a i) (fel ty b i)) ++ [x]))
def fdot (n : Nat) (f : FmtA) (c : Ctx) (s : State) : Fin :=
  let ty := f.ty.toNat
  .done (writeLanes c f.d 1 (fun l =>
    dotOf ty n (srcA c f ty (n == 4) l.1 l.2) (srcVal c l.2 ty f.b 0 (n == 4)) (fel 12 (srcVal c l.2 12 f.c 0) 0)) s)
def effFdot2 (f : FmtA) (c : Ctx) (s : State) : Fin := fdot 2 f c s
def effFdot4 (f : FmtA) (c : Ctx) (s : State) : Fin := fdot 4 f c s

-- Conversions (R393-R397) -----------------------------------------------------------------------------------------

/-- A rounding override of `cvt` (R393). -/
def cvtMode (ovr ty : Nat) : Rnd :=
  match ovr with
  | 0 => narrowRule ty
  | 1 => .even
  | _ => .rz
/-- Conversion of A from type `st` to type `dt` (R393) (conventions: DEDUCED, assumption 26). -/
def convert (dt st : Nat) (m : Rnd) (sat : Bool) (x : Nat) : Nat :=
  let a := low st x
  if dt == st then a
  else if isB dt || isB st then a % 2 ^ tyW dt
  else if !isFloat st then
    (if isFloat dt then narrowF (fmtOf dt) m sat (fvInt (sval st a)) else wrap (tyW dt) (satTo dt true (sval st a)))
  else
    let v := fdecode (fmtOf st) a
    if isFloat dt then narrowF (fmtOf dt) m (sat && tyW dt ≤ tyW st) v else wrap (tyW dt) (narrowI (isI dt) (tyW dt) m v)
def cvtOp (m : Rnd) (sat : Bool) (f : FmtA) (c : Ctx) (s : State) : Fin :=
  let st := nbits f.mods 0 5
  .done (writeTy c f.d f.ty.toNat (fun l => convert f.ty.toNat st m sat (srcA c f st false l.1 l.2)) s)
def effCvt (f : FmtA) (c : Ctx) (s : State) : Fin := cvtOp (cvtMode (nbits f.imm 0 2) f.ty.toNat) false f c s
def effCvts (f : FmtA) (c : Ctx) (s : State) : Fin := cvtOp (narrowRule f.ty.toNat) true f c s
/-- `pack2` (R395). -/
def effPack2 (f : FmtA) (c : Ctx) (s : State) : Fin :=
  let ty := f.ty.toNat
  let w := tyW ty
  let nar := fun (x : Nat) => narrowF (fmtOf ty) (narrowRule ty) (bit f.mods 1) (fel 12 x 0)
  .done (writeLanes c f.d 1 (fun l =>
    let x := nar (srcA c f 12 false l.1 l.2)
    let y := nar (srcVal c l.2 12 f.b f.imm)
    if w == 16 then y * 65536 + x
    else
      let old := (regOf c l.2 f.d.toNat).toNat
      if bit f.mods 0 then old % 65536 + (y * 256 + x) * 65536 else old / 65536 * 65536 + y * 256 + x) s)
/-- `unpack` (R396). -/
def effUnpack (f : FmtA) (c : Ctx) (s : State) : Fin :=
  let ty := f.ty.toNat
  let w := tyW ty
  .done (writeLanes c f.d 1 (fun l =>
    let e := srcA c f ty true l.1 l.2 / 2 ^ (w * nbits f.mods 0 2) % 2 ^ w
    if isFloat ty then narrowF fmtF32 .even false (fdecode (fmtOf ty) e) else wrap 32 (sval ty e)) s)
/-- A times 2^n exactly. -/
def fvScale (v : FV) (n : Int) : FV :=
  match v with
  | .fin g m e => .fin g m (e + n)
  | v => v
/-- `scalex` (R397). -/
def effScalex (f : FmtA) (c : Ctx) (s : State) : Fin :=
  let ty := f.ty.toNat
  .done (writeTy c f.d ty (fun l =>
    let a := srcA c f ty false l.1 l.2
    let b := srcVal c l.2 6 f.b f.imm
    joinEls ty (elemN ty) (fun i =>
      let v := fel ty a i
      fround (fmtOf ty) (
        if bit f.mods 0 then (if b % 256 == 255 then canonNan else fvScale v ((b % 256 : Nat) - 127))
        else fvScale v (toSigned 32 b)))) s)

-- The instructions --------------------------------------------------------------------------------------------------

def execFadd (f : FmtA) (s : State) : Host.Outcome State Fault Refusal := issueA .fadd f effFadd s
def execFsub (f : FmtA) (s : State) : Host.Outcome State Fault Refusal := issueA .fsub f effFsub s
def execFmul (f : FmtA) (s : State) : Host.Outcome State Fault Refusal := issueA .fmul f effFmul s
def execFma (f : FmtA) (s : State) : Host.Outcome State Fault Refusal := issueA .fma f effFma s
def execFmin (f : FmtA) (s : State) : Host.Outcome State Fault Refusal := issueA .fmin f effFmin s
def execFmax (f : FmtA) (s : State) : Host.Outcome State Fault Refusal := issueA .fmax f effFmax s
def execFcmp (f : FmtA) (s : State) : Host.Outcome State Fault Refusal := issueA .fcmp f effFcmp s
def execFclass (f : FmtA) (s : State) : Host.Outcome State Fault Refusal := issueA .fclass f effFclass s
def execFrnd (f : FmtA) (s : State) : Host.Outcome State Fault Refusal := issueA .frnd f effFrnd s
def execFrcp (f : FmtA) (s : State) : Host.Outcome State Fault Refusal := issueA .frcp f effFrcp s
def execFrsq (f : FmtA) (s : State) : Host.Outcome State Fault Refusal := issueA .frsq f effFrsq s
def execFsqrt (f : FmtA) (s : State) : Host.Outcome State Fault Refusal := issueA .fsqrt f effFsqrt s
def execFexp2 (f : FmtA) (s : State) : Host.Outcome State Fault Refusal := issueA .fexp2 f effFexp2 s
def execFlog2 (f : FmtA) (s : State) : Host.Outcome State Fault Refusal := issueA .flog2 f effFlog2 s
def execFsin (f : FmtA) (s : State) : Host.Outcome State Fault Refusal := issueA .fsin f effFsin s
def execFcos (f : FmtA) (s : State) : Host.Outcome State Fault Refusal := issueA .fcos f effFcos s
def execFtanh (f : FmtA) (s : State) : Host.Outcome State Fault Refusal := issueA .ftanh f effFtanh s
def execFsig (f : FmtA) (s : State) : Host.Outcome State Fault Refusal := issueA .fsig f effFsig s
def execFdot2 (f : FmtA) (s : State) : Host.Outcome State Fault Refusal := issueA .fdot2 f effFdot2 s
def execFdot4 (f : FmtA) (s : State) : Host.Outcome State Fault Refusal := issueA .fdot4 f effFdot4 s
def execCvt (f : FmtA) (s : State) : Host.Outcome State Fault Refusal := issueA .cvt f effCvt s
def execCvts (f : FmtA) (s : State) : Host.Outcome State Fault Refusal := issueA .cvts f effCvts s
def execPack2 (f : FmtA) (s : State) : Host.Outcome State Fault Refusal := issueA .pack2 f effPack2 s
def execUnpack (f : FmtA) (s : State) : Host.Outcome State Fault Refusal := issueA .unpack f effUnpack s
def execScalex (f : FmtA) (s : State) : Host.Outcome State Fault Refusal := issueA .scalex f effScalex s

end Sys2Proof.Machine
end

