-- ==== Sys2Proof/Machine/Cross.lean ====
section
/-! DEFINITION. Q4X block instructions (R398, R399) and cross-lane instructions (R400-R403, R120-R122). -/
namespace Sys2Proof.Machine

/-- The active thread in a slot. -/
def activeAt (c : Ctx) (slot : Nat) : Option (Nat × Nat) := c.active.find? (fun l => l.1 == slot)
/-- The values of the 32 positions (R377): `d` where no active thread stands. -/
def positions {α : Type} (c : Ctx) (d : α) (val : Nat × Nat → α) : List α :=
  (upto 32).map (fun i => match activeAt c i with | some l => val l | none => d)

/-- `q4enc` (R398). -/
def effQ4enc (f : FmtA) (c : Ctx) (s : State) : Fin :=
  let ty := f.ty.toNat
  let x := positions c fzero (fun l => fel ty (srcVal c l.2 ty f.a 0) 0)
  let ex := if bit f.mods 0 then q4exp x else src32 c (lead c) f.b f.imm % 256
  let (data, rec_) : BitVec 128 × BitVec 16 := if ex == 255 then (0, 0x00FF) else q4encode x ex
  .done (writeLanes c f.d 1 (fun l => if bit f.mods 1 then rec_.toNat else nbits data (32 * (l.1 % 4)) 32) s)
/-- `q4dec` (R399): an inline constant in A supplies the b32 pattern, as for q4x (R320). -/
def effQ4dec (f : FmtA) (c : Ctx) (s : State) : Fin :=
  let ty := f.ty.toNat
  let word := fun (q : Nat) => match slotRank c q with | some r => srcVal c r 2 f.a 0 | none => 0
  let data : BitVec 128 := BitVec.ofNat 128 ((upto 4).foldl (fun v q => v + word q * 2 ^ (32 * q)) 0)
  let rec_ : BitVec 16 := match slotRank c 0 with | some r => BitVec.ofNat 16 (src32 c r f.b 0) | none => 0
  .done (writeTy c f.d ty (fun l => narrowF (fmtOf ty) .even false (q4elem data rec_ l.1)) s)

/-- A mask of slots. -/
def slotMask (ls : List (Nat × Nat)) : Nat := ls.foldl (fun v l => v + 2 ^ l.1) 0
def effBallot (f : FmtA) (c : Ctx) (s : State) : Fin :=
  .done (writeLanes c f.d 1 (fun _ => slotMask (c.active.filter (fun l => srcP c l.2 f.a))) s)
def effMatchEq (f : FmtA) (c : Ctx) (s : State) : Fin :=
  let ty := f.ty.toNat
  .done (writeLanes c f.d 1 (fun l => slotMask (c.active.filter (fun m => opA c f ty m == opA c f ty l))) s)
/-- `vote` (R400). -/
def voteOf (mode : Nat) (ps : List Bool) : Bool :=
  match mode with
  | 0 => ps.all id
  | 1 => ps.any id
  | 2 => !ps.any id
  | _ => ps.all id || !ps.any id
def effVote (f : FmtA) (c : Ctx) (s : State) : Fin :=
  .done (writeP c f.d (fun _ => voteOf (nbits f.mods 0 2) (c.active.map (fun l => srcP c l.2 f.a))) s)

/-- One combination of `reduce` and `scan` (R401, R120). -/
def redOp (ty op a b : Nat) : Nat :=
  if isFloat ty then
    joinEls ty (elemN ty) (fun i => fround (fmtOf ty) (
      match op with
      | 0 => fvAdd (fel ty a i) (fel ty b i)
      | 1 => fvMin (fel ty a i) (fel ty b i)
      | _ => fvMax (fel ty a i) (fel ty b i)))
  else match op with
    | 0 => (a + b) % 2 ^ tyW ty
    | 1 => if sval ty b < sval ty a then b else a
    | 2 => if sval ty a < sval ty b then b else a
    | 3 => a &&& b
    | 4 => a ||| b
    | _ => a ^^^ b
/-- The identity of an operation (R121). -/
def redId (ty op : Nat) : Nat :=
  if isFloat ty then
    let fm := fmtOf ty
    joinEls ty (elemN ty) (fun _ => match op with | 0 => 0 | 1 => infMag fm | _ => fpack fm true (infMag fm))
  else match op with
    | 1 => wrap (tyW ty) (tyMax ty)
    | 2 => wrap (tyW ty) (tyMin ty)
    | 3 => 2 ^ tyW ty - 1
    | _ => 0
/-- The contributions of the 32 positions (R401). -/
def redVals (f : FmtA) (c : Ctx) : List Nat :=
  let ty := f.ty.toNat
  positions c (redId ty (nbits f.mods 0 3)) (fun l => srcA c f ty false l.1 l.2)
/-- One level of the tree (R120). -/
def redPairs (op : Nat → Nat → Nat) : List Nat → List Nat
  | a :: b :: rest => op a b :: redPairs op rest
  | l => l
def redTree (op : Nat → Nat → Nat) : Nat → List Nat → Nat
  | 0, l => l.headD 0
  | k + 1, l => redTree op k (redPairs op l)
def effReduce (f : FmtA) (c : Ctx) (s : State) : Fin :=
  let ty := f.ty.toNat
  let lg := 5 - nbits f.mods 3 3
  let x := redVals f c
  .done (writeTy c f.d ty (fun l => redTree (redOp ty (nbits f.mods 0 3)) lg ((x.drop (l.1 / 2 ^ lg * 2 ^ lg)).take (2 ^ lg))) s)
/-- One distance of the scan (R122). -/
def scanStep (op : Nat → Nat → Nat) (d : Nat) (x : List Nat) : List Nat :=
  (upto 32).map (fun p => if d ≤ p then op (x.getD (p - d) 0) (x.getD p 0) else x.getD p 0)
def effScan (f : FmtA) (c : Ctx) (s : State) : Fin :=
  let ty := f.ty.toNat
  let op := nbits f.mods 0 3
  let x := [1, 2, 4, 8, 16].foldl (fun x d => scanStep (redOp ty op) d x) (redVals f c)
  .done (writeTy c f.d ty (fun l =>
    if bit f.mods 3 then (if l.1 == 0 then redId ty op else x.getD (l.1 - 1) 0) else x.getD l.1 0) s)

/-- The source slot of `shfl`; none outside 0-31 (R402). -/
def shflSource (mode slot b : Nat) : Option Nat :=
  match mode with
  | 0 => some (b % 32)
  | 1 => if b ≤ slot then some (slot - b) else none
  | 2 => if slot + b < 32 then some (slot + b) else none
  | _ => some (slot ^^^ (b % 32))
def effShfl (f : FmtA) (c : Ctx) (s : State) : Fin :=
  let ty := f.ty.toNat
  .done (writeTy c f.d ty (fun l =>
    match (shflSource (nbits f.mods 0 2) l.1 (src32 c l.2 f.b f.imm)).bind (slotRank c) with
    | some r => srcVal c r ty f.a 0
    | none => if bit f.mods 6 then 0 else srcVal c l.2 ty f.a 0) s)
def effSlotof (f : FmtA) (c : Ctx) (s : State) : Fin :=
  .done (writeLanes c f.d 1 (fun l =>
    match (membersOf c.slots).find? (fun m => m.2 == opA c f 10 l) with | some m => m.1 | none => 0xFFFFFFFF) s)
def effRankof (f : FmtA) (c : Ctx) (s : State) : Fin :=
  .done (writeLanes c f.d 1 (fun l => (slotRank c (opA c f 10 l)).getD 0xFFFFFFFF) s)

-- The instructions -----------------------------------------------------------------------------------------------

def execQ4enc (f : FmtA) (s : State) : Host.Outcome State Fault Refusal := issueA .q4enc f effQ4enc s
def execQ4dec (f : FmtA) (s : State) : Host.Outcome State Fault Refusal := issueA .q4dec f effQ4dec s
def execBallot (f : FmtA) (s : State) : Host.Outcome State Fault Refusal := issueA .ballot f effBallot s
def execMatchEq (f : FmtA) (s : State) : Host.Outcome State Fault Refusal := issueA .matchEq f effMatchEq s
def execVote (f : FmtA) (s : State) : Host.Outcome State Fault Refusal := issueA .vote f effVote s
def execReduce (f : FmtA) (s : State) : Host.Outcome State Fault Refusal := issueA .reduce f effReduce s
def execScan (f : FmtA) (s : State) : Host.Outcome State Fault Refusal := issueA .scan f effScan s
def execShfl (f : FmtA) (s : State) : Host.Outcome State Fault Refusal := issueA .shfl f effShfl s
def execSlotof (f : FmtA) (s : State) : Host.Outcome State Fault Refusal := issueA .slotof f effSlotof s
def execRankof (f : FmtA) (s : State) : Host.Outcome State Fault Refusal := issueA .rankof f effRankof s

end Sys2Proof.Machine
end

