-- ==== Sys2Proof/Machine/MemOps.lean ====
section
/-! DEFINITION. The memory instructions (R404-R427). -/
namespace Sys2Proof.Machine

/-- The order has an acquire, or a release (R151). -/
def hasAcq (f : FmtM) : Bool := [1, 3, 5, 7].contains f.order.toNat
def hasRel (f : FmtM) : Bool := [2, 3, 7].contains f.order.toNat
def hasProm (f : FmtM) : Bool := f.order == 5 || f.order == 7
/-- The release and the promotion before an access of some lanes (R417, R411). -/
def before (c : Ctx) (f : FmtM) (ls : List (LaneAt × Loc)) (s : State) : State :=
  if ls.isEmpty then s
  else
    let s := if hasRel f then release c.g f.scope.toNat s else s
    if hasProm f then ls.foldl (fun s x => match x.2 with | .g pa => promote c.g (homeOf pa) s | _ => s) s else s
/-- The invalidation after it (R160). -/
def after (c : Ctx) (f : FmtM) (ls : List (LaneAt × Loc)) (s : State) : State :=
  if !ls.isEmpty && hasAcq f then acquire c.g f.scope.toNat true s else s
/-- A lane's access reaches a resident block's backing area (R54). -/
def laneBacked (c : Ctx) (n : Nat) (s : State) (x : LaneAt × Loc) : Bool :=
  match x.2 with
  | .g _ => (upto n).any (fun i => (backingAt s (rootOf s c.blk) (x.1.2 + i)).isSome)
  | _ => false
/-- Read a lane's location; bytes of a resident block's backing area are undefined, and draw `k` gives them (R54). -/
def laneReadAt (c : Ctx) (pt : Nat) (ro : Bool) (k : Nat) (x : LaneAt × Loc) (n : Nat) (s : State) : Nat × State :=
  let (bs, s) := rdLoc (secureOf s c.blk) c.g pt ro x.2 n s
  ((ofBytes 128 (if laneBacked c n s x then backingFree { s with free := k } (rootOf s c.blk) x.1.2 bs else bs)).toNat, s)
/-- A draw for the undefined bytes that some lanes read, where one reads any (R9, R54). -/
def laneDraw (c : Ctx) (n : Nat) (xs : List (LaneAt × Loc)) (s : State) : State := if xs.any (laneBacked c n s) then { s with free := s.free + 1 } else s
def laneRead (c : Ctx) (pt : Nat) (ro : Bool) (x : LaneAt × Loc) (n : Nat) (s : State) : Nat × State :=
  laneReadAt c pt ro s.free x n (laneDraw c n [x] s)
/-- Write a lane's location. -/
def laneWrite (c : Ctx) (pt : Nat) (x : LaneAt × Loc) (n v : Nat) (s : State) : State :=
  let s := wrLoc (secureOf s c.blk) c.g pt x.2 (toBytes n (BitVec.ofNat 128 v)) s
  match x.2 with
  | .g _ => backingStore (rootOf s c.blk) x.1.2 n s
  | _ => s
/-- The line of memory that a lane's access lies in; none for the scratch spaces and the control space. -/
def laneLine (x : LaneAt × Loc) : Option Nat :=
  match x.2 with
  | .g pa => (match target pa with | .ctl _ => none | _ => some (pa / 128))
  | _ => none
/-- The lines that some lanes read, in the order of the lanes, each with all the bytes they need of it. -/
def laneLines (n : Nat) (xs : List (LaneAt × Loc)) : List (Nat × BitVec 128) :=
  (xs.filterMap laneLine).eraseDups.map (fun ln => (ln, xs.foldl (fun (m : BitVec 128) x => match x.2 with
    | .g pa => if laneLine x == some ln then m ||| rangeMask (pa % 128) n else m
    | _ => m) 0))
/-- Read some lines in turn, each once. -/
def readLines (w : Bool) (g pt : Nat) (ro : Bool) : List (Nat × BitVec 128) → State → List (Nat × BitVec 1024) × State
  | [], s => ([], s)
  | x :: rest, s =>
    let ((d, _), s) := readPoint w g pt x.1 x.2 ro s
    let (ds, s) := readLines w g pt ro rest s
    ((x.1, d) :: ds, s)
/-- A lane's value, from the lines that have been read. -/
def laneVal (c : Ctx) (pt : Nat) (ro : Bool) (k n : Nat) (ds : List (Nat × BitVec 1024)) (s : State) (x : LaneAt × Loc) : Nat :=
  match laneLine x, x.2 with
  | some ln, .g pa =>
    let bs := lineBytes (((ds.find? (fun d => d.1 == ln)).map (·.2)).getD 0) (pa % 128) n
    (ofBytes 128 (if laneBacked c n s x then backingFree { s with free := k } (rootOf s c.blk) x.1.2 bs else bs)).toNat
  | _, _ => (laneReadAt c pt ro k x n s).1
/-- Read every lane of one instruction, each line once: common bytes give one value to every thread, undefined ones too (R409). -/
def laneReads (c : Ctx) (pt : Nat) (ro : Bool) (n : Nat) (xs : List (LaneAt × Loc)) (s : State) : List (Nat × Nat) × State :=
  let r := readLines (secureOf s c.blk) c.g pt ro (laneLines n xs) (laneDraw c n xs s)
  (xs.map (fun x => (x.1.1.2, laneVal c pt ro s.free n r.1 r.2 x)), r.2)
/-- Deliver values, by rank, to a destination of the lanes that have one. -/
def deliverVals (c : Ctx) (f : FmtM) (vs : List (Nat × Nat)) (s : State) : State :=
  writeLanes { c with active := c.active.filter (fun l => vs.any (fun v => v.1 == l.2)), all := [] } f.data (dataN f)
    (fun l => ((vs.find? (fun v => v.1 == l.2)).map (·.2)).getD 0) s
/-- The active threads with their addresses. -/
def laneAddrs (c : Ctx) (addr : Nat × Nat → Nat) : List LaneAt := c.active.map (fun l => (l, addr l))

-- Loads (R411, R412) -------------------------------------------------------------------------------------------------

def loadReq (f : FmtM) : Req :=
  { space := f.space.toNat, n := widthOf f, align := f.order != 0, acc := 0, detail := 0, code := 0
    pt := if hasAcq f then pointOf f.scope.toNat else 0, acq := hasAcq f }
def effLd (f : FmtM) (c : Ctx) (s : State) : Fin :=
  let q := loadReq f
  accessLanes c (.ld f) q (useNums (useOf f.data (dataN f))) none (laneAddrs c (addrM c f)) (fun ls s =>
    let (vs, s) := laneReads c q.pt (f.hint == 1) q.n ls (before c f ls s)
    after c f ls (deliverVals c f vs s)) s
/-- `ldx`: one access, for the lowest-slot active thread; its value goes to every active thread. -/
def effLdx (f : FmtM) (c : Ctx) (s : State) : Fin :=
  let q := loadReq f
  accessLanes c (.ldx f) q (useNums (useOf f.data (dataN f))) (some (c.active.map (·.2))) ((laneAddrs c (addrM c f)).take 1) (fun ls s =>
    match laneReads c q.pt (f.hint == 1) q.n ls (before c f ls s) with
    | ((_, v) :: _, s) => after c f ls (writeLanes c f.data (dataN f) (fun _ => v) s)
    | ([], s) => s) s

-- Stores (R414) ---------------------------------------------------------------------------------------------------------

def effSt (f : FmtM) (c : Ctx) (s : State) : Fin :=
  let n := widthOf f
  let nt := if f.hint == 2 then 1 else 0
  let pt := if hasRel f then max nt (pointOf f.scope.toNat) else nt
  accessLanes c (.st f) { space := f.space.toNat, n := n, align := f.order != 0, acc := 1, detail := 1, code := 1, consume := false } [] none
    (laneAddrs c (addrM c f)) (fun ls s =>
      ls.foldl (fun s x => laneWrite c pt x n (dataVal c f x.1.1.2) s) (before c f ls s)) s

-- Atomics (R415-R418) ------------------------------------------------------------------------------------------------------

/-- The type an atomic computes in (R416). -/
def atopTy (f : FmtM) : Nat :=
  let wide := nbits f.width 0 3 == 3
  match atopClass f with
  | 0 => if wide then 7 else 6
  | 1 => if wide then 11 else 10
  | 2 => 12
  | _ => 19
/-- The new value of an atomic (R416). -/
def atopNew (f : FmtM) (x y : Nat) : Nat :=
  let ty := atopTy f
  match atopOp f with
  | 6 => y
  | 7 => if y ≤ x then 0 else x + 1
  | 8 => if x == 0 || y < x then y else x - 1
  | op => redOp ty op x y
def atomReq (f : FmtM) : Req :=
  { space := f.space.toNat, n := widthOf f, align := true, acc := 1, detail := 2, code := 2, atomic := true, pt := pointOf f.scope.toNat, acq := hasAcq f }
/-- One read-modify-write at the scope's point (R163): the old value. `new` gives what is written, if anything. -/
def rmw (c : Ctx) (f : FmtM) (new : Nat → Nat → Option Nat) (x : LaneAt × Loc) (s : State) : Nat × State :=
  let n := widthOf f
  let pt := pointOf f.scope.toNat
  let s := match x.2 with
    | .g pa => (match target pa with | .ctl _ => s | _ => pushBytes c.g pt (pa / 128) (rangeMask (pa % 128) n) s)
    | _ => s
  let (old, s) := laneRead c pt false x n s
  match new x.1.1.2 old with
  | some v => if locThere x.2 then (old, laneWrite c pt x n v s) else (old, s)
  | none => (old, s)
def rmws (c : Ctx) (f : FmtM) (new : Nat → Nat → Option Nat) : List (LaneAt × Loc) → State → List (Nat × Nat) × State
  | [], s => ([], s)
  | x :: rest, s =>
    let (v, s) := rmw c f new x s
    let (vs, s) := rmws c f new rest s
    ((x.1.1.2, v) :: vs, s)
/-- `atom`, `atomn` and `cas` (R417). `dests`: whether the old value is delivered. -/
def atomic (i : Instr) (f : FmtM) (idx dest : Bool) (new : Ctx → Nat → Nat → Option Nat) (c : Ctx) (s : State) : Fin :=
  accessLanes c i (atomReq f) (if dest then useNums (useOf f.data (dataN f)) else []) none (laneAddrs c (addrAtom c f idx)) (fun ls s =>
    let (vs, s) := rmws c f (new c) ls (before c f ls s)
    after c f ls (if dest then deliverVals c f vs s else s)) s
def effAtom (f : FmtM) (c : Ctx) (s : State) : Fin :=
  atomic (.atom f) f false true (fun c r x => some (atopNew f x (regsOf c r f.index (dataN f)))) c s
def effAtomn (f : FmtM) (c : Ctx) (s : State) : Fin :=
  atomic (.atomn f) f true false (fun c r x => some (atopNew f x (dataVal c f r % 2 ^ (8 * widthOf f)))) c s
def effCas (f : FmtM) (c : Ctx) (s : State) : Fin :=
  atomic (.cas f) f false true (fun c r x => if x == regsOf c r f.data (dataN f) then some (regsOf c r f.index (dataN f)) else none) c s

-- Fences, prefetch, maintenance (R419-R423) ------------------------------------------------------------------------------------

def effFence (f : FmtM) (c : Ctx) (s : State) : Fin :=
  if hasProm f then
    accessLanes c (.fence f) { space := 0, n := 1, align := false, acc := 0, detail := 0, code := 0, consume := false, acq := true } [] none
      (laneAddrs c (fun l => addrOf c f false f.offset.toInt l.1 l.2)) (fun ls s => after c f ls (before c f ls s)) s
  else
    let s := if hasRel f then release c.g f.scope.toNat s else s
    .done (if hasAcq f then acquire c.g f.scope.toNat true s else s)
/-- `prefetch` (R421): it fills a line, or is dropped. -/
def effPrefetch (f : FmtM) (c : Ctx) (s : State) : Fin :=
  .done (c.active.foldl (fun s l =>
    match translate (.core c.g) (rootOf s c.blk) (secureOf s c.blk) (BitVec.ofNat 64 (addrM c f l)) 0 s with
    | (.ok pa, s) =>
      (match homeOf pa with
       | some _ => if f.hint == 2 then (fldRead (secureOf s c.blk) (fieldOf c.g) (pa / 128) fullMask s).2 else (l1Read (secureOf s c.blk) c.g (pa / 128) fullMask (f.hint == 1) s).2
       | none => s)
    | (_, s) => s) s)
/-- The lines some lanes name, once each (R422). -/
def namedLines (ls : List (LaneAt × Loc)) : List Nat :=
  (ls.filterMap (fun x => match x.2 with | .g pa => some (pa / 128) | _ => none)).eraseDups
/-- `clean` of one line at a scope (R422). -/
def cleanLine (g scope ln : Nat) (s : State) : State :=
  let s := if 1 ≤ scope then cleanL1 g ln s else s
  if 2 ≤ scope then cleanRdc (fieldOf g) ln s else s
/-- A line loses its clean bytes (R422). -/
def dropLineClean (ln : Nat) (c : SMap Line) : SMap Line :=
  match mfind c ln with
  | some l => if l.dirty = 0 then mdel c ln else mput c ln { l with valid := l.dirty, kept := false, poison := keepPoison l.dirty l.poison }
  | none => c
/-- `inval` of one line at a scope, after its clean (R422): the L1, the fetch buffers in scope, and the RDC copies, clean bytes alone, of the fields that the
scope includes, so that no core it includes fetches old code after it (R423). -/
def invalLine (g scope ln : Nat) (s : State) : State :=
  let s := modCore g (fun k => { k with l1 := dropLineClean ln k.l1 }) (cleanLine g scope ln s)
  let covered := fun (h : Nat) => h == g || (scope == 1 && fieldOf h == fieldOf g) || 2 ≤ scope
  let s : State := { s with cores := s.cores.map (fun (e : Nat × Core) =>
    if covered e.1 then (e.1, { e.2 with fetchBuf := e.2.fetchBuf.filter (fun x => x.1 / 2 != ln) }) else e) }
  { s with fields := s.fields.map (fun (e : Nat × Field) =>
      if 2 ≤ scope || e.1 == fieldOf g then (e.1, { e.2 with rdc := dropLineClean ln e.2.rdc }) else e) }
def lineReq : Req := { space := 0, n := 1, align := false, acc := 0, detail := 5, code := 8, consume := false }
def effClean (f : FmtM) (c : Ctx) (s : State) : Fin :=
  accessLanes c (.clean f) lineReq [] none (laneAddrs c (addrM c f)) (fun ls s => (namedLines ls).foldl (fun s ln => cleanLine c.g f.scope.toNat ln s) s) s
def effInval (f : FmtM) (c : Ctx) (s : State) : Fin :=
  accessLanes c (.inval f) lineReq [] none (laneAddrs c (addrM c f)) (fun ls s => (namedLines ls).foldl (fun s ln => invalLine c.g f.scope.toNat ln s) s) s

-- Yoke FIFOs (R77, R78, R218, R424-R427) -----------------------------------------------------------------------------------------

/-- Put an entry in the FIFO toward the partner. -/
def yPush (g : Nat) (y : YEntry) (s : State) : State :=
  if (getFld s (fieldOf g)).gated then modFld (fieldOf g) (fun k => { k with yokeBuf := mput k.yokeBuf (g % 128) (mget [] k.yokeBuf (g % 128) ++ [y]) }) s
  else modCore g (fun k => { k with fifo := k.fifo ++ [y] }) s
/-- The first entry of a launch going a way leaves a FIFO. -/
def yTake (launch : Nat) (up : Bool) : List YEntry → List YEntry
  | [] => []
  | y :: rest => if y.launch == launch && y.up == up then rest else y :: yTake launch up rest
/-- Serve a sender (R425): its 128 bytes enter as one entry (conventions: DEDUCED, assumption 42). -/
def yServeSend (g : Nat) (w : YWaiter) (s : State) : State :=
  let (bs, s) := rdLoc (secureOf s w.blk) g 0 false (.sc (spots s w.blk w.space w.addr 128)) 128 s
  yPush g { launch := (getBlk s w.blk).launch, up := g % 256 < 128, bytes := bs } s
/-- The oldest entry of a block's launch toward a core. -/
def yFind (s : State) (g b : Nat) : Option YEntry := (fifoFrom s g).find? (fun y => y.launch == (getBlk s b).launch)
/-- Serve a receiver (R425): the oldest entry of its launch leaves the FIFO, and its bytes are written. -/
def yServeRecv (g : Nat) (w : YWaiter) (s : State) : State :=
  match yFind s g w.blk with
  | none => s
  | some y =>
    let up := !(g % 256 < 128)
    let s := if (getFld s (fieldOf g)).gated then
        modFld (fieldOf g) (fun k => { k with yokeBuf := mput k.yokeBuf (g % 128) (yTake y.launch up (mget [] k.yokeBuf (g % 128))) }) s
      else modCore (partner g) (fun k => { k with fifo := yTake y.launch up k.fifo }) s
    wrLoc (secureOf s w.blk) g 0 (.sc (spots s w.blk w.space w.addr 128)) y.bytes s
/-- A sender of a core has a place, and a receiver has an entry: the first waiter that does. -/
def ySendReady (s : State) (g : Nat) : Option YWaiter := if (fifoTo s g).length < 16 then (getCore s g).ysendQ.head? else none
/-- Conventions: DEDUCED, assumption 42. -/
def yRecvReady (s : State) (g : Nat) : Option YWaiter := (getCore s g).yrecvQ.find? (fun w => (yFind s g w.blk).isSome)
/-- Serve waiters of a core and its partner until none can be served (R425). -/
def yPump (g : Nat) : Nat → State → State
  | 0, s => s
  | fuel + 1, s =>
    let one := fun (h : Nat) (s : State) =>
      let s := match ySendReady s h with
        | some w => endWait w.blk w.rank (· == .ysend) (modCore h (fun k => { k with ysendQ := k.ysendQ.drop 1 }) (yServeSend h w s))
        | none => s
      match yRecvReady s h with
      | some w => endWait w.blk w.rank (· == .yrecv) (modCore h (fun k => { k with yrecvQ := k.yrecvQ.erase w }) (yServeRecv h w s))
      | none => s
    let left := fun (s : State) => (getCore s g).ysendQ.length + (getCore s g).yrecvQ.length + (getCore s (partner g)).ysendQ.length + (getCore s (partner g)).yrecvQ.length
    let s' := one (partner g) (one g s)
    if left s' == left s then s' else yPump g fuel s'
/-- Serve the waiters of a core's yoke. -/
def pumpYoke (g : Nat) (s : State) : State :=
  yPump g ((getCore s g).ysendQ.length + (getCore s g).yrecvQ.length + (getCore s (partner g)).ysendQ.length + (getCore s (partner g)).yrecvQ.length) s
/-- Serve the waiters of every yoke. -/
def pumpYokes (s : State) : State := (mkeys s.cores).foldl (fun s g => pumpYoke g s) s

def yReq (space detail : Nat) (consume : Bool) : Req :=
  { space := space, n := 128, align := false, acc := detail, detail := detail, code := detail, consume := consume, al := 16 }
def effYsend (f : FmtM) (c : Ctx) (s : State) : Fin :=
  accessLanes c (.ysend f) (yReq f.space.toNat 0 true) [] none (laneAddrs c (addrM c f)) (fun ls s =>
    ls.foldl (fun s x =>
      let w : YWaiter := { blk := c.blk, rank := x.1.1.2, space := f.space.toNat, addr := x.1.2 }
      if (fifoTo s c.g).length < 16 && (getCore s c.g).ysendQ.isEmpty then pumpYoke c.g (yServeSend c.g w s)
      else beginWait c.blk w.rank .ysend (modCore c.g (fun k => { k with ysendQ := k.ysendQ ++ [w] }) s)) s) s
def effYrecv (f : FmtM) (c : Ctx) (s : State) : Fin :=
  accessLanes c (.yrecv f) (yReq f.space.toNat 1 false) [] none (laneAddrs c (addrM c f)) (fun ls s =>
    ls.foldl (fun s x =>
      let w : YWaiter := { blk := c.blk, rank := x.1.1.2, space := f.space.toNat, addr := x.1.2 }
      if (yFind s c.g c.blk).isSome && (getCore s c.g).yrecvQ.isEmpty then pumpYoke c.g (yServeRecv c.g w s)
      else beginWait c.blk w.rank .yrecv (modCore c.g (fun k => { k with yrecvQ := k.yrecvQ ++ [w] }) s)) s) s
/-- `yprobe` (R426). -/
def effYprobe (f : FmtA) (c : Ctx) (s : State) : Fin :=
  let r := if bit f.mods 0 then (yFind s c.g c.blk).isSome && (getCore s c.g).yrecvQ.isEmpty
    else (fifoTo s c.g).length < 16 && (getCore s c.g).ysendQ.isEmpty
  .done (writeP c f.d (fun _ => r) s)

-- The instructions --------------------------------------------------------------------------------------------------------------

def execLd (f : FmtM) (s : State) : Host.Outcome State Fault Refusal := issueM .ld f effLd s
def execLdx (f : FmtM) (s : State) : Host.Outcome State Fault Refusal := issueM .ldx f effLdx s
def execSt (f : FmtM) (s : State) : Host.Outcome State Fault Refusal := issueM .st f effSt s
def execAtom (f : FmtM) (s : State) : Host.Outcome State Fault Refusal := issueM .atom f effAtom s
def execAtomn (f : FmtM) (s : State) : Host.Outcome State Fault Refusal := issueM .atomn f effAtomn s
def execCas (f : FmtM) (s : State) : Host.Outcome State Fault Refusal := issueM .cas f effCas s
def execFence (f : FmtM) (s : State) : Host.Outcome State Fault Refusal := issueM .fence f effFence s
def execPrefetch (f : FmtM) (s : State) : Host.Outcome State Fault Refusal := issueM .prefetch f effPrefetch s
def execClean (f : FmtM) (s : State) : Host.Outcome State Fault Refusal := issueM .clean f effClean s
def execInval (f : FmtM) (s : State) : Host.Outcome State Fault Refusal := issueM .inval f effInval s
def execYsend (f : FmtM) (s : State) : Host.Outcome State Fault Refusal := issueM .ysend f effYsend s
def execYrecv (f : FmtM) (s : State) : Host.Outcome State Fault Refusal := issueM .yrecv f effYrecv s
def execYprobe (f : FmtA) (s : State) : Host.Outcome State Fault Refusal := issueA .yprobe f effYprobe s

end Sys2Proof.Machine
end

