-- ==== Sys2Proof/Machine/Tensor.lean ====
section
/-! DEFINITION. Tensor records (R243-R247), the engines' accesses (R146, R226), tags (R278-R281, R437), and the Tensor Copy Engine: `trec`, `tcopy`,
`tstore`, `tcopymc` and `recvarm` (R432-R436), with their events. -/
namespace Sys2Proof.Machine

-- Record fields (R243) ---------------------------------------------------------------------------------------

abbrev Rec := BitVec 1024
def rBase (r : Rec) : Nat := nbits r 0 64
def rType (r : Rec) : Nat := nbits r 64 5
def rRank (r : Rec) : Nat := nbits r 69 3
def rStagger (r : Rec) : Nat := nbits r 72 3
def rOob (r : Rec) : Nat := nbits r 75 2
def rScaleKind (r : Rec) : Nat := nbits r 77 2
def rSpitch (r : Rec) : Nat := nbits r 80 16
def rFill (r : Rec) : Nat := nbits r 96 32
def rDim (r : Rec) (i : Nat) : Nat := nbits r (128 + 32 * i) 32
/-- Byte stride of dimension i = 1-4, signed. -/
def rStride (r : Rec) (i : Nat) : Int := toSigned 48 (nbits r (256 + 64 * i) 48)
/-- Box extent of dimension i. -/
def rBox (r : Rec) (i : Nat) : Nat := nbits r (576 + 12 * i) 12 + 1
def rScaleBase (r : Rec) : Nat := nbits r 640 64
def rScaleStride (r : Rec) : Int := toSigned 48 (nbits r 704 48)
/-- Element size in half-bytes; 0 for a type no tensor has (R244). -/
def e2Of (ty : Nat) : Nat :=
  if [0, 4, 8, 15, 16].contains ty then 2
  else if [1, 5, 9, 13, 14].contains ty then 4
  else if [2, 6, 10, 12].contains ty then 8
  else if ty == 17 then 1 else 0
def rE2 (r : Rec) : Nat := e2Of (rType r)
/-- Elements of the tile. -/
def rCount (r : Rec) : Nat := rBox r 0 * rBox r 1 * rBox r 2 * rBox r 3 * rBox r 4
/-- Bytes of B0 elements. -/
def rRowBytes (r : Rec) : Nat := ceilDiv (rBox r 0 * rE2 r) 2
/-- The scratch row pitch (R247). -/
def rPitch (r : Rec) : Nat :=
  if rSpitch r != 0 then rSpitch r * 16 else roundUp (rRowBytes r) (if rStagger r == 0 then 16 else 128)

/-- The check of `trec` (R244): 0, or the first failing code in the order of the table. -/
def recCheck (r : Rec) : Nat :=
  let rank := rRank r
  let q4 := rType r == 17
  let e := if q4 then 16 else rE2 r / 2
  if rE2 r == 0 then 0x21
  else if rank == 0 || 5 < rank then 0x22
  else if (upto 5).any (fun i => rank ≤ i && (rDim r i != 0 || rBox r i != 1 || (i != 0 && rStride r i != 0))) then 0x23
  else if (upto 4).any (fun i => rStride r (i + 1) % (e : Int) != 0) || (q4 && (rBase r % 16 != 0 || rDim r 0 % 32 != 0 || rBox r 0 % 32 != 0)) then 0x24
  else if 3 < rStagger r || (rStagger r != 0 && rPitch r % 128 != 0) || (rSpitch r != 0 && rSpitch r * 16 < rRowBytes r) then 0x25
  else if (rScaleKind r == 1 && rType r != 15 && rType r != 16) || (rScaleKind r == 2) != q4 || (rScaleKind r != 0 && 2 < rank) || rScaleKind r == 3 then 0x26
  else if rOob r == 3 || (rFill r != 0 && rOob r != 1) then 0x29
  else if bit r 79 || nbits r 288 32 != 0 || nbits r 368 16 != 0 || nbits r 432 16 != 0 || nbits r 496 16 != 0 || nbits r 560 16 != 0 || nbits r 636 4 != 0 ||
      nbits r 752 272 != 0 then 0x27
  else if 2 ^ 24 < rCount r then 0x28
  else 0

/-- Box position of walk index j (R245). -/
def boxPos (r : Rec) (j : Nat) : List Nat :=
  let b := (upto 5).map (rBox r)
  [j % b.getD 0 1, j / b.getD 0 1 % b.getD 1 1, j / (b.getD 0 1 * b.getD 1 1) % b.getD 2 1, j / (b.getD 0 1 * b.getD 1 1 * b.getD 2 1) % b.getD 3 1,
    j / (b.getD 0 1 * b.getD 1 1 * b.getD 2 1 * b.getD 3 1)]
/-- Absolute coordinates of walk index j (R245). -/
def coordsAt (r : Rec) (coords : List Int) (j : Nat) : List Int :=
  let ks := boxPos r j
  (upto 5).map (fun i => (if i < rRank r then coords.getD i 0 else 0) + (ks.getD i 0 : Nat))
/-- Out of bounds (R246). -/
def oobAt (r : Rec) (x : List Int) : Bool := (upto (rRank r)).any (fun i => x.getD i 0 < 0 || (rDim r i : Int) ≤ x.getD i 0)
/-- Address of an element in half-bytes, modulo 2^65 (R245, R110). -/
def elAddr2 (r : Rec) (x : List Int) : Nat :=
  let a : Int := 2 * (rBase r : Int) + x.getD 0 0 * (rE2 r : Nat) + 2 * ((upto 4).foldl (fun (t : Int) i => t + x.getD (i + 1) 0 * rStride r (i + 1)) 0)
  (a % (2 ^ 65 : Nat)).toNat
/-- Clamped coordinates (R246). -/
def clampAt (r : Rec) (x : List Int) : List Int :=
  (upto 5).map (fun i => if i < rRank r then min (max (x.getD i 0) 0) ((rDim r i : Int) - 1) else x.getD i 0)
/-- Where a read of an element goes: a value, or an address in half-bytes with the coordinates read (R246). -/
inductive ElSrc where
  | value (v : Nat)
  | at (a2 : Nat) (x : List Int)
  deriving DecidableEq, Repr
/-- The low bits of the fill pattern that an element takes. -/
def fillEl (r : Rec) : Nat := rFill r % 2 ^ (4 * rE2 r)
def elSrc (r : Rec) (x : List Int) : ElSrc :=
  if !oobAt r x then .at (elAddr2 r x) x
  else match rOob r with
    | 1 => .value (fillEl r)
    | 2 => if (upto (rRank r)).any (fun i => rDim r i == 0) then .value 0 else .at (elAddr2 r (clampAt r x)) (clampAt r x)
    | _ => .value 0
/-- Offset of element j's first byte on the scratch side, and its nibble (R247). -/
def scratchOff (r : Rec) (j : Nat) : Nat × Nat :=
  let row := j / rBox r 0
  let b2 := j % rBox r 0 * rE2 r
  let b := b2 / 2
  let m := rStagger r
  let o :=
    if m == 0 then row * rPitch r + b
    else
      let unit := 4 <<< (m - 1)
      let count := 128 / unit
      row * rPitch r + b / 128 * 128 + (b % 128 / unit + row) % count * unit + b % unit
  (o, b2 % 2)

-- Engine accesses (R146, R226, R140) ------------------------------------------------------------------------------

/-- A fault met by an engine: kind, level, physical address, virtual address. -/
abbrev EFault := Nat × Nat × Nat × Nat

/-- Translate an address for an engine of a field. -/
def ttuXl (f root : Nat) (sec : Bool) (va acc : Nat) (s : State) : Except EFault Nat × State :=
  match translate (.ttu f) root sec (BitVec.ofNat 64 va) acc s with
  | (.ok pa, s) => (.ok pa, s)
  | (.fault k l pa, s) => (.error (k, l, pa, va), s)
  | (_, s) => (.error (kWorld, (match (walk (some f) root sec (BitVec.ofNat 64 va) s).1 with | .leaf l _ _ => l | .fault _ l => l), 0, va), s)
/-- Physical parts of a virtual range: (physical address, bytes). -/
def ttuParts (f root : Nat) (sec : Bool) (acc : Nat) : List (Nat × Nat × Nat) → State → Except EFault (List (Nat × Nat)) × State
  | [], s => (.ok [], s)
  | (ln, lo, n) :: rest, s =>
    match ttuXl f root sec (ln * 128 + lo) acc s with
    | (.error e, s) => (.error e, s)
    | (.ok pa, s) =>
      match ttuParts f root sec acc rest s with
      | (.error e, s) => (.error e, s)
      | (.ok ps, s) => (.ok ((pa, n) :: ps), s)
/-- Bytes of a part of a line before its first poisoned word; none where no word of it is poisoned. -/
def poisonAhead (p : BitVec 16) (lo n : Nat) : Option Nat := ((wordsTouched (rangeMask lo n)).find? (fun w => bit p w)).map (fun w => 8 * w - lo)
/-- Read bytes of physical parts at the field-scope point; a poisoned word stops it, and its physical address and the bytes before it are given. `done`: the bytes read. -/
def readParts (w : Bool) (f : Nat) : List (Nat × Nat) → (done : Nat) → State → Except (Nat × Nat) (List Byte) × State
  | [], _, s => (.ok [], s)
  | (pa, n) :: rest, done, s =>
    let (x, s) : (List Byte × Option Nat) × State := match target pa with
      | .ctl off => ((ctlBytes s off n, none), s)
      | _ => let ((d, p), s) := fldRead w f (pa / 128) (rangeMask (pa % 128) n) s; ((lineBytes d (pa % 128) n, poisonAhead p (pa % 128) n), s)
    match x.2 with
    | some k => (.error (pa + k, done + k), s)
    | none => match readParts w f rest (done + n) s with
      | (.error e, s) => (.error e, s)
      | (.ok bs, s) => (.ok (x.1 ++ bs), s)
/-- An engine reads bytes at the field-scope point; a fault is at the first byte that meets it. -/
def ttuRead (f root : Nat) (sec : Bool) (va n : Nat) (s : State) : Except EFault (List Byte) × State :=
  match ttuParts f root sec 0 (lineParts (n / 128 + 2) va n) s with
  | (.error e, s) => (.error e, s)
  | (.ok ps, s) =>
    match readParts sec f ps 0 s with
    | (.error x, s) => (.error (kPoison, 0, x.1, (va + x.2) % 2 ^ 64), s)
    | (.ok bs, s) => (.ok bs, s)
/-- Bytes of a line but those of a list of physical bytes. -/
def maskBut (lost : List Nat) (pa n : Nat) : BitVec 128 :=
  if lost.isEmpty then rangeMask (pa % 128) n
  else (upto n).foldl (fun (m : BitVec 128) i => if lost.contains (pa + i) then m else m ||| (1 <<< (pa % 128 + i))) 0
/-- The dirty bytes that the issuing core's L1 and its field's RDC hold beside an engine's bytes in the same aligned 8-byte words go to the home first, with the rest of their
line: a store is before an engine's write whole, or after it (R171). -/
def pushWords (g ln : Nat) (m : BitVec 128) (s : State) : State :=
  let beside := (wordsTouched m).foldl (fun (k : BitVec 128) w => k ||| rangeMask (8 * w) 8) 0 &&& ~~~m
  let s := if (mget emptyLine (getCore s g).l1 ln).dirty &&& beside = 0 then s else cleanL1 g ln s
  if (mget emptyLine (getFld s (fieldOf g)).rdc ln).dirty &&& beside = 0 then s else cleanRdc (fieldOf g) ln s
/-- Write bytes of physical parts at their homes, but not `lost` ones; the issuing core's L1 and its field's RDC lose them and the clean bytes of their lines (R169). -/
def writeParts (sec : Bool) (lost : List Nat) (g : Nat) : List (Nat × Nat) → List Byte → State → State
  | [], _, s => s
  | (pa, n) :: rest, bs, s =>
    let ln := pa / 128
    let m := maskBut lost pa n
    let s := match target pa with
      | .ctl off => { s with agenda := s.agenda ++ (ctlEvents s off (bs.take n)).map .event }
      | _ => homeWrite ln (lineWith (bs.take n) (pa % 128)) m (homeReq (some sec) (fieldOf g) ln (pushWords g ln m s))
    let s := modCore g (fun c => { c with l1 := dropLineClean ln (dropBytes m ln c.l1) }) s
    let s := modFld (fieldOf g) (fun k => { k with rdc := dropLineClean ln (dropBytes m ln k.rdc) }) s
    writeParts sec lost g rest (bs.drop n) s
/-- An engine writes bytes at their home (R169). -/
def ttuWrite (g root : Nat) (sec : Bool) (va : Nat) (bs : List Byte) (s : State) (lost : List Nat := []) : Except EFault Unit × State :=
  match ttuParts (fieldOf g) root sec 1 (lineParts (bs.length / 128 + 2) va bs.length) s with
  | (.error e, s) => (.error e, s)
  | (.ok ps, s) => (.ok (), writeParts sec lost g ps bs s)
/-- Read one element of a record (R245, R246). -/
def elRead (g root : Nat) (sec : Bool) (r : Rec) (x : List Int) (s : State) : Except EFault Nat × State :=
  match elSrc r x with
  | .value v => (.ok v, s)
  | .at a2 _ =>
    match ttuRead (fieldOf g) root sec (a2 / 2 % 2 ^ 64) (max 1 (rE2 r / 2)) s with
    | (.error e, s) => (.error e, s)
    | (.ok bs, s) =>
      let v := (ofBytes 32 bs).toNat
      (.ok (if rE2 r == 1 then v / 2 ^ (4 * (a2 % 2)) % 16 else v), s)
/-- Write one in-bounds element of a record at its home (R169); the other nibble of a q4x byte stays. -/
def elWrite (g root : Nat) (sec : Bool) (r : Rec) (x : List Int) (v : Nat) (s : State) (lost : List Nat := []) : Except EFault Unit × State :=
  if oobAt r x then (.ok (), s)
  else
    let a2 := elAddr2 r x
    let va := a2 / 2 % 2 ^ 64
    if rE2 r == 1 then
      match ttuXl (fieldOf g) root sec va 1 s with
      | (.error e, s) => (.error e, s)
      | (.ok pa, s) =>
        let ((d, _), s) := homeRead (pa / 128) s
        let old := nbits d (8 * (pa % 128)) 8
        let b := if a2 % 2 == 0 then old / 16 * 16 + v % 16 else old % 16 + v % 16 * 16
        (.ok (), writeParts sec lost g [(pa, 1)] [BitVec.ofNat 8 b] s)
    else ttuWrite g root sec va (toBytes (rE2 r / 2) (BitVec.ofNat 32 v)) s lost
/-- An engine's access of a field to some bytes waits: the pseudo-channel they lie on, or one that its page walk reads, holds its accesses (R147, R148). -/
def vaHeld (s : State) (f root : Nat) (sec : Bool) (va acc : Nat) : Bool :=
  anyHeld s && (let x := ttuXl f root sec va acc s
    !(heldReach s x.2).isEmpty || (match x.1 with | .ok pa => (pchsOf s pa).any (pchHeld s) | .error _ => false))
/-- The access to an element of a record waits for its pseudo-channel (R147, R148). -/
def elHeld (s : State) (f root : Nat) (sec : Bool) (r : Rec) (x : List Int) (acc : Nat) : Bool :=
  anyHeld s && (match elSrc r x with | .at a2 _ => vaHeld s f root sec (a2 / 2 % 2 ^ 64) acc | .value _ => false)

-- Tags (R278-R281) -----------------------------------------------------------------------------------------------------

def getTag (k : Block) (t : Nat) : Tag := k.tags.getD t {}
def modTag (b t : Nat) (f : Tag → Tag) (s : State) : State := modBlk b (fun k => { k with tags := k.tags.set t (f (getTag k t)) }) s
/-- An operation is issued on a tag. -/
def tagIssue (b t : Nat) (s : State) : State := modTag b t (fun g => { g with set := false, count := g.count + 1 }) s
/-- The condition of a tag wait (R437). -/
def tagsMet (k : Block) (m : DWord) (any : Bool) : Bool :=
  let hit := (upto k.tags.length).filter (fun i => bit m i)
  if any then hit.any (fun i => (getTag k i).set) else hit.all (fun i => (getTag k i).set)
/-- Wake the tag waiters whose condition holds (conventions: DEDUCED, assumption 43). -/
def tagWake (b : Nat) (s : State) : State :=
  (mkeys (getBlk s b).members).foldl (fun s r =>
    endWait b r (fun w => match w with | .tag m any => tagsMet (getBlk s b) m any | _ => false) s) s
/-- A completion is merged into a tag (R278); when the bit is set, the acquire of the widest scope merged is made for the block's core (R169). -/
def tagDone (b t status payload scope : Nat) (s : State) : State :=
  let wide := max (getTag (getBlk s b) t).scope scope
  let s := modTag b t (fun g => { g with
    count := g.count - 1, set := g.count ≤ 1, scope := if g.count ≤ 1 then 0 else wide
    crec := if status != 0 && nbits g.crec 0 8 == 0 then BitVec.ofNat 32 (status + payload % 2 ^ 24 * 256) else g.crec }) s
  let k := getBlk s b
  tagWake b (if (getTag k t).set && resident k then acquire k.core wide false s else s)
/-- The instruction would raise a tag's count above 255 (R278). -/
def tagFull (s : State) (c : Ctx) (t : Nat) : Bool := 255 < (getTag (getBlk s c.blk) t).count + c.active.length
/-- The mask a tag instruction names (R437). -/
def tagMask (c : Ctx) (f : FmtE) (r : Nat) : DWord := if f.opnd = null then 1 <<< f.tag.toNat else BitVec.ofNat 64 (src64 c r f.opnd)

def effTagwait (f : FmtE) (c : Ctx) (s : State) : Fin :=
  .done (c.active.foldl (fun s l =>
    let m := tagMask c f l.2
    if tagsMet (getBlk s c.blk) m (bit f.espec 0) then s
    else beginWait c.blk l.2 (.tag m (bit f.espec 0)) s) s)
def effTagffs (f : FmtE) (c : Ctx) (s : State) : Fin :=
  let k := getBlk s c.blk
  .done (writeLanes c f.status 1 (fun l =>
    let m : DWord := if f.opnd = null then BitVec.allOnes 64 else BitVec.ofNat 64 (src64 c l.2 f.opnd)
    ((upto k.tags.length).find? (fun i => bit m i && (getTag k i).set)).getD 64) s)
def effTagclr (f : FmtE) (c : Ctx) (s : State) : Fin :=
  .done (c.active.foldl (fun s l =>
    let m := tagMask c f l.2
    (upto (getBlk s c.blk).tags.length).foldl (fun s i =>
      if bit m i && (getTag (getBlk s c.blk) i).count == 0 then tagWake c.blk (modTag c.blk i (fun g => { g with set := true, crec := 0 }) s) else s) s) s)
def effTagstat (f : FmtE) (c : Ctx) (s : State) : Fin :=
  let g := getTag (getBlk s c.blk) f.tag.toNat
  .done (writeLanes c f.status 1 (fun _ => if bit f.espec 0 then g.count + b2n g.set * 256 else g.crec.toNat) s)

-- Record slots (R79, R432) ------------------------------------------------------------------------------------------------

def getRec (k : Block) (n : Nat) : RecSlot := k.recs.getD n {}
def modRec (b n : Nat) (f : RecSlot → RecSlot) (s : State) : State := modBlk b (fun k => { k with recs := k.recs.set n (f (getRec k n)) }) s
/-- A command that names a slot issues, or retires (R79). -/
def recHold (b n : Nat) (s : State) : State := modRec b n (fun r => { r with refs := r.refs + 1 }) s
def recDrop (b n : Nat) (s : State) : State := modRec b n (fun r => { r with refs := r.refs - 1 }) s

/-- `trec` (R432). -/
def effTrec (f : FmtE) (c : Ctx) (s : State) : Fin :=
  let n := f.rslot.toNat
  if (getRec (getBlk s c.blk) n).refs != 0 then .stall
  else accessLanes c (.trec f) { space := 0, n := 128, align := true, acc := 0, detail := 0, code := 0 } (useNums (useOf f.status 1)) none
    (c.active.map (fun l => (l, src64 c l.2 f.opnd))) (fun ls s =>
      let (codes, s) := ls.foldl (fun (acc : List (Nat × Nat) × State) x =>
        let (bs, s) := rdLoc (secureOf acc.2 c.blk) c.g 0 false x.2 128 acc.2
        let r : Rec := ofBytes 1024 bs
        let code := recCheck r
        (acc.1 ++ [(x.1.1.2, code)], if code == 0 then modRec c.blk n (fun k => { k with bits := r, valid := true }) s else s)) ([], s)
      writeLanes { c with active := ls.map (fun x => x.1.1), all := [] } f.status 1 (fun l => ((codes.find? (fun v => v.1 == l.2)).map (·.2)).getD 0) s) s

-- Copies (R433, R436) --------------------------------------------------------------------------------------------------------

/-- The coordinates a thread's registers hold (R433). -/
def coordVals (c : Ctx) (rank : Nat) (coord : BitVec 9) (r : Rec) : List Int :=
  (upto (rRank r)).map (fun i => toSigned 32 (regOf c rank (coord.toNat + i)).toNat)
/-- A coordinate register beyond s63 (R433). -/
def coordBad (coord : BitVec 9) (r : Rec) : Bool := isS coord && 0x140 < coord.toNat + rRank r
/-- The write-back of a copy's source lines at issue (R169, R433). -/
def flushSource (c : Ctx) (r : Rec) (coords : List Int) (s : State) : State :=
  if (getCore s c.g).l1.all (fun e => e.2.dirty = 0) then s
  else (upto (rCount r)).foldl (fun s j =>
    match elSrc r (coordsAt r coords j) with
    | .at a2 _ => (lineParts 2 (a2 / 2 % 2 ^ 64) (max 1 (rE2 r / 2))).foldl (fun s (ln, lo, _) =>
        match peekPa s c.g c.blk (BitVec.ofNat 64 (ln * 128 + lo)) with | some pa => cleanL1 c.g (pa / 128) s | none => s) s
    | .value _ => s) s
/-- Translate pages until one faults (R228). -/
def preWalkPages (f root : Nat) (sec : Bool) : List Nat → State → State
  | [], s => s
  | p :: rest, s =>
    match ttuXl f root sec (p * 4096) 0 s with
    | (.ok _, s) => preWalkPages f root sec rest s
    | (.error _, s) => s
/-- The first 32 pages of a record's tile walk from an element on, in walk order (R228). -/
def walkPages (r : Rec) (coords : List Int) (from_ : Nat) : List Nat :=
  (upto (rCount r - from_)).foldl (fun (l : List Nat) i =>
    if 32 ≤ l.length then l
    else match elSrc r (coordsAt r coords (from_ + i)) with
      | .at a2 _ => let p := a2 / 2 % 2 ^ 64 / 4096; if l.contains p then l else l ++ [p]
      | .value _ => l) []
/-- The pre-walk of a record that is latched for a command (R228) (conventions: DESIGN CHOICE, assumption 92). -/
def preWalk (f b : Nat) (r : Rec) (coords : List Int) (from_ : Nat) (s : State) : State :=
  preWalkPages f (rootOf s b) (secureOf s b) (walkPages r coords from_) s
/-- Issue of a copy by every active thread (R428, R433): RECORD_EMPTY, a coordinate beyond s63, a stall on a full tag count, else one operation each. -/
def copyIssue (kind : Nat) (f : FmtE) (c : Ctx) (s : State) : Fin :=
  let slot := getRec (getBlk s c.blk) f.rslot.toNat
  if !slot.valid then .done (raise c c.active cRecordEmpty s)
  else if coordBad f.coord slot.bits then .done (raise c c.active cIllegalEnc s)
  else if tagFull s c f.tag.toNat then .stall
  else .done (c.active.foldl (fun s l =>
    let coords := coordVals c l.2 f.coord slot.bits
    let s := if kind == 1 then s else flushSource c slot.bits coords s
    let s := preWalk (fieldOf c.g) c.blk slot.bits coords 0 (if kind == 2 then release c.g 1 s else s)
    let cp : Copy := {
      id := s.nextId, blk := c.blk, kind := kind, tag := f.tag.toNat, slot := f.rslot.toNat, record := slot.bits, coords := coords
      space := if kind == 2 then 1 else nbits f.espec 0 2 + 1
      off := if kind == 2 || f.opnd = null then 0 else src32 c l.2 f.opnd 0
      counter := if kind != 2 && bit f.ectl 12 then some (nbits f.ectl 0 12) else none
      mask := if kind == 2 then bits f.ectl 0 24 else 0, rslot := if kind == 2 then nbits f.espec 0 3 else 0 }
    recHold c.blk cp.slot (tagIssue c.blk cp.tag { s with copies := s.copies ++ [cp], nextId := s.nextId + 1 })) s)
def effTcopy (f : FmtE) (c : Ctx) (s : State) : Fin := copyIssue 0 f c s
def effTstore (f : FmtE) (c : Ctx) (s : State) : Fin := copyIssue 1 f c s
def effTcopymc (f : FmtE) (c : Ctx) (s : State) : Fin := copyIssue 2 f c s

/-- A copy ends (R433, R278): its counter is decremented, and its tag takes the status. -/
def copyFinish (cp : Copy) (status payload : Nat) (s : State) : State :=
  let k := getBlk s cp.blk
  let s := match cp.counter with
    | some n => let s := release k.core 2 s; { s with decs := s.decs ++ [n] }
    | none => s
  let s := { s with copies := s.copies.filter (fun x => x.id != cp.id) }
  tagDone cp.blk cp.tag status payload 0 (recDrop cp.blk cp.slot s)
/-- The fault record of an engine's operation of a block (R229). -/
def engineRec (s : State) (b unit access : Nat) (e : EFault) (src : FSource) : FRec :=
  { blkRec s b (BitVec.ofNat 64 e.2.2.2) src with
    kind := BitVec.ofNat 3 e.1, level := BitVec.ofNat 3 e.2.1, pa := e.2.2.1, access := BitVec.ofNat 4 access, source := 2, unit := BitVec.ofNat 6 unit }
/-- The number of a byte of a scratch space. -/
def spotKey : Spot → Option Nat
  | .pad g off => some (padKey g off)
  | _ => none
/-- What one element of a copy did. -/
inductive CopyOut where
  | done (cp : Copy) (s : State)
  | fault (e : EFault) (access : Nat) (s : State)
  | world
  deriving DecidableEq, Repr
/-- The engine has written an element (R287, event 0x10): its bytes; two elements of 4 bits are one byte, counted with the first. -/
def tceWrote (b e2 nib : Nat) (s : State) : State :=
  perfAdd (fieldOf (getBlk s b).core) 0x10 none (some (secureOf s b)) (if e2 == 1 then 1 - nib else e2 / 2) s
/-- A copy moves its next element (R433, R436). -/
def copyEl (cp : Copy) (s : State) : CopyOut :=
  let k := getBlk s cp.blk
  let root := rootOf s cp.blk
  let sec := secureOf s cp.blk
  let r := cp.record
  let x := coordsAt r cp.coords cp.elem
  let (so, nib) := scratchOff r cp.elem
  let n := max 1 (rE2 r / 2)
  let all := spots s cp.blk cp.space (cp.off + so) n
  let ps := all.map (fun p => match spotKey p with | some b => if cp.lost.contains b then .none else p | none => p)
  let next := { cp with elem := cp.elem + 1 }
  if cp.kind == 2 then
    match elRead k.core root sec r x s with
    | (.ok v, s) => .done { next with data := v :: cp.data } s
    | (.error e, s) => .fault e 6 s
  else if cp.kind == 1 && oobAt r x then .done next s
  else if all.contains .world then .world
  else if cp.kind == 0 then
    match elRead k.core root sec r x s with
    | (.error e, s) => .fault e 6 s
    | (.ok v, s) =>
      if rE2 r == 1 then
        let (old, s) := rdLoc sec k.core 0 false (.sc all) 1 s
        let o := (ofBytes 8 old : BitVec 8).toNat
        .done next (tceWrote cp.blk 1 nib (wrLoc sec k.core 0 (.sc ps) [BitVec.ofNat 8 (if nib == 0 then o / 16 * 16 + v % 16 else o % 16 + v % 16 * 16)] s))
      else .done next (tceWrote cp.blk (rE2 r) 0 (wrLoc sec k.core 0 (.sc ps) (toBytes n (BitVec.ofNat 32 v)) s))
  else if spotsPoison s all then .fault (kPoison, 0, 0, elAddr2 r x / 2 % 2 ^ 64) 6 s
  else
    let (bs, s) := rdLoc sec k.core 0 false (.sc all) n s
    let v := (ofBytes 32 bs : BitVec 32).toNat
    match elWrite k.core root sec r x (if rE2 r == 1 then v / 2 ^ (4 * nib) % 16 else v) s cp.lost with
    | (.ok (), s) => .done next (tceWrote cp.blk (rE2 r) nib s)
    | (.error e, s) => .fault e 7 s
-- Granules (R171) and whole words (R140): bytes are numbered physically, those of a scratchpad above the address space

/-- Physical bytes of a virtual range of an engine's tile. -/
def physBytes (s : State) (f root : Nat) (sec : Bool) (va n : Nat) : List Nat :=
  (upto n).filterMap (fun i => match (ttuXl f root sec (va + i) 0 s).1 with | .ok pa => some pa | .error _ => none)
/-- The bytes that element `j` of a copy writes. -/
def copyBytes (s : State) (cp : Copy) (j : Nat) : List Nat :=
  let r := cp.record
  let n := max 1 (rE2 r / 2)
  let x := coordsAt r cp.coords j
  if cp.kind == 0 then (spots s cp.blk cp.space (cp.off + (scratchOff r j).1) n).filterMap spotKey
  else if cp.kind == 2 || oobAt r x then []
  else physBytes s (fieldOf (getBlk s cp.blk).core) (rootOf s cp.blk) (secureOf s cp.blk) (elAddr2 r x / 2 % 2 ^ 64) n
def copyRange (s : State) (cp : Copy) (lo hi : Nat) : List Nat := ((upto (hi - lo)).flatMap (fun i => copyBytes s cp (lo + i))).eraseDups
/-- Every byte of a granule is among some bytes. -/
def granIn (bs : List Nat) (g : Nat) : Bool := (upto 64).all (fun i => bs.contains (g * 64 + i))
/-- The bytes that a copy has written, and those that it still has to write: others have taken over the rest (R171). -/
def copyDone (s : State) (cp : Copy) : List Nat := (copyRange s cp 0 cp.elem).filter (fun b => !cp.lost.contains b)
def copyRest (s : State) (cp : Copy) : List Nat := (copyRange s cp cp.elem (rCount cp.record)).filter (fun b => !cp.lost.contains b)
/-- The granules that a copy covers entirely and has written in part. -/
def splitGrans (s : State) (cp : Copy) : List Nat :=
  let all := copyRange s cp 0 (rCount cp.record)
  let rest := copyRest s cp
  ((copyDone s cp).map (· / 64)).eraseDups.filter (fun g => rest.any (fun b => b / 64 == g) && granIn all g)
/-- The bytes that a copy still has to write of aligned 8-byte words it has written in part. -/
def splitWords (s : State) (cp : Copy) : List Nat :=
  let words := (copyDone s cp).map (· / 8)
  (copyRest s cp).filter (fun b => words.contains (b / 8))
/-- A copy that covers the bytes `all` has written some of them: what other copies, stopped inside a granule by a fault or a held access, still had to write into one that both
cover is theirs no longer (R171). -/
def takeGrans (id : Option Nat) (all written : List Nat) (s : State) : State :=
  { s with copies := s.copies.map (fun x =>
      if some x.id == id || x.elem == 0 then x
      else
        let gs := (splitGrans s x).filter (fun g => written.any (fun b => b / 64 == g) && granIn all g)
        { x with lost := x.lost ++ (copyRest s x).filter (fun b => gs.contains (b / 64)) }) }
/-- Words of which every byte has been written are no longer poisoned (R140) (conventions: DEDUCED, assumption 88). -/
def wordsClean (bs : List Nat) (s : State) : State :=
  let whole := fun (w : Nat) => (upto 8).all (fun i => bs.contains (w * 8 + i))
  let s := if s.memErr.isEmpty then s else { s with memErr := s.memErr.filter (fun e => !whole e.1) }
  let s := if s.aliasLines.all (fun e => e.2.poison = 0) then s
    else { s with aliasLines := s.aliasLines.map (fun e => (e.1, { e.2 with poison := (upto 16).foldl (fun (p : BitVec 16) i => if whole (e.1 * 16 + i) then p &&& ~~~((1 : BitVec 16) <<< i) else p) e.2.poison })) }
  if s.cores.all (fun e => e.2.scratchErr.isEmpty) then s
  else { s with cores := s.cores.map (fun e => (e.1, { e.2 with scratchErr := e.2.scratchErr.filter (fun x => !whole (2 ^ 57 + e.1 * 2 ^ 15 + x.1)) })) }
def putCopy (cp : Copy) (s : State) : State := { s with copies := modWhere (fun x => x.id == cp.id) (fun _ => cp) s.copies }
/-- Every named receiver has taken or refused the tile (R436). -/
def mcOver (cp : Copy) : Bool := cp.elem == rCount cp.record && cp.mask &&& ~~~cp.doneMask = 0
/-- What stopped a copy. -/
inductive CopyStop where
  | none
  | fault (e : EFault) (access : Nat)
  | world
  deriving DecidableEq, Repr
/-- The next element of a copy reads or writes global memory whose pseudo-channel holds its accesses (R147, R148). -/
def copyHeld (s : State) (cp : Copy) : Bool :=
  elHeld s (fieldOf (getBlk s cp.blk).core) (rootOf s cp.blk) (secureOf s cp.blk) cp.record (coordsAt cp.record cp.coords cp.elem) (if cp.kind == 1 then 1 else 0)
/-- A copy moves at least `want` elements and goes on until it leaves no granule and no word written in part (R171), while no access of it is held. -/
def copySteps : Nat → Nat → Copy → State → Copy × CopyStop × State
  | 0, _, cp, s => (cp, .none, s)
  | fuel + 1, want, cp, s =>
    if cp.elem == rCount cp.record || (want == 0 && (splitGrans s cp).isEmpty && (splitWords s cp).isEmpty) || copyHeld s cp then (cp, .none, s)
    else if !cp.lost.isEmpty && !(copyBytes s cp cp.elem).isEmpty && (copyBytes s cp cp.elem).all (fun b => cp.lost.contains b) then
      copySteps fuel (want - 1) { cp with elem := cp.elem + 1 } s
    else match copyEl cp s with
      | .done next s' => if !(heldReach s s').isEmpty then (cp, .none, s) else copySteps fuel (want - 1) next s'
      | .fault e access s' => if !(heldReach s s').isEmpty then (cp, .none, s) else (cp, .fault e access, s')
      | .world => (cp, .world, s)
/-- A copy advances by `want` elements or a little more; a fault stops it at its progress word. `refault`: it walks again for a replay (conventions:
DEDUCED, assumption 93). -/
def copyRun (refault : Bool) (want : Nat) (cp0 : Copy) (s : State) : State :=
  let again := refault || cp0.again
  let (cp, stop, s) := copySteps (rCount cp0.record + 1) want { cp0 with again := false, half := [] } s
  let written := (copyRange s cp cp0.elem cp.elem).filter (fun b => !cp.lost.contains b)
  let s := takeGrans (some cp.id) (copyRange s cp 0 (rCount cp.record)) written s
  let s := wordsClean (copyDone s cp) s
  let cp := { cp with half := splitWords s cp }
  match stop with
  | .none => if cp.kind != 2 && cp.elem == rCount cp.record then copyFinish cp 0 0 s else putCopy { cp with again := again && cp.elem == cp0.elem } s
  | .world => copyFinish cp 0x42 cp.elem s
  | .fault e access =>
    let f := fieldOf (getBlk s cp.blk).core
    let again := again && cp.elem == cp0.elem
    if !faultRoom s f then putCopy { cp with again := again } s
    else
      let (q, s) := sendFault f { engineRec s cp.blk cp.tag access e (.copy cp.id) with refault := again } s
      putCopy { cp with fault := some q, poisoned := e.1 == kPoison } s
def copyOf (s : State) (op : Nat) : Option Copy := s.copies.find? (fun c => c.id == op)
/-- COPY_COMPLETE: a copy of a resident block advances by `count` elements, or to its end for 0. -/
def execCopyComplete (op count : Nat) (s : State) : Host.Outcome State Fault Refusal :=
  match copyOf s op with
  | none => .next s
  | some cp =>
    if !resident (getBlk s cp.blk) || cp.fault.isSome then .next s
    else .next (copyRun false (if count == 0 then rCount cp.record - cp.elem else count) cp s)

-- Multicast (R435, R436) ---------------------------------------------------------------------------------------------------------

def getRecv (k : Block) (n : Nat) : RecvSlot := mget .idle k.recv n
def setRecv (b n : Nat) (r : RecvSlot) (s : State) : State := modBlk b (fun k => { k with recv := if r == .idle then mdel k.recv n else mput k.recv n r }) s
/-- `recvarm` (R435). -/
def effRecvarm (f : FmtE) (c : Ctx) (s : State) : Fin :=
  let n := nbits f.espec 0 3
  match getRecv (getBlk s c.blk) n with
  | .receiving _ _ _ => .stall
  | _ =>
    if tagFull s c f.tag.toNat then .stall
    else .done (c.active.foldl (fun s l =>
      let s := match getRecv (getBlk s c.blk) n with
        | .armed _ _ t => tagDone c.blk t 0 0 0 s
        | _ => s
      setRecv c.blk n (.armed (src32 c l.2 f.opnd 0) (src32 c l.2 f.coord 0) f.tag.toNat) (tagIssue c.blk f.tag.toNat s)) s)
/-- Write an accepted tile into its receiver's grant (R436, R247). -/
def mcWrite (cp : Copy) (b off : Nat) (s : State) : State :=
  let r := cp.record
  let n := max 1 (rE2 r / 2)
  let bytes := ((upto (rCount r)).flatMap (fun j => (spots s b 1 (off + (scratchOff r j).1) n).filterMap spotKey)).eraseDups
  let s := takeGrans none bytes bytes s
  wordsClean bytes (((upto (rCount r)).zip cp.data.reverse).foldl (fun s (j, v) =>
    let (so, nib) := scratchOff r j
    let ps := spots s b 1 (off + so) n
    let g := (getBlk s b).core
    if rE2 r == 1 then
      let (old, s) := rdLoc (secureOf s b) g 0 false (.sc ps) 1 s
      let o := (ofBytes 8 old : BitVec 8).toNat
      tceWrote b 1 nib (wrLoc (secureOf s b) g 0 (.sc ps) [BitVec.ofNat 8 (if nib == 0 then o / 16 * 16 + v % 16 else o % 16 + v % 16 * 16)] s)
    else tceWrote b (rE2 r) 0 (wrLoc (secureOf s b) g 0 (.sc ps) (toBytes n (BitVec.ofNat 32 v)) s)) s)
/-- The sender ends when every receiver is over (R436, R280). -/
def mcSettle (cp : Copy) (s : State) : State :=
  if mcOver cp then (if cp.refusal = 0 then copyFinish cp 0 0 s else copyFinish cp 0x40 cp.refusal.toNat s) else putCopy cp s
/-- MULTICAST_DELIVERY to block slot `k`: the ready tile is accepted or refused, and then an accepted one is written. A receiver that has ended has no armed slot: it
refuses the tile, and is over where it had accepted it (conventions: DEDUCED, assumption 64). -/
def execMulticastDelivery (op k : Nat) (s : State) : Host.Outcome State Fault Refusal :=
  match copyOf s op with
  | none => .next s
  | some cp =>
    if cp.kind != 2 || !resident (getBlk s cp.blk) || cp.elem != rCount cp.record || !bit cp.mask k || bit cp.doneMask k then .next s
    else
      match nbOwner s cp.blk k with
      | none => .next (mcSettle { cp with refusal := if bit cp.accepted k then cp.refusal else cp.refusal ||| (1 <<< k), doneMask := cp.doneMask ||| (1 <<< k) } s)
      | some rb =>
        let n := cp.rslot
        if bit cp.accepted k then
          match getRecv rb n with
          | .receiving off _ t =>
            let s := setRecv rb.id n .idle (mcWrite cp rb.id off s)
            .next (mcSettle { cp with doneMask := cp.doneMask ||| (1 <<< k) } (tagDone rb.id t 0 0 1 s))
          | _ => .next s
        else
          match getRecv rb n with
          | .armed off len t =>
            if ceilDiv (rCount cp.record) (rBox cp.record 0) * rPitch cp.record ≤ len then
              .next (putCopy { cp with accepted := cp.accepted ||| (1 <<< k) } (setRecv rb.id n (.receiving off len t) s))
            else .next (mcSettle { cp with refusal := cp.refusal ||| (1 <<< k), doneMask := cp.doneMask ||| (1 <<< k) } s)
          | _ => .next (mcSettle { cp with refusal := cp.refusal ||| (1 <<< k), doneMask := cp.doneMask ||| (1 <<< k) } s)

-- The instructions --------------------------------------------------------------------------------------------------------------------

def execTrec (f : FmtE) (s : State) : Host.Outcome State Fault Refusal := issueE .trec f effTrec s
def execTcopy (f : FmtE) (s : State) : Host.Outcome State Fault Refusal := issueE .tcopy f effTcopy s
def execTstore (f : FmtE) (s : State) : Host.Outcome State Fault Refusal := issueE .tstore f effTstore s
def execTcopymc (f : FmtE) (s : State) : Host.Outcome State Fault Refusal := issueE .tcopymc f effTcopymc s
def execRecvarm (f : FmtE) (s : State) : Host.Outcome State Fault Refusal := issueE .recvarm f effRecvarm s
def execTagwait (f : FmtE) (s : State) : Host.Outcome State Fault Refusal := issueE .tagwait f effTagwait s
def execTagffs (f : FmtE) (s : State) : Host.Outcome State Fault Refusal := issueE .tagffs f effTagffs s
def execTagclr (f : FmtE) (s : State) : Host.Outcome State Fault Refusal := issueE .tagclr f effTagclr s
def execTagstat (f : FmtE) (s : State) : Host.Outcome State Fault Refusal := issueE .tagstat f effTagstat s

end Sys2Proof.Machine
end

