-- ==== Sys2Proof/Machine/Drill.lean ====
section
/-! DEFINITION. The drill (R219, R328, R329, R438-R447): its vector-side instructions, the reading of its stream, and its commands (R116-R119). -/
namespace Sys2Proof.Machine

-- Accumulator tiles (R52) -------------------------------------------------------------------------------------

def accGet (k : Block) (tile i : Nat) : Word := mget 0 k.acc (tile * 1024 + i)
def accPut (b tile i : Nat) (v : Word) (s : State) : State :=
  modBlk b (fun k => { k with acc := if v = 0 then mdel k.acc (tile * 1024 + i) else mput k.acc (tile * 1024 + i) v }) s
/-- Elements `from` to 1023 of a tile become undefined (R9, R52, R232) (conventions: DEDUCED, assumption 44). -/
def accFree (b tile from_ : Nat) (s : State) : State :=
  (upto (1024 - from_)).foldl (fun s i => let (w, s) := freeW s; accPut b tile (from_ + i) w s) s

def modDrill (b : Nat) (f : Drill → Drill) (s : State) : State := modBlk b (fun k => { k with drill := f k.drill }) s
/-- An `mwait` for a command has ended, or, for none, one for all of them: the command, and those complete before it, are completed for the vector side
(R52) (conventions: DEDUCED, assumption 44). -/
def mwaitDone (b : Nat) (u : Option Nat) (s : State) : State :=
  modDrill b (fun d => { d with owed := d.owed.filter (fun o => match u with
    | some u => !(o.1 == u || d.history.any (fun h => h.uid == u && h.before.contains o.1))
    | none => d.table.any (fun e => e.uid == o.1)) }) s
/-- The command writes its tile. -/
def dWrites : Instr → Bool
  | .dzero _ | .dldacc _ | .dscale _ | .dmma _ => true
  | _ => false
/-- Which of ACC, RECA and RECB a command uses. -/
def dUses : Instr → Bool × Bool × Bool
  | .dzero _ | .dscale _ => (true, false, false)
  | .dldacc _ | .dstacc _ => (true, true, false)
  | .dmma _ => (true, true, true)
  | _ => (false, false, false)
/-- The bits of CTL that must be 0. -/
def dCtlRsv : Instr → Nat
  | .dbarBar _ | .dbarReady _ => 2 ^ 50 - 2 ^ 5
  | .dldacc _ | .dstacc _ | .dmma _ => 2 ^ 50 - 2 ^ 48
  | .dscale _ => 2 ^ 50 - 2 ^ 32
  | _ => 2 ^ 50 - 1
/-- The command's fields are legal within a block's grants (R328, R329, R346). -/
def dLegal (k : Block) (i : Instr) (c : DCmd) : Bool :=
  let u := dUses i
  (c.p1v == 1 || c.p1 == 0) && (c.p2v == 1 || c.p2 == 0) &&
  (if u.1 then decide (c.acc.toNat < k.accs) else c.acc == 0) && (if u.2.1 then decide (c.reca.toNat < k.recs.length) else c.reca == 0) &&
  (if u.2.2 then decide (c.recb.toNat < k.recs.length) else c.recb == 0) && c.ctl.toNat &&& dCtlRsv i == 0
/-- A command of the stream from an address on, up to its `dend` or the first word that fails as it is read (R329), writes a tile. -/
def streamWrites (k : Block) (root : Nat) (sec : Bool) (tile : Nat) : Nat → Nat → State → Bool
  | 0, _, _ => false
  | fuel + 1, va, s =>
    match (ttuRead (fieldOf k.core) root sec va 12 s).1 with
    | .error _ => false
    | .ok bs =>
      match decodeDrill (ofBytes 96 bs) with
      | none => false
      | some i => dLegal k i (decD (ofBytes 96 bs)) && ((dWrites i && (decD (ofBytes 96 bs)).acc.toNat == tile) ||
          (match i with | .dend _ => false | _ => streamWrites k root sec tile fuel ((va + 12) % 2 ^ 64) s))
/-- A vector-side access to a tile that a command no `mwait` has completed also writes, read from the stream or not yet (R52) (conventions: DEDUCED, assumption 44). -/
def accOwed (s : State) (b tile : Nat) : Bool :=
  let k := getBlk s b
  k.drill.owed.any (fun o => o.2 == tile) ||
  (k.drill.reading && streamWrites k (rootOf s b) (secureOf s b) tile 65536 k.drill.addr.toNat s)

-- Failure (R329, R440) ---------------------------------------------------------------------------------------------

def isMatrix : Wait → Bool
  | .matrix _ _ => true
  | _ => false
/-- A failure is recorded: reading stops, and the threads waiting in `mwait` take the cause as if their `mwait` had raised it; those of a block that
stops or is saved on its resumption (R38). -/
def failDrill (b code : Nat) (s : State) : State :=
  let s := modDrill b (fun d => { d with reading := false, failure := match d.failure with | some c => some c | none => some (BitVec.ofNat 8 code) }) s
  (mkeys (getBlk s b).members).foldl (fun s r =>
    let t := getTh s b r
    match t.waits.find? isMatrix with
    | some (.matrix _ pc) =>
      let s := recordTrap b r code 0 pc 0 none s
      let idle := t.place == .waiting || t.place == .rankWait
      if (getBlk s b).phase == .resident || !idle then endWait b r isMatrix (takeRaised b r s)
      else
        let ws := t.waits.filter (fun w => !isMatrix w)
        let s := modTh b r (fun t => { t with waits := ws, place := .waiting }) s
        if ws.isEmpty then modBlk b (fun k => { k with savedReady := k.savedReady ++ [r] }) (modTh b r (fun t => { t with place := .ready }) s) else s
    | _ => s) s

-- Vector-side instructions (R438-R442) --------------------------------------------------------------------------------

/-- `drill` (R438). -/
def effDrill (f : FmtA) (c : Ctx) (s : State) : Fin :=
  let a := pairA c f (0, lead c)
  if a.toNat % 4 != 0 then .done (raiseAt c c.pc (c.active.take 1) cMisalign 0 (fun _ => a) s)
  else .done (modDrill c.blk (fun d => { d with reading := true, addr := a, fault := none, again := false, failure := none, history := [] }) (flushL1 c.g s))
/-- `mready` (R439). -/
def effMready (f : FmtA) (c : Ctx) (s : State) : Fin :=
  let n := nbits f.imm 0 4
  if 65535 ≤ mget 0 (getBlk s c.blk).drill.readyCtr n then .stall
  else .done (modDrill c.blk (fun d => { d with readyCtr := mput d.readyCtr n (mget 0 d.readyCtr n + 1) }) (flushL1 c.g s))
def isDend : Instr → Bool
  | .dend _ => true
  | _ => false
/-- The `dend`s read and not retired. -/
def dendsOpen (d : Drill) : List DEnt := d.table.filter (fun e => isDend e.instr)
/-- What an `mwait` waits for; none: it returns at once (R440). One for all of a stream being read waits for the `dend` still to come. -/
def mwaitFor (d : Drill) (all : Bool) (id : BitVec 8) : Option MTarget :=
  if all then (if d.reading then some .all else (dendsOpen d).getLast?.map (fun e => .cmd e.uid))
  else match (d.history.filter (fun h => h.id == id)).getLast? with
    | some h => if h.retired then none else some (.cmd h.uid)
    | none => if d.reading then some (.firstId id) else none
/-- An `mwait` that returns at once has ended for its target, if it has one (R440, R52). -/
def mwaitNow (b : Nat) (d : Drill) (all : Bool) (id : BitVec 8) (s : State) : State :=
  if all then mwaitDone b none s
  else match (d.history.filter (fun h => h.id == id)).getLast? with
    | some h => mwaitDone b (some h.uid) s
    | none => s
def effMwait (f : FmtA) (c : Ctx) (s : State) : Fin :=
  let d := (getBlk s c.blk).drill
  match d.failure with
  | some code => .done (raise c c.active code.toNat s)
  | none =>
    match mwaitFor d (bit f.mods 0) (bits f.imm 0 8) with
    | none => .done (mwaitNow c.blk d (bit f.mods 0) (bits f.imm 0 8) s)
    | some t => .done (c.active.foldl (fun s l => beginWait c.blk l.2 (.matrix t c.pc) s) s)
/-- `accrd` (R441). -/
def effAccrd (f : FmtA) (c : Ctx) (s : State) : Fin :=
  let tile := f.a.toNat - 0x148
  if accOwed s c.blk tile then
    let s := accFree c.blk tile 0 s
    .done (writeLanes c f.d 1 (fun l => (Config.freeWord (s.free + l.1)).toNat) { s with free := s.free + 32 })
  else .done (writeLanes c f.d 1 (fun l => (accGet (getBlk s c.blk) tile (src32 c l.2 f.b f.imm % 1024)).toNat) s)
/-- `accwr` (R441). -/
def effAccwr (f : FmtA) (c : Ctx) (s : State) : Fin :=
  let tile := f.d.toNat - 0x148
  if accOwed s c.blk tile then .done (accFree c.blk tile 0 s)
  else .done (c.active.foldl (fun s l => accPut c.blk tile (src32 c l.2 f.b f.imm % 1024) (BitVec.ofNat 32 (srcVal c l.2 f.ty.toNat f.a 0)) s) s)
/-- `nanrd` (R442, R282). -/
def effNanrd (f : FmtA) (c : Ctx) (s : State) : Fin :=
  let v := (getBlk s c.blk).nancnt.toNat
  .done (modBlk c.blk (fun k => { k with nancnt := 0 }) (writeLanes c f.d 1 (fun _ => v) s))

-- Commands: fields (R328, R346, R444-R447) ---------------------------------------------------------------------------------

/-- The commands that a command of a tile, with some predecessors, comes after, with those they come after (R52, R219). -/
def dBefore (d : Drill) (preds : List Nat) (tile : Option Nat) : List Nat :=
  let ps := preds ++ (match tile with | some t => (d.owed.filter (fun o => o.2 == t)).map (·.1) | none => [])
  (ps ++ ps.flatMap (fun p => ((d.history.find? (fun h => h.uid == p)).map (·.before)).getD [])).eraseDups
/-- DRILL_STREAM_READ (R219, R328, R329, R438). -/
def execDrillStreamRead (blk : Nat) (s : State) : Host.Outcome State Fault Refusal :=
  let k := getBlk s blk
  let d := k.drill
  if k.phase != .resident || !d.reading || d.fault.isSome || 64 ≤ d.table.length ||
      (lineParts 3 d.addr.toNat 12).any (fun x => vaHeld s (fieldOf k.core) (rootOf s blk) (secureOf s blk) (x.1 * 128 + x.2.1) 0) then .next s
  else
    let f := fieldOf k.core
    match ttuRead f (rootOf s blk) (secureOf s blk) d.addr.toNat 12 s with
    | (.error e, s') =>
      if !faultRoom s' f then .next s
      else
        let (q, s') := sendFault f { engineRec s' blk 0 6 e (.drillRead blk) with drill := true, refault := d.again } s'
        .next (modDrill blk (fun d => { d with fault := some q, again := false }) s')
    | (.ok bs, s') =>
      let w : IWord := ofBytes 96 bs
      let c := decD w
      match decodeDrill w with
      | none => .next (failDrill blk cIllegalOp s')
      | some i =>
        if d.table.any (fun e => e.cmd.id == c.id) then .next s
        else if !dLegal k i c then .next (failDrill blk cIllegalEnc s')
        else
          let past : BitVec 1 → BitVec 8 → List DPast := fun v id =>
            if v == 1 then (d.history.filter (fun h => h.id == id)).getLast?.toList else []
          let ps := past c.p1v c.p1 ++ past c.p2v c.p2
          let uid := d.nextUid
          let e : DEnt := { uid := uid, instr := i, cmd := c, preds := (ps.filter (fun h => !h.retired)).map (·.uid) }
          let isEnd := isDend i
          let s' := modDrill blk (fun d => { d with
            addr := d.addr + 12, table := d.table ++ [e], nextUid := uid + 1, again := false
            history := d.history ++ [{ id := c.id, uid := uid, before := dBefore d (ps.map (·.uid)) (if (dUses i).1 then some c.acc.toNat else none) }]
            reading := !isEnd, owed := if dWrites i then d.owed ++ [(uid, c.acc.toNat)] else d.owed }) s'
          .next ((mkeys k.members).foldl (fun s r =>
            let s := modTh blk r (fun t => { t with waits := t.waits.map (fun w => match w with
              | .matrix (.firstId id) pc => if id == c.id then .matrix (.cmd uid) pc else w
              | .matrix .all pc => if isEnd then .matrix (.cmd uid) pc else w
              | w => w) }) s
            if isEnd then endWait blk r (fun w => match w with | .matrix (.firstId _) _ => true | _ => false) s else s) s')

-- Retirement (R219, R282, R440) ---------------------------------------------------------------------------------------------

/-- A command retires: its records are released, its NaN count added, it is counted (R287), and the threads that wait for it wake. -/
def retireCmd (b : Nat) (e : DEnt) (s : State) : State :=
  let s := perfAdd (fieldOf (getBlk s b).core) 0x11 none (some (secureOf s b)) 1 s
  let s := if e.recA.isSome then recDrop b e.cmd.reca.toNat s else s
  let s := if e.recB.isSome then recDrop b e.cmd.recb.toNat s else s
  let isEnd := isDend e.instr
  let s := modBlk b (fun k => { k with
    nancnt := BitVec.ofNat 32 (min (k.nancnt.toNat + e.nans) 0xFFFFFFFF)
    drill := { k.drill with table := k.drill.table.filter (fun x => x.uid != e.uid)
                            history := k.drill.history.map (fun h => if h.uid == e.uid then { h with retired := true } else h) } }) s
  let ended := fun (w : Wait) => match w with
    | .matrix (.cmd u) _ => u == e.uid
    | .matrix .all _ => isEnd && !(getBlk s b).drill.reading && (dendsOpen (getBlk s b).drill).isEmpty
    | _ => false
  let woken := (getBlk s b).members.any (fun m => m.2.waits.any ended)
  let s := if !woken then s else mwaitDone b (if isEnd then none else some e.uid) s
  (mkeys (getBlk s b).members).foldl (fun s r => endWait b r ended s) s
/-- An issued command may retire now. -/
def mayRetire (k : Block) (e : DEnt) : Bool :=
  e.issued && match e.instr with
  | .dend _ => k.drill.table.all (fun x => e.uid ≤ x.uid)
  | .dbarBar c => let b := mget {} k.barriers (nbits c.ctl 0 4); b.consumed < b.completed
  | .dbarReady c => 0 < mget 0 k.drill.readyCtr (nbits c.ctl 0 4)
  | _ => e.done
/-- DRILL_COMMAND_RETIRE of the command at a place of the table. -/
def execDrillCommandRetire (blk slot : Nat) (s : State) : Host.Outcome State Fault Refusal :=
  let k := getBlk s blk
  match k.drill.table[slot]? with
  | none => .next s
  | some e =>
    if k.phase != .resident || !mayRetire k e then .next s
    else
      let s := match e.instr with
        | .dbarBar c => let n := nbits c.ctl 0 4
          modBlk blk (fun k => { k with barriers := mput k.barriers n { mget {} k.barriers n with consumed := (mget {} k.barriers n).consumed + 1 } }) s
        | .dbarReady c => let n := nbits c.ctl 0 4
          modDrill blk (fun d => { d with readyCtr := mput d.readyCtr n (mget 0 d.readyCtr n - 1) }) s
        | _ => s
      .next (retireCmd blk e s)

-- Elements as a matrix reads them (R248, R444) ----------------------------------------------------------------------------------

/-- Value of a stored element of a float type. -/
def elValue (ty v : Nat) : FV := fdecode (fmtOf ty) v
/-- Read an element with its scale (R246, R248). -/
def mRead (g root : Nat) (sec : Bool) (r : Rec) (x : List Int) (s : State) : Except EFault FV × State :=
  let f := fieldOf g
  let ty := rType r
  match elSrc r x with
  | .value v => (.ok (if ty == 17 then (if rOob r == 1 then fdecode fmtF32 (rFill r) else fzero) else elValue ty v), s)
  | .at a2 y =>
    let scaleAt := fun (n : Nat) => ((((rScaleBase r : Nat) : Int) + y.getD 0 0 / 32 * (n : Nat) + y.getD 1 0 * rScaleStride r) % (2 ^ 64 : Nat)).toNat
    if ty == 17 then
      match ttuRead f root sec (a2 / 2 / 16 * 16) 16 s with
      | (.error e, s) => (.error e, s)
      | (.ok bs, s) =>
        match ttuRead f root sec (scaleAt 2) 2 s with
        | (.error e, s) => (.error e, s)
        | (.ok sb, s) => (.ok (q4elem (ofBytes 128 bs) (ofBytes 16 sb) (y.getD 0 0 % 32).toNat), s)
    else
      match ttuRead f root sec (a2 / 2) (rE2 r / 2) s with
      | (.error e, s) => (.error e, s)
      | (.ok bs, s) =>
        let v := elValue ty (ofBytes 32 bs : BitVec 32).toNat
        if rScaleKind r == 1 then
          match ttuRead f root sec (scaleAt 1) 1 s with
          | (.error e, s) => (.error e, s)
          | (.ok sb, s) => (.ok (fvMul v (e8m0 (ofBytes 8 sb : BitVec 8).toNat)), s)
        else (.ok v, s)
/-- Read elements in turn. -/
def mReads (g root : Nat) (sec : Bool) (r : Rec) : List (List Int) → State → Except EFault (List FV) × State
  | [], s => (.ok [], s)
  | x :: rest, s =>
    match mRead g root sec r x s with
    | (.error e, s) => (.error e, s)
    | (.ok v, s) =>
      match mReads g root sec r rest s with
      | (.error e, s) => (.error e, s)
      | (.ok vs, s) => (.ok (v :: vs), s)
/-- A record's coordinates of two dimensions; those at or above RANK read 0 (R245). -/
def coords2 (r : Rec) (c0 c1 : Int) : List Int := [c0, if rRank r < 2 then 0 else c1, 0, 0, 0]

/-- A result of the matrix unit: every NaN is the canonical one (R108, R118). -/
def mRound (v : FV) : FV := if v.isNan then canonNan else fdecode fmtF32 (fround fmtF32 v)
/-- Groups of 8 terms added in turn to an accumulator (R116). -/
def accumGroups : Nat → List FV → FV → FV
  | 0, _, a => a
  | n + 1, terms, a => if terms.isEmpty then a else accumGroups n (terms.drop 8) (mRound (fvAdd a (mRound (fvSum (terms.take 8)))))
/-- `.nzc`: a NaN element is read as +0.0 (R119). -/
def nzcOf (on : Bool) (v : FV) : FV := if on && v.isNan then fzero else v

-- The rows of a command ------------------------------------------------------------------------------------------------------------

/-- What one row did. -/
inductive RowOut where
  | done (nans : Nat) (s : State)
  | fault (e : EFault) (access : Nat) (s : State)
  deriving DecidableEq, Repr

/-- Elements along K of a `dmma`, and the coordinates of one row of A and of B whole, column by column (R444). -/
def dmmaK (c : DCmd) : Nat := (nbits c.ctl 0 8 + 1) * 8
def dmmaA (c : DCmd) (ra : Rec) (row : Nat) : List (List Int) :=
  (upto (dmmaK c)).map (fun i => coords2 ra ((8 * nbits c.ctl 8 14 + i : Nat) : Int) ((32 * nbits c.ctl 22 12 + row : Nat) : Int))
def dmmaB (c : DCmd) (rb : Rec) : List (List Int) :=
  let at_ := fun (col i : Nat) => (((32 * nbits c.ctl 34 12 + col : Nat) : Int), ((8 * nbits c.ctl 8 14 + i : Nat) : Int))
  (upto 32).flatMap (fun col => (upto (dmmaK c)).map (fun i => if bit c.ctl 47 then coords2 rb (at_ col i).2 (at_ col i).1 else coords2 rb (at_ col i).1 (at_ col i).2))
/-- One row of `dmma` (R444) (conventions: DEDUCED, assumption 46). A canonical-NaN element counts for NANCNT at each matrix position it is read for, so one that
a RANK 1 record or clamping repeats counts at each (R119: DESIGN CHOICE, assumption 96). -/
def dmmaRow (b : Nat) (e : DEnt) (c : DCmd) (s : State) : RowOut :=
  let k := getBlk s b
  let root := rootOf s b
  let sec := secureOf s b
  let ra := e.recA.getD 0
  let rb := e.recB.getD 0
  let kk := dmmaK c
  let nzc := bit c.ctl 46
  match mReads k.core root sec ra (dmmaA c ra e.row) s with
  | (.error x, s) => .fault x 6 s
  | (.ok as, s) =>
    match mReads k.core root sec rb (dmmaB c rb) s with
    | (.error x, s) => .fault x 6 s
    | (.ok bs, s) =>
      let tile := c.acc.toNat
      let s := (upto 32).foldl (fun s col =>
        let terms := (as.zip ((bs.drop (col * kk)).take kk)).map (fun (x, y) => fvMul (nzcOf nzc x) (nzcOf nzc y))
        let a := accumGroups (kk / 8) terms (fdecode fmtF32 (accGet (getBlk s b) tile (e.row * 32 + col)).toNat)
        accPut b tile (e.row * 32 + col) (BitVec.ofNat 32 (fround fmtF32 a)) s) s
      .done (if nzc then (as.filter FV.isNan).length + (if e.row == 0 then (bs.filter FV.isNan).length else 0) else 0) s
/-- C0 and C1 of `dldacc` and `dstacc` (R446). -/
def ldCoords (c : DCmd) (row col : Nat) : List Int := [toSigned 24 (nbits c.ctl 0 24) + col, toSigned 24 (nbits c.ctl 24 24) + row, 0, 0, 0]
/-- Read the elements of a record at some places. -/
def elReads (g root : Nat) (sec : Bool) (r : Rec) : List (List Int) → State → Except EFault (List Nat) × State
  | [], s => (.ok [], s)
  | x :: rest, s =>
    match elRead g root sec r x s with
    | (.error e, s) => (.error e, s)
    | (.ok v, s) =>
      match elReads g root sec r rest s with
      | (.error e, s) => (.error e, s)
      | (.ok vs, s) => (.ok (v :: vs), s)
/-- Every element of some places can be written; nothing is. -/
def elChecks (g root : Nat) (sec : Bool) (r : Rec) : List (List Int) → State → Except EFault Unit × State
  | [], s => (.ok (), s)
  | x :: rest, s =>
    if oobAt r x then elChecks g root sec r rest s
    else match ttuParts (fieldOf g) root sec 1 (lineParts 2 (elAddr2 r x / 2 % 2 ^ 64) (max 1 (rE2 r / 2))) s with
      | (.error e, s) => (.error e, s)
      | (.ok _, s) => elChecks g root sec r rest s
/-- One row of `dldacc`; a NaN loaded keeps its sign and payload, that of a bf16 element quieted (conventions: DEDUCED, assumption 45; DESIGN CHOICE, assumption 123). -/
def dldaccRow (b : Nat) (e : DEnt) (c : DCmd) (s : State) : RowOut :=
  let r := e.recA.getD 0
  match elReads (getBlk s b).core (rootOf s b) (secureOf s b) r ((upto 32).map (ldCoords c e.row)) s with
  | (.error x, s) => .fault x 6 s
  | (.ok vs, s) => .done 0 (((upto 32).zip vs).foldl (fun s (col, v) =>
      accPut b c.acc.toNat (e.row * 32 + col) (BitVec.ofNat 32 (if rType r == 12 then v else narrowF fmtF32 .even false (fdecode fmtBf16 v))) s) s)
/-- Words that the elements written at some places fill are no longer poisoned (R140) (conventions: DEDUCED, assumption 88). -/
def rowClean (b : Nat) (r : Rec) (xs : List (List Int)) (s : State) : State :=
  wordsClean ((xs.filter (fun x => !oobAt r x)).flatMap (fun x =>
    physBytes s (fieldOf (getBlk s b).core) (rootOf s b) (secureOf s b) (elAddr2 r x / 2 % 2 ^ 64) (max 1 (rE2 r / 2)))) s
/-- One row of `dstacc`: nothing is written before the whole row translates (conventions: DEDUCED, assumption 45). -/
def dstaccRow (b : Nat) (e : DEnt) (c : DCmd) (s : State) : RowOut :=
  let r := e.recA.getD 0
  let g := (getBlk s b).core
  let root := rootOf s b
  let sec := secureOf s b
  match elChecks g root sec r ((upto 32).map (ldCoords c e.row)) s with
  | (.error x, s) => .fault x 7 s
  | (.ok (), s) => .done 0 (rowClean b r ((upto 32).map (ldCoords c e.row)) ((upto 32).foldl (fun s col =>
      let v := (accGet (getBlk s b) c.acc.toNat (e.row * 32 + col)).toNat
      (elWrite g root sec r (ldCoords c e.row col) (if rType r == 12 then v else fround fmtBf16 (fdecode fmtF32 v)) s).2) s))
/-- One row of `dscale`. -/
def dscaleRow (b : Nat) (e : DEnt) (c : DCmd) (s : State) : RowOut :=
  let m := fdecode fmtF32 (nbits c.ctl 0 32)
  .done 0 ((upto 32).foldl (fun s col =>
    let i := e.row * 32 + col
    accPut b c.acc.toNat i (BitVec.ofNat 32 (fround fmtF32 (mRound (fvMul (fdecode fmtF32 (accGet (getBlk s b) c.acc.toNat i).toNat) m)))) s) s)
/-- One row of `dzero`. -/
def dzeroRow (b : Nat) (e : DEnt) (c : DCmd) (s : State) : RowOut :=
  .done 0 ((upto 32).foldl (fun s col => accPut b c.acc.toNat (e.row * 32 + col) 0 s) s)

/-- The pairs of record types of `dmma` (R445). -/
def dmmaTypes (a b : Nat) : Bool :=
  (a == 14 && b == 14) || (a == 13 && b == 13) || ([15, 16].contains a && [15, 16].contains b) || (a == 17 && (b == 17 || b == 14)) || (a == 14 && b == 17)
/-- The records a command latches fit it (R443). -/
def dRecsOk (e : DEnt) (a b : Rec) : Bool :=
  match e.instr with
  | .dmma _ => rRank a ≤ 2 && rRank b ≤ 2 && dmmaTypes (rType a) (rType b)
  | .dldacc _ | .dstacc _ => (rType a == 12 || rType a == 14) && rRank a == 2
  | _ => true
/-- A command may issue (R219). -/
def dIssuable (d : Drill) (e : DEnt) : Bool :=
  !e.issued && e.preds.all (fun u => !d.table.any (fun x => x.uid == u)) &&
  (!(dUses e.instr).1 || !d.table.any (fun x => x.uid < e.uid && (dUses x.instr).1 && x.cmd.acc == e.cmd.acc))
def putEnt (b : Nat) (e : DEnt) (s : State) : State := modDrill b (fun d => { d with table := modWhere (fun x => x.uid == e.uid) (fun _ => e) d.table }) s
/-- The pages of the record tiles a command walks, each in the order it reads or writes them (R228, R444, R446). -/
def dPages (k : Block) (e : DEnt) (a b : Rec) : List (List Nat) :=
  let pages := fun (r : Rec) (xs : List (List Int)) => xs.filterMap (fun x => match elSrc r x with | .at a2 _ => some (a2 / 2 % 2 ^ 64 / 4096) | .value _ => none)
  if k.phase != .resident then []
  else match e.instr with
  | .dmma c => [pages a ((upto 32).flatMap (dmmaA c a)), pages b (dmmaB c b)]
  | .dldacc c | .dstacc c => [pages a ((upto 32).flatMap (fun row => (upto 32).map (ldCoords c row)))]
  | _ => []
/-- Issue of a command (R219, R443): it latches its records, or fails, and then no tile awaits it (R52). -/
def dIssue (b : Nat) (e : DEnt) (s : State) : State :=
  let k := getBlk s b
  let u := dUses e.instr
  let a := getRec k e.cmd.reca.toNat
  let bb := getRec k e.cmd.recb.toNat
  let void := fun (s : State) => modDrill b (fun d => { d with owed := d.owed.filter (fun o => o.1 != e.uid) }) s
  if (u.2.1 && !a.valid) || (u.2.2 && !bb.valid) then retireCmd b e (failDrill b cRecordEmpty (void s))
  else if !dRecsOk e a.bits bb.bits then retireCmd b e (failDrill b cIllegalEnc (void s))
  else
    let s := if u.2.1 then recHold b e.cmd.reca.toNat s else s
    let s := if u.2.2 then recHold b e.cmd.recb.toNat s else s
    let isNop := match e.instr with | .dnop _ => true | _ => false
    if isNop then retireCmd b e s
    else
      let s := putEnt b { e with issued := true, order := s.nextId, recA := if u.2.1 then some a.bits else none, recB := if u.2.2 then some bb.bits else none } { s with nextId := s.nextId + 1 }
      dPages k e a.bits bb.bits |>.foldl (fun s ps => preWalkPages (fieldOf k.core) (rootOf s b) (secureOf s b) (ps.eraseDups.take 32) s) s
/-- A `dmma` waits for one issued earlier (R445). -/
def dmmaBusy (d : Drill) (e : DEnt) : Bool :=
  match e.instr with
  | .dmma _ => d.table.any (fun x => x.order < e.order && x.issued && !x.done && (match x.instr with | .dmma _ => true | _ => false))
  | _ => false
/-- One row of an issued command; a fault stops it at its row (R230, R443), and one of which a pseudo-channel holds an access waits (R147, R148). -/
def dRow (b : Nat) (e : DEnt) (refault : Bool) (row : State → RowOut) (s : State) : State :=
  match row s with
  | .done n s' => if !(heldReach s s').isEmpty then s else putEnt b { e with row := e.row + 1, done := e.row + 1 == 32, nans := e.nans + n } s'
  | .fault x access s' =>
    let f := fieldOf (getBlk s b).core
    if !faultRoom s' f || !(heldReach s s').isEmpty then s
    else
      let (q, s') := sendFault f { engineRec s' b 0 access x (.drillCmd b e.uid) with drill := true, refault := refault } s'
      putEnt b { e with fault := some q } s'
/-- An access of a command's next row waits for its pseudo-channel (R147, R148). -/
def rowHeld (s : State) (b : Nat) (e : DEnt) : Bool :=
  let held := fun (r : Rec) (x : List Int) (acc : Nat) => elHeld s (fieldOf (getBlk s b).core) (rootOf s b) (secureOf s b) r x acc
  let ra := e.recA.getD 0
  let rb := e.recB.getD 0
  anyHeld s && (match e.instr with
  | .dmma c => (dmmaA c ra e.row).any (fun x => held ra x 0) || (dmmaB c rb).any (fun x => held rb x 0)
  | .dldacc c => (upto 32).any (fun i => held ra (ldCoords c e.row i) 0)
  | .dstacc c => (upto 32).any (fun i => held ra (ldCoords c e.row i) 1)
  | _ => false)
/-- The rows of each command. -/
def rowOf (b : Nat) (e : DEnt) (s : State) : RowOut :=
  match e.instr with
  | .dmma c => dmmaRow b e c s
  | .dldacc c => dldaccRow b e c s
  | .dstacc c => dstaccRow b e c s
  | .dscale c => dscaleRow b e c s
  | .dzero c => dzeroRow b e c s
  | _ => .done 0 s
/-- A drill command in turn: the earliest issuable command issues; an issued one does its next row (conventions: DEDUCED, assumption 7). -/
def drillStep (i : Instr) (row : Nat → DEnt → State → RowOut) (s : State) : Host.Outcome State Fault Refusal :=
  match s.turn with
  | .drill b uid =>
    let k := getBlk s b
    match k.drill.table.find? (fun e => e.uid == uid && e.instr == i) with
    | none => .fault .noDrill
    | some e =>
      if k.phase != .resident || e.fault.isSome || e.done then .next s
      else if !e.issued then
        (if (k.drill.table.find? (fun x => dIssuable k.drill x)).map (·.uid) == some uid then .next (dIssue b e s) else .next s)
      else if dmmaBusy k.drill e || rowHeld s b e then .next s
      else match i with
        | .dend _ | .dbarBar _ | .dbarReady _ | .dnop _ => .next s
        | _ => .next (dRow b { e with again := false } e.again (row b { e with again := false }) s)
  | _ => .fault .noDrill

def execDnop (c : DCmd) (s : State) : Host.Outcome State Fault Refusal := drillStep (.dnop c) (fun _ _ s => .done 0 s) s
def execDend (c : DCmd) (s : State) : Host.Outcome State Fault Refusal := drillStep (.dend c) (fun _ _ s => .done 0 s) s
def execDbarBar (c : DCmd) (s : State) : Host.Outcome State Fault Refusal := drillStep (.dbarBar c) (fun _ _ s => .done 0 s) s
def execDbarReady (c : DCmd) (s : State) : Host.Outcome State Fault Refusal := drillStep (.dbarReady c) (fun _ _ s => .done 0 s) s
def execDzero (c : DCmd) (s : State) : Host.Outcome State Fault Refusal := drillStep (.dzero c) (fun b e s => dzeroRow b e c s) s
def execDldacc (c : DCmd) (s : State) : Host.Outcome State Fault Refusal := drillStep (.dldacc c) (fun b e s => dldaccRow b e c s) s
def execDstacc (c : DCmd) (s : State) : Host.Outcome State Fault Refusal := drillStep (.dstacc c) (fun b e s => dstaccRow b e c s) s
def execDscale (c : DCmd) (s : State) : Host.Outcome State Fault Refusal := drillStep (.dscale c) (fun b e s => dscaleRow b e c s) s
def execDmma (c : DCmd) (s : State) : Host.Outcome State Fault Refusal := drillStep (.dmma c) (fun b e s => dmmaRow b e c s) s

-- The instructions -------------------------------------------------------------------------------------------------------------------

def execDrill (f : FmtA) (s : State) : Host.Outcome State Fault Refusal := issueA .drill f effDrill s
def execMready (f : FmtA) (s : State) : Host.Outcome State Fault Refusal := issueA .mready f effMready s
def execMwait (f : FmtA) (s : State) : Host.Outcome State Fault Refusal := issueA .mwait f effMwait s
def execAccrd (f : FmtA) (s : State) : Host.Outcome State Fault Refusal := issueA .accrd f effAccrd s
def execAccwr (f : FmtA) (s : State) : Host.Outcome State Fault Refusal := issueA .accwr f effAccwr s
def execNanrd (f : FmtA) (s : State) : Host.Outcome State Fault Refusal := issueA .nanrd f effNanrd s

end Sys2Proof.Machine
end

