-- ==== Sys2Proof/Machine/Furrow.lean ====
section
/-! DEFINITION. Furrow mode (R173-R191, R448-R450): `wpart`, the `fw*` instructions, the furrow sequencer's operations and its switch point. A row is 65 536
bits, one per column; operations work on whole rows, bit by bit of the elements. -/
namespace Sys2Proof.Machine

abbrev Row := BitVec 65536

-- Vectors: rows, the lowest bit first (R180, R182) ----------------------------------------------------------

/-- x + y + c on every column, with the carry out. -/
def rowAdd : List Row → List Row → Row → List Row × Row
  | x :: xs, y :: ys, c =>
    let (r, o) := rowAdd xs ys ((x &&& y) ||| (c &&& (x ^^^ y)))
    ((x ^^^ y ^^^ c) :: r, o)
  | _, _, c => ([], c)
def rowNot (l : List Row) : List Row := l.map (fun r => ~~~r)
/-- x - y; the carry out is 1 where x ≥ y unsigned. -/
def rowSub (x y : List Row) : List Row × Row := rowAdd x (rowNot y) (BitVec.allOnes 65536)
def rowMux (m : Row) (x y : List Row) : List Row := (x.zip y).map (fun (a, b) => (m &&& a) ||| (~~~m &&& b))
/-- Elements moved up by k places of w. -/
def rowShl (w k : Nat) (x : List Row) : List Row := (List.replicate (min k w) 0 ++ x).take w
def rowShr (w k : Nat) (fill : Row) (x : List Row) : List Row := x.drop k ++ List.replicate (min k w) fill
def rowMul (w : Nat) (x y : List Row) : List Row :=
  ((upto w).zip x).foldl (fun acc (i, b) => (rowAdd acc ((rowShl w i y).map (fun r => r &&& b)) 0).1) (List.replicate w 0)
/-- The sign row complemented, so that signed order becomes unsigned order. -/
def rowFlip (signed : Bool) (x : List Row) : List Row :=
  if !signed then x else match x.reverse with
    | t :: rest => (~~~t :: rest).reverse
    | [] => []
/-- Columns where x < y. -/
def rowLt (signed : Bool) (x y : List Row) : Row := ~~~(rowSub (rowFlip signed x) (rowFlip signed y)).2
def rowEq (x y : List Row) : Row := (x.zip y).foldl (fun m (a, b) => m &&& ~~~(a ^^^ b)) (BitVec.allOnes 65536)
/-- ceil(log2(w + 1)) (R182). -/
def popRows (w : Nat) : Nat := Nat.log2 w + 1
def rowPopc (w : Nat) (x : List Row) : List Row :=
  let c := popRows w
  x.foldl (fun acc b => (rowAdd acc ((b :: List.replicate c 0).take c) 0).1) (List.replicate c 0)
def rowCond (cond : Nat) (signed : Bool) (x y : List Row) : Row :=
  match cond with
  | 0 => rowEq x y
  | 1 => ~~~rowEq x y
  | 2 => rowLt signed x y
  | 3 => ~~~rowLt signed y x
  | 4 => rowLt signed y x
  | _ => ~~~rowLt signed x y
/-- The rows a sub-operation of `fwop` writes (R182). -/
def fwResult (op w k cond : Nat) (signed : Bool) (m : Row) (x y : List Row) : List Row :=
  match op with
  | 0 => (rowAdd x y 0).1
  | 1 => (rowSub x y).1
  | 2 => rowMul w x y
  | 3 => (x.zip y).map (fun (a, b) => a &&& b)
  | 4 => (x.zip y).map (fun (a, b) => a ||| b)
  | 5 => (x.zip y).map (fun (a, b) => a ^^^ b)
  | 6 => rowNot x
  | 7 => rowMux (rowLt signed y x) y x
  | 8 => rowMux (rowLt signed x y) y x
  | 9 => [rowCond cond signed x y]
  | 10 => rowMux m x y
  | 11 => rowShl w k x
  | 12 => rowShr w k (if signed then x.getLastD 0 else 0) x
  | _ => rowPopc w x

/-- Ones of a row. -/
def rowCount (r : Row) : Nat := (upto 65536).foldl (fun n i => if bit r i then n + 1 else n) 0
/-- The value of a column. -/
def colValue (l : List Row) (j : Nat) : Nat := ((upto l.length).zip l).foldl (fun v (i, r) => if bit r j then v + 2 ^ i else v) 0
/-- Greatest element of the columns in a mask, from the top row down. -/
def rowMax : List Row → Row → Nat
  | [], _ => 0
  | r :: rest, m => if r &&& m = 0 then rowMax rest m else 2 ^ rest.length + rowMax rest (r &&& m)

-- A way's rows -----------------------------------------------------------------------------------------------------

def getRow (sl : Slice) (way row : Nat) : Row := mget 0 sl.rows (way * 128 + row)
def getRows (sl : Slice) (way row w : Nat) : List Row := (upto w).map (fun i => getRow sl way (row + i))
/-- Write a row: its parity is whole again (R188). -/
def putRow (f i way row : Nat) (r : Row) (s : State) : State :=
  modSlice f i (fun sl => { sl with
    rows := if r = 0 then mdel sl.rows (way * 128 + row) else mput sl.rows (way * 128 + row) r
    badSeg := sl.badSeg.filter (fun b => !(b.1 == way && b.2.1 == row)) }) s
def putRows (f i way row : Nat) (rs : List Row) (s : State) : State :=
  ((upto rs.length).zip rs).foldl (fun s (j, r) => putRow f i way (row + j) r s) s
/-- Segments of bad parity among rows that an operation reads (R188). -/
def badSegs (sl : Slice) (way : Nat) (rows : List Nat) : List (Nat × Nat) :=
  (sl.badSeg.filter (fun b => b.1 == way && rows.contains b.2.1)).map (fun b => (b.2.1, b.2.2))
/-- The columns of some segments. -/
def segMask (segs : List Nat) : Row := segs.foldl (fun m g => m ||| ((0xFFFFFFFFFFFFFFFF#65536) <<< (64 * g))) 0
/-- Undefined bits for the columns of some segments (R188, R9). -/
def freeSegs (segs : List Nat) (r : Row) (s : State) : Row × State :=
  segs.eraseDups.foldl (fun (acc : Row × State) g =>
    let (a, s) := freeW acc.2
    let (b, s) := freeW s
    ((acc.1 &&& ~~~segMask [g]) ||| ((a.setWidth 65536) <<< (64 * g)) ||| ((b.setWidth 65536) <<< (64 * g + 32)), s)) (r, s)
def freeRows (segs : List Nat) : List Row → State → List Row × State
  | [], s => ([], s)
  | r :: rest, s =>
    let (r, s) := freeSegs segs r s
    let (rs, s) := freeRows segs rest s
    (r :: rs, s)
def waysOf (m : BitVec 16) : List Nat := (upto 16).filter (fun w => bit m w)

-- Partitions (R175, R178, R187) --------------------------------------------------------------------------------------

/-- A number that some slice of the package holds. -/
def partHeld (s : State) (n : Word) : Bool := (upto 64).any (fun f => (upto 8).any (fun i => (getSlice s f i).number == n))
/-- The next partition number (R178). -/
def partNext (s : State) : Nat → Word → Word
  | 0, n => n
  | fuel + 1, n =>
    let m := if n.toNat == 0xFFFFFFFF then 0x100 else n + 1
    if partHeld s m then partNext s fuel m else m
def roleCount (img : BitVec 32) (r : Nat) : Nat := ((upto 16).filter (fun w => role img w == r)).length
/-- The image changes a way whose committed role has a secure world (R175). -/
def worldOwned (s : State) (f i : Nat) (img : BitVec 32) (sec : Bool) : Bool :=
  let sl := getSlice s f i
  !sec && (upto 16).any (fun w => role img w != role sl.committed w &&
    ((role sl.committed w == 1 && (getFld s f).scrWorld == some true) || (role sl.committed w == 2 && sl.furWorld == some true)))
/-- Handling of one `wpart` (R175): its status, and the state (conventions: DEDUCED, assumption 51). -/
def wpartOne (b tag f i : Nat) (img : BitVec 32) (s : State) : Nat × State :=
  let sec := secureOf s b
  let refuse := fun (code : Nat) => (code, tagDone b tag code 0 1 (tagIssue b tag s))
  if img = 0xFFFFFFFF then
    ((getSlice s f i).number.toNat, tagDone b tag 0 0 1 (tagIssue b tag (modFld f (fun k => { k with curSlice := i }) s)))
  else if !regFurrow s (getBlk s b).region then refuse 1
  else if role img 0 != 0 then refuse 2
  else if worldOwned s f i img sec then refuse 3
  else
    let n := partNext s 513 s.partition
    let op : FwOp := { id := s.nextId, blk := b, core := (getBlk s b).core, tag := tag, instr := .clause { g := { neg := 0, pred := 0, fx := 0 }, wait := 0, len := 0, seta := 0, setb := 0, unif := 0, rsv := 0 }
                       ways := BitVec.allOnes 16, vals := [], image := some img }
    let s := modSlice f i (fun sl => { sl with
      committed := img, number := n, queue := sl.queue ++ [op]
      furWorld := if roleCount img 2 != 0 && sl.furWorld.isNone then some sec else sl.furWorld }) { s with partition := n, nextId := s.nextId + 1 }
    let s := modFld f (fun k => { k with
      curSlice := i, scrWorld := if roleCount img 1 != 0 && k.scrWorld.isNone then some sec else k.scrWorld }) s
    (n.toNat, tagIssue b tag s)

-- Acceptance (R449, R183) -------------------------------------------------------------------------------------------------

/-- Two row groups overlap. -/
def overlaps (a n b m : Nat) : Bool := a < b + m && b < a + n
/-- Rows of an operation: destination (first, count), sources, mask row. -/
structure FwRows where
  dst  : Option (Nat × Nat)
  srcs : List (Nat × Nat)
  mask : Option Nat := none
  /-- No overlap of destination and source is allowed, coinciding or not. -/
  strict : Bool := false
  deriving DecidableEq, Repr
/-- ROW_RANGE and OVERLAP (R183). -/
def fwRange (r : FwRows) : Bool := (r.dst.toList ++ r.srcs).any (fun g => 128 < g.1 + g.2)
def fwOverlap (r : FwRows) : Bool :=
  match r.dst with
  | none => false
  | some (d, n) =>
    r.srcs.any (fun g => overlaps d n g.1 g.2 && (r.strict || !(g.1 == d && g.2 == n))) ||
    (match r.mask with | some m => d ≤ m && m < d + n | none => false)
/-- Row descriptor fields of `fwop` (R450). -/
def fwD (v : DWord) : Nat := nbits v 0 7
def fwA (v : DWord) : Nat := nbits v 8 7
def fwB (v : DWord) : Nat := nbits v 16 7
def fwM (v : DWord) : Nat := nbits v 24 7
def fwK (v : DWord) : Nat := nbits v 24 5
/-- `not`, `shl`, `shr` and `popc` read no B (R182). -/
def fwReadsB (op : Nat) : Bool := !([6, 11, 12, 13].contains op)
def fwopRows (op w : Nat) (v : DWord) : FwRows :=
  { dst := some (fwD v, if op == 9 then 1 else if op == 13 then popRows w else w)
    srcs := (fwA v, w) :: (if fwReadsB op then [(fwB v, w)] else [])
    mask := if op == 10 then some (fwM v) else none, strict := op == 2 || op == 13 }
/-- The refusal of a furrow operation, in the order of R449; 0 where it is accepted. `m`: element bits of a record tile, and its size. -/
def fwCheck (s : State) (b f i expected w : Nat) (ways : BitVec 16) (rows : FwRows) (tile : Option (Nat × Nat)) : Nat :=
  let sl := getSlice s f i
  if (match sl.furWorld with | some x => x != secureOf s b | none => false) then 3
  else if sl.number.toNat != expected then 4
  else if w == 0 || 32 < w || (match tile with | some (m, _) => m < w | none => false) then 7
  else if ways = 0 || bit ways 0 || (waysOf ways).any (fun x => role sl.committed x != 2) then 5
  else if fwRange rows then 6
  else if fwOverlap rows then 8
  else match tile with
    | some (m, n) => if 65536 < n || m < 8 then 9 else 0
    | none => 0
/-- One furrow operation of a thread (R191, R449): its status, and the state. -/
def fwAccept (code : Nat) (f i : Nat) (op : FwOp) (s : State) : Nat × State :=
  let s := tagIssue op.blk op.tag s
  if code != 0 then (code, tagDone op.blk op.tag code 0 1 s)
  else
    let s := match op.slot with | some n => recHold op.blk n s | none => s
    let s := match op.record with | some r => preWalk f op.blk r (op.vals.map BitVec.toInt) 0 s | none => s
    (0, modSlice f i (fun sl => { sl with queue := sl.queue ++ [{ op with id := s.nextId }] }) { s with nextId := s.nextId + 1 })
/-- Every active thread hands over one operation, in slot order; the statuses are then written (R428). The issue is a field-scope release (R169). Where there is no room for all
of them the instruction waits whole (R186) (conventions: DEDUCED, assumption 43). -/
def fwIssue (f : FmtE) (one : Nat × Nat → State → Nat × State) (c : Ctx) (s : State) : Fin :=
  if tagFull s c f.tag.toNat || 32 < (getSlice s (fieldOf c.g) (nbits f.espec 0 3)).queue.length + c.active.length then .stall
  else
    let (st, s) := c.active.foldl (fun (acc : List (Nat × Nat) × State) l => let (v, s) := one l acc.2; (acc.1 ++ [(l.2, v)], s)) ([], release c.g 1 s)
    .done (writeLanes c f.status 1 (fun l => ((st.find? (fun x => x.1 == l.2)).map (·.2)).getD 0) s)

def effWpart (f : FmtE) (c : Ctx) (s : State) : Fin :=
  fwIssue f (fun l s => wpartOne c.blk f.tag.toNat (fieldOf c.g) (nbits f.espec 0 3) (BitVec.ofNat 32 (src32 c l.2 f.opnd 0)) s) c s
/-- `fwload` and `fwstore` (R450, R181). -/
def fwMove (i : Instr) (load : Bool) (f : FmtE) (c : Ctx) (s : State) : Fin :=
  let slot := getRec (getBlk s c.blk) f.rslot.toNat
  if !slot.valid then .done (raise c c.active cRecordEmpty s)
  else if coordBad f.coord slot.bits then .done (raise c c.active cIllegalEnc s)
  else
    let ways : BitVec 16 := 1 <<< nbits f.espec 3 4
    let w := nbits f.ectl 7 6
    let g := (nbits f.ectl 0 7, w)
    let sl := nbits f.espec 0 3
    fwIssue f (fun l s => fwAccept
      (fwCheck s c.blk (fieldOf c.g) sl (src32 c l.2 f.opnd 0) w ways (if load then { dst := some g, srcs := [] } else { dst := none, srcs := [g] })
        (some (4 * rE2 slot.bits, rCount slot.bits))) (fieldOf c.g) sl
      { id := 0, blk := c.blk, core := c.g, tag := f.tag.toNat, instr := i, ways := ways
        vals := (coordVals c l.2 f.coord slot.bits).map (BitVec.ofInt 64), record := some slot.bits, slot := some f.rslot.toNat } s) c s
def effFwload (f : FmtE) (c : Ctx) (s : State) : Fin := fwMove (.fwload f) true f c s
def effFwstore (f : FmtE) (c : Ctx) (s : State) : Fin := fwMove (.fwstore f) false f c s
def effFwop (f : FmtE) (c : Ctx) (s : State) : Fin :=
  let w := nbits f.ectl 16 6
  let sl := nbits f.espec 0 3
  fwIssue f (fun l s =>
    let v : DWord := BitVec.ofNat 64 (src32 c l.2 f.coord 0)
    fwAccept (fwCheck s c.blk (fieldOf c.g) sl (src32 c l.2 f.opnd 0) w (bits f.ectl 0 16) (fwopRows (nbits f.ectl 22 5) w v) none) (fieldOf c.g) sl
      { id := 0, blk := c.blk, core := c.g, tag := f.tag.toNat, instr := .fwop f, ways := bits f.ectl 0 16, vals := [v] } s) c s
/-- `fwred` (R450): a thread whose result address is not aligned to 8 raises MISALIGN. -/
def effFwred (f : FmtE) (c : Ctx) (s : State) : Fin :=
  let w := nbits f.ectl 23 6
  let sl := nbits f.espec 0 3
  let bad := c.active.filter (fun l => src64 c l.2 f.coord % 8 != 0)
  let good := { c with active := c.active.filter (fun l => !bad.contains l), all := c.all.filter (fun l => !bad.contains l) }
  let s1 := if bad.isEmpty then s else raiseAt c c.pc bad cMisalign 1 (fun r => BitVec.ofNat 64 (src64 c r f.coord)) s
  if good.active.isEmpty then .done s1
  else fwIssue f (fun l s =>
    fwAccept (fwCheck s c.blk (fieldOf c.g) sl (src32 c l.2 f.opnd 0) w (bits f.ectl 0 16) { dst := none, srcs := [(nbits f.ectl 16 7, w)] } none) (fieldOf c.g) sl
      { id := 0, blk := c.blk, core := c.g, tag := f.tag.toNat, instr := .fwred f, ways := bits f.ectl 0 16, vals := [BitVec.ofNat 64 (src64 c l.2 f.coord)] } s) good s1
def effFwfill (f : FmtE) (c : Ctx) (s : State) : Fin :=
  let w := nbits f.ectl 23 6
  let sl := nbits f.espec 0 3
  fwIssue f (fun l s =>
    fwAccept (fwCheck s c.blk (fieldOf c.g) sl (src32 c l.2 f.opnd 0) w (bits f.ectl 0 16) { dst := some (nbits f.ectl 16 7, w), srcs := [] } none) (fieldOf c.g) sl
      { id := 0, blk := c.blk, core := c.g, tag := f.tag.toNat, instr := .fwfill f, ways := bits f.ectl 0 16, vals := [BitVec.ofNat 64 (src32 c l.2 f.coord 0)] } s) c s

-- Execution (R181-R188) -------------------------------------------------------------------------------------------------------

/-- What the execution of an operation did: it is over, or a fault or an access that its pseudo-channel holds (R147, R148) stopped it at a column. -/
inductive FwOut where
  | ended (s : State)
  | fault (e : EFault) (access column : Nat) (s : State)
  | held (column : Nat) (s : State)
  deriving DecidableEq, Repr
/-- Why a tile walk stopped. -/
inductive FwStop where
  | fault (e : EFault)
  | held
  deriving DecidableEq, Repr

/-- Count the bad segments read (R188). -/
def countPar (f n : Nat) (s : State) : State := if n == 0 then s else evAdd f 0x48 n s
def runFwop (f i : Nat) (o : FwOp) (m : FmtE) (s : State) : FwOut :=
  let op := nbits m.ectl 22 5
  let w := nbits m.ectl 16 6
  let v := o.vals.headD 0
  .ended ((waysOf o.ways).foldl (fun s way =>
    let sl := getSlice s f i
    let reads := (upto w).map (fun j => fwA v + j) ++ (if fwReadsB op then (upto w).map (fun j => fwB v + j) else []) ++ (if op == 10 then [fwM v] else [])
    let bad := badSegs sl way reads
    let x := getRows sl way (fwA v) w
    let y := if fwReadsB op then getRows sl way (fwB v) w else x
    let res := fwResult op w (fwK v) (nbits m.ectl 28 3) (bit m.ectl 27) (getRow sl way (fwM v)) x y
    let (res, s) := freeRows (bad.map (·.2)) res (countPar f bad.length s)
    putRows f i way (fwD v) res s) s)
def runFwfill (f i : Nat) (o : FwOp) (m : FmtE) (s : State) : FwOut :=
  let v := o.vals.headD 0
  .ended ((waysOf o.ways).foldl (fun s way =>
    putRows f i way (nbits m.ectl 16 7) ((upto (nbits m.ectl 23 6)).map (fun j => if bit v j then BitVec.allOnes 65536 else 0)) s) s)
/-- The combination of `fwred` over the columns of every way (R184), as a 64-bit number. -/
def fwredValue (sl : Slice) (op : Nat) (signed : Bool) (row w : Nat) (ways : List Nat) : Nat :=
  let vec := fun way => getRows sl way row w
  match op with
  | 0 => wrap 64 (ways.foldl (fun (t : Int) way => ((upto w).zip (vec way)).foldl (fun (t : Int) (j, r) =>
      let n : Int := rowCount r * 2 ^ j
      if signed && j + 1 == w then t - n else t + n) t) 0)
  | 3 => ways.foldl (fun n way => n + rowCount ((vec way).foldl (fun (a : Row) r => a ||| r) 0)) 0
  | _ =>
    -- order by the flipped value; the minimum is the complement of the greatest complement
    let key := fun way =>
      let x := rowFlip signed (vec way)
      if op == 2 then rowMax x.reverse (BitVec.allOnes 65536) else 2 ^ w - 1 - rowMax (rowNot x).reverse (BitVec.allOnes 65536)
    let ks := ways.map key
    let k := ks.foldl (fun a b => if op == 2 then max a b else min a b) (ks.headD 0)
    wrap 64 (if signed then (k : Int) - (2 ^ (w - 1) : Nat) else k)
/-- Poison the home words under some bytes of one line (R188), counting those newly poisoned (R284). -/
def poisonLine (f root : Nat) (sec : Bool) (va n : Nat) (s : State) : State :=
  match ttuXl f root sec va 1 s with
  | (.ok pa, s) =>
    let ws := wordsTouched (rangeMask (pa % 128) n)
    let old := match mfind s.aliasLines (pa / 128) with
      | some l => ws.filter (fun w => bit l.poison w)
      | none => ws.filter (fun w => s.memErr.contains (pa / 128 * 16 + w, true))
    evAdd ((homeOf pa).getD f) 0x40 (ws.length - old.length) (homePoison (pa / 128) (ws.foldl (fun (p : BitVec 16) w => p ||| (1 <<< w)) 0) (rangeMask (pa % 128) n) s)
  | (_, s) => s
/-- Poison the home words under an element, in both lines where it crosses one (R188, R244). -/
def poisonAt (f root : Nat) (sec : Bool) (va n : Nat) (s : State) : State :=
  (lineParts 3 va n).foldl (fun s p => poisonLine f root sec (p.1 * 128 + p.2.1) p.2.2 s) s
def runFwred (f i : Nat) (o : FwOp) (m : FmtE) (s : State) : FwOut :=
  let row := nbits m.ectl 16 7
  let w := nbits m.ectl 23 6
  let sl := getSlice s f i
  let a := (o.vals.headD 0).toNat
  let bad := (waysOf o.ways).flatMap (fun way => badSegs sl way ((upto w).map (row + ·)))
  let (u, s1) := freeW s
  let (u2, s1) := freeW s1
  let v : DWord := if bad.isEmpty then BitVec.ofNat 64 (fwredValue sl (nbits m.ectl 29 2) (bit m.ectl 31) row w (waysOf o.ways)) else u2 ++ u
  if vaHeld s f (rootOf s o.blk) (secureOf s o.blk) a 1 then .held 0 s else
  let s2 := if bad.isEmpty then s else if o.counted then s1 else countPar f bad.length s1
  match ttuWrite o.core (rootOf s o.blk) (secureOf s o.blk) a (toBytes 8 v) s2 with
  | (.error e, s') => if (heldReach s s').isEmpty then .fault e 7 0 s' else .held 0 s
  | (.ok (), s') => if (heldReach s s').isEmpty then .ended (if bad.isEmpty then s' else poisonAt f (rootOf s o.blk) (secureOf s o.blk) a 8 s') else .held 0 s
/-- Element values of a tile from `j` on, until a fault or a held access. -/
def tileVals (g root : Nat) (sec : Bool) (r : Rec) (coords : List Int) : Nat → Nat → State → List Nat × Option FwStop × State
  | 0, _, s => ([], none, s)
  | n + 1, j, s =>
    if elHeld s (fieldOf g) root sec r (coordsAt r coords j) 0 then ([], some .held, s)
    else match elRead g root sec r (coordsAt r coords j) s with
    | (.error e, s') => if (heldReach s s').isEmpty then ([], some (.fault e), s') else ([], some .held, s)
    | (.ok v, s') =>
      if !(heldReach s s').isEmpty then ([], some .held, s)
      else
      let (vs, e, s) := tileVals g root sec r coords n (j + 1) s'
      (v :: vs, e, s)
/-- Bit `k` of some values as a row from column `j`. -/
def bitRow (k j : Nat) (vs : List Nat) : Row :=
  BitVec.ofNat 65536 ((vs.foldr (fun v n => 2 * n + v / 2 ^ k % 2) 0) * 2 ^ j)
def runFwload (f i : Nat) (o : FwOp) (m : FmtE) (s : State) : FwOut :=
  let r := o.record.getD 0
  let way := nbits m.espec 3 4
  let row := nbits m.ectl 0 7
  let w := nbits m.ectl 7 6
  let g := f * 256 + o.core % 256
  let (vs, e, s) := tileVals g (rootOf s o.blk) (secureOf s o.blk) r (o.vals.map BitVec.toInt) (rCount r - o.column) o.column s
  let cols : Row := BitVec.ofNat 65536 ((2 ^ vs.length - 1) * 2 ^ o.column)
  let written : Row := BitVec.ofNat 65536 (2 ^ (o.column + vs.length) - 1)
  let s := (upto w).foldl (fun s k =>
    let old := getRow (getSlice s f i) way (row + k)
    let keep := (getSlice s f i).badSeg
    let s := putRow f i way (row + k) ((old &&& ~~~cols) ||| bitRow k o.column vs) s
    -- parity is restored only where the operation has written the whole segment
    modSlice f i (fun sl => { sl with badSeg := keep.filter (fun b => !(b.1 == way && b.2.1 == row + k && segMask [b.2.2] &&& ~~~written = 0)) }) s) s
  match e with
  | some (.fault x) => .fault x 6 (o.column + vs.length) s
  | some .held => .held (o.column + vs.length) s
  | none => .ended s
/-- `fwstore` from column `j` on: the bad segments of `bad` (row, segment) are read, and counted, as their columns come. -/
def storeCols (f i : Nat) (o : FwOp) (m : FmtE) (bad : List (Nat × Nat)) : Nat → Nat → State → FwOut
  | 0, _, s => .ended s
  | n + 1, j, s =>
    let r := o.record.getD 0
    let w := nbits m.ectl 7 6
    if elHeld s f (rootOf s o.blk) (secureOf s o.blk) r (coordsAt r (o.vals.map BitVec.toInt) j) 1 then .held j s else
    let s0 := s
    let v := colValue (getRows (getSlice s f i) (nbits m.espec 3 4) (nbits m.ectl 0 7) w) j
    let wide := 4 * rE2 r
    let v := if isI (rType r) then wrap wide (toSigned w v) else v
    let here := bad.filter (fun b => b.2 == j / 64)
    let isBad := !here.isEmpty
    let s := if j % 64 == 0 && !(o.counted && j == o.column) then countPar f here.length s else s
    let (u, s1) := freeW s
    let v := if isBad then u.toNat % 2 ^ wide else v
    let s := if isBad then s1 else s
    let x := coordsAt r (o.vals.map BitVec.toInt) j
    match elWrite o.core (rootOf s o.blk) (secureOf s o.blk) r x v s with
    | (.error e, s) => if (heldReach s0 s).isEmpty then .fault e 7 j s else .held j s0
    | (.ok (), s) =>
      if !(heldReach s0 s).isEmpty then .held j s0
      else
      let s := if isBad && !oobAt r x then poisonAt f (rootOf s o.blk) (secureOf s o.blk) (elAddr2 r x / 2 % 2 ^ 64) ((rE2 r + 1) / 2) s else s
      storeCols f i o m bad n (j + 1) s
def runFwstore (f i : Nat) (o : FwOp) (m : FmtE) (s : State) : FwOut :=
  let bad := badSegs (getSlice s f i) (nbits m.espec 3 4) ((upto (nbits m.ectl 7 6)).map (nbits m.ectl 0 7 + ·))
  let r := o.record.getD 0
  let isBad := fun (j : Nat) => bad.any (fun b => b.2 == j / 64)
  let bytes := fun (s : State) (j : Nat) =>
    let x := coordsAt r (o.vals.map BitVec.toInt) j
    if oobAt r x then [] else physBytes s f (rootOf s o.blk) (secureOf s o.blk) (elAddr2 r x / 2 % 2 ^ 64) ((rE2 r + 1) / 2)
  -- words that good columns have written whole, but those that a bad column's element touches
  let good := fun (n : Nat) (s : State) =>
    let ill := (((upto n).filter isBad).flatMap (fun j => (bytes s j).map (· / 8))).eraseDups
    wordsClean ((((upto (n - o.column)).map (o.column + ·)).filter (fun j => !isBad j)).flatMap (fun j => (bytes s j).filter (fun b => !ill.contains (b / 8)))) s
  match storeCols f i o m bad (rCount r - o.column) o.column s with
  | .ended s => .ended (good (rCount r) s)
  | .fault e a n s => .fault e a n (good n s)
  | .held n s => .held n (good n s)
def runFw (f i : Nat) (o : FwOp) (s : State) : FwOut :=
  match o.instr with
  | .fwop m => runFwop f i o m s
  | .fwfill m => runFwfill f i o m s
  | .fwred m => runFwred f i o m s
  | .fwload m => runFwload f i o m s
  | .fwstore m => runFwstore f i o m s
  | _ => .ended s

-- The sequencer's events ------------------------------------------------------------------------------------------------------------

def setFw (f i : Nat) (o : FwOp) (s : State) : State := modSlice f i (fun sl => { sl with queue := modWhere (fun x => x.id == o.id) (fun _ => o) sl.queue }) s
/-- An operation leaves its queue and completes on its tag (R186); of a killed block it sets no tag (R190). -/
def fwFinish (f i : Nat) (o : FwOp) (status payload : Nat) (s : State) : State :=
  let s := modSlice f i (fun sl => { sl with queue := sl.queue.filter (fun x => x.id != o.id) }) s
  if o.discard then s
  else tagDone o.blk o.tag status payload 1 (match o.slot with | some n => recDrop o.blk n s | none => s)
/-- No earlier operation of the slice names one of its ways (R186). -/
def fwTurn (sl : Slice) (o : FwOp) : Bool := (sl.queue.takeWhile (fun x => x.id != o.id)).all (fun x => x.ways &&& o.ways = 0)
/-- Run an operation; a fault stops it at its column count (R230), and so does a held access, from which it goes on later. `refault`: it runs again for a replay. -/
def fwRun (refault : Bool) (f i : Nat) (o : FwOp) (s : State) : State :=
  let again := refault || o.again
  match runFw f i o s with
  | .ended s => fwFinish f i o 0 0 s
  | .held col s => setFw f i { o with column := col, counted := o.counted && col == o.column, again := again && col == o.column } s
  | .fault e access col s' =>
    if !faultRoom s' f then setFw f i { o with again := again } s
    else
      let (q, s') := sendFault f { engineRec s' o.blk o.tag access e (.furrow f i o.id) with refault := again && col == o.column, core := BitVec.ofNat 8 (o.core % 256) } s'
      setFw f i { o with column := col, fault := some q, poisoned := e.1 == kPoison, counted := true, again := false } s'
/-- FURROW_OPERATION_COMPLETE: an operation whose turn it is finishes on every way it names. -/
def execFurrowOperationComplete (field op : Nat) (s : State) : Host.Outcome State Fault Refusal :=
  match (upto 8).findSome? (fun i => ((getSlice s field i).queue.find? (fun o => o.id == op)).map (fun o => (i, o))) with
  | none => .next s
  | some (i, o) =>
    if o.image.isSome || o.fault.isSome || !fwTurn (getSlice s field i) o then .next s
    else .next (fwRun false field i o s)
/-- A way's contents go (R147, R176). -/
def emptyWay (w : Nat) (sl : Slice) : Slice :=
  { sl with
    rows := sl.rows.filter (fun e => e.1 / 128 != w), badSeg := sl.badSeg.filter (fun b => b.1 != w)
    scratch := sl.scratch.filter (fun e => e.1 / 2 ^ 20 != w), scratchErr := sl.scratchErr.filter (fun e => e.1 / 2 ^ 17 != w) }
/-- Ways leave the cache role: the alias lines in them are written back and dropped (R147, R176). -/
def dropWays (f i : Nat) (ws : List Nat) (s : State) : State :=
  (s.aliasLines.filter (fun e => homeOf (e.1 * 128) == some f && llcSlice (e.1 * 128) == i && ws.contains e.2.way)).foldl (fun s e => aliasDrop e.1 s) s
/-- WPART_SWITCH_POINT: the `wpart` at the head of a slice's queue takes effect (R176, R177, R187) (conventions: DEDUCED, assumption 51). -/
def execWpartSwitchPoint (field slice : Nat) (s : State) : Host.Outcome State Fault Refusal :=
  match (getSlice s field slice).queue with
  | o :: _ =>
    match o.image with
    | none => .next s
    | some img =>
      let old := (getSlice s field slice).inForce
      let s := dropWays field slice ((upto 16).filter (fun w => role old w == 0 && role img w != 0)) s
      let s := modSlice field slice (fun sl =>
        let sl := ((upto 16).filter (fun w => role old w != role img w)).foldl (fun sl w => emptyWay w sl) { sl with inForce := img }
        { sl with furWorld := if roleCount img 2 == 0 && roleCount sl.committed 2 == 0 then none else sl.furWorld }) s
      let none_ := (upto 8).all (fun i => let sl := getSlice s field i; roleCount sl.inForce 1 == 0 && roleCount sl.committed 1 == 0)
      .next (fwFinish field slice o 0 0 (modFld field (fun k => { k with scrWorld := if none_ then none else k.scrWorld }) s))
  | [] => .next s

-- The instructions --------------------------------------------------------------------------------------------------------------------

def execWpart (f : FmtE) (s : State) : Host.Outcome State Fault Refusal := issueE .wpart f effWpart s
def execFwload (f : FmtE) (s : State) : Host.Outcome State Fault Refusal := issueE .fwload f effFwload s
def execFwstore (f : FmtE) (s : State) : Host.Outcome State Fault Refusal := issueE .fwstore f effFwstore s
def execFwop (f : FmtE) (s : State) : Host.Outcome State Fault Refusal := issueE .fwop f effFwop s
def execFwred (f : FmtE) (s : State) : Host.Outcome State Fault Refusal := issueE .fwred f effFwred s
def execFwfill (f : FmtE) (s : State) : Host.Outcome State Fault Refusal := issueE .fwfill f effFwfill s

end Sys2Proof.Machine
end

