-- ==== Sys2Proof/Machine/Coll.lean ====
section
/-! DEFINITION. The Collective Engine (R265-R277, R451, R452, R459): `coll` and `collq`, groups, tree sets, chunks and mileposts, re-trees, and the
messages of other packages. -/
namespace Sys2Proof.Machine

-- Group descriptors (R265) ------------------------------------------------------------------------------------

abbrev Group := BitVec 512
def gKind (d : Group) : Nat := nbits d 80 2
def gOp (d : Group) : Nat := nbits d 82 2
def gType (d : Group) : Nat := nbits d 84 5
def gTrees (d : Group) : Nat := nbits d 90 4
def gChunk (d : Group) : Nat := 4096 * 2 ^ nbits d 94 4
def gLength (d : Group) : Nat := nbits d 128 40
def gWork (d : Group) : Nat := nbits d 192 64
def gSeq (d : Group) : DWord := bits d 256 64
def gFields (d : Group) : List Nat := (upto 64).filter (fun f => bit d f)
def gPkgs (d : Group) : List Nat := (upto 16).filter (fun k => bit d (64 + k))
/-- Chunk count (R265). -/
def gCount (d : Group) : Nat := ceilDiv (gLength d) (gChunk d)
/-- Members as package * 64 + field. -/
def gMembers (d : Group) : List Nat := (gPkgs d).flatMap (fun k => (gFields d).map (fun f => k * 64 + f))
/-- The root (R267). -/
def gRoot (d : Group) : Nat := (gMembers d).headD 0
/-- Bytes of an element. -/
def gElem (d : Group) : Nat := if gKind d == 2 then 1 else if [13, 14].contains (gType d) then 2 else 4
/-- GROUP_BAD (R266); another package's fallow field is known once its table has come. -/
def groupBad (s : State) (d : Group) : Bool :=
  gKind d == 3 || (gKind d != 2 && gOp d == 3) || (if gKind d == 2 then gType d != 0 else !([12, 13, 14, 6, 10].contains (gType d))) ||
  gTrees d == 0 || 8 < gTrees d || 8 < nbits d 94 4 || nbits d 98 30 != 0 || nbits d 168 24 != 0 || nbits d 320 192 != 0 ||
  gLength d == 0 || gLength d % gElem d != 0 || gWork d % 4 != 0 || 65536 < gCount d ||
  ((gPkgs d).contains (pkgId s) && (gFields d).contains (fallow s)) ||
  s.remoteLinks.any (fun e => e.1 != pkgId s && (gPkgs d).contains e.1 && (gFields d).contains e.2.fallow) || (gMembers d).length < 2
/-- The order of the combination does not round (R274). -/
def gExact (d : Group) : Bool := bit d 89 && gOp d == 0 && isFloat (gType d)

-- Combination (R273, R274) ----------------------------------------------------------------------------------------

/-- Elements of a chunk. -/
def elemsOfBytes (n : Nat) : Nat → List Byte → List Nat
  | 0, _ => []
  | fuel + 1, bs => if bs.isEmpty then [] else (ofBytes 64 (bs.take n) : BitVec 64).toNat :: elemsOfBytes n fuel (bs.drop n)
def bytesOfElems (n : Nat) (l : List Nat) : List Byte := l.flatMap (fun x => toBytes n (BitVec.ofNat 64 x))
def elemList (d : Group) (bs : List Byte) : List Nat := elemsOfBytes (gElem d) (bs.length / gElem d + 1) bs
/-- Two partials combined, rounding once to TYPE (conventions: DEDUCED, assumption 70). -/
def combineBytes (d : Group) (a b : List Byte) : List Byte :=
  bytesOfElems (gElem d) (((elemList d a).zip (elemList d b)).map (fun (x, y) => redOp (gType d) (gOp d) x y))
/-- The exact sum of one element's contributions, rounded once (R274). -/
def canonSum (ty : Nat) (l : List FV) : Nat :=
  let fm := fmtOf ty
  if l.any FV.isNan || (l.any (fun x => x.isInf && x.sign) && l.any (fun x => x.isInf && !x.sign)) then fround fm canonNan
  else match l.find? FV.isInf with
    | some x => fpack fm x.sign (infMag fm)
    | none =>
      if l.all (fun x => x.isZero && x.sign) then fpack fm true 0
      else
        let t := l.foldl (fun (a : FV) x => if x.isZero then a else match a, x with
          | .fin n1 m1 e1, .fin n2 m2 e2 => if m1 == 0 then x else addFin n1 m1 e1 n2 m2 e2
          | _, _ => a) fzero
        if t.isZero then 0 else fround fm t
/-- Partials merged at a node: its own first, then each child's as it arrives (conventions: DEDUCED, assumption 70). -/
def mergeParts (d : Group) (a b : List (List Byte)) : List (List Byte) :=
  if gExact d then a ++ b
  else match a, b with
    | [x], [y] => [combineBytes d x y]
    | [], l => l
    | l, _ => l
/-- The chunk's result from the root's partial (conventions: DEDUCED, assumption 70). -/
def chunkResult (d : Group) (p : List (List Byte)) : List Byte :=
  if gExact d then
    let cols := p.map (elemList d)
    bytesOfElems (gElem d) ((upto ((cols.headD []).length)).map (fun i => canonSum (gType d) (cols.map (fun c => fdecode (fmtOf (gType d)) (c.getD i 0)))))
  else p.headD []

-- Trees (R268, R269) --------------------------------------------------------------------------------------------------

/-- A Quifin link of a package is UP at its other end too: each end's package keeps its state (R264, R268) (conventions: DEDUCED, assumption 69). -/
def upThere (s : State) (pkg link : Nat) : Bool :=
  if pkg == pkgId s then (getLink s link).state == 1 else (mget default s.remoteLinks pkg).up.contains link
/-- The live edges among the packages of a group, in ascending key order (R268). -/
def liveEdges (s : State) (pkgs : List Nat) : List Edge :=
  let me := pkgId s
  let torus := fun (k : Nat) (up : List Nat) => ((upto 128).filter (fun n => up.contains n)).map (fun n =>
    Edge.mk k n (k * 64 + (linkEnds n).1) (k * 64 + (linkEnds n).2))
  let ours := (upto 152).filter (fun n => (getLink s n).state == 1)
  let quifin := if !pkgs.contains me then [] else (ours.filter (fun n => linkKind n == 2)).filterMap (fun n =>
    match quifinFar s n with
    | some (k, m) => if !pkgs.contains k || !upThere s k m then none
      else
        let a := me * 64 + (linkEnds n).1
        let b := k * 64 + (linkEnds m).1
        some (if me ≤ k then Edge.mk me n a b else Edge.mk k m b a)
    | none => none)
  -- Quifin links between two other packages, from the table of the lower one
  let others := pkgs.flatMap (fun k => (if k == me then [] else (mget default s.remoteLinks k).far).filterMap (fun x =>
    if (mget default s.remoteLinks k).up.contains x.1 && x.2.1 != me && k ≤ x.2.1 && pkgs.contains x.2.1 && upThere s x.2.1 x.2.2 then
      some (Edge.mk k x.1 (k * 64 + (linkEnds x.1).1) (x.2.1 * 64 + (linkEnds x.2.2).1))
    else none))
  let all := pkgs.flatMap (fun k => if k == me then torus k ours else torus k (mget default s.remoteLinks k).up) ++ quifin ++ others
  sortBy (fun e => e.pkg * 256 + e.link) all
def touches (e : Edge) (n : Nat) : Bool := e.a == n || e.b == n
def farEnd (e : Edge) (n : Nat) : Nat := if e.a == n then e.b else e.a
/-- Nodes reached from some nodes over edges. -/
def reachFrom (es : List Edge) : Nat → List Nat → List Nat
  | 0, r => r
  | fuel + 1, r =>
    let more := (es.filterMap (fun e => if r.contains e.a && !r.contains e.b then some e.b else if r.contains e.b && !r.contains e.a then some e.a else none)).eraseDups
    if more.isEmpty then r else reachFrom es fuel (r ++ more)
/-- An edge whose removal parts its ends. -/
def isBridge (es : List Edge) (e : Edge) : Bool := !(reachFrom (es.filter (· != e)) es.length [e.a]).contains e.b
/-- `grow` of R269, from its queue on: the nodes reached and the edges, each from parent to child. -/
def growFrom (unused : List Edge) (avoid : Bool) : Nat → List Nat → List Nat → List Edge → List Edge → List Nat × List Edge
  | 0, _, r, _, t => (r, t)
  | _ + 1, [], r, _, t => (r, t)
  | fuel + 1, n :: q, r, used, t =>
    let (q, r, used, t) := (unused.filter (fun e => touches e n)).foldl (fun (q, r, used, t) e =>
      let o := farEnd e n
      if r.contains o then (q, r, used, t)
      else if avoid && isBridge (unused.filter (fun x => !used.contains x)) e then (q, r, used, t)
      else (q ++ [o], r ++ [o], used ++ [e], t ++ [{ e with a := n, b := o }])) (q, r, used, t)
    growFrom unused avoid fuel q r used t
def growTree (unused : List Edge) (avoid : Bool) (root n : Nat) : List Nat × List Edge := growFrom unused avoid (n + 1) [root] [root] [] []
/-- Remove leaves that are not members, repeatedly. -/
def pruneTree (members : List Nat) : Nat → List Edge → List Edge
  | 0, t => t
  | fuel + 1, t =>
    let t' := t.filter (fun e => members.contains e.b || t.any (fun x => x.a == e.b))
    if t'.length == t.length then t else pruneTree members fuel t'
/-- The trees of R269 before pruning. -/
def treeLoop (v : List Nat) (root : Nat) : Nat → List Edge → List (List Edge)
  | 0, _ => []
  | max + 1, unused =>
    let reachesAll := fun (r : List Nat) => v.all (fun n => r.contains n)
    let (r, t) := growTree unused true root v.length
    let (r, t) := if reachesAll r then (r, t) else growTree unused false root v.length
    if !reachesAll r then []
    else t :: treeLoop v root max (unused.filter (fun e => !t.any (fun x => x.pkg == e.pkg && x.link == e.link)))
/-- The tree set of a group (R268, R269). -/
def buildTrees (s : State) (d : Group) : List (List Edge) :=
  let v := (gPkgs d).flatMap (fun k => (upto 64).map (fun f => k * 64 + f))
  (treeLoop v (gRoot d) (gTrees d) (liveEdges s (gPkgs d))).map (fun t => pruneTree (gMembers d) t.length t)

-- Collectives in flight ----------------------------------------------------------------------------------------------------

/-- The descriptor every member must see. -/
def collDescOf (k : Collective) : Group := match k.members with | m :: _ => ofBytes 512 m.desc | [] => 0
def memberOf (k : Collective) (key : Nat) : Option CMember := k.members.find? (fun m => m.pkg * 64 + m.field == key)
/-- Every member of the group has been accepted (R266, R452). -/
def allIn (k : Collective) : Bool := (gMembers (collDescOf k)).all (fun key => (memberOf k key).isSome)
/-- Completed at every member of the group that the first descriptor names (R266). A group that a later table shows to be bad has no further members (conventions:
DEDUCED, assumption 67). -/
def collOver (k : Collective) : Bool :=
  k.status == some 0x31 || (gMembers (collDescOf k)).all (fun key => match memberOf k key with | some m => m.done | none => false)
def collOf (s : State) (seq : DWord) : Option Collective := s.colls.find? (fun k => k.seq == seq && !collOver k)
def modColl (seq : DWord) (f : Collective → Collective) (s : State) : State :=
  { s with colls := s.colls.map (fun k => if k.seq == seq && !collOver k then f k else k) }
def modMember (seq : DWord) (key : Nat) (f : CMember → CMember) (s : State) : State :=
  modColl seq (fun k => { k with members := modWhere (fun m => m.pkg * 64 + m.field == key) f k.members }) s
def collDelivered (k : Collective) : Nat := (k.chunks.filter (fun c => c.phase == 3)).length
/-- A live block of this package. -/
def blkLive (s : State) (b : Nat) : Bool := let p := (getBlk s b).phase; p == .resident || p == .stopping || p == .saved
/-- Every member completes with a status (R266, R270, R277); once a member's block is killed that status is ABORTED, whatever else ends the collective (conventions: DEDUCED,
assumption 67). -/
def collFinish (seq : DWord) (status : Nat) (s : State) : State :=
  match collOf s seq with
  | none => s
  | some k =>
    let status := if k.members.any (fun m => m.pkg == pkgId s && !m.done && !blkLive s m.blk) then 0x35 else status
    let n := if status == 0 then 0 else collDelivered k
    let s := modColl seq (fun k => { k with status := some (BitVec.ofNat 8 status), members := k.members.map (fun m => { m with done := true }) }) s
    (k.members.filter (fun m => !m.done && m.pkg == pkgId s && blkLive s m.blk)).foldl (fun s m => tagDone m.blk m.tag status n 2 s) s
/-- A member's access faults: its part of a chunk, and of the chunks of that tree, waits on a record (R277, R230). -/
def collFault (m : CMember) (seq : DWord) (chunk access : Nat) (e : EFault) (refault : Bool) (s : State) : State :=
  let f := fieldOf (getBlk s m.blk).core
  if !faultRoom s f || !blkLive s m.blk then s
  else
    let again := ((collOf s seq).bind (fun k => memberOf k (m.pkg * 64 + m.field))).any (fun m => m.again)
    let (q, s) := sendFault f { engineRec s m.blk m.tag access e (.coll seq m.field chunk) with refault := refault || again } s
    modMember seq (m.pkg * 64 + m.field) (fun m => { m with faults := m.faults ++ [(chunk, q)], again := false }) s
/-- Read bytes of physical parts at their homes for the engine of a field and a requester of a world (R146, R287); a poisoned word stops it, and its physical address and
the bytes before it are given. `done`: the bytes read. -/
def homeParts (w : Bool) (f : Nat) : List (Nat × Nat) → (done : Nat) → State → Except (Nat × Nat) (List Byte) × State
  | [], _, s => (.ok [], s)
  | (pa, n) :: rest, done, s =>
    let (x, s) : (List Byte × Option Nat) × State := match target pa with
      | .ctl off => ((ctlBytes s off n, none), s)
      | _ => let ((d, p), s) := homeRead (pa / 128) (homeReq (some w) f (pa / 128) s); ((lineBytes d (pa % 128) n, poisonAhead p (pa % 128) n), s)
    match x.2 with
    | some k => (.error (pa + k, done + k), s)
    | none => match homeParts w f rest (done + n) s with
      | (.error e, s) => (.error e, s)
      | (.ok bs, s) => (.ok (x.1 ++ bs), s)
/-- Bytes of a member's range read, or written, at home (R146, R266). -/
def memberRead (m : CMember) (va n : Nat) (s : State) : Except EFault (List Byte) × State :=
  let a := va % 2 ^ 64
  match ttuParts (fieldOf (getBlk s m.blk).core) (rootOf s m.blk) (secureOf s m.blk) 0 (lineParts (n / 128 + 2) a n) s with
  | (.error e, s) => (.error e, s)
  | (.ok ps, s) =>
    match homeParts (secureOf s m.blk) (fieldOf (getBlk s m.blk).core) ps 0 s with
    | (.error x, s) => (.error (kPoison, 0, x.1, (a + x.2) % 2 ^ 64), s)
    | (.ok bs, s) => (.ok bs, s)
def memberWrite (m : CMember) (va : Nat) (bs : List Byte) (s : State) : Except EFault Unit × State :=
  ttuWrite (getBlk s m.blk).core (rootOf s m.blk) (secureOf s m.blk) (va % 2 ^ 64) bs s
/-- A member's range lies in part on a pseudo-channel that holds its accesses (R147, R148). -/
def spanHeld (s : State) (m : CMember) (va n : Nat) : Bool :=
  anyHeld s && (lineParts (n / 128 + 2) (va % 2 ^ 64) n).any (fun (ln, lo, _) =>
    (upto 2).any (fun acc => vaHeld s (fieldOf (getBlk s m.blk).core) (rootOf s m.blk) (secureOf s m.blk) (ln * 128 + lo) acc))
def inRange (a lo n : Nat) : Bool := lo ≤ a && a < lo + n
/-- Bytes of which some hold undefined values after a write (R9). -/
def freeWhere (p : Nat → Bool) (va : Nat) (bs : List Byte) (s : State) : List Byte × State :=
  (((upto bs.length).zip bs).map (fun (i, b) => if p (va + i) then Config.freeByte (s.free * 2 ^ 64 + va + i) else b), { s with free := s.free + 1 })
/-- The milepost area, for a member under the root block's page tables (R272). -/
def inMiles (s : State) (k : Collective) (m : CMember) (a : Nat) : Bool :=
  let d := collDescOf k
  match k.members.find? (fun x => x.pkg * 64 + x.field == gRoot d) with
  | some r => r.pkg == pkgId s && rootOf s r.blk == rootOf s m.blk && inRange a (gWork d) (4 * gCount d)
  | none => false
/-- Write a chunk's result to a member's destination. Bytes where it overlaps the member's source in part, or the milepost area, become undefined
(R266, R272). -/
def dstWrite (k : Collective) (m : CMember) (lo : Nat) (bs : List Byte) (s : State) : Except EFault Unit × State :=
  let d := collDescOf k
  let (bs, s) := freeWhere (fun a => (m.src != m.dst && inRange a m.src.toNat (gLength d)) || inMiles s k m a) (m.dst.toNat + lo) bs s
  memberWrite m (m.dst.toNat + lo) bs s
/-- First byte and length of a chunk (R271). -/
def chunkSpan (d : Group) (c : Nat) : Nat × Nat := (c * gChunk d, min (gChunk d) (gLength d - c * gChunk d))

/-- A byte of the root's virtual memory lies in a source or destination of this package under the same page tables (R272). -/
def inRanges (s : State) (k : Collective) (m : CMember) (a : Nat) : Bool :=
  let d := collDescOf k
  k.members.any (fun x => x.pkg == pkgId s && rootOf s x.blk == rootOf s m.blk && (inRange a x.src.toNat (gLength d) || inRange a x.dst.toNat (gLength d)))
/-- Every member of this package has its block. -/
def ownLive (s : State) (k : Collective) : Bool := k.members.all (fun m => m.pkg != pkgId s || blkLive s m.blk)
/-- The first write of a collective that has started (R272): the milepost area is zeroed, by the engine of its root. Without a tree it then ends (R270). -/
def collZero (seq : DWord) (s : State) : State :=
  match collOf s seq with
  | none => s
  | some k =>
    let d := collDescOf k
    if !k.started || k.zeroed || k.status.isSome || !ownLive s k then s
    else
      let begun := fun (s : State) => if k.trees.isEmpty then collFinish seq 0x34 s else modColl seq (fun k => { k with zeroed := true }) s
      match memberOf k (gRoot d) with
      | some m =>
        if m.pkg != pkgId s then begun s
        else if !m.faults.isEmpty || spanHeld s m (gWork d) (4 * gCount d) then s
        else
        let (bs, s) := freeWhere (inRanges s k m) (gWork d) (List.replicate (4 * gCount d) 0) s
        match memberWrite m (gWork d) bs s with
          | (.error e, s') => collFault m seq 0 7 e false s'
          | (.ok (), s) => begun s
      | none => s
/-- Start a collective all of whose members are accepted (R266, R272): the tree set is built, and the milepost area zeroed. -/
def collStart (seq : DWord) (s : State) : State :=
  match collOf s seq with
  | none => s
  | some k =>
    let d := collDescOf k
    if k.started then collZero seq s
    else if k.status.isSome || !allIn k || !ownLive s k || !(gPkgs d).all (fun p => p == pkgId s || (mfind s.remoteLinks p).isSome) then s
    else if groupBad s d then collFinish seq 0x31 s
    else collZero seq (modColl seq (fun k => { k with started := true, trees := buildTrees s d, chunks := List.replicate (gCount d) {} }) s)
/-- A `coll` whose descriptor is latched is judged and accepted (R266). `own`: issued in this package. One whose own descriptor is bad ends GROUP_BAD alone and joins nothing
(conventions: DESIGN CHOICE, assumption 128). -/
def collAccept (m : CMember) (own : Bool) (s : State) : State :=
  let d : Group := ofBytes 512 m.desc
  let seq := gSeq d
  let key := m.pkg * 64 + m.field
  let fail := fun (code n : Nat) (s : State) => if own then tagDone m.blk m.tag code n 2 s else s
  if groupBad s d then fail 0x31 0 s
  else if !(gMembers d).contains key then fail 0x30 0 s
  else match collOf s seq with
    | none => collStart seq { s with colls := s.colls ++ [{ seq := seq, members := [m] }] }
    | some k =>
      let again := fun (s : State) => modColl seq (fun k => { k with dups := k.dups ++ [m.id] }) s
      if k.members.any (fun x => x.pkg * 64 + x.field == key && !x.done) then fail 0x32 (collDelivered k) (again s)
      else match k.status with
        | some st =>
          let s := if (memberOf k key).isSome then again s else modColl seq (fun k => { k with members := k.members ++ [{ m with done := true }] }) s
          fail st.toNat (collDelivered k) s
        | none =>
          let s := modColl seq (fun k => { k with members := k.members ++ [m] }) s
          if collDescOf k != d then collFinish seq 0x33 s else collStart seq s
/-- The kill of a member's block ends a collective for every other member (R277). -/
def collAbort (blks : List Nat) (s : State) : State :=
  s.colls.foldl (fun s k =>
    if collOver k || !k.members.any (fun m => m.pkg == pkgId s && !m.done && blks.contains m.blk) then s else collFinish k.seq 0x35 s)
    { s with collWait := s.collWait.filter (fun w => !blks.contains w.1.blk) }

-- Chunks and mileposts (R271, R272) -------------------------------------------------------------------------------------------

/-- A started collective, its mileposts zeroed, that is not paused, ended or missing a member. -/
def collRuns (s : State) (k : Collective) : Bool :=
  k.zeroed && !k.paused && k.status.isNone && ownLive s k
def chunkTree (k : Collective) (c : Nat) : List Edge := k.trees.getD (c % k.trees.length) []
/-- A range that a chunk's accesses may touch at a member of this package waits for its pseudo-channel: a source, a destination, or the milepost (R147, R148). -/
def chunkHeld (s : State) (k : Collective) (c : Nat) : Bool :=
  anyHeld s && k.members.any (fun m => m.pkg == pkgId s &&
    (let d := collDescOf k
     let at_ := chunkSpan d c
     spanHeld s m (m.src.toNat + at_.1) at_.2 || spanHeld s m (m.dst.toNat + at_.1) at_.2 || (m.pkg * 64 + m.field == gRoot d && spanHeld s m (gWork d + 4 * c) 4)))
/-- A chunk of a running collective can go on: its milepost is as its phase, and no access of it is held. -/
def chunkRuns (s : State) (k : Collective) (c : Nat) : Bool := collRuns s k && !(k.chunks.getD c {}).reset && !chunkHeld s k c
/-- Every lower chunk of the same tree has reached a phase (R271). -/
def chunkOrder (k : Collective) (c p : Nat) : Bool :=
  (upto c).all (fun i => i % k.trees.length != c % k.trees.length || p ≤ (k.chunks.getD i {}).phase)
def modChunk (seq : DWord) (c : Nat) (f : Chunk → Chunk) (s : State) : State :=
  modColl seq (fun k => { k with chunks := k.chunks.set c (f (k.chunks.getD c {})) }) s
/-- Write a chunk's milepost at home (R272) (conventions: DEDUCED, assumption 67). -/
def mileWrite (k : Collective) (m : CMember) (c phase arrived : Nat) (s : State) : Except EFault Unit × State :=
  let d := collDescOf k
  let va := gWork d + 4 * c
  let (bs, s) := freeWhere (inRanges s k m) va (toBytes 4 (BitVec.ofNat 32 (phase + c % k.trees.length * 4 + k.gen % 256 * 256 + arrived % 65536 * 65536))) s
  memberWrite m va bs s
/-- A node's partial so far: its own contribution when none has come (R271). The error carries the member that faulted. -/
def nodePartial (k : Collective) (ch : Chunk) (c node : Nat) (s : State) : Except (CMember × EFault) (List (List Byte)) × State :=
  match mfind ch.partials node with
  | some p => (.ok p, s)
  | none =>
    match memberOf k node with
    | none => (.ok [], s)
    | some m =>
      let (lo, n) := chunkSpan (collDescOf k) c
      match memberRead m (m.src.toNat + lo) n s with
      | (.error e, s) => (.error (m, e), s)
      | (.ok bs, s) => (.ok [bs], s)
/-- Nodes of a subtree. -/
def subtree (t : List Edge) : Nat → List Nat → List Nat
  | 0, r => r
  | fuel + 1, r => let more := (t.filter (fun e => r.contains e.a && !r.contains e.b)).map (fun e => e.b); if more.isEmpty then r else subtree t fuel (r ++ more)
/-- The number of the tree that carries a chunk (R271). -/
def treeNo (k : Collective) (c : Nat) : Nat := c % k.trees.length
/-- A member's part of the chunks of a chunk's tree waits on a fault (R277). -/
def partWaits (k : Collective) (m : CMember) (c : Nat) : Bool := m.faults.any (fun f => treeNo k f.1 == treeNo k c)
def nodeWaits (k : Collective) (c node : Nat) : Bool := match memberOf k node with | some m => partWaits k m c | none => false
/-- A node's partial for a chunk reaches its parent here, over an edge of the chunk's tree (R271, R273): the parent combines its own contribution first,
then each child's as it arrives; at the root the milepost shows who has arrived (R272). A partial or result that passes a link counts as flits (R287). -/
def mergeChild (k : Collective) (c : Nat) (e : Edge) (mine : List (List Byte)) (s : State) : State :=
  let d := collDescOf k
  let ch := k.chunks.getD c {}
  let t := chunkTree k c
  match nodePartial k ch c e.a s with
  | (.error (m, x), s') => collFault m k.seq c 6 x false s'
  | (.ok theirs, s) =>
    let root := gRoot d
    let more := if e.a == root then (subtree t t.length [e.b]).filter (fun n => (memberOf k n).isSome) else []
    let arr := (if root / 64 == pkgId s && !ch.arrived.contains root then [root] else []) ++ ch.arrived ++ more
    let fin := fun (s : State) => modChunk k.seq c (fun x => { x with
      phase := 1, sent := x.sent ++ [e.b], arrived := arr, partials := mput x.partials e.a (mergeParts d theirs mine) }) (flits s)
    match memberOf k root with
    | some m =>
      if m.pkg != pkgId s || (ch.phase == 1 && arr.length == ch.arrived.length) then fin s
      else if partWaits k m c then s
      else match mileWrite k m c 1 arr.length s with
        | (.error x, s') => collFault m k.seq c 7 x false s'
        | (.ok (), s) => fin s
    | none => s

/-- Write the mileposts of the chunks that a re-tree has set back to PENDING, where the root's part of their tree does not wait (R276, R277, R459). -/
def collResets (seq : DWord) (s : State) : State :=
  match collOf s seq with
  | none => s
  | some k =>
    if k.paused || k.status.isSome || !ownLive s k || k.chunks.all (fun c => !c.reset) then s
    else (upto k.chunks.length).foldl (fun s c =>
      match collOf s seq with
      | none => s
      | some k =>
        match memberOf k (gRoot (collDescOf k)) with
        | none => s
        | some m =>
          if !(k.chunks.getD c {}).reset || partWaits k m c || spanHeld s m (gWork (collDescOf k) + 4 * c) 4 then s
          else match mileWrite k m c 0 0 s with
            | (.error e, s') => collFault m seq c 7 e false s'
            | (.ok (), s) => modChunk seq c (fun x => { x with reset := false }) s) s
/-- A node of this package sends its partial to a parent in another package; where it is the first of its chunk to send, the milepost of a root here shows the chunk
REDUCING, with the root's own contribution (R271, R272). What passes a link counts as flits (R287). -/
def sendOut (k : Collective) (c node : Nat) (s : State) : State :=
  let ch := k.chunks.getD c {}
  let root := gRoot (collDescOf k)
  let fin := fun (arr : List Nat) (s : State) => modChunk k.seq c (fun x => { x with phase := 1, sent := x.sent ++ [node], arrived := arr }) (flits s)
  match memberOf k root with
  | none => s
  | some m =>
    if m.pkg != pkgId s || ch.phase == 1 then fin ch.arrived s
    else if partWaits k m c then s
    else match mileWrite k m c 1 1 s with
      | (.error x, s') => collFault m k.seq c 7 x false s'
      | (.ok (), s) => fin [root] s

/-- CHUNK_PARTIAL_ARRIVAL: a node of this package whose children have all sent sends its partial to its parent, here or in another package. -/
def execChunkPartialArrival (seq : DWord) (chunk node : Nat) (s : State) : Host.Outcome State Fault Refusal :=
  match collOf s seq with
  | none => .next s
  | some k =>
    if !k.zeroed then .next (collStart seq s)
    else if (k.chunks.getD chunk {}).reset then .next (collResets seq s)
    else
      let d := collDescOf k
      let ch := k.chunks.getD chunk {}
      let t := chunkTree k chunk
      match t.find? (fun e => e.b == node) with
      | none => .next s
      | some e =>
        if !chunkRuns s k chunk || gKind d == 2 || gCount d ≤ chunk || 1 < ch.phase || !chunkOrder k chunk 1 || ch.sent.contains node || node / 64 != pkgId s ||
            !(t.filter (fun x => x.a == node)).all (fun x => ch.sent.contains x.b) || nodeWaits k chunk node || nodeWaits k chunk e.a then .next s
        else match nodePartial k ch chunk node s with
          | (.error (m, x), s') => .next (collFault m seq chunk 6 x false s')
          | (.ok mine, s) =>
            .next (if e.a / 64 != pkgId s then sendOut k chunk node s else mergeChild k chunk e mine s)
/-- Every chunk is DELIVERED: the members complete (R277). -/
def collEnd (seq : DWord) (s : State) : State :=
  match collOf s seq with
  | some k => if k.chunks.all (fun c => c.phase == 3) then collFinish seq 0 s else s
  | none => s
/-- CHUNK_REDUCED: the root writes the chunk's result to its own destination. -/
def execChunkReduced (seq : DWord) (chunk : Nat) (s : State) : Host.Outcome State Fault Refusal :=
  match collOf s seq with
  | none => .next s
  | some k =>
    let d := collDescOf k
    let ch := k.chunks.getD chunk {}
    match memberOf k (gRoot d) with
    | none => .next s
    | some m =>
      if !chunkRuns s k chunk || m.pkg != pkgId s || partWaits k m chunk || gCount d ≤ chunk || !chunkOrder k chunk 2 ||
          (if gKind d == 2 then ch.phase != 0 else ch.phase != 1 || !(gMembers d).all (fun n => ch.arrived.contains n)) then .next s
      else
        let (lo, _) := chunkSpan d chunk
        match nodePartial k (if gKind d == 2 then {} else ch) chunk (gRoot d) s with
        | (.error (m, x), s') => .next (collFault m seq chunk 6 x false s')
        | (.ok p, s) =>
          let res := if gKind d == 2 then p.headD [] else chunkResult d p
          match dstWrite k m lo res s with
          | (.error x, s') => .next (collFault m seq chunk 7 x false s')
          | (.ok (), s) =>
            let ph := if gKind d == 1 then 3 else 2
            match mileWrite k m chunk ph ch.arrived.length s with
            | (.error x, s') => .next (collFault m seq chunk 7 x false s')
            | (.ok (), s) => .next (collEnd seq (modChunk seq chunk (fun c => { c with phase := ph, partials := [], sent := [], result := [] }) s))
/-- Write a chunk's result to the destinations of this package; `some`: the member that faulted. -/
def deliverTo (k : Collective) (lo : Nat) (bs : List Byte) : List CMember → State → Option (CMember × EFault) × State
  | [], s => (none, s)
  | m :: rest, s =>
    match dstWrite k m lo bs s with
    | (.error x, s) => (some (m, x), s)
    | (.ok (), s) => deliverTo k lo bs rest s
/-- CHUNK_DELIVERED: every destination has the chunk's result at home. -/
def execChunkDelivered (seq : DWord) (chunk : Nat) (s : State) : Host.Outcome State Fault Refusal :=
  match collOf s seq with
  | none => .next s
  | some k =>
    let d := collDescOf k
    let ch := k.chunks.getD chunk {}
    let root := gRoot d
    match memberOf k root with
    | none => .next s
    | some m =>
      let (lo, n) := chunkSpan d chunk
      let own := k.members.filter (fun x => x.pkg == pkgId s && x.pkg * 64 + x.field != root)
      if !chunkRuns s k chunk || gCount d ≤ chunk || ch.phase != 2 || own.any (fun x => partWaits k x chunk) then .next s
      else if m.pkg != pkgId s then
        if ch.pkgsDone.contains (pkgId s) then .next s
        else match deliverTo k lo ch.result own s with
        | (some (x, e), s') => .next (collFault x seq chunk 7 e false s')
        | (none, s) => .next (modChunk seq chunk (fun c => { c with pkgsDone := c.pkgsDone ++ [pkgId s] }) (flits s))
      else if partWaits k m chunk || !chunkOrder k chunk 3 || !(gPkgs d).all (fun p => p == pkgId s || ch.pkgsDone.contains p) then .next s
      else match memberRead m (m.dst.toNat + lo) n s with
        | (.error x, s') => .next (collFault m seq chunk 6 x false s')
        | (.ok bs, s) =>
          match deliverTo k lo bs own s with
          | (some (x, e), s') => .next (collFault x seq chunk 7 e false s')
          | (none, s) =>
            match mileWrite k m chunk 3 ch.arrived.length s with
            | (.error x, s') => .next (collFault m seq chunk 7 x false s')
            | (.ok (), s) => .next (collEnd seq (modChunk seq chunk (fun c => { c with phase := 3 }) (flits s)))

-- Re-tree (R275, R276) ---------------------------------------------------------------------------------------------------------

/-- A collective's tree set uses a link of this package. -/
def usesLink (s : State) (k : Collective) (id : Nat) : Bool :=
  let far := if linkKind id == 2 then quifinFar s id else none
  k.trees.any (fun t => t.any (fun e => (e.pkg == pkgId s && e.link == id) || far == some (e.pkg, e.link)))
/-- A generation rises; one of a collective rooted in this package is counted (R284). -/
def countRetree (k : Collective) (s : State) : State :=
  if gRoot (collDescOf k) / 64 == pkgId s then { s with pkgCnt := mput s.pkgCnt 8 (mget 0 s.pkgCnt 8 + 1) } else s
/-- Links fail: the collectives whose tree set uses one pause (R275); one that has paused already starts its rebuild again, and its generation rises once
more, where the link was an edge of its packages (R277). -/
def pauseWhere (uses edge : Collective → Bool) (s : State) : State :=
  s.colls.foldl (fun s k =>
    if !k.started || k.status.isSome || collOver k then s
    else if k.paused then (if edge k then countRetree k (modColl k.seq (fun k => { k with gen := k.gen + 1 }) s) else s)
    else if uses k then modColl k.seq (fun k => { k with paused := true }) s
    else s) s
/-- A failure of a link of this package. One of a Quifin link that its far end has reported already is the same failure (conventions: DEDUCED, assumption 69). -/
def pauseColls (id : Nat) (s : State) : State :=
  pauseWhere (fun k => usesLink s k id) (fun k => linkKind id == 0 || match quifinFar s id with
    | some (p, n) => linkKind id == 2 && (gPkgs (collDescOf k)).contains p && upThere s p n
    | none => false) s
/-- The far end of a Quifin link of another package, as its table gives it. -/
def farOf (t : RemoteLinks) (n : Nat) : Option (Nat × Nat) := (t.far.find? (fun x => x.1 == n)).map (·.2)
/-- A link table of another package in which links that were UP are so no longer (R275); `old`: its table before. -/
def pauseRemote (pkg : Nat) (old : RemoteLinks) (lost : List Nat) (s : State) : State :=
  if lost.isEmpty then s
  else pauseWhere (fun k => k.trees.any (fun t => t.any (fun e => lost.any (fun n => (e.pkg == pkg && e.link == n) || farOf old n == some (e.pkg, e.link)))))
    (fun k => (gPkgs (collDescOf k)).contains pkg && lost.any (fun n => linkKind n == 0 || match farOf old n with
      | some (p, m) => linkKind n == 2 && (gPkgs (collDescOf k)).contains p && upThere s p m
      | none => false)) s
/-- RE_TREE: a paused collective gets a new tree set and generation, and its chunks resume from their mileposts; those of a root here that restart are written
PENDING (R276) (conventions: DEDUCED, assumption 69). -/
def execReTree (seq : DWord) (s : State) : Host.Outcome State Fault Refusal :=
  match collOf s seq with
  | none => .next s
  | some k =>
    let d := collDescOf k
    if !k.paused || k.status.isSome then .next s
    else
      let ts := buildTrees s d
      let own := gRoot d / 64 == pkgId s
      let s := sbEvent (3, 0) .note (countRetree k s)
      let s := modColl seq (fun k => { k with
        paused := false, trees := ts, gen := k.gen + 1
        chunks := k.chunks.map (fun c =>
          if c.phase ≤ 1 then { ({} : Chunk) with reset := c.reset || (own && c.phase == 1) } else if c.phase == 2 then { c with pkgsDone := [] } else c) }) s
      .next (if ts.isEmpty then collFinish seq 0x34 s else collResets seq s)

/-- QUIFIN_MESSAGE: what another package sends (R266, R268, R271) (conventions: DESIGN CHOICE, assumption 68). -/
def execQuifinMessage (q : QuifinMsg) (s : State) : Host.Outcome State Fault Refusal :=
  match q with
  | .coll pkg field desc =>
    if pkg == pkgId s || 16 ≤ pkg || 64 ≤ field || desc.length != 64 then .next s
    else .next (collAccept { id := s.nextId, pkg := pkg, field := field, blk := 0, tag := 0, src := 0, dst := 0, desc := desc } false { s with nextId := s.nextId + 1 })
  | .links pkg up far fal =>
    if pkg == pkgId s || 16 ≤ pkg then .next s
    else
      let old : RemoteLinks := mget default s.remoteLinks pkg
      let s := pauseRemote pkg old (old.up.filter (fun n => !up.contains n)) { s with remoteLinks := mput s.remoteLinks pkg { up := up, far := far, fallow := fal } }
      .next (s.colls.foldl (fun s k =>
        if !k.started && k.status.isNone && groupBad s (collDescOf k) then collFinish k.seq 0x31 s else collStart k.seq s) s)
  | .partialChunk seq c node sources =>
    match collOf s seq with
    | none => .next s
    | some k =>
      let d := collDescOf k
      let ch := k.chunks.getD c {}
      match (chunkTree k c).find? (fun e => e.b == node) with
      | none => .next s
      | some e =>
        if !chunkRuns s k c || node / 64 == pkgId s || e.a / 64 != pkgId s || gKind d == 2 || gCount d ≤ c || 1 < ch.phase || !chunkOrder k c 1 ||
            ch.sent.contains node || nodeWaits k c e.a then .next s
        else .next (mergeChild k c e sources s)
  | .ended seq denied => .next (collFinish seq (if denied then 0x10 else 0x35) s)
  | .resultChunk seq c bytes =>
    match collOf s seq with
    | some k => if !collRuns s k || gRoot (collDescOf k) / 64 == pkgId s || gCount (collDescOf k) ≤ c || 1 < (k.chunks.getD c {}).phase then .next s
      else .next (modChunk seq c (fun h => { h with phase := 2, result := bytes }) s)
    | none => .next s
  | .chunkDone seq c pkg =>
    match collOf s seq with
    | some k =>
      let rp := gRoot (collDescOf k) / 64
      if !collRuns s k || pkg == pkgId s || gCount (collDescOf k) ≤ c then .next s
      else if rp == pkg then .next (collEnd seq (modChunk seq c (fun h => { h with phase := 3 }) s))
      else if rp == pkgId s then .next (modChunk seq c (fun h => { h with pkgsDone := h.pkgsDone ++ [pkg] }) s)
      else .next s
    | none => .next s

-- `coll` and `collq` (R451, R452) ------------------------------------------------------------------------------------------------

/-- Read and latch the descriptor of a `coll`, and judge it; a fault makes it wait for its replay, and an access that its pseudo-channel holds, or a fault that finds no
room in the fault queue, for a later time (R217, R266) (conventions: DEDUCED, assumption 67). -/
def collRead (m : CMember) (at_ : DWord) (refault : Bool) (s : State) : State :=
  let wait := fun (s : State) => { s with collWait := s.collWait ++ [(m, at_, refault)] }
  if spanHeld s m at_.toNat 64 then wait s
  else match memberRead m at_.toNat 64 s with
  | (.ok bs, s) => collAccept { m with desc := bs } true s
  | (.error e, s') =>
    let f := fieldOf (getBlk s m.blk).core
    if !faultRoom s' f then wait s
    else wait (sendFault f { engineRec s' m.blk m.tag 6 e (.collDesc m.id) with refault := refault } s').2
/-- A descriptor's read waits for an answer. -/
def collAsked (s : State) (id : Nat) : Bool := s.fields.any (fun f => f.2.faults.any (fun r => r.open_ && r.src == .collDesc id))
/-- Descriptor reads that wait for no answer go on. -/
def finishColls (s : State) : State :=
  (s.collWait.filter (fun w => !collAsked s w.1.id)).foldl (fun s w =>
    collRead w.1 w.2.1 w.2.2 { s with collWait := s.collWait.filter (fun x => x.1.id != w.1.id) }) s
/-- A descriptor's read of a `coll` that has just been issued has found the fault queue full: it waits, without a record, for no pseudo-channel (R217). -/
def collStuck (s t : State) : Bool :=
  t.collWait.any (fun w => s.nextId ≤ w.1.id && !collAsked t w.1.id && !spanHeld t w.1 w.2.1.toNat 64)
/-- `coll` (R451): it suspends where a descriptor's read faults and the field's fault queue has no room for the record (R217). -/
def effColl (f : FmtE) (c : Ctx) (s : State) : Fin :=
  let at_ := fun (l : Nat × Nat) => src64 c l.2 f.coord
  let bad := c.active.filter (fun l => at_ l % 64 != 0)
  let good := c.active.filter (fun l => at_ l % 64 == 0)
  if tagFull s { c with active := good } f.tag.toNat then .stall
  else
    let s := bad.foldl (fun s l => raiseAt c c.pc [l] cMisalign 0 (fun _ => BitVec.ofNat 64 (at_ l)) s) s
    let t := good.foldl (fun s l =>
      let m : CMember := {
        id := s.nextId, pkg := pkgId s, field := (getBlk s c.blk).lfield, blk := c.blk, tag := f.tag.toNat
        src := BitVec.ofNat 64 (src64 c l.2 f.opnd), dst := BitVec.ofNat 64 (src64 c l.2 (f.espec.setWidth 9)), desc := [] }
      let s := modTag c.blk m.tag (fun g => { g with coll := some m.id }) (tagIssue c.blk m.tag { s with nextId := s.nextId + 1 })
      collRead m (BitVec.ofNat 64 (at_ l)) false s) (release c.g 2 s)
    if collStuck s t then .suspend else .done t
/-- The report of `collq` (R452). -/
def collReport (s : State) (k : Block) (t : Nat) : Nat :=
  match (getTag k t).coll with
  | none => 0
  | some id =>
    if s.collWait.any (fun w => w.1.id == id) then 0
    else match s.colls.find? (fun x => x.members.any (fun m => m.id == id) || x.dups.contains id) with
      | none => 2 ^ 29
      | some x =>
        let done := x.dups.contains id || x.members.any (fun m => m.id == id && m.done)
        collDelivered x % 2 ^ 24 + x.trees.length * 2 ^ 24 + b2n (x.started || (x.status.isNone && allIn x)) * 2 ^ 28 + b2n done * 2 ^ 29
def effCollq (f : FmtA) (c : Ctx) (s : State) : Fin :=
  .done (writeLanes c f.d 1 (fun _ => collReport s (getBlk s c.blk) (nbits f.imm 0 6)) s)

def execColl (f : FmtE) (s : State) : Host.Outcome State Fault Refusal := issueE .coll f effColl s
def execCollq (f : FmtA) (s : State) : Host.Outcome State Fault Refusal := issueA .collq f effCollq s

end Sys2Proof.Machine
end

