-- ==== Sys2Proof/Machine/Replay.lean ====
section
/-! DEFINITION. Replay and denial (R54-R62, R85, R92, R230-R232): the answers to fault records by source, the spill of a register quantum, returning
results and accesses, and the comparisons of the shadow queue. -/
namespace Sys2Proof.Machine

-- Replay of an operand-log entry (R59-R61) ---------------------------------------------------------------------

/-- The effect an operand-log entry re-executes. -/
def effectOf (i : Instr) : Option (Ctx → State → Fin) :=
  match i with
  | .nop f => some (effNop f)
  | .br f => some (effBr f)
  | .brx f => some (effBrx f)
  | .call f => some (effCall f)
  | .callx f => some (effCallx f)
  | .ret f => some (effRet f)
  | .exit f => some (effExit f)
  | .trap f => some (effTrap f)
  | .tret f => some (effTret f)
  | .marshal f => some (effMarshal f)
  | .marshalRank f => some (effMarshalRank f)
  | .yield f => some (effYield f)
  | .repeatN f => some (effRepeatN f)
  | .sleep f => some (effSleep f)
  | .waitaddr f => some (effWaitaddr f)
  | .wakeaddr f => some (effWakeaddr f)
  | .preemptOff f => some (effPreemptOff f)
  | .preemptOn f => some (effPreemptOn f)
  | .bar f => some (effBar f)
  | .bara f => some (effBara f)
  | .barw f => some (effBarw f)
  | .grow f => some (effGrow f)
  | .shrink f => some (effShrink f)
  | .growa f => some (effGrowa f)
  | .shrinka f => some (effShrinka f)
  | .gets f => some (effGets f)
  | .sets f => some (effSets f)
  | .launch f => some (effLaunch f)
  | .depdec f => some (effDepdec f)
  | .locq f => some (effLocq f)
  | .add f => some (effAdd f)
  | .sub f => some (effSub f)
  | .addc f => some (effAddc f)
  | .subb f => some (effSubb f)
  | .mul f => some (effMul f)
  | .mulhi f => some (effMulhi f)
  | .mad f => some (effMad f)
  | .madw f => some (effMadw f)
  | .div f => some (effDiv f)
  | .rem f => some (effRem f)
  | .min f => some (effMin f)
  | .max f => some (effMax f)
  | .abs f => some (effAbs f)
  | .neg f => some (effNeg f)
  | .and f => some (effAnd f)
  | .or f => some (effOr f)
  | .xor f => some (effXor f)
  | .not f => some (effNot f)
  | .andn f => some (effAndn f)
  | .shl f => some (effShl f)
  | .shr f => some (effShr f)
  | .sar f => some (effSar f)
  | .rot f => some (effRot f)
  | .bfe f => some (effBfe f)
  | .bfi f => some (effBfi f)
  | .popc f => some (effPopc f)
  | .clz f => some (effClz f)
  | .ctz f => some (effCtz f)
  | .brev f => some (effBrev f)
  | .sel f => some (effSel f)
  | .cmp f => some (effCmp f)
  | .mov f => some (effMov f)
  | .movi f => some (effMovi f)
  | .lea f => some (effLea f)
  | .add64 f => some (effAdd64 f)
  | .sub64 f => some (effSub64 f)
  | .mad64 f => some (effMad64 f)
  | .pand f => some (effPand f)
  | .por f => some (effPor f)
  | .pxor f => some (effPxor f)
  | .pnot f => some (effPnot f)
  | .pmov f => some (effPmov f)
  | .fadd f => some (effFadd f)
  | .fsub f => some (effFsub f)
  | .fmul f => some (effFmul f)
  | .fma f => some (effFma f)
  | .fmin f => some (effFmin f)
  | .fmax f => some (effFmax f)
  | .fcmp f => some (effFcmp f)
  | .fclass f => some (effFclass f)
  | .frnd f => some (effFrnd f)
  | .frcp f => some (effFrcp f)
  | .frsq f => some (effFrsq f)
  | .fsqrt f => some (effFsqrt f)
  | .fexp2 f => some (effFexp2 f)
  | .flog2 f => some (effFlog2 f)
  | .fsin f => some (effFsin f)
  | .fcos f => some (effFcos f)
  | .ftanh f => some (effFtanh f)
  | .fsig f => some (effFsig f)
  | .fdot2 f => some (effFdot2 f)
  | .fdot4 f => some (effFdot4 f)
  | .cvt f => some (effCvt f)
  | .cvts f => some (effCvts f)
  | .pack2 f => some (effPack2 f)
  | .unpack f => some (effUnpack f)
  | .scalex f => some (effScalex f)
  | .q4enc f => some (effQ4enc f)
  | .q4dec f => some (effQ4dec f)
  | .ballot f => some (effBallot f)
  | .matchEq f => some (effMatchEq f)
  | .vote f => some (effVote f)
  | .reduce f => some (effReduce f)
  | .scan f => some (effScan f)
  | .shfl f => some (effShfl f)
  | .slotof f => some (effSlotof f)
  | .rankof f => some (effRankof f)
  | .ld f => some (effLd f)
  | .ldx f => some (effLdx f)
  | .st f => some (effSt f)
  | .atom f => some (effAtom f)
  | .atomn f => some (effAtomn f)
  | .cas f => some (effCas f)
  | .fence f => some (effFence f)
  | .prefetch f => some (effPrefetch f)
  | .clean f => some (effClean f)
  | .inval f => some (effInval f)
  | .ysend f => some (effYsend f)
  | .yrecv f => some (effYrecv f)
  | .yprobe f => some (effYprobe f)
  | .trec f => some (effTrec f)
  | .tcopy f => some (effTcopy f)
  | .tstore f => some (effTstore f)
  | .tcopymc f => some (effTcopymc f)
  | .recvarm f => some (effRecvarm f)
  | .tagwait f => some (effTagwait f)
  | .tagffs f => some (effTagffs f)
  | .tagclr f => some (effTagclr f)
  | .tagstat f => some (effTagstat f)
  | .drill f => some (effDrill f)
  | .mready f => some (effMready f)
  | .mwait f => some (effMwait f)
  | .accrd f => some (effAccrd f)
  | .accwr f => some (effAccwr f)
  | .nanrd f => some (effNanrd f)
  | .wpart f => some (effWpart f)
  | .fwload f => some (effFwload f)
  | .fwstore f => some (effFwstore f)
  | .fwop f => some (effFwop f)
  | .fwred f => some (effFwred f)
  | .fwfill f => some (effFwfill f)
  | .coll f => some (effColl f)
  | .collq f => some (effCollq f)
  | .trsync f => some (effTrsync f)
  | .tlbinvVa f => some (effTlbinvVa f)
  | .tlbinvRoot f => some (effTlbinvRoot f)
  | .tlbinvAll f => some (effTlbinvAll f)
  | .ctxsave f => some (effCtxsave f)
  | .ctxload f => some (effCtxload f)
  | .errinj f => some (effErrinj f)
  | _ => none

def entryOf (s : State) (b id : Nat) : Option LogEntry := (getBlk s b).log.find? (fun e => e.id == id)
/-- The consist number an entry's consist holds now. -/
def entryCn (s : State) (g : Nat) (e : LogEntry) : Nat := (((getCore s g).consists.find? (fun x => x.2.uid == e.uid)).map (·.1)).getD e.cn
/-- The context of a replay: the recorded threads with their recorded sources. -/
def replayCtx (s : State) (b : Nat) (e : LogEntry) (sn : Snap) : Ctx :=
  let g := (getBlk s b).core
  let ls := (membersOf e.slots).filter (fun l => e.lanes.contains l.2)
  { g := g, cn := entryCn s g e, uid := e.uid, blk := b, slots := e.slots, canon := e.canon, base := e.base, clause := e.clause, setA := false, setB := false
    last := false, afterYoke := false, pc := e.pc, rep := e.rep, exec := ls, active := ls, regs := sn, entry := some e.id, all := e.all }
/-- A replay that must wait, for its block, for what the instruction would stall on, or for a place in the fault queue (R37, R217, R432). -/
def replayLater (b : Nat) (e : LogEntry) (s : State) : State :=
  if e.retry then s else modEntry b e.id (fun e => { e with waiting := false, retry := true, arrival := s.nextId }) { s with nextId := s.nextId + 1 }
/-- A replay meets a fault again (R61): a new record, and the entry waits on, with the sources filled so far; with the fault queue full it is tried later (R217). -/
def refaultEntry (b : Nat) (e : LogEntry) (kind level pa access : Nat) (va : DWord) (s : State) : State :=
  let g := (getBlk s b).core
  if !faultRoom s (fieldOf g) then replayLater b e s
  else
    let (q, s) := sendFault (fieldOf g) { blkRec s b va (.consist b e.id) with
      kind := BitVec.ofNat 3 kind, level := BitVec.ofNat 3 level, pa := pa, access := BitVec.ofNat 4 access, unit := BitVec.ofNat 6 (entryCn s g e)
      entry := BitVec.ofNat 3 e.slot, refault := true, aliased := kind == kAlias } s
    modEntry b e.id (fun x => { x with seq := q, waiting := true, refaulted := true, retry := false, access := access, snap := e.snap, fills := e.fills }) s
/-- A fill of a replay that faults: rank and register, kind, level, physical address and virtual address. -/
abbrev FillStop := (Nat × Nat) × Nat × Nat × Nat × DWord
/-- Fill the source registers an entry lists (R59): the fills that fault, and the snapshot with the others. -/
def refill (b : Nat) : List (Nat × Nat) → Snap → State → List FillStop × Snap × State
  | [], sn, s => ([], sn, s)
  | (r, n) :: rest, sn, s =>
    let k := getBlk s b
    let va := quantumAddr k (n / 8) r
    match translate (.core k.core) (rootOf s b) (secureOf s b) va 0 s with
    | (.ok pa, s) =>
      let s := if (getTh s b r).spilled.contains n then fillQuantum k.core b r (n / 8) pa s else s
      let ((d, _), s) := l1Read (secureOf s b) k.core (pa / 128) (rangeMask (pa % 128) 32) false s
      let e := mget ([], [], 0) sn r
      refill b rest (mput sn r (mput e.1 n (bits d (8 * (pa % 128) + 32 * (n % 8)) 32), e.2)) s
    | (.fault kd lv pa, s) => let (l, sn, s) := refill b rest sn s; (((r, n), kd, lv, pa, va) :: l, sn, s)
    | (_, s) => let (l, sn, s) := refill b rest sn s; (((r, n), kWorld, leafLevel s k.core b va.toNat, 0, va) :: l, sn, s)
/-- A thread's result depends on a register of some rank. -/
def laneNeeds (c : Ctx) (reads : List RegUse) (l x : Nat × Nat) : Bool :=
  reads.any (fun u => (srcRanks c u l).contains x.1 && u.spec.toNat ≤ x.2 && x.2 < u.spec.toNat + u.n)
/-- A replay in which fills fault: the record names the lowest-slot thread a walk of which faults, of its fills or, for a thread before the first of those, of its access
(R61). -/
def refillFault (b : Nat) (e : LogEntry) (eff : Ctx → State → Fin) (c : Ctx) (faults : List FillStop) (s1 s : State) : State :=
  let reads := readsOf s c (shape e.instr)
  let before := c.active.takeWhile (fun l => !faults.any (fun x => laneNeeds c reads l x.1))
  let x := (c.active.drop before.length).head?.bind (fun l => faults.find? (fun x => laneNeeds c reads l x.1))
  match (if before.isEmpty then .stall else eff { c with active := before, exec := before } s1), x <|> faults.head? with
  | .refault kd lv pa va acc, _ => refaultEntry b e kd lv pa acc va s
  | _, some (_, kd, lv, pa, va) => refaultEntry b e kd lv pa 4 va s
  | _, none => s
/-- A request of an entry's replay is open: the entry keeps its marks until the result comes (R60). -/
def entryOwed (s : State) (b id : Nat) : Bool :=
  s.inflight.any (fun q => q.blk == b && q.entry == some id) || s.ctxWaits.any (fun q => q.blk == b && q.entry == some id) || (getBlk s b).grows.any (fun q => q.entry == some id)
/-- Replay an entry of a resident block; of another it is kept for its resumption, as it is where the instruction would stall, or where a pseudo-channel holds an access of
it (R147, R148) (conventions: DEDUCED, assumption 95). -/
def replayEntry (b id : Nat) (s : State) : State :=
  match entryOf s b id with
  | none => s
  | some e =>
    if !resident (getBlk s b) then replayLater b e s
    else
      let (faults, sn, s1) := refill b e.fills e.snap s
      if !(heldReach s s1).isEmpty then replayLater b e s
      else
      let e1 := { e with snap := sn, fills := faults.map (·.1) }
      match effectOf e.instr with
      | none => dropEntry b id s1
      | some eff =>
        let c := replayCtx s1 b e sn
        if !faults.isEmpty then refillFault b e1 eff c faults s1 s
        else match eff c s1 with
          | .done s2 => if !(heldReach s s2).isEmpty then replayLater b e s else if entryOwed s2 b id then modEntry b id (fun e => { e with waiting := false, retry := false }) s2 else dropEntry b id s2
          | .refault kd lv pa va acc => refaultEntry b e1 kd lv pa acc va s
          | _ => replayLater b e s
/-- Replays that waited for their block or for a record slot go on as soon as they can, in the order their commands came (R37, R60, R432) (conventions: DEDUCED, assumption 50). -/
def finishReplays (s : State) : State :=
  s.blocks.foldl (fun s kb =>
    if kb.2.log.all (fun e => !e.retry) || !resident kb.2 then s
    else (sortBy (fun (e : LogEntry) => e.arrival) (kb.2.log.filter (fun e => e.retry))).foldl (fun s e => replayEntry kb.1 e.id s) s) s
/-- The access kind of a faulted access of an instruction (R229). -/
def accessKind : Instr → Nat
  | .st _ | .yrecv _ => 1
  | .atom _ | .atomn _ | .cas _ => 2
  | .wakeaddr _ | .clean _ | .inval _ => 8
  | _ => 0
/-- What an entry's denial reports for a thread: the access kind, and the faulting address of its own register fill or access (R84, R85). -/
def deniedAt (s : State) (b : Nat) (c : Ctx) (e : LogEntry) (va : DWord) (l : Nat × Nat) : Nat × DWord :=
  match e.fills.find? (laneNeeds c (readsOf s c (shape e.instr)) l) with
  | some x => (4, quantumAddr (getBlk s b) (x.2 / 8) x.1)
  | none => match accessOf c e.instr l with
    | some a => (accessKind e.instr, BitVec.ofNat 64 a.2.1)
    | none => (e.access, va)
/-- Denial of an entry (R232, R85): PAGE_DENIED on its threads, and undefined values where it still holds marks. -/
def denyEntry (b : Nat) (e : LogEntry) (va : DWord) (s : State) : State :=
  let c := replayCtx s b e e.snap
  let s := c.active.foldl (fun s l =>
    let d := deniedAt s b c e va l
    queueDeferred b l.2 cPageDenied (if d.1 == 8 then 5 else d.1) d.2 s (repOf c)) s
  let s := (mkeys (getBlk s b).members).foldl (fun s r =>
    ((getTh s b r).marks.filter (fun m => m.2 == e.id)).foldl (fun s m => let (w, s) := freeW s; modTh b r (fun t => putReg m.1 w t) s) s) s
  dropEntry b e.id s

-- Spill (R55-R58) --------------------------------------------------------------------------------------------------------

/-- Spill faults that wait for a place in their field's fault queue go on when there is one (R217), and spills whose page translates, when their pseudo-channel serves them
(R148). -/
def sendSpills (s : State) : State :=
  s.blocks.foldl (fun s kb =>
    if !resident kb.2 then s
    else kb.2.members.foldl (fun s m => (m.2.pinned.filter (fun p => p.2.isNone)).foldl (fun s p =>
      if faultRoom s (fieldOf kb.2.core) || (peekPa s kb.2.core kb.1 (quantumAddr (getBlk s kb.1) p.1 m.1)).isSome then
        spillQuantum kb.1 m.1 p.1 false (modTh kb.1 m.1 (fun t => { t with pinned := t.pinned.filter (· != p) }) s)
      else s) s) s) s
/-- SPILL: a cold quantum of a thread is written back. -/
def execSpill (core blk rank quantum : Nat) (s : State) : Host.Outcome State Fault Refusal :=
  let k := getBlk s blk
  let t := getTh s blk rank
  if !resident k || k.core != core || k.threads ≤ rank || k.allot ≤ quantum * 8 || t.pinned.any (fun p => p.1 == quantum) || (quantumRegs t quantum).isEmpty then .next s
  else .next (spillQuantum blk rank quantum false s)

-- Answers by source (R230, R232) -------------------------------------------------------------------------------------------

/-- The consist of a block with a unique number, on its core or saved. -/
def consistByUid (s : State) (b uid : Nat) : Option Consist :=
  match (getCore s (getBlk s b).core).consists.find? (fun e => e.2.uid == uid && e.2.blk == b) with
  | some e => some e.2
  | none => (getBlk s b).savedConsists.find? (fun k => k.uid == uid)
def modByUid (b uid : Nat) (f : Consist → Consist) (s : State) : State :=
  let s := modCore (getBlk s b).core (fun c => { c with consists := c.consists.map (fun e => if e.2.uid == uid && e.2.blk == b then (e.1, f e.2) else e) }) s
  modBlk b (fun k => { k with savedConsists := modWhere (fun x => x.uid == uid) f k.savedConsists }) s
/-- REPLAY of a fetch: the consist is eligible again once the walk succeeds. A refault names the consist by the number it holds now. -/
def replayFetch (b uid : Nat) (r : FRec) (s : State) : State :=
  match consistByUid s b uid with
  | none => s
  | some k =>
    if k.fetchWait != some r.seq then s
    else
      let g := (getBlk s b).core
      let s0 := modByUid b uid (fun k => { k with fetchWait := none }) s
      if !resident (getBlk s b) then modByUid b uid (fun k => { k with again := true }) s0
      else match fetchLine g b r.va s0 with
        | (.fault kd lv pa, s') =>
          if !faultRoom s0 (fieldOf g) || !(heldReach s0 s').isEmpty then modByUid b uid (fun k => { k with again := true }) s0
          else
          let (q, s) := sendFault (fieldOf g) { blkRec s0 b r.va (.fetch b uid) with
            kind := BitVec.ofNat 3 kd, level := BitVec.ofNat 3 lv, pa := pa, access := 3, source := 1
            unit := (((getCore s0 g).consists.find? (fun x => x.2.uid == uid && x.2.blk == b)).map (fun x => BitVec.ofNat 6 x.1)).getD r.unit, refault := true } s0
          modByUid b uid (fun k => { k with fetchWait := some q }) s
        | (_, s') => if (heldReach s0 s').isEmpty then s' else modByUid b uid (fun k => { k with again := true }) s0
/-- The end of the range of a collective that a member's faulted access of a chunk lies in: of its part of the source or the destination, or of the mileposts. -/
def collReach (k : Collective) (chunk : Nat) (m : CMember) (r : FRec) : Nat :=
  let d := collDescOf k
  let at_ := chunkSpan d chunk
  let data := if r.access == 7 then [m.dst.toNat] else [m.src.toNat, m.dst.toNat]
  let miles := if k.zeroed then (gWork d + 4 * chunk, 4) else (gWork d, 4 * gCount d)
  let x := (data.map (fun a => (a + at_.1, at_.2)) ++ [miles]).find? (fun x => inRange r.va.toNat x.1 x.2)
  match x with
  | some x => x.1 + x.2
  | none => r.va.toNat + 1
/-- What the rest of a member's faulted access meets when it is walked again (R232). -/
def rewalk (k : Collective) (chunk : Nat) (m : CMember) (r : FRec) (s : State) : Option EFault × State :=
  let n := collReach k chunk m r - r.va.toNat
  if r.access == 7 then
    match ttuParts (fieldOf (getBlk s m.blk).core) (rootOf s m.blk) (secureOf s m.blk) 1 (lineParts (n / 128 + 2) r.va.toNat n) s with
    | (.error e, s) => (some e, s)
    | (.ok _, s) => (none, s)
  else match memberRead m r.va.toNat n s with
    | (.error e, s) => (some e, s)
    | (.ok _, s) => (none, s)
/-- The operation of a field's furrow sequencers by its number. -/
def fwOf (s : State) (f i op : Nat) : Option FwOp := (getSlice s f i).queue.find? (fun o => o.id == op)
/-- A REPLAY answer (R232). -/
def replaySource (f : Nat) (r : FRec) (s : State) : State :=
  match r.src with
  | .consist b id => replayEntry b id s
  | .fetch b uid => replayFetch b uid r s
  | .copy op =>
    match copyOf s op with
    | some cp =>
      if cp.fault != some r.seq then s
      else
        let cp := { cp with fault := none, poisoned := false }
        if resident (getBlk s cp.blk) then copyRun true 1 cp s else putCopy { cp with again := true } s
    | none => s
  | .furrow fld i op =>
    match fwOf s fld i op with
    | some o => if o.fault != some r.seq then s
      else
        let o := { o with fault := none, poisoned := false }
        fwRun true fld i o (setFw fld i o s)
    | none => s
  | .drillRead b =>
    if (getBlk s b).drill.fault != some r.seq then s
    else if (getBlk s b).phase != .resident then modDrill b (fun d => { d with fault := none, again := true }) s
    else match ttuRead f (rootOf s b) (secureOf s b) (getBlk s b).drill.addr.toNat 12 s with
      | (.ok _, s') => if (heldReach s s').isEmpty then modDrill b (fun d => { d with fault := none }) s' else modDrill b (fun d => { d with fault := none, again := true }) s
      | (.error e, s') =>
        if !faultRoom s f || !(heldReach s s').isEmpty then modDrill b (fun d => { d with fault := none, again := true }) s
        else
        let (q, s) := sendFault f { engineRec s b 0 6 e (.drillRead b) with drill := true, refault := true } s
        modDrill b (fun d => { d with fault := some q }) s
  | .drillCmd b uid =>
    match (getBlk s b).drill.table.find? (fun e => e.uid == uid) with
    | some e =>
      if e.fault != some r.seq then s
      else
        let e := { e with fault := none }
        let s := putEnt b { e with again := true } s
        if (getBlk s b).phase == .resident then dRow b e true (rowOf b e) s else s
    | none => s
  | .coll seq fld chunk =>
    match collOf s seq with
    | some k =>
      let key := pkgId s * 64 + fld
      (match memberOf k key with
       | some m =>
         if !m.faults.contains (chunk, r.seq) || !blkLive s m.blk then s
         else
           let s := modMember seq key (fun m => { m with faults := m.faults.filter (fun x => x.2 != r.seq) }) s
           let x := rewalk k chunk m r s
           if !(heldReach s x.2).isEmpty || (x.1.isSome && !faultRoom s (fieldOf (getBlk s m.blk).core)) then modMember seq key (fun m => { m with again := true }) s
           else (match x with
            | (none, s) => collResets seq (collStart seq s)
            | (some e, _) => collFault m seq chunk r.access.toNat e true s)
       | none => s)
    | none => s
  | .collDesc op =>
    match s.collWait.find? (fun w => w.1.id == op) with
    | some (m, at_, _) => collRead m at_ true { s with collWait := s.collWait.filter (fun w => w.1.id != op) }
    | none => s
  | .spill b rk q =>
    if !(getTh s b rk).pinned.contains (q, some r.seq) then s
    else
      let s := modTh b rk (fun t => { t with pinned := t.pinned.filter (· != (q, some r.seq)) }) s
      if resident (getBlk s b) then spillQuantum b rk q true s else s
  | .double _ => s
/-- Rows of a store that is denied hold undefined values where they can be written (R232, R9). -/
def freeRow (b : Nat) (e : DEnt) (row : Nat) (s : State) : State :=
  match e.instr with
  | .dstacc c => (upto 32).foldl (fun s col =>
      let (w, s) := freeW s
      (elWrite (getBlk s b).core (rootOf s b) (secureOf s b) (e.recA.getD 0) (ldCoords c row col) w.toNat s).2) s
  | _ => s
/-- A DENY answer (R232). A fetch's cause stays queued on a thread in the Handler state, whose consist fetches again, with a new record (conventions: DEDUCED, assumption
47; DESIGN CHOICE, assumption 117). -/
def denySource (r : FRec) (s : State) : State :=
  match r.src with
  | .consist b id => (match entryOf s b id with | some e => denyEntry b e r.va s | none => s)
  | .fetch b uid =>
    match consistByUid s b uid with
    | some k => (membersOf k.slots).foldl (fun s l => queueDeferred b l.2 cPageDenied 3 r.va s) (modByUid b uid (fun k => { k with fetchWait := none }) s)
    | none => s
  | .copy op => (match copyOf s op with | some cp => copyFinish cp (if cp.poisoned then 0x41 else 0x10) cp.elem s | none => s)
  | .furrow f i op =>
    match fwOf s f i op with
    | some o =>
      let isRed := match o.instr with | .fwred _ => true | _ => false
      fwFinish f i o (if o.poisoned then 0x41 else 0x10) (if isRed then 0 else o.column) s
    | none => s
  | .drillRead b => if (getBlk s b).drill.fault != some r.seq then s else failDrill b cPageDenied (modDrill b (fun d => { d with fault := none }) s)
  | .drillCmd b uid =>
    match (getBlk s b).drill.table.find? (fun e => e.uid == uid) with
    | some e =>
      let s := if dWrites e.instr then accFree b e.cmd.acc.toNat (e.row * 32) s else ((upto (32 - e.row)).map (e.row + ·)).foldl (fun s row => freeRow b e row s) s
      let s := (liveRanks (getBlk s b)).foldl (fun s rk => queueDeferred b rk cPageDenied (if r.access == 7 then 1 else 0) r.va s) s
      retireCmd b e s
    | none => s
  | .coll seq fld chunk => if ((collOf s seq).bind (fun k => memberOf k (pkgId s * 64 + fld))).any (fun m => m.faults.contains (chunk, r.seq)) then collFinish seq 0x10 s else s
  | .collDesc op =>
    match s.collWait.find? (fun w => w.1.id == op) with
    | some (m, _, _) => tagDone m.blk m.tag 0x10 0 2 { s with collWait := s.collWait.filter (fun w => w.1.id != op) }
    | none => s
  | .spill b rk q => faultPolicy b (modTh b rk (fun t => { t with pinned := t.pinned.filter (· != (q, some r.seq)) }) s)
  | .double _ => s
/-- Answer a record (R231): it leaves its field's queue, or the command is ignored and counted. -/
def answer (f : Nat) (seq : Word) (act : FRec → State → State) (s : State) : State :=
  match (getFld s f).faults.find? (fun r => r.seq == seq && r.open_) with
  | none => evAdd f 0x70 1 s
  | some r => act r (modFld f (fun k => { k with
      faults := (modWhere (fun x => x.seq == seq) (fun x => { x with open_ := false }) k.faults).filter (fun x => x.open_ || !x.taken || x.seq != seq) }) s)
/-- Conventions: DEDUCED, assumption 49. -/
def execFqcmdReplay (field : Nat) (seq : Word) (s : State) : Host.Outcome State Fault Refusal :=
  if 64 ≤ field then .next s else .next (answer field seq (replaySource field) s)
/-- Conventions: DEDUCED, assumption 49. -/
def execFqcmdDeny (field : Nat) (seq : Word) (s : State) : Host.Outcome State Fault Refusal :=
  if 64 ≤ field then .next s else .next (answer field seq denySource s)

-- Results, accesses and the shadow queue (R71, R72, R92) ------------------------------------------------------------------------

/-- An outstanding number that another event settles. -/
def outHeld (s : State) (b out : Nat) : Bool :=
  (getBlk s b).grows.any (fun q => q.out == out) || s.inflight.any (fun q => q.out == out) || s.ctxWaits.any (fun q => q.out == out) ||
  s.invals.any (fun q => q.out == out) || (getBlk s b).syncs.any (fun q => q.out == out)
/-- An access waits for its pseudo-channel, behind earlier ones that were held there, or, ordering others, for an earlier one of its thread that does
(R148) (conventions: DEDUCED, assumption 95). -/
def accessHeld (s : State) (t : Thread) (o : Out) : Bool :=
  let waits := fun (x : Out) => x.pchs.any (pchHeld s)
  waits o || (o.fence && t.outs.any (fun x => x.id < o.id && waits x)) ||
  (o.held && s.blocks.any (fun k => k.2.members.any (fun m => m.2.outs.any (fun x => x.held && x.id < o.id && x.pchs.any (fun p => o.pchs.contains p)))))
/-- INSTRUCTION_RESULT_RETURN: a result outstanding for flag A returns; that of a held access with it (R147, R148). -/
def execInstructionResultReturn (blk rank out : Nat) (s : State) : Host.Outcome State Fault Refusal :=
  if outHeld s blk out || (getTh s blk rank).outs.any (fun o => o.id == out && accessHeld s (getTh s blk rank) o) then .next s
  else .next (modTh blk rank (fun t => { t with outs := (modWhere (fun o => o.id == out) (fun o => { o with a := false }) t.outs).filter (fun o => o.a || o.b || o.id != out) }) s)
/-- ACCESS_COMPLETE: an access outstanding for flag B completes. -/
def execAccessComplete (blk rank out : Nat) (s : State) : Host.Outcome State Fault Refusal :=
  if outHeld s blk out || (getTh s blk rank).outs.any (fun o => o.id == out && accessHeld s (getTh s blk rank) o) then .next s
  else .next (modTh blk rank (fun t => { t with outs := (modWhere (fun o => o.id == out) (fun o => { o with b := false }) t.outs).filter (fun o => o.a || o.b || o.id != out) }) s)
/-- SHADOW_COMPARE: the oldest instruction of a shadow queue is compared; `differ` are the slots whose second results differ. With an empty queue they are
the slots that differ at the core's next comparison with idle lanes (conventions: DESIGN CHOICE, assumption 91). -/
def execShadowCompare (core : Nat) (differ : BitVec 32) (s : State) : Host.Outcome State Fault Refusal :=
  match (getCore s core).shadowQ with
  | [] => .next (modCore core (fun c => { c with laneErr := differ }) s)
  | e :: rest =>
    let s := modCore core (fun c => { c with shadowQ := rest }) s
    let s := perfCore core e.blk 0x15 1 (evAdd (fieldOf core) 0x50 1 s)
    .next (shadowMismatch e.blk ((membersOf e.slots).filter (fun l => bit differ l.1 || bit e.forced l.1)) e.pc e.rep s)

end Sys2Proof.Machine
end

