-- ==== Sys2Proof/Machine/Sched.lean ====
section
/-! DEFINITION. The Terminus as scheduler (R15-R24, R35-R42, R94-R97, R192-R210, R253-R260, R372): placement, admission, dispatch, the arbiter, commands,
pre-emption, context saving and resumption, retirement and kills. -/
namespace Sys2Proof.Machine

-- The Terminus's accesses (R146, R198) ---------------------------------------------------------------------------

/-- Write bytes at a physical address with a system-scope release; a control-space address takes register writes. -/
def termPut (pa : Nat) (bs : List Byte) (s : State) : State :=
  match target pa with
  | .ctl off => { s with agenda := s.agenda ++ (ctlEvents s off bs).map .event }
  | _ => homePuts pa bs s
/-- DONEVALUE to DONEADDR (R198): false where the write is skipped (conventions: DEDUCED, assumption 81). -/
def writeDone (region : Nat) (e : BitVec 512) (s : State) : Bool × State :=
  let va : DWord := bits e 320 64
  if va = 0 then (true, s)
  else match termXl region va 1 s with
    | (some pa, s) =>
      let k := 4096 - pa % 4096
      if 8 ≤ k then (true, termPut pa (toBytes 8 (bits e 384 64 : DWord)) s)
      else match termXl region (va + BitVec.ofNat 64 k) 1 s with
        | (some pb, s) => (true, termPut pb ((toBytes 8 (bits e 384 64 : DWord)).drop k) (termPut pa ((toBytes 8 (bits e 384 64 : DWord)).take k) s))
        | (none, s) => (false, s)
    | (none, s) => (false, s)

-- Records (R193, R198, R199) ----------------------------------------------------------------------------------------

abbrev LRec := BitVec 512
def qRegion (q : Queue) : Nat := nbits q.desc 64 52
def qLog (q : Queue) : Nat := nbits q.desc 52 5
def qDevice (q : Queue) : Bool := bit q.desc 57
def qLevel (s : State) (q : Queue) : Nat := regPriority s (qRegion q)
/-- Physical address of ring entry `i`. -/
def ringAt (q : Queue) (i : Nat) : Nat := nbits q.desc 0 52 + i % 2 ^ qLog q * 64
def lTag (e : LRec) : DWord := bits e 448 64
def lNbhd (e : LRec) : Bool := bit e 9
def lRows (e : LRec) : Nat := if lNbhd e then nbits e 48 3 + 1 else 1
def lCols (e : LRec) : Nat := if lNbhd e then nbits e 52 4 + 1 else 1
def lX (e : LRec) : Nat := nbits e 256 24 + 1
def lY (e : LRec) : Nat := nbits e 280 16 + 1
def lZ (e : LRec) : Nat := nbits e 296 16 + 1
/-- Blocks of the grid (R16). -/
def lBlocks (e : LRec) : Nat := lX e * lY e * lZ e
/-- A command with a kind the queue does not take, or a nonzero reserved field (R197). -/
def recBad (q : Queue) (e : LRec) : Bool :=
  let used : LRec := match nbits e 0 8 with
    | 0 => setBits (setBits 0 0 8 0xFF) 448 64 (2 ^ 64 - 1)
    | 1 => (BitVec.allOnes 512) &&& ~~~(setBits (setBits (setBits (setBits (setBits (setBits 0 13 3 7) 28 4 15) 44 4 15) 51 1 1) 56 8 255) 312 8 255)
    | 2 => setBits (setBits 0 0 8 0xFF) 320 192 (2 ^ 192 - 1)
    | 3 => setBits (setBits (setBits (setBits 0 0 8 0xFF) 16 12 0xFFF) 64 32 (2 ^ 32 - 1)) 448 64 (2 ^ 64 - 1)
    | _ => 0
  3 < nbits e 0 8 || (qDevice q && nbits e 0 8 != 1) || e &&& ~~~used != 0
/-- Fields of the kernel descriptor. -/
def kThreads (k : BitVec 256) : Nat := nbits k 64 12
def kRegs (k : BitVec 256) : Nat := nbits k 76 9
def kScratch (k : BitVec 256) : Nat := nbits k 85 7 * 4096
def kAccs (k : BitVec 256) : Nat := nbits k 92 5
def kRecs (k : BitVec 256) : Nat := nbits k 97 5
def kTags (k : BitVec 256) : Nat := nbits k 102 7
def kdescBad (k : BitVec 256) : Bool :=
  kThreads k == 0 || 2048 < kThreads k || kRegs k < 8 || 256 < kRegs k || kRegs k % 8 != 0 || 262144 < kScratch k || 16 < kAccs k || 16 < kRecs k || 64 < kTags k ||
  nbits k 109 147 != 0 || nbits k 0 6 != 0
/-- The grid and neighbourhood of a launch are out of range (R16, R200). -/
def gridBad (e : LRec) : Bool :=
  2 ^ 32 < lBlocks e || (lNbhd e && (lRows e * lCols e < 2 || 24 < lRows e * lCols e || lBlocks e % (lRows e * lCols e) != 0))

-- Room on cores (R19-R23) -----------------------------------------------------------------------------------------------

/-- A block holds its place on a core: it is there, or it was killed there and the kill has not drained (R42). -/
def onCore (b : Block) : Bool := resident b || b.occupies
/-- Blocks that occupy a core. -/
def blocksOn (s : State) (g : Nat) : List Block := (s.blocks.filter (fun e => e.2.core == g && onCore e.2)).map (·.2)
def sumBy {α : Type} (f : α → Nat) (l : List α) : Nat := l.foldl (fun n a => n + f a) 0
/-- The lowest free 4 KiB-aligned offset of the scratchpad that fits a grant (R132) (conventions: DEDUCED, assumption 62). -/
def grantAt (bs : List Block) (n : Nat) : Option Nat :=
  ((upto 65).map (· * 4096)).find? (fun o => o + n ≤ 262144 && bs.all (fun b => o + n ≤ b.scratchStart || b.scratchStart + b.scratchSize ≤ o || b.scratchSize == 0 || n == 0))
/-- What a block demands of its core (R20): threads, scratch, tiles, record slots, tags. -/
structure Demand where
  threads : Nat
  scratch : Nat
  accs    : Nat
  recs    : Nat
  tags    : Nat
  deriving DecidableEq, Repr
def demandOf (b : Block) : Demand := { threads := b.threads, scratch := b.scratchSize, accs := b.accs, recs := b.recs.length, tags := b.tags.length }
def demandK (k : BitVec 256) : Demand := { threads := kThreads k, scratch := kScratch k, accs := kAccs k, recs := kRecs k, tags := kTags k }
/-- A core of a live field that may receive blocks (R14, R456). -/
def coreOpen (s : State) (g : Nat) : Bool :=
  let f := getFld s (fieldOf g)
  fieldOf g != fallow s && fieldOf g < 64 && !f.testing && !((f.gated || f.gating) && 128 ≤ g % 256) && !(getCore s g).heldFor
/-- A core has room for a block (R20); the scratch offset it would have. -/
def coreRoom (s : State) (g : Nat) (d : Demand) : Option Nat :=
  let bs := blocksOn s g
  if sumBy (·.threads) bs + d.threads ≤ 2048 && bs.length < 16 && sumBy (·.accs) bs + d.accs ≤ 16 && sumBy (fun b => b.recs.length) bs + d.recs ≤ 16 &&
      sumBy (fun b => b.tags.length) bs + d.tags ≤ 64 then grantAt bs d.scratch
  else none
def freeThreads (s : State) (g : Nat) : Nat := 2048 - sumBy (·.threads) (blocksOn s g)
/-- The core of a field that a single block takes (R22): most free thread slots, then lowest ID (conventions: DEDUCED, assumption 62). -/
def bestCore (s : State) (f : Nat) (d : Demand) : Option Nat :=
  leastBy (fun g => 2048 - freeThreads s g) (((upto 256).map (f * 256 + ·)).filter (fun g => coreOpen s g && (coreRoom s g d).isSome))
/-- The cores of a field that a neighbourhood takes (R23), in slot order. -/
def bestRect (s : State) (f h w : Nat) (d : Demand) : Option (List Nat) :=
  ((upto 256).map (fun n =>
    if n % 128 / 16 + h ≤ 8 && n % 16 + w ≤ 16 then (upto (h * w)).map (fun k => f * 256 + n + k / w * 16 + k % w) else [])).find? (fun gs =>
      !gs.isEmpty && gs.all (fun g => coreOpen s g && (coreRoom s g d).isSome))
/-- Cores for one block or one neighbourhood in a field. -/
def placeIn (s : State) (f h w : Nat) (nb : Bool) (d : Demand) : Option (List Nat) :=
  if nb then bestRect s f h w d else (bestCore s f d).map (fun g => [g])

-- The Placement Table (R237, R238) ------------------------------------------------------------------------------------------

/-- The home of an acre, its leaf entry kept in the Terminus's cache. -/
def acreHome (root : Nat) (va : DWord) (s : State) : Option Nat × State :=
  let acre := nbits va 21 36
  let s' := placeReads root va s
  let s' := match placeLeaf s root va with
    | some e => if s.placeCache.any (fun x => x.1 == root && x.2.1 == acre) then s' else { s' with placeCache := (root, acre, e) :: s.placeCache.take 16383 }
    | none => s'
  (placeHome s root va, s')
/-- The live field with the most free thread slots (R21). -/
def freestField (s : State) : Nat :=
  let live := (upto 64).filter (fun f => f != fallow s)
  (leastBy (fun f => sumBy (·.threads) ((s.blocks.filter (fun e => fieldOf e.2.core == f && onCore e.2)).map (·.2))) live).getD 0
/-- The home of a launch (R21 step 1). -/
def launchHome (region : Nat) (e : LRec) (s : State) : Nat × State :=
  if bit e 12 then
    match acreHome (regPlace s region) (bits e 192 64) s with
    | (some h, s) => (h, s)
    | (none, s) => (freestField s, s)
  else (freestField s, s)
/-- The search order of a launch (R21) (conventions: DEDUCED, assumption 62). -/
def searchOrder (s : State) (home : Nat) (only : Bool) : List Nat :=
  if only then (if home == fallow s then [] else [home])
  else sortBy (fun f => torusDist home f) ((upto 64).filter (fun f => f != fallow s))

-- Pools (R53, R253, R372) -------------------------------------------------------------------------------------------------------

/-- The node whose block sets an inherited field. -/
def ownerOf (s : State) (ovr : Nat) : Nat → Nat → Nat
  | 0, a => a
  | fuel + 1, a =>
    let r := rcbOf s a
    if bit r (64 + ovr) || nbits r 0 52 == 0 then a else ownerOf s ovr fuel (nbits r 0 52)
/-- Base and size of the backing pool (12) or the context pool (13) of a region. -/
def poolOf (s : State) (region ovr : Nat) : Nat × Nat × Nat :=
  let o := ownerOf s ovr 8 region
  let r := rcbOf s o
  if ovr == 12 then (o, nbits r 448 64, nbits r 512 40) else (o, nbits r 576 64, nbits r 640 40)
/-- The lowest free 4 KiB-aligned place of a pool (conventions: DEDUCED, assumptions 37, 62). -/
def poolPlace (s : State) (region ovr n : Nat) : Option Nat :=
  let (o, base, size) := poolOf s region ovr
  let used := s.pools.filter (fun p => p.1 == o * 2 + ovr % 2)
  let cands := 0 :: used.map (fun p => roundUp (p.2.1 - base + p.2.2.1) 4096)
  (leastBy id (cands.filter (fun c => c + n ≤ size && used.all (fun p => base + c + n ≤ p.2.1 || p.2.1 + p.2.2.1 ≤ base + c)))).map (base + ·)
def poolTake (s : State) (region ovr at_ n b : Nat) : State := { s with pools := s.pools ++ [((poolOf s region ovr).1 * 2 + ovr % 2, at_, n, b)] }
def poolFree (b : Nat) (s : State) : State := { s with pools := s.pools.filter (fun p => p.2.2.2 != b) }
/-- Bytes that a block's context image is allotted: room for 64 consists (R94, R372) (conventions: DESIGN CHOICE, assumption 36). -/
def imageSize (d : Demand) : Nat := imageLen d.threads 64 d.scratch d.accs d.recs d.tags
/-- The pseudo-channels of the bytes of an accumulator save area (R298). -/
def savePchs (region : Nat) (at_ n : Nat) (s : State) : List (Nat × Nat) × State :=
  (upto (if n == 0 then 0 else (at_ + n - 1) / 256 - at_ / 256 + 1)).foldl (fun (acc : List (Nat × Nat) × State) i =>
    match termXl region (BitVec.ofNat 64 ((at_ / 256 + i) * 256)) 0 acc.2 with
    | (some pa, s) => ((acc.1 ++ (match target pa with | .dev f _ => [(f, pchOf pa)] | _ => [])).eraseDups, s)
    | (none, s) => (acc.1, s)) ([], s)

-- Ranges (R241, R242) ------------------------------------------------------------------------------------------------------------

/-- Where a region maps a page, by walking its tables: level, address of the leaf entry, entry. -/
def leafOf (s : State) (region va : Nat) : Option (Nat × Nat × DWord) :=
  match (walk none (regRoot s region) (regSecure s region) (BitVec.ofNat 64 va) s).1 with
  | .leaf lv at_ pte => some (lv, at_, pte)
  | .fault _ _ => none
/-- The reads that finding the leaf entries of a range makes (R298). -/
def readLeaves (region lo n : Nat) (s : State) : State :=
  (upto (n / 4096)).foldl (fun s i => (walk none (regRoot s region) (regSecure s region) (BitVec.ofNat 64 (lo + 4096 * i)) s).2) s
/-- A physical address in device memory, and in host memory. -/
def isDev (pa : Nat) : Bool := match target pa with | .dev _ _ => true | _ => false
def isHost (pa : Nat) : Bool := match target pa with | .host => true | _ => false
/-- A range has a page in device memory (`dev`), or in host memory. -/
def rangeIn (s : State) (region : Nat) (r : Nat × Nat) (dev : Bool) : Bool :=
  (upto (r.2 / 4096)).any (fun i => match leafOf s region (r.1 + 4096 * i) with
    | some (_, _, pte) => let pa := nbits pte 12 40 * 4096; if dev then isDev pa else isHost pa
    | none => false)

-- Admission (R19, R256) -------------------------------------------------------------------------------------------------------------

def modLaunch (id : Nat) (f : Launch → Launch) (s : State) : State :=
  match mfind s.launches id with
  | some l => { s with launches := mput s.launches id (f l) }
  | none => s
/-- A node's limits on measured shares, in 1/1024; above every share where it has none (R256). -/
def shareLimits (r : BitVec 2048) : Nat × Nat := (if bit r 79 then nbits r 144 11 else 2048, if bit r 80 then nbits r 155 11 else 2048)
/-- A node's measured shares leave room in a field; limits that a reread has lowered act from the next window on (R256, R257). -/
def shareRoom (s : State) (f a : Nat) : Bool :=
  let lim := shareLimits (rcbOf s a)
  let old := (((getFld s f).oldShares.find? (fun x => x.1 == a)).map (·.2)).getD lim
  match (getFld s f).shares.find? (fun x => x.1 == a) with
  | some (_, bw, pw) => (2048 ≤ lim.1 || bw < max lim.1 old.1) && (2048 ≤ lim.2 || pw < max lim.2 old.2)
  | none => true
/-- Budget room for the head block or neighbourhood of a launch. -/
def budgetRoom (s : State) (region : Nat) (l : Launch) : Bool :=
  let n := lRows l.entry * lCols l.entry
  pathRoom s region n (n * kThreads l.kdesc * kRegs l.kdesc * 4)
/-- Where the head block or neighbourhood of a launch goes: the first field of the search order with room (R21-R23). -/
def findPlace (s : State) (l : Launch) (order : List Nat) : Option (Nat × List Nat) :=
  order.findSome? (fun f => (placeIn s f (lRows l.entry) (lCols l.entry) (lNbhd l.entry) (demandK l.kdesc)).map (fun gs => (f, gs)))
/-- Dispatch one block of a launch on a core (R22, R48, R53, R68, R147, R278); none where a pool has no place (conventions: DEDUCED, assumptions 37, 88). -/
def dispatchOne (l : Launch) (g index first k : Nat) (s : State) : Option State :=
  let q := getQ s l.queue
  let region := qRegion q
  let d := demandK l.kdesc
  match coreRoom s g d, poolPlace s region 12 (kThreads l.kdesc * 1024), poolPlace s region 13 (imageSize d) with
  | some o, some bp, some cp =>
    let b := s.nextBlk
    let e := l.entry
    let args : DWord := bits e 128 64
    let th : Thread := { sregs := [(0, args.setWidth 32), (1, (args >>> 32).setWidth 32)], pc := bits l.kdesc 0 64 }
    let s := poolTake (poolTake s region 12 bp (kThreads l.kdesc * 1024) b) region 13 cp (imageSize d) b
    let (pchs, s) := savePchs region (cp + tilesAt) (d.accs * 4096) s
    let blk : Block := {
      id := b, launch := l.id, queue := l.queue, region := region, core := g, lfield := fieldOf g, lcore := g % 256, index := index
      gridpos := BitVec.ofNat 64 (index % lX e + index / lX e % lY e * 2 ^ 24 + index / (lX e * lY e) * 2 ^ 40)
      griddim := BitVec.ofNat 64 (lX e - 1 + (lY e - 1) * 2 ^ 24 + (lZ e - 1) * 2 ^ 40)
      threads := d.threads, allot := kRegs l.kdesc, args := args, backing := BitVec.ofNat 64 bp, scratchStart := o, scratchSize := d.scratch
      accs := d.accs, recs := List.replicate d.recs {}, tags := List.replicate d.tags {}
      nbhd := if lNbhd e then some (first, lRows e, lCols e, k) else none
      members := (upto d.threads).map (fun r => (r, th)), handle := BitVec.ofNat 64 cp, savePchs := pchs, since := nowOf s g, order := s.nextId }
    let s := { s with blocks := mput s.blocks b blk, nextBlk := b + 1, nextId := s.nextId + 1 }
    let s := modCore g (fun c => { c with
      scratch := c.scratch.filter (fun x => x.1 < o || o + d.scratch ≤ x.1), scratchErr := c.scratchErr.filter (fun x => x.1 * 8 < o || o + d.scratch ≤ x.1 * 8) }) s
    let s := chargePath region 1 (d.threads * kRegs l.kdesc * 4 : Nat) (acquire g 2 false s)
    some ((upto d.threads).foldl (fun s r => fileThread g b r s) s)
  | _, _, _ => none
/-- Dispatch the head block or neighbourhood on some cores; none where a pool has no place. -/
def dispatchHead (lid : Nat) (gs : List Nat) (s : State) : Option State :=
  match mfind s.launches lid with
  | none => none
  | some l =>
    let first := s.nextBlk
    let s' := ((upto gs.length).zip gs).foldl (fun (acc : Option State) (k, g) => acc.bind (fun s => dispatchOne l g (l.next + k) first k s)) (some s)
    s'.map (fun s =>
      let q := l.queue
      let s := if l.next == 0 then journal q l.index 2 0 (lTag l.entry) (BitVec.ofNat 64 (fieldOf (gs.headD 0))) s else s
      let s := modLaunch lid (fun l => { l with next := l.next + gs.length, live := l.live + gs.length }) s
      if l.next + gs.length < lBlocks l.entry then s
      else modQ q (fun k => { k with head := none, released := false }) (journal q l.index 3 0 (lTag l.entry) (BitVec.ofNat 64 (lBlocks l.entry)) s))

-- The end of launches (R41, R169, R200, R210) --------------------------------------------------------------------------------------------

/-- A launch ends: counter, DONEADDR, journal. `status` 0: COMPLETED. Its entries leave the yokes now, of a killed launch after the drain (conventions: DESIGN CHOICE,
assumption 112). -/
def endLaunch (lid status : Nat) (s : State) : State :=
  match mfind s.launches lid with
  | none => s
  | some l =>
    let q := l.queue
    let s := (upto 64).foldl (fun s f => flushRdc f s) ((mkeys s.cores).foldl (fun s g => flushL1 g s) s)
    let s := if bit l.entry 11 then decCounter (nbits l.entry 32 12) s else s
    let (ok, s) := writeDone (qRegion (getQ s q)) l.entry s
    let s := if status == 0 then journal q l.index 4 (if ok then 0 else 0x16) (lTag l.entry) (BitVec.ofNat 64 l.sum) s else journal q l.index 5 status (lTag l.entry) 0 s
    let s := modQ q (fun k => { k with
      launches := k.launches.filter (· != lid), head := if k.head == some lid then none else k.head, released := if k.head == some lid then false else k.released }) s
    pumpYokes (purgeYoke lid { s with launches := mdel s.launches lid, useLists := s.useLists.filter (fun u => !(u.queue == q && u.index == l.index)) })
/-- A launch ends when nothing of it is left to dispatch or to end (conventions: DEDUCED, assumption 81). -/
def maybeEnd (lid : Nat) (s : State) : State :=
  match mfind s.launches lid with
  | none => s
  | some l => if l.live == 0 && (l.stop || (l.checked && l.next == lBlocks l.entry)) then endLaunch lid (if l.killed then 0x17 else 0) s else s

-- Commands (R197, R202) ---------------------------------------------------------------------------------------------------------------------

/-- A bound queue whose next entry may be taken: ACTIVE, with nothing at the head and an entry in the ring. -/
def mayTake (q : Queue) : Bool := q.state == .active && q.head.isNone && q.signal.isNone && q.rd != q.wr
/-- The next entry of a ring. -/
def nextEntry (q : Nat) (s : State) : LRec × State :=
  let k := getQ s q
  let (bs, _, s) := homeGets (ringAt k k.rd.toNat) 64 s
  (ofBytes 512 bs, s)
/-- QRDIDX advances past the entry. -/
def takeEntryQ (q : Nat) (s : State) : State := modQ q (fun k => { k with rd := k.rd + 1 }) s
/-- A bad entry is journalled FAILED with REC_BAD. -/
def takeBad (q : Nat) (e : LRec) (s : State) : State :=
  let seq := (getQ s q).nextSeq
  let i := (getQ s q).rd.toNat
  sbEvent (1, q) (.queueFault q seq 0x15) (journal q i 5 0x15 (lTag e) 0 (takeEntryQ q s))
/-- Take the next entry of a queue if it is a command of a kind; a bad entry is taken by any. -/
def takeCmd (q kind : Nat) (act : Nat → LRec → State → State) (s : State) : State :=
  if q < 256 && mayTake (getQ s q) then
    let (e, s') := nextEntry q s
    if recBad (getQ s q) e then takeBad q e s'
    else if nbits e 0 8 == kind then act (getQ s q).rd.toNat e (takeEntryQ q s')
    else s
  else s
def execCmdNop (q : Nat) (s : State) : Host.Outcome State Fault Refusal := .next (takeCmd q 0 (fun i e s => journal q i 4 0 (lTag e) 0 s) s)
/-- A launch comes to the head of its queue. -/
def takeLaunch (q i : Nat) (e : LRec) (s : State) : State :=
  let id := s.nextId
  modQ q (fun k => { k with head := some id, released := false, launches := k.launches ++ [id] })
    { s with launches := mput s.launches id { id := id, queue := q, index := i, entry := e }, nextId := id + 1 }
def execCmdLaunch (q : Nat) (s : State) : Host.Outcome State Fault Refusal := .next (takeCmd q 1 (takeLaunch q) s)
def execCmdSignal (q : Nat) (s : State) : Host.Outcome State Fault Refusal :=
  .next (takeCmd q 2 (fun i e s => modQ q (fun k => { k with signal := some (i, e) }) s) s)
/-- SIGNAL_DONE: every earlier command has completed or failed. -/
def execSignalDone (q : Nat) (s : State) : Host.Outcome State Fault Refusal :=
  let k := getQ s q
  match k.signal with
  | none => .next s
  | some (i, e) =>
    if !k.launches.isEmpty then .next s
    else
      let s := (upto 64).foldl (fun s f => flushRdc f s) ((mkeys s.cores).foldl (fun s g => flushL1 g s) s)
      let (ok, s) := writeDone (qRegion k) e s
      .next (journal q i 4 (if ok then 0 else 0x16) (lTag e) 0 (modQ q (fun k => { k with signal := none }) s))
def execCmdDepset (q : Nat) (s : State) : Host.Outcome State Fault Refusal :=
  .next (takeCmd q 3 (fun i e s => journal q i 4 0 (lTag e) 0 { s with depctr := mput s.depctr (nbits e 16 12) (bits e 64 32) }) s)
/-- DOORBELL: a host write of QWRIDX (R194, R195). -/
def execDoorbell (q : Nat) (value : Word) (s : State) : Host.Outcome State Fault Refusal :=
  let k := getQ s q
  if 256 ≤ q || k.state == .unbound || qDevice k then .next s
  else if (value - k.rd).toNat ≤ 2 ^ qLog k then .next (modQ q (fun k => { k with wr := value }) s)
  else if k.state == .active || k.state == .stopped then
    .next (sbEvent (1, q) (.queueFault q k.nextSeq 0x14) (journal q 0 5 0x14 0 0 (modQ q (fun k => { k with state := .faulted }) s)))
  else .next s
/-- LAUNCH_RECORD_WRITE: the Terminus serves a launch record on its way (R196, R369) (conventions: DEDUCED, assumption 39). -/
def execLaunchRecordWrite (idx : Nat) (s : State) : Host.Outcome State Fault Refusal :=
  match s.inflight[idx]? with
  | none => .next s
  | some r =>
    if r.pchs.any (pchHeld s) then .next s else
    let k := getQ s r.queue
    let status :=
      if 256 ≤ r.queue || k.state == .unbound || !qDevice k then 3
      else if !below s r.region (qRegion k) then 4
      else if k.state != .active then 2
      else if (k.wr - k.rd).toNat == 2 ^ qLog k then 1
      else 0
    let s := { s with inflight := s.inflight.eraseIdx idx }
    let s := if status != 0 then s
      else journal r.queue k.wr.toNat 1 0 (lTag r.image) 0
        (modQ r.queue (fun k => { k with wr := k.wr + 1 }) (homePuts (ringAt k k.wr.toNat) (toBytes 64 r.image) s))
    let s := lateResult r.blk r.ranks r.d (BitVec.ofNat 32 status) r.out r.entry s
    .next (if status == 4 then r.ranks.foldl (fun s t => queueDeferred r.blk t cPriv 0 0 s) s else s)

-- The arbiter (R203-R207) -------------------------------------------------------------------------------------------------------------------------

/-- The check of a head launch (R200): its status, and its descriptor. -/
def launchCheck (l : Launch) (s : State) : Nat × BitVec 256 × State :=
  let region := qRegion (getQ s l.queue)
  let ka : DWord := bits l.entry 64 64
  match termXl region ka 0 s with
  | (none, s) => (0x12, 0, s)
  | (some pa, s) =>
    match termXl region (ka + 31) 0 s with
    | (none, s) => (0x12, 0, s)
    | (some _, s) =>
    match termXl region (bits l.entry 128 64) 0 s with
    | (none, s) => (0x12, 0, s)
    | (some _, s) =>
      if ka.toNat % 32 != 0 then (0x10, 0, s)
      else
        let (bs, _, s) := homeGets pa 32 s
        let kd : BitVec 256 := ofBytes 256 bs
        if kdescBad kd || gridBad l.entry then (0x10, kd, s)
        else if bit l.entry 8 then
          let (h, s) := launchHome region l.entry s
          (if bit l.entry 12 && h == fallow s then 0x11 else 0, kd, s)
        else (0, kd, s)
/-- Check the head launch of a queue, if it has not been. -/
def checkHead (q : Nat) (s : State) : State :=
  match (getQ s q).head.bind (fun id => mfind s.launches id) with
  | some l =>
    if l.checked || l.stop || (getQ s q).state != .active then s
    else match launchCheck l s with
      | (0, kd, s) => modLaunch l.id (fun l => { l with checked := true, kdesc := kd }) s
      | (st, _, s) => endLaunch l.id st s
  | none => s
/-- Latch the release of a waiting head (R260). -/
def latchHead (q : Nat) (s : State) : State :=
  match (getQ s q).head.bind (fun id => mfind s.launches id) with
  | some l => if !bit l.entry 10 || mget 0 s.depctr (nbits l.entry 16 12) = 0 then modQ q (fun k => { k with released := true }) s else s
  | none => s
def boundQueues (s : State) : List Nat := (s.queues.filter (fun e => e.2.state != .unbound)).map (·.1)
/-- Every waiting head whose counter reads zero is released, in every queue (R202). -/
def latchHeads (s : State) : State := (boundQueues s).foldl (fun s q => latchHead q s) s
/-- The head launch of a queue that is eligible for dispatch (R202). -/
def eligibleHead (s : State) (q : Nat) : Option Launch :=
  let k := getQ s q
  if k.state != .active || !k.released then none
  else match k.head.bind (fun id => mfind s.launches id) with
    | some l => if l.checked && !l.stop then some l else none
    | none => none
/-- The ranges of a launch's use list (R241). -/
def useRanges (s : State) (l : Launch) : List (Nat × Nat) :=
  ((s.useLists.find? (fun (u : UseList) => u.queue == l.queue && u.index == l.index)).map (·.ranges)).getD []
/-- The ranges of a launch's use list that must come back to device memory before it passes admission (R242). -/
def rangesDue (s : State) (l : Launch) : List (Nat × Nat) :=
  let region := qRegion (getQ s l.queue)
  (useRanges s l).filter (fun r =>
    !l.stay.contains r && (rangeIn s region r false || s.moves.any (fun m => m.lo == r.1 && regRoot s m.region == regRoot s region)))
/-- Where the head of a queue would be dispatched; none where it fails admission. The flag says that only core capacity fails it. -/
def admission (s : State) (l : Launch) : Option (List Nat) × Bool :=
  let region := qRegion (getQ s l.queue)
  let home := (launchHome region l.entry s).1
  let room := budgetRoom s region l
  if !(rangesDue s l).isEmpty then (none, false) else
  match findPlace s l (searchOrder s home (bit l.entry 8)) with
  | some (f, gs) => (if room && (pathOf s region).all (shareRoom s f) && (dispatchHead l.id gs s).isSome then some gs else none, false)
  | none => (none, room)
/-- Dispatch from a queue while its deficit and admission allow (R205). The visit goes on to a launch that follows in the ring, and ends at a command of another kind
(conventions: DESIGN CHOICE, assumption 113). -/
def visitLoop (q : Nat) : Nat → State → State
  | 0, s => s
  | fuel + 1, s =>
    if (getQ s q).deficit < 0 then s
    else match eligibleHead s q with
      | none => s
      | some l =>
        match (admission s l).1 with
        | none => s
        | some gs =>
          match dispatchHead l.id gs (launchHome (qRegion (getQ s q)) l.entry s).2 with
          | none => s
          | some s =>
            let s := modQ q (fun k => { k with deficit := k.deficit - 4096 * gs.length }) s
            let s := if (getQ s q).head.isNone then latchHeads (checkHead q (takeCmd q 1 (takeLaunch q) s)) else s
            visitLoop q fuel s
/-- One visit of a queue (R205). Its ring is empty when nothing stands at its head for dispatch and QRDIDX = QWRIDX: a launch that still dispatches is
there, a SIGNAL that waits is not (conventions: DESIGN CHOICE, assumption 96). -/
def visitQueue (q : Nat) (s : State) : State :=
  let k := getQ s q
  if k.head.isNone && k.rd = k.wr then modQ q (fun k => { k with deficit := 0 }) s
  else if (eligibleHead s q).isNone then s
  else
    let quantum : Int := nbits k.desc 185 8 * 65536
    let s := modQ q (fun k => { k with deficit := min (max k.deficit (-quantum) + quantum) (2 * quantum) }) s
    visitLoop q (nbits k.desc 185 8 * 32 + 2) s
/-- Victims in a field for a head of a level, in the order of R207 (conventions: DEDUCED, assumption 61). -/
def victimsIn (s : State) (f level : Nat) : List Nat :=
  let bs := (s.blocks.filter (fun e => fieldOf e.2.core == f && e.2.phase == .resident && level < regPriority s e.2.region)).map (·.2)
  (sortBy (fun (b : Block) => 31 - regPriority s b.region) (sortBy (fun (b : Block) => s.nextId - b.order) bs)).map (·.id)
/-- The state as if some blocks had left their cores. -/
def without (bs : List Nat) (s : State) : State := { s with blocks := s.blocks.map (fun e => if bs.contains e.1 then (e.1, { e.2 with phase := .saved }) else e) }
/-- The least number of victims, with their neighbours, that make room in a field beside the blocks that are leaving (conventions: DEDUCED, assumption 61). -/
def victimsFor (s : State) (l : Launch) (f : Nat) (going vs : List Nat) : Option (List Nat) :=
  (upto (vs.length + 1)).findSome? (fun n =>
    let go := (vs.take n).flatMap (fun b => unitOf s b)
    if (findPlace (without (going ++ go) s) l [f]).isSome then some go else none)
/-- Request pre-emption for a head that fails only for lack of core capacity (R207) (conventions: DEDUCED, assumption 61). -/
def preemptFor (l : Launch) (s : State) : State :=
  let region := qRegion (getQ s l.queue)
  let order := (searchOrder s (launchHome region l.entry s).1 (bit l.entry 8)).filter (fun f => (pathOf s region).all (shareRoom s f))
  let going := (s.blocks.filter (fun e => e.2.phase == .stopping)).map (·.1)
  if (findPlace (without going s) l order).isSome then s
  else match order.findSome? (fun f => victimsFor s l f going (victimsIn s f (regPriority s region))) with
    | some bs => bs.foldl (fun s b => stopBlock b s) s
    | none => s
/-- The Placement Table reads by which the homes of some heads are found (R21, R237, R298). -/
def readHomes (heads : List (Nat × Launch)) (s : State) : State := heads.foldl (fun s x => (launchHome (qRegion (getQ s x.1)) x.2.entry s).2) s
/-- QUEUE_VISIT: one decision of the arbiter (R203-R207). -/
def execQueueVisit (s : State) : Host.Outcome State Fault Refusal :=
  let qs := boundQueues s
  let s := latchHeads (qs.foldl (fun s q => checkHead q s) s)
  let heads := qs.filterMap (fun q => (eligibleHead s q).map (fun l => (q, l)))
  let s := heads.foldl (fun s x => (useRanges s x.2).foldl (fun s r => readLeaves (qRegion (getQ s x.1)) r.1 r.2 s) s) (readHomes heads s)
  let s := (sortBy (fun (x : Nat × Launch) => qLevel s (getQ s x.1)) (heads.filter (fun x => (admission s x.2).2))).foldl (fun s x => preemptFor x.2 s) s
  match leastBy (fun (x : Nat × Launch) => qLevel s (getQ s x.1)) (heads.filter (fun x => (admission s x.2).1.isSome)) with
  | none => .next s
  | some (q0, _) =>
    let lv := qLevel s (getQ s q0)
    let cyc := qs.filter (fun q => qLevel s (getQ s q) == lv)
    let p := mget 0 s.pointers lv
    let q := (cyc.find? (fun q => p ≤ q)).getD (cyc.headD 0)
    .next (visitQueue q { s with pointers := mput s.pointers lv (q + 1) })

-- Context saving (R36, R95, R96, R147) --------------------------------------------------------------------------------------------------------------

/-- Every clause of a stopping block has ended or is suspended, and its window is closed (R36). -/
def mayStop (s : State) (b : Nat) : Bool :=
  let k := getBlk s b
  let c := getCore s k.core
  k.phase == .stopping && k.holders.isEmpty && c.consists.all (fun e => e.2.blk != b || (match e.2.clause with | some cl => cl.suspended | none => true))
/-- Write every register of a block back to its backing area; a fault pins its quantum (R57, R65) (conventions: DEDUCED, assumption 35). -/
def saveRegs (b : Nat) (s : State) : State :=
  let k := getBlk s b
  (mkeys k.members).foldl (fun s r => (upto (k.allot / 8)).foldl (fun s q =>
    let t := getTh s b r
    if t.pinned.any (fun p => p.1 == q) || (quantumRegs t q).isEmpty then s else spillQuantum b r q false s) s) s
def anyPinned (k : Block) : Bool := k.members.any (fun m => !m.2.pinned.isEmpty)
/-- Deadlines as cycles left, while a block is not resident (R359, R367) (conventions: DEDUCED, assumption 28). -/
def toRemaining (now : Nat) (k : Block) : Block :=
  { k with
    grows := k.grows.map (fun q => { q with since := (now : Int) - q.since })
    members := k.members.map (fun m => (m.1, { m.2 with waits := m.2.waits.map (fun w => match w with | .sleep d => .sleep (d - now) | w => w) })) }
/-- Conventions: DEDUCED, assumption 28. -/
def fromRemaining (now : Nat) (k : Block) : Block :=
  { k with
    grows := k.grows.map (fun q => { q with since := (now : Int) - q.since })
    members := k.members.map (fun m => (m.1, { m.2 with waits := m.2.waits.map (fun w => match w with | .sleep d => .sleep (d + now) | w => w) })) }
/-- Saving waits (R95, R148): an access of the block is held, or a tile of it would go to a pseudo-channel that retrains. -/
def saveHeld (s : State) (k : Block) : Bool :=
  k.members.any (fun m => m.2.outs.any (fun o => accessHeld s m.2 o)) || (k.accs != 0 && k.savePchs.any (fun p => (getFld s p.1).retrain == some p.2))
/-- Poisoned words of a block's grant, numbered from it (R140). -/
def grantErrs (c : Core) (k : Block) : List (Nat × Bool) :=
  (c.scratchErr.filter (fun x => k.scratchStart ≤ x.1 * 8 && x.1 * 8 < k.scratchStart + k.scratchSize)).map (fun x => (x.1 - k.scratchStart / 8, x.2))
/-- A core's grant as a map from 0, or the grant put back. -/
def grantOf (c : Core) (k : Block) : SMap Byte :=
  (c.scratch.filter (fun x => k.scratchStart ≤ x.1 && x.1 < k.scratchStart + k.scratchSize)).map (fun x => (x.1 - k.scratchStart, x.2))
/-- The status of a `ctxsave` (R372). -/
def settleCtx (target status : Nat) (s : State) : State :=
  let ws := s.ctxWaits.filter (fun w => w.target == target)
  ws.foldl (fun s w => lateResult w.blk w.ranks w.d (BitVec.ofNat 32 status) w.out w.entry s) { s with ctxWaits := s.ctxWaits.filter (fun w => w.target != target) }
/-- A stopped block is saved and leaves its core; nothing where a part of its image cannot be written. -/
def saveBlock (blk : Nat) (s : State) : State :=
  let s := saveRegs blk s
  let k := getBlk s blk
  let g := k.core
  if anyPinned k then s
  else
    let c := getCore s g
    let n := k.savedConsists.length + (c.consists.filter (fun e => e.2.blk == blk)).length
    let (img, s) := imageOf k (grantOf c k) n (flushRdc (fieldOf g) (flushL1 g s))
    match termPuts k.region 1000 k.handle img s with
    | none => s
    | some s =>
      let c := getCore s g
      let now := nowOf s g
      let cs := (c.consists.filter (fun e => e.2.blk == blk)).map (fun e => { e.2 with eligible := none, yieldUntil := e.2.yieldUntil.map (fun t => t - now) })
      let sds := (c.sidings.filter (fun e => e.2.blk == blk)).map (·.2)
      let rdy := (c.ready.filter (fun e => e.1 == blk)).map (·.2)
      let s := modBlk blk (fun k => toRemaining now { k with
        resumeStatus := 0, savedScratch := grantOf c k, savedScratchErr := grantErrs c k, savedConsists := cs ++ k.savedConsists, savedSidings := sds, savedReady := rdy ++ k.savedReady
        savedSend := c.ysendQ.filter (fun w => w.blk == blk), savedRecv := c.yrecvQ.filter (fun w => w.blk == blk)
        members := k.members.map (fun m => (m.1, { m.2 with outs := m.2.outs.filter (fun o => outHeld s blk o.id) })) }) s
      let s := chargePath k.region (-1) 0 (departDeficit (getBlk s blk) (evictYard blk s))
      let s := modCore g (fun c => { c with
        scratch := c.scratch.filter (fun x => x.1 < k.scratchStart || k.scratchStart + k.scratchSize ≤ x.1)
        scratchErr := c.scratchErr.filter (fun x => x.1 * 8 < k.scratchStart || k.scratchStart + k.scratchSize ≤ x.1 * 8) }) s
      settleCtx blk 0 (fileReady g (getCore s g).ready.length (modBlk blk (fun k => { k with phase := .saved, saving := false }) s))
/-- CONTEXT_SAVE: a stopped block is saved. The save has begun when a part of it waits, so that the block's tiles no longer hold a power request (R148) (conventions: DEDUCED,
assumptions 35, 95; DESIGN CHOICE, assumption 36). -/
def execContextSave (blk : Nat) (s : State) : Host.Outcome State Fault Refusal :=
  if !mayStop s blk then .next s
  else
    let s := modBlk blk (fun k => { k with saving := true }) s
    if saveHeld s (getBlk s blk) then .next s
    else
      let t := saveBlock blk s
      .next (if (heldReach s t).isEmpty then t else s)

-- Resumption (R35, R37, R97) -----------------------------------------------------------------------------------------------------------------------------

/-- Restore one block on a core; what its threads' last clause boundary owed them is delivered (R38). The provisional residence is taken from the queue's deficit again (conventions: DESIGN CHOICE, assumption 96). -/
def restoreOne (b g o : Nat) (s : State) : State :=
  let k := getBlk s b
  let s := modBlk b (fun k => fromRemaining (nowOf s g) { k with
    phase := .resident, core := g, scratchStart := o, savedScratch := [], savedScratchErr := [], resumeStatus := 0, since := nowOf s g, coreHeld := false, savedSidings := [], savedReady := [], savedSend := [], savedRecv := []
    savedConsists := k.savedConsists.map (fun x => { x with yieldUntil := x.yieldUntil.map (fun t => t + nowOf s g) }) }) s
  let s := modCore g (fun c => { c with
    heldFor := if k.coreHeld then s.blocks.any (fun e => e.1 != b && e.2.coreHeld && e.2.core == g) else c.heldFor
    scratch := k.savedScratch.foldl (fun m x => mput m (o + x.1) x.2) (c.scratch.filter (fun x => x.1 < o || o + k.scratchSize ≤ x.1))
    scratchErr := c.scratchErr.filter (fun x => x.1 * 8 < o || o + k.scratchSize ≤ x.1 * 8) ++ k.savedScratchErr.map (fun x => (x.1 + o / 8, x.2))
    ysendQ := c.ysendQ ++ k.savedSend, yrecvQ := c.yrecvQ ++ k.savedRecv }) s
  let s := modQ k.queue (fun q => { q with deficit := q.deficit - 4096 }) (chargePath k.region 1 0 s)
  let s := acquire g 3 false s
  let rs := k.savedSidings.flatMap (fun sd => sd.ranks) ++ k.savedReady
  let s := (liveRanks k).foldl (fun s r =>
    match (getTh s b r).place with
    | .consist _ => s
    | .rankWait => if (getTh s b r).raised.isSome then takeRaised b r s else s
    | _ => deliver b r 0 s) s
  let s := rs.foldl (fun s r => if resident (getBlk s b) then fileThread g b r s else s) s
  pumpYoke g s
/-- The slot of a block in its neighbourhood. -/
def nbSlotOf (k : Block) : Nat := match k.nbhd with | some (_, _, _, o) => o | none => 0
/-- A block that is held for its core can have it: the field's upper tier is up, and not about to go down (R456). -/
def heldCoreOpen (s : State) (k : Block) : Bool :=
  let f := getFld s (fieldOf k.core)
  !f.gated && !f.gating && !f.testing && (coreRoom s k.core (demandOf k)).isSome
/-- The launch record of a block. -/
def entryOfBlk (s : State) (b : Block) : LRec := ((mfind s.launches b.launch).map (·.entry)).getD 0
/-- The Placement Table read by which the home of a saved unit is found, where it is not held for its cores (R37, R237, R298). -/
def readResume (bs : List Block) (s : State) : State :=
  match bs with
  | [] => s
  | b :: _ => if bs.any (fun k => k.coreHeld) then s else (launchHome b.region (entryOfBlk s b) s).2
/-- Cores for the blocks of a saved unit: those they are held for; else the first field of the search order of the launch, home-only or not, with the core of R22 or, of a
rectangle of R23, the core of each block's slot (R37) (conventions: DESIGN CHOICE, assumption 110). -/
def resumePlace (s : State) (bs : List Block) : Option (List Nat) :=
  match bs with
  | [] => none
  | b :: _ =>
    if bs.any (fun k => k.coreHeld) then (if bs.all (heldCoreOpen s) then some (bs.map (·.core)) else none)
    else
      let e := entryOfBlk s b
      let (h, w) := match b.nbhd with | some (_, h, w, _) => (h, w) | none => (1, 1)
      ((searchOrder s (launchHome b.region e s).1 false).findSome? (fun f => placeIn s f h w b.nbhd.isSome (demandOf b))).map (fun gs =>
        bs.map (fun k => gs.getD (nbSlotOf k) 0))
/-- A block with its neighbours, in the order of their slots (R23). -/
def unitBlocks (s : State) (b : Nat) : List Block :=
  sortBy nbSlotOf ((unitOf s b).map (getBlk s))
/-- Restore a block where its core has room. -/
def restoreOn (s : State) (x : Block × Nat) : State :=
  match coreRoom s x.2 (demandOf x.1) with
  | some o => restoreOne x.1.id x.2 o s
  | none => s
/-- Whether every block of a unit has a good image, each read in turn; a bad one is reported as CTX_BAD (R96). -/
def unitGood (bs : List Block) (s : State) : Bool × State :=
  bs.foldl (fun acc k =>
    let r := ctxGood k.id acc.2
    (acc.1 && r.1, if r.1 then r.2 else modBlk k.id (fun k => { k with resumeStatus := 2 }) r.2)) (true, s)
/-- RESUMPTION: a saved block, with its neighbourhood, that is not held and finds room on cores and in the CORES budgets, which its return charges (R37, R256). Neither a
BACKING budget, whose charge it has kept, nor a measured share makes it wait (conventions: DEDUCED, assumption 114). -/
def execResumption (blk : Nat) (s : State) : Host.Outcome State Fault Refusal :=
  let unit := unitBlocks s blk
  if (getBlk s blk).phase != .saved || !unit.all (fun k => k.phase == .saved && !k.held && !k.halted) || !coresRoom s (getBlk s blk).region unit.length then .next s
  else
    let (good, s) := unitGood unit s
    if !good then .next s
    else
    let s := readResume unit s
    match resumePlace s unit with
      | none => .next s
      | some gs =>
        .next ((unit.zip gs).foldl restoreOn s)

-- Retirement and kills (R40-R42) ----------------------------------------------------------------------------------------------------------------------------

/-- Nothing of the block is outstanding (R40) (conventions: DEDUCED, assumption 34). -/
def mayRetireBlk (s : State) (b : Nat) : Bool :=
  let k := getBlk s b
  resident k && (liveRanks k).isEmpty && !k.members.isEmpty && k.drill.table.isEmpty && !k.drill.reading && k.log.isEmpty && k.grows.isEmpty &&
  !s.copies.any (fun c => c.blk == b) && !s.fields.any (fun e => e.2.slices.any (fun x => x.2.queue.any (fun o => o.blk == b))) &&
  !s.inflight.any (fun r => r.blk == b) && !s.collWait.any (fun w => w.1.blk == b) &&
  !s.colls.any (fun c => c.members.any (fun m => m.pkg == pkgId s && m.blk == b && !m.done))
/-- A block that ends leaves the machine: its place on the core, its pools, its watches. -/
def removeBlk (b : Nat) (s : State) : State :=
  let s := poolFree b (evictYard b s)
  { s with
    blocks := mdel s.blocks b
    hostWatches := s.hostWatches.filter (fun w => w.blk != b)
    fields := s.fields.map (fun e => (e.1, { e.2 with watches := e.2.watches.filter (fun w => w.blk != b) })) }
/-- A block that was held for its core has gone: the core is held for another, or for none (R456). -/
def freeHeldFor (k : Block) (s : State) : State :=
  if k.coreHeld then modCore k.core (fun c => { c with heldFor := s.blocks.any (fun e => e.2.coreHeld && e.2.core == k.core) }) s else s
/-- BLOCK_RETIRE (R40, R41) (conventions: DEDUCED, assumption 35). -/
def execBlockRetire (blk : Nat) (s : State) : Host.Outcome State Fault Refusal :=
  if !mayRetireBlk s blk then .next s
  else
    let s := saveRegs blk s
    if anyPinned (getBlk s blk) then .next s
    else
      let s := departDeficit (getBlk s blk) s
      let k := getBlk s blk
      let s := freeHeldFor k (removeBlk blk (chargePath k.region (-1) (-(backingOf k : Int)) s))
      let s := settleCtx blk 1 s
      let s := modLaunch k.launch (fun l => { l with live := l.live - 1, sum := l.sum + k.residence }) s
      .next (maybeEnd k.launch (growWake (fileReady k.core (getCore s k.core).ready.length s)))
/-- The block whose work a fault record is about. -/
def srcBlk (s : State) : FSource → Option Nat
  | .consist b _ | .fetch b _ | .drillRead b | .drillCmd b _ | .spill b _ _ | .double b => some b
  | .copy op => (copyOf s op).map (·.blk)
  | .furrow f i op => (fwOf s f i op).map (·.blk)
  | .coll seq fld _ => ((collOf s seq).bind (fun k => memberOf k (pkgId s * 64 + fld))).map (·.blk)
  | .collDesc op => (s.collWait.find? (fun w => w.1.id == op)).map (fun w => w.1.blk)
/-- The engines stop for killed blocks and acknowledge (R42, R190, R277): their work goes, and their records need no answer (conventions: DEDUCED, assumption 53). -/
def dropWork (bs : List Nat) (s : State) : State :=
  let mine := fun (r : FRec) => match srcBlk s r.src with | some b => bs.contains b | none => false
  let s := { s with fields := s.fields.map (fun e => (e.1, { e.2 with
    faults := (modWhere mine (fun r => { r with open_ := false }) e.2.faults).filter (fun r => r.open_ || !r.taken)
    slices := e.2.slices.map (fun x => (x.1, { x.2 with
      queue := (x.2.queue.filter (fun o => !bs.contains o.blk || o.image.isSome)).map (fun o => if bs.contains o.blk then { o with discard := true } else o) })) })) }
  let s := collAbort bs s
  { s with copies := s.copies.filter (fun c => !bs.contains c.blk), inflight := s.inflight.filter (fun r => !bs.contains r.blk) }
/-- The migration engine still moves a range of a region whose contexts a kill ends (R42). -/
def killMoves (s : State) (kl : Kill) : Bool :=
  let rs := kl.blocks.map (fun b => (getBlk s b).region) ++ (match kl.queue with | some q => [qRegion (getQ s q)] | none => [])
  s.moves.any (fun m => rs.contains m.region)
/-- KILL_DRAINED: every engine has acknowledged a kill; the migration engine does once no move of the region is under way (conventions: DEDUCED, assumption 54). -/
def execKillDrained (idx : Nat) (s : State) : Host.Outcome State Fault Refusal :=
  match s.kills[idx]? with
  | none => .next s
  | some kl =>
    if killMoves s kl then .next s
    else
    let s := { s with kills := s.kills.eraseIdx idx }
    let s := kl.blocks.foldl (fun s b => flushL1 (getBlk s b).core s) s
    let qs := match kl.queue with | some q => [q] | none => (kl.blocks.map (fun b => (getBlk s b).queue)).eraseDups
    let ls := (kl.blocks.map (fun b => (getBlk s b).launch)).eraseDups
    let s := dropWork kl.blocks s
    let s := kl.blocks.foldl (fun s b =>
      let k := getBlk s b
      let s := settleCtx b 1 (freeHeldFor k (removeBlk b (chargePath k.region 0 (-(backingOf k : Int)) s)))
      modLaunch k.launch (fun l => { l with live := l.live - 1, sum := l.sum + k.residence }) s) s
    let s := qs.foldl (fun s q =>
      let s := if (getQ s q).state == .unbound then s else journal q 0 7 0 0 0 s
      if kl.queue == some q && !s.kills.any (fun x => x.queue == some q) then modQ q (fun k => { k with state := if k.state == .killing then .stopped else k.state }) s else s) s
    let ls := ls ++ (match kl.queue with | some q => (getQ s q).launches | none => [])
    .next (pumpYokes (growWake (ls.eraseDups.foldl (fun s l => maybeEnd l s) s)))

end Sys2Proof.Machine
end

