-- ==== Sys2Proof/Machine/Shake.lean ====
section
/-! DEFINITION. SHAKE256, the function of R305's measurement, and the verification of the XMSS signatures of R304, as FIPS 202 and RFC 8391 give them
(PRESUMED: the spec names them and does not define them; assumptions 89 and 97). -/
namespace Sys2Proof.Machine

-- SHAKE256 (R305) ---------------------------------------------------------------------------------------------------

/-- The lane in column `x` and row `y` of a state of 25. -/
def laneAt (a : List DWord) (x y : Nat) : DWord := a.getD (x % 5 + y % 5 * 5) 0
/-- Round-constant bits: a linear feedback shift register, one bit each step. -/
def lfsr : Nat → Nat
  | 0 => 1
  | n + 1 => let r := 2 * lfsr n; if r < 256 then r else r ^^^ 0x171
/-- The constant of round `n` has the register's bits at positions 2^j - 1. -/
def roundKey (n : Nat) : DWord := (upto 7).foldl (fun k j => if lfsr (7 * n + j) % 2 == 1 then k ^^^ (1 <<< (2 ^ j - 1)) else k) 0
/-- The walk over the 24 lanes other than (0, 0): step `t` leaves a lane of `a` for the next place, turned by (t + 1)(t + 2) / 2. -/
def walkLanes (a : List DWord) : Nat → Nat → Nat → Nat → List DWord → List DWord
  | 0, _, _, _, out => out
  | n + 1, t, x, y, out =>
    let y' := (2 * x + 3 * y) % 5
    walkLanes a n (t + 1) y y' (out.set (y + y' * 5) ((laneAt a x y).rotateLeft ((t + 1) * (t + 2) / 2 % 64)))
/-- One round. -/
def spongeRound (a : List DWord) (n : Nat) : List DWord :=
  let sum := fun (x : Nat) => laneAt a x 0 ^^^ laneAt a x 1 ^^^ laneAt a x 2 ^^^ laneAt a x 3 ^^^ laneAt a x 4
  let mixed := (upto 25).map (fun i => a.getD i 0 ^^^ sum (i % 5 + 4) ^^^ (sum (i % 5 + 1)).rotateLeft 1)
  let moved := walkLanes mixed 24 0 1 0 mixed
  (upto 25).map (fun i =>
    let v := moved.getD i 0 ^^^ (laneAt moved (i + 2) (i / 5) &&& ~~~(laneAt moved (i + 1) (i / 5)))
    if i == 0 then v ^^^ roundKey n else v)
/-- Absorb blocks of 17 lanes. -/
def absorb : Nat → List Byte → List DWord → List DWord
  | 0, _, a => a
  | fuel + 1, bs, a =>
    absorb fuel (bs.drop 136) ((upto 24).foldl spongeRound ((upto 25).map (fun i => a.getD i 0 ^^^ ofBytes 64 (((bs.take 136).drop (8 * i)).take 8))))
/-- SHAKE256 of bytes: `n` bytes of it, at most 136 (conventions: PRESUMED, assumption 89). -/
def shakeN (n : Nat) (m : List Byte) : List Byte :=
  let gap := 135 - m.length % 136
  let x := m ++ (if gap == 0 then [0x9F] else [0x1F] ++ List.replicate (gap - 1) 0 ++ [0x80])
  ((absorb (x.length / 136) x (List.replicate 25 0)).flatMap (toBytes 8)).take n
/-- SHAKE256 of bytes, 512 bits out. -/
def shake256 (m : List Byte) : List Byte := shakeN 64 m
/-- The measurement extended with an object (R305). -/
def extendMeas (meas : BitVec 512) (obj : List Byte) : BitVec 512 := ofBytes 512 (shake256 (toBytes 64 meas ++ shake256 obj))

-- XMSS-SHAKE256_20_256 (R304) -------------------------------------------------------------------------------------------

/-- A big-endian number of `n` bytes. -/
def beBytes (n v : Nat) : List Byte := (toBytes n (BitVec.ofNat (8 * n) v)).reverse
def beNat (bs : List Byte) : Nat := bs.foldl (fun n b => n * 256 + b.toNat) 0
def xorBytes (a b : List Byte) : List Byte := (a.zip b).map (fun x => x.1 ^^^ x.2)
/-- A keyed hash of 32 bytes: 0 chaining, 1 tree, 2 message, 3 pseudo-random. -/
def xHash (kind : Nat) (key m : List Byte) : List Byte := shakeN 32 (beBytes 32 kind ++ key ++ m)
/-- An address: its type (0 chains, 1 compression of a one-time key, 2 the tree), three words, and the key or mask it asks for. -/
def xAddr (kind a b c mask : Nat) : List Byte := beBytes 12 0 ++ beBytes 4 kind ++ beBytes 4 a ++ beBytes 4 b ++ beBytes 4 c ++ beBytes 4 mask
/-- Walk `n` links of chain `i` of one-time key `idx`, from link `j` on. -/
def xChain (seed : List Byte) (idx i : Nat) : Nat → Nat → List Byte → List Byte
  | 0, _, v => v
  | n + 1, j, v =>
    xChain seed idx i n (j + 1) (xHash 0 (xHash 3 seed (xAddr 0 idx i j 0)) (xorBytes v (xHash 3 seed (xAddr 0 idx i j 1))))
/-- The parent of two nodes. -/
def xPair (seed : List Byte) (kind a b c : Nat) (l r : List Byte) : List Byte :=
  xHash 1 (xHash 3 seed (xAddr kind a b c 0)) (xorBytes l (xHash 3 seed (xAddr kind a b c 1)) ++ xorBytes r (xHash 3 seed (xAddr kind a b c 2)))
/-- Nodes paired once; an odd one out goes up as it is. -/
def xLevel (seed : List Byte) (idx h : Nat) : Nat → List (List Byte) → List (List Byte)
  | i, l :: r :: rest => xPair seed 1 idx h i l r :: xLevel seed idx h (i + 1) rest
  | _, rest => rest
/-- A one-time public key compressed to a leaf. -/
def xLeaf (seed : List Byte) (idx : Nat) : Nat → Nat → List (List Byte) → List Byte
  | 0, _, ns => ns.headD []
  | fuel + 1, h, ns => if ns.length ≤ 1 then ns.headD [] else xLeaf seed idx fuel (h + 1) (xLevel seed idx h 0 ns)
/-- Base-16 digits of a digest and of its checksum. -/
def xDigits (m : List Byte) : List Nat :=
  let ds := m.flatMap (fun b => [b.toNat / 16, b.toNat % 16])
  let sum := ds.foldl (fun n d => n + (15 - d)) 0
  ds ++ [sum / 256 % 16, sum / 16 % 16, sum % 16]
/-- The tree from a leaf up its authentication path. -/
def xRoot (seed : List Byte) (idx : Nat) : Nat → List (List Byte) → List Byte → List Byte
  | _, [], node => node
  | k, a :: rest, node =>
    xRoot seed idx (k + 1) rest
      (if idx / 2 ^ k % 2 == 0 then xPair seed 2 0 k (idx / 2 ^ (k + 1)) node a else xPair seed 2 0 k (idx / 2 ^ (k + 1)) a node)
/-- `n` pieces of 32 bytes. -/
def pieces (n : Nat) (bs : List Byte) : List (List Byte) := (upto n).map (fun i => (bs.drop (32 * i)).take 32)
/-- A signature of 2 820 bytes verifies for a message under a public key: parameter set, root and seed (R304) (conventions: PRESUMED, assumption 97). -/
def xmssVerify (key sig msg : List Byte) : Bool :=
  let root := (key.drop 4).take 32
  let seed := (key.drop 36).take 32
  let idx := beNat (sig.take 4)
  let digest := xHash 2 ((sig.drop 4).take 32 ++ root ++ beBytes 32 idx) msg
  let ots := ((upto 67).zip ((pieces 67 (sig.drop 36)).zip (xDigits digest))).map (fun x => xChain seed idx x.1 (15 - x.2.2) x.2.2 x.2.1)
  key.length == 68 && sig.length == 2820 && beNat (key.take 4) == 0x12 && idx < 2 ^ 20 &&
  xRoot seed idx 0 (pieces 20 (sig.drop 2180)) (xLeaf seed idx 8 0 ots) == root
/-- The ROM accepts an object (R304): its key's digest is the one the ROM holds, and its signature of the object's digest verifies (conventions: DESIGN CHOICE,
assumption 105). -/
def accepted (o : Signed) : Bool := (ofBytes 512 (shake256 o.key) : BitVec 512) == Config.rootKeyDigest && xmssVerify o.key o.sig (shake256 o.bytes)

end Sys2Proof.Machine
end

