-- ==== Sys2Proof/Machine/Mailbox.lean ====
section
/-! DEFINITION. The signal box and the host mailbox (R211-R216, R230, R255): the event queue, outbound entries, inbound requests, and the binding of
queues. -/
namespace Sys2Proof.Machine

-- Region paths (R253-R255) ------------------------------------------------------------------------------------------

/-- Read the blocks of a path that the Terminus does not hold; false where a block is misplaced or there are more than 8 (conventions: DEDUCED, assumption 59). -/
def loadPath : Nat → Nat → State → Bool × State
  | 0, _, s => (false, s)
  | fuel + 1, a, s =>
    if a % 256 != 0 || !isDev a then (false, s)
    else
      let s := if (mfind s.rcbs a).isSome then s
        else let (bs, _, s) := homeGets a 256 s
          { s with rcbs := mput s.rcbs a (ofBytes 2048 bs) }
      let p := nbits (rcbOf s a) 0 52
      if p == 0 then (true, s) else loadPath fuel p s
/-- A region block by itself (R255): reserved fields, codes, AGE and shares (conventions: DEDUCED, assumption 59). -/
def rcbOk (r : BitVec 2048) : Bool :=
  nbits r 52 12 == 0 && nbits r 82 2 == 0 && nbits r 113 15 == 0 && nbits r 166 26 == 0 && nbits r 232 24 == 0 && nbits r 308 12 == 0 && nbits r 372 12 == 0 &&
  nbits r 552 24 == 0 && nbits r 680 1368 == 0 && nbits r 89 2 != 3 && nbits r 93 2 != 3 &&
  (!bit r 72 || (16 ≤ nbits r 100 13 && nbits r 100 13 ≤ 4096)) &&
  (!bit r 79 || (1 ≤ nbits r 144 11 && nbits r 144 11 ≤ 1024)) && (!bit r 80 || (1 ≤ nbits r 155 11 && nbits r 155 11 ≤ 1024))
/-- A loaded path is valid (R255) (conventions: DEDUCED, assumption 59). -/
def pathValid (s : State) (region : Nat) : Bool :=
  let path := regPath s 9 region
  path.length ≤ 8 && path.eraseDups.length == path.length &&
  path.all (fun a => a % 256 == 0 && isDev a && rcbOk (rcbOf s a)) &&
  [9, 10, 12, 13].all (fun k => path.any (fun a => bit (rcbOf s a) (64 + k))) &&
  path.all (fun a => !regSecure s a || (regPath s 9 a).all (fun p => regSecure s p))

-- Outbound entries (R213, R214) ----------------------------------------------------------------------------------------

def mbxLog (s : State) : Nat := nbits s.mbxOutCtl 0 4
/-- The signal box may write an entry. -/
def mbxOpen (s : State) : Bool := bit s.mbxOutCtl 16 && (s.mbxOutWr - s.mbxOutRd).toNat < 2 ^ mbxLog s
/-- An outbound entry. -/
def mbxEntry (seq : DWord) (kind status queue field : Nat) (body : BitVec 256) (handle tag : DWord) : BitVec 512 :=
  setBits (setBits (setBits (setBits (setBits (setBits (setBits (setBits (0 : BitVec 512) 0 64 seq.toNat) 64 8 kind) 72 8 status) 80 8 queue) 88 6 field)
    128 256 body.toNat) 384 64 handle.toNat) 448 64 tag.toNat
/-- Write an outbound entry: the entry with a system-scope release, the index, the vector. -/
def mbxWrite (e : BitVec 512) (s : State) : State :=
  let s := homePuts (nbits s.mbxOutBase 0 52 + s.mbxOutWr.toNat % 2 ^ mbxLog s * 64) (toBytes 64 e) s
  let s := { s with mbxOutWr := s.mbxOutWr + 1 }
  if bit s.mbxOutCtl 15 then msixRaise (nbits s.mbxOutCtl 4 11) s else s
/-- A fault record as its 32 bytes (R229). -/
def frecBits (r : FRec) : BitVec 256 :=
  let lo : BitVec 128 := setBits (setBits (setBits (setBits (setBits (setBits (setBits (setBits (setBits (setBits (setBits (0 : BitVec 128) 0 64 r.va.toNat)
    64 32 r.seq.toNat) 96 3 r.kind.toNat) 99 1 (b2n r.refault)) 100 4 r.access.toNat) 104 2 r.source.toNat) 106 1 (b2n r.secure)) 112 8 r.core.toNat)
    120 6 r.unit.toNat) 126 1 (b2n r.drill)) 127 1 (b2n r.double)
  let hi : BitVec 128 := setBits (setBits (setBits (setBits (setBits (0 : BitVec 128) 0 52 r.root) 52 3 r.level.toNat) 55 3 r.entry.toNat) 58 6 r.cause.toNat) 64 64 r.pa
  hi ++ lo

-- Requests (R215, R216) ---------------------------------------------------------------------------------------------------

def reqOp (w : BitVec 512) : Nat := nbits w 0 8
/-- The request's fields, and whether it misuses one. -/
def reqOf (w : BitVec 512) (host : Bool) : MbxReq :=
  let op := reqOp w
  let used : List (Nat × Nat) := [(0, 8), (8, 8), (448, 64)] ++ (match op with
    | 1 => [(64, 52), (128, 64)]
    | 6 => [(64, 52), (192, 32), (224, 5)]
    | 7 => [(192, 32)]
    | _ => [])
  let mask := used.foldl (fun (m : BitVec 512) f => setBits m f.1 f.2 (2 ^ f.2 - 1)) 0
  { queue := nbits w 8 8, address := nbits w 64 52, nextSeq := nbits w 128 64, index := nbits w 192 32, count := nbits w 224 5, tag := bits w 448 64
    host := host, misused := w &&& ~~~mask != 0 }
/-- The reply of a request. -/
def reply (seq : DWord) (r : MbxReq) (status : Nat) (s : State) : State :=
  let k := getQ s r.queue
  mbxWrite (mbxEntry seq 7 status r.queue 0
    (setBits (setBits (setBits (setBits (0 : BitVec 256) 0 32 k.rd.toNat) 32 32 k.wr.toNat) 64 64 k.nextSeq.toNat) 128 3 (qCode k.state)) 0 r.tag) s
/-- The host acts on a bound queue of a secure region (conventions: DEDUCED, assumption 58). -/
def reqDenied (r : MbxReq) (s : State) : Bool := let k := getQ s r.queue; r.host && k.state != .unbound && regSecure s (qRegion k)

/-- A queue descriptor by itself (R193). -/
def qdescOk (d : BitVec 256) : Bool :=
  4 ≤ nbits d 52 5 && nbits d 52 5 ≤ 16 && 6 ≤ nbits d 180 5 && nbits d 180 5 ≤ 20 && nbits d 185 8 != 0 && nbits d 59 5 == 0 && nbits d 116 12 == 0 && nbits d 204 52 == 0 &&
  nbits d 0 52 % (2 ^ nbits d 52 5 * 64) == 0 && nbits d 128 52 % (2 ^ nbits d 180 5 * 32) == 0
/-- Bind (R193, R208, R255): the status and what it leaves. Queues accept bindings once start-up is complete (R299) (conventions: DEDUCED, assumption 58). -/
def bindOp (r : MbxReq) (s : State) : Nat × State :=
  if r.misused then (1, s)
  else if (getQ s r.queue).state != .unbound || !bit s.bootStat 12 then (2, s)
  else if r.address % 32 != 0 || !isDev r.address then (3, s)
  else
    let (bs, _, s1) := homeGets r.address 32 s
    let d : BitVec 256 := ofBytes 256 bs
    if !qdescOk d then (3, s)
    else
      let (ok, s2) := loadPath 8 (nbits d 64 52) s1
      if !ok || !pathValid s2 (nbits d 64 52) then (3, s)
      else if r.host && regSecure s2 (nbits d 64 52) then (6, s)
      else (0, modQ r.queue (fun _ => { state := .active, desc := d, nextSeq := if r.nextSeq == 0 then 1 else BitVec.ofNat 64 r.nextSeq }) s2)
def stopOp (r : MbxReq) (s : State) : Nat × State :=
  if r.misused then (1, s)
  else if reqDenied r s then (6, s)
  else if (getQ s r.queue).state == .active then (0, stopQueue r.queue s) else (2, s)
def resumeOp (r : MbxReq) (s : State) : Nat × State :=
  let k := getQ s r.queue
  if r.misused then (1, s)
  else if reqDenied r s then (6, s)
  else if (k.state == .stopped || k.state == .faulted) && pathValid s (qRegion k) then (0, journal r.queue 0 9 0 0 0 (modQ r.queue (fun k => { k with state := .active }) s))
  else (2, s)
/-- Conventions: DEDUCED, assumption 58. -/
def killOp (r : MbxReq) (s : State) : Nat × State :=
  if r.misused then (1, s)
  else if reqDenied r s then (6, s)
  else if (getQ s r.queue).state != .unbound then (0, killQueue r.queue s) else (2, s)
/-- Unbind: refused while a block of the queue is resident or saved. A launch or SIGNAL that the queue had taken goes with the slot, with no journal entry, decrement or
DONEADDR write (conventions: DESIGN CHOICE, assumption 124). -/
def unbindOp (r : MbxReq) (s : State) : Nat × State :=
  let k := getQ s r.queue
  if r.misused then (1, s)
  else if reqDenied r s then (6, s)
  else if (k.state == .stopped || k.state == .faulted) && (blocksOfQueue s r.queue).all (fun b => (getBlk s b).phase == .killed) then
    let s := k.launches.foldl (fun s l => purgeYoke l { s with launches := mdel s.launches l }) s
    (0, modQ r.queue (fun k => { k with state := .unbound, launches := [], head := none, signal := none, released := false, deficit := 0 })
      (pumpYokes { s with useLists := s.useLists.filter (fun u => u.queue != r.queue) }))
  else (2, s)
/-- A ring index names a command of a bound queue that has not completed. -/
def cmdPending (s : State) (q idx : Nat) : Bool :=
  let k := getQ s q
  k.state != .unbound && (decide ((BitVec.ofNat 32 idx - k.rd).toNat < (k.wr - k.rd).toNat) || (match k.signal with | some (i, _) => i == idx | none => false) ||
    k.launches.any (fun l => match mfind s.launches l with | some x => x.index == idx | none => false))
def uselistOp (r : MbxReq) (s : State) : Nat × State :=
  if r.misused then (1, s)
  else if reqDenied r s then (6, s)
  else if r.count == 0 || 16 < r.count || !(upto (r.count * 16)).all (fun i => backed s (r.address + i)) then (4, s)
  else
    let (bs, bad, s1) := homeGets r.address (r.count * 16) s
    let es : List (BitVec 128) := (upto r.count).map (fun i => ofBytes 128 ((bs.drop (16 * i)).take 16))
    if bad || es.any (fun e => nbits e 104 24 != 0 || nbits e 64 40 == 0) then (4, s)
    else if !cmdPending s r.queue r.index then (5, s)
    else
      let ranges := es.map (fun e => let lo := nbits e 0 64 / 65536 * 65536; (lo, roundUp (nbits e 0 64 + nbits e 64 40) 65536 - lo))
      (0, { s1 with
        hostRanges := (s1.hostRanges ++ ranges.map (fun x => (regRoot s1 (qRegion (getQ s1 r.queue)), x))).eraseDups
        useLists := s1.useLists.filter (fun u => !(u.queue == r.queue && u.index == r.index)) ++ [{ queue := r.queue, index := r.index, ranges := ranges }] })
/-- Conventions: DEDUCED, assumption 58. -/
def useclearOp (r : MbxReq) (s : State) : Nat × State :=
  if r.misused then (1, s)
  else if reqDenied r s then (6, s)
  else if s.useLists.any (fun u => u.queue == r.queue && u.index == r.index) then
    (0, { s with useLists := s.useLists.filter (fun u => !(u.queue == r.queue && u.index == r.index)) })
  else (4, s)
/-- Carry out a request and reply. -/
def serveReq (seq : DWord) (w : BitVec 512) (host : Bool) (s : State) : State :=
  let r := reqOf w host
  let (st, s) := match reqOp w with
    | 1 => bindOp r s
    | 2 => stopOp r s
    | 3 => resumeOp r s
    | 4 => killOp r s
    | 5 => unbindOp r s
    | 6 => uselistOp r s
    | 7 => useclearOp r s
    | _ => (1, s)
  reply seq r st s

-- The event queue (R211, R212, R230) ------------------------------------------------------------------------------------------

def dropEvent (seq : DWord) (s : State) : State := { s with events := s.events.filter (fun e => e.seq != seq) }
/-- The page of an address, under a root, is being moved by the Terminus (R230, R240). -/
def movingPage (s : State) (root va : Nat) : Bool := s.moves.any (fun m => m.leaves.any (fun l => l.root == root && l.va / 2 ^ l.log2 == va / 2 ^ l.log2))
/-- The region of a record's block forwards its records (R230): as the block's path says now, or as it said when a block that has gone sent it. -/
def recHost (s : State) (r : FRec) : Bool :=
  match (srcBlk s r.src).bind (mfind s.blocks) with
  | some k => regFaultHost s k.region
  | none => r.host
/-- A fault record at the signal box (R230, R408): forwarded, denied, or both; none while the ring takes no entry, or while the record's page is being moved. -/
def serveFault (seq : DWord) (f : Nat) (n : Word) (s : State) : Option State :=
  match (getFld s f).faults.find? (fun r => r.seq == n) with
  | none => some s
  | some r =>
    let host := recHost s r
    let deny := !host || [kCanon, kBadPa, kWorld].contains r.kind.toNat || r.aliased
    if host && !mbxOpen s || !host && r.open_ && (r.kind == 0 || r.kind == 7) && movingPage s r.root r.va.toNat then none
    else
      let s := if host then mbxWrite (mbxEntry seq 1 0 0 f (frecBits r) r.handle 0) s else s
      let s := modFld f (fun k => { k with faults := (modWhere (fun x => x.seq == n) (fun x => { x with taken := true }) k.faults).filter (fun x => x.open_ || !x.taken) }) s
      if r.open_ && deny then some (answer f n denySource s) else some s
/-- A signal-box core handles an event; none while it must keep it (conventions: DEDUCED, assumption 56). -/
def serve (e : SbEvent) (s : State) : Option State :=
  match e.what with
  | .fault f n => serveFault e.seq f n s
  | .note => some s
  | .queueFault q j st =>
    if !mbxOpen s then none else some (mbxWrite (mbxEntry e.seq 2 0 q 0 (setBits (setBits (0 : BitVec 256) 0 64 j.toNat) 64 8 st.toNat) 0 0) s)
  | .region a why h =>
    if !mbxOpen s then none else some (mbxWrite (mbxEntry e.seq 3 0 0 0 (setBits (setBits (0 : BitVec 256) 0 52 a) 56 4 why) h 0) s)
  | .link id st =>
    if !mbxOpen s then none else some (mbxWrite (mbxEntry e.seq 4 0 0 0 (setBits (setBits (0 : BitVec 256) 0 8 id) 8 2 st) 0 0) s)
  | .governor f sense st trip =>
    if !mbxOpen s then none
    else some (mbxWrite (mbxEntry e.seq 5 0 0 f (setBits (setBits (setBits (0 : BitVec 256) 0 64 sense.toNat) 64 3 st) 67 1 (b2n trip)) 0 0) s)
  | .power f p st start =>
    if !mbxOpen s then none
    else some (mbxWrite (mbxEntry e.seq 6 0 0 f (setBits (setBits (setBits (0 : BitVec 256) 0 5 p) 5 2 st) 7 1 (b2n start)) 0 0) s)
  | .request w host => if !mbxOpen s then none else some (serveReq e.seq w host s)
/-- The event a signal-box core works on: the one it holds, else the lowest-numbered one of the queue's 4 096 whose lock key no
core holds (R211, R212); those that found the queue full wait behind it in the order they were raised (conventions: DEDUCED, assumption 57). -/
def sbPick (s : State) (sb : Nat) : Option SbEvent :=
  match s.events.find? (fun e => e.held == some sb) with
  | some e => some e
  | none => (s.events.take 4096).find? (fun e => e.held.isNone && !s.events.any (fun x => x.held.isSome && x.key == e.key))
/-- Hand an event to a core; a mailbox request is then taken (R213). -/
def sbHand (sb : Nat) (e : SbEvent) (s : State) : State :=
  { s with
    events := modWhere (fun x => x.seq == e.seq) (fun x => { x with held := some sb }) s.events
    mbxBusy := match e.what with | .request _ _ => if e.held.isNone then false else s.mbxBusy | _ => s.mbxBusy }
/-- SIGNAL_BOX_EVENT: one of the twelve cores takes or retries an event, once start-up has started the firmware (R212, R299). -/
def execSignalBoxEvent (sb : Nat) (s : State) : Host.Outcome State Fault Refusal :=
  if 12 ≤ sb || !s.fwUp then .next s
  else match sbPick s sb with
    | none => .next s
    | some e =>
      let s := sbHand sb e s
      match serve e s with
      | some s => .next (dropEvent e.seq s)
      | none => .next s
/-- The lowest-numbered signal-box core that holds no event (R212). -/
def sbFree (s : State) : Option Nat := (upto 12).find? (fun sb => s.events.all (fun e => e.held != some sb))
/-- The request that a signal-box core holds, or that the next hand-out gives to a free one, when it is this one (R212) (conventions: DEDUCED, assumption 57). -/
def reqNext (op : Nat) (r : MbxReq) (s : State) : Option (Nat × SbEvent) :=
  let mine := fun (e : SbEvent) => match e.what with
    | .request w host => reqOp w == op && reqOf w host == r
    | _ => false
  match s.events.find? (fun e => e.held.isSome && mine e) with
  | some e => some (e.held.getD 0, e)
  | none =>
    match sbFree s with
    | none => none
    | some sb => match sbPick s sb with | some e => if mine e then some (sb, e) else none | none => none
/-- A signal-box core takes the next request and carries it out; it waits while the ring takes no reply. -/
def takeReq (op : Nat) (r : MbxReq) (act : MbxReq → State → Nat × State) (s : State) : State :=
  match reqNext op r s with
  | none => s
  | some (sb, e) =>
    if !s.fwUp || !mbxOpen s then s
    else
      let s := sbHand sb e s
      let (st, s) := act r s
      dropEvent e.seq (reply e.seq r st s)
def execBind (r : MbxReq) (s : State) : Host.Outcome State Fault Refusal := .next (takeReq 1 r bindOp s)
def execStop (r : MbxReq) (s : State) : Host.Outcome State Fault Refusal := .next (takeReq 2 r stopOp s)
def execResume (r : MbxReq) (s : State) : Host.Outcome State Fault Refusal := .next (takeReq 3 r resumeOp s)
def execKill (r : MbxReq) (s : State) : Host.Outcome State Fault Refusal := .next (takeReq 4 r killOp s)
def execUnbind (r : MbxReq) (s : State) : Host.Outcome State Fault Refusal := .next (takeReq 5 r unbindOp s)
def execUselist (r : MbxReq) (s : State) : Host.Outcome State Fault Refusal := .next (takeReq 6 r uselistOp s)
def execUseclear (r : MbxReq) (s : State) : Host.Outcome State Fault Refusal := .next (takeReq 7 r useclearOp s)

-- The mailbox's registers (R213) -------------------------------------------------------------------------------------------------

/-- Submit the request; the host only where the security engine grants it the mailbox block (R213). -/
def mbxGo (host : Bool) (s : State) : State :=
  if host && !s.grants.contains 8 then s
  else if s.mbxBusy then { s with mbxLost := true } else sbEvent (4, 0) (.request s.mbxIn host) { s with mbxBusy := true }
/-- A write of MBXOUTCTL. A refused ENABLE = 1 leaves ENABLE 0 and sets ERROR; the other fields are written (conventions: DESIGN CHOICE, assumption 115). -/
def mbxCtl (v : DWord) (s : State) : State :=
  let k := v &&& 0x1FFFF
  let n := nbits v 0 4
  let a := nbits s.mbxOutBase 0 52
  { s with mbxOutCtl :=
      if !bit v 16 then k ||| (s.mbxOutCtl &&& 0x20000)
      else if 4 ≤ n && n ≤ 12 && a % (2 ^ n * 64) == 0 && backed s a then k
      else (v &&& 0xFFFF) ||| 0x20000 }
/-- A write of MBXOUTRD. -/
def mbxRd (v : DWord) (s : State) : State :=
  let x : Word := v.setWidth 32
  if (s.mbxOutWr - x).toNat ≤ 2 ^ mbxLog s then { s with mbxOutRd := x } else s
def execMbxindbGo (host : Bool) (s : State) : Host.Outcome State Fault Refusal := .next (mbxGo host s)
def execMbxoutctlWrite (v : DWord) (s : State) : Host.Outcome State Fault Refusal := .next (mbxCtl v s)
def execMbxoutrdWrite (v : DWord) (s : State) : Host.Outcome State Fault Refusal := .next (mbxRd v s)

end Sys2Proof.Machine
end

