-- ==== Sys2Proof/Machine/Mmio.lean ====
section
/-! DEFINITION. Writes to the Terminus control space (R6, R143, R213, R231, R236, R238, R249-R252, R257, R258, R262-R264, R283-R287, R298, R302, R307):
one operation per register that acts, the events that name it, and the write of any register by its offset. -/
namespace Sys2Proof.Machine

-- Region blocks and the Placement Table cache (R238, R257) ----------------------------------------------------------------

/-- Stop a queue whose region path has become invalid at a reread (R208, R255). -/
def badPath (q : Nat) (s : State) : State :=
  if (getQ s q).state == .active then journal q 0 5 0x13 0 0 (modQ q (fun k => { k with state := .stopped }) s) else s
/-- Put back or take away every charge of the blocks of some regions, at their paths as they now are. -/
def rechargeAll (sign : Int) (bs : List Nat) (s : State) : State :=
  bs.foldl (fun s b => let k := getBlk s b
    chargePath k.region (if resident k then sign else 0) (sign * (backingOf k : Int)) s) s
/-- The units of a subtree that are pre-empted so that its CORES charge fits: most recently dispatched first. -/
def overBudget (s : State) (a : Nat) : List Nat :=
  let r := rcbOf s a
  let mine := (s.blocks.filter (fun e => resident e.2 && below s a e.2.region)).map (·.2)
  let going := (mine.filter (fun b => b.phase == .stopping)).length
  let have_ := (mget (0, 0) s.charges a).1 - going
  if !bit r 78 || have_ ≤ nbits r 128 16 then []
  else
    let order := (sortBy (fun (b : Block) => s.nextId - b.order) (mine.filter (fun b => b.phase == .resident))).map (·.id)
    (order.foldl (fun (acc : List Nat × Nat) b =>
      if acc.2 ≤ nbits r 128 16 || acc.1.contains b then acc
      else let u := unitOf s b; (acc.1 ++ u, acc.2 - u.length)) ([], have_)).1
/-- The measured-share limits of a node are lowered: the highest ones of a field's window in progress stay in force until it ends (R257). -/
def keepShares (a : Nat) (old new : Nat × Nat) (s : State) : State :=
  if old.1 ≤ new.1 && old.2 ≤ new.2 then s
  else (upto 64).foldl (fun s f => modFld f (fun k =>
    let kept := ((k.oldShares.find? (fun x => x.1 == a)).map (·.2)).getD old
    let was := (max kept.1 old.1, max kept.2 old.2)
    { k with oldShares := (a, was) :: k.oldShares.filter (fun x => x.1 != a) }) s) s
/-- RCBSYNC: the Terminus rereads a region block it holds and revalidates every path through it. -/
def rcbSync (a : Nat) (s : State) : State :=
  if (mfind s.rcbs a).isNone then s
  else
    let old := rcbOf s a
    let mine := (s.blocks.filter (fun e => below s a e.2.region)).map (·.1)
    let qs := (boundQueues s).filter (fun q => below s a (qRegion (getQ s q)))
    let (bs, _, s) := homeGets a 256 s
    let new : BitVec 2048 := ofBytes 2048 bs
    let moved := nbits old 0 52 != nbits new 0 52
    let s := if moved then rechargeAll (-1) mine s else s
    let s := keepShares a (shareLimits old) (shareLimits new) { s with rcbs := mput s.rcbs a new }
    let s := if moved && nbits new 0 52 != 0 then (loadPath 7 (nbits new 0 52) s).2 else s
    let s := if moved then rechargeAll 1 mine s else s
    let bad := qs.filter (fun q => !pathValid s (qRegion (getQ s q)))
    let s := if bad.isEmpty then s else sbEvent (2, a) (.region a 3 0) s
    let s := bad.foldl (fun s q => badPath q s) s
    let s := if nbits old 78 4 != nbits new 78 4 || nbits old 128 104 != nbits new 128 104 then sbEvent (2, a) .note s else s
    growWake ((overBudget s a).foldl (fun s b => stopBlock b s) s)
def execRcbsync (addr : Nat) (s : State) : Host.Outcome State Fault Refusal := .next (rcbSync addr s)
/-- PLINV: drop one acre's cached entries, or all of them for 0. -/
def plInv (v : DWord) (s : State) : State :=
  { s with placeCache := if v = 0 then [] else s.placeCache.filter (fun e => e.2.1 != nbits v 21 36) }
def execPlinv (addr : DWord) (s : State) : Host.Outcome State Fault Refusal := .next (plInv addr s)
def depctrSet (n : Nat) (v : Word) (s : State) : State := if n < 4096 then { s with depctr := mput s.depctr n v } else s
def execDepctrWrite (n : Nat) (v : Word) (s : State) : Host.Outcome State Fault Refusal := .next (depctrSet n v s)

-- Translation block (R231, R236) ------------------------------------------------------------------------------------------------

/-- A write of FQCMD. -/
def fqCmd (v : DWord) (s : State) : State :=
  let f := nbits v 32 6
  match nbits v 38 2 with
  | 1 => answer f (bits v 0 32) (replaySource f) s
  | 2 => answer f (bits v 0 32) denySource s
  | _ => evAdd f 0x70 1 s
/-- A write of TRINVCMD. -/
def trInv (form : Nat) (s : State) : State := if form < 3 then startInval form s.trinvVa.toNat s.trinvRoot.toNat none [] 0 0 s else s
def execTrinvVa (s : State) : Host.Outcome State Fault Refusal := .next (trInv 0 s)
def execTrinvRoot (s : State) : Host.Outcome State Fault Refusal := .next (trInv 1 s)
def execTrinvAll (s : State) : Host.Outcome State Fault Refusal := .next (trInv 2 s)

-- Fill-transform windows (R143, R249-R252) ------------------------------------------------------------------------------------------

/-- Write back and drop every alias line of a window from the LLC. -/
def dropWindow (f w : Nat) (s : State) : State :=
  (mkeys s.aliasLines).foldl (fun s ln => match target (ln * 128) with
    | .viewOf a b _ => if a == f && b == w then aliasDrop ln s else s
    | _ => s) s
def modWin (f w : Nat) (h : Window → Window) (s : State) : State :=
  modFld f (fun k => { k with windows := mput k.windows w (h (mget {} k.windows w)) }) s
/-- A window may be enabled with a format (R250). -/
def winOk (s : State) (f : Nat) (k : Window) (fmt : Nat) : Bool :=
  let l := nbits k.len 0 24 * 4096
  let e := nbits k.enc 0 36
  let sb := nbits k.scale 0 36
  let el := if fmt == 2 then l / 4 else l / 2
  let sl := if fmt == 2 then l / 32 else 0
  let grans := fun (b n : Nat) => if n == 0 then [] else (upto ((b + n - 1) / 2 ^ 21 - b / 2 ^ 21 + 1)).map (fun i => b / 2 ^ 21 + i)
  let ws := (grans e el ++ grans sb sl).map (fun g => granSecure s (devPA f (g * 2 ^ 21)))
  fmt != 3 && l != 0 && e + el ≤ 2 ^ 36 && sb + sl ≤ 2 ^ 36 && (ws.all id || ws.all (fun x => !x))
/-- A write of FTWCTL. A refused one leaves ENABLE 0, sets ERROR and writes FORMAT (conventions: DESIGN CHOICE, assumption 116). -/
def ftwCtl (f w : Nat) (v : DWord) (s : State) : State :=
  if 64 ≤ f || 16 ≤ w then s
  else
    let s := dropWindow f w s
    let k := getWin s f w
    let ctl : DWord :=
      if !bit v 0 then (v &&& 7) ||| (k.ctl &&& 8)
      else if winOk s f k (nbits v 1 2) then v &&& 7
      else (v &&& 6) ||| 8
    modWin f w (fun k => { k with ctl := ctl }) s
/-- A write of FTWENC (1), FTWLEN (2) or FTWSCALE (3): ignored while the window is enabled. Bits [11:0] of FTWSCALE.BASE are cleared, as those of FTWENC.BASE are (R249)
(conventions: DESIGN CHOICE, assumption 126). -/
def ftwReg (f w reg : Nat) (v : DWord) (s : State) : State :=
  if 64 ≤ f || 16 ≤ w then s
  else
    let s := dropWindow f w s
    if bit (getWin s f w).ctl 0 then s
    else modWin f w (fun k => match reg with
      | 1 => { k with enc := v &&& 0xFFFFFF000 }
      | 2 => { k with len := v &&& 0xFFFFFF }
      | 3 => { k with scale := v &&& 0xFFFFFF000 }
      | _ => k) s
def execFtwctlWrite (field w : Nat) (v : DWord) (s : State) : Host.Outcome State Fault Refusal := .next (ftwCtl field w v s)
def execFtwRegisterWrite (field w reg : Nat) (v : DWord) (s : State) : Host.Outcome State Fault Refusal := .next (ftwReg field w reg v s)

-- Links (R262-R264, R285, R286) -------------------------------------------------------------------------------------------------------

/-- A link that can leave DOWN: it exists, and a Quifin link's far end is named (R262) (conventions: DEDUCED, assumption 71). -/
def linkNamed (s : State) (id : Nat) : Bool := id < 152 && (linkKind id != 2 || (quifinFar s id).isSome)
/-- A link goes DOWN: the transition is counted (conventions: DEDUCED, assumption 71). -/
def linkDown (id : Nat) (s : State) : State :=
  modLink id (fun l => { l with state := 0, downs := if l.downs = 0xFFFF then l.downs else l.downs + 1 }) s
/-- A link has left UP: the event, and the collectives that use it pause (R264, R275). -/
def linkLost (id newState : Nat) (s : State) : State := pauseColls id (sbEvent (3, 0) (.link id newState) s)
/-- A write of 1 to DISABLE: of an ID that names no link it is stored and does nothing else (R262) (conventions: DESIGN CHOICE, assumption 136). -/
def linkDis (id : Nat) (s : State) : State :=
  if 256 ≤ id || (getLink s id).disable then s
  else
    let was := (getLink s id).state
    let s := modLink id (fun l => { l with disable := true, state := if linkNamed s id then 3 else l.state }) s
    if was == 1 then linkLost id 3 s else s
def linkEna (id : Nat) (s : State) : State :=
  if 256 ≤ id || !(getLink s id).disable then s
  else
    let was := (getLink s id).state
    let s := modLink id (fun l => { l with disable := false }) s
    if was == 3 then linkDown id s else s
def execLinkDisable (id : Nat) (s : State) : Host.Outcome State Fault Refusal := .next (linkDis id s)
def execLinkEnable (id : Nat) (s : State) : Host.Outcome State Fault Refusal := .next (linkEna id s)
/-- A write of LINKINJ (R286); a refused arming leaves ARM 0 and takes the other fields (conventions: DESIGN CHOICE, assumption 135). -/
def linkInj (id : Nat) (v : DWord) (s : State) : State :=
  if 256 ≤ id then s
  else
    let v := v &&& 0xFFFF07FF
    let n := nbits (getLink s id).injN 0 32
    if !bit v 0 then modLink id (fun l => { l with inj := v }) s
    else if nbits v 2 2 == 3 || n == 0 || linkLanes id ≤ nbits v 5 6 then modLink id (fun l => { l with inj := v &&& ~~~1 }) s
    else modLink id (fun l => { l with inj := v, injC := 0, injF := 0 }) s
def execLinkinjArm (id : Nat) (v : DWord) (s : State) : Host.Outcome State Fault Refusal := .next (linkInj id (v ||| 1) s)
/-- INJECTOR_FIRE: a data flit passes a live link on the injector's lane in its direction. An armed injector counts it, and where COUNT reaches N it fires and
disarms, or, with REPEAT, clears COUNT (R286); with an N of 0, written while it was armed, it counts nothing. A torus port counts the flit for its field (R287) (conventions:
DESIGN CHOICE, assumptions 72, 130). -/
def execInjectorFire (id : Nat) (s : State) : Host.Outcome State Fault Refusal :=
  let l := getLink s id
  let n := nbits l.injN 0 32
  if 152 ≤ id || l.state != 1 then .next s
  else
    let s := if id < 128 then perfAdd (if bit l.inj 4 then (linkEnds id).2 else (linkEnds id).1) 0x13 none none 1 s else s
    let count := nbits l.injC 0 32 + 1
    .next (if !bit l.inj 0 || n == 0 then s
      else if count < n then modLink id (fun l => { l with injC := setBits l.injC 0 32 count }) s
      else modLink id (fun l => { l with
        injF := if l.injF == 0xFFFFFFFF then l.injF else l.injF + 1
        injC := BitVec.ofNat 64 ((if bit l.inj 1 then 0 else count) + 2 ^ 32)
        inj := if bit l.inj 1 then l.inj else l.inj &&& ~~~1 }) s)

-- Pseudo-channel power (R298) -----------------------------------------------------------------------------------------------------------

/-- A live tile has a byte of its save area on a pseudo-channel; those of a block whose save has begun no longer count (R148). -/
def tileOn (s : State) (f p : Nat) : Bool := s.blocks.any (fun e => e.2.phase != .saved && !e.2.saving && e.2.accs != 0 && e.2.savePchs.contains (f, p))
/-- The pseudo-channel enters the requested state, and accesses that were held are served (conventions: DEDUCED, assumption 73). -/
def pchEnter (f : Nat) (s : State) : State :=
  serveHeld (modFld f (fun k => { k with pcpwrReq := 0, pchState := mput k.pchState (nbits k.pcpwr 0 5) (nbits k.pcpwr 5 2) }) s)
/-- The request goes on past any retraining: it is held, or done (conventions: DEDUCED, assumption 73). -/
def pchProceed (f : Nat) (s : State) : State :=
  let k := getFld s f
  let p := nbits k.pcpwr 0 5
  if tileOn s f p then sbEvent (0, f) (.power f p (nbits k.pcpwr 5 2) true) (modFld f (fun k => { k with pcpwrReq := 2 }) s) else pchEnter f s
/-- A write of PCPWR; after a refused one the registers read the last accepted request (conventions: DESIGN CHOICE, assumption 131). -/
def pcpwrPut (f : Nat) (v : DWord) (s : State) : State :=
  let k := getFld s f
  if 64 ≤ f then s
  else if k.pcpwrReq != 0 || nbits v 5 2 == 3 || nbits v 7 57 != 0 then modFld f (fun k => { k with pcpwrErr := true }) s
  else
    let s := modFld f (fun k => { k with pcpwr := v, pcpwrErr := false }) s
    if nbits v 5 2 == 0 then modFld f (fun k => { k with pchState := mdel k.pchState (nbits v 0 5) }) s
    else if k.retrain == some (nbits v 0 5) then modFld f (fun k => { k with pcpwrReq := 1 }) s
    else pchProceed f s
def execPcpwrActive (field pch : Nat) (s : State) : Host.Outcome State Fault Refusal := .next (pcpwrPut field (BitVec.ofNat 64 (pch % 32)) s)
def execPcpwrSelfRefresh (field pch : Nat) (s : State) : Host.Outcome State Fault Refusal := .next (pcpwrPut field (BitVec.ofNat 64 (pch % 32 + 32)) s)
def execPcpwrPowerDown (field pch : Nat) (s : State) : Host.Outcome State Fault Refusal := .next (pcpwrPut field (BitVec.ofNat 64 (pch % 32 + 64)) s)
/-- PCPWR_HOLD_END: no live tile remains on a held request's pseudo-channel. -/
def execPcpwrHoldEnd (field : Nat) (s : State) : Host.Outcome State Fault Refusal :=
  let k := getFld s field
  let p := nbits k.pcpwr 0 5
  if k.pcpwrReq != 2 || tileOn s field p then .next s
  else .next (pchEnter field (sbEvent (0, field) (.power field p (nbits k.pcpwr 5 2) false) s))

-- World map and start-up registers (R302, R307) --------------------------------------------------------------------------------------------

/-- A line lies in a physical range, or is an alias line whose encoded bytes do. -/
def lineIn (s : State) (pa n ln : Nat) : Bool :=
  let inr := fun (f o m : Nat) => m != 0 && devPA f o < pa + n && pa < devPA f o + m
  match target (ln * 128) with
  | .viewOf f w o => let (e, m, sb, sn) := aliasRanges (getWin s f w) o; inr f e m || inr f sb sn
  | _ => pa / 128 ≤ ln && ln < (pa + n) / 128
/-- Drop every copy of a physical range from the caches without write-back, alias lines decoded from it among them, and make it read 0 (R298, R307). -/
def zeroRange (pa n : Nat) (s : State) : State :=
  let inl := lineIn s pa n
  let keep := fun (m : SMap Line) => m.filter (fun e => !inl e.1)
  let s := { s with
    aliasLines := keep s.aliasLines
    cores := s.cores.map (fun e => (e.1, { e.2 with l1 := keep e.2.l1, fetchBuf := e.2.fetchBuf.filter (fun x => !inl (x.1 / 2)) }))
    mem := s.mem.filter (fun c => c.1 < pa || pa + n ≤ c.1)
    memErr := s.memErr.filter (fun e => e.1 * 8 < pa || pa + n ≤ e.1 * 8)
    fields := s.fields.map (fun e => (e.1, { e.2 with rdc := keep e.2.rdc })) }
  match homeOf pa with
  | some f =>
    let ws := (getFld s f).watches.filter (fun w => inl (w.pa / 128))
    ws.foldl (fun s w => wakeOne w s) (modFld f (fun k => { k with
      watches := k.watches.filter (fun w => !inl (w.pa / 128)), pchState := if n < 2 ^ 21 then k.pchState else [] }) s)
  | none => s
/-- A write of WMAPCMD: accesses that arrive while the command runs are served as after it, so its effect is made at once. After a refused write WMAPCMD reads the last
accepted command (conventions: DESIGN CHOICE, assumption 131). -/
def wmapPut (v : DWord) (s : State) : State :=
  let first := nbits v 6 15
  let n := nbits v 21 15 + 1
  if s.wmapBusy.isSome || 32768 < first + n || nbits v 40 24 != 0 then { s with wmapErr := true }
  else
    let pa := devPA (nbits v 0 6) (first * 2 ^ 21)
    let s := zeroRange pa (n * 2 ^ 21) { s with wmapErr := false, wmapBusy := some v, wmapCmd := v }
    let e : BitVec 4 := bits v 36 4
    { s with worldMap := (upto n).foldl (fun m i => if e = 0 then mdel m (pa / 2 ^ 21 + i) else mput m (pa / 2 ^ 21 + i) e) s.worldMap }
/-- Conventions: DEDUCED, assumption 77. -/
def execWmapcmd (v : DWord) (s : State) : Host.Outcome State Fault Refusal := .next (wmapPut v s)
/-- WMAP_COMMAND_COMPLETE: the running command ends. -/
def execWmapCommandComplete (s : State) : Host.Outcome State Fault Refusal := .next { s with wmapBusy := none }
/-- BOOTRESET.CLEAR sets every record to "not run": secure software at any time, the host, through its BARs, where the security block is granted to it
or start-up is stopped (R299, R302). -/
def bootClear (host : Bool) (s : State) : State :=
  if host && (!s.hostUp || (!bit s.bootStat 13 && !s.grants.contains 7)) then s
  else { s with bootRecs := s.bootRecs.map (fun e => (e.1, setBits e.2 8 4 0)) }
def execBootresetClear (host : Bool) (s : State) : Host.Outcome State Fault Refusal := .next (bootClear host s)

-- Any register by its offset (R6, R288) -------------------------------------------------------------------------------------------------------

/-- A write of QWRIDX (R194, R195). -/
def qwrPut (q : Nat) (v : Word) (s : State) : State := match execDoorbell q v s with | .next s => s | _ => s
/-- A write of a mailbox register (R213). -/
def mbxPut (o : Nat) (v : DWord) (s : State) : State :=
  match o with
  | 0x00 => { s with mbxOutBase := v &&& 0xFFFFFFFFFFFFF }
  | 0x08 => mbxCtl v s
  | 0x18 => mbxRd v s
  | 0x80 => if bit v 0 then mbxGo false s else if s.mbxBusy then { s with mbxLost := true } else s
  | 0x88 => if bit v 1 then { s with mbxLost := false } else s
  | _ =>
    if 0x40 ≤ o && o < 0x80 then
      (if s.mbxBusy then { s with mbxLost := true } else { s with mbxIn := setBits s.mbxIn (8 * (o - 0x40)) 64 v.toNat })
    else s
/-- A write of a counter register (R283, R287). -/
def counterPut (o : Nat) (v : DWord) (s : State) : State :=
  if o < 0x4000 then depctrSet (o / 4 + 1) (bits v 32 32) (depctrSet (o / 4) (bits v 0 32) s)
  else if o < 0xC000 then
    (if o % 0x200 ≤ 0x78 then modFld ((o - 0x4000) / 0x200) (fun k => { k with evcnt := mput k.evcnt (o % 0x200) v }) s else s)
  else if o == 0xC000 || o == 0xC008 then { s with pkgCnt := mput s.pkgCnt (o - 0xC000) v }
  else if 0x10000 ≤ o && o < 0x14000 && o % 0x100 < 0x80 then
    modFld ((o - 0x10000) / 0x100) (fun k =>
      let i := o % 0x100 / 16
      let p : Perf := mget {} k.perf i
      { k with perf := mput k.perf i (if o % 16 == 0 then { p with sel := v &&& 0x800000000003FFFF } else { p with cnt := v.setWidth 48 }) }) s
  else s
/-- A write of a link register (R262, R285). -/
def linkPut (o : Nat) (v : DWord) (s : State) : State :=
  if o < 0x800 then (if bit v 2 then linkDis (o / 8) s else linkEna (o / 8) s)
  else if 0x1000 ≤ o && o < 0x3000 then
    let id := (o - 0x1000) / 0x20
    match o % 0x20 with
    | 0 => linkInj id v s
    | 8 => modLink id (fun l => { l with injN := v }) s
    | _ => s
  else s
/-- A write of the 8 bytes at an 8-aligned offset of the control space by secure software (conventions: DEDUCED, assumption 66). -/
def ctlPut (off : Nat) (v : DWord) (s : State) : State :=
  let o := off % 2 ^ 20
  match off / 2 ^ 20 with
  | 0 => if o < 0x1000 && o % 16 == 0 then qwrPut (o / 16) (bits v 0 32) s else s
  | 1 => if o == 0 then rcbSync v.toNat s else if o == 8 then plInv v s else s
  | 2 =>
    match o with
    | 0x00 => fqCmd v s
    | 0x08 => { s with trinvVa := v }
    | 0x10 => { s with trinvRoot := v &&& 0xFFFFFFFFFFFFF }
    | 0x18 => trInv (nbits v 0 2) s
    | _ => s
  | 3 =>
    if 0x20000 ≤ o || 0x200 ≤ o % 0x800 then s
    else
      let f := o / 0x800
      let w := o % 0x800 / 0x20
      match o % 0x20 with
      | 0 => ftwCtl f w v s
      | 8 => ftwReg f w 1 v s
      | 0x10 => ftwReg f w 2 v s
      | _ => ftwReg f w 3 v s
  | 4 => counterPut o v s
  | 5 => linkPut o v s
  | 6 => if 0x8000 ≤ o && o < 0x8400 && o % 16 == 0 then pcpwrPut ((o - 0x8000) / 16) v s else s
  | 7 =>
    match o with
    | 0x48 => if bit v 0 then bootClear false s else s
    | 0x50 => wmapPut v s
    | _ => s
  | 8 => mbxPut o v s
  | _ => s
/-- REGISTER_WRITE: a secure write of the control-space register at an offset. -/
def execRegisterWrite (off : Nat) (v : DWord) (s : State) : Host.Outcome State Fault Refusal := .next (ctlPut (off / 8 * 8) v s)

end Sys2Proof.Machine
end

