-- ==== Sys2Proof/Machine/Device.lean ====
section
/-! DEFINITION. The module as a device (R58, R78, R135, R140, R172, R188, R239-R242, R264, R289-R308, R456): links, governors, retraining, start-up, the
upper-tier gate, migration and eviction, in-field tests, soft errors, cache evictions and host accesses. -/
namespace Sys2Proof.Machine

-- Links (R264, R275) ---------------------------------------------------------------------------------------------------

/-- LINK_FAILURE: a link that is UP goes DOWN, with its event. -/
def execLinkFailure (id : Nat) (s : State) : Host.Outcome State Fault Refusal :=
  if 152 ≤ id || (getLink s id).state != 1 then .next s else .next (linkLost id 0 (linkDown id s))
/-- LINK_TRAINING_START: a DOWN link begins a training attempt. -/
def execLinkTrainingStart (id : Nat) (s : State) : Host.Outcome State Fault Refusal :=
  if !linkNamed s id || (getLink s id).state != 0 || (getLink s id).disable then .next s else .next (modLink id (fun l => { l with state := 2 }) s)
/-- LINK_TRAINING_END: the attempt ends within 2^17 local cycles, in success, which leads to UP with DISABLE = 0, or failure. -/
def execLinkTrainingEnd (id : Nat) (ok : Bool) (s : State) : Host.Outcome State Fault Refusal :=
  if (getLink s id).state != 2 then .next s
  else if ok then .next (if (getLink s id).disable then s else modLink id (fun l => { l with state := 1 }) s) else .next (linkDown id s)

-- The governor (R289-R296) -----------------------------------------------------------------------------------------------

/-- Cap step that a logic temperature in 1/16 degree asks for. -/
def capOf (tl : Int) : Nat := if tl < 95 * 16 then 0 else if tl < 100 * 16 then 1 else if tl < 103 * 16 then 2 else if tl < 106 * 16 then 3 else if tl < 110 * 16 then 4 else 5
/-- Refresh step that a DRAM temperature asks for. -/
def refreshOf (td : Int) : Nat := if td < 85 * 16 then 0 else if td < 95 * 16 then 1 else 2
/-- Cap step and refresh step of a gradient state (R289). -/
def gradSteps (k : Nat) : Nat × Nat := [(0, 0), (0, 1), (1, 0), (1, 1), (2, 1), (3, 1), (4, 2), (5, 2)].getD k (5, 2)
/-- Cap step from the field's power in 1/16 W. -/
def capPower (force p : Nat) : Nat := if 150 * 16 < p then min (force + 1) 5 else if 140 * 16 ≤ p then force else 0
/-- A step moved toward what is wanted; `n` evaluations in a row have been relaxed. -/
def moveStep (want force n : Nat) : Nat := if force < want then want else if want < force && 4 ≤ n then force - 1 else force
/-- The ceiling: the largest effective GRADCEIL of the resident blocks' regions (R293). -/
def ceilingOf (s : State) (f : Nat) : Nat :=
  if f == fallow s then 0
  else (s.blocks.filter (fun e => resident e.2 && fieldOf e.2.core == f)).foldl (fun n e => max n ((regGradCeil s e.2.region).getD 0)) 0
/-- The state that meets a requirement; the fallow field takes the refresh step alone. -/
def gradState (isFallow : Bool) (ceiling cap div : Nat) : Nat :=
  if isFallow then [0, 1, 6].getD div 6
  else ((upto 8).find? (fun k => ceiling ≤ k && cap ≤ (gradSteps k).1 && div ≤ (gradSteps k).2)).getD 7
/-- The field enters a gradient state (R294). -/
def enterState (f st : Nat) (trip : Bool) (s : State) : State :=
  let k := getFld s f
  if k.state == st then s
  else
    let s := evAdd f 0 1 (modFld f (fun k => { k with state := st }) s)
    if 6 ≤ st && !trip then sbEvent (0, f) (.governor f k.sense st false) s else s
/-- The field trips (R295): G7 at once, TRIP, the event; the fallow field, which has no cap, goes to G6 (conventions: DEDUCED, assumption 74). -/
def tripNow (f : Nat) (s : State) : State :=
  let st := if f == fallow s then 6 else 7
  let s := enterState f st true (modFld f (fun k => { k with tripped := true, capForce := 5, divForce := 2, relCap := 0, relDiv := 0 }) s)
  sbEvent (0, f) (.governor f (getFld s f).sense st true) s
/-- A sensor has reached its trip temperature (R295). -/
def tripHot (tlogic tdram : Int) : Bool := decide (115 * 16 ≤ tlogic) || decide (105 * 16 ≤ tdram)
/-- GOVERNOR_EVALUATION: the end of a window of 65 536 local cycles (R291-R295, R297). A pseudo-channel that is due by its corrections stays so until it trains (conventions: DESIGN CHOICE, assumptions 63, 134; DEDUCED,
assumption 74). -/
def execGovernorEvaluation (field : Nat) (i : GovInputs) (s : State) : Host.Outcome State Fault Refusal :=
  if 64 ≤ field then .next s
  else
    let sense : DWord := BitVec.ofNat 64 (wrap 16 i.tlogic + wrap 16 i.tdram * 2 ^ 16 + i.power % 2 ^ 16 * 2 ^ 32)
    let s := modFld field (fun k => { k with sense := sense, td := i.tdram, shares := i.shares, oldShares := [], corrected := k.corrected.filter (fun c => 16 < c.2) })
      (setNow field (((getFld s field).now / 65536 + 1) * 65536) s)
    let k := getFld s field
    let held := k.tripped && !(decide (i.tlogic < 112 * 16) && decide (i.tdram < 102 * 16))
    let ceiling := ceilingOf s field
    if !k.tripped && tripHot i.tlogic i.tdram then .next (tripNow field (modFld field (fun k => { k with ceiling := ceiling }) s))
    else if held then .next (modFld field (fun k => { k with ceiling := ceiling }) s)
    else
      let (cap, div) := if k.tripped then (5, 2) else (k.capForce, k.divForce)
      let pw := capPower cap i.power
      let want := max (capOf i.tlogic) pw
      let wantD := refreshOf i.tdram
      let nCap := if pw < cap && capOf (i.tlogic + 48) < cap then (if k.tripped then 1 else k.relCap + 1) else 0
      let nDiv := if refreshOf (i.tdram + 48) < div then (if k.tripped then 1 else k.relDiv + 1) else 0
      let cap' := moveStep want cap nCap
      let div' := moveStep wantD div nDiv
      let s := modFld field (fun k => { k with tripped := false, ceiling := ceiling, capForce := cap', divForce := div', relCap := min nCap 4, relDiv := min nDiv 4 }) s
      .next (enterState field (gradState (field == fallow s) ceiling cap' div') false s)
/-- TRIP: a sensor reaches its trip temperature within a window (R295). -/
def execTrip (field : Nat) (tlogic tdram : Int) (s : State) : Host.Outcome State Fault Refusal :=
  if 64 ≤ field || (getFld s field).tripped || !tripHot tlogic tdram then .next s else .next (tripNow field s)
/-- CLOCK_STRETCH: each stretched cycle counts (R296). -/
def execClockStretch (field cycles : Nat) (s : State) : Host.Outcome State Fault Refusal :=
  if 64 ≤ field then .next s else .next (evAdd field 0x08 cycles s)
/-- A pseudo-channel is due for training (R297): TD, as last sensed, has moved by 8 degrees since its last, or it has made more than 16 single-bit corrections
in the window in progress (conventions: DESIGN CHOICE, assumption 103). -/
def retrainDue (k : Field) (p : Nat) : Bool := 128 ≤ (k.td - mget 0 k.trainTd p).natAbs || 16 < mget 0 k.corrected p
/-- RETRAIN_START: a pseudo-channel that is due, one of a field at a time (R297). -/
def execRetrainStart (field pch : Nat) (s : State) : Host.Outcome State Fault Refusal :=
  let k := getFld s field
  if 64 ≤ field || 32 ≤ pch || k.retrain.isSome || !retrainDue k pch then .next s
  else .next (sbEvent (0, field) .note (modFld field (fun k => { k with retrain := some pch, trainTd := mput k.trainTd pch k.td, corrected := mdel k.corrected pch }) s))
/-- RETRAIN_END: the window ends, and a power request that waited for it goes on (R298). -/
def execRetrainEnd (field cycles : Nat) (s : State) : Host.Outcome State Fault Refusal :=
  match (getFld s field).retrain with
  | none => .next s
  | some p =>
    let n := min cycles 8192
    let s := evAdd field 0x18 n (evAdd field 0x10 1 (serveHeld (modFld field (fun k => { k with retrain := none }) (setNow field ((getFld s field).now + n) s))))
    let k := getFld s field
    .next (if k.pcpwrReq == 1 && nbits k.pcpwr 0 5 == p then pchProceed field s else s)

-- Start-up (R299-R307) ------------------------------------------------------------------------------------------------------

/-- A configuration record is well formed (R303). -/
def cfgValid (c : List Byte) : Bool :=
  let r : BitVec 2048 := ofBytes 2048 c
  c.length == 256 && nbits r 0 32 == 0x53464346 && nbits r 32 8 == 1 && nbits r 50 14 == 0 && nbits r 1728 320 == 0
/-- Train the links; those that fail go DOWN and are left DISABLED (R264, R299). -/
def trainLinks (down : List Nat) (s : State) : State :=
  (upto 152).foldl (fun s id =>
    if !linkNamed s id then s
    else if down.contains id then modLink id (fun l => { l with state := 3, disable := true }) (linkDown id s)
    else modLink id (fun l => { l with state := 1 }) s) s
/-- Keys: the world map is non-secure, slot 0, and device memory reads 0 (R299, R306). -/
def makeKeys (s : State) : State :=
  { s with keysMade := true, worldMap := [], mem := s.mem.filter (fun c => 2 ^ 51 ≤ c.1), memErr := s.memErr.filter (fun e => 2 ^ 48 ≤ e.1) }
/-- A boot-step record of this start (R301). -/
def bootRec (s : State) (k outcome : Nat) (detail : BitVec 16) : BitVec 128 :=
  BitVec.ofNat 128 (k + outcome * 2 ^ 8 + detail.toNat * 2 ^ 16 + s.startNo.toNat * 2 ^ 32)
/-- The object that an action of a step reads: the configuration record or the firmware image, copy A or B. -/
def bootObject (b : BootInputs) (k : Nat) (alt : Bool) : Option Signed :=
  match k, alt with
  | 1, false => some b.cfgA
  | 1, true => some b.cfgB
  | 2, false => some b.fwA
  | 2, true => some b.fwB
  | _, _ => none
/-- An action of a step succeeds: its object is accepted (R303, R304), and nothing else fails. -/
def bootActs (b : BootInputs) (k : Nat) (alt : Bool) : Bool :=
  let act := b.acts.getD (k - 1) { primary := true, alternate := true, detail := 0 }
  (if alt then act.alternate else act.primary) && (match bootObject b k alt with | some o => accepted o && (k != 1 || cfgValid o.bytes) | none => true)
/-- An action measures its object before anything else (R305). -/
def bootMeasure (b : BootInputs) (k : Nat) (alt : Bool) (s : State) : State :=
  match bootObject b k alt with
  | some o => { s with meas := extendMeas s.meas o.bytes }
  | none => s
/-- What a step leaves when it ends with an outcome other than ALTFAILED (R299). -/
def bootEffect (b : BootInputs) (k : Nat) (prim : Bool) (s : State) : State :=
  match k with
  | 1 => { s with cfg := if prim then b.cfgA.bytes else b.cfgB.bytes }
  | 2 => { s with fwUp := true }
  | 3 => { s with hostUp := true, grants := b.grants }
  | 5 => (upto 64).foldl (fun s f => modFld f (fun n => { n with td := b.tdram.getD f 0, trainTd := (upto 32).map (fun p => (p, b.tdram.getD f 0)) }) s) s
  | 6 => trainLinks (if prim then [] else b.downLinks) s
  | 7 => makeKeys s
  | _ => s
/-- A step ends: its record, BOOTSTAT, and its effect (R301, R302). -/
def bootEnd (b : BootInputs) (k outcome : Nat) (s : State) : State :=
  let detail := (b.acts.getD (k - 1) { primary := true, alternate := true, detail := 0 }).detail
  let s := { s with
    bootRecs := mput s.bootRecs k (bootRec s k outcome detail)
    bootStat := BitVec.ofNat 64 (k + outcome * 2 ^ 8 + (if outcome == 5 then 2 ^ 13 else if k == 8 then 2 ^ 12 else 0)) }
  if outcome == 5 then s else bootEffect b k (outcome == 1) s
/-- One start-up step (R299, R302), and whether the start goes on: it ends where power is lost or the module is reset. After a stop the records of later steps
read "not run" (conventions: DESIGN CHOICE, assumption 75; DEDUCED, assumption 76; PRESUMED, assumption 89). -/
def bootStep (b : BootInputs) (k : Nat) (s : State) : State × Bool :=
  if bit s.bootStat 13 then ({ s with bootRecs := mput s.bootRecs k (bootRec s k 0 0) }, true)
  else
    let prev := nbits (mget 0 s.bootRecs k) 8 4
    let direct := 2 ≤ prev && prev ≤ 5
    let s := { s with bootStat := BitVec.ofNat 64 k }
    let s := if direct then s else bootMeasure b k false s
    if !direct && b.cut == some (k, false) then (s, false)
    else if !direct && bootActs b k false then (bootEnd b k 1 s, true)
    else
      let s := if direct then s else { s with
        bootRecs := mput s.bootRecs k (bootRec s k 2 (b.acts.getD (k - 1) { primary := true, alternate := true, detail := 0 }).detail)
        bootStat := BitVec.ofNat 64 (k + 2 * 2 ^ 8) }
      let s := bootMeasure b k true s
      if b.cut == some (k, true) then (s, false)
      else (bootEnd b k (if k == 6 || k == 8 then 3 else if bootActs b k true then 4 else 5) s, true)
/-- The steps of a start in order, from one on. -/
def bootSteps (b : BootInputs) : Nat → Nat → State → State
  | 0, _, s => s
  | n + 1, k, s => if (bootStep b k s).2 then bootSteps b n (k + 1) (bootStep b k s).1 else (bootStep b k s).1
/-- MODULE_RESET: every register at its reset value, then the start-up steps. External flash keeps its contents, host memory
too, and device memory what it holds until its step, with its errors (conventions: DESIGN CHOICE, assumption 133). -/
def execModuleReset (b : BootInputs) (s : State) : Host.Outcome State Fault Refusal :=
  let s0 : State := { State.reset with
    mem := s.mem, memErr := s.memErr, agenda := s.agenda, nextBlk := s.nextBlk, nextUid := s.nextUid, nextId := s.nextId, ticks := s.ticks, free := s.free
    bootRecs := s.bootRecs, startNo := s.startNo + 1 }
  .next (bootSteps b 8 1 s0)

-- The upper-tier gate and in-field tests (R35, R78, R456) -----------------------------------------------------------------------

/-- Resident blocks of a field, on the upper tier alone or on both. -/
def blocksIn (s : State) (f : Nat) (upper : Bool) : List Block :=
  (s.blocks.filter (fun e => resident e.2 && fieldOf e.2.core == f && (!upper || 128 ≤ e.2.core % 256))).map (·.2)
/-- UPPER_TIER_GATE: it stops and marks the tier's blocks; once they are saved, the FIFOs move to the buffers, the L1s go and the tier is down. -/
def execUpperTierGate (field : Nat) (s : State) : Host.Outcome State Fault Refusal :=
  if 64 ≤ field || (getFld s field).gated then .next s
  else
    let s := modFld field (fun k => { k with gating := true }) s
    let bs := blocksIn s field true
    let s := bs.foldl (fun s b =>
      preemptUnit b.id (modCore b.core (fun c => { c with heldFor := true }) (modBlk b.id (fun k => { k with coreHeld := true }) s))) s
    if !bs.isEmpty then .next s
    else
      let gs := (mkeys s.cores).filter (fun g => fieldOf g == field)
      let s := gs.foldl (fun s g => if 128 ≤ g % 256 then invalL1 false g (flushL1 g s) else s) s
      let bufs := (upto 128).filterMap (fun n =>
        let l := (getCore s (field * 256 + n)).fifo ++ (getCore s (field * 256 + n + 128)).fifo
        if l.isEmpty then none else some (n, l))
      let s := gs.foldl (fun s g => modCore g (fun c => { c with fifo := [] }) s) s
      .next (modFld field (fun k => { k with gated := true, gating := false, yokeBuf := bufs }) s)
/-- UPPER_TIER_UNGATE: the buffers refill the FIFOs; then held blocks may resume. -/
def execUpperTierUngate (field : Nat) (s : State) : Host.Outcome State Fault Refusal :=
  let k := getFld s field
  if !k.gated then .next s
  else
    let s := k.yokeBuf.foldl (fun s e =>
      modCore (field * 256 + e.1 + 128) (fun c => { c with fifo := e.2.filter (fun y => !y.up) })
        (modCore (field * 256 + e.1) (fun c => { c with fifo := e.2.filter (fun y => y.up) }) s)) s
    .next (modFld field (fun k => { k with gated := false, yokeBuf := [] }) s)
/-- IN_FIELD_TEST: it pre-empts the field's blocks and waits for them; its end lets blocks in again. -/
def execInFieldTest (field : Nat) (s : State) : Host.Outcome State Fault Refusal :=
  if 64 ≤ field || field == fallow s then .next s
  else if !(getFld s field).testing then
    .next ((blocksIn s field false).foldl (fun s b => preemptUnit b.id s) (modFld field (fun k => { k with testing := true }) s))
  else if (blocksIn s field false).isEmpty then .next (modFld field (fun k => { k with testing := false }) s)
  else .next s

-- Migration (R239, R240, R242) -----------------------------------------------------------------------------------------------------

/-- Copies of a physical range leave every L1 and RDC, dirty bytes first written back when `clean`. -/
def pullRange (clean : Bool) (pa n : Nat) (s : State) : State :=
  let inl := fun (ln : Nat) => pa / 128 ≤ ln && ln < (pa + n) / 128
  let s := if clean then
      let s := (mkeys s.cores).foldl (fun s g => ((mkeys (getCore s g).l1).filter inl).foldl (fun s ln => cleanL1 g ln s) s) s
      (mkeys s.fields).foldl (fun s f => ((mkeys (getFld s f).rdc).filter inl).foldl (fun s ln => cleanRdc f ln s) s) s
    else s
  { s with
    cores := s.cores.map (fun e => (e.1, { e.2 with
      l1 := e.2.l1.filter (fun x => !inl x.1)
      fetchBuf := if clean then e.2.fetchBuf else e.2.fetchBuf.filter (fun x => !inl (x.1 / 2)) }))
    fields := s.fields.map (fun e => (e.1, { e.2 with rdc := e.2.rdc.filter (fun x => !inl x.1) })) }
/-- An address on every pseudo-channel that a range of `k` granules of 256 bytes touches: within an aligned 256 KiB the channels repeat every 8 KiB, and a range that
reaches beyond the second covers that one whole (R131). -/
def pchSpots (pa k : Nat) : List Nat :=
  (upto (min 2 ((pa % 2 ^ 18 + 256 * k - 1) / 2 ^ 18 + 1))).flatMap (fun j =>
    let lo := max pa (pa / 2 ^ 18 * 2 ^ 18 + j * 2 ^ 18)
    let hi := min (pa + 256 * k) (pa / 2 ^ 18 * 2 ^ 18 + (j + 1) * 2 ^ 18)
    (upto (min 32 ((hi - lo + 255) / 256))).map (fun i => lo + 256 * i))
/-- The requests of a copy of `n` lines at both homes, the source's sending them to the destination's, and every pseudo-channel that they lie on is reached (R146, R239, R287,
R298) (conventions: DESIGN CHOICE, assumption 41). -/
def moveLines (n src dst : Nat) (s : State) : State :=
  let s := (pchSpots dst ((n + 1) / 2)).foldl (fun s a => wakePch a s) ((pchSpots src ((n + 1) / 2)).foldl (fun s a => wakePch a s) s)
  let s := match homeOf src, homeOf dst with
    | some f, some h => crossReq (some true) n f h s
    | none, none => s
    | _, _ => flits s
  llcMiss (some true) n dst (llcMiss (some true) n src s)
/-- Copy a physical range through both homes: data, poison, wakes (R140, R146, R361). -/
def moveBytes (src dst n : Nat) (s : State) : State :=
  let s := correctHome src n s
  let s := moveLines (n / 128) src dst s
  let moved := s.mem.filter (fun c => src ≤ c.1 && c.1 < src + n)
  let keep := s.mem.filter (fun c => c.1 < dst || dst + n ≤ c.1)
  let errs := s.memErr.filter (fun e => src / 8 ≤ e.1 && e.1 < (src + n) / 8)
  let s := { s with
    mem := moved.foldl (fun m c => memPut m (dst + (c.1 - src)) c.2) keep
    memErr := s.memErr.filter (fun e => e.1 < dst / 8 || (dst + n) / 8 ≤ e.1) ++ errs.map (fun e => (dst / 8 + (e.1 - src / 8), e.2)) }
  match homeOf dst with
  | some f =>
    ((getFld s f).watches.map (fun w => w.pa / 128)).eraseDups.foldl (fun s ln => if dst / 128 ≤ ln && ln < (dst + n) / 128 then wakeLine ln s else s) s
  | none => s
/-- The migration engine's copy, in its four steps (R239) (conventions: DEDUCED, assumption 78). -/
def migrate (src dst n : Nat) (s : State) : State := pullRange false dst n (moveBytes src dst n (pullRange true src n s))
/-- MIGRATION: a command of the signal box or of secure system software. -/
def execMigration (src dst len : Nat) (s : State) : Host.Outcome State Fault Refusal :=
  let ok := match target src, target dst with
    | .dev f o, .dev g p => f != g && o + len ≤ 2 ^ 36 && p + len ≤ 2 ^ 36
    | _, _ => false
  if !ok || len % 4096 != 0 || len == 0 || 2 ^ 30 < len || src % 4096 != 0 || dst % 4096 != 0 then .next s else .next (migrate src dst len s)

/-- Every agent drops the translations of a page (R234, within the sequence of R240). -/
def dropPage (root va : Nat) (s : State) : State :=
  { s with
    termTlb := tlbDrop 0 va root s.termTlb
    cores := s.cores.map (fun e => (e.1, { e.2 with tlb := tlbDrop 0 va root e.2.tlb }))
    fields := s.fields.map (fun e => (e.1, { e.2 with walkTlb := tlbDrop 0 va root e.2.walkTlb, walkCache := walkDrop 0 va root e.2.walkCache })) }
/-- Watches on a physical range wake when its leaf entry is cleared (R361). -/
def wakeRange (pa n : Nat) (s : State) : State :=
  let inr := fun (w : Watch) => pa ≤ w.pa && w.pa < pa + n
  match homeOf pa with
  | some f =>
    let ws := (getFld s f).watches.filter inr
    ws.foldl (fun s w => wakeOne w s) (modFld f (fun k => { k with watches := k.watches.filter (fun w => !inr w) }) s)
  | none =>
    let ws := s.hostWatches.filter inr
    ws.foldl (fun s w => wakeOne w s) { s with hostWatches := s.hostWatches.filter (fun w => !inr w) }
/-- The acre is pinned in the Placement Table (R237). -/
def pinned (s : State) (region va : Nat) : Bool :=
  match placeLeaf s (regPlace s region) (BitVec.ofNat 64 va) with
  | some e => bit e 6 && bit e 7 && nbits e 8 8 == 0
  | none => false
/-- The acres of a virtual range. -/
def acresOf (lo n : Nat) : List Nat := (upto ((lo + n - 1) / 2 ^ 21 - lo / 2 ^ 21 + 1)).map (fun i => lo / 2 ^ 21 + i)
/-- The canonical address of 57 bits (R126). -/
def canonVa (v : Nat) : Nat := if 2 ^ 56 ≤ v then v + (2 ^ 64 - 2 ^ 57) else v
/-- The leaf entries under a table of some level, whose first virtual address, of 57 bits, is `va`. -/
def leavesUnder (s : State) (root : Nat) : Nat → Nat → Nat → List MovedLeaf
  | 0, _, _ => []
  | lvl + 1, table, va =>
    (upto 512).flatMap (fun i =>
      let at_ := table + 8 * i
      let e : DWord := BitVec.ofNat 64 (memNat s at_ 8)
      let here := va + i * 2 ^ (12 + 9 * lvl)
      if !bit e 0 then []
      else if bit e 3 then [{ root := root, va := canonVa here, log2 := 12 + 9 * lvl, at_ := at_, pte := e }]
      else leavesUnder s root lvl (nbits e 12 40 * 4096) here)
def leafPa (l : MovedLeaf) : Nat := nbits l.pte 12 40 * 4096
/-- Every leaf entry under the root of a region that the Terminus holds. -/
def allLeaves (s : State) : List MovedLeaf := ((mkeys s.rcbs).map (regRoot s)).eraseDups.flatMap (fun r => leavesUnder s r 5 r 0)
/-- Some mapping of a physical page lies in an acre that its region pins (R237). -/
def pagePinned (s : State) (pa sz : Nat) (all : List MovedLeaf) : Bool :=
  all.any (fun l => pa ≤ leafPa l && leafPa l < pa + sz &&
    (mkeys s.rcbs).any (fun r => regRoot s r == l.root && (acresOf l.va (min sz (2 ^ l.log2))).any (fun a => pinned s r (a * 2 ^ 21))))
/-- The pages of a virtual range that can move: on one side (host memory or device memory), whole in the range, pinned by no region that maps them, their place at the
destination aligned, and mapped by no leaf entry that reaches beyond them (conventions: DEDUCED, assumptions 78, 79). -/
def movable (s : State) (region lo n dst : Nat) (fromHost : Bool) (all : List MovedLeaf) : List (Nat × Nat × Nat) :=
  (upto (n / 4096)).filterMap (fun i =>
    let va := lo + 4096 * i
    match leafOf s region va with
    | some (lv, _, pte) =>
      let sz := 2 ^ (12 + 9 * (lv - 1))
      let pa := nbits pte 12 40 * 4096
      if va % sz != 0 || lo + n < va + sz || (if fromHost then !isHost pa else !isDev pa) || pagePinned s pa sz all || (dst + (va - lo)) % sz != 0 ||
        all.any (fun l => leafPa l < pa + sz && pa < leafPa l + 2 ^ l.log2 && !(pa ≤ leafPa l && leafPa l + 2 ^ l.log2 ≤ pa + sz)) then none
      else some (pa, dst + (va - lo), sz)
    | none => none)
/-- A move begins (R240): every leaf entry that maps a source page is cleared and every agent drops its translations. From now until the move ends, accesses
to those pages fault and wait. -/
def startMove (region lo n dst : Nat) (fromHost : Bool) (s : State) : State :=
  let all := allLeaves s
  let pages := movable s region lo n dst fromHost all
  let leaves := all.filter (fun l => pages.any (fun p => p.1 ≤ leafPa l && leafPa l < p.1 + p.2.2))
  if pages.isEmpty then s
  else
    let s := leaves.foldl (fun s l =>
      (upto (2 ^ l.log2 / 4096)).foldl (fun s j => dropPage l.root (l.va + 4096 * j) s) (homePuts l.at_ (toBytes 8 (l.pte &&& ~~~1)) s)) s
    let s := pages.foldl (fun s p => wakeRange p.1 p.2.2 s) s
    { s with moves := s.moves ++ [{ region := region, lo := lo, n := n, dst := dst, pages := pages, leaves := leaves }] }
/-- The acre's home by its mapped bytes (R130). -/
def acreMajority (s : State) (region acre : Nat) : Option Nat :=
  let homes := (upto 512).filterMap (fun i =>
    match leafOf s region (acre * 2 ^ 21 + 4096 * i) with
    | some (lv, _, pte) => homeOf (nbits pte 12 40 * 4096 + (acre * 2 ^ 21 + 4096 * i) % 2 ^ (12 + 9 * (lv - 1)))
    | none => none)
  leastBy (fun f => 512 - (homes.filter (· == f)).length) (sortBy id homes.eraseDups)
/-- Address of an acre's leaf entry, where its pointers are there. -/
def placeAddr (s : State) (root acre : Nat) : Option Nat :=
  let va : DWord := BitVec.ofNat 64 (acre * 2 ^ 21)
  let p := BitVec.ofNat 64 (memNat s (root + 8 * nbits va 45 12) 8)
  if !bit p 0 then none
  else
    let m := BitVec.ofNat 64 (memNat s (nbits p 12 40 * 4096 + 8 * nbits va 33 12) 8)
    if !bit m 0 then none else some (nbits m 12 40 * 4096 + 2 * nbits va 21 12)
/-- Update the Placement Table of an acre whose majority has moved (R240). An acre of whose bytes none is homed in a field any more keeps the entry it has (conventions:
DESIGN CHOICE, assumption 118). -/
def placeAcre (region acre : Nat) (s : State) : State :=
  let root := regPlace s region
  let s := placeReads root (BitVec.ofNat 64 (acre * 2 ^ 21)) s
  match placeAddr s root acre with
  | none => s
  | some a =>
    let e : BitVec 16 := BitVec.ofNat 16 (memNat s a 2)
    let e' : BitVec 16 := match acreMajority s region acre with
      | some f => setBits e 0 6 f
      | none => e
    if !bit e 6 || e' = e then s
    else { homePuts a (toBytes 2 e') s with placeCache := s.placeCache.filter (fun x => x.2.1 != acre % 2 ^ 36) }
/-- Region and acre of every mapping of a move's pages, under every root that maps them (R240). -/
def movedAcres (s : State) (m : Move) : List (Nat × Nat) :=
  ((acresOf m.lo m.n).map (fun a => (m.region, a)) ++
    (mkeys s.rcbs).flatMap (fun r => (m.leaves.filter (fun l => l.root == regRoot s r)).flatMap (fun l => (acresOf l.va (2 ^ l.log2)).map (fun a => (r, a))))).eraseDups
def placeUpdate (m : Move) (s : State) : State :=
  (movedAcres s m).foldl (fun s x => placeAcre x.1 x.2 (readLeaves x.1 (x.2 * 2 ^ 21) (2 ^ 21) s)) s
/-- A move ends (R240): the copy, the leaf entries at their new pages, the Placement Table, and REPLAY for the records that faulted on the pages, of regions whose
records the signal box answers itself (R230). -/
def endMove (m : Move) (s : State) : State :=
  let s := m.pages.foldl (fun s p => migrate p.1 p.2.1 p.2.2 s) { s with moves := s.moves.filter (· != m) }
  let s := m.leaves.foldl (fun s l =>
    match m.pages.find? (fun p => p.1 ≤ leafPa l && leafPa l < p.1 + p.2.2) with
    | some p => homePuts l.at_ (toBytes 8 (setBits l.pte 12 40 ((p.2.1 + (leafPa l - p.1)) / 4096))) s
    | none => s) s
  let s := placeUpdate m s
  let mine := fun (s : State) (r : FRec) => r.open_ && (r.kind == 0 || r.kind == 7) && !recHost s r &&
    m.leaves.any (fun l => l.root == r.root && l.va / 2 ^ l.log2 == r.va.toNat / 2 ^ l.log2)
  (mkeys s.fields).foldl (fun s f => (((getFld s f).faults.filter (mine s)).map (·.seq)).foldl (fun s q => answer f q (replaySource f) s) s) s
/-- The command of a use list is a launch that has not completed: one taken, or one that still stands in the ring (R241). -/
def usesLaunch (s : State) (u : UseList) : Bool :=
  let q := getQ s u.queue
  q.launches.any (fun l => match mfind s.launches l with | some x => x.index == u.index | none => false) ||
  (decide ((BitVec.ofNat 32 u.index - q.rd).toNat < (q.wr - q.rd).toNat) &&
    (let e : BitVec 512 := ofBytes 512 (memBytes s.mem (ringAt q u.index) 64); nbits e 0 8 == 1 && !recBad q e))
/-- Two ranges have an address in common. -/
def meets (a b : Nat × Nat) : Bool := a.1 < b.1 + b.2 && b.1 < a.1 + a.2
/-- The launches that name addresses of a range: level, position and whether a block of them is dispatched (R241, R242). -/
def rangeUses (s : State) (root : Nat) (r : Nat × Nat) : List (Nat × Int × Bool) :=
  (s.useLists.filter (fun u => regRoot s (qRegion (getQ s u.queue)) == root && u.ranges.any (meets r) && usesLaunch s u)).map (fun u =>
    let q := getQ s u.queue
    (qLevel s q, (BitVec.ofNat 32 u.index - q.rd).toInt, q.launches.any (fun l => match mfind s.launches l with | some x => x.index == u.index && x.next != 0 | none => false)))
/-- A pair comes before another: level, then position. -/
def useBefore (a b : Nat × Int) : Bool := a.1 < b.1 || (a.1 == b.1 && decide (a.2 < b.2))
/-- A range's next use; none: infinite. -/
def nextUse (s : State) (root : Nat) (r : Nat × Nat) : Option (Nat × Int) :=
  (rangeUses s root r).foldl (fun acc u => match acc with
    | none => some (u.1, u.2.1)
    | some x => if useBefore (u.1, u.2.1) x then some (u.1, u.2.1) else some x) none
/-- The ranges of a root that use lists have named (R242). -/
def rangesOf (s : State) (root : Nat) : List (Nat × Nat) := (s.hostRanges.filter (fun x => x.1 == root)).map (·.2)
/-- A range covers an address. -/
def covers (va : Nat) (r : Nat × Nat) : Bool := r.1 ≤ va && va < r.1 + r.2
/-- The range at an address: as a use list of the region's root has named it, else 64 KiB (conventions: DEDUCED, assumption 79). -/
def rangeAt (s : State) (region va : Nat) : Nat × Nat := ((rangesOf s (regRoot s region)).find? (covers va)).getD (va / 65536 * 65536, 65536)
/-- The ranges of a region, named or not, of which pages in device memory could move (R242) (conventions: DEDUCED, assumption 79). -/
def evictable (s : State) (region : Nat) : List (Nat × Nat) :=
  let root := regRoot s region
  let all := allLeaves s
  (((all.filter (fun l => l.root == root && isDev (leafPa l))).map (fun l => rangeAt s region l.va)).eraseDups).filter (fun r =>
    !(movable s region r.1 r.2 r.1 false all).isEmpty)
/-- May a range be evicted now (R242): no launch that names an address of it has a dispatched block, and of the device-resident ranges without one its next use lies
farthest ahead, ties to the lowest address. -/
def mayEvict (s : State) (region : Nat) (r : Nat × Nat) : Bool :=
  let root := regRoot s region
  let free := fun (x : Nat × Nat) => (rangeUses s root x).all (fun u => !u.2.2)
  free r && ((evictable s region).filter (fun x => x != r && free x)).all (fun x =>
    match nextUse s root r, nextUse s root x with
    | none, none => r.1 ≤ x.1
    | none, some _ => true
    | some _, none => false
    | some u, some v => useBefore v u || (v == u && r.1 ≤ x.1))
/-- A move of a range to a destination begins, or, under way, ends. -/
def moveRange (region dst : Nat) (r : Nat × Nat) (fromHost may : Bool) (s : State) : State :=
  match s.moves.find? (fun m => m.region == region && m.lo == r.1 && m.dst == dst) with
  | some m => endMove m s
  | none => if may then startMove region r.1 r.2 dst fromHost s else s
/-- RANGE_EVICTION: a device-resident range goes to host memory. -/
def execRangeEviction (region va dst : Nat) (s : State) : Host.Outcome State Fault Refusal :=
  let r := rangeAt s region va
  if (mfind s.rcbs region).isNone || dst / 2 ^ 51 != 1 || dst % 4096 != 0 then .next s
  else
    let s := readLeaves region r.1 r.2 s
    .next (moveRange region dst r false (rangeIn s region r true && mayEvict s region r) s)
/-- RANGE_MIGRATE_BACK: a host-resident range of the head launch's use list returns to device memory; with a destination outside device memory the range has
found no room and stays (R242). -/
def execRangeMigrateBack (q va dst : Nat) (s : State) : Host.Outcome State Fault Refusal :=
  let k := getQ s q
  let region := qRegion k
  match k.head.bind (fun id => mfind s.launches id) with
  | none => .next s
  | some l =>
    match (s.useLists.find? (fun (u : UseList) => u.queue == q && u.index == l.index)).bind (fun u => u.ranges.find? (covers va)) with
    | none => .next s
    | some r =>
      if !isDev dst || !isDev (dst + r.2 - 1) then .next (modLaunch l.id (fun l => { l with stay := r :: l.stay }) s)
      else if dst % 4096 != 0 then .next s
      else .next (moveRange region dst r true true (readLeaves region r.1 r.2 s))

-- Errors, evictions and the host (R58, R135, R140, R172, R188) --------------------------------------------------------------------------

/-- A bit error in a cached line: single ones are corrected; a double one drops a clean line or poisons the word, which counts where it was not poisoned (R140,
R284). -/
def lineError (f : Nat) (word : Nat) (dbl : Bool) (l : Option Line) (drop : State → State) (put : Line → State → State) (s : State) : State :=
  match l with
  | none => s
  | some l =>
    if !dbl then evAdd f 0x30 1 s
    else if l.dirty = 0 then evAdd f 0x38 1 (drop s)
    else if bit l.poison word then s
    else evAdd f 0x40 1 (put { l with poison := l.poison ||| (1 <<< word) } s)
/-- A core event counted at its field; those of the fallow field stay 0 (R283). -/
def coreEvent (g off : Nat) (s : State) : State := if fieldOf g == fallow s then s else evAdd (fieldOf g) off 1 s
/-- The bits a soft error inverts of a register word: of those that are not inverted yet (R58). -/
def softBits (t : Thread) (n : Nat) (double : Bool) : BitVec 4 :=
  let e := errBits t n
  if double then 12 &&& ~~~e else if bit e 2 then 8 &&& ~~~e else 4
/-- SOFT_ERROR. A furrow segment whose bits flip has bad parity whatever their number, and keeps it when more flip (R188: DESIGN CHOICE, assumption 22) (conventions: DEDUCED, assumption 21; DESIGN CHOICE, assumption 22). -/
def execSoftError (p : ErrorPlace) (double : Bool) (s : State) : Host.Outcome State Fault Refusal :=
  match p with
  | .register b r n => .next (if n < 256 && resident (getBlk s b) then regError b r n (softBits (getTh s b r) n double) s else s)
  | .home pa => .next (homeError false (pa / 8 * 8) double s)
  | .l1 g pa =>
    let ln := pa / 128
    .next (lineError (fieldOf g) (pa / 8 % 16) double (mfind (getCore s g).l1 ln)
      (modCore g (fun c => { c with l1 := mdel c.l1 ln })) (fun l => modCore g (fun c => { c with l1 := mput c.l1 ln l })) s)
  | .rdc f pa =>
    let ln := pa / 128
    .next (lineError f (pa / 8 % 16) double (mfind (getFld s f).rdc ln)
      (modFld f (fun k => { k with rdc := mdel k.rdc ln })) (fun l => modFld f (fun k => { k with rdc := mput k.rdc ln l })) s)
  | .scratch g off =>
    .next (if 262144 ≤ off then s
      else if !double then coreEvent g 0x30 s
      else if (getCore s g).scratchErr.contains (off / 8, true) then s
      else coreEvent g 0x40 (modCore g (fun c => { c with scratchErr := (off / 8, true) :: c.scratchErr.filter (fun e => e.1 != off / 8) }) s))
  | .llcScratch f i w off =>
    let key := (w * 2 ^ 20 + off % 2 ^ 20) / 8
    .next (if role (getSlice s f i).inForce w != 1 then s
      else if !double then evAdd f 0x30 1 s
      else if (getSlice s f i).scratchErr.contains (key, true) then s
      else evAdd f 0x40 1 (modSlice f i (fun k => { k with scratchErr := (key, true) :: k.scratchErr.filter (fun e => e.1 != key) }) s))
  | .furrow f i w row seg =>
    .next (if role (getSlice s f i).inForce w != 2 || 128 ≤ row || 1024 ≤ seg then s
      else modSlice f i (fun k => { k with badSeg := (w, row, seg) :: k.badSeg.filter (· != (w, row, seg)) }) s)
/-- CACHE_EVICTION: a cache gives up an entry; dirty bytes are written back first (R135, R139, R142). -/
def execCacheEviction (w : EvictWhat) (s : State) : Host.Outcome State Fault Refusal :=
  match w with
  | .l1 g ln => .next (modCore g (fun c => { c with l1 := mdel c.l1 ln }) (cleanL1 g ln s))
  | .rdc f ln => .next (modFld f (fun k => { k with rdc := mdel k.rdc ln }) (cleanRdc f ln s))
  | .viewOf ln => .next (aliasDrop ln s)
  | .fetchBuffer g ln => .next (modCore g (fun c => { c with fetchBuf := mdel c.fetchBuf ln }) s)
  | .coreTlb g i => .next (modCore g (fun c => { c with tlb := c.tlb.eraseIdx i }) s)
  | .walkAheadTlb f i => .next (modFld f (fun k => { k with walkTlb := k.walkTlb.eraseIdx i }) s)
  | .terminusTlb i => .next { s with termTlb := s.termTlb.eraseIdx i }
  | .placementCache i => .next { s with placeCache := s.placeCache.eraseIdx i }
/-- The register writes that the host may make in the control space through its BARs (R288, R308): doorbells, blocks granted to it, and BOOTRESET while start-up is
stopped (R302). -/
def hostWrites (s : State) (off : Nat) (bs : List Byte) : List Instr :=
  (ctlWrites s off bs).filterMap (fun w =>
    if w.1 < 0x1000 && w.1 % 16 == 0 then some (.doorbell (w.1 / 16) (bits w.2 0 32))
    else if w.1 == 0x700048 then (if bit w.2 0 then some (.bootresetClear true) else none)
    else if !s.grants.contains (w.1 / 2 ^ 20) then none
    else if w.1 == 0x800080 && bit w.2 0 then some (.mbxindbGo true)
    else some (.registerWrite w.1 w.2))
/-- HOST_ACCESS, once the HOST step has exposed the BARs (R299): a host read or write at the home; of device memory the non-secure part alone; of the control space what
R288 lets it write (R172, R308) (conventions: DEDUCED, assumption 80). -/
def execHostAccess (pa : Nat) (write : Bool) (bytes : List Byte) (s : State) : Host.Outcome State Fault Refusal :=
  let n := bytes.length
  match s.hostUp, target pa with
  | false, _ => .next s
  | true, .ctl off => .next (if write && n != 0 && off + n ≤ 2 ^ 24 then { s with agenda := s.agenda ++ (hostWrites s off bytes).map .event } else s)
  | true, _ =>
  let ok := 0 < n && n ≤ 4096 && (match target pa with | .host => true | .dev _ _ => true | _ => false) &&
    (upto n).all (fun i => backed s (pa + i) && (match target (pa + i) with | .host => true | .dev _ _ => !paSecure s (pa + i) | _ => false))
  if !ok then .next s
  else if write then .next ((upto (n / 128 + 1)).foldl (fun s i => homePuts (pa + 128 * i) ((bytes.drop (128 * i)).take 128) s) s)
  else .next ((upto (n / 128 + 1)).foldl (fun s i => (homeGets (pa + 128 * i) (min 128 (n - 128 * i)) s).2.2) s)

end Sys2Proof.Machine
end

