-- ==== Sys2Proof/Machine/Dispatch.lean ====
section
/-! DEFINITION. exec: one arm per constructor of Instr, each one call of its meaning. -/
namespace Sys2Proof.Machine

/-- What an instruction, a drill command or an event does to the machine. -/
def exec (i : Instr) (s : State) : Host.Outcome State Fault Refusal :=
  match i with
  | .clause f => Sys2Proof.Machine.execClause f s
  | .nop f => Sys2Proof.Machine.execNop f s
  | .br f => Sys2Proof.Machine.execBr f s
  | .brx f => Sys2Proof.Machine.execBrx f s
  | .call f => Sys2Proof.Machine.execCall f s
  | .callx f => Sys2Proof.Machine.execCallx f s
  | .ret f => Sys2Proof.Machine.execRet f s
  | .exit f => Sys2Proof.Machine.execExit f s
  | .trap f => Sys2Proof.Machine.execTrap f s
  | .tret f => Sys2Proof.Machine.execTret f s
  | .marshal f => Sys2Proof.Machine.execMarshal f s
  | .marshalRank f => Sys2Proof.Machine.execMarshalRank f s
  | .yield f => Sys2Proof.Machine.execYield f s
  | .yieldExpiry core cn => Sys2Proof.Machine.execYieldExpiry core cn s
  | .repeatN f => Sys2Proof.Machine.execRepeatN f s
  | .sleep f => Sys2Proof.Machine.execSleep f s
  | .sleepExpiry blk rank => Sys2Proof.Machine.execSleepExpiry blk rank s
  | .waitaddr f => Sys2Proof.Machine.execWaitaddr f s
  | .wakeaddr f => Sys2Proof.Machine.execWakeaddr f s
  | .preemptOff f => Sys2Proof.Machine.execPreemptOff f s
  | .preemptOn f => Sys2Proof.Machine.execPreemptOn f s
  | .preemptOverrun blk => Sys2Proof.Machine.execPreemptOverrun blk s
  | .bar f => Sys2Proof.Machine.execBar f s
  | .bara f => Sys2Proof.Machine.execBara f s
  | .barw f => Sys2Proof.Machine.execBarw f s
  | .grow f => Sys2Proof.Machine.execGrow f s
  | .shrink f => Sys2Proof.Machine.execShrink f s
  | .growa f => Sys2Proof.Machine.execGrowa f s
  | .shrinka f => Sys2Proof.Machine.execShrinka f s
  | .growStarved blk req => Sys2Proof.Machine.execGrowStarved blk req s
  | .gets f => Sys2Proof.Machine.execGets f s
  | .sets f => Sys2Proof.Machine.execSets f s
  | .launch f => Sys2Proof.Machine.execLaunch f s
  | .launchRecordWrite idx => Sys2Proof.Machine.execLaunchRecordWrite idx s
  | .depdec f => Sys2Proof.Machine.execDepdec f s
  | .counterDecrement idx => Sys2Proof.Machine.execCounterDecrement idx s
  | .locq f => Sys2Proof.Machine.execLocq f s
  | .add f => Sys2Proof.Machine.execAdd f s
  | .sub f => Sys2Proof.Machine.execSub f s
  | .addc f => Sys2Proof.Machine.execAddc f s
  | .subb f => Sys2Proof.Machine.execSubb f s
  | .mul f => Sys2Proof.Machine.execMul f s
  | .mulhi f => Sys2Proof.Machine.execMulhi f s
  | .mad f => Sys2Proof.Machine.execMad f s
  | .madw f => Sys2Proof.Machine.execMadw f s
  | .div f => Sys2Proof.Machine.execDiv f s
  | .rem f => Sys2Proof.Machine.execRem f s
  | .min f => Sys2Proof.Machine.execMin f s
  | .max f => Sys2Proof.Machine.execMax f s
  | .abs f => Sys2Proof.Machine.execAbs f s
  | .neg f => Sys2Proof.Machine.execNeg f s
  | .and f => Sys2Proof.Machine.execAnd f s
  | .or f => Sys2Proof.Machine.execOr f s
  | .xor f => Sys2Proof.Machine.execXor f s
  | .not f => Sys2Proof.Machine.execNot f s
  | .andn f => Sys2Proof.Machine.execAndn f s
  | .shl f => Sys2Proof.Machine.execShl f s
  | .shr f => Sys2Proof.Machine.execShr f s
  | .sar f => Sys2Proof.Machine.execSar f s
  | .rot f => Sys2Proof.Machine.execRot f s
  | .bfe f => Sys2Proof.Machine.execBfe f s
  | .bfi f => Sys2Proof.Machine.execBfi f s
  | .popc f => Sys2Proof.Machine.execPopc f s
  | .clz f => Sys2Proof.Machine.execClz f s
  | .ctz f => Sys2Proof.Machine.execCtz f s
  | .brev f => Sys2Proof.Machine.execBrev f s
  | .sel f => Sys2Proof.Machine.execSel f s
  | .cmp f => Sys2Proof.Machine.execCmp f s
  | .mov f => Sys2Proof.Machine.execMov f s
  | .movi f => Sys2Proof.Machine.execMovi f s
  | .lea f => Sys2Proof.Machine.execLea f s
  | .add64 f => Sys2Proof.Machine.execAdd64 f s
  | .sub64 f => Sys2Proof.Machine.execSub64 f s
  | .mad64 f => Sys2Proof.Machine.execMad64 f s
  | .pand f => Sys2Proof.Machine.execPand f s
  | .por f => Sys2Proof.Machine.execPor f s
  | .pxor f => Sys2Proof.Machine.execPxor f s
  | .pnot f => Sys2Proof.Machine.execPnot f s
  | .pmov f => Sys2Proof.Machine.execPmov f s
  | .fadd f => Sys2Proof.Machine.execFadd f s
  | .fsub f => Sys2Proof.Machine.execFsub f s
  | .fmul f => Sys2Proof.Machine.execFmul f s
  | .fma f => Sys2Proof.Machine.execFma f s
  | .fmin f => Sys2Proof.Machine.execFmin f s
  | .fmax f => Sys2Proof.Machine.execFmax f s
  | .fcmp f => Sys2Proof.Machine.execFcmp f s
  | .fclass f => Sys2Proof.Machine.execFclass f s
  | .frnd f => Sys2Proof.Machine.execFrnd f s
  | .frcp f => Sys2Proof.Machine.execFrcp f s
  | .frsq f => Sys2Proof.Machine.execFrsq f s
  | .fsqrt f => Sys2Proof.Machine.execFsqrt f s
  | .fexp2 f => Sys2Proof.Machine.execFexp2 f s
  | .flog2 f => Sys2Proof.Machine.execFlog2 f s
  | .fsin f => Sys2Proof.Machine.execFsin f s
  | .fcos f => Sys2Proof.Machine.execFcos f s
  | .ftanh f => Sys2Proof.Machine.execFtanh f s
  | .fsig f => Sys2Proof.Machine.execFsig f s
  | .fdot2 f => Sys2Proof.Machine.execFdot2 f s
  | .fdot4 f => Sys2Proof.Machine.execFdot4 f s
  | .cvt f => Sys2Proof.Machine.execCvt f s
  | .cvts f => Sys2Proof.Machine.execCvts f s
  | .pack2 f => Sys2Proof.Machine.execPack2 f s
  | .unpack f => Sys2Proof.Machine.execUnpack f s
  | .scalex f => Sys2Proof.Machine.execScalex f s
  | .q4enc f => Sys2Proof.Machine.execQ4enc f s
  | .q4dec f => Sys2Proof.Machine.execQ4dec f s
  | .ballot f => Sys2Proof.Machine.execBallot f s
  | .matchEq f => Sys2Proof.Machine.execMatchEq f s
  | .vote f => Sys2Proof.Machine.execVote f s
  | .reduce f => Sys2Proof.Machine.execReduce f s
  | .scan f => Sys2Proof.Machine.execScan f s
  | .shfl f => Sys2Proof.Machine.execShfl f s
  | .slotof f => Sys2Proof.Machine.execSlotof f s
  | .rankof f => Sys2Proof.Machine.execRankof f s
  | .ld f => Sys2Proof.Machine.execLd f s
  | .ldx f => Sys2Proof.Machine.execLdx f s
  | .st f => Sys2Proof.Machine.execSt f s
  | .atom f => Sys2Proof.Machine.execAtom f s
  | .atomn f => Sys2Proof.Machine.execAtomn f s
  | .cas f => Sys2Proof.Machine.execCas f s
  | .fence f => Sys2Proof.Machine.execFence f s
  | .prefetch f => Sys2Proof.Machine.execPrefetch f s
  | .clean f => Sys2Proof.Machine.execClean f s
  | .inval f => Sys2Proof.Machine.execInval f s
  | .ysend f => Sys2Proof.Machine.execYsend f s
  | .yrecv f => Sys2Proof.Machine.execYrecv f s
  | .yprobe f => Sys2Proof.Machine.execYprobe f s
  | .trec f => Sys2Proof.Machine.execTrec f s
  | .tcopy f => Sys2Proof.Machine.execTcopy f s
  | .tstore f => Sys2Proof.Machine.execTstore f s
  | .tcopymc f => Sys2Proof.Machine.execTcopymc f s
  | .recvarm f => Sys2Proof.Machine.execRecvarm f s
  | .tagwait f => Sys2Proof.Machine.execTagwait f s
  | .tagffs f => Sys2Proof.Machine.execTagffs f s
  | .tagclr f => Sys2Proof.Machine.execTagclr f s
  | .tagstat f => Sys2Proof.Machine.execTagstat f s
  | .drill f => Sys2Proof.Machine.execDrill f s
  | .mready f => Sys2Proof.Machine.execMready f s
  | .mwait f => Sys2Proof.Machine.execMwait f s
  | .accrd f => Sys2Proof.Machine.execAccrd f s
  | .accwr f => Sys2Proof.Machine.execAccwr f s
  | .nanrd f => Sys2Proof.Machine.execNanrd f s
  | .wpart f => Sys2Proof.Machine.execWpart f s
  | .fwload f => Sys2Proof.Machine.execFwload f s
  | .fwstore f => Sys2Proof.Machine.execFwstore f s
  | .fwop f => Sys2Proof.Machine.execFwop f s
  | .fwred f => Sys2Proof.Machine.execFwred f s
  | .fwfill f => Sys2Proof.Machine.execFwfill f s
  | .coll f => Sys2Proof.Machine.execColl f s
  | .collq f => Sys2Proof.Machine.execCollq f s
  | .trsync f => Sys2Proof.Machine.execTrsync f s
  | .tlbinvVa f => Sys2Proof.Machine.execTlbinvVa f s
  | .tlbinvRoot f => Sys2Proof.Machine.execTlbinvRoot f s
  | .tlbinvAll f => Sys2Proof.Machine.execTlbinvAll f s
  | .tlbinvAck idx agent => Sys2Proof.Machine.execTlbinvAck idx agent s
  | .ctxsave f => Sys2Proof.Machine.execCtxsave f s
  | .ctxload f => Sys2Proof.Machine.execCtxload f s
  | .errinj f => Sys2Proof.Machine.execErrinj f s
  | .drillStreamRead blk => Sys2Proof.Machine.execDrillStreamRead blk s
  | .dnop c => Sys2Proof.Machine.execDnop c s
  | .dend c => Sys2Proof.Machine.execDend c s
  | .dbarBar c => Sys2Proof.Machine.execDbarBar c s
  | .dbarReady c => Sys2Proof.Machine.execDbarReady c s
  | .dzero c => Sys2Proof.Machine.execDzero c s
  | .dldacc c => Sys2Proof.Machine.execDldacc c s
  | .dstacc c => Sys2Proof.Machine.execDstacc c s
  | .dscale c => Sys2Proof.Machine.execDscale c s
  | .dmma c => Sys2Proof.Machine.execDmma c s
  | .drillCommandRetire blk slot => Sys2Proof.Machine.execDrillCommandRetire blk slot s
  | .instructionResultReturn blk rank out => Sys2Proof.Machine.execInstructionResultReturn blk rank out s
  | .accessComplete blk rank out => Sys2Proof.Machine.execAccessComplete blk rank out s
  | .clauseEnd core => Sys2Proof.Machine.execClauseEnd core s
  | .sidingDue core idx => Sys2Proof.Machine.execSidingDue core idx s
  | .consistForm core src => Sys2Proof.Machine.execConsistForm core src s
  | .shadowCompare core differ => Sys2Proof.Machine.execShadowCompare core differ s
  | .spill core blk rank quantum => Sys2Proof.Machine.execSpill core blk rank quantum s
  | .fqcmdReplay field seq => Sys2Proof.Machine.execFqcmdReplay field seq s
  | .fqcmdDeny field seq => Sys2Proof.Machine.execFqcmdDeny field seq s
  | .signalBoxEvent sb => Sys2Proof.Machine.execSignalBoxEvent sb s
  | .contextSave blk => Sys2Proof.Machine.execContextSave blk s
  | .resumption blk => Sys2Proof.Machine.execResumption blk s
  | .blockRetire blk => Sys2Proof.Machine.execBlockRetire blk s
  | .killDrained idx => Sys2Proof.Machine.execKillDrained idx s
  | .cmdNop q => Sys2Proof.Machine.execCmdNop q s
  | .cmdLaunch q => Sys2Proof.Machine.execCmdLaunch q s
  | .cmdSignal q => Sys2Proof.Machine.execCmdSignal q s
  | .signalDone q => Sys2Proof.Machine.execSignalDone q s
  | .cmdDepset q => Sys2Proof.Machine.execCmdDepset q s
  | .doorbell q value => Sys2Proof.Machine.execDoorbell q value s
  | .bind r => Sys2Proof.Machine.execBind r s
  | .stop r => Sys2Proof.Machine.execStop r s
  | .resume r => Sys2Proof.Machine.execResume r s
  | .kill r => Sys2Proof.Machine.execKill r s
  | .unbind r => Sys2Proof.Machine.execUnbind r s
  | .uselist r => Sys2Proof.Machine.execUselist r s
  | .useclear r => Sys2Proof.Machine.execUseclear r s
  | .mbxindbGo host => Sys2Proof.Machine.execMbxindbGo host s
  | .mbxoutctlWrite v => Sys2Proof.Machine.execMbxoutctlWrite v s
  | .mbxoutrdWrite v => Sys2Proof.Machine.execMbxoutrdWrite v s
  | .rcbsync addr => Sys2Proof.Machine.execRcbsync addr s
  | .plinv addr => Sys2Proof.Machine.execPlinv addr s
  | .depctrWrite n v => Sys2Proof.Machine.execDepctrWrite n v s
  | .ftwctlWrite field w v => Sys2Proof.Machine.execFtwctlWrite field w v s
  | .ftwRegisterWrite field w reg v => Sys2Proof.Machine.execFtwRegisterWrite field w reg v s
  | .linkDisable id => Sys2Proof.Machine.execLinkDisable id s
  | .linkEnable id => Sys2Proof.Machine.execLinkEnable id s
  | .linkinjArm id v => Sys2Proof.Machine.execLinkinjArm id v s
  | .injectorFire id => Sys2Proof.Machine.execInjectorFire id s
  | .pcpwrActive field pch => Sys2Proof.Machine.execPcpwrActive field pch s
  | .pcpwrSelfRefresh field pch => Sys2Proof.Machine.execPcpwrSelfRefresh field pch s
  | .pcpwrPowerDown field pch => Sys2Proof.Machine.execPcpwrPowerDown field pch s
  | .pcpwrHoldEnd field => Sys2Proof.Machine.execPcpwrHoldEnd field s
  | .wmapcmd v => Sys2Proof.Machine.execWmapcmd v s
  | .bootresetClear host => Sys2Proof.Machine.execBootresetClear host s
  | .registerWrite off v => Sys2Proof.Machine.execRegisterWrite off v s
  | .hostAccess pa write bytes => Sys2Proof.Machine.execHostAccess pa write bytes s
  | .cacheEviction w => Sys2Proof.Machine.execCacheEviction w s
  | .copyComplete op count => Sys2Proof.Machine.execCopyComplete op count s
  | .multicastDelivery op k => Sys2Proof.Machine.execMulticastDelivery op k s
  | .wpartSwitchPoint field slice => Sys2Proof.Machine.execWpartSwitchPoint field slice s
  | .furrowOperationComplete field op => Sys2Proof.Machine.execFurrowOperationComplete field op s
  | .chunkReduced seq chunk => Sys2Proof.Machine.execChunkReduced seq chunk s
  | .chunkDelivered seq chunk => Sys2Proof.Machine.execChunkDelivered seq chunk s
  | .reTree seq => Sys2Proof.Machine.execReTree seq s
  | .linkFailure id => Sys2Proof.Machine.execLinkFailure id s
  | .linkTrainingStart id => Sys2Proof.Machine.execLinkTrainingStart id s
  | .linkTrainingEnd id ok => Sys2Proof.Machine.execLinkTrainingEnd id ok s
  | .governorEvaluation field v => Sys2Proof.Machine.execGovernorEvaluation field v s
  | .trip field tlogic tdram => Sys2Proof.Machine.execTrip field tlogic tdram s
  | .clockStretch field cycles => Sys2Proof.Machine.execClockStretch field cycles s
  | .retrainStart field pch => Sys2Proof.Machine.execRetrainStart field pch s
  | .retrainEnd field cycles => Sys2Proof.Machine.execRetrainEnd field cycles s
  | .moduleReset b => Sys2Proof.Machine.execModuleReset b s
  | .upperTierGate field => Sys2Proof.Machine.execUpperTierGate field s
  | .upperTierUngate field => Sys2Proof.Machine.execUpperTierUngate field s
  | .migration src dst len => Sys2Proof.Machine.execMigration src dst len s
  | .rangeEviction region va dst => Sys2Proof.Machine.execRangeEviction region va dst s
  | .rangeMigrateBack q va dst => Sys2Proof.Machine.execRangeMigrateBack q va dst s
  | .inFieldTest field => Sys2Proof.Machine.execInFieldTest field s
  | .softError p double => Sys2Proof.Machine.execSoftError p double s
  | .chunkPartialArrival seq chunk node => Sys2Proof.Machine.execChunkPartialArrival seq chunk node s
  | .quifinMessage m => Sys2Proof.Machine.execQuifinMessage m s
  | .undefinedOpcode w => Sys2Proof.Machine.execUndefinedOpcode w s
  | .queueVisit => Sys2Proof.Machine.execQueueVisit s
  | .trinvVa => Sys2Proof.Machine.execTrinvVa s
  | .trinvRoot => Sys2Proof.Machine.execTrinvRoot s
  | .trinvAll => Sys2Proof.Machine.execTrinvAll s
  | .wmapCommandComplete => Sys2Proof.Machine.execWmapCommandComplete s

end Sys2Proof.Machine
end

