-- ==== Sys2Proof/Machine/Fetch.lean ====
section
/-! DEFINITION. What a step runs (R20, R26-R29, R219): the next instruction of a core, the next command of a drill, what may stand on the agenda, what ends
every step, and a program word placed where the next step fetches. -/
namespace Sys2Proof.Machine

/-- The next instruction of a core (R26, R27, R29): the end of a clause that is over, the slot a running or resumed clause has come to, or the header of
the clause that the earliest eligible consist begins. -/
def nextOnCore (s : State) (g : Nat) : Option Instr :=
  match pick s g with
  | none => none
  | some cn =>
    match consistOf s g cn with
    | none => none
    | some k =>
      match k.clause with
      | some cl => if clauseOver s k cl then some (.clauseEnd g) else some (decodeWord (cl.words.getD (1 + cl.issued) 0))
      | none => some (decodeWord (peekHeader s g k))
/-- A drill command (R346). -/
def isDrillCmd : Instr → Bool
  | .dnop _ | .dend _ | .dbarBar _ | .dbarReady _ | .dzero _ | .dldacc _ | .dstacc _ | .dscale _ | .dmma _ => true
  | _ => false
/-- The command of a drill's table with a unique number, while it has not finished (R219). -/
def nextOnDrill (s : State) (b uid : Nat) : Option Instr :=
  match (getBlk s b).drill.table.find? (fun e => e.uid == uid) with
  | some e => if e.done || !isDrillCmd e.instr then none else some e.instr
  | none => none
/-- What the agent in turn does next. -/
def nextInstr (s : State) : Option Instr :=
  match s.turn with
  | .core g => nextOnCore s g
  | .drill b uid => nextOnDrill s b uid
  | .device => none
/-- An instruction word or a drill command, which only a clause or a drill's table brings to a step (conventions: DESIGN CHOICE, assumption 6). -/
def isWord (i : Instr) : Bool := (encode i).isSome
/-- The signal box measures an object of its own, once its firmware runs (R299, R305). -/
def measureOwn (o : List Byte) (s : State) : State := if s.fwUp then { s with meas := extendMeas s.meas o } else s
/-- Quanta over what a register file holds are spilled (R1, R55): an instruction leaves its own there while it acts. -/
def trimFiles (s : State) : State := (mkeys s.cores).foldl (fun s g => fileRoom g [] 0 (2 * fileSize) s) s
/-- An event of the host, which keeps its order behind the host's accesses that wait (R172). -/
def fromHost : Instr → Bool
  | .hostAccess _ _ _ | .doorbell _ _ | .mbxindbGo true | .bootresetClear true => true
  | _ => false
/-- The state after an event that takes `s` to `t`: where it reaches a pseudo-channel that holds its accesses it waits whole, and so does an event of the host behind another
that waits; `served`: it has waited, and keeps its place (R147, R148, R172) (conventions: DEDUCED, assumption 95). -/
def eventEnd (served : Bool) (i : Instr) (s t : State) : State :=
  let ps := heldReach s t
  if served then (if ps.isEmpty then t else { s with heldEvs := (ps, i) :: s.heldEvs })
  else if ps.isEmpty && !(fromHost i && s.heldEvs.any (fun e => fromHost e.2)) then t
  else { s with heldEvs := s.heldEvs ++ [(ps, i)] }
/-- The first event that waits happens next, when no pseudo-channel it has reached holds its accesses any more (R148). -/
def serveEvents (s : State) : State :=
  match s.heldEvs with
  | [] => s
  | (ps, i) :: rest => if ps.any (pchHeld s) then s else { s with heldEvs := rest, agenda := .served i :: s.agenda }
/-- The signal box requests the pre-emption of a block, once its firmware runs (R35, R299) (conventions: DESIGN CHOICE, assumption 132). -/
def preemptAsked (b : Nat) (s : State) : State := if s.fwUp then preemptUnit b s else s
/-- The end of every step: full register files give up quanta, spill faults that waited for the fault queue are sent, replays and descriptor reads that could not finish go
on, events that a pseudo-channel held are served, and consists that have become eligible are noted (R26, R37, R55, R148, R217, R432). -/
def finish (s : State) : State :=
  let s := settle (serveEvents (finishColls (finishReplays (sendSpills (keepFills (trimFiles s))))))
  { s with touched := [] }

/-- A clause line's parity bits for its first 480 bits (R310). -/
def withParity (d : BitVec 512) : BitVec 512 :=
  (upto 8).foldl (fun (d : BitVec 512) k => if xorBits (d.extractLsb' (60 * k) 60 : BitVec 60) 60 then d ||| (1 <<< (504 + k)) else d) d
/-- A block of one thread on core 0 of field 0 whose one consist is about to fetch at address 0 (conventions: DEDUCED, assumption 4). -/
def hostBlock (s : State) : State :=
  let b := s.nextBlk
  let th : Thread := { place := .consist s.nextUid }
  let blk : Block := { (default : Block) with
    id := b, threads := 1, allot := 256, accs := 16, recs := List.replicate 16 {}, tags := List.replicate 64 {}, members := [(0, th)] }
  let k : Consist := { uid := s.nextUid, blk := b, slots := some 0 :: List.replicate 31 none, eligible := some 0 }
  modCore 0 (fun c => { c with consists := mput c.consists 0 k, running := none })
    { s with blocks := mput s.blocks b blk, nextBlk := b + 1, nextUid := s.nextUid + 1, turn := .core 0, agenda := [] }
/-- A clause of the given slots, running on that consist (conventions: DEDUCED, assumption 4). -/
def hostClause (len : Nat) (words : List IWord) (s : State) : State :=
  modCore 0 (fun c => { c with running := some 0 })
    (modConsist 0 0 (fun k => { k with eligible := none, clause := some { id := s.nextId, header := 0, len := len, words := words } }) { s with nextId := s.nextId + 1 })
/-- A plain header: LEN, no wait, no flags set. -/
def plainHeader (len : Nat) : IWord := encH 0 { g := { neg := 0, pred := 7, fx := 0 }, wait := 0, len := BitVec.ofNat 5 len, seta := 16, setb := 16, unif := 0, rsv := 0 }
/-- A `nop`. -/
def nopWord : IWord := encA 1 { g := { neg := 0, pred := 7, fx := 0 }, d := null, a := null, am := 0, b := null, c := null, ty := 0, mods := 0, imm := 0 }
/-- The state with an instruction word where the next step fetches: slot 1 of a running clause, or, for a header, slot 0 of the line at address 0 in the
core's fetch buffer (conventions: DEDUCED, assumption 4). -/
def placeWord (w : IWord) (s : State) : State :=
  let s := hostBlock s
  if nbits w 86 10 == 0 then
    modCore 0 (fun c => { c with
      tlb := { root := 0, va := 0, log2 := 12, pa := 0, w := true, x := true, d := true, secure := false } :: c.tlb
      fetchBuf := (upto 7).foldl (fun m i => mput m i (if i == 0 then withParity (w.setWidth 512) else 0)) c.fetchBuf }) s
  else if nbits w 86 10 == 12 then hostClause 2 [plainHeader 2, w, nopWord] s
  else hostClause 1 [plainHeader 1, w] s

end Sys2Proof.Machine
end

