-- ==== Sys2Proof/Machine/Step.lean ====
section
/-! DEFINITION. One step of the machine: the head of the agenda, or the next instruction of the agent in turn. -/
namespace Sys2Proof.Machine

/-- An outcome with every step's end. -/
def ended : Host.Outcome State Fault Refusal → Host.Outcome State Fault Refusal
  | .next s => .next (finish s)
  | .fault r => .fault r
  | .refused r => .refused r
/-- Run an instruction. -/
def run (i : Instr) (s : State) : Host.Outcome State Fault Refusal := ended (exec i s)
/-- An event happens, or waits with the accesses that a pseudo-channel holds. -/
def runEvent (served : Bool) (i : Instr) (s : State) : Host.Outcome State Fault Refusal :=
  match exec i s with
  | .next t => .next (finish (eventEnd served i s t))
  | .fault r => .fault r
  | .refused r => .refused r
/-- One step. An agent with nothing to do lets the step pass (conventions: DESIGN CHOICE, assumptions 5, 6; DEDUCED, assumption 86). -/
def step (s : State) : Host.Outcome State Fault Refusal :=
  match s.agenda with
  | .turn t :: rest => .next (finish { s with agenda := rest, turn := t })
  | .measure o :: rest => .next (finish (measureOwn o { s with agenda := rest }))
  | .preempt b :: rest => .next (finish (preemptAsked b { s with agenda := rest }))
  | .event i :: rest => if isWord i then .next (finish { s with agenda := rest }) else runEvent false i { s with agenda := rest }
  | .served i :: rest => if isWord i then .next (finish { s with agenda := rest }) else runEvent true i { s with agenda := rest }
  | [] =>
    match nextInstr s with
    | some i => run i s
    | none => .next (finish s)

/-- The state with the instruction `w` (R309, R314) where `step` fetches its next instruction (conventions: DEDUCED, assumption 4). -/
def State.withFetchWord (s : State) (_nbits w : Nat) : State := placeWord (BitVec.ofNat 96 w) s

end Sys2Proof.Machine
end

