-- ==== Sys2Proof/WellFormed.lean ====
section
/-! DEFINITION. Well-formed instructions: every field holds a value the spec allows, whatever the block's grants (order 7 of R324; R322, R328, R346), and a
mnemonic that shares its opcode with another carries the field that tells them apart. A device event names only things the package has. -/
namespace Sys2Proof
open Sys2Proof.Machine

/-- The field that tells a mnemonic from the others of its opcode (R337, R346, R353, R359, R429). -/
def variantOk : Instr → Bool
  | .marshal f => !bit f.mods 0
  | .marshalRank f => bit f.mods 0
  | .preemptOff f => !bit f.mods 0
  | .preemptOn f => bit f.mods 0
  | .tlbinvVa f => f.mods == 0
  | .tlbinvRoot f => f.mods == 1
  | .tlbinvAll f => f.mods != 0 && f.mods != 1
  | .dbarBar c => !bit c.ctl 4
  | .dbarReady c => bit c.ctl 4
  | .undefinedOpcode w => decodeWord w == .undefinedOpcode w
  | _ => true

/-- The fields of a drill command, in a block granted every tile and record slot (R328, R346). -/
def dWellFormed (i : Instr) (c : DCmd) : Bool := dLegal { (default : Block) with accs := 16, recs := List.replicate 16 {} } i c

/-- The things an event names exist: fields 0-63, core keys 0-16383, queue slots 0-255, counters 0-4095, pseudo-channels 0-31, windows 0-15, slices 0-7. -/
def eventOk : Instr → Bool
  | .yieldExpiry g cn => g < 16384 && cn < 64
  | .clauseEnd g => g < 16384
  | .sidingDue g i => g < 16384 && i < 64
  | .consistForm g _ => g < 16384
  | .shadowCompare g _ => g < 16384
  | .spill g _ r q => g < 16384 && r < 2048 && q < 32
  | .sleepExpiry _ r | .instructionResultReturn _ r _ | .accessComplete _ r _ => r < 2048
  | .fqcmdReplay f _ | .fqcmdDeny f _ | .pcpwrHoldEnd f | .furrowOperationComplete f _ | .governorEvaluation f _ | .trip f _ _ | .clockStretch f _
  | .retrainEnd f _ | .upperTierGate f | .upperTierUngate f | .inFieldTest f => f < 64
  | .wpartSwitchPoint f i => f < 64 && i < 8
  | .pcpwrActive f p | .pcpwrSelfRefresh f p | .pcpwrPowerDown f p | .retrainStart f p => f < 64 && p < 32
  | .ftwctlWrite f w _ | .ftwRegisterWrite f w _ _ => f < 64 && w < 16
  | .signalBoxEvent sb => sb < 12
  | .cmdNop q | .cmdLaunch q | .cmdSignal q | .signalDone q | .cmdDepset q | .doorbell q _ => q < 256
  | .depctrWrite n _ => n < 4096
  | .linkDisable i | .linkEnable i | .linkinjArm i _ | .injectorFire i | .linkFailure i | .linkTrainingStart i | .linkTrainingEnd i _ => i < 256
  | .registerWrite o _ => o < 0x40000000000
  | .hostAccess pa _ _ => pa < 2 ^ 52
  | _ => true

/-- An instruction the hardware has: legal fields for a word or a drill command, operands in range for an event. -/
def wellFormed (i : Instr) : Bool :=
  variantOk i &&
  match i with
  | .clause f => headerOk (encH 0 f)
  | .dnop c | .dend c | .dbarBar c | .dbarReady c | .dzero c | .dldacc c | .dstacc c | .dscale c | .dmma c => dWellFormed i c
  | .undefinedOpcode _ => true
  | i => if (encode i).isSome then (shape i).legal else eventOk i

end Sys2Proof
end

