-- ==== Sys2Proof/Safety.lean ====
section
/-! DEFINITION. The terms in which statements speak of a run: when an instruction word issues with no cause, stall or suspension (R25-R28, R324), the
state after it, what an instruction that writes registers leaves alone, memory as a core reads it, and what holds after every step. -/
namespace Sys2Proof.Machine

/-- Every register a word reads or writes (R47). -/
def namedRegs (i : Instr) (c : Ctx) (s : State) : List RegUse := readsOf s c (shape i) ++ (shape i).writes

/-- The instruction acts on its active threads: no cause of R324 stands, no named register is owed, marked, in error or spilled, no access,
`trsync` or logged hand-over of the threads must be waited for, and the register file holds what the word names beside what it holds (R1, R27, R47, R56-R60, R67, R165, R235,
R428). -/
structure Ready (i : Instr) (s : State) (c : Ctx) : Prop where
  fresh    : c.regs = snapOf (getBlk s c.blk) (membersOf c.slots)
  whole    : c.all = c.active ∧ c.fill = none
  threads  : c.active ≠ []
  lawful   : wordCause i i c s = none
  inRange  : rangeBad (getBlk s c.blk).allot (namedRegs i c s) = false
  unowed   : scoreboard c (namedRegs i c s) s = false
  unmarked : mustSuspend i c s = false
  unsynced : syncHeld i c s = false
  ordered  : orderHeld i c s = false
  noError  : (getBlk s c.blk).members.all (fun e => e.2.regErr.isEmpty) = true
  filled   : (getBlk s c.blk).members.all (fun e => e.2.spilled.isEmpty) = true
  fits     : (filePlaces s c.g).length + (newQuanta c (readsOf s c (shape i)) (shape i).writes s).length ≤ fileSize

/-- The core in turn stands at `i` in context `c`, outside a `repeat`, and `i` acts. -/
structure Issues (i : Instr) (s : State) (c : Ctx) : Prop where
  here     : context i s = some c
  noRepeat : c.rep = none
  ready    : Ready i s c

/-- The state after an instruction whose effect took `s` to `t`: results and held accesses noted, shadow issue, the clause moved on (R71, R72, R92, R148, R357). -/
def issued (i : Instr) (c : Ctx) (s t : State) : State :=
  advance c (shadowIssue i c (noteOuts i c (!(shape i).writes.isEmpty) (countsB i) (heldReach s t) t))

/-- Every access of an instruction resolves, to the locations of `xs`, no pseudo-channel holds a page walk of it, and `s'` is the state after translation and checks (R148,
R226, R408). -/
def Reaches (c : Ctx) (q : Req) (lanes : List LaneAt) (s : State) (xs : List (LaneAt × Loc)) (s' : State) : Prop :=
  heldReach s s' = [] ∧ xs.map (·.1) = lanes ∧ resolveAll c.g c.blk q lanes s = (xs.map (fun x => (x.1, Res.loc x.2)), s')

/-- One 32-bit register of a thread by specifier number; predicates as 0 or 1, p7 as 1 (R45, R50). -/
def threadReg (t : Thread) (num : Nat) : Word := snapReg (t.vregs, t.sregs, t.preds) num
/-- The same, of a block's thread. -/
def regAt (s : State) (b r num : Nat) : Word := threadReg (getTh s b r) num

/-- The region of a block has no shadow issue (R92). -/
def Unshadowed (s : State) (b : Nat) : Prop := regShadow s (getBlk s b).region = 0

/-- No result of an instruction differs from its clone's: no lane has an error, and no injection is armed on an active thread (R92, R373). -/
def Undiffering (s : State) (c : Ctx) : Prop := (getCore s c.g).laneErr = 0 ∧ ∀ l ∈ c.active, (getTh s c.blk l.2).shadowInj = false

/-- What stands beside the registers of a thread: PC, flags, waits, trap state and trap registers, as they were. -/
def threadKept (t u : Thread) : Prop :=
  u.pc = t.pc ∧ u.nextPc = t.nextPc ∧ u.via = t.via ∧ u.live = t.live ∧ u.place = t.place ∧ u.waits = t.waits ∧ u.began = t.began ∧ u.flags = t.flags ∧ u.trap = t.trap ∧
  u.raised = t.raised ∧ u.cause = t.cause ∧ u.trappc = t.trappc ∧ u.trapva = t.trapva ∧ u.keptRep = t.keptRep ∧ u.deferred = t.deferred

/-- What stands beside the threads of a block: grants, tiles, records, tags, receive slots, barriers, operand log, window, drill and NANCNT, as they were. -/
def blockKept (k l : Block) : Prop :=
  l.phase = k.phase ∧ l.core = k.core ∧ l.region = k.region ∧ l.allot = k.allot ∧ l.accs = k.accs ∧ l.acc = k.acc ∧ l.recs = k.recs ∧ l.tags = k.tags ∧
  l.recv = k.recv ∧ l.barriers = k.barriers ∧ l.log = k.log ∧ l.holders = k.holders ∧ l.winStart = k.winStart ∧ l.drill = k.drill ∧ l.nancnt = k.nancnt ∧
  l.grows = k.grows ∧ l.syncs = k.syncs

/-- Every place that holds memory or a copy of it is as it was: home memory and its errors, alias lines, the world map, the region blocks read, every L1,
scratchpad and fetch buffer, every RDC and LLC slice, and every translation cache. -/
def memoryKept (s t : State) : Prop :=
  t.mem = s.mem ∧ t.memErr = s.memErr ∧ t.memFlip = s.memFlip ∧ t.aliasLines = s.aliasLines ∧ t.worldMap = s.worldMap ∧ t.rcbs = s.rcbs ∧ t.termTlb = s.termTlb ∧
  (∀ g, (getCore t g).l1 = (getCore s g).l1 ∧ (getCore t g).scratch = (getCore s g).scratch ∧ (getCore t g).scratchErr = (getCore s g).scratchErr ∧
    (getCore t g).fetchBuf = (getCore s g).fetchBuf ∧ (getCore t g).tlb = (getCore s g).tlb ∧ (getCore t g).fifo = (getCore s g).fifo) ∧
  (∀ f, (getFld t f).rdc = (getFld s f).rdc ∧ (getFld t f).slices = (getFld s f).slices ∧ (getFld t f).walkTlb = (getFld s f).walkTlb ∧
    (getFld t f).walkCache = (getFld s f).walkCache ∧ (getFld t f).watches = (getFld s f).watches)

/-- Between `s` and `t` only registers in `D` (rank and specifier number) of block `b` may have changed. -/
structure OnlyRegs (b : Nat) (D : Nat → Nat → Prop) (s t : State) : Prop where
  memory : memoryKept s t
  blocks : ∀ b', blockKept (getBlk s b') (getBlk t b')
  kept   : ∀ b' r, threadKept (getTh s b' r) (getTh t b' r)
  regs   : ∀ b' r num, ¬(b' = b ∧ D r num) → regAt t b' r num = regAt s b' r num

/-- The registers an instruction's word names as destinations, for the active threads (R49, R319). -/
def destRegs (i : Instr) (c : Ctx) (r num : Nat) : Prop :=
  (∃ l ∈ c.active, l.2 = r) ∧ ∃ u ∈ (shape i).writes, u.spec.toNat ≤ num ∧ num < u.spec.toNat + u.n

-- Memory as a core reads it -------------------------------------------------------------------------------------

/-- A byte of a line. -/
def lineByte (d : BitVec 1024) (i : Nat) : Byte := bits d (8 * i) 8
/-- The byte a core's L1 would answer with, where it has it (R135). -/
def l1Byte (s : State) (g pa : Nat) : Option Byte :=
  match mfind (getCore s g).l1 (pa / 128) with
  | some l => if bit l.valid (pa % 128) then some (lineByte l.data (pa % 128)) else none
  | none => none
/-- The byte a field's RDC would answer with, where it has it (R139). -/
def rdcByte (s : State) (f pa : Nat) : Option Byte :=
  match mfind (getFld s f).rdc (pa / 128) with
  | some l => if bit l.valid (pa % 128) then some (lineByte l.data (pa % 128)) else none
  | none => none

/-- The byte a core's own weak accesses see: its L1's copy, its field's copy of a line of another home, the LLC's copy of an alias line, or home memory
(R135, R139, R142, R155). -/
def coreByte (s : State) (g pa : Nat) : Byte :=
  match l1Byte s g pa with
  | some b => b
  | none =>
    match (if viaRdc (fieldOf g) (pa / 128) then rdcByte s (fieldOf g) pa else none) with
    | some b => b
    | none =>
      match mfind s.aliasLines (pa / 128) with
      | some l => lineByte l.data (pa % 128)
      | none => memGet s.mem pa
/-- No access of a list lies on a byte of memory. -/
def clearOf (xs : List (LaneAt × Loc)) (n pa : Nat) : Prop := ∀ x ∈ xs, ∀ p, x.2 = .g p → ¬(p ≤ pa ∧ pa < p + n)

/-- A map in canonical form: keys strictly rising. -/
def rising {α : Type} (m : SMap α) : Prop := m.Pairwise (fun a b => a.1 < b.1)
/-- The lines of memory that some accesses of `n` bytes touch. -/
def touched (xs : List (LaneAt × Loc)) (n : Nat) : List Nat :=
  (xs.flatMap (fun x => match x.2 with | .g p => [p / 128, (p + n - 1) / 128] | _ => [])).eraseDups
/-- Some lines have room in the caches of a core, of its field and of their homes: each cache, or each of its sets, holds them beside what it holds, so that
reading and writing them evicts nothing (R1, R131, R137). -/
structure Roomy (g : Nat) (lns : List Nat) (s : State) : Prop where
  order : rising (getCore s g).l1 ∧ rising (getFld s (fieldOf g)).rdc ∧ rising s.aliasLines
  l1 : (getCore s g).l1.length + (lns.filter (fun x => (mfind (getCore s g).l1 x).isNone)).length ≤ 6144
  rdc : ∀ ln ∈ lns, let mine := fun (x : Nat) => rdcSet (x * 128) == rdcSet (ln * 128)
    ((getFld s (fieldOf g)).rdc.filter (fun e => mine e.1)).length + (lns.filter (fun x => mine x && (mfind (getFld s (fieldOf g)).rdc x).isNone)).length ≤ 16
  views : ∀ ln ∈ lns, ∀ f, homeOf (ln * 128) = some f →
    let mine := fun (x : Nat) => homeOf (x * 128) == some f && llcSlice (x * 128) == llcSlice (ln * 128) && llcSet (x * 128) == llcSet (ln * 128)
    (aliasIn s f (ln * 128)).length + (lns.filter (fun x => mine x && (mfind s.aliasLines x).isNone)).length ≤
      ((upto 16).filter (fun w => role (getSlice s f (llcSlice (ln * 128))).inForce w == 0)).length

/-- The L1 of a core and the RDC of its field hold, of some lines, no clean byte of an aligned 16-byte part without the rest of it (R153). -/
def WholeLines (g : Nat) (lns : List Nat) (s : State) : Prop :=
  ∀ ln ∈ lns, (∀ l, mfind (getCore s g).l1 ln = some l → keptBytes l = l.valid) ∧ (∀ l, mfind (getFld s (fieldOf g)).rdc ln = some l → keptBytes l = l.valid)

-- What words leave alone ----------------------------------------------------------------------------------------

/-- Words that write registers and change nothing else of a thread, a block or memory (R379-R403, R368, R427, R437, R452). -/
def writesOnlyRegisters : Instr → Bool
  | .add _ | .sub _ | .addc _ | .subb _ | .mul _ | .mulhi _ | .mad _ | .madw _ | .div _ | .rem _ | .min _ | .max _ | .abs _ | .neg _ | .and _ | .or _ | .xor _ | .not _
  | .andn _ | .shl _ | .shr _ | .sar _ | .rot _ | .bfe _ | .bfi _ | .popc _ | .clz _ | .ctz _ | .brev _ | .sel _ | .cmp _ | .mov _ | .movi _ | .lea _ | .add64 _ | .sub64 _
  | .mad64 _ | .pand _ | .por _ | .pxor _ | .pnot _ | .pmov _ => true
  | .fadd _ | .fsub _ | .fmul _ | .fma _ | .fmin _ | .fmax _ | .fcmp _ | .fclass _ | .frnd _ | .frcp _ | .frsq _ | .fsqrt _ | .fexp2 _ | .flog2 _ | .fsin _ | .fcos _
  | .ftanh _ | .fsig _ | .fdot2 _ | .fdot4 _ | .cvt _ | .cvts _ | .pack2 _ | .unpack _ | .scalex _ | .q4enc _ | .q4dec _ => true
  | .ballot _ | .matchEq _ | .vote _ | .reduce _ | .scan _ | .shfl _ | .slotof _ | .rankof _ | .gets _ | .yprobe _ | .tagffs _ | .tagstat _ | .collq _ => true
  | _ => false
/-- Words that only direct their threads or their block's window: a next PC, a wait, a mark of the clause (R349-R355, R359, R363). -/
def directsThreads : Instr → Bool
  | .nop _ | .br _ | .brx _ | .call _ | .callx _ | .ret _ | .exit _ | .marshal _ | .marshalRank _ | .yield _ | .sleep _ | .preemptOff _ | .preemptOn _ => true
  | _ => false
/-- Between `s` and `t` nothing changed but registers in `D` of block `b`, next PCs, waits and windows. -/
structure OnlyDirected (b : Nat) (D : Nat → Nat → Prop) (s t : State) : Prop where
  memory : memoryKept s t
  blocks : ∀ b', blockKept (getBlk s b') { getBlk t b' with holders := (getBlk s b').holders, winStart := (getBlk s b').winStart }
  kept   : ∀ b' r, threadKept (getTh s b' r) { getTh t b' r with nextPc := (getTh s b' r).nextPc, via := (getTh s b' r).via, waits := (getTh s b' r).waits, began := (getTh s b' r).began }
  regs   : ∀ b' r num, ¬(b' = b ∧ D r num) → regAt t b' r num = regAt s b' r num

/-- A thread has taken a trap: it is in its handler with the trap registers of `i`, and its registers, flags and waits are as they were (R84-R88). -/
structure InHandler (entry : DWord) (i : TrapInfo) (t u : Thread) : Prop where
  state   : u.trap = .handler
  pc      : u.pc = entry ∧ u.nextPc = none
  code    : nbits u.cause 0 8 = i.code.toNat
  detail  : nbits u.cause 8 8 = i.detail.toNat
  rep     : nbits u.cause 16 16 = (if i.rep.isSome then 1 else 0)
  trappc  : u.trappc = i.pc
  trapva  : u.trapva = i.va
  keptRep : u.keptRep = (match i.rep with | some (d, n) => n ++ d | none => 0)
  cleared : u.raised = none
  kept    : u.vregs = t.vregs ∧ u.sregs = t.sregs ∧ u.preds = t.preds ∧ u.flags = t.flags ∧ u.waits = t.waits ∧ u.live = t.live ∧ u.place = t.place

/-- After every step: a consist that is marked eligible belongs to a resident block, waits on no fetch, and stands at a clause boundary or in a suspended
clause (R26, R27, R230). -/
def Settled (s : State) : Prop :=
  ∀ e ∈ s.cores, ∀ x ∈ e.2.consists, x.2.eligible ≠ none →
    (getBlk s x.2.blk).phase = .resident ∧ x.2.fetchWait = none ∧ (∀ cl, x.2.clause = some cl → cl.suspended = true)

end Sys2Proof.Machine
end

