-- ==== Sys2Proof/Certificates/Slice0/Obligations.lean ====
section
/-! DEFINITION. The statements for the provers. Values chosen by the model, not by the spec, are named in the docstrings of the statements that rest on them. -/
open Sys2Proof Sys2Proof.Machine

-- Instruction words that write registers --------------------------------------------------------------------------------

/-- Integer arithmetic (R379-R381): the result of each instruction from its exact value, in the destination of every active thread. -/
def Obligations.IntegerResults : Prop :=
  ∀ (f : FmtA) (s : State) (c : Ctx),
    let ty := f.ty.toNat
    let A := fun l => sval ty (opA c f ty l)
    let B := fun l => sval ty (opB c f ty l)
    let X := fun l => sval ty (opC c f ty l)
    let gives := fun (i : Instr) (v : Nat × Nat → Int) => Issues i s c → exec i s = .next (issued i c s (writeTy c f.d ty (fun l => wrap (tyW ty) (v l)) s))
    gives (.add f) (fun l => satTo ty (bit f.mods 0) (A l + B l)) ∧
    gives (.sub f) (fun l => satTo ty (bit f.mods 0) (A l - B l)) ∧
    gives (.mul f) (fun l => A l * B l) ∧
    gives (.mulhi f) (fun l => A l * B l / (2 ^ tyW ty : Nat)) ∧
    gives (.mad f) (fun l => A l * B l + X l) ∧
    gives (.div f) (fun l => if B l = 0 then (if A l < 0 then tyMin ty else tyMax ty) else (A l).tdiv (B l)) ∧
    gives (.rem f) (fun l => if B l = 0 then A l else A l - B l * (A l).tdiv (B l)) ∧
    gives (.min f) (fun l => min (A l) (B l)) ∧
    gives (.max f) (fun l => max (A l) (B l)) ∧
    gives (.abs f) (fun l => satTo ty (bit f.mods 0) (A l).natAbs) ∧
    gives (.neg f) (fun l => satTo ty (bit f.mods 0) (-(A l)))

/-- Carries and wide results (R380, R387): `addc` and `subb` read C as a carry or borrow and write it back after the result, for p7 a carry of 1 and no write; `madw`,
`add64`, `sub64` and `mad64` write 64 bits. -/
def Obligations.CarryAndWideResults : Prop :=
  ∀ (f : FmtA) (s : State) (c : Ctx),
    let ty := f.ty.toNat
    let a := fun l => opA c f ty l
    let b := fun l => opB c f ty l
    let ci := fun (l : Nat × Nat) => if srcP c l.2 f.c then 1 else 0
    let wide := fun (i : Instr) (v : Nat × Nat → Int) => Issues i s c → exec i s = .next (issued i c s (writeLanes c f.d 2 (fun l => wrap 64 (v l)) s))
    let A64 := fun (l : Nat × Nat) => ((srcA c f 3 false l.1 l.2 : Nat) : Int)
    let B := fun l => sval ty (b l)
    let C64 := fun (l : Nat × Nat) => ((src64 c l.2 f.c : Nat) : Int)
    (Issues (.addc f) s c → exec (.addc f) s = .next (issued (.addc f) c s
      (writeP c f.c (fun l => decide (2 ^ tyW ty ≤ a l + b l + ci l)) (writeTy c f.d ty (fun l => (a l + b l + ci l) % 2 ^ tyW ty) s)))) ∧
    (Issues (.subb f) s c → exec (.subb f) s = .next (issued (.subb f) c s
      (writeP c f.c (fun l => decide ((a l : Int) - b l - (ci l : Nat) < 0)) (writeTy c f.d ty (fun l => wrap (tyW ty) ((a l : Int) - b l - (ci l : Nat))) s)))) ∧
    wide (.madw f) (fun l => sval ty (a l) * B l + C64 l) ∧
    wide (.add64 f) (fun l => A64 l + B l) ∧
    wide (.sub64 f) (fun l => A64 l - B l) ∧
    wide (.mad64 f) (fun l => A64 l * B l + C64 l) ∧
    (∀ r, srcP c r 0x147 = true) ∧ (∀ v b r num, regAt (writeP c 0x147 v s) b r num = regAt s b r num)

/-- Bitwise, shift, field and counting instructions (R379, R382): results on the w bits of the type, k from the r32 operand. -/
def Obligations.BitResults : Prop :=
  ∀ (f : FmtA) (s : State) (c : Ctx),
    let ty := f.ty.toNat
    let w := tyW ty
    let a := fun l => opA c f ty l
    let b := fun l => opB c f ty l
    let k := fun (l : Nat × Nat) => src32 c l.2 f.b f.imm
    let gives := fun (i : Instr) (v : Nat × Nat → Nat) => Issues i s c → exec i s = .next (issued i c s (writeTy c f.d ty v s))
    let counts := fun (i : Instr) (v : Nat × Nat → Nat) => Issues i s c → exec i s = .next (issued i c s (writeLanes c f.d 1 v s))
    gives (.and f) (fun l => a l &&& b l) ∧
    gives (.or f) (fun l => a l ||| b l) ∧
    gives (.xor f) (fun l => a l ^^^ b l) ∧
    gives (.not f) (fun l => 2 ^ w - 1 - a l) ∧
    gives (.andn f) (fun l => a l &&& (2 ^ w - 1 - b l)) ∧
    gives (.shl f) (fun l => if w ≤ k l then 0 else a l * 2 ^ k l % 2 ^ w) ∧
    gives (.shr f) (fun l => if w ≤ k l then 0 else a l / 2 ^ k l) ∧
    gives (.sar f) (fun l => wrap w (toSigned w (a l) / (2 ^ min (k l) (w - 1) : Nat))) ∧
    gives (.rot f) (fun l => (a l * 2 ^ (k l % w) + a l / 2 ^ (w - k l % w)) % 2 ^ w) ∧
    gives (.bfe f) (fun l => bfeOf (isI ty) w (a l) (k l)) ∧
    gives (.bfi f) (fun l => bfiOf w (a l) (b l) (src32 c l.2 f.c f.imm)) ∧
    gives (.brev f) (fun l => revBits w (a l)) ∧
    counts (.popc f) (fun l => popcOf w (a l)) ∧
    counts (.clz f) (fun l => clzOf w (a l)) ∧
    counts (.ctz f) (fun l => ctzOf w (a l))

/-- Selection, comparison, moves, addresses and predicates (R383-R388). -/
def Obligations.MoveAndPredicateResults : Prop :=
  ∀ (f : FmtA) (fi : FmtI) (fm : FmtM) (s : State) (c : Ctx),
    let ty := f.ty.toNat
    let p := fun (spec : BitVec 9) (l : Nat × Nat) => srcP c l.2 spec
    let gives := fun (i : Instr) (v : Nat × Nat → Nat) => Issues i s c → exec i s = .next (issued i c s (writeTy c f.d ty v s))
    let pred := fun (i : Instr) (v : Nat × Nat → Bool) => Issues i s c → exec i s = .next (issued i c s (writeP c f.d v s))
    gives (.sel f) (fun l => if p f.c l then srcA c f ty false l.1 l.2 else srcVal c l.2 ty f.b f.imm) ∧
    gives (.mov f) (fun l => srcA c f ty false l.1 l.2) ∧
    (Issues (.movi fi) s c → exec (.movi fi) s = .next (issued (.movi fi) c s (writeLanes c fi.d (if is64 fi.ty.toNat then 2 else 1)
      (fun _ => if fi.ty = 3 ∨ fi.ty = 7 then wrap 64 fi.imm.toInt else fi.imm.toNat) s))) ∧
    (Issues (.lea fm) s c → exec (.lea fm) s = .next (issued (.lea fm) c s (writeLanes c fm.data (if isG fm then 2 else 1) (fun l =>
      let a := addrM c fm l
      let k := getBlk s c.blk
      if fm.space ≠ 1 then a else if a < k.scratchSize then 0x1000000 + c.g % 256 * 0x40000 + k.scratchStart + a else 0xFFFFFFFF) s))) ∧
    pred (.cmp f) (fun l => combine (nbits f.mods 3 2) (condHolds (nbits f.mods 0 3) (sval ty (opA c f ty l)) (sval ty (opB c f ty l))) (p f.c l)) ∧
    pred (.pand f) (fun l => srcAP c f l.1 l.2 && p f.b l) ∧
    pred (.por f) (fun l => srcAP c f l.1 l.2 || p f.b l) ∧
    pred (.pxor f) (fun l => srcAP c f l.1 l.2 != p f.b l) ∧
    pred (.pnot f) (fun l => !srcAP c f l.1 l.2) ∧
    pred (.pmov f) (fun l => srcAP c f l.1 l.2)

/-- Floating-point arithmetic, functions and tests (R389-R392): each element is rounded once, and clamped to [0, 1] with `.sat`. -/
def Obligations.FloatResults : Prop :=
  ∀ (f : FmtA) (s : State) (c : Ctx),
    let ty := f.ty.toNat
    let fm := fmtOf ty
    let A := fun (l : Nat × Nat) (i : Nat) => fel ty (srcA c f ty false l.1 l.2) i
    let B := fun (l : Nat × Nat) (i : Nat) => fel ty (srcVal c l.2 ty f.b f.imm) i
    let X := fun (l : Nat × Nat) (i : Nat) => fel ty (srcVal c l.2 ty f.c f.imm) i
    let gives := fun (sat : Bool) (i : Instr) (v : Nat × Nat → Nat → FV) => Issues i s c → exec i s = .next (issued i c s (writeTy c f.d ty
      (fun l => joinEls ty (elemN ty) (fun e => if sat then satUnit fm (fround fm (v l e)) else fround fm (v l e))) s))
    let pred := fun (i : Instr) (v : Nat × Nat → Bool) => Issues i s c → exec i s = .next (issued i c s (writeP c f.d v s))
    gives (bit f.mods 0) (.fadd f) (fun l e => fvAdd (A l e) (B l e)) ∧
    gives (bit f.mods 0) (.fsub f) (fun l e => fvSub (A l e) (B l e)) ∧
    gives (bit f.mods 0) (.fmul f) (fun l e => fvMul (A l e) (B l e)) ∧
    gives (bit f.mods 0) (.fma f) (fun l e => fvFma (A l e) (B l e) (X l e)) ∧
    gives false (.fmin f) (fun l e => fvMin (A l e) (B l e)) ∧
    gives false (.fmax f) (fun l e => fvMax (A l e) (B l e)) ∧
    gives false (.frnd f) (fun l e => fvIntegral (frndMode (nbits f.mods 0 2)) (A l e)) ∧
    gives false (.frcp f) (fun l e => fvFn .rcp (A l e)) ∧
    gives false (.frsq f) (fun l e => fvFn .rsq (A l e)) ∧
    gives false (.fsqrt f) (fun l e => fvFn .sqrt (A l e)) ∧
    gives false (.fexp2 f) (fun l e => fvFn .exp2 (A l e)) ∧
    gives false (.flog2 f) (fun l e => fvFn .log2 (A l e)) ∧
    gives false (.fsin f) (fun l e => fvFn .sin (A l e)) ∧
    gives false (.fcos f) (fun l e => fvFn .cos (A l e)) ∧
    gives false (.ftanh f) (fun l e => fvFn .tanh (A l e)) ∧
    gives false (.fsig f) (fun l e => fvFn .sig (A l e)) ∧
    pred (.fcmp f) (fun l => combine (nbits f.mods 3 2) (fcondHolds (nbits f.mods 0 3) (A l 0) (B l 0)) (srcP c l.2 f.c)) ∧
    pred (.fclass f) (fun l => bit f.imm (fclassOf fm (A l 0))) ∧
    (Issues (.fdot2 f) s c → exec (.fdot2 f) s = .next (issued (.fdot2 f) c s (writeLanes c f.d 1 (fun l =>
      dotOf ty 2 (srcA c f ty false l.1 l.2) (srcVal c l.2 ty f.b 0) (fel 12 (srcVal c l.2 12 f.c 0) 0)) s))) ∧
    (Issues (.fdot4 f) s c → exec (.fdot4 f) s = .next (issued (.fdot4 f) c s (writeLanes c f.d 1 (fun l =>
      dotOf ty 4 (srcA c f ty true l.1 l.2) (srcVal c l.2 ty f.b 0 true) (fel 12 (srcVal c l.2 12 f.c 0) 0)) s)))

/-- Conversions, packing and Q4X (R393-R399). -/
def Obligations.ConversionResults : Prop :=
  ∀ (f : FmtA) (s : State) (c : Ctx),
    let ty := f.ty.toNat
    let w := tyW ty
    let st := nbits f.mods 0 5
    let gives := fun (i : Instr) (v : Nat × Nat → Nat) => Issues i s c → exec i s = .next (issued i c s (writeTy c f.d ty v s))
    let one := fun (i : Instr) (v : Nat × Nat → Nat) => Issues i s c → exec i s = .next (issued i c s (writeLanes c f.d 1 v s))
    let narrow := fun (x : Nat) => narrowF (fmtOf ty) (narrowRule ty) (bit f.mods 1) (fel 12 x 0)
    gives (.cvt f) (fun l => convert ty st (cvtMode (nbits f.imm 0 2) ty) false (srcA c f st false l.1 l.2)) ∧
    gives (.cvts f) (fun l => convert ty st (narrowRule ty) true (srcA c f st false l.1 l.2)) ∧
    one (.pack2 f) (fun l =>
      let x := narrow (srcA c f 12 false l.1 l.2)
      let y := narrow (srcVal c l.2 12 f.b f.imm)
      let old := (regOf c l.2 f.d.toNat).toNat
      if w = 16 then y * 65536 + x
      else if bit f.mods 0 then old % 65536 + (y * 256 + x) * 65536
      else old / 65536 * 65536 + y * 256 + x) ∧
    one (.unpack f) (fun l =>
      let e := srcA c f ty true l.1 l.2 / 2 ^ (w * nbits f.mods 0 2) % 2 ^ w
      if isFloat ty then narrowF fmtF32 .even false (fdecode (fmtOf ty) e) else wrap 32 (sval ty e)) ∧
    gives (.scalex f) (fun l =>
      let n := srcVal c l.2 6 f.b f.imm
      joinEls ty (elemN ty) (fun i =>
        let v := fel ty (srcA c f ty false l.1 l.2) i
        fround (fmtOf ty) (if bit f.mods 0 then (if n % 256 = 255 then canonNan else fvScale v ((n % 256 : Nat) - 127)) else fvScale v (toSigned 32 n)))) ∧
    one (.q4enc f) (fun l =>
      let x := positions c fzero (fun m => fel ty (srcVal c m.2 ty f.a 0) 0)
      let ex := if bit f.mods 0 then q4exp x else src32 c (lead c) f.b f.imm % 256
      let enc := if ex = 255 then (0, 0x00FF) else q4encode x ex
      if bit f.mods 1 then enc.2.toNat else nbits enc.1 (32 * (l.1 % 4)) 32) ∧
    gives (.q4dec f) (fun l =>
      let word := fun (q : Nat) => match slotRank c q with | some r => srcVal c r 2 f.a 0 | none => 0
      let data : BitVec 128 := BitVec.ofNat 128 (word 0 + word 1 * 2 ^ 32 + word 2 * 2 ^ 64 + word 3 * 2 ^ 96)
      let rec_ : BitVec 16 := match slotRank c 0 with | some r => BitVec.ofNat 16 (src32 c r f.b 0) | none => 0
      narrowF (fmtOf ty) .even false (q4elem data rec_ l.1))

/-- Cross-lane instructions (R120-R122, R400-R403). -/
def Obligations.CrossLaneResults : Prop :=
  ∀ (f : FmtA) (s : State) (c : Ctx),
    let ty := f.ty.toNat
    let op := nbits f.mods 0 3
    let gives := fun (i : Instr) (v : Nat × Nat → Nat) => Issues i s c → exec i s = .next (issued i c s (writeTy c f.d ty v s))
    let one := fun (i : Instr) (v : Nat × Nat → Nat) => Issues i s c → exec i s = .next (issued i c s (writeLanes c f.d 1 v s))
    let lg := 5 - nbits f.mods 3 3
    let scanned := [1, 2, 4, 8, 16].foldl (fun x d => scanStep (redOp ty op) d x) (redVals f c)
    one (.ballot f) (fun _ => slotMask (c.active.filter (fun l => srcP c l.2 f.a))) ∧
    one (.matchEq f) (fun l => slotMask (c.active.filter (fun m => opA c f ty m == opA c f ty l))) ∧
    (Issues (.vote f) s c → exec (.vote f) s = .next (issued (.vote f) c s (writeP c f.d (fun _ => voteOf (nbits f.mods 0 2) (c.active.map (fun l => srcP c l.2 f.a))) s))) ∧
    gives (.reduce f) (fun l => redTree (redOp ty op) lg (((redVals f c).drop (l.1 / 2 ^ lg * 2 ^ lg)).take (2 ^ lg))) ∧
    gives (.scan f) (fun l => if bit f.mods 3 then (if l.1 = 0 then redId ty op else scanned.getD (l.1 - 1) 0) else scanned.getD l.1 0) ∧
    gives (.shfl f) (fun l =>
      match (shflSource (nbits f.mods 0 2) l.1 (src32 c l.2 f.b f.imm)).bind (slotRank c) with
      | some r => srcVal c r ty f.a 0
      | none => if bit f.mods 6 then 0 else srcVal c l.2 ty f.a 0) ∧
    one (.slotof f) (fun l =>
      let r := opA c f 10 l
      (((membersOf c.slots).find? (fun m => m.2 == r)).map (·.1)).getD 0xFFFFFFFF) ∧
    one (.rankof f) (fun l => ((slotRank c (opA c f 10 l)).getD 0xFFFFFFFF))


-- Instruction words of the control group --------------------------------------------------------------------------------

/-- Control transfers (R349-R351): the next PC of each active thread, the link register, the mark of an exit, the recorded cause of `trap`. -/
def Obligations.TransferResults : Prop :=
  ∀ (fi : FmtI) (f : FmtA) (s : State) (c : Ctx),
    let gives := fun (i : Instr) (t : State) => Issues i s c → exec i s = .next (issued i c s t)
    let goTo := fun (dst : Nat × Nat → DWord) (s : State) =>
      c.active.foldl (fun s l => modTh c.blk l.2 (fun t => { t with nextPc := some (dst l), via := .branch }) s) s
    let rel := slotAddr (slotNum c.pc + fi.imm.toInt)
    let pair := fun (l : Nat × Nat) => BitVec.ofNat 64 (src64 c l.2 f.a)
    let link := slotAddr (slotNum c.pc + 1)
    gives (.br fi) (goTo (fun _ => rel) s) ∧
    gives (.brx f) (goTo pair s) ∧
    gives (.call fi) (goTo (fun _ => rel) (writeLanes c fi.d 2 (fun _ => link.toNat) s)) ∧
    gives (.callx f) (goTo pair (writeLanes c f.d 2 (fun _ => link.toNat) s)) ∧
    gives (.ret f) (goTo pair s) ∧
    gives (.exit f) (modClause c.g c.cn (fun cl => { cl with exits := cl.exits ++ c.active.map (·.2) }) s) ∧
    gives (.trap fi) (modClause c.g c.cn (fun cl => { cl with stopped := cl.stopped ++ c.active.map (·.2) })
      (c.active.foldl (fun s l => recordTrap c.blk l.2 cTrap (nbits fi.imm 0 8) link 0 none s) s))

/-- `tret` (R86, R351): each active thread, in a handler, returns to TRAPPC with TRAPCAUSE and REPCOUNT 0; outside a handler it raises ILLEGAL_OP, each thread by itself. -/
def Obligations.TrapReturn : Prop :=
  ∀ (f : FmtA) (s : State) (c : Ctx), Issues (.tret f) s c → (c.active.map (·.2)).Nodup →
    exec (.tret f) s = .next (issued (.tret f) c s (c.active.foldl (fun s l => if (getTh s c.blk l.2).trap = .handler
      then modTh c.blk l.2 leaveHandler s else raise c [l] cIllegalOp s) s)) ∧
    ((∀ l ∈ c.active, (getTh s c.blk l.2).trap = .handler) →
      exec (.tret f) s = .next (issued (.tret f) c s (c.active.foldl (fun s l => modTh c.blk l.2 (fun t =>
        { t with nextPc := some t.trappc, via := .tret t.trappcWritten, cause := 0, keptRep := 0, trap := .normal }) s) s))) ∧
    ((∀ l ∈ c.active, (getTh s c.blk l.2).trap ≠ .handler) →
      exec (.tret f) s = .next (issued (.tret f) c s (c.active.foldl (fun s l => raise c [l] cIllegalOp s) s)))

/-- `clause` (R26, R311, R312, R322): where the core in turn stands at a boundary, no deferred cause is due, every line of the clause is fetched whole and each
thread comes by fall-through or to a slot whose TARGETS bit is 1, the clause begins: its set-flags are cleared for its threads, its slots are the header and the LEN slots after
it, and the second slots of its pairs are those that the PAIR bits of their lines mark (R313). -/
def Obligations.ClauseBegins : Prop :=
  ∀ (f : FmtH) (s s' : State) (g cn : Nat) (k : Consist) (pc : DWord) (ds : List (BitVec 512)),
    s.turn = .core g → pick s g = some cn → consistOf s g cn = some k → k.clause = none → membersOf k.slots ≠ [] →
    (∀ l ∈ membersOf k.slots, (getTh s k.blk l.2).pc = pc ∧ (getTh s k.blk l.2).deferred = [] ∧ (getTh s k.blk l.2).raised = none) →
    slotOk pc = true → headerOk (encH 0 f) = true →
    fetchLines g k.blk (linesOf (slotNum pc) f.len.toNat) s = (ds, none, s') → consistOf s' g cn = some k →
    (∀ l ∈ membersOf k.slots, (getTh s' k.blk l.2).via = .fall ∨ targetBit (ds.headD 0) (nbits pc 0 6 / 12) = true) → ds.all parityOk = true → ds.all lineRsvOk = true →
    let line := fun (n : Nat) => ds.getD (n / 5 - slotNum pc / 5) 0
    exec (.clause f) s = .next (perfCore g k.blk 0x04 1 (modCore g (fun c => { c with running := some cn })
      (modConsist g cn (fun k => { k with eligible := none, again := false, clause := some {
        id := s'.nextId, header := pc, len := f.len.toNat
        words := encH 0 f :: (upto f.len.toNat).map (fun i => slotWord (line (slotNum pc + 1 + i)) ((slotNum pc + 1 + i) % 5))
        pairs := (upto f.len.toNat).filter (fun i => i != 0 && (slotNum pc + 1 + i) % 5 != 0 && bit (line (slotNum pc + 1 + i)) (494 + (slotNum pc + 1 + i) % 5)) } })
        ((membersOf k.slots).foldl (fun s l => modTh k.blk l.2 (clearFlags s'.nextId f.seta.toNat f.setb.toNat) s) { s' with nextId := s'.nextId + 1 }))))

/-- The clause's own words (R352-R357): `nop`, `marshal` in both forms, `yield`, and `repeat`, which acts on the consist whatever its guard, and with a count of
0 passes over the instruction after it. -/
def Obligations.ClauseControlResults : Prop :=
  ∀ (f : FmtA) (fi : FmtI) (s : State) (c : Ctx),
    let gives := fun (i : Instr) (t : State) => Issues i s c → exec i s = .next (issued i c s t)
    let all := { c with active := c.exec, all := c.exec }
    let first := ((membersOf c.slots).map (·.2)).headD 0
    let count := if bit fi.mods 4 then min (regOf c first fi.a.toNat).toNat 65535 else nbits fi.imm 0 16
    gives (.nop f) s ∧
    gives (.marshal f) (modClause c.g c.cn (fun cl => { cl with marshalled := true }) s) ∧
    gives (.marshalRank f) (modClause c.g c.cn (fun cl =>
      { cl with marshalled := true, rankWait := cl.rankWait ++ (c.active.map (·.2)).filter (fun r => (getTh s c.blk r).trap != .handler) }) s) ∧
    gives (.yield f) (modClause c.g c.cn (fun cl => { cl with yielded := true }) s) ∧
    (context (.repeatN fi) s = some c → Ready (.repeatN fi) s all → count ≠ 0 →
      exec (.repeatN fi) s = .next (issued (.repeatN fi) all s (modClause c.g c.cn (fun cl => { cl with rep := some {
        total := count, done := 0, step := nbits fi.mods 7 4 + 1, mask := bits fi.mods 0 4, guarded := !(fi.g.neg == 0 && fi.g.pred == 7) } }) s))) ∧
    (∀ k cl, context (.repeatN fi) s = some c → Ready (.repeatN fi) s all → count = 0 → consistOf s c.g c.cn = some k → k.clause = some cl →
      repeatBad fi (cl.words.getD (2 + cl.issued) 0) = false →
      exec (.repeatN fi) s = .next (issued (.repeatN fi) all s (modClause c.g c.cn (fun cl => { cl with issued := cl.issued + 1 }) s)))

/-- A word inside a `repeat` (R356, R357): it issues with the masked register fields moved by DONE times STEP, as long as none passes v255; in format A D, A, B and C, in
format I, that of `movi`, D, and in format M DATA, BASE and INDEX. Where one passes v255 a word that may issue raises REG_RANGE on its active threads and does nothing else. -/
def Obligations.RepeatSteps : Prop :=
  ∀ (s : State) (c : Ctx) (r : Rep), c.rep = some r →
    let k := r.done * r.step
    let moved := fun (n : Nat) (old new : BitVec 9) => new.toNat = old.toNat + (if bit r.mask n then k else 0)
    let past := fun (n : Nat) (spec : BitVec 9) => bit r.mask n = true ∧ 256 ≤ spec.toNat + k
    let mayIssue := fun (i i' : Instr) => wordCause i' i c s = none ∧ guardPending i' c s = false ∧ c.active ≠ []
    (∀ (f f' : FmtA) (x : FmtA → Instr) (eff : FmtA → Ctx → State → Fin), context (x f) s = some c → stepA r.mask k f = some f' →
      issueA x f eff s = .next (issueIn (x f) (x f') false (eff f') c s) ∧
      moved 0 f.d f'.d ∧ moved 1 f.a f'.a ∧ moved 2 f.b f'.b ∧ moved 3 f.c f'.c ∧
      f'.ty = f.ty ∧ f'.mods = f.mods ∧ f'.imm = f.imm ∧ f'.g = f.g ∧ f'.am = f.am) ∧
    (∀ (f f' : FmtI), context (.movi f) s = some c → stepI r.mask k f = some f' →
      exec (.movi f) s = .next (issueIn (.movi f) (.movi f') false (effMovi f') c s) ∧
      moved 0 f.d f'.d ∧ f'.a = f.a ∧ f'.am = f.am ∧ f'.rsv = f.rsv ∧ f'.ty = f.ty ∧ f'.mods = f.mods ∧ f'.imm = f.imm ∧ f'.g = f.g) ∧
    (∀ (f f' : FmtM) (x : FmtM → Instr) (eff : FmtM → Ctx → State → Fin), context (x f) s = some c → stepM r.mask k f = some f' →
      issueM x f eff s = .next (issueIn (x f) (x f') false (eff f') c s) ∧
      moved 0 f.data f'.data ∧ moved 1 f.base f'.base ∧ moved 2 f.index f'.index ∧
      f'.width = f.width ∧ f'.space = f.space ∧ f'.order = f.order ∧ f'.scope = f.scope ∧ f'.hint = f.hint ∧ f'.offset = f.offset ∧ f'.g = f.g ∧ f'.am = f.am) ∧
    (∀ (f : FmtA) (x : FmtA → Instr) (eff : FmtA → Ctx → State → Fin), context (x f) s = some c → past 0 f.d ∨ past 1 f.a ∨ past 2 f.b ∨ past 3 f.c →
      mayIssue (x f) (x f) → issueA x f eff s = .next (advance c (raiseOperand (x f) c c.active cRegRange s))) ∧
    (∀ f : FmtI, context (.movi f) s = some c → past 0 f.d → mayIssue (.movi f) (.movi f) → exec (.movi f) s = .next (advance c (raise c c.active cRegRange s))) ∧
    (∀ (f : FmtM) (x : FmtM → Instr) (eff : FmtM → Ctx → State → Fin), context (x f) s = some c → past 0 f.data ∨ past 1 f.base ∨ past 2 f.index →
      mayIssue (x f) (x f) → issueM x f eff s = .next (advance c (raiseOperand (x f) c c.active cRegRange s)))

/-- Waits, windows and barriers (R359, R363-R365): each begins or changes its wait for every active thread; every arrival of a `bar` comes before its waits. A sleep's
cycles count from the clause's end (assumption 28). -/
def Obligations.WaitResults : Prop :=
  ∀ (f : FmtA) (s : State) (c : Ctx),
    let gives := fun (i : Instr) (t : State) => Issues i s c → exec i s = .next (issued i c s t)
    let each := fun (h : Nat → State → State) => c.active.foldl (fun s l => h l.2 s) s
    let no := nbits f.imm 0 4
    gives (.sleep f) (each (fun r s => if src32 c r f.a f.imm = 0 then s
      else modTh c.blk r (fun t => { t with waits := t.waits ++ [.doze (src32 c r f.a f.imm)], began := true }) s)) ∧
    gives (.preemptOff f) (modBlk c.blk (fun k => { k with
      winStart := if k.holders.isEmpty then nowOf s c.g else k.winStart
      holders := k.holders ++ (c.active.map (·.2)).filter (fun r => !k.holders.contains r) }) s) ∧
    gives (.preemptOn f) (each (fun r s => modBlk c.blk (fun k => { k with holders := k.holders.filter (· != r) }) s)) ∧
    gives (.bar f) (c.active.foldl (fun s l => barrierWait c.blk l.2 no s) (each (fun r s => arrive c.blk r no (nbits f.imm 4 12) s))) ∧
    gives (.bara f) (each (fun r s => arrive c.blk r no (nbits f.imm 4 12) s)) ∧
    gives (.barw f) (each (fun r s => barrierWait c.blk r no s))

/-- Address waits (R360, R362): `waitaddr` compares the location read at its home, bypassing copies, and waits where it is equal; `wakeaddr` wakes watches. -/
def Obligations.AddressWaitResults : Prop :=
  ∀ (f : FmtM) (s s' : State) (c : Ctx) (xs : List (LaneAt × Loc)),
    let n := widthOf f
    (Issues (.waitaddr f) s c → Reaches c { space := 0, n := n, align := true, acc := 0, detail := 0, code := 0, pt := 3 } (laneAddrs c (addrM c f)) s xs s' →
      exec (.waitaddr f) s = .next (issued (.waitaddr f) c s (xs.foldl (fun s x =>
        match x.2 with
        | .g pa =>
          let rd := rdLoc (secureOf s c.blk) c.g 3 false (.g pa) n s
          if (ofBytes 64 rd.1).toNat = dataVal c f x.1.1.2 % 2 ^ (8 * n) then
            let w := rd.2.nextId
            let s := addWatch { id := w, pa := pa, blk := c.blk, rank := x.1.1.2 } rd.2
            modTh c.blk x.1.1.2 (fun t => { t with waits := t.waits ++ [.address s.nextId], began := true }) { s with nextId := s.nextId + 1 }
          else rd.2
        | _ => s) s'))) ∧
    (Issues (.wakeaddr f) s c → Reaches c { space := 0, n := n, align := true, acc := 0, detail := 5, code := 8, consume := false } (laneAddrs c (addrM c f)) s xs s' →
      exec (.wakeaddr f) s = .next (issued (.wakeaddr f) c s (xs.foldl (fun s x =>
        match x.2 with
        | .g pa => wakeAt pa (if f.data = null then none else some (srcVal c x.1.1.2 10 f.data 0)) s
        | _ => s) s')))

/-- Register allotment (R63, R366, R367): `grow` and `growa` raise it where no earlier request of the block
waits and the charge fits the BACKING budgets of the region path, and else wait; `shrink` and `shrinka` lower it and
let waiting requests be tried; with none waiting, nothing else happens. The new allotment goes to D. -/
def Obligations.AllotmentResults : Prop :=
  ∀ (f : FmtA) (s : State) (c : Ctx),
    let gives := fun (i : Instr) (t : State) => Issues i s c → exec i s = .next (issued i c s t)
    let k := getBlk s c.blk
    let cur := k.allot
    let x := roundUp (src32 c (lead c) f.a f.imm) 8
    let up := fun (i : Instr) (kind n : Nat) =>
      (k.grows = [] → n ≤ cur ∨ backingRoom s k.region ((n - cur) * 4 * k.threads) = true → gives i (writeLanes c f.d 1 (fun _ => n) (setAllot c.blk n s))) ∧
      (k.grows ≠ [] ∨ (cur < n ∧ backingRoom s k.region ((n - cur) * 4 * k.threads) = false) → Issues i s c → ∃ t, exec i s = .next (issued i c s t) ∧ (getBlk t c.blk).allot = cur ∧
        (mfind s.blocks c.blk ≠ none → (getBlk t c.blk).grows = k.grows ++ [{
          id := s.nextId, kind := kind, x := src32 c (lead c) f.a f.imm, d := f.d, ranks := c.active.map (·.2), pc := c.pc, since := nowOf s c.g, out := s.nextId }]))
    up (.grow f) 0 (min 256 (cur + x)) ∧ up (.growa f) 1 (min 256 (max cur x)) ∧
    gives (.shrink f) (growWake (writeLanes c f.d 1 (fun _ => max 8 (cur - x)) (setAllot c.blk (max 8 (cur - x)) s))) ∧
    gives (.shrinka f) (growWake (writeLanes c f.d 1 (fun _ => max 8 (min cur x)) (setAllot c.blk (max 8 (min cur x)) s))) ∧
    ((∀ e ∈ s.blocks, e.2.grows = []) →
      gives (.shrink f) (writeLanes c f.d 1 (fun _ => max 8 (cur - x)) (setAllot c.blk (max 8 (cur - x)) s)) ∧
      gives (.shrinka f) (writeLanes c f.d 1 (fun _ => max 8 (min cur x)) (setAllot c.blk (max 8 (min cur x)) s)))

/-- Special registers, locations and dependences (R66-R68, R90, R368-R371): `gets` reads each register the spec names, `sets` writes TRAPPC in a handler and raises
PRIV outside one, `launch` hands its record to the Terminus, or waits while a pseudo-channel holds a page walk of it (R148), and takes with it the pseudo-channels that hold its
accesses, `depdec` sends its decrements, `locq` reports a location from the tables it reads. -/
def Obligations.SpecialAndLaunchResults : Prop :=
  ∀ (f : FmtA) (fm : FmtM) (s : State) (c : Ctx),
    let gives := fun (i : Instr) (t : State) => Issues i s c → exec i s = .next (issued i c s t)
    gives (.gets f) (writeLanes c f.d (if sp64 f.imm.toNat then 2 else 1) (fun l => special s c l.2 f.imm.toNat) s) ∧
    gives (.sets f) (c.active.foldl (fun s l => if (getTh s c.blk l.2).trap = .handler
      then modTh c.blk l.2 (fun t => { t with trappc := BitVec.ofNat 64 (src64 c l.2 f.a), trappcWritten := true }) s else raise c [l] cPriv s) s) ∧
    ((c.active.map (·.2)).Nodup → (∀ l ∈ c.active, (getTh s c.blk l.2).trap = .handler) →
      gives (.sets f) (c.active.foldl (fun s l => modTh c.blk l.2 (fun t => { t with trappc := BitVec.ofNat 64 (src64 c l.2 f.a), trappcWritten := true }) s) s)) ∧
    ((c.active.map (·.2)).Nodup → (∀ l ∈ c.active, (getTh s c.blk l.2).trap ≠ .handler) → gives (.sets f) (c.active.foldl (fun s l => raise c [l] cPriv s) s)) ∧
    (∀ x s2, resolve c.g c.blk { space := 0, n := 64, align := true, acc := 0, detail := 0, code := 0, pt := 2 } (src64 c (lead c) f.a) (release c.g 2 s) = (.loc x, s2) →
      Issues (.launch f) s c → (heldReach (release c.g 2 s) s2 ≠ [] → exec (.launch f) s = .next s) ∧
        (heldReach (release c.g 2 s) s2 = [] → ∃ t, exec (.launch f) s = .next (issued (.launch f) c s t) ∧
        let rd := rdLoc (secureOf s2 c.blk) c.g 2 false x 64 s2
        t.inflight = rd.2.inflight ++ [{
          blk := c.blk, ranks := c.active.map (·.2), d := f.d, image := setBits (ofBytes 512 rd.1) 0 8 1, queue := src32 c (lead c) f.b f.imm
          region := (getBlk s c.blk).region, out := rd.2.nextId, clause := c.clause, entry := none, pchs := heldReach s rd.2 }])) ∧
    gives (.depdec f) (writeLanes c f.d 1 (fun l => b2n (decide (4096 ≤ src32 c l.2 f.a f.imm))) (c.active.foldl (fun s l =>
      let n := src32 c l.2 f.a f.imm
      if n < 4096 then { release c.g 2 s with decs := (release c.g 2 s).decs ++ [n] } else release c.g 2 s) s)) ∧
    gives (.locq fm) (writeLanes c fm.data 1 (fun l => locqOf s c.g c.blk (BitVec.ofNat 64 (addrM c fm l))) (locqReads c fm s))

/-- Privileged words in a secure block (R233-R236, R372, R373): `trsync` releases and then, where invalidations of its threads are open, notes what it waits for; `tlbinv`
sends; `ctxsave` holds and, of a block that is not saved yet, requests the pre-emption of its unit and leaves its status to the save; `ctxload` checks and lets go, each with
its status; `errinj` inverts one or two bits of a register or a word, or arms a mismatch. Which later accesses a `trsync` holds back is read from R235 (assumption 38). -/
def Obligations.SystemResults : Prop :=
  ∀ (f : FmtA) (s : State) (c : Ctx),
    let gives := fun (i : Instr) (t : State) => Issues i s c → exec i s = .next (issued i c s t)
    let inv := fun (form va root : Nat) =>
      let t := startInval form va root (some c.blk) (c.active.map (·.2)) s.nextId c.clause { s with nextId := s.nextId + 1 }
      if t.invals.length = s.invals.length then t else pendOut c s.nextId false true t
    let named := handleBlk s (src64 c (lead c) f.a)
    let status := fun (v : Nat) (s : State) => writeLanes c f.d 1 (fun _ => v) s
    let r := release c.g 2 s
    let open_ := (r.invals.filter (fun v => v.blk == some c.blk && (c.active.map (·.2)).any (fun x => v.ranks.contains x))).map (·.id)
    gives (.trsync f) (if open_ = [] then r else pendOut c r.nextId false true (modBlk c.blk (fun k => { k with
      syncs := k.syncs ++ [{ out := r.nextId, ranks := c.active.map (·.2), invals := open_ }] }) { r with nextId := r.nextId + 1 })) ∧
    gives (.tlbinvVa f) (inv 0 (src64 c (lead c) f.a) (src64 c (lead c) f.b)) ∧
    gives (.tlbinvRoot f) (inv 1 0 (src64 c (lead c) f.b)) ∧
    gives (.tlbinvAll f) (inv 2 0 0) ∧
    (named = none → gives (.ctxsave f) (status 1 s) ∧ gives (.ctxload f) (status 1 s)) ∧
    (∀ k, named = some k → k.id = c.blk → gives (.ctxsave f) (status 3 s) ∧ gives (.ctxload f) (status 3 s)) ∧
    (∀ k, named = some k → k.id ≠ c.blk → k.phase = .saved →
      gives (.ctxsave f) (status 0 (modBlk k.id (fun k => { k with held := true }) s)) ∧
      ((ctxGood k.id s).1 = true → gives (.ctxload f) (status 0 (modBlk k.id (fun k => { k with held := false, halted := false }) (ctxGood k.id s).2))) ∧
      ((ctxGood k.id s).1 = false → gives (.ctxload f) (status 2 (ctxGood k.id s).2))) ∧
    (∀ k, named = some k → k.id ≠ c.blk → k.phase ≠ .saved → gives (.ctxload f) (status 4 s) ∧
      let held := modBlk k.id (fun k => { k with held := true }) s
      let going := preemptUnit k.id { held with nextId := held.nextId + 1 }
      let wait : CtxWait := { target := k.id, blk := c.blk, ranks := c.active.map (·.2), d := f.d, out := held.nextId, entry := none }
      gives (.ctxsave f) (pendOut c held.nextId (decide (f.d ≠ null)) false { going with ctxWaits := going.ctxWaits ++ [wait] }) ∧
      (mfind s.blocks k.id = some k → (getBlk going k.id).held = true ∧ (getBlk going k.id).phase = .stopping ∧ ∀ b ∈ unitOf s k.id, (getBlk going b).phase ≠ .resident)) ∧
    (nbits f.mods 0 3 ≤ 1 → gives (.errinj f) (c.active.foldl (fun s l => regError c.blk l.2 f.b.toNat (if nbits f.mods 0 3 = 1 then 3 else 1) s) s)) ∧
    (∀ s' xs, nbits f.mods 0 3 = 2 ∨ nbits f.mods 0 3 = 3 →
      Reaches c { space := 0, n := 8, align := true, acc := 0, detail := 0, code := 0, consume := false } (c.active.map (fun l => (l, src64 c l.2 f.a))) s xs s' →
      gives (.errinj f) (xs.foldl (fun s x => match x.2 with | .g pa => homeError true pa (nbits f.mods 0 3 == 3) s | _ => s) s')) ∧
    (nbits f.mods 0 3 = 4 → regShadow s (getBlk s c.blk).region = 0 → gives (.errinj f) s) ∧
    (nbits f.mods 0 3 = 4 → regShadow s (getBlk s c.blk).region ≠ 0 →
      gives (.errinj f) (c.active.foldl (fun s l => modTh c.blk l.2 (fun t => { t with shadowInj := true }) s) s))

/-- A word whose opcode is not defined, or, outside a secure block, a privileged word, raises its cause on every executing thread and does nothing else
(R324, R336, R337): each such thread has the cause recorded with the word's own PC and is in the Raised state. -/
def Obligations.RefusedWords : Prop :=
  ∀ (i : Instr) (s : State) (c : Ctx) (code : Nat), context i s = some c → c.rep = none → encode i ≠ none →
    (∀ f, i ≠ .repeatN f) → (∀ d, i ≠ .dnop d ∧ i ≠ .dend d ∧ i ≠ .dbarBar d ∧ i ≠ .dbarReady d ∧ i ≠ .dzero d ∧ i ≠ .dldacc d ∧ i ≠ .dstacc d ∧ i ≠ .dscale d ∧ i ≠ .dmma d) →
    wordCause i i c s = some code →
    exec i s = .next (advance c (raise c c.exec code s)) ∧
    (∀ w, i = .undefinedOpcode w → code = cIllegalOp) ∧
    (privileged i = true → secureOf s c.blk = false → code = cPriv) ∧
    (∀ l ∈ c.exec, mfind s.blocks c.blk ≠ none → mfind (getBlk s c.blk).members l.2 ≠ none → (getTh s c.blk l.2).raised = none →
      (getTh (raise c c.exec code s) c.blk l.2).raised = some { code := BitVec.ofNat 8 code, detail := 0, pc := c.pc, va := 0, rep := none })


-- Instruction words that access memory ----------------------------------------------------------------------------------

/-- Loads (R151, R160, R166, R411-R413): a release or promotion of the order is made, each active thread's bytes are read at the point of the order's scope,
they go to the destination, and the acquire of the order follows; `ldx` makes one access and gives its value to every active thread. -/
def Obligations.LoadResults : Prop :=
  ∀ (f : FmtM) (s s' : State) (c : Ctx) (xs : List (LaneAt × Loc)),
    let q := loadReq f
    let rd := laneReads c q.pt (f.hint == 1) q.n xs (before c f xs s')
    (Issues (.ld f) s c → Reaches c q (laneAddrs c (addrM c f)) s xs s' →
      exec (.ld f) s = .next (issued (.ld f) c s (after c f xs
        (writeLanes c f.data (dataN f) (fun l => ((rd.1.find? (fun v => v.1 == l.2)).map (·.2)).getD 0) rd.2)))) ∧
    (Issues (.ldx f) s c → Reaches c q ((laneAddrs c (addrM c f)).take 1) s xs s' →
      exec (.ldx f) s = .next (issued (.ldx f) c s (after c f xs (writeLanes c f.data (dataN f) (fun _ => (rd.1.headD (0, 0)).2) rd.2))))

/-- Stores (R152, R161, R414): a release of the order is made, and then each active thread's value is written, in slot order, at the point of the order's scope,
or, weak, in the L1, or with `.nt` at the field-scope point. -/
def Obligations.StoreResults : Prop :=
  ∀ (f : FmtM) (s s' : State) (c : Ctx) (xs : List (LaneAt × Loc)),
    let n := widthOf f
    let nt := if f.hint = 2 then 1 else 0
    let pt := if f.order = 2 ∨ f.order = 3 ∨ f.order = 7 then max nt (min f.scope.toNat 2) else nt
    Issues (.st f) s c →
    Reaches c { space := f.space.toNat, n := n, align := decide (f.order ≠ 0), acc := 1, detail := 1, code := 1, consume := false } (laneAddrs c (addrM c f)) s xs s' →
    exec (.st f) s = .next (issued (.st f) c s (xs.foldl (fun s x => laneWrite c pt x n (dataVal c f x.1.1.2) s) (before c f xs s')))

/-- Atomics (R163, R415-R418): each active thread in slot order reads its location at the scope's point and writes the value of its operation there; `atom` and
`cas` give the value read, and `cas` writes only where it equals DATA. -/
def Obligations.AtomicResults : Prop :=
  ∀ (f : FmtM) (s s' : State) (c : Ctx) (xs : List (LaneAt × Loc)),
    let op := atopOp f
    let new := fun (x y : Nat) => if op = 6 then y else if op = 7 then (if y ≤ x then 0 else x + 1)
      else if op = 8 then (if x = 0 ∨ y < x then y else x - 1) else redOp (atopTy f) op x y
    let src := fun (r : Nat) => regsOf c r f.index (dataN f)
    let done := fun (i : Instr) (dest : Bool) (g : Nat → Nat → Option Nat) =>
      let rd := rmws c f g xs (before c f xs s')
      exec i s = .next (issued i c s (after c f xs (if dest then deliverVals c f rd.1 rd.2 else rd.2)))
    (Issues (.atom f) s c → Reaches c (atomReq f) (laneAddrs c (addrAtom c f false)) s xs s' → done (.atom f) true (fun r x => some (new x (src r)))) ∧
    (Issues (.atomn f) s c → Reaches c (atomReq f) (laneAddrs c (addrAtom c f true)) s xs s' →
      done (.atomn f) false (fun r x => some (new x (dataVal c f r % 2 ^ (8 * widthOf f))))) ∧
    (Issues (.cas f) s c → Reaches c (atomReq f) (laneAddrs c (addrAtom c f false)) s xs s' →
      done (.cas f) true (fun r x => if x = regsOf c r f.data (dataN f) then some (src r) else none))

/-- Fences and maintenance (R160, R161, R166, R419-R423): `fence` makes the release and the acquire of its order, with a promotion after an access of its
address; `prefetch` fills a line or is dropped; `clean` and `inval` act on each named line once. -/
def Obligations.FenceAndLineResults : Prop :=
  ∀ (f : FmtM) (s s' : State) (c : Ctx) (xs : List (LaneAt × Loc)),
    let scope := f.scope.toNat
    let line : Req := { space := 0, n := 1, align := false, acc := 0, detail := 5, code := 8, consume := false }
    (f.order = 1 → Issues (.fence f) s c → exec (.fence f) s = .next (issued (.fence f) c s (acquire c.g scope true s))) ∧
    (f.order = 2 → Issues (.fence f) s c → exec (.fence f) s = .next (issued (.fence f) c s (release c.g scope s))) ∧
    (f.order = 3 → Issues (.fence f) s c → exec (.fence f) s = .next (issued (.fence f) c s (acquire c.g scope true (release c.g scope s)))) ∧
    (f.order = 5 ∨ f.order = 7 → Issues (.fence f) s c →
      Reaches c { space := 0, n := 1, align := false, acc := 0, detail := 0, code := 0, consume := false, acq := true }
        (laneAddrs c (fun l => addrOf c f false f.offset.toInt l.1 l.2)) s xs s' →
      exec (.fence f) s = .next (issued (.fence f) c s (after c f xs (before c f xs s')))) ∧
    (Issues (.prefetch f) s c → exec (.prefetch f) s = .next (issued (.prefetch f) c s (c.active.foldl (fun s l =>
      match translate (.core c.g) (rootOf s c.blk) (secureOf s c.blk) (BitVec.ofNat 64 (addrM c f l)) 0 s with
      | (.ok pa, s) => if (homeOf pa).isNone then s
        else if f.hint = 2 then (fldRead (secureOf s c.blk) (fieldOf c.g) (pa / 128) fullMask s).2 else (l1Read (secureOf s c.blk) c.g (pa / 128) fullMask (f.hint == 1) s).2
      | (_, s) => s) s))) ∧
    (Issues (.clean f) s c → Reaches c line (laneAddrs c (addrM c f)) s xs s' →
      exec (.clean f) s = .next (issued (.clean f) c s ((namedLines xs).foldl (fun s ln => cleanLine c.g scope ln s) s'))) ∧
    (Issues (.inval f) s c → Reaches c line (laneAddrs c (addrM c f)) s xs s' →
      exec (.inval f) s = .next (issued (.inval f) c s ((namedLines xs).foldl (fun s ln => invalLine c.g scope ln s) s')))

/-- The yoke (R77, R78, R218, R424-R427): `ysend` puts 128 bytes in the FIFO toward the partner where it has a place and no earlier sender waits, and else waits;
`yrecv` takes the oldest entry of its launch; `yprobe` tells whether either would be done at once. -/
def Obligations.YokeResults : Prop :=
  ∀ (f : FmtM) (fa : FmtA) (s s' : State) (c : Ctx) (xs : List (LaneAt × Loc)),
    let q := fun (d : Nat) (consume : Bool) => ({ space := f.space.toNat, n := 128, align := false, acc := d, detail := d, code := d, consume := consume, al := 16 } : Req)
    let w := fun (x : LaneAt × Loc) => ({ blk := c.blk, rank := x.1.1.2, space := f.space.toNat, addr := x.1.2 } : YWaiter)
    let mayS := fun (s : State) => (fifoTo s c.g).length < 16 && (getCore s c.g).ysendQ.isEmpty
    let mayR := fun (s : State) => (yFind s c.g c.blk).isSome && (getCore s c.g).yrecvQ.isEmpty
    (Issues (.ysend f) s c → Reaches c (q 0 true) (laneAddrs c (addrM c f)) s xs s' →
      exec (.ysend f) s = .next (issued (.ysend f) c s (xs.foldl (fun s x => if mayS s then pumpYoke c.g (yServeSend c.g (w x) s)
        else modTh c.blk x.1.1.2 (fun t => { t with waits := t.waits ++ [.ysend], began := true }) (modCore c.g (fun k => { k with ysendQ := k.ysendQ ++ [w x] }) s)) s'))) ∧
    (Issues (.yrecv f) s c → Reaches c (q 1 false) (laneAddrs c (addrM c f)) s xs s' →
      exec (.yrecv f) s = .next (issued (.yrecv f) c s (xs.foldl (fun s x => if mayR s then pumpYoke c.g (yServeRecv c.g (w x) s)
        else modTh c.blk x.1.1.2 (fun t => { t with waits := t.waits ++ [.yrecv], began := true }) (modCore c.g (fun k => { k with yrecvQ := k.yrecvQ ++ [w x] }) s)) s'))) ∧
    (Issues (.yprobe fa) s c → exec (.yprobe fa) s = .next (issued (.yprobe fa) c s (writeP c fa.d (fun _ => if bit fa.mods 0 then mayR s else mayS s) s)))

-- Instruction words of the engines --------------------------------------------------------------------------------------

/-- Records and copies (R79, R81, R228, R244, R278, R432-R436): `trec` loads and checks 128 bytes per thread, keeps the record where the check passes and writes its code;
`tcopy`, `tstore`, `tcopymc` start one operation per thread on a valid record, after the write-back of its source, for `tcopymc` a field-scope release, and the record's
pre-walk (its extent is the model's choice: assumption 92); a slot without a record is RECORD_EMPTY, coordinates past s63 are ILLEGAL_ENC; `recvarm` arms a receive slot.
Each waits where the tag, the record slot or the receive slot has no room for it. -/
def Obligations.TensorResults : Prop :=
  ∀ (f : FmtE) (s s' : State) (c : Ctx) (xs : List (LaneAt × Loc)),
    let k := getBlk s c.blk
    let slot := getRec k f.rslot.toNat
    let ok := slot.valid = true ∧ (isS f.coord && decide (0x140 < f.coord.toNat + rRank slot.bits)) = false ∧ (getTag k f.tag.toNat).count + c.active.length ≤ 255
    let coords := fun (r : Nat) => (upto (rRank slot.bits)).map (fun i => toSigned 32 (regOf c r (f.coord.toNat + i)).toNat)
    let start := fun (kind : Nat) (s : State) => c.active.foldl (fun s l =>
      let s := if kind = 1 then s else flushSource c slot.bits (coords l.2) s
      let s := preWalk (fieldOf c.g) c.blk slot.bits (coords l.2) 0 (if kind = 2 then release c.g 1 s else s)
      recHold c.blk f.rslot.toNat (tagIssue c.blk f.tag.toNat { s with
        copies := s.copies ++ [{
          id := s.nextId, blk := c.blk, kind := kind, tag := f.tag.toNat, slot := f.rslot.toNat, record := slot.bits, coords := coords l.2
          space := if kind = 2 then 1 else nbits f.espec 0 2 + 1, off := if kind = 2 ∨ f.opnd = null then 0 else src32 c l.2 f.opnd 0
          counter := if kind ≠ 2 ∧ bit f.ectl 12 = true then some (nbits f.ectl 0 12) else none
          mask := if kind = 2 then bits f.ectl 0 24 else 0, rslot := if kind = 2 then nbits f.espec 0 3 else 0 }]
        nextId := s.nextId + 1 })) s
    (Issues (.trec f) s c → slot.refs = 0 →
      Reaches c { space := 0, n := 128, align := true, acc := 0, detail := 0, code := 0 } (c.active.map (fun l => (l, src64 c l.2 f.opnd))) s xs s' →
      exec (.trec f) s = .next (issued (.trec f) c s (
        let rd := xs.foldl (fun (acc : List (Nat × Nat) × State) x =>
          let bs := rdLoc (secureOf acc.2 c.blk) c.g 0 false x.2 128 acc.2
          let code := recCheck (ofBytes 1024 bs.1)
          (acc.1 ++ [(x.1.1.2, code)], if code = 0 then modRec c.blk f.rslot.toNat (fun k => { k with bits := ofBytes 1024 bs.1, valid := true }) bs.2 else bs.2)) ([], s')
        writeLanes c f.status 1 (fun l => ((rd.1.find? (fun v => v.1 == l.2)).map (·.2)).getD 0) rd.2))) ∧
    (ok → Issues (.tcopy f) s c → exec (.tcopy f) s = .next (issued (.tcopy f) c s (start 0 s))) ∧
    (ok → Issues (.tstore f) s c → exec (.tstore f) s = .next (issued (.tstore f) c s (start 1 s))) ∧
    (ok → Issues (.tcopymc f) s c → exec (.tcopymc f) s = .next (issued (.tcopymc f) c s (start 2 s))) ∧
    (slot.refs ≠ 0 → Issues (.trec f) s c → exec (.trec f) s = .next s) ∧
    (∀ i ∈ [Instr.tcopy f, .tstore f, .tcopymc f], Issues i s c →
      (slot.valid = false → exec i s = .next (issued i c s (raise c c.active cRecordEmpty s))) ∧
      (slot.valid = true → (isS f.coord && decide (0x140 < f.coord.toNat + rRank slot.bits)) = true → exec i s = .next (issued i c s (raise c c.active cIllegalEnc s))) ∧
      (slot.valid = true → (isS f.coord && decide (0x140 < f.coord.toNat + rRank slot.bits)) = false → 255 < (getTag k f.tag.toNat).count + c.active.length → exec i s = .next s)) ∧
    ((∃ o l t, getRecv k (nbits f.espec 0 3) = .receiving o l t) ∨ 255 < (getTag k f.tag.toNat).count + c.active.length → Issues (.recvarm f) s c →
      exec (.recvarm f) s = .next s) ∧
    ((∀ o l t, getRecv k (nbits f.espec 0 3) ≠ .receiving o l t) → (getTag k f.tag.toNat).count + c.active.length ≤ 255 → Issues (.recvarm f) s c →
      exec (.recvarm f) s = .next (issued (.recvarm f) c s (c.active.foldl (fun s l =>
        setRecv c.blk (nbits f.espec 0 3) (.armed (src32 c l.2 f.opnd 0) (src32 c l.2 f.coord 0) f.tag.toNat) (tagIssue c.blk f.tag.toNat
          (match getRecv (getBlk s c.blk) (nbits f.espec 0 3) with | .armed _ _ t => tagDone c.blk t 0 0 0 s | _ => s))) s)))

/-- Tags (R278-R281, R437). -/
def Obligations.TagResults : Prop :=
  ∀ (f : FmtE) (s : State) (c : Ctx),
    let k := getBlk s c.blk
    let t := getTag k f.tag.toNat
    let mask := fun (r : Nat) => if f.opnd = null then (1 <<< f.tag.toNat : DWord) else BitVec.ofNat 64 (src64 c r f.opnd)
    let gives := fun (i : Instr) (t : State) => Issues i s c → exec i s = .next (issued i c s t)
    gives (.tagwait f) (c.active.foldl (fun s l => if tagsMet (getBlk s c.blk) (mask l.2) (bit f.espec 0) then s
      else modTh c.blk l.2 (fun t => { t with waits := t.waits ++ [.tag (mask l.2) (bit f.espec 0)], began := true }) s) s) ∧
    gives (.tagffs f) (writeLanes c f.status 1 (fun l =>
      ((upto k.tags.length).find? (fun i => bit (if f.opnd = null then BitVec.allOnes 64 else BitVec.ofNat 64 (src64 c l.2 f.opnd)) i && (getTag k i).set)).getD 64) s) ∧
    gives (.tagclr f) (c.active.foldl (fun s l => (upto (getBlk s c.blk).tags.length).foldl (fun s i =>
      if bit (mask l.2) i = true ∧ (getTag (getBlk s c.blk) i).count = 0 then tagWake c.blk (modTag c.blk i (fun g => { g with set := true, crec := 0 }) s) else s) s) s) ∧
    gives (.tagstat f) (writeLanes c f.status 1 (fun _ => if bit f.espec 0 then t.count + b2n t.set * 256 else t.crec.toNat) s)

/-- The drill's vector-side instructions (R52, R82, R282, R438-R442). What an access to a tile that an unfinished command writes gives is undefined (R52): its
values are free. -/
def Obligations.DrillWordResults : Prop :=
  ∀ (f : FmtA) (s : State) (c : Ctx),
    let k := getBlk s c.blk
    let d := k.drill
    let gives := fun (i : Instr) (t : State) => Issues i s c → exec i s = .next (issued i c s t)
    let n := nbits f.imm 0 4
    let a : DWord := BitVec.ofNat 64 (src64 c (lead c) f.a)
    (a.toNat % 4 = 0 → gives (.drill f) (modDrill c.blk (fun d => { d with reading := true, addr := a, fault := none, again := false, failure := none, history := [] }) (flushL1 c.g s))) ∧
    (a.toNat % 4 ≠ 0 → gives (.drill f) (raiseAt c c.pc (c.active.take 1) cMisalign 0 (fun _ => a) s)) ∧
    (mget 0 d.readyCtr n < 65535 → gives (.mready f) (modDrill c.blk (fun d => { d with readyCtr := mput d.readyCtr n (mget 0 d.readyCtr n + 1) }) (flushL1 c.g s))) ∧
    (65535 ≤ mget 0 d.readyCtr n → Issues (.mready f) s c → exec (.mready f) s = .next s) ∧
    (∀ code, d.failure = some code → gives (.mwait f) (raise c c.active code.toNat s)) ∧
    (d.failure = none → mwaitFor d (bit f.mods 0) (bits f.imm 0 8) = none → gives (.mwait f) (mwaitNow c.blk d (bit f.mods 0) (bits f.imm 0 8) s)) ∧
    (∀ t, d.failure = none → mwaitFor d (bit f.mods 0) (bits f.imm 0 8) = some t →
      gives (.mwait f) (c.active.foldl (fun s l => modTh c.blk l.2 (fun x => { x with waits := x.waits ++ [.matrix t c.pc], began := true }) s) s)) ∧
    (accOwed s c.blk (f.a.toNat - 0x148) = false →
      gives (.accrd f) (writeLanes c f.d 1 (fun l => (accGet k (f.a.toNat - 0x148) (src32 c l.2 f.b f.imm % 1024)).toNat) s)) ∧
    (accOwed s c.blk (f.a.toNat - 0x148) = true → gives (.accrd f)
      (let s := accFree c.blk (f.a.toNat - 0x148) 0 s
       writeLanes c f.d 1 (fun l => (Config.freeWord (s.free + l.1)).toNat) { s with free := s.free + 32 })) ∧
    (accOwed s c.blk (f.d.toNat - 0x148) = false → gives (.accwr f) (c.active.foldl (fun s l =>
      accPut c.blk (f.d.toNat - 0x148) (src32 c l.2 f.b f.imm % 1024) (BitVec.ofNat 32 (srcVal c l.2 f.ty.toNat f.a 0)) s) s)) ∧
    (accOwed s c.blk (f.d.toNat - 0x148) = true → gives (.accwr f) (accFree c.blk (f.d.toNat - 0x148) 0 s)) ∧
    gives (.nanrd f) (modBlk c.blk (fun k => { k with nancnt := 0 }) (writeLanes c f.d 1 (fun _ => k.nancnt.toNat) s))

/-- Furrow instructions (R169, R175, R183, R191, R428, R448-R450): after a field-scope release each active thread hands over its operation in slot order; it is refused
with the first status that applies, or enters its slice's queue; the statuses go to STATUS. Where the tag or the queue has no room for all of them, the instruction waits (R186,
R278; that it then waits whole, and hands none over, is the model's reading: assumption 43); a slot without a record is RECORD_EMPTY, coordinates past s63 are ILLEGAL_ENC, and a
thread of `fwred` whose result address is not aligned to 8 raises MISALIGN while the others go on. -/
def Obligations.FurrowResults : Prop :=
  ∀ (f : FmtE) (s : State) (c : Ctx),
    let fl := fieldOf c.g
    let sl := nbits f.espec 0 3
    let slot := getRec (getBlk s c.blk) f.rslot.toNat
    let roomIn := fun (s : State) (n : Nat) => (getTag (getBlk s c.blk) f.tag.toNat).count + n ≤ 255 ∧ (getSlice s fl sl).queue.length + n ≤ 32
    let room := roomIn s
    let aligned := fun (l : Nat × Nat) => src64 c l.2 f.coord % 8 == 0
    let good : Ctx := { c with active := c.active.filter aligned, all := c.active.filter aligned }
    let bad := c.active.filter (fun l => !aligned l)
    let s1 := if bad = [] then s else raiseAt c c.pc bad cMisalign 1 (fun r => BitVec.ofNat 64 (src64 c r f.coord)) s
    let gives := fun (i : Instr) (one : Nat × Nat → State → Nat × State) => room c.active.length → Issues i s c →
      exec i s = .next (issued i c s (
        let r := c.active.foldl (fun (acc : List (Nat × Nat) × State) l => (acc.1 ++ [(l.2, (one l acc.2).1)], (one l acc.2).2)) ([], release c.g 1 s)
        writeLanes c f.status 1 (fun l => ((r.1.find? (fun x => x.1 == l.2)).map (·.2)).getD 0) r.2))
    let enter := fun (i : Instr) (w : Nat) (ways : BitVec 16) (rows : FwRows) (tile : Option (Nat × Nat)) (vals : List DWord) (rec_ : Option (BitVec 1024)) (n : Option Nat)
        (l : Nat × Nat) (s : State) =>
      fwAccept (fwCheck s c.blk fl sl (src32 c l.2 f.opnd 0) w ways rows tile) fl sl
        { id := 0, blk := c.blk, core := c.g, tag := f.tag.toNat, instr := i, ways := ways, vals := vals, record := rec_, slot := n } s
    let g := (nbits f.ectl 0 7, nbits f.ectl 7 6)
    let moves := fun (i : Instr) (rows : FwRows) => slot.valid = true → coordBad f.coord slot.bits = false →
      gives i (fun l => enter i (nbits f.ectl 7 6) (1 <<< nbits f.espec 3 4) rows (some (4 * rE2 slot.bits, rCount slot.bits))
        ((coordVals c l.2 f.coord slot.bits).map (BitVec.ofInt 64)) (some slot.bits) (some f.rslot.toNat) l)
    (¬ room c.active.length → ∀ i ∈ [Instr.wpart f, .fwop f, .fwfill f], Issues i s c → exec i s = .next s) ∧
    (∀ i ∈ [Instr.fwload f, .fwstore f], Issues i s c →
      (slot.valid = false → exec i s = .next (issued i c s (raise c c.active cRecordEmpty s))) ∧
      (slot.valid = true → coordBad f.coord slot.bits = true → exec i s = .next (issued i c s (raise c c.active cIllegalEnc s))) ∧
      (slot.valid = true → coordBad f.coord slot.bits = false → ¬ room c.active.length → exec i s = .next s)) ∧
    ((∀ l ∈ c.active, src64 c l.2 f.coord % 8 ≠ 0) → Issues (.fwred f) s c →
      exec (.fwred f) s = .next (issued (.fwred f) c s (raiseAt c c.pc c.active cMisalign 1 (fun r => BitVec.ofNat 64 (src64 c r f.coord)) s))) ∧
    gives (.wpart f) (fun l => wpartOne c.blk f.tag.toNat fl sl (BitVec.ofNat 32 (src32 c l.2 f.opnd 0))) ∧
    moves (.fwload f) { dst := some g, srcs := [] } ∧
    moves (.fwstore f) { dst := none, srcs := [g] } ∧
    gives (.fwop f) (fun l => enter (.fwop f) (nbits f.ectl 16 6) (bits f.ectl 0 16)
      (fwopRows (nbits f.ectl 22 5) (nbits f.ectl 16 6) (BitVec.ofNat 64 (src32 c l.2 f.coord 0))) none [BitVec.ofNat 64 (src32 c l.2 f.coord 0)] none none l) ∧
    (let one := fun (l : Nat × Nat) => enter (.fwred f) (nbits f.ectl 23 6) (bits f.ectl 0 16)
      { dst := none, srcs := [(nbits f.ectl 16 7, nbits f.ectl 23 6)] } none [BitVec.ofNat 64 (src64 c l.2 f.coord)] none none l
     ((∀ l ∈ c.active, src64 c l.2 f.coord % 8 = 0) → gives (.fwred f) one) ∧
     (good.active ≠ [] → roomIn s1 good.active.length → Issues (.fwred f) s c → exec (.fwred f) s = .next (issued (.fwred f) c s (
      let r := good.active.foldl (fun (acc : List (Nat × Nat) × State) l => (acc.1 ++ [(l.2, (one l acc.2).1)], (one l acc.2).2)) ([], release c.g 1 s1)
      writeLanes good f.status 1 (fun l => ((r.1.find? (fun x => x.1 == l.2)).map (·.2)).getD 0) r.2))) ∧
     (good.active ≠ [] → ¬ roomIn s1 good.active.length → Issues (.fwred f) s c → exec (.fwred f) s = .next s)) ∧
    gives (.fwfill f) (fun l => enter (.fwfill f) (nbits f.ectl 23 6) (bits f.ectl 0 16)
      { dst := some (nbits f.ectl 16 7, nbits f.ectl 23 6), srcs := [] } none [BitVec.ofNat 64 (src32 c l.2 f.coord 0)] none none l)

/-- Collectives (R217, R266, R451, R452): after a package-scope release each active thread's descriptor is read, latched and judged on its tag, and a thread whose descriptor
address is not aligned to 64 raises MISALIGN; the instruction waits where the tag has no room, and suspends where the read of one of its descriptors has faulted and found the
fault queue full: that descriptor's read waits, with no record sent and with no pseudo-channel that holds it. `collq` reports; of a `coll` that ended DUP it reports the count
of the collective it met (R451). When a descriptor's read is tried again is the model's choice (assumption 67). -/
def Obligations.CollectiveResults : Prop :=
  ∀ (f : FmtE) (fa : FmtA) (s : State) (c : Ctx),
    let at_ := fun (l : Nat × Nat) => src64 c l.2 f.coord
    let bad := c.active.filter (fun l => at_ l % 64 != 0)
    let good := c.active.filter (fun l => at_ l % 64 == 0)
    let used := (getTag (getBlk s c.blk) f.tag.toNat).count + good.length
    let s1 := bad.foldl (fun s l => raiseAt c c.pc [l] cMisalign 0 (fun _ => BitVec.ofNat 64 (at_ l)) s) s
    let t := good.foldl (fun s l =>
      let m : CMember := {
        id := s.nextId, pkg := pkgId s, field := (getBlk s c.blk).lfield, blk := c.blk, tag := f.tag.toNat
        src := BitVec.ofNat 64 (src64 c l.2 f.opnd), dst := BitVec.ofNat 64 (src64 c l.2 (f.espec.setWidth 9)), desc := [] }
      collRead m (BitVec.ofNat 64 (at_ l)) false (modTag c.blk f.tag.toNat (fun g => { g with coll := some m.id })
        (tagIssue c.blk f.tag.toNat { s with nextId := s.nextId + 1 }))) (release c.g 2 s1)
    let noRecord := ∃ w ∈ t.collWait, s1.nextId ≤ w.1.id ∧ (∀ e ∈ t.fields, ∀ r ∈ e.2.faults, ¬(r.open_ = true ∧ r.src = .collDesc w.1.id)) ∧ spanHeld t w.1 w.2.1.toNat 64 = false
    (used ≤ 255 → ¬ noRecord → Issues (.coll f) s c → exec (.coll f) s = .next (issued (.coll f) c s t)) ∧
    (used ≤ 255 → noRecord → Issues (.coll f) s c → exec (.coll f) s = .next (suspendFull c s)) ∧
    (255 < used → Issues (.coll f) s c → exec (.coll f) s = .next s) ∧
    (∀ (m : CMember) (a : DWord) (s s' : State) (again : Bool), spanHeld s m a.toNat 64 = false →
      (∀ bs, memberRead m a.toNat 64 s = (.ok bs, s') → collRead m a again s = collAccept { m with desc := bs } true s') ∧
      (∀ e, memberRead m a.toNat 64 s = (.error e, s') → let fl := fieldOf (getBlk s m.blk).core
        (faultRoom s' fl = true → (collRead m a again s).collWait = s'.collWait ++ [(m, a, again)] ∧
          ∃ r ∈ (getFld (collRead m a again s) fl).faults, r.src = .collDesc m.id ∧ r.open_ = true ∧ r.seq = (getFld s' fl).faultSeq + 1) ∧
        (faultRoom s' fl = false → collRead m a again s = { s' with collWait := s'.collWait ++ [(m, a, again)] }))) ∧
    (Issues (.collq fa) s c → exec (.collq fa) s = .next (issued (.collq fa) c s (writeLanes c fa.d 1 (fun _ =>
      match (getTag (getBlk s c.blk) (nbits fa.imm 0 6)).coll with
      | none => 0
      | some id =>
        if s.collWait.any (fun w => w.1.id == id) then 0
        else match s.colls.find? (fun x => x.members.any (fun m => m.id == id) || x.dups.contains id) with
          | none => 2 ^ 29
          | some x => (x.chunks.filter (fun c => c.phase == 3)).length % 2 ^ 24 + x.trees.length * 2 ^ 24 +
              b2n (x.started || (x.status.isNone && (gMembers (collDescOf x)).all (fun key => (memberOf x key).isSome))) * 2 ^ 28 +
              b2n (x.dups.contains id || x.members.any (fun m => m.id == id && m.done)) * 2 ^ 29) s)))

-- Drill commands -----------------------------------------------------------------------------------------------------------

/-- The issue of a drill command (R219, R228, R443): in a resident block the earliest issuable command of the table latches the records it uses, is issued and pre-walks
their pages (assumption 92); `dnop` retires at once; a record slot without a record is a failure RECORD_EMPTY, records that do not fit the command one of
ILLEGAL_ENC, after which the command retires and no tile awaits it. A command that is not the earliest issuable one waits. -/
def Obligations.DrillIssue : Prop :=
  ∀ (d : DCmd) (s : State) (b uid : Nat) (e : DEnt) (i : Instr), i ∈ [Instr.dnop d, .dend d, .dbarBar d, .dbarReady d, .dzero d, .dldacc d, .dstacc d, .dscale d, .dmma d] →
    let k := getBlk s b
    let ra := getRec k e.cmd.reca.toNat
    let rb := getRec k e.cmd.recb.toNat
    let useA := (dUses i).2.1
    let useB := (dUses i).2.2
    let void := modDrill b (fun d => { d with owed := d.owed.filter (fun o => o.1 != uid) })
    s.turn = .drill b uid → k.drill.table.find? (fun e => e.uid == uid && e.instr == i) = some e → e.issued = false →
    let first := k.phase = .resident ∧ e.fault = none ∧ e.done = false ∧ (k.drill.table.find? (fun x => dIssuable k.drill x)).map (·.uid) = some uid
    (¬ first → exec i s = .next s) ∧
    (first →
    ((useA = true → ra.valid = true) → (useB = true → rb.valid = true) → dRecsOk e ra.bits rb.bits = true →
      exec i s = .next (
        let s := if useA then recHold b e.cmd.reca.toNat s else s
        let s := if useB then recHold b e.cmd.recb.toNat s else s
        if i = .dnop d then retireCmd b e s
        else (dPages k e ra.bits rb.bits).foldl (fun s ps => preWalkPages (fieldOf k.core) (rootOf s b) (secureOf s b) (ps.eraseDups.take 32) s)
          (putEnt b { e with issued := true, order := s.nextId, recA := if useA then some ra.bits else none, recB := if useB then some rb.bits else none }
            { s with nextId := s.nextId + 1 }))) ∧
    ((useA = true → ra.valid = true) → (useB = true → rb.valid = true) → dRecsOk e ra.bits rb.bits = false → exec i s = .next (retireCmd b e (failDrill b cIllegalEnc (void s)))) ∧
    ((useA = true ∧ ra.valid = false) ∨ (useB = true ∧ rb.valid = false) → exec i s = .next (retireCmd b e (failDrill b cRecordEmpty (void s)))))

/-- A row of an issued drill command (R116-R119, R219, R229, R230, R443-R447): `dzero` writes +0.0, `dldacc`, `dstacc`, `dscale` and `dmma` do their row; the 32nd ends it. A row
whose access faults leaves its record and stops there, or, while the fault queue has no room, is not begun; a `dmma` waits for one issued earlier, and a row of which an access
or a page walk is held waits for its pseudo-channel (that it waits whole is the model's reading: assumption 95). -/
def Obligations.DrillRows : Prop :=
  ∀ (d : DCmd) (s : State) (b uid : Nat) (e : DEnt),
    let k := getBlk s b
    let f := fieldOf k.core
    let x := { e with again := false }
    let ready := fun (i : Instr) => s.turn = .drill b uid ∧ k.drill.table.find? (fun e => e.uid == uid && e.instr == i) = some e ∧ k.phase = .resident ∧ e.fault = none ∧
      e.done = false ∧ e.issued = true ∧ dmmaBusy k.drill e = false ∧ rowHeld s b e = false
    let moves := fun (i : Instr) (r : RowOut) => ready i →
      (∀ n s', r = .done n s' → heldReach s s' = [] → exec i s = .next (putEnt b { x with row := e.row + 1, done := e.row + 1 == 32, nans := e.nans + n } s')) ∧
      (∀ n s', r = .done n s' → heldReach s s' ≠ [] → exec i s = .next s) ∧
      (∀ y access s', r = .fault y access s' → faultRoom s' f = true → heldReach s s' = [] →
        let q := sendFault f { engineRec s' b 0 access y (.drillCmd b uid) with drill := true, refault := e.again } s'
        exec i s = .next (putEnt b { x with fault := some q.1 } q.2)) ∧
      (∀ y access s', r = .fault y access s' → faultRoom s' f = false ∨ heldReach s s' ≠ [] → exec i s = .next s)
    moves (.dzero d) (.done 0 ((upto 32).foldl (fun s col => accPut b d.acc.toNat (e.row * 32 + col) 0 s) s)) ∧
    moves (.dldacc d) (dldaccRow b x d s) ∧ moves (.dstacc d) (dstaccRow b x d s) ∧ moves (.dscale d) (dscaleRow b x d s) ∧ moves (.dmma d) (dmmaRow b x d s) ∧
    (∀ i ∈ [Instr.dzero d, .dldacc d, .dstacc d, .dscale d, .dmma d], s.turn = .drill b uid → k.drill.table.find? (fun e => e.uid == uid && e.instr == i) = some e →
      e.issued = true → dmmaBusy k.drill e = true ∨ rowHeld s b e = true → exec i s = .next s)

-- Device events: the yard -------------------------------------------------------------------------------------------------

/-- Times that come (R31, R91, R354, R359, R367): a yielded consist may be chosen again, a sleeper wakes, a siding is due, a window at its bound closes with a deferred
OVERRUN on each holder, a request that has waited 2^20 cycles is withdrawn and its threads that are still in the block trap; where there is no such thing, nothing happens.
The field's clock comes to the time, and every siding of the field that is due by then is marked, of a block that is not stopping. That the events themselves bring
the clock forward is the model's choice (assumption 85). -/
def Obligations.TimedEvents : Prop :=
  ∀ (s : State) (g cn b r idx req : Nat),
    let k := getBlk s b
    let f := fieldOf k.core
    (∀ x t, consistOf s g cn = some x → x.yieldUntil = some t →
      exec (.yieldExpiry g cn) s = .next (modConsist g cn (fun k => { k with yieldUntil := none }) (setNow (fieldOf g) t s))) ∧
    ((∀ x, consistOf s g cn = some x → x.yieldUntil = none) → exec (.yieldExpiry g cn) s = .next s) ∧
    (∀ d, (getTh s b r).waits.findSome? sleepOf = some d → resident k = true → (getTh s b r).place = .waiting ∨ (getTh s b r).place = .rankWait →
      exec (.sleepExpiry b r) s = .next (endWait b r (fun w => w == .sleep d) (setNow f d s))) ∧
    ((getTh s b r).waits.findSome? sleepOf = none ∨ resident k = false ∨ ((getTh s b r).place ≠ .waiting ∧ (getTh s b r).place ≠ .rankWait) →
      exec (.sleepExpiry b r) s = .next s) ∧
    (∀ sd, mfind (getCore s g).sidings idx = some sd → (getBlk s sd.blk).phase = .resident → ∃ t x,
      exec (.sidingDue g idx) s = .next t ∧ t = setNow (fieldOf g) (sd.since + regAge s (getBlk s sd.blk).region) s ∧
      mfind (getCore t g).sidings idx = some x ∧ x = { sd with due := true }) ∧
    ((∀ sd, mfind (getCore s g).sidings idx = some sd → (getBlk s sd.blk).phase ≠ .resident) → exec (.sidingDue g idx) s = .next s) ∧
    (k.holders ≠ [] → resident k = true → exec (.preemptOverrun b) s = .next (modBlk b (fun k => { k with holders := [] })
      (k.holders.foldl (fun s r => queueDeferred b r cOverrun 0 0 s) (evAdd f 0x78 1 (setNow f (k.winStart + 65536) s))))) ∧
    (k.holders = [] ∨ resident k = false → exec (.preemptOverrun b) s = .next s) ∧
    (∀ q, k.grows.find? (fun q => q.id == req) = some q → k.phase = .resident →
      exec (.growStarved b req) s = .next (growWake (
        let t := (q.ranks.filter (fun r => (getTh s b r).live)).foldl (fun s r =>
          endWait b r (fun w => w == .grow req) (takeRaised b r (recordTrap b r cGrowStarved 0 q.pc 0 none
            (modTh b r (fun t => { t with outs := t.outs.filter (fun o => o.id != q.out) }) s))))
          (modBlk b (fun k => { k with grows := k.grows.filter (fun r => r.id != req) }) (setNow f (q.since + 2 ^ 20).toNat s))
        match q.entry with | some e => dropEntry b e t | none => t))) ∧
    (k.grows.find? (fun q => q.id == req) = none ∨ k.phase ≠ .resident → exec (.growStarved b req) s = .next s) ∧
    (∀ f t, (getFld (setNow f t s) f).now = max (getFld s f).now t ∧
      (∀ g' i sd, fieldOf g' = f → mfind (getCore s g').sidings i = some sd → mfind (getCore (setNow f t s) g').sidings i = some { sd with
        due := sd.due || (decide (sd.since + regAge s (getBlk s sd.blk).region ≤ max (getFld s f).now t) && (getBlk s sd.blk).phase == .resident) }) ∧
      (∀ g', fieldOf g' ≠ f → (getCore (setNow f t s) g').sidings = (getCore s g').sidings))

/-- Clauses and consists (R28-R32, R97, R353): a clause that is over ends, with its snapshot where a barrier completed in it, unless the replay of an instruction of it
that directs its threads is outstanding: then it is suspended. Where every thread of the consist goes on to one slot and none waits, exits, traps or was marshalled, the
consist stays whole and every thread stands at its next PC. A saved consist, a complete rank group and the due siding that goes first take, in this order, the lowest
free consist number; with none free, none forms. A due siding of a block that may form consists is never kept waiting by one of a block that is stopping. The order in which a
number goes to one of several that wait, and what an outstanding replay holds back, are the model's readings (assumptions 20 and 32). -/
def Obligations.ClauseEndAndFormation : Prop :=
  ∀ (s : State) (g cn idx b grp : Nat) (src : FormFrom),
    (∀ x cl, pick s g = some cn → consistOf s g cn = some x → x.clause = some cl → clauseOver s x cl = true → heldEnd s x cl = false →
      exec (.clauseEnd g) s = .next (let t := endClause g cn s; if (getBlk t x.blk).snapDue then takeSnapshot x.blk t else t)) ∧
    (∀ x cl, pick s g = some cn → consistOf s g cn = some x → x.clause = some cl → clauseOver s x cl = true → heldEnd s x cl = true →
      exec (.clauseEnd g) s = .next (perfCore g x.blk 0x05 1 (modCore g (fun c => { c with running := none })
        (modConsist g cn (fun k => { k with eligible := none, clause := k.clause.map (fun cl => { cl with suspended := true, noRoom := false }) }) s)))) ∧
    (∀ x cl p h, pick s g = some cn → consistOf s g cn = some x → x.clause = some cl → clauseOver s x cl = true → heldEnd s x cl = false →
      (mfind s.blocks x.blk).isSome = true → (getBlk s x.blk).phase = .resident → (getBlk s x.blk).snapDue = false → (getCore s g).consists.length < 64 →
      cl.len ≠ 0 → cl.exits = [] → cl.rankWait = [] → cl.marshalled = false → (membersOf x.slots).map (·.2) ≠ [] → ((membersOf x.slots).map (·.2)).Nodup →
      (∀ l ∈ membersOf x.slots, (mfind (getBlk s x.blk).members l.2).isSome = true ∧
        let t := getTh s x.blk l.2
        t.live = true ∧ t.raised = none ∧ t.deferred = [] ∧ t.waits = [] ∧ t.began = false ∧ (t.trap == .handler) = h ∧
          t.nextPc.getD (slotAddr (slotNum cl.header + 1 + cl.len)) = p) →
      ∃ t y, exec (.clauseEnd g) s = .next t ∧ consistOf t g cn = some y ∧ y.clause = none ∧ y.slots = x.slots ∧ y.uid = x.uid ∧
        ∀ l ∈ membersOf x.slots, (getTh t x.blk l.2).pc = p) ∧
    (∀ sd, (getCore s g).consists.length < 64 → firstDue s g = some idx → savedWaits s g = false → groupWaits s g = false →
      mget default (getCore s g).sidings idx = sd →
      exec (.consistForm g (.siding idx)) s = .next (
        let t := addConsist g { uid := s.nextUid, blk := sd.blk, slots := (upto 32).map (fun i => sd.ranks[i]?), base := sd.ranks.headD 0 }
          { modCore g (fun c => { c with sidings := mdel c.sidings idx }) s with nextUid := s.nextUid + 1 }
        fileReady g (getCore t g).ready.length t)) ∧
    (∀ r rest, (getCore s g).consists.length < 64 → (getBlk s b).core = g → (getBlk s b).phase = .resident → savedWaits s g = false → mfind s.blocks b ≠ none →
      groupRanks (getBlk s b) grp = r :: rest → (∀ x ∈ r :: rest, (getTh s b x).place = .rankWait ∧ (getTh s b x).waits = []) →
      ((getBlk s b).members.map (·.1)).Pairwise (· < ·) →
      let rs := (r :: rest).filter (fun x => (getTh s b x).pc == (getTh s b r).pc)
      let t := rs.foldl (fun s r => modTh b r (fun t => { t with waits := [] }) s) ((r :: rest).foldl (fun s r => modTh b r (fun t => { t with waits := [.rank] }) s) s)
      exec (.consistForm g (.rankGroup b grp (getTh s b r).pc)) s = .next (
        addConsist g { uid := t.nextUid, blk := b, slots := canonSlots grp rs, canon := true, base := 32 * grp } { t with nextUid := t.nextUid + 1 })) ∧
    (∀ sc, (getCore s g).consists.length < 64 → (getBlk s b).savedConsists[idx]? = some sc → (getBlk s b).core = g → (getBlk s b).phase = .resident →
      exec (.consistForm g (.saved b idx)) s = .next (addConsist g sc (modBlk b (fun k => { k with savedConsists := k.savedConsists.eraseIdx idx }) s))) ∧
    (64 ≤ (getCore s g).consists.length → exec (.consistForm g src) s = .next s) ∧
    (∀ i, firstDue s g = some i → ∃ sd, (i, sd) ∈ (getCore s g).sidings ∧ sd.due = true ∧ (getBlk s sd.blk).phase = .resident ∧
      ∀ e ∈ (getCore s g).sidings, e.2.due = true → (getBlk s e.2.blk).phase = .resident → sd.order ≤ e.2.order) ∧
    (firstDue s g = none → ∀ e ∈ (getCore s g).sidings, e.2.due = true → (getBlk s e.2.blk).phase ≠ .resident)

/-- Results and acknowledgements that return (R71, R72, R92, R148, R234, R235, R259, R369): an outstanding result or access that no pseudo-channel and no held access keeps back is settled; a
shadow comparison is made; a decrement is applied; a launch record is served, once no pseudo-channel holds what it read and wrote, with the first status that applies, which a replayed `launch` writes only where its entry still owns D, and one issued before the block's last completed barrier (R64; assumption
121) in its snapshot too; an agent of an invalidation drops its entries, and with the
last one its threads' accesses and the `trsync`s that waited for it are settled. What a comparison event does where nothing is queued is the model's choice
(assumption 91). -/
def Obligations.ReturnEvents : Prop :=
  ∀ (s : State) (b r n g idx agent : Nat) (differ : BitVec 32),
    (outHeld s b n = false → (∀ o ∈ (getTh s b r).outs, o.id = n → accessHeld s (getTh s b r) o = false) →
      exec (.instructionResultReturn b r n) s = .next (modTh b r (fun t =>
        { t with outs := (modWhere (fun o => o.id == n) (fun o => { o with a := false }) t.outs).filter (fun o => o.a || o.b || o.id != n) }) s) ∧
      exec (.accessComplete b r n) s = .next (modTh b r (fun t =>
        { t with outs := (modWhere (fun o => o.id == n) (fun o => { o with b := false }) t.outs).filter (fun o => o.a || o.b || o.id != n) }) s)) ∧
    (outHeld s b n = true ∨ (∃ o ∈ (getTh s b r).outs, o.id = n ∧ accessHeld s (getTh s b r) o = true) →
      exec (.instructionResultReturn b r n) s = .next s ∧ exec (.accessComplete b r n) s = .next s) ∧
    (∀ e rest, (getCore s g).shadowQ = e :: rest → exec (.shadowCompare g differ) s = .next (shadowMismatch e.blk
      ((membersOf e.slots).filter (fun l => bit differ l.1 || bit e.forced l.1)) e.pc e.rep
      (perfCore g e.blk 0x15 1 (evAdd (fieldOf g) 0x50 1 (modCore g (fun c => { c with shadowQ := rest }) s))))) ∧
    ((getCore s g).shadowQ = [] → exec (.shadowCompare g differ) s = .next (modCore g (fun c => { c with laneErr := differ }) s)) ∧
    (∀ c, s.decs[idx]? = some c → mget 0 s.depctr c ≠ 0 →
      exec (.counterDecrement idx) s = .next { s with decs := s.decs.eraseIdx idx, depctr := mput s.depctr c (mget 0 s.depctr c - 1) }) ∧
    (∀ c, s.decs[idx]? = some c → mget 0 s.depctr c = 0 →
      exec (.counterDecrement idx) s = .next { s with decs := s.decs.eraseIdx idx, pkgCnt := mput s.pkgCnt 0 (mget 0 s.pkgCnt 0 + 1) }) ∧
    (∀ x, s.inflight[idx]? = some x → x.pchs.any (pchHeld s) = true → exec (.launchRecordWrite idx) s = .next s) ∧
    (∀ x, s.inflight[idx]? = some x → x.pchs.any (pchHeld s) = false →
      let q := getQ s x.queue
      let status := if 256 ≤ x.queue ∨ q.state = .unbound ∨ qDevice q = false then 3 else if below s x.region (qRegion q) = false then 4
        else if q.state ≠ .active then 2 else if (q.wr - q.rd).toNat = 2 ^ qLog q then 1 else 0
      let s1 := { s with inflight := s.inflight.eraseIdx idx }
      let s2 := if status ≠ 0 then s1 else journal x.queue q.wr.toNat 1 0 (lTag x.image) 0
        (modQ x.queue (fun k => { k with wr := k.wr + 1 }) (homePuts (ringAt q q.wr.toNat) (toBytes 64 x.image) s1))
      let late := fun (entry : Option Nat) (t : Thread) =>
        let t := { t with outs := t.outs.filter (fun o => o.id != x.out) }
        if x.d = null then t else match entry with
        | none => putReg x.d.toNat (BitVec.ofNat 32 status) (dropMark x.d.toNat t)
        | some e => if t.marks.contains (x.d.toNat, e) = true then putReg x.d.toNat (BitVec.ofNat 32 status) (dropMark x.d.toNat t) else t
      let s3 := x.ranks.foldl (fun s t => modTh x.blk t (late x.entry) s) s2
      let s4 := match x.entry, (getBlk s3 x.blk).snapshot with
        | some e, _ => dropEntry x.blk e s3
        | none, some sn => if x.out < sn.mark then modBlk x.blk (fun k => { k with snapshot := some { sn with members := sn.members.map (fun m =>
            if x.ranks.contains m.1 then (m.1, late none m.2) else m) } }) s3 else s3
        | none, none => s3
      exec (.launchRecordWrite idx) s = .next (if status = 4 then x.ranks.foldl (fun s t => queueDeferred x.blk t cPriv 0 0 s) s4 else s4)) ∧
    (s.inflight[idx]? = none → exec (.launchRecordWrite idx) s = .next s) ∧ (s.decs[idx]? = none → exec (.counterDecrement idx) s = .next s) ∧
    (s.invals[idx]? = none ∨ (∃ v, s.invals[idx]? = some v ∧ agent ∉ v.agents) → exec (.tlbinvAck idx agent) s = .next s) ∧
    (∀ v, s.invals[idx]? = some v → agent ∈ v.agents →
      let t := agentDrop agent v.form v.va v.root s
      let left := v.agents.filter (· != agent)
      (left ≠ [] → exec (.tlbinvAck idx agent) s = .next { t with invals := t.invals.set idx { v with agents := left } }) ∧
      (left = [] → v.blk = none → exec (.tlbinvAck idx agent) s = .next { t with invals := t.invals.eraseIdx idx }) ∧
      (∀ b, left = [] → v.blk = some b → exec (.tlbinvAck idx agent) s = .next (endSyncs b v.id (dropOuts b v.ranks v.out { t with invals := t.invals.eraseIdx idx }))))

/-- Faults answered and engines' work (R54-R61, R176-R191, R219, R230-R232, R282, R328, R433, R436): an answered record closes, an unknown one is counted; a spill,
a stream read, which waits while its pseudo-channel is held, may fault or meet a word that is no command, a retirement, a copy's elements, a multicast's acceptance, refusal and delivery, a furrow operation and a partition's switch. -/
def Obligations.EngineEvents : Prop :=
  ∀ (s : State) (f i b r q n op : Nat) (seq : Word),
    let k := getBlk s b
    let closed := fun (s : State) => modFld f (fun k => { k with
      faults := (modWhere (fun x => x.seq == seq) (fun x => { x with open_ := false }) k.faults).filter (fun x => x.open_ || !x.taken || x.seq != seq) }) s
    let reads := k.phase = .resident ∧ k.drill.reading = true ∧ k.drill.fault = none ∧ k.drill.table.length < 64 ∧
      ∀ x ∈ lineParts 3 k.drill.addr.toNat 12, vaHeld s (fieldOf k.core) (rootOf s b) (secureOf s b) (x.1 * 128 + x.2.1) 0 = false
    (f < 64 → (getFld s f).faults.find? (fun r => r.seq == seq && r.open_) = none →
      exec (.fqcmdReplay f seq) s = .next (evAdd f 0x70 1 s) ∧ exec (.fqcmdDeny f seq) s = .next (evAdd f 0x70 1 s)) ∧
    (∀ x, f < 64 → (getFld s f).faults.find? (fun r => r.seq == seq && r.open_) = some x →
      exec (.fqcmdReplay f seq) s = .next (replaySource f x (closed s)) ∧ exec (.fqcmdDeny f seq) s = .next (denySource x (closed s))) ∧
    (resident k = true → r < k.threads → q * 8 < k.allot → (getTh s b r).pinned.any (fun p => p.1 == q) = false → quantumRegs (getTh s b r) q ≠ [] →
      exec (.spill k.core b r q) s = .next (spillQuantum b r q false s)) ∧
    (64 ≤ f → exec (.fqcmdReplay f seq) s = .next s ∧ exec (.fqcmdDeny f seq) s = .next s) ∧
    (¬ reads → exec (.drillStreamRead b) s = .next s) ∧
    (∀ e s', reads → ttuRead (fieldOf k.core) (rootOf s b) (secureOf s b) k.drill.addr.toNat 12 s = (.error e, s') →
      (faultRoom s' (fieldOf k.core) = false → exec (.drillStreamRead b) s = .next s) ∧
      (faultRoom s' (fieldOf k.core) = true →
        let q := sendFault (fieldOf k.core) { engineRec s' b 0 6 e (.drillRead b) with drill := true, refault := k.drill.again } s'
        exec (.drillStreamRead b) s = .next (modDrill b (fun d => { d with fault := some q.1, again := false }) q.2))) ∧
    (∀ bs s', reads → ttuRead (fieldOf k.core) (rootOf s b) (secureOf s b) k.drill.addr.toNat 12 s = (.ok bs, s') → decodeDrill (ofBytes 96 bs) = none →
      exec (.drillStreamRead b) s = .next (failDrill b cIllegalOp s')) ∧
    (∀ bs s' j, reads → ttuRead (fieldOf k.core) (rootOf s b) (secureOf s b) k.drill.addr.toNat 12 s = (.ok bs, s') → decodeDrill (ofBytes 96 bs) = some j →
      k.drill.table.any (fun e => e.cmd.id == (decD (ofBytes 96 bs)).id) = false → dLegal k j (decD (ofBytes 96 bs)) = false →
      exec (.drillStreamRead b) s = .next (failDrill b cIllegalEnc s')) ∧
    (∀ bs s' j, reads → ttuRead (fieldOf k.core) (rootOf s b) (secureOf s b) k.drill.addr.toNat 12 s = (.ok bs, s') → decodeDrill (ofBytes 96 bs) = some j →
      k.drill.table.any (fun e => e.cmd.id == (decD (ofBytes 96 bs)).id) = false → dLegal k j (decD (ofBytes 96 bs)) = true → mfind s'.blocks b ≠ none →
      ∃ t e, exec (.drillStreamRead b) s = .next t ∧ (getBlk t b).drill.table = (getBlk s' b).drill.table ++ [e] ∧ e.instr = j ∧ e.cmd = decD (ofBytes 96 bs) ∧
        e.uid = k.drill.nextUid ∧ e.issued = false ∧ (getBlk t b).drill.addr = (getBlk s' b).drill.addr + 12) ∧
    (∀ e, k.phase = .resident → k.drill.table[n]? = some e → mayRetire k e = true →
      exec (.drillCommandRetire b n) s = .next (retireCmd b e (match e.instr with
        | .dbarBar c => modBlk b (fun k =>
            let r := mget {} k.barriers (nbits c.ctl 0 4)
            { k with barriers := mput k.barriers (nbits c.ctl 0 4) { r with consumed := r.consumed + 1 } }) s
        | .dbarReady c => modDrill b (fun d => { d with readyCtr := mput d.readyCtr (nbits c.ctl 0 4) (mget 0 d.readyCtr (nbits c.ctl 0 4) - 1) }) s
        | _ => s))) ∧
    (∀ cp, copyOf s op = some cp → resident (getBlk s cp.blk) = true → cp.fault = none →
      exec (.copyComplete op n) s = .next (copyRun false (if n = 0 then rCount cp.record - cp.elem else n) cp s)) ∧
    (∀ cp rb, copyOf s op = some cp → cp.kind = 2 → resident (getBlk s cp.blk) = true → cp.elem = rCount cp.record → bit cp.mask n = true → bit cp.doneMask n = false →
      nbOwner s cp.blk n = some rb →
      let fits := fun (len : Nat) => ceilDiv (rCount cp.record) (rBox cp.record 0) * rPitch cp.record ≤ len
      let refused := { cp with refusal := cp.refusal ||| (1 <<< n), doneMask := cp.doneMask ||| (1 <<< n) }
      (∀ off len t, bit cp.accepted n = false → getRecv rb cp.rslot = .armed off len t → fits len →
        exec (.multicastDelivery op n) s = .next (putCopy { cp with accepted := cp.accepted ||| (1 <<< n) } (setRecv rb.id cp.rslot (.receiving off len t) s))) ∧
      (bit cp.accepted n = false → (∀ off len t, getRecv rb cp.rslot = .armed off len t → ¬ fits len) → exec (.multicastDelivery op n) s = .next (mcSettle refused s)) ∧
      (∀ off len t, bit cp.accepted n = true → getRecv rb cp.rslot = .receiving off len t → exec (.multicastDelivery op n) s =
        .next (mcSettle { cp with doneMask := cp.doneMask ||| (1 <<< n) } (tagDone rb.id t 0 0 1 (setRecv rb.id cp.rslot .idle (mcWrite cp rb.id off s)))))) ∧
    (∀ o, (upto 8).findSome? (fun i => ((getSlice s f i).queue.find? (fun o => o.id == op)).map (fun o => (i, o))) = some (i, o) → o.image = none → o.fault = none →
      fwTurn (getSlice s f i) o = true → exec (.furrowOperationComplete f op) s = .next (fwRun false f i o s)) ∧
    (∀ o rest img, (getSlice s f i).queue = o :: rest → o.image = some img → ∃ t u, exec (.wpartSwitchPoint f i) s = .next t ∧ t = fwFinish f i o 0 0 u ∧
      (getSlice u f i).inForce = img) ∧
    ((∀ o rest, (getSlice s f i).queue = o :: rest → o.image = none) → exec (.wpartSwitchPoint f i) s = .next s) ∧
    (copyOf s op = none → exec (.copyComplete op n) s = .next s ∧ exec (.multicastDelivery op n) s = .next s)

-- Device events: collectives ------------------------------------------------------------------------------------------------

/-- Chunks and trees (R266-R277). An event of a collective that waits for its start or for the zeroing of its mileposts tries that again, and one of a chunk that a re-tree has set
back writes its milepost PENDING first. A partial goes from a node of this package to its parent here, or stands ready for a parent in another package, with the milepost of a
root here; a result is noted at the root or at every destination of this package; an access that faults leaves its record, and holds the chunks of its tree alone. A paused collective
starts a new generation with a new tree set. Of what another package sends, a member, a link table, by which a group may turn out bad, a partial, an end, a result and a
delivery are noted; a message that comes from this package or names a chunk that is not due changes nothing. What the packages send each other is the model's choice (assumption
68); when ARRIVED is written, and what becomes of the payload of a chunk that has ended, are its readings (assumptions 67, 69, 70). -/
def Obligations.CollectiveEvents : Prop :=
  ∀ (s s' : State) (seq : DWord) (k : Collective) (c node pkg field : Nat) (fal : Nat) (up : List Nat) (far : List (Nat × Nat × Nat)) (desc bytes : List Byte)
      (parts : List (List Byte)) (denied : Bool),
    let d := collDescOf k
    let ch := k.chunks.getD c {}
    let t := chunkTree k c
    let own := k.members.filter (fun x => x.pkg == pkgId s && x.pkg * 64 + x.field != gRoot d)
    let (lo, len) := chunkSpan d c
    collOf s seq = some k →
    (k.zeroed = false → exec (.chunkPartialArrival seq c node) s = .next (collStart seq s)) ∧
    (k.zeroed = true → ch.reset = true → exec (.chunkPartialArrival seq c node) s = .next (collResets seq s)) ∧
    (∀ e, k.zeroed = true → t.find? (fun e => e.b == node) = some e → chunkRuns s k c = true → gKind d ≠ 2 → c < gCount d → ch.phase ≤ 1 → chunkOrder k c 1 = true → node ∉ ch.sent →
      node / 64 = pkgId s → (∀ x ∈ t, x.a = node → x.b ∈ ch.sent) → nodeWaits k c node = false → nodeWaits k c e.a = false →
      (∀ p, nodePartial k ch c node s = (.ok p, s') → e.a / 64 = pkgId s' → exec (.chunkPartialArrival seq c node) s = .next (mergeChild k c e p s')) ∧
      (∀ p, nodePartial k ch c node s = (.ok p, s') → e.a / 64 ≠ pkgId s' → ∀ m, memberOf k (gRoot d) = some m →
        let out := fun (arr : List Nat) (s : State) => modChunk k.seq c (fun x => { x with phase := 1, sent := x.sent ++ [node], arrived := arr }) (flits s)
        (m.pkg ≠ pkgId s' ∨ ch.phase = 1 → exec (.chunkPartialArrival seq c node) s = .next (out ch.arrived s')) ∧
        (m.pkg = pkgId s' → ch.phase ≠ 1 → partWaits k m c = false →
          (∀ s1, mileWrite k m c 1 1 s' = (.ok (), s1) → exec (.chunkPartialArrival seq c node) s = .next (out [gRoot d] s1)) ∧
          (∀ x s1, mileWrite k m c 1 1 s' = (.error x, s1) → exec (.chunkPartialArrival seq c node) s = .next (collFault m k.seq c 7 x false s1)))) ∧
      (∀ m x, nodePartial k ch c node s = (.error (m, x), s') → exec (.chunkPartialArrival seq c node) s = .next (collFault m seq c 6 x false s'))) ∧
    (∀ m, memberOf k (gRoot d) = some m → chunkRuns s k c = true → m.pkg = pkgId s → partWaits k m c = false → c < gCount d → chunkOrder k c 2 = true →
      (if gKind d = 2 then ch.phase = 0 else ch.phase = 1 ∧ ∀ n ∈ gMembers d, n ∈ ch.arrived) →
      let part := nodePartial k (if gKind d = 2 then {} else ch) c (gRoot d) s
      let result := fun (p : List (List Byte)) => if gKind d = 2 then p.headD [] else chunkResult d p
      let ph := if gKind d = 1 then 3 else 2
      (∀ x e, part = (.error (x, e), s') → exec (.chunkReduced seq c) s = .next (collFault x seq c 6 e false s')) ∧
      (∀ p s1 x, part = (.ok p, s') → dstWrite k m lo (result p) s' = (.error x, s1) → exec (.chunkReduced seq c) s = .next (collFault m seq c 7 x false s1)) ∧
      (∀ p s1 s2, part = (.ok p, s') → dstWrite k m lo (result p) s' = (.ok (), s1) → mileWrite k m c ph ch.arrived.length s1 = (.ok (), s2) →
        exec (.chunkReduced seq c) s = .next (collEnd seq (modChunk seq c (fun x => { x with phase := ph, partials := [], sent := [], result := [] }) s2)))) ∧
    (∀ m, memberOf k (gRoot d) = some m → chunkRuns s k c = true → c < gCount d → ch.phase = 2 → (∀ x ∈ own, partWaits k x c = false) →
      (m.pkg ≠ pkgId s → pkgId s ∉ ch.pkgsDone →
        (deliverTo k lo ch.result own s = (none, s') →
          exec (.chunkDelivered seq c) s = .next (modChunk seq c (fun x => { x with pkgsDone := x.pkgsDone ++ [pkgId s] }) (flits s'))) ∧
        (∀ x e, deliverTo k lo ch.result own s = (some (x, e), s') → exec (.chunkDelivered seq c) s = .next (collFault x seq c 7 e false s'))) ∧
      (m.pkg = pkgId s → partWaits k m c = false → chunkOrder k c 3 = true → (∀ p ∈ gPkgs d, p = pkgId s ∨ p ∈ ch.pkgsDone) →
        (∀ bs s1 s2, memberRead m (m.dst.toNat + lo) len s = (.ok bs, s1) → deliverTo k lo bs own s1 = (none, s2) → mileWrite k m c 3 ch.arrived.length s2 = (.ok (), s') →
          exec (.chunkDelivered seq c) s = .next (collEnd seq (modChunk seq c (fun x => { x with phase := 3 }) (flits s')))) ∧
        (∀ e, memberRead m (m.dst.toNat + lo) len s = (.error e, s') → exec (.chunkDelivered seq c) s = .next (collFault m seq c 6 e false s')))) ∧
    (k.paused = true → k.status = none →
      let ts := buildTrees s d
      let renewed := modColl seq (fun k => { k with
        paused := false, trees := ts, gen := k.gen + 1
        chunks := k.chunks.map (fun c =>
          if c.phase ≤ 1 then { ({} : Chunk) with reset := c.reset || (decide (gRoot d / 64 = pkgId s) && c.phase == 1) } else if c.phase == 2 then { c with pkgsDone := [] } else c) })
        (sbEvent (3, 0) .note (countRetree k s))
      exec (.reTree seq) s = .next (if ts = [] then collFinish seq 0x34 renewed else collResets seq renewed)) ∧
    (∀ m : CMember, partWaits k m c = true ↔ ∃ x ∈ m.faults, treeNo k x.1 = treeNo k c) ∧
    (k.paused = false ∨ k.status ≠ none → exec (.reTree seq) s = .next s) ∧
    (exec (.quifinMessage (.coll pkg field desc)) s = .next (if pkg = pkgId s ∨ 16 ≤ pkg ∨ 64 ≤ field ∨ desc.length ≠ 64 then s
      else collAccept { id := s.nextId, pkg := pkg, field := field, blk := 0, tag := 0, src := 0, dst := 0, desc := desc } false { s with nextId := s.nextId + 1 })) ∧
    (let old : RemoteLinks := mget default s.remoteLinks pkg
     let u := pauseRemote pkg old (old.up.filter (fun n => !up.contains n)) { s with remoteLinks := mput s.remoteLinks pkg { up := up, far := far, fallow := fal } }
     exec (.quifinMessage (.links pkg up far fal)) s = .next (if pkg = pkgId s ∨ 16 ≤ pkg then s else u.colls.foldl (fun s k =>
       if k.started = false ∧ k.status = none ∧ groupBad s (collDescOf k) = true then collFinish k.seq 0x31 s else collStart k.seq s) u)) ∧
    (∀ e, t.find? (fun e => e.b == node) = some e → chunkRuns s k c = true → node / 64 ≠ pkgId s → e.a / 64 = pkgId s → gKind d ≠ 2 → c < gCount d → ch.phase ≤ 1 →
      chunkOrder k c 1 = true → node ∉ ch.sent → nodeWaits k c e.a = false → exec (.quifinMessage (.partialChunk seq c node parts)) s = .next (mergeChild k c e parts s)) ∧
    (exec (.quifinMessage (.ended seq denied)) s = .next (collFinish seq (if denied = true then 0x10 else 0x35) s)) ∧
    (exec (.quifinMessage (.resultChunk seq c bytes)) s = .next (if collRuns s k = true ∧ gRoot d / 64 ≠ pkgId s ∧ c < gCount d ∧ ch.phase ≤ 1 then
      modChunk seq c (fun x => { x with phase := 2, result := bytes }) s else s)) ∧
    (exec (.quifinMessage (.chunkDone seq c pkg)) s = .next (
      if collRuns s k = false ∨ pkg = pkgId s ∨ gCount d ≤ c then s
      else if gRoot d / 64 = pkg then collEnd seq (modChunk seq c (fun x => { x with phase := 3 }) s)
      else if gRoot d / 64 = pkgId s then modChunk seq c (fun x => { x with pkgsDone := x.pkgsDone ++ [pkg] }) s
      else s))

-- Device events: queues and blocks -------------------------------------------------------------------------------------------

/-- Commands of a ring (R192-R202, R209, R260): the next entry of an ACTIVE queue with nothing at its head is taken by the command of its kind, or, with a bad field,
journalled FAILED REC_BAD by any of them; with nothing to take, or an entry of another kind, nothing happens. A SIGNAL ends after every earlier command.
Where DONEVALUE is written, and with which status where it cannot be, is the model's reading (assumption 81). -/
def Obligations.QueueCommands : Prop :=
  ∀ (s s1 : State) (q : Nat) (e : BitVec 512),
    let k := getQ s q
    let i := k.rd.toNat
    let t := modQ q (fun k => { k with rd := k.rd + 1 }) s1
    let all := [Instr.cmdNop q, .cmdLaunch q, .cmdSignal q, .cmdDepset q]
    let takes := fun (n : Nat) => q < 256 ∧ mayTake k = true ∧ nextEntry q s = (e, s1) ∧ recBad k e = false ∧ nbits e 0 8 = n
    (takes 0 → exec (.cmdNop q) s = .next (journal q i 4 0 (lTag e) 0 t)) ∧
    (takes 1 → exec (.cmdLaunch q) s = .next (modQ q (fun k => { k with head := some t.nextId, released := false, launches := k.launches ++ [t.nextId] })
      { t with launches := mput t.launches t.nextId { id := t.nextId, queue := q, index := i, entry := e }, nextId := t.nextId + 1 })) ∧
    (takes 2 → exec (.cmdSignal q) s = .next (modQ q (fun k => { k with signal := some (i, e) }) t)) ∧
    (takes 3 → exec (.cmdDepset q) s = .next (journal q i 4 0 (lTag e) 0 { t with depctr := mput t.depctr (nbits e 16 12) (bits e 64 32) })) ∧
    (∀ n j, takes n → all[n]? ≠ some j → j ∈ all → exec j s = .next s) ∧
    (256 ≤ q ∨ mayTake k = false → ∀ j ∈ all, exec j s = .next s) ∧
    (q < 256 → mayTake k = true → nextEntry q s = (e, s1) → recBad k e = true → ∀ j ∈ all,
      exec j s = .next (sbEvent (1, q) (.queueFault q (getQ s1 q).nextSeq 0x15) (journal q (getQ s1 q).rd.toNat 5 0x15 (lTag e) 0 t))) ∧
    (∀ j x, k.signal = some (j, x) → k.launches = [] → exec (.signalDone q) s = .next (
      let w := writeDone (qRegion k) x ((upto 64).foldl (fun s f => flushRdc f s) ((mkeys s.cores).foldl (fun s g => flushL1 g s) s))
      journal q j 4 (if w.1 then 0 else 0x16) (lTag x) 0 (modQ q (fun k => { k with signal := none }) w.2))) ∧
    (k.signal = none ∨ k.launches ≠ [] → exec (.signalDone q) s = .next s)

/-- Doorbells, the arbiter and the end of blocks (R40-R42, R194, R195, R200, R202-R207, R260): a write index is taken, one that passes the ring faults the queue, and one
to an unbound or a device queue, or past the ring of a queue that is KILLING or FAULTED, is ignored. A decision checks every head, releases every head whose counter reads
zero, requests pre-emption for each head that fails only for lack of cores, and visits, at the least level of a head that passes admission, the queue whose turn it is. A
block with nothing outstanding writes its registers back and leaves, unless one of them cannot be written. A drained kill, for which a move of its region under way is not yet,
writes the L1s of its cores back, drops its blocks' work, removes the blocks, journals DRAINED, and, with the last of its queue, stops the queue. Which writes must be made
before a block leaves, when an engine has acknowledged a kill and which blocks a head may pre-empt are the model's readings (assumptions 35, 54, 61). -/
def Obligations.QueueAndBlockEvents : Prop :=
  ∀ (s : State) (q b idx : Nat) (v : Word),
    let k := getQ s q
    (q < 256 → k.state ≠ .unbound → qDevice k = false → (v - k.rd).toNat ≤ 2 ^ qLog k → exec (.doorbell q v) s = .next (modQ q (fun k => { k with wr := v }) s)) ∧
    (q < 256 → (k.state = .active ∨ k.state = .stopped) → qDevice k = false → 2 ^ qLog k < (v - k.rd).toNat →
      exec (.doorbell q v) s = .next (sbEvent (1, q) (.queueFault q k.nextSeq 0x14) (journal q 0 5 0x14 0 0 (modQ q (fun k => { k with state := .faulted }) s)))) ∧
    (256 ≤ q ∨ k.state = .unbound ∨ qDevice k = true ∨ (2 ^ qLog k < (v - k.rd).toNat ∧ k.state ≠ .active ∧ k.state ≠ .stopped) → exec (.doorbell q v) s = .next s) ∧
    (let s1 := latchHeads ((boundQueues s).foldl (fun s q => checkHead q s) s)
     let heads := (boundQueues s).filterMap (fun q => (eligibleHead s1 q).map (fun l => (q, l)))
     let level := fun (s : State) (x : Nat × Launch) => qLevel s (getQ s x.1)
     let s1' := heads.foldl (fun s x => (useRanges s x.2).foldl (fun s r => readLeaves (qRegion (getQ s x.1)) r.1 r.2 s) s) (readHomes heads s1)
     let s2 := (sortBy (level s1') (heads.filter (fun x => (admission s1' x.2).2))).foldl (fun s x => preemptFor x.2 s) s1'
     match leastBy (level s2) (heads.filter (fun x => (admission s2 x.2).1.isSome)) with
     | none => exec .queueVisit s = .next s2
     | some x =>
       let cyc := (boundQueues s).filter (fun q => qLevel s2 (getQ s2 q) == level s2 x)
       let p := mget 0 s2.pointers (level s2 x)
       let turn := (cyc.find? (fun q => p ≤ q)).getD (cyc.headD 0)
       exec .queueVisit s = .next (visitQueue turn { s2 with pointers := mput s2.pointers (level s2 x) (turn + 1) })) ∧
    (mayRetireBlk s b = false → exec (.blockRetire b) s = .next s) ∧
    (mayRetireBlk s b = true → anyPinned (getBlk (saveRegs b s) b) = true → exec (.blockRetire b) s = .next (saveRegs b s)) ∧
    (mayRetireBlk s b = true → anyPinned (getBlk (saveRegs b s) b) = false → exec (.blockRetire b) s = .next (
      let s1 := departDeficit (getBlk (saveRegs b s) b) (saveRegs b s)
      let k := getBlk s1 b
      let s2 := modLaunch k.launch (fun l => { l with live := l.live - 1, sum := l.sum + k.residence })
        (settleCtx b 1 (freeHeldFor k (removeBlk b (chargePath k.region (-1) (-(backingOf k : Int)) s1))))
      maybeEnd k.launch (growWake (fileReady k.core (getCore s2 k.core).ready.length s2)))) ∧
    (∀ s : State, mfind (removeBlk b s).blocks b = none) ∧
    (∀ kl, s.kills[idx]? = some kl → killMoves s kl = true → exec (.killDrained idx) s = .next s) ∧
    (∀ kl, s.kills[idx]? = some kl → killMoves s kl = false → exec (.killDrained idx) s = .next (
      let s0 := kl.blocks.foldl (fun s b => flushL1 (getBlk s b).core s) { s with kills := s.kills.eraseIdx idx }
      let qs := match kl.queue with | some q => [q] | none => (kl.blocks.map (fun b => (getBlk s0 b).queue)).eraseDups
      let s1 := kl.blocks.foldl (fun s b =>
        let k := getBlk s b
        let s := settleCtx b 1 (freeHeldFor k (removeBlk b (chargePath k.region 0 (-(backingOf k : Int)) s)))
        modLaunch k.launch (fun l => { l with live := l.live - 1, sum := l.sum + k.residence }) s) (dropWork kl.blocks s0)
      let s2 := qs.foldl (fun s q =>
        let s := if (getQ s q).state = .unbound then s else journal q 0 7 0 0 0 s
        if kl.queue = some q ∧ s.kills.any (fun x => x.queue == some q) = false then
          modQ q (fun k => { k with state := if k.state = .killing then .stopped else k.state }) s else s) s1
      let ls := (kl.blocks.map (fun b => (getBlk s0 b).launch)).eraseDups ++ (match kl.queue with | some q => (getQ s2 q).launches | none => [])
      pumpYokes (growWake (ls.eraseDups.foldl (fun s l => maybeEnd l s) s2)))) ∧
    (s.kills[idx]? = none → exec (.killDrained idx) s = .next s)

/-- Saving and resumption (R36, R37, R94-R97, R148): the save of a block that may stop begins, from when its tiles no longer hold a power request; where no access of it is held
back it writes its registers back and, where its image can be written, is SAVED; where it cannot stop, or a part of it cannot be written, or waits for its pseudo-channel, it
is not saved. A saved unit that is not held, fits its CORES budgets, has good images and finds cores is restored on them; a bad image is reported as CTX_BAD and keeps it from
being restored. When a write-back must wait, what the image holds, which cores a unit finds and that a BACKING budget does not make it wait are the model's (assumptions 35,
36, 95, 110, 114). -/
def Obligations.SaveAndResume : Prop :=
  ∀ (s : State) (b : Nat),
    let unit := unitBlocks s b
    let s0 := modBlk b (fun k => { k with saving := true }) s
    let served := heldReach s0 (saveBlock b s0) = []
    let s1 := saveRegs b s0
    let k := getBlk s1 b
    let n := k.savedConsists.length + ((getCore s1 k.core).consists.filter (fun e => e.2.blk == b)).length
    let image := imageOf k (grantOf (getCore s1 k.core) k) n (flushRdc (fieldOf k.core) (flushL1 k.core s1))
    let free := (getBlk s b).phase = .saved ∧ (∀ k ∈ unit, k.phase = .saved ∧ k.held = false ∧ k.halted = false) ∧ coresRoom s (getBlk s b).region unit.length = true
    (mayStop s b = false → exec (.contextSave b) s = .next s) ∧
    (mayStop s b = true → saveHeld s0 (getBlk s0 b) = true → exec (.contextSave b) s = .next s0) ∧
    (mayStop s b = true → saveHeld s0 (getBlk s0 b) = false → ¬ served → exec (.contextSave b) s = .next s0) ∧
    (mayStop s b = true → saveHeld s0 (getBlk s0 b) = false → served → anyPinned k = true → exec (.contextSave b) s = .next s1) ∧
    (mayStop s b = true → saveHeld s0 (getBlk s0 b) = false → served → anyPinned k = false → termPuts k.region 1000 k.handle image.1 image.2 = none →
      exec (.contextSave b) s = .next image.2) ∧
    (∀ s3, mayStop s b = true → saveHeld s0 (getBlk s0 b) = false → served → anyPinned k = false → termPuts k.region 1000 k.handle image.1 image.2 = some s3 →
      mfind s3.blocks b ≠ none → ∃ t, exec (.contextSave b) s = .next t ∧ (getBlk t b).phase = .saved) ∧
    (¬ free → exec (.resumption b) s = .next s) ∧
    (∀ s1, free → unitGood unit s = (false, s1) → exec (.resumption b) s = .next s1) ∧
    (∀ s1, free → unitGood unit s = (true, s1) → resumePlace (readResume unit s1) unit = none → exec (.resumption b) s = .next (readResume unit s1)) ∧
    (∀ s1 gs, free → unitGood unit s = (true, s1) → resumePlace (readResume unit s1) unit = some gs → exec (.resumption b) s = .next (
      (unit.zip gs).foldl restoreOn (readResume unit s1)))

-- Device events: the mailbox and the registers ----------------------------------------------------------------------------------

/-- The host mailbox and the signal box (R211-R216, R230, R299). A GO hands the inbound entry over or, while one is pending, is lost; the host's counts only where the block
is granted to it. The outbound ring is enabled or refused, and its read index moves within the entries. A core takes the event it picks
and drops it when it is served, and holds it while it cannot be. A request that is next, while the outbound ring has room, is carried out and replied to with its status; else it
waits; no core serves anything before start-up has started the firmware. The order among events of one kind is the model's choice (assumption 57), and that a misused
request answers BAD_OP before DENIED its reading (assumption 58). That a refused ENABLE leaves the other fields written is its choice (assumption 115). -/
def Obligations.MailboxEvents : Prop :=
  ∀ (s : State) (host : Bool) (v : DWord) (sb : Nat) (r : MbxReq),
    let n := nbits v 0 4
    let base := nbits s.mbxOutBase 0 52
    let k := getQ s r.queue
    let serves := fun (i : Instr) (code : Nat) (act : MbxReq → State → Nat × State) =>
      (∀ c e, reqNext code r s = some (c, e) → s.fwUp = true → mbxOpen s = true →
        exec i s = .next (let x := act r (sbHand c e s); dropEvent e.seq (reply e.seq r x.1 x.2))) ∧
      (reqNext code r s = none ∨ s.fwUp = false ∨ mbxOpen s = false → exec i s = .next s)
    (host = true → 8 ∉ s.grants → exec (.mbxindbGo host) s = .next s) ∧
    ((host = true → 8 ∈ s.grants) → s.mbxBusy = false → exec (.mbxindbGo host) s = .next (sbEvent (4, 0) (.request s.mbxIn host) { s with mbxBusy := true })) ∧
    ((host = true → 8 ∈ s.grants) → s.mbxBusy = true → exec (.mbxindbGo host) s = .next { s with mbxLost := true }) ∧
    (bit v 16 = false → exec (.mbxoutctlWrite v) s = .next { s with mbxOutCtl := (v &&& 0x1FFFF) ||| (s.mbxOutCtl &&& 0x20000) }) ∧
    (bit v 16 = true → 4 ≤ n → n ≤ 12 → base % (2 ^ n * 64) = 0 → backed s base = true → exec (.mbxoutctlWrite v) s = .next { s with mbxOutCtl := v &&& 0x1FFFF }) ∧
    (bit v 16 = true → (n < 4 ∨ 12 < n ∨ base % (2 ^ n * 64) ≠ 0 ∨ backed s base = false) →
      exec (.mbxoutctlWrite v) s = .next { s with mbxOutCtl := (v &&& 0xFFFF) ||| 0x20000 }) ∧
    ((s.mbxOutWr - v.setWidth 32).toNat ≤ 2 ^ mbxLog s → exec (.mbxoutrdWrite v) s = .next { s with mbxOutRd := v.setWidth 32 }) ∧
    (2 ^ mbxLog s < (s.mbxOutWr - v.setWidth 32).toNat → exec (.mbxoutrdWrite v) s = .next s) ∧
    (12 ≤ sb ∨ s.fwUp = false ∨ sbPick s sb = none → exec (.signalBoxEvent sb) s = .next s) ∧
    (∀ e, sb < 12 → s.fwUp = true → sbPick s sb = some e →
      (∀ t, serve e (sbHand sb e s) = some t → exec (.signalBoxEvent sb) s = .next (dropEvent e.seq t)) ∧
      (serve e (sbHand sb e s) = none → exec (.signalBoxEvent sb) s = .next (sbHand sb e s))) ∧
    serves (.bind r) 1 bindOp ∧ serves (.stop r) 2 stopOp ∧ serves (.resume r) 3 resumeOp ∧ serves (.kill r) 4 killOp ∧ serves (.unbind r) 5 unbindOp ∧
    serves (.uselist r) 6 uselistOp ∧ serves (.useclear r) 7 useclearOp ∧
    (r.misused = true → bindOp r s = (1, s) ∧ stopOp r s = (1, s) ∧ resumeOp r s = (1, s) ∧ killOp r s = (1, s) ∧ unbindOp r s = (1, s) ∧ uselistOp r s = (1, s) ∧
      useclearOp r s = (1, s)) ∧
    (r.misused = false → reqDenied r s = false →
      (k.state = .active → stopOp r s = (0, stopQueue r.queue s)) ∧ (k.state ≠ .active → stopOp r s = (2, s)) ∧
      (k.state = .stopped ∨ k.state = .faulted → pathValid s (qRegion k) = true →
        resumeOp r s = (0, journal r.queue 0 9 0 0 0 (modQ r.queue (fun k => { k with state := .active }) s))) ∧
      (k.state ≠ .unbound → killOp r s = (0, killQueue r.queue s)) ∧ (k.state = .unbound → killOp r s = (2, s)) ∧
      (k.state = .active ∨ k.state = .killing ∨ k.state = .unbound → unbindOp r s = (2, s)))

/-- Registers of the control space (R231, R236, R238, R249-R252, R257, R258, R288, R302, R307): what each write does. A window's alias lines are written back and dropped
before its registers change; a region block that is not held is not reread; a register the spec does not list ignores a write. The host clears the start-up records only through
its BARs, once they are exposed. What a store to part of a register writes and when a world-map command takes effect are the model's readings (assumptions 65 and 77), that a
refused window stores the FORMAT that was written, that bits [11:0] of FTWSCALE.BASE read 0 and what WMAPCMD reads after a refused command its choices (assumptions 116, 126 and
131). -/
def Obligations.RegisterEvents : Prop :=
  ∀ (s : State) (a n f w reg : Nat) (v : DWord) (x : Word) (host : Bool),
    let t := dropWindow f w s
    let k := getWin t f w
    let win := f < 64 ∧ w < 16
    let set := fun (h : Window → Window) => modFld f (fun k => { k with windows := mput k.windows w (h (mget {} k.windows w)) }) t
    (mfind s.rcbs a = none → exec (.rcbsync a) s = .next s) ∧
    (∀ old, mfind s.rcbs a = some old →
      let (bytes, _, s1) := homeGets a 256 s
      let new : BitVec 2048 := ofBytes 2048 bytes
      let s2 := keepShares a (shareLimits old) (shareLimits new) { s1 with rcbs := mput s1.rcbs a new }
      nbits old 0 52 = nbits new 0 52 → (∀ q ∈ boundQueues s, below s a (qRegion (getQ s q)) = true → pathValid s2 (qRegion (getQ s2 q)) = true) →
      let s3 := if nbits old 78 4 ≠ nbits new 78 4 ∨ nbits old 128 104 ≠ nbits new 128 104 then sbEvent (2, a) .note s2 else s2
      exec (.rcbsync a) s = .next (growWake ((overBudget s3 a).foldl (fun s b => stopBlock b s) s3))) ∧
    (∃ t, exec (.rcbsync a) s = .next t) ∧
    (v = 0 → exec (.plinv v) s = .next { s with placeCache := [] }) ∧
    (v ≠ 0 → exec (.plinv v) s = .next { s with placeCache := s.placeCache.filter (fun e => e.2.1 != nbits v 21 36) }) ∧
    exec (.depctrWrite n x) s = .next (if n < 4096 then { s with depctr := mput s.depctr n x } else s) ∧
    (win → bit v 0 = false → exec (.ftwctlWrite f w v) s = .next (set (fun k' => { k' with ctl := (v &&& 7) ||| (k.ctl &&& 8) }))) ∧
    (win → bit v 0 = true → winOk t f k (nbits v 1 2) = true → exec (.ftwctlWrite f w v) s = .next (set (fun k' => { k' with ctl := v &&& 7 }))) ∧
    (win → bit v 0 = true → winOk t f k (nbits v 1 2) = false → exec (.ftwctlWrite f w v) s = .next (set (fun k' => { k' with ctl := (v &&& 6) ||| 8 }))) ∧
    (win → bit k.ctl 0 = true → exec (.ftwRegisterWrite f w reg v) s = .next t) ∧
    (win → bit k.ctl 0 = false → exec (.ftwRegisterWrite f w 1 v) s = .next (set (fun k' => { k' with enc := v &&& 0xFFFFFF000 })) ∧
      exec (.ftwRegisterWrite f w 2 v) s = .next (set (fun k' => { k' with len := v &&& 0xFFFFFF })) ∧
      exec (.ftwRegisterWrite f w 3 v) s = .next (set (fun k' => { k' with scale := v &&& 0xFFFFFF000 }))) ∧
    (64 ≤ f ∨ 16 ≤ w → exec (.ftwctlWrite f w v) s = .next s ∧ exec (.ftwRegisterWrite f w reg v) s = .next s) ∧
    exec .trinvVa s = .next (startInval 0 s.trinvVa.toNat s.trinvRoot.toNat none [] 0 0 s) ∧
    exec .trinvRoot s = .next (startInval 1 s.trinvVa.toNat s.trinvRoot.toNat none [] 0 0 s) ∧
    exec .trinvAll s = .next (startInval 2 s.trinvVa.toNat s.trinvRoot.toNat none [] 0 0 s) ∧
    ((host = true → s.hostUp = true ∧ (bit s.bootStat 13 = true ∨ 7 ∈ s.grants)) → exec (.bootresetClear host) s = .next { s with bootRecs := s.bootRecs.map (fun e => (e.1, setBits e.2 8 4 0)) }) ∧
    (host = true → s.hostUp = false ∨ (bit s.bootStat 13 = false ∧ 7 ∉ s.grants) → exec (.bootresetClear host) s = .next s) ∧
    (s.wmapBusy ≠ none ∨ 32768 < nbits v 6 15 + (nbits v 21 15 + 1) ∨ nbits v 40 24 ≠ 0 → exec (.wmapcmd v) s = .next { s with wmapErr := true }) ∧
    (s.wmapBusy = none → nbits v 6 15 + (nbits v 21 15 + 1) ≤ 32768 → nbits v 40 24 = 0 → exec (.wmapcmd v) s = .next (
      let pa := nbits v 0 6 * 2 ^ 36 + nbits v 6 15 * 2 ^ 21
      let z := zeroRange pa ((nbits v 21 15 + 1) * 2 ^ 21) { s with wmapErr := false, wmapBusy := some v, wmapCmd := v }
      { z with worldMap := (upto (nbits v 21 15 + 1)).foldl (fun m i =>
          if bits v 36 4 = (0 : BitVec 4) then mdel m (pa / 2 ^ 21 + i) else mput m (pa / 2 ^ 21 + i) (bits v 36 4)) z.worldMap })) ∧
    exec .wmapCommandComplete s = .next { s with wmapBusy := none } ∧
    (n < 256 → exec (.registerWrite (16 * n) v) s = exec (.doorbell n (bits v 0 32)) s) ∧
    exec (.registerWrite 0x100000 v) s = exec (.rcbsync v.toNat) s ∧ exec (.registerWrite 0x100008 v) s = exec (.plinv v) s ∧
    (nbits v 38 2 = 1 → exec (.registerWrite 0x200000 v) s = exec (.fqcmdReplay (nbits v 32 6) (bits v 0 32)) s) ∧
    (nbits v 38 2 = 2 → exec (.registerWrite 0x200000 v) s = exec (.fqcmdDeny (nbits v 32 6) (bits v 0 32)) s) ∧
    (nbits v 38 2 = 0 ∨ nbits v 38 2 = 3 → exec (.registerWrite 0x200000 v) s = .next (evAdd (nbits v 32 6) 0x70 1 s)) ∧
    exec (.registerWrite 0x200008 v) s = .next { s with trinvVa := v } ∧
    exec (.registerWrite 0x200010 v) s = .next { s with trinvRoot := v &&& 0xFFFFFFFFFFFFF } ∧
    (nbits v 0 2 = 0 → exec (.registerWrite 0x200018 v) s = exec .trinvVa s) ∧ (nbits v 0 2 = 1 → exec (.registerWrite 0x200018 v) s = exec .trinvRoot s) ∧
    (nbits v 0 2 = 2 → exec (.registerWrite 0x200018 v) s = exec .trinvAll s) ∧ (nbits v 0 2 = 3 → exec (.registerWrite 0x200018 v) s = .next s) ∧
    exec (.registerWrite 0x700050 v) s = exec (.wmapcmd v) s ∧ exec (.registerWrite 0x800000 v) s = .next { s with mbxOutBase := v &&& 0xFFFFFFFFFFFFF } ∧
    exec (.registerWrite 0x800008 v) s = exec (.mbxoutctlWrite v) s ∧ exec (.registerWrite 0x800018 v) s = exec (.mbxoutrdWrite v) s ∧
    (9 ≤ a / 2 ^ 20 → exec (.registerWrite a v) s = .next s) ∧
    (∃ t, exec (.registerWrite a v) s = .next t)

-- Device events: links, power, governors, memory ---------------------------------------------------------------------------------

/-- Links (R262-R264, R275, R286): DISABLE holds a link in DISABLED and its clearing lets it go DOWN; a failure of an UP link is counted and signalled; training starts from
DOWN and ends UP, with DISABLE = 0, or DOWN; an injector is armed with its counts cleared, or refused, counts each flit and fires at its count. That a link that has no far end
never leaves DOWN (assumption 71), that DISABLE of an ID that names no link is stored and does nothing else (assumption 136), that a refused arming takes the other fields
(assumption 135), that one event is one data flit (assumption 72), and that an injector whose N is then written 0 counts none (assumption 130) are the model's choices. -/
def Obligations.LinkEvents : Prop :=
  ∀ (s : State) (id : Nat) (ok : Bool) (v : DWord),
    let l := getLink s id
    let put := fun (h : Link → Link) (s : State) => ({ s with links := mput s.links id (h (getLink s id)) } : State)
    let down := put (fun l => { l with state := 0, downs := if l.downs = 0xFFFF then l.downs else l.downs + 1 })
    let lost := fun (st : Nat) (s : State) => pauseColls id (sbEvent (3, 0) (.link id st) s)
    let arm : DWord := (v ||| 1) &&& 0xFFFF07FF
    let counted := if id < 128 then perfAdd (if bit l.inj 4 then (linkEnds id).2 else (linkEnds id).1) 0x13 none none 1 s else s
    let n := nbits l.injN 0 32
    let live := id < 152 ∧ l.state = 1 ∧ bit l.inj 0 = true ∧ n ≠ 0
    let count := nbits l.injC 0 32 + 1
    (id < 256 → l.disable = false → l.state = 1 → exec (.linkDisable id) s = .next (lost 3 (put (fun l => { l with disable := true, state := if linkNamed s id then 3 else l.state }) s))) ∧
    (id < 256 → l.disable = false → l.state ≠ 1 → exec (.linkDisable id) s = .next (put (fun l => { l with disable := true, state := if linkNamed s id then 3 else l.state }) s)) ∧
    (256 ≤ id ∨ l.disable = true → exec (.linkDisable id) s = .next s) ∧
    (id < 256 → l.disable = true → l.state = 3 → exec (.linkEnable id) s = .next (down (put (fun l => { l with disable := false }) s))) ∧
    (id < 256 → l.disable = true → l.state ≠ 3 → exec (.linkEnable id) s = .next (put (fun l => { l with disable := false }) s)) ∧
    (256 ≤ id ∨ l.disable = false → exec (.linkEnable id) s = .next s) ∧
    (id < 256 → nbits arm 2 2 ≠ 3 → nbits l.injN 0 32 ≠ 0 → nbits arm 5 6 < linkLanes id →
      exec (.linkinjArm id v) s = .next (put (fun l => { l with inj := arm, injC := 0, injF := 0 }) s)) ∧
    (id < 256 → nbits arm 2 2 = 3 ∨ nbits l.injN 0 32 = 0 ∨ linkLanes id ≤ nbits arm 5 6 → exec (.linkinjArm id v) s = .next (put (fun l => { l with inj := arm &&& ~~~1 }) s)) ∧
    (256 ≤ id → exec (.linkinjArm id v) s = .next s) ∧
    (live → count < n → exec (.injectorFire id) s = .next (put (fun l => { l with injC := setBits l.injC 0 32 count }) counted)) ∧
    (live → n ≤ count → exec (.injectorFire id) s = .next (put (fun l => { l with
      injF := if l.injF = 0xFFFFFFFF then l.injF else l.injF + 1
      injC := BitVec.ofNat 64 ((if bit l.inj 1 then 0 else count) + 2 ^ 32)
      inj := if bit l.inj 1 then l.inj else l.inj &&& ~~~1 }) counted)) ∧
    (id < 152 → l.state = 1 → bit l.inj 0 = false ∨ n = 0 → exec (.injectorFire id) s = .next counted) ∧
    (152 ≤ id ∨ l.state ≠ 1 → exec (.injectorFire id) s = .next s) ∧
    (id < 152 → l.state = 1 → exec (.linkFailure id) s = .next (lost 0 (down s))) ∧
    (152 ≤ id ∨ l.state ≠ 1 → exec (.linkFailure id) s = .next s) ∧
    (linkNamed s id = true → l.state = 0 → l.disable = false → exec (.linkTrainingStart id) s = .next (put (fun l => { l with state := 2 }) s)) ∧
    (linkNamed s id = false ∨ l.state ≠ 0 ∨ l.disable = true → exec (.linkTrainingStart id) s = .next s) ∧
    (l.state = 2 → (l.disable = false → exec (.linkTrainingEnd id true) s = .next (put (fun l => { l with state := 1 }) s)) ∧
      (l.disable = true → exec (.linkTrainingEnd id true) s = .next s) ∧ exec (.linkTrainingEnd id false) s = .next (down s)) ∧
    (l.state ≠ 2 → exec (.linkTrainingEnd id ok) s = .next s)

/-- Pseudo-channel power and retraining (R297, R298): a request is refused while one is pending, waits for a retraining, is held while a live tile has save-area bytes
there whose save has not begun, or enters its state; ACTIVE is entered at once. Accesses that waited are served then. A pseudo-channel that is due is retrained, one of a field
at a time, for at most 8192 cycles. That TD is the one last sensed, by start-up or an evaluation, and that a refused request leaves the register's other fields are the model's choices (assumptions 103 and 131). -/
def Obligations.PowerEvents : Prop :=
  ∀ (s : State) (f p n : Nat), f < 64 → p < 32 →
    let k := getFld s f
    let req := fun (st : Nat) => BitVec.ofNat 64 (p + 32 * st)
    let at_ := fun (st : Nat) (h : Field → Field) => modFld f h (modFld f (fun k => { k with pcpwr := req st, pcpwrErr := false }) s)
    let refused := fun (i : Instr) => k.pcpwrReq ≠ 0 → exec i s = .next (modFld f (fun k => { k with pcpwrErr := true }) s)
    let asks := fun (i : Instr) (st : Nat) => refused i ∧
      (k.pcpwrReq = 0 → k.retrain = some p → exec i s = .next (at_ st (fun k => { k with pcpwrReq := 1 }))) ∧
      (k.pcpwrReq = 0 → k.retrain ≠ some p → tileOn s f p = true → exec i s = .next (sbEvent (0, f) (.power f p st true) (at_ st (fun k => { k with pcpwrReq := 2 })))) ∧
      (k.pcpwrReq = 0 → k.retrain ≠ some p → tileOn s f p = false → exec i s = .next (serveHeld (at_ st (fun k => { k with pcpwrReq := 0, pchState := mput k.pchState p st }))))
    let td := k.td
    let due := 128 ≤ (td - mget 0 k.trainTd p).natAbs ∨ 16 < mget 0 k.corrected p
    let trained := evAdd f 0x18 (min n 8192) (evAdd f 0x10 1 (serveHeld (modFld f (fun k => { k with retrain := none }) (setNow f (k.now + min n 8192) s))))
    refused (.pcpwrActive f p) ∧
    (k.pcpwrReq = 0 → exec (.pcpwrActive f p) s = .next (at_ 0 (fun k => { k with pchState := mdel k.pchState p }))) ∧
    asks (.pcpwrSelfRefresh f p) 1 ∧ asks (.pcpwrPowerDown f p) 2 ∧
    (k.pcpwrReq = 2 → nbits k.pcpwr 0 5 = p → tileOn s f p = false → exec (.pcpwrHoldEnd f) s = .next (serveHeld (modFld f (fun k =>
      { k with pcpwrReq := 0, pchState := mput k.pchState (nbits k.pcpwr 0 5) (nbits k.pcpwr 5 2) }) (sbEvent (0, f) (.power f p (nbits k.pcpwr 5 2) false) s)))) ∧
    (k.pcpwrReq ≠ 2 ∨ tileOn s f (nbits k.pcpwr 0 5) = true → exec (.pcpwrHoldEnd f) s = .next s) ∧
    (k.retrain = none → due → exec (.retrainStart f p) s = .next (sbEvent (0, f) .note (modFld f (fun k =>
      { k with retrain := some p, trainTd := mput k.trainTd p td, corrected := mdel k.corrected p }) s))) ∧
    (k.retrain ≠ none ∨ ¬ due → exec (.retrainStart f p) s = .next s) ∧
    (k.retrain = some p → (getFld trained f).pcpwrReq ≠ 1 ∨ nbits (getFld trained f).pcpwr 0 5 ≠ p → exec (.retrainEnd f n) s = .next trained) ∧
    (k.retrain = some p → (getFld trained f).pcpwrReq = 1 → nbits (getFld trained f).pcpwr 0 5 = p → exec (.retrainEnd f n) s = .next (pchProceed f trained)) ∧
    (k.retrain = none → exec (.retrainEnd f n) s = .next s)

/-- Governors, the upper tier, tests and reset (R35, R78, R289-R296, R299-R307, R456): a trip forces the hottest state at once; a held trip keeps it; else each control
moves to what is wanted at once when it rises and by one step after four evaluations in a row when it falls. A tier that is to be gated takes no block; its resident blocks are
pre-empted and held for their cores; with none left every FIFO of the field stands in the buffer of its pair of cores, in its order, the tier's L1s are written back and lose
their clean bytes, and the tier is down. A test pre-empts its field; a reset keeps memory and the start-up records and runs the eight steps, of which those after a stop are not
run. Which state a tripped fallow field enters and what start-up reads from outside are the model's (assumptions 74, 75, 76, 89), and so are that a reset keeps memory (assumption
133) and that a pseudo-channel's corrections stay counted until it trains (assumption 134). -/
def Obligations.DeviceEvents : Prop :=
  ∀ (s : State) (f n : Nat) (tl td : Int) (i : GovInputs) (b : BootInputs), f < 64 →
    let k := getFld s f
    let sense : DWord := BitVec.ofNat 64 (wrap 16 i.tlogic + wrap 16 i.tdram * 2 ^ 16 + i.power % 2 ^ 16 * 2 ^ 32)
    let window := modFld f (fun k => { k with sense := sense, td := i.tdram, shares := i.shares, oldShares := [], corrected := k.corrected.filter (fun c => 16 < c.2) }) (setNow f ((k.now / 65536 + 1) * 65536) s)
    let kw := getFld window f
    let trips := fun (s : State) =>
      let st := if f = fallow s then 6 else 7
      let t := enterState f st true (modFld f (fun k => { k with tripped := true, capForce := 5, divForce := 2, relCap := 0, relDiv := 0 }) s)
      sbEvent (0, f) (.governor f (getFld t f).sense st true) t
    let hot := 115 * 16 ≤ i.tlogic ∨ 105 * 16 ≤ i.tdram
    let warm := 112 * 16 ≤ i.tlogic ∨ 102 * 16 ≤ i.tdram
    let capped := modFld f (fun k => { k with ceiling := ceilingOf window f }) window
    (k.tripped = false → 115 * 16 ≤ tl ∨ 105 * 16 ≤ td → exec (.trip f tl td) s = .next (trips s)) ∧
    (k.tripped = true ∨ (tl < 115 * 16 ∧ td < 105 * 16) → exec (.trip f tl td) s = .next s) ∧
    (kw.tripped = false → hot → exec (.governorEvaluation f i) s = .next (trips capped)) ∧
    (kw.tripped = true → warm → exec (.governorEvaluation f i) s = .next capped) ∧
    ((kw.tripped = false ∧ ¬ hot) ∨ (kw.tripped = true ∧ ¬ warm) → exec (.governorEvaluation f i) s = .next (
      let cap := if kw.tripped then 5 else kw.capForce
      let div := if kw.tripped then 2 else kw.divForce
      let pw := capPower cap i.power
      let nCap := if pw < cap ∧ capOf (i.tlogic + 48) < cap then (if kw.tripped then 1 else kw.relCap + 1) else 0
      let nDiv := if refreshOf (i.tdram + 48) < div then (if kw.tripped then 1 else kw.relDiv + 1) else 0
      let cap' := moveStep (max (capOf i.tlogic) pw) cap nCap
      let div' := moveStep (refreshOf i.tdram) div nDiv
      let t := modFld f (fun k => { k with
        tripped := false, ceiling := ceilingOf window f, capForce := cap', divForce := div', relCap := min nCap 4, relDiv := min nDiv 4 }) window
      enterState f (gradState (f == fallow t) (ceilingOf window f) cap' div') false t)) ∧
    exec (.clockStretch f n) s = .next (evAdd f 0x08 n s) ∧
    (let closing := modFld f (fun k => { k with gating := true }) s
     let gs := (mkeys s.cores).filter (fun g => fieldOf g == f)
     let flushed := gs.foldl (fun s g => if 128 ≤ g % 256 then modCore g (fun c => { c with l1 := dropClean false c.l1 }) (flushL1 g s) else s) closing
     let buffer := fun (n : Nat) => (getCore flushed (f * 256 + n)).fifo ++ (getCore flushed (f * 256 + n + 128)).fifo
     (k.gated = false → blocksIn s f true = [] → exec (.upperTierGate f) s = .next (modFld f (fun k => { k with
        gated := true, gating := false, yokeBuf := ((upto 128).filter (fun n => !(buffer n).isEmpty)).map (fun n => (n, buffer n)) })
        (gs.foldl (fun s g => modCore g (fun c => { c with fifo := [] }) s) flushed))) ∧
     (k.gated = false → blocksIn s f true = [] → ∃ t, exec (.upperTierGate f) s = .next t ∧ (getFld t f).gated = true ∧ (getFld t f).gating = false ∧
        (∀ n < 128, mget [] (getFld t f).yokeBuf n = buffer n ∧ (getCore t (f * 256 + n)).fifo = [] ∧ (getCore t (f * 256 + n + 128)).fifo = [])) ∧
     (k.gated = false → blocksIn s f true ≠ [] → exec (.upperTierGate f) s = .next ((blocksIn s f true).foldl (fun s b =>
      preemptUnit b.id (modCore b.core (fun c => { c with heldFor := true }) (modBlk b.id (fun k => { k with coreHeld := true }) s))) closing))) ∧
    (k.gated = true → exec (.upperTierGate f) s = .next s) ∧
    (k.gated = true → ∃ t, exec (.upperTierUngate f) s = .next t ∧ (getFld t f).gated = false ∧ (getFld t f).yokeBuf = []) ∧
    (k.gated = false → exec (.upperTierUngate f) s = .next s) ∧
    (f ≠ fallow s → k.testing = false → exec (.inFieldTest f) s =
      .next ((blocksIn s f false).foldl (fun s b => preemptUnit b.id s) (modFld f (fun k => { k with testing := true }) s))) ∧
    (f ≠ fallow s → k.testing = true → blocksIn s f false = [] → exec (.inFieldTest f) s = .next (modFld f (fun k => { k with testing := false }) s)) ∧
    (f = fallow s ∨ (k.testing = true ∧ blocksIn s f false ≠ []) → exec (.inFieldTest f) s = .next s) ∧
    exec (.moduleReset b) s = .next (bootSteps b 8 1 { State.reset with
      mem := s.mem, memErr := s.memErr, agenda := s.agenda, nextBlk := s.nextBlk, nextUid := s.nextUid, nextId := s.nextId, ticks := s.ticks, free := s.free
      bootRecs := s.bootRecs, startNo := s.startNo + 1 }) ∧
    (bit s.bootStat 13 = true → bootStep b n s = ({ s with bootRecs := mput s.bootRecs n (bootRec s n 0 0) }, true))

/-- Memory events (R58, R135, R139, R140, R142, R172, R188, R239-R242, R288, R299, R308): an evicted line's dirty bytes are written back before it goes; an error lands in the
place it names; the host, once it is let in, reads and writes at the home what it may reach; a range moves only where the rules let it, and its move has a beginning and an end.
Which place holds an error's word, what errors of furrow segments do, which pages can move and the order of a move's steps, and what the host's BARs reach are the model's
(assumptions 21, 22, 78, 79, 80). -/
def Obligations.MemoryEvents : Prop :=
  ∀ (s : State) (g f ln i j w row seg pa off n q va dst region : Nat) (write : Bool) (bytes : List Byte) (dbl : Bool),
    let counts := fun (s : State) (off : Nat) => if fieldOf g = fallow s then s else evAdd (fieldOf g) off 1 s
    let room := 0 < bytes.length ∧ bytes.length ≤ 4096 ∧ (target pa = .host ∨ ∃ h o, target pa = .dev h o) ∧
      ∀ i < bytes.length, backed s (pa + i) = true ∧ (target (pa + i) = .host ∨ ((∃ h o, target (pa + i) = .dev h o) ∧ paSecure s (pa + i) = false))
    exec (.cacheEviction (.l1 g ln)) s = .next (modCore g (fun c => { c with l1 := mdel c.l1 ln }) (cleanL1 g ln s)) ∧
    exec (.cacheEviction (.rdc f ln)) s = .next (modFld f (fun k => { k with rdc := mdel k.rdc ln }) (cleanRdc f ln s)) ∧
    exec (.cacheEviction (.viewOf ln)) s = .next (aliasDrop ln s) ∧
    exec (.cacheEviction (.fetchBuffer g ln)) s = .next (modCore g (fun c => { c with fetchBuf := mdel c.fetchBuf ln }) s) ∧
    exec (.cacheEviction (.coreTlb g i)) s = .next (modCore g (fun c => { c with tlb := c.tlb.eraseIdx i }) s) ∧
    exec (.cacheEviction (.walkAheadTlb f i)) s = .next (modFld f (fun k => { k with walkTlb := k.walkTlb.eraseIdx i }) s) ∧
    exec (.cacheEviction (.terminusTlb i)) s = .next { s with termTlb := s.termTlb.eraseIdx i } ∧
    exec (.cacheEviction (.placementCache i)) s = .next { s with placeCache := s.placeCache.eraseIdx i } ∧
    exec (.softError (.home pa) dbl) s = .next (homeError false (pa / 8 * 8) dbl s) ∧
    (∀ b r, exec (.softError (.register b r i) dbl) s = .next (
      if i < 256 ∧ resident (getBlk s b) = true then regError b r i (softBits (getTh s b r) i dbl) s else s)) ∧
    (off < 262144 → exec (.softError (.scratch g off) false) s = .next (counts s 0x30)) ∧
    (off < 262144 → exec (.softError (.scratch g off) true) s = .next (
      if (off / 8, true) ∈ (getCore s g).scratchErr then s
      else counts (modCore g (fun c => { c with scratchErr := (off / 8, true) :: c.scratchErr.filter (fun e => e.1 != off / 8) }) s) 0x40)) ∧
    (262144 ≤ off → exec (.softError (.scratch g off) dbl) s = .next s) ∧
    (mfind (getCore s g).l1 (pa / 128) = none → exec (.softError (.l1 g pa) dbl) s = .next s) ∧
    (∀ l, mfind (getCore s g).l1 (pa / 128) = some l →
      exec (.softError (.l1 g pa) false) s = .next (evAdd (fieldOf g) 0x30 1 s) ∧
      exec (.softError (.l1 g pa) true) s = .next (
        if l.dirty = 0 then evAdd (fieldOf g) 0x38 1 (modCore g (fun c => { c with l1 := mdel c.l1 (pa / 128) }) s)
        else if bit l.poison (pa / 8 % 16) = true then s
        else evAdd (fieldOf g) 0x40 1 (modCore g (fun c => { c with l1 := mput c.l1 (pa / 128) { l with poison := l.poison ||| (1 <<< (pa / 8 % 16)) } }) s))) ∧
    (mfind (getFld s f).rdc (pa / 128) = none → exec (.softError (.rdc f pa) dbl) s = .next s) ∧
    (∀ l, mfind (getFld s f).rdc (pa / 128) = some l →
      exec (.softError (.rdc f pa) false) s = .next (evAdd f 0x30 1 s) ∧
      exec (.softError (.rdc f pa) true) s = .next (
        if l.dirty = 0 then evAdd f 0x38 1 (modFld f (fun k => { k with rdc := mdel k.rdc (pa / 128) }) s)
        else if bit l.poison (pa / 8 % 16) = true then s
        else evAdd f 0x40 1 (modFld f (fun k => { k with rdc := mput k.rdc (pa / 128) { l with poison := l.poison ||| (1 <<< (pa / 8 % 16)) } }) s))) ∧
    (exec (.softError (.llcScratch f j w off) dbl) s = .next (
      let key := (w * 2 ^ 20 + off % 2 ^ 20) / 8
      if role (getSlice s f j).inForce w ≠ 1 then s
      else if dbl = false then evAdd f 0x30 1 s
      else if (key, true) ∈ (getSlice s f j).scratchErr then s
      else evAdd f 0x40 1 (modSlice f j (fun k => { k with scratchErr := (key, true) :: k.scratchErr.filter (fun e => e.1 != key) }) s))) ∧
    (exec (.softError (.furrow f j w row seg) dbl) s = .next (
      if role (getSlice s f j).inForce w ≠ 2 ∨ 128 ≤ row ∨ 1024 ≤ seg then s
      else modSlice f j (fun k => { k with badSeg := (w, row, seg) :: k.badSeg.filter (· != (w, row, seg)) }) s)) ∧
    (s.hostUp = false → exec (.hostAccess pa write bytes) s = .next s) ∧
    (s.hostUp = true → room → write = true → exec (.hostAccess pa write bytes) s =
      .next ((upto (bytes.length / 128 + 1)).foldl (fun s i => homePuts (pa + 128 * i) ((bytes.drop (128 * i)).take 128) s) s)) ∧
    (s.hostUp = true → room → write = false → exec (.hostAccess pa write bytes) s =
      .next ((upto (bytes.length / 128 + 1)).foldl (fun s i => (homeGets (pa + 128 * i) (min 128 (bytes.length - 128 * i)) s).2.2) s)) ∧
    (s.hostUp = true → (∀ o, target pa ≠ .ctl o) → ¬ room → exec (.hostAccess pa write bytes) s = .next s) ∧
    (∀ o, s.hostUp = true → target pa = .ctl o → exec (.hostAccess pa write bytes) s = .next (
      if write = true ∧ bytes ≠ [] ∧ o + bytes.length ≤ 2 ^ 24 then { s with agenda := s.agenda ++ (hostWrites s o bytes).map .event } else s)) ∧
    (∀ h o p, target pa = .dev f o → target dst = .dev h p → f ≠ h → o + n ≤ 2 ^ 36 → p + n ≤ 2 ^ 36 → n % 4096 = 0 → 0 < n → n ≤ 2 ^ 30 → pa % 4096 = 0 → dst % 4096 = 0 →
      exec (.migration pa dst n) s = .next (pullRange false dst n (moveBytes pa dst n (pullRange true pa n s)))) ∧
    (let r := rangeAt s region va
     let t := readLeaves region r.1 r.2 s
     let under := t.moves.find? (fun m => m.region == region && m.lo == r.1 && m.dst == dst)
     ((mfind s.rcbs region).isSome = true → dst / 2 ^ 51 = 1 → dst % 4096 = 0 →
       (under = none → rangeIn t region r true = true → mayEvict t region r = true → exec (.rangeEviction region va dst) s = .next (startMove region r.1 r.2 dst false t)) ∧
       (under = none → rangeIn t region r true = false ∨ mayEvict t region r = false → exec (.rangeEviction region va dst) s = .next t) ∧
       (∀ m, under = some m → exec (.rangeEviction region va dst) s = .next (endMove m t))) ∧
     (mfind s.rcbs region = none ∨ dst / 2 ^ 51 ≠ 1 ∨ dst % 4096 ≠ 0 → exec (.rangeEviction region va dst) s = .next s)) ∧
    (∀ l u r, (getQ s q).head.bind (fun id => mfind s.launches id) = some l → s.useLists.find? (fun (u : UseList) => u.queue == q && u.index == l.index) = some u →
      u.ranges.find? (covers va) = some r →
      let t := readLeaves (qRegion (getQ s q)) r.1 r.2 s
      let under := t.moves.find? (fun m => m.region == qRegion (getQ s q) && m.lo == r.1 && m.dst == dst)
      let fits := isDev dst = true ∧ isDev (dst + r.2 - 1) = true
      (fits → dst % 4096 = 0 → under = none → exec (.rangeMigrateBack q va dst) s = .next (startMove (qRegion (getQ s q)) r.1 r.2 dst true t)) ∧
      (∀ m, fits → dst % 4096 = 0 → under = some m → exec (.rangeMigrateBack q va dst) s = .next (endMove m t)) ∧
      (¬ fits → exec (.rangeMigrateBack q va dst) s = .next (modLaunch l.id (fun l => { l with stay := r :: l.stay }) s))) ∧
    (∀ a b : Nat × Nat, 0 < a.2 → 0 < b.2 → (meets a b = true ↔ ∃ x, a.1 ≤ x ∧ x < a.1 + a.2 ∧ b.1 ≤ x ∧ x < b.1 + b.2)) ∧
    (mayEvict s region (rangeAt s region va) = true → ∀ u ∈ rangeUses s (regRoot s region) (rangeAt s region va), u.2.2 = false) ∧
    ((getQ s q).head = none → exec (.rangeMigrateBack q va dst) s = .next s)

-- Encoding -------------------------------------------------------------------------------------------------------------------

/-- Decoding the encoded word of a well-formed instruction, or drill command, gives it back, with every field at every value (R309-R346). -/
def Obligations.DecodeOfEncode : Prop :=
  ∀ (i : Instr) (w : IWord), wellFormed i = true → encode i = some w → if isDrillCmd i then decodeDrill w = some i else decodeWord w = i

/-- Encoding what a word decodes to gives the word back: no bit of a word or of a drill command is dropped (R314-R316, R328). -/
def Obligations.EncodeOfDecode : Prop :=
  (∀ w : IWord, encode (decodeWord w) = some w) ∧ (∀ (w : IWord) (i : Instr), decodeDrill w = some i → isDrillCmd i = true ∧ encode i = some w)

/-- The twelve bytes of a slot, lowest first, decode as the word they hold, and no other number of bytes decodes (R309). -/
def Obligations.SlotBytesDecode : Prop :=
  (∀ (w : IWord) (n : Nat), decodeBytes (toBytes 12 w) = some (decodeWord w) ∧ decodeTableWord n w.toNat = some (decodeWord w)) ∧
  (∀ bs : List Byte, bs.length ≠ 12 → decodeBytes bs = none) ∧
  (∀ bs : List Byte, bs.length = 12 → ∃ w, decodeBytes bs = some (decodeWord w) ∧ ∀ i < 12, nbits w (8 * i) 8 = (bs.getD i 0).toNat)

/-- The words that the spec prints decode to the instructions it prints them for (R233, R322, R349, the example of chapter 33 and others). -/
def Obligations.PrintedWordsDecode : Prop :=
  let g : Guard := { neg := 0, pred := 7, fx := 0 }
  decodeWord 0x001C0000C200000000000000 = .clause { g := g, wait := 0, len := 1, seta := 16, setb := 16, unif := 0, rsv := 0 } ∧
  decodeWord 0x009CFFFFC000000000000008 = .br { g := g, d := 0x1FF, a := 0x1FF, am := 0, rsv := 0, ty := 0, mods := 0, imm := 8 } ∧
  decodeWord 0xF01CFFFFC003FFFF00000000 = .trsync { g := g, d := 0x1FF, a := 0x1FF, am := 0, b := 0x1FF, c := 0x1FF, ty := 0, mods := 0, imm := 0 } ∧
  decodeWord 0x20DC02004000040360000000 = .fma { g := g, d := 4, a := 1, am := 0, b := 2, c := 3, ty := 12, mods := 0, imm := 0 } ∧
  decodeWord 0x401C04010003FE4050000040 =
    .ld { g := g, data := 8, base := 4, am := 0, index := 0x1FF, width := 2, space := 0, order := 1, scope := 1, hint := 0, offset := 0x40 } ∧
  decodeWord 0x505CFF840430001400000000 = .tcopy { g := g, status := 0x1FF, coord := 0x10, rslot := 1, tag := 3, espec := 0, opnd := 0x14, ectl := 0 } ∧
  decodeWord 0x70DC0683C010000C4248F000 = .fwop { g := g, status := 0xD, coord := 0xF, rslot := 0, tag := 1, espec := 0, opnd := 0xC, ectl := 0x4248F000 } ∧
  decodeWord 0x721CFFC10002110600000000 = .coll { g := g, status := 0x1FF, coord := 0x104, rslot := 0, tag := 0, espec := 0x108, opnd := 0x106, ectl := 0 } ∧
  decodeWord 0x039C01C10003FE4000000080 =
    .waitaddr { g := g, data := 3, base := 0x104, am := 0, index := 0x1FF, width := 2, space := 0, order := 0, scope := 0, hint := 0, offset := 0x80 } ∧
  decodeWord 0x429CFF81C003FE0200000000 =
    .ysend { g := g, data := 0x1FF, base := 7, am := 0, index := 0x1FF, width := 0, space := 1, order := 0, scope := 0, hint := 0, offset := 0 } ∧
  decodeDrill 0x10058180080400040080001F = some (.dmma {
    id := 5, p1v := 1, p1 := 3, p2v := 0, p2 := 0, acc := 2, reca := 0, recb := 1, ctl := 0x40080001F }) ∧
  decodeBytes [0x00, 0x00, 0x00, 0x60, 0x03, 0x04, 0x00, 0x40, 0x00, 0x02, 0xDC, 0x20] = some (decodeWord 0x20DC02004000040360000000)

-- Steps -----------------------------------------------------------------------------------------------------------------------

/-- A step with an empty agenda runs the instruction of the agent in turn: of a running clause the word its consist has come to, decoded; of a drill the command of
its table; it is exec of that instruction, followed by the end of every step. A device event on the agenda is exec of it, where it reaches no pseudo-channel that holds its
accesses and is not the host's behind another of the host's that waits; else it waits, and is tried again from its place (R147, R148, R172). An object that the signal box
measures, and a block whose pre-emption it requests, count once its firmware runs (R35, R299, R305). That what stands on the agenda comes before the agent in turn, that a
held event waits whole and what makes the signal box ask for a pre-emption are the model's choices (assumptions 5, 95, 132). -/
def Obligations.StepRunsDecoded : Prop :=
  (∀ (s : State) (g cn : Nat) (k : Consist) (cl : Clause), s.agenda = [] → s.turn = .core g → pick s g = some cn → consistOf s g cn = some k → k.clause = some cl →
    clauseOver s k cl = false → step s = ended (exec (decodeWord (cl.words.getD (1 + cl.issued) 0)) s)) ∧
  (∀ (s : State) (g cn : Nat) (k : Consist) (cl : Clause), s.agenda = [] → s.turn = .core g → pick s g = some cn → consistOf s g cn = some k → k.clause = some cl →
    clauseOver s k cl = true → step s = ended (exec (.clauseEnd g) s)) ∧
  (∀ (s : State) (g cn : Nat) (k : Consist), s.agenda = [] → s.turn = .core g → pick s g = some cn → consistOf s g cn = some k → k.clause = none →
    step s = ended (exec (decodeWord (peekHeader s g k)) s)) ∧
  (∀ (s : State) (b uid : Nat) (e : DEnt), s.agenda = [] → s.turn = .drill b uid → (getBlk s b).drill.table.find? (fun e => e.uid == uid) = some e → e.done = false →
    isDrillCmd e.instr = true → step s = ended (exec e.instr s)) ∧
  (∀ (s t : State) (i : Instr) (rest : List Act), s.agenda = .event i :: rest → isWord i = false → exec i { s with agenda := rest } = .next t →
    let ps := heldReach { s with agenda := rest } t
    let behind := fromHost i = true ∧ ∃ e ∈ s.heldEvs, fromHost e.2 = true
    (ps = [] → ¬ behind → step s = .next (finish t)) ∧
    (ps ≠ [] ∨ behind → step s = .next (finish { s with agenda := rest, heldEvs := s.heldEvs ++ [(ps, i)] }))) ∧
  (∀ (s t : State) (i : Instr) (rest : List Act), s.agenda = .served i :: rest → isWord i = false → exec i { s with agenda := rest } = .next t →
    let ps := heldReach { s with agenda := rest } t
    (ps = [] → step s = .next (finish t)) ∧ (ps ≠ [] → step s = .next (finish { s with agenda := rest, heldEvs := (ps, i) :: s.heldEvs }))) ∧
  (∀ (s : State) (b : Nat) (rest : List Act), s.agenda = .preempt b :: rest → s.fwUp = true → step s = .next (finish (preemptUnit b { s with agenda := rest }))) ∧
  (∀ (s : State) (b : Nat) (rest : List Act), s.agenda = .preempt b :: rest → s.fwUp = false → step s = .next (finish { s with agenda := rest })) ∧
  (∀ (s : State) (o : List Byte) (rest : List Act), s.agenda = .measure o :: rest → s.fwUp = true → step s = .next (finish { s with
    agenda := rest, meas := ofBytes 512 (shake256 (toBytes 64 s.meas ++ shake256 o)) })) ∧
  (∀ (s : State) (o : List Byte) (rest : List Act), s.agenda = .measure o :: rest → s.fwUp = false → step s = .next (finish { s with agenda := rest }))

/-- The machine never stops: every step answers a next state, and so does exec of every device event, in every state. -/
def Obligations.EveryStepAnswers : Prop :=
  (∀ s : State, ∃ t, step s = .next t) ∧ (∀ (i : Instr) (s : State), encode i = none → ∃ t, exec i s = .next t)

/-- After every step a consist that is marked eligible belongs to a resident block, waits on no fetch, and stands at a clause boundary or in a suspended clause
(R26, R27, R230). -/
def Obligations.EligibleConsistsKept : Prop :=
  ∀ s t : State, Settled s → step s = .next t → Settled t

/-- The reset state: no block, consist, queue or cached line; every map of registers empty, so that each register reads its reset value; memory lists nothing; what every
step keeps holds. The empty memory, the world map before step KEYS and the empty agenda are
the model's choice (assumptions 1, 3 and 5). -/
def Obligations.ResetState : Prop :=
  let s := State.reset
  Settled s ∧ Memory.wf s.mem = true ∧ s.mem = [] ∧ s.memErr = [] ∧ s.cores = [] ∧ s.blocks = [] ∧ s.queues = [] ∧ s.launches = [] ∧ s.agenda = [] ∧
  (∀ q, (getQ s q).state = .unbound ∧ (getQ s q).rd = 0 ∧ (getQ s q).wr = 0) ∧
  (∀ n, mget 0 s.depctr n = 0) ∧
  (∀ a, granSecure s a = false) ∧
  (∀ id, (getLink s id).state = 0 ∧ (getLink s id).disable = false) ∧
  (∀ f, (getFld s f).faults = [] ∧ (getFld s f).state = 0 ∧ (getFld s f).gated = false) ∧
  (∀ f w, (getWin s f w).ctl = 0) ∧
  (∀ f i, (getSlice s f i).inForce = 0 ∧ (getSlice s f i).committed = 0) ∧ (∀ f o, mget 0 (getFld s f).evcnt o = 0) ∧
  s.mbxOutBase = 0 ∧ s.mbxOutCtl = 0 ∧ s.mbxIn = 0 ∧ s.trinvVa = 0 ∧ s.trinvRoot = 0 ∧ s.meas = 0 ∧
  s.bootStat = 0 ∧ s.mbxOutWr = 0 ∧ s.mbxOutRd = 0 ∧ s.mbxBusy = false ∧ nextInstr s = none

-- Memory and registers ---------------------------------------------------------------------------------------------------------

/-- Home memory reads what was written last, at every address, every write keeps its canonical form, and two memories in that form that read alike are equal. -/
def Obligations.HomeMemoryReads : Prop :=
  (∀ (m : List Host.Cell) (a x : Nat) (v : Byte), memGet (memPut m a v) x = if x = a then v else memGet m x) ∧
  (∀ (m : List Host.Cell) (a x : Nat) (bs : List Byte), Memory.wf m = true →
    memGet (memPuts m a bs) x = if a ≤ x ∧ x < a + bs.length then bs.getD (x - a) 0 else memGet m x) ∧
  (∀ (m : List Host.Cell) (a : Nat) (v : Byte), Memory.wf m = true → Memory.wf (memPut m a v) = true) ∧
  (∀ (m : List Host.Cell) (a : Nat) (bs : List Byte), Memory.wf m = true → Memory.wf (memPuts m a bs) = true) ∧
  (∀ (m : List Host.Cell) (a n i : Nat), i < n → (memBytes m a n).getD i 0 = memGet m (a + i)) ∧
  (∀ m m' : List Host.Cell, Memory.wf m = true → Memory.wf m' = true → (∀ a, memGet m a = memGet m' a) → m = m')

/-- A stored value is there: a weak store of one thread to memory leaves its bytes, lowest first, in what its core sees (R46, R155), a store to scratch in the scratchpad
(R168), and a store at the home in home memory (R152). -/
def Obligations.StoredBytesRead : Prop :=
  ∀ (f : FmtM) (s s' : State) (c : Ctx) (x : LaneAt × Loc),
    let n := widthOf f
    let v : BitVec 128 := BitVec.ofNat 128 (dataVal c f x.1.1.2)
    Issues (.st f) s c →
    Reaches c { space := f.space.toNat, n := n, align := decide (f.order ≠ 0), acc := 1, detail := 1, code := 1, consume := false } (laneAddrs c (addrM c f)) s [x] s' →
    (∀ p, x.2 = .g p → p % 128 + n ≤ 128 → (∀ o, target p ≠ .ctl o) → hasRel f = false → f.hint ≠ 2 →
      ∃ t, exec (.st f) s = .next t ∧ ∀ i < n, coreByte t c.g (p + i) = bits v (8 * i) 8) ∧
    (∀ p, x.2 = .g p → p % 128 + n ≤ 128 → (∃ h o, target (p / 128 * 128) = .dev h o ∨ target (p / 128 * 128) = .host) → target p = .host ∨ (∃ h o, target p = .dev h o) →
      hasRel f = true → 2 ≤ f.scope.toNat → ∃ t, exec (.st f) s = .next t ∧ ∀ i < n, memGet t.mem (p + i) = bits v (8 * i) 8) ∧
    (∀ g off, x.2 = .sc ((upto n).map (fun i => Spot.pad g (off + i))) → ∃ t, exec (.st f) s = .next t ∧ ∀ i < n, padRead t g (off + i) = bits v (8 * i) 8)

/-- The frame of the words that write registers (R379-R403, R368, R427, R437, R452): memory and every cache, all that stands beside the registers of every thread, all
that stands beside the threads of every block, and every register but the destinations of the active threads are as they were, where no result differs from its clone's. Where
one differs (R92, R93) the deferred causes of the active threads may change beside, or, in a region that rolls back, the registers of the block; never memory, nor a register of
another block. -/
def Obligations.RegisterWordsFrame : Prop :=
  ∀ (i : Instr) (s : State) (c : Ctx), writesOnlyRegisters i = true → Issues i s c → ∃ t, exec i s = .next t ∧
    (Unshadowed s c.blk ∨ Undiffering s c → OnlyRegs c.blk (destRegs i c) s t) ∧
    (rollsBack s c.blk = false → memoryKept s t ∧ (∀ b', blockKept (getBlk s b') (getBlk t b')) ∧
      (∀ b' r, ¬(b' = c.blk ∧ ∃ l ∈ c.active, l.2 = r) → (getTh t b' r).deferred = (getTh s b' r).deferred) ∧
      (∀ b' r, threadKept (getTh s b' r) { getTh t b' r with deferred := (getTh s b' r).deferred }) ∧
      (∀ b' r num, ¬(b' = c.blk ∧ destRegs i c r num) → regAt t b' r num = regAt s b' r num)) ∧
    ((∀ a, memGet t.mem a = memGet s.mem a) ∧ (∀ b' r num, b' ≠ c.blk → regAt t b' r num = regAt s b' r num))

/-- The frame of the words that direct threads (R349-R355, R359, R363): memory, flags, trap registers, every tile, record, tag, barrier and drill, and every register but
a link are as they were. -/
def Obligations.ControlWordsFrame : Prop :=
  ∀ (i : Instr) (s : State) (c : Ctx), directsThreads i = true → Issues i s c → ∃ t, exec i s = .next t ∧ OnlyDirected c.blk (destRegs i c) s t

/-- The frame of loads, stores and atomics, each after the write-backs of its order, where the caches have room for the lines it touches, so that it evicts none: a load leaves
every byte of home memory and every register but its destination; a store or an atomic leaves every byte of home memory outside the bytes stored, at the addresses its
accesses resolve to; a weak store also every byte outside them that any core sees, and one with a release or `.nt`, where the caches hold clean bytes in whole aligned parts of
16 bytes, every byte that any core sees of the parts it does not touch; a store, or an atomic but for its destination, that meets no backing area leaves every register. An eviction writes back what the victim
holds (CACHE_EVICTION's operation). -/
def Obligations.MemoryWordsFrame : Prop :=
  ∀ (f : FmtM) (s s' : State) (c : Ctx) (xs : List (LaneAt × Loc)),
    let n := widthOf f
    let s0 := before c f xs s'
    let sq : Req := { space := f.space.toNat, n := n, align := decide (f.order ≠ 0), acc := 1, detail := 1, code := 1, consume := false }
    Roomy c.g (touched xs n) s0 →
    (∀ i, (i = .ld f ∧ Reaches c (loadReq f) (laneAddrs c (addrM c f)) s xs s') ∨ (i = .ldx f ∧ Reaches c (loadReq f) ((laneAddrs c (addrM c f)).take 1) s xs s') → Issues i s c →
      ∃ t, exec i s = .next t ∧ (∀ a, memGet t.mem a = memGet s0.mem a) ∧ (∀ b r num, ¬(b = c.blk ∧ destRegs i c r num) → regAt t b r num = regAt s b r num)) ∧
    (Issues (.st f) s c → Reaches c sq (laneAddrs c (addrM c f)) s xs s' → ∃ t, exec (.st f) s = .next t ∧
      (∀ a, clearOf xs n a → memGet t.mem a = memGet s0.mem a) ∧
      (hasRel f = false → f.hint ≠ 2 → ∀ g a, (g = c.g → clearOf xs n a) → coreByte t g a = coreByte s0 g a) ∧
      (WholeLines c.g (touched xs n) s0 → ∀ g a, (∀ i < 16, clearOf xs n (a / 16 * 16 + i)) → (∀ f w o, target a ≠ .viewOf f w o) → coreByte t g a = coreByte s0 g a) ∧
      (∀ g off, (∀ x ∈ xs, ∀ ps, x.2 = .sc ps → Spot.pad g off ∉ ps) → padRead t g off = padRead s0 g off) ∧
      ((∀ x ∈ xs, ∀ i < n, backingAt s0 (rootOf s0 c.blk) (x.1.2 + i) = none) → ∀ b r num, regAt t b r num = regAt s b r num)) ∧
    (∀ i, (i = .atom f ∧ Reaches c (atomReq f) (laneAddrs c (addrAtom c f false)) s xs s') ∨ (i = .atomn f ∧ Reaches c (atomReq f) (laneAddrs c (addrAtom c f true)) s xs s') ∨
        (i = .cas f ∧ Reaches c (atomReq f) (laneAddrs c (addrAtom c f false)) s xs s') → Issues i s c →
      ∃ t, exec i s = .next t ∧ (∀ a, clearOf xs n a → memGet t.mem a = memGet s0.mem a) ∧
        ((∀ x ∈ xs, ∀ i < n, backingAt s0 (rootOf s0 c.blk) (x.1.2 + i) = none) → ∀ b r num, ¬(b = c.blk ∧ destRegs i c r num) → regAt t b r num = regAt s b r num))

/-- Taking a trap (R38, R84-R87), of a block that is neither stopping nor saved: with a handler to go to, a recorded cause enters it at the thread's clause boundary; else, in
the Normal state, its oldest deferred cause does, with the thread's own PC as TRAPPC; a wait the thread has begun stays begun. With nothing to deliver, or in a block that is
stopping or saved, nothing changes. No other thread and no memory changes. Where and in which order deferred causes are delivered is the model's reading (assumption 11). -/
def Obligations.TrapTaken : Prop :=
  ∀ (s : State) (b r cn : Nat), (mfind s.blocks b).isSome = true → (mfind (getBlk s b).members r).isSome = true →
    let t := getTh s b r
    let u := deliver b r cn s
    let entry := regTrapEntry s (getBlk s b).region
    ((getBlk s b).phase = .resident → entry ≠ 0 →
      (∀ i, t.raised = some i → t.trap ≠ .handler → InHandler entry i t (getTh u b r) ∧ (getTh u b r).deferred = t.deferred) ∧
      (∀ d rest, t.raised = none → t.deferred = d :: rest → t.trap = .normal →
        InHandler entry { d with pc := t.pc } t (getTh u b r) ∧ (getTh u b r).deferred = rest) ∧
      (t.trap ≠ .handler → memoryKept s u ∧ ∀ b' r', ¬(b' = b ∧ r' = r) → getTh u b' r' = getTh s b' r')) ∧
    (t.raised = none → (t.deferred = [] ∨ t.trap ≠ .normal) → u = s) ∧
    ((getBlk s b).phase ≠ .resident → u = s)

/-- The handler entry is the region's; a second cause in the handler, or a cause where that entry is zero, is a double fault (R87, R89): a record with DOUBLE and the cause
that asks for no answer, and the policy of the region: the block is killed, every queue bound to the region or one below it is killed with its blocks, or the block is halted and
held; killing the region or halting is an event of the region for the signal box. A record joins the field's queue even where that is full: the model's choice
(assumption 102), as is where the thread of a halted block goes on (assumption 111); that at an entry of zero the thread is in the Handler state with its TRAPPC is its reading
(assumption 12). -/
def Obligations.DoubleFaults : Prop :=
  ∀ (s : State) (b r cn : Nat) (i : TrapInfo), (mfind s.blocks b).isSome = true → (mfind (getBlk s b).members r).isSome = true → (getTh s b r).raised = some i →
    (getBlk s b).phase = .resident →
    let k := getBlk s b
    let f := fieldOf k.core
    let u := deliver b r cn s
    ((getTh s b r).trap = .handler ∨ regTrapEntry s k.region = 0 →
      (∃ x ∈ (getFld u f).faults, x.seq = (getFld s f).faultSeq + 1 ∧ x.double = true ∧ x.cause = i.code.setWidth 6 ∧ x.open_ = false ∧
        (regFaultPol s k.region = 2 → (getFld u f).faults = (getFld s f).faults ++ [x])) ∧
      (regFaultPol s k.region = 0 → (getBlk u b).phase = .killed) ∧
      (regFaultPol s k.region = 1 → (∃ e ∈ u.events, e.what = .region k.region 2 k.handle) ∧
        ∀ q, mfind s.queues q ≠ none → (getQ s q).state ≠ .unbound → below s k.region (qRegion (getQ s q)) = true → (getQ u q).state = .killing ∧
          ((getQ s q).state ≠ .killing → ∀ b', mfind s.blocks b' ≠ none → (getBlk s b').queue = q →
            (getBlk s b').phase = .resident ∨ (getBlk s b').phase = .stopping ∨ (getBlk s b').phase = .saved → (getBlk u b').phase = .killed)) ∧
      (regFaultPol s k.region = 2 → (getBlk u b).held = true ∧ (getBlk u b).halted = true)) ∧
    ((getTh s b r).trap = .handler → (getTh u b r).cause = (getTh s b r).cause ∧ (getTh u b r).trappc = (getTh s b r).trappc ∧
      (getTh u b r).trapva = (getTh s b r).trapva ∧ (getTh u b r).trap = .handler) ∧
    ((getTh s b r).trap ≠ .handler → regTrapEntry s k.region = 0 → (getTh u b r).trap = .handler ∧ (getTh u b r).trappc = i.pc) ∧
    ((getTh s b r).trap ≠ .handler → regTrapEntry s k.region ≠ 0 → (getTh u b r).trap = .handler ∧ (getTh u b r).pc = regTrapEntry s k.region)

/-- Predicates and scalars (R49, R50): a write to p7 is discarded, a predicate destination takes each active thread's own bit and a scalar one the lowest active slot's
value in every active thread; as data a predicate reads 1 or 0, and p7 reads 1. -/
def Obligations.PredicateAndScalarWrites : Prop :=
  (∀ (v : Word) (t : Thread) (num : Nat), threadReg (putReg 0x147 v t) num = threadReg t num ∧ threadReg t 0x147 = 1) ∧
  (∀ (t : Thread) (num : Nat), 0x140 ≤ num → num < 0x147 → threadReg t num = 0 ∨ threadReg t num = 1) ∧
  (∀ (s : State) (c : Ctx) (spec : BitVec 9) (val : Nat × Nat → Bool), c.entry = none → 0x140 ≤ spec.toNat → spec.toNat < 0x147 → (c.active.map (·.2)).Nodup →
    (mfind s.blocks c.blk).isSome = true → ∀ l ∈ c.active, (mfind (getBlk s c.blk).members l.2).isSome = true →
      regAt (writeP c spec val s) c.blk l.2 spec.toNat = if val l then 1 else 0) ∧
  (∀ (s : State) (c : Ctx) (spec : BitVec 9) (val : Nat × Nat → Nat) (x : Nat × Nat) (rest : List (Nat × Nat)), c.entry = none → isS spec = true → c.active = x :: rest →
    (∀ l ∈ rest, x.1 < l.1) → (c.active.map (·.2)).Nodup → (mfind s.blocks c.blk).isSome = true → ∀ l ∈ c.active, (mfind (getBlk s c.blk).members l.2).isSome = true →
      regAt (writeLanes c spec 1 val s) c.blk l.2 spec.toNat = BitVec.ofNat 32 (val x))
end

