-- ==== Sys2Proof/Laws/Maps.lean ====
section
/-! SUPPORT. Laws of the sparse maps: what a put, a removal and a filter leave to be read. They hold of every list, ordered or not. -/
namespace Sys2Proof.Machine

theorem mfind_mput_same {α : Type} (m : SMap α) (i : Nat) (x : α) : mfind (mput m i x) i = some x := by
  induction m with
  | nil => simp [mput, mfind]
  | cons e m ih =>
    obtain ⟨k, v⟩ := e
    simp only [mput]
    split
    · simp [mfind]
    · split
      · simp [mfind]
      · rename_i h; simp [mfind, ih, Ne.symm h]
theorem mfind_mput_other {α : Type} (m : SMap α) (i j : Nat) (x : α) (h : j ≠ i) : mfind (mput m i x) j = mfind m j := by
  induction m with
  | nil => simp [mput, mfind, h.symm]
  | cons e m ih =>
    obtain ⟨k, v⟩ := e
    simp only [mput]
    split
    · simp [mfind, h.symm]
    · split
      · rename_i h2; subst h2; simp [mfind, h.symm]
      · simp [mfind, ih]
theorem mfind_mput {α : Type} (m : SMap α) (i j : Nat) (x : α) : mfind (mput m i x) j = if j = i then some x else mfind m j := by
  split
  · rename_i h; subst h; exact mfind_mput_same m j x
  · rename_i h; exact mfind_mput_other m i j x h
@[simp] theorem mget_mput_same {α : Type} (d : α) (m : SMap α) (i : Nat) (x : α) : mget d (mput m i x) i = x := by
  simp [mget, mfind_mput_same]
theorem mget_mput {α : Type} (d : α) (m : SMap α) (i j : Nat) (x : α) : mget d (mput m i x) j = if j = i then x else mget d m j := by
  simp only [mget, mfind_mput]; split <;> simp
theorem mget_mput_other {α : Type} (d : α) (m : SMap α) (i j : Nat) (x : α) (h : j ≠ i) : mget d (mput m i x) j = mget d m j := by
  simp [mget_mput, h]
theorem mfind_mdel {α : Type} (m : SMap α) (i j : Nat) : mfind (mdel m i) j = if j = i then none else mfind m j := by
  induction m with
  | nil => simp [mdel, mfind]
  | cons e m ih =>
    obtain ⟨k, v⟩ := e
    simp only [mdel, List.filter_cons] at ih ⊢
    by_cases hk : k = i
    · subst hk; simp only [bne_self_eq_false, Bool.false_eq_true, if_false, ih, mfind]
      by_cases hj : j = k
      · simp [hj]
      · simp [hj, Ne.symm hj]
    · simp only [bne_iff_ne, ne_eq, hk, not_false_eq_true, if_true, mfind, ih]
      by_cases h2 : k = j
      · subst h2; simp [hk]
      · simp [h2]
theorem mfind_of_mem_keys {α : Type} (m : SMap α) (i : Nat) (h : mfind m i ≠ none) : i ∈ mkeys m := by
  induction m with
  | nil => simp [mfind] at h
  | cons e m ih =>
    obtain ⟨k, v⟩ := e
    by_cases hk : k = i
    · simp [mkeys, hk]
    · simp only [mfind, hk, if_false] at h; simp only [mkeys, List.map_cons, List.mem_cons]; exact Or.inr (ih h)
theorem mfind_map {α β : Type} (m : SMap α) (f : α → β) (i : Nat) : mfind (m.map (fun e => (e.1, f e.2))) i = (mfind m i).map f := by
  induction m with
  | nil => simp [mfind]
  | cons e m ih => obtain ⟨k, v⟩ := e; simp only [List.map_cons, mfind]; split <;> simp_all
theorem mem_of_mfind {α : Type} (m : SMap α) (i : Nat) (x : α) (h : mfind m i = some x) : (i, x) ∈ m := by
  induction m with
  | nil => simp [mfind] at h
  | cons e m ih =>
    obtain ⟨k, v⟩ := e
    simp only [mfind] at h
    split at h
    · rename_i hk; subst hk; simp at h; simp [h]
    · exact List.mem_cons_of_mem _ (ih h)
/-- A map with `map` by key keeps an entry where the function keeps it. -/
theorem mfind_filter_some {α : Type} (m : SMap α) (p : Nat × α → Bool) (i : Nat) (x : α) (h : mfind m i = some x) (hp : ∀ k v, k = i → p (k, v) = true) :
    mfind (m.filter p) i = some x := by
  induction m with
  | nil => simp [mfind] at h
  | cons e m ih =>
    obtain ⟨k, v⟩ := e
    simp only [mfind] at h
    by_cases hk : k = i
    · subst hk; simp only [if_true, Option.some.injEq] at h; rw [List.filter_cons, if_pos (hp k v rfl)]; simp [mfind, h]
    · simp only [hk, if_false] at h
      simp only [List.filter_cons]; split
      · simp [mfind, hk, ih h]
      · exact ih h

end Sys2Proof.Machine
end

