-- ==== Sys2Proof/Laws/State.lean ====
section
/-! SUPPORT. One lemma for each field of State under each accessor update, and what the accessors read back. -/
namespace Sys2Proof.Machine

@[simp] theorem modCore_mem (g : Nat) (h : Core → Core) (s : State) : (modCore g h s).mem = s.mem := rfl
@[simp] theorem modCore_memErr (g : Nat) (h : Core → Core) (s : State) : (modCore g h s).memErr = s.memErr := rfl
@[simp] theorem modCore_memFlip (g : Nat) (h : Core → Core) (s : State) : (modCore g h s).memFlip = s.memFlip := rfl
@[simp] theorem modCore_aliasLines (g : Nat) (h : Core → Core) (s : State) : (modCore g h s).aliasLines = s.aliasLines := rfl
@[simp] theorem modCore_hostWatches (g : Nat) (h : Core → Core) (s : State) : (modCore g h s).hostWatches = s.hostWatches := rfl
@[simp] theorem modCore_worldMap (g : Nat) (h : Core → Core) (s : State) : (modCore g h s).worldMap = s.worldMap := rfl
@[simp] theorem modCore_fields (g : Nat) (h : Core → Core) (s : State) : (modCore g h s).fields = s.fields := rfl
@[simp] theorem modCore_blocks (g : Nat) (h : Core → Core) (s : State) : (modCore g h s).blocks = s.blocks := rfl
@[simp] theorem modCore_turn (g : Nat) (h : Core → Core) (s : State) : (modCore g h s).turn = s.turn := rfl
@[simp] theorem modCore_agenda (g : Nat) (h : Core → Core) (s : State) : (modCore g h s).agenda = s.agenda := rfl
@[simp] theorem modCore_touched (g : Nat) (h : Core → Core) (s : State) : (modCore g h s).touched = s.touched := rfl
@[simp] theorem modCore_heldEvs (g : Nat) (h : Core → Core) (s : State) : (modCore g h s).heldEvs = s.heldEvs := rfl
@[simp] theorem modCore_nextBlk (g : Nat) (h : Core → Core) (s : State) : (modCore g h s).nextBlk = s.nextBlk := rfl
@[simp] theorem modCore_nextUid (g : Nat) (h : Core → Core) (s : State) : (modCore g h s).nextUid = s.nextUid := rfl
@[simp] theorem modCore_nextId (g : Nat) (h : Core → Core) (s : State) : (modCore g h s).nextId = s.nextId := rfl
@[simp] theorem modCore_ticks (g : Nat) (h : Core → Core) (s : State) : (modCore g h s).ticks = s.ticks := rfl
@[simp] theorem modCore_free (g : Nat) (h : Core → Core) (s : State) : (modCore g h s).free = s.free := rfl
@[simp] theorem modCore_queues (g : Nat) (h : Core → Core) (s : State) : (modCore g h s).queues = s.queues := rfl
@[simp] theorem modCore_launches (g : Nat) (h : Core → Core) (s : State) : (modCore g h s).launches = s.launches := rfl
@[simp] theorem modCore_inflight (g : Nat) (h : Core → Core) (s : State) : (modCore g h s).inflight = s.inflight := rfl
@[simp] theorem modCore_decs (g : Nat) (h : Core → Core) (s : State) : (modCore g h s).decs = s.decs := rfl
@[simp] theorem modCore_depctr (g : Nat) (h : Core → Core) (s : State) : (modCore g h s).depctr = s.depctr := rfl
@[simp] theorem modCore_pointers (g : Nat) (h : Core → Core) (s : State) : (modCore g h s).pointers = s.pointers := rfl
@[simp] theorem modCore_rcbs (g : Nat) (h : Core → Core) (s : State) : (modCore g h s).rcbs = s.rcbs := rfl
@[simp] theorem modCore_charges (g : Nat) (h : Core → Core) (s : State) : (modCore g h s).charges = s.charges := rfl
@[simp] theorem modCore_pools (g : Nat) (h : Core → Core) (s : State) : (modCore g h s).pools = s.pools := rfl
@[simp] theorem modCore_termTlb (g : Nat) (h : Core → Core) (s : State) : (modCore g h s).termTlb = s.termTlb := rfl
@[simp] theorem modCore_placeCache (g : Nat) (h : Core → Core) (s : State) : (modCore g h s).placeCache = s.placeCache := rfl
@[simp] theorem modCore_kills (g : Nat) (h : Core → Core) (s : State) : (modCore g h s).kills = s.kills := rfl
@[simp] theorem modCore_useLists (g : Nat) (h : Core → Core) (s : State) : (modCore g h s).useLists = s.useLists := rfl
@[simp] theorem modCore_hostRanges (g : Nat) (h : Core → Core) (s : State) : (modCore g h s).hostRanges = s.hostRanges := rfl
@[simp] theorem modCore_moves (g : Nat) (h : Core → Core) (s : State) : (modCore g h s).moves = s.moves := rfl
@[simp] theorem modCore_events (g : Nat) (h : Core → Core) (s : State) : (modCore g h s).events = s.events := rfl
@[simp] theorem modCore_eventSeq (g : Nat) (h : Core → Core) (s : State) : (modCore g h s).eventSeq = s.eventSeq := rfl
@[simp] theorem modCore_mbxOutBase (g : Nat) (h : Core → Core) (s : State) : (modCore g h s).mbxOutBase = s.mbxOutBase := rfl
@[simp] theorem modCore_mbxOutCtl (g : Nat) (h : Core → Core) (s : State) : (modCore g h s).mbxOutCtl = s.mbxOutCtl := rfl
@[simp] theorem modCore_mbxOutWr (g : Nat) (h : Core → Core) (s : State) : (modCore g h s).mbxOutWr = s.mbxOutWr := rfl
@[simp] theorem modCore_mbxOutRd (g : Nat) (h : Core → Core) (s : State) : (modCore g h s).mbxOutRd = s.mbxOutRd := rfl
@[simp] theorem modCore_mbxIn (g : Nat) (h : Core → Core) (s : State) : (modCore g h s).mbxIn = s.mbxIn := rfl
@[simp] theorem modCore_mbxBusy (g : Nat) (h : Core → Core) (s : State) : (modCore g h s).mbxBusy = s.mbxBusy := rfl
@[simp] theorem modCore_mbxLost (g : Nat) (h : Core → Core) (s : State) : (modCore g h s).mbxLost = s.mbxLost := rfl
@[simp] theorem modCore_hostUp (g : Nat) (h : Core → Core) (s : State) : (modCore g h s).hostUp = s.hostUp := rfl
@[simp] theorem modCore_fwUp (g : Nat) (h : Core → Core) (s : State) : (modCore g h s).fwUp = s.fwUp := rfl
@[simp] theorem modCore_grants (g : Nat) (h : Core → Core) (s : State) : (modCore g h s).grants = s.grants := rfl
@[simp] theorem modCore_trinvVa (g : Nat) (h : Core → Core) (s : State) : (modCore g h s).trinvVa = s.trinvVa := rfl
@[simp] theorem modCore_trinvRoot (g : Nat) (h : Core → Core) (s : State) : (modCore g h s).trinvRoot = s.trinvRoot := rfl
@[simp] theorem modCore_invals (g : Nat) (h : Core → Core) (s : State) : (modCore g h s).invals = s.invals := rfl
@[simp] theorem modCore_ctxWaits (g : Nat) (h : Core → Core) (s : State) : (modCore g h s).ctxWaits = s.ctxWaits := rfl
@[simp] theorem modCore_copies (g : Nat) (h : Core → Core) (s : State) : (modCore g h s).copies = s.copies := rfl
@[simp] theorem modCore_colls (g : Nat) (h : Core → Core) (s : State) : (modCore g h s).colls = s.colls := rfl
@[simp] theorem modCore_collWait (g : Nat) (h : Core → Core) (s : State) : (modCore g h s).collWait = s.collWait := rfl
@[simp] theorem modCore_partition (g : Nat) (h : Core → Core) (s : State) : (modCore g h s).partition = s.partition := rfl
@[simp] theorem modCore_links (g : Nat) (h : Core → Core) (s : State) : (modCore g h s).links = s.links := rfl
@[simp] theorem modCore_remoteLinks (g : Nat) (h : Core → Core) (s : State) : (modCore g h s).remoteLinks = s.remoteLinks := rfl
@[simp] theorem modCore_pkgCnt (g : Nat) (h : Core → Core) (s : State) : (modCore g h s).pkgCnt = s.pkgCnt := rfl
@[simp] theorem modCore_wmapBusy (g : Nat) (h : Core → Core) (s : State) : (modCore g h s).wmapBusy = s.wmapBusy := rfl
@[simp] theorem modCore_wmapErr (g : Nat) (h : Core → Core) (s : State) : (modCore g h s).wmapErr = s.wmapErr := rfl
@[simp] theorem modCore_wmapCmd (g : Nat) (h : Core → Core) (s : State) : (modCore g h s).wmapCmd = s.wmapCmd := rfl
@[simp] theorem modCore_cfg (g : Nat) (h : Core → Core) (s : State) : (modCore g h s).cfg = s.cfg := rfl
@[simp] theorem modCore_bootRecs (g : Nat) (h : Core → Core) (s : State) : (modCore g h s).bootRecs = s.bootRecs := rfl
@[simp] theorem modCore_bootStat (g : Nat) (h : Core → Core) (s : State) : (modCore g h s).bootStat = s.bootStat := rfl
@[simp] theorem modCore_startNo (g : Nat) (h : Core → Core) (s : State) : (modCore g h s).startNo = s.startNo := rfl
@[simp] theorem modCore_meas (g : Nat) (h : Core → Core) (s : State) : (modCore g h s).meas = s.meas := rfl
@[simp] theorem modCore_keysMade (g : Nat) (h : Core → Core) (s : State) : (modCore g h s).keysMade = s.keysMade := rfl
@[simp] theorem modCore_msix (g : Nat) (h : Core → Core) (s : State) : (modCore g h s).msix = s.msix := rfl

@[simp] theorem modFld_mem (i : Nat) (h : Field → Field) (s : State) : (modFld i h s).mem = s.mem := rfl
@[simp] theorem modFld_memErr (i : Nat) (h : Field → Field) (s : State) : (modFld i h s).memErr = s.memErr := rfl
@[simp] theorem modFld_memFlip (i : Nat) (h : Field → Field) (s : State) : (modFld i h s).memFlip = s.memFlip := rfl
@[simp] theorem modFld_aliasLines (i : Nat) (h : Field → Field) (s : State) : (modFld i h s).aliasLines = s.aliasLines := rfl
@[simp] theorem modFld_hostWatches (i : Nat) (h : Field → Field) (s : State) : (modFld i h s).hostWatches = s.hostWatches := rfl
@[simp] theorem modFld_worldMap (i : Nat) (h : Field → Field) (s : State) : (modFld i h s).worldMap = s.worldMap := rfl
@[simp] theorem modFld_cores (i : Nat) (h : Field → Field) (s : State) : (modFld i h s).cores = s.cores := rfl
@[simp] theorem modFld_blocks (i : Nat) (h : Field → Field) (s : State) : (modFld i h s).blocks = s.blocks := rfl
@[simp] theorem modFld_turn (i : Nat) (h : Field → Field) (s : State) : (modFld i h s).turn = s.turn := rfl
@[simp] theorem modFld_agenda (i : Nat) (h : Field → Field) (s : State) : (modFld i h s).agenda = s.agenda := rfl
@[simp] theorem modFld_touched (i : Nat) (h : Field → Field) (s : State) : (modFld i h s).touched = s.touched := rfl
@[simp] theorem modFld_heldEvs (i : Nat) (h : Field → Field) (s : State) : (modFld i h s).heldEvs = s.heldEvs := rfl
@[simp] theorem modFld_nextBlk (i : Nat) (h : Field → Field) (s : State) : (modFld i h s).nextBlk = s.nextBlk := rfl
@[simp] theorem modFld_nextUid (i : Nat) (h : Field → Field) (s : State) : (modFld i h s).nextUid = s.nextUid := rfl
@[simp] theorem modFld_nextId (i : Nat) (h : Field → Field) (s : State) : (modFld i h s).nextId = s.nextId := rfl
@[simp] theorem modFld_ticks (i : Nat) (h : Field → Field) (s : State) : (modFld i h s).ticks = s.ticks := rfl
@[simp] theorem modFld_free (i : Nat) (h : Field → Field) (s : State) : (modFld i h s).free = s.free := rfl
@[simp] theorem modFld_queues (i : Nat) (h : Field → Field) (s : State) : (modFld i h s).queues = s.queues := rfl
@[simp] theorem modFld_launches (i : Nat) (h : Field → Field) (s : State) : (modFld i h s).launches = s.launches := rfl
@[simp] theorem modFld_inflight (i : Nat) (h : Field → Field) (s : State) : (modFld i h s).inflight = s.inflight := rfl
@[simp] theorem modFld_decs (i : Nat) (h : Field → Field) (s : State) : (modFld i h s).decs = s.decs := rfl
@[simp] theorem modFld_depctr (i : Nat) (h : Field → Field) (s : State) : (modFld i h s).depctr = s.depctr := rfl
@[simp] theorem modFld_pointers (i : Nat) (h : Field → Field) (s : State) : (modFld i h s).pointers = s.pointers := rfl
@[simp] theorem modFld_rcbs (i : Nat) (h : Field → Field) (s : State) : (modFld i h s).rcbs = s.rcbs := rfl
@[simp] theorem modFld_charges (i : Nat) (h : Field → Field) (s : State) : (modFld i h s).charges = s.charges := rfl
@[simp] theorem modFld_pools (i : Nat) (h : Field → Field) (s : State) : (modFld i h s).pools = s.pools := rfl
@[simp] theorem modFld_termTlb (i : Nat) (h : Field → Field) (s : State) : (modFld i h s).termTlb = s.termTlb := rfl
@[simp] theorem modFld_placeCache (i : Nat) (h : Field → Field) (s : State) : (modFld i h s).placeCache = s.placeCache := rfl
@[simp] theorem modFld_kills (i : Nat) (h : Field → Field) (s : State) : (modFld i h s).kills = s.kills := rfl
@[simp] theorem modFld_useLists (i : Nat) (h : Field → Field) (s : State) : (modFld i h s).useLists = s.useLists := rfl
@[simp] theorem modFld_hostRanges (i : Nat) (h : Field → Field) (s : State) : (modFld i h s).hostRanges = s.hostRanges := rfl
@[simp] theorem modFld_moves (i : Nat) (h : Field → Field) (s : State) : (modFld i h s).moves = s.moves := rfl
@[simp] theorem modFld_events (i : Nat) (h : Field → Field) (s : State) : (modFld i h s).events = s.events := rfl
@[simp] theorem modFld_eventSeq (i : Nat) (h : Field → Field) (s : State) : (modFld i h s).eventSeq = s.eventSeq := rfl
@[simp] theorem modFld_mbxOutBase (i : Nat) (h : Field → Field) (s : State) : (modFld i h s).mbxOutBase = s.mbxOutBase := rfl
@[simp] theorem modFld_mbxOutCtl (i : Nat) (h : Field → Field) (s : State) : (modFld i h s).mbxOutCtl = s.mbxOutCtl := rfl
@[simp] theorem modFld_mbxOutWr (i : Nat) (h : Field → Field) (s : State) : (modFld i h s).mbxOutWr = s.mbxOutWr := rfl
@[simp] theorem modFld_mbxOutRd (i : Nat) (h : Field → Field) (s : State) : (modFld i h s).mbxOutRd = s.mbxOutRd := rfl
@[simp] theorem modFld_mbxIn (i : Nat) (h : Field → Field) (s : State) : (modFld i h s).mbxIn = s.mbxIn := rfl
@[simp] theorem modFld_mbxBusy (i : Nat) (h : Field → Field) (s : State) : (modFld i h s).mbxBusy = s.mbxBusy := rfl
@[simp] theorem modFld_mbxLost (i : Nat) (h : Field → Field) (s : State) : (modFld i h s).mbxLost = s.mbxLost := rfl
@[simp] theorem modFld_hostUp (i : Nat) (h : Field → Field) (s : State) : (modFld i h s).hostUp = s.hostUp := rfl
@[simp] theorem modFld_fwUp (i : Nat) (h : Field → Field) (s : State) : (modFld i h s).fwUp = s.fwUp := rfl
@[simp] theorem modFld_grants (i : Nat) (h : Field → Field) (s : State) : (modFld i h s).grants = s.grants := rfl
@[simp] theorem modFld_trinvVa (i : Nat) (h : Field → Field) (s : State) : (modFld i h s).trinvVa = s.trinvVa := rfl
@[simp] theorem modFld_trinvRoot (i : Nat) (h : Field → Field) (s : State) : (modFld i h s).trinvRoot = s.trinvRoot := rfl
@[simp] theorem modFld_invals (i : Nat) (h : Field → Field) (s : State) : (modFld i h s).invals = s.invals := rfl
@[simp] theorem modFld_ctxWaits (i : Nat) (h : Field → Field) (s : State) : (modFld i h s).ctxWaits = s.ctxWaits := rfl
@[simp] theorem modFld_copies (i : Nat) (h : Field → Field) (s : State) : (modFld i h s).copies = s.copies := rfl
@[simp] theorem modFld_colls (i : Nat) (h : Field → Field) (s : State) : (modFld i h s).colls = s.colls := rfl
@[simp] theorem modFld_collWait (i : Nat) (h : Field → Field) (s : State) : (modFld i h s).collWait = s.collWait := rfl
@[simp] theorem modFld_partition (i : Nat) (h : Field → Field) (s : State) : (modFld i h s).partition = s.partition := rfl
@[simp] theorem modFld_links (i : Nat) (h : Field → Field) (s : State) : (modFld i h s).links = s.links := rfl
@[simp] theorem modFld_remoteLinks (i : Nat) (h : Field → Field) (s : State) : (modFld i h s).remoteLinks = s.remoteLinks := rfl
@[simp] theorem modFld_pkgCnt (i : Nat) (h : Field → Field) (s : State) : (modFld i h s).pkgCnt = s.pkgCnt := rfl
@[simp] theorem modFld_wmapBusy (i : Nat) (h : Field → Field) (s : State) : (modFld i h s).wmapBusy = s.wmapBusy := rfl
@[simp] theorem modFld_wmapErr (i : Nat) (h : Field → Field) (s : State) : (modFld i h s).wmapErr = s.wmapErr := rfl
@[simp] theorem modFld_wmapCmd (i : Nat) (h : Field → Field) (s : State) : (modFld i h s).wmapCmd = s.wmapCmd := rfl
@[simp] theorem modFld_cfg (i : Nat) (h : Field → Field) (s : State) : (modFld i h s).cfg = s.cfg := rfl
@[simp] theorem modFld_bootRecs (i : Nat) (h : Field → Field) (s : State) : (modFld i h s).bootRecs = s.bootRecs := rfl
@[simp] theorem modFld_bootStat (i : Nat) (h : Field → Field) (s : State) : (modFld i h s).bootStat = s.bootStat := rfl
@[simp] theorem modFld_startNo (i : Nat) (h : Field → Field) (s : State) : (modFld i h s).startNo = s.startNo := rfl
@[simp] theorem modFld_meas (i : Nat) (h : Field → Field) (s : State) : (modFld i h s).meas = s.meas := rfl
@[simp] theorem modFld_keysMade (i : Nat) (h : Field → Field) (s : State) : (modFld i h s).keysMade = s.keysMade := rfl
@[simp] theorem modFld_msix (i : Nat) (h : Field → Field) (s : State) : (modFld i h s).msix = s.msix := rfl

@[simp] theorem modQ_mem (q : Nat) (h : Queue → Queue) (s : State) : (modQ q h s).mem = s.mem := rfl
@[simp] theorem modQ_memErr (q : Nat) (h : Queue → Queue) (s : State) : (modQ q h s).memErr = s.memErr := rfl
@[simp] theorem modQ_memFlip (q : Nat) (h : Queue → Queue) (s : State) : (modQ q h s).memFlip = s.memFlip := rfl
@[simp] theorem modQ_aliasLines (q : Nat) (h : Queue → Queue) (s : State) : (modQ q h s).aliasLines = s.aliasLines := rfl
@[simp] theorem modQ_hostWatches (q : Nat) (h : Queue → Queue) (s : State) : (modQ q h s).hostWatches = s.hostWatches := rfl
@[simp] theorem modQ_worldMap (q : Nat) (h : Queue → Queue) (s : State) : (modQ q h s).worldMap = s.worldMap := rfl
@[simp] theorem modQ_fields (q : Nat) (h : Queue → Queue) (s : State) : (modQ q h s).fields = s.fields := rfl
@[simp] theorem modQ_cores (q : Nat) (h : Queue → Queue) (s : State) : (modQ q h s).cores = s.cores := rfl
@[simp] theorem modQ_blocks (q : Nat) (h : Queue → Queue) (s : State) : (modQ q h s).blocks = s.blocks := rfl
@[simp] theorem modQ_turn (q : Nat) (h : Queue → Queue) (s : State) : (modQ q h s).turn = s.turn := rfl
@[simp] theorem modQ_agenda (q : Nat) (h : Queue → Queue) (s : State) : (modQ q h s).agenda = s.agenda := rfl
@[simp] theorem modQ_touched (q : Nat) (h : Queue → Queue) (s : State) : (modQ q h s).touched = s.touched := rfl
@[simp] theorem modQ_heldEvs (q : Nat) (h : Queue → Queue) (s : State) : (modQ q h s).heldEvs = s.heldEvs := rfl
@[simp] theorem modQ_nextBlk (q : Nat) (h : Queue → Queue) (s : State) : (modQ q h s).nextBlk = s.nextBlk := rfl
@[simp] theorem modQ_nextUid (q : Nat) (h : Queue → Queue) (s : State) : (modQ q h s).nextUid = s.nextUid := rfl
@[simp] theorem modQ_nextId (q : Nat) (h : Queue → Queue) (s : State) : (modQ q h s).nextId = s.nextId := rfl
@[simp] theorem modQ_ticks (q : Nat) (h : Queue → Queue) (s : State) : (modQ q h s).ticks = s.ticks := rfl
@[simp] theorem modQ_free (q : Nat) (h : Queue → Queue) (s : State) : (modQ q h s).free = s.free := rfl
@[simp] theorem modQ_launches (q : Nat) (h : Queue → Queue) (s : State) : (modQ q h s).launches = s.launches := rfl
@[simp] theorem modQ_inflight (q : Nat) (h : Queue → Queue) (s : State) : (modQ q h s).inflight = s.inflight := rfl
@[simp] theorem modQ_decs (q : Nat) (h : Queue → Queue) (s : State) : (modQ q h s).decs = s.decs := rfl
@[simp] theorem modQ_depctr (q : Nat) (h : Queue → Queue) (s : State) : (modQ q h s).depctr = s.depctr := rfl
@[simp] theorem modQ_pointers (q : Nat) (h : Queue → Queue) (s : State) : (modQ q h s).pointers = s.pointers := rfl
@[simp] theorem modQ_rcbs (q : Nat) (h : Queue → Queue) (s : State) : (modQ q h s).rcbs = s.rcbs := rfl
@[simp] theorem modQ_charges (q : Nat) (h : Queue → Queue) (s : State) : (modQ q h s).charges = s.charges := rfl
@[simp] theorem modQ_pools (q : Nat) (h : Queue → Queue) (s : State) : (modQ q h s).pools = s.pools := rfl
@[simp] theorem modQ_termTlb (q : Nat) (h : Queue → Queue) (s : State) : (modQ q h s).termTlb = s.termTlb := rfl
@[simp] theorem modQ_placeCache (q : Nat) (h : Queue → Queue) (s : State) : (modQ q h s).placeCache = s.placeCache := rfl
@[simp] theorem modQ_kills (q : Nat) (h : Queue → Queue) (s : State) : (modQ q h s).kills = s.kills := rfl
@[simp] theorem modQ_useLists (q : Nat) (h : Queue → Queue) (s : State) : (modQ q h s).useLists = s.useLists := rfl
@[simp] theorem modQ_hostRanges (q : Nat) (h : Queue → Queue) (s : State) : (modQ q h s).hostRanges = s.hostRanges := rfl
@[simp] theorem modQ_moves (q : Nat) (h : Queue → Queue) (s : State) : (modQ q h s).moves = s.moves := rfl
@[simp] theorem modQ_events (q : Nat) (h : Queue → Queue) (s : State) : (modQ q h s).events = s.events := rfl
@[simp] theorem modQ_eventSeq (q : Nat) (h : Queue → Queue) (s : State) : (modQ q h s).eventSeq = s.eventSeq := rfl
@[simp] theorem modQ_mbxOutBase (q : Nat) (h : Queue → Queue) (s : State) : (modQ q h s).mbxOutBase = s.mbxOutBase := rfl
@[simp] theorem modQ_mbxOutCtl (q : Nat) (h : Queue → Queue) (s : State) : (modQ q h s).mbxOutCtl = s.mbxOutCtl := rfl
@[simp] theorem modQ_mbxOutWr (q : Nat) (h : Queue → Queue) (s : State) : (modQ q h s).mbxOutWr = s.mbxOutWr := rfl
@[simp] theorem modQ_mbxOutRd (q : Nat) (h : Queue → Queue) (s : State) : (modQ q h s).mbxOutRd = s.mbxOutRd := rfl
@[simp] theorem modQ_mbxIn (q : Nat) (h : Queue → Queue) (s : State) : (modQ q h s).mbxIn = s.mbxIn := rfl
@[simp] theorem modQ_mbxBusy (q : Nat) (h : Queue → Queue) (s : State) : (modQ q h s).mbxBusy = s.mbxBusy := rfl
@[simp] theorem modQ_mbxLost (q : Nat) (h : Queue → Queue) (s : State) : (modQ q h s).mbxLost = s.mbxLost := rfl
@[simp] theorem modQ_hostUp (q : Nat) (h : Queue → Queue) (s : State) : (modQ q h s).hostUp = s.hostUp := rfl
@[simp] theorem modQ_fwUp (q : Nat) (h : Queue → Queue) (s : State) : (modQ q h s).fwUp = s.fwUp := rfl
@[simp] theorem modQ_grants (q : Nat) (h : Queue → Queue) (s : State) : (modQ q h s).grants = s.grants := rfl
@[simp] theorem modQ_trinvVa (q : Nat) (h : Queue → Queue) (s : State) : (modQ q h s).trinvVa = s.trinvVa := rfl
@[simp] theorem modQ_trinvRoot (q : Nat) (h : Queue → Queue) (s : State) : (modQ q h s).trinvRoot = s.trinvRoot := rfl
@[simp] theorem modQ_invals (q : Nat) (h : Queue → Queue) (s : State) : (modQ q h s).invals = s.invals := rfl
@[simp] theorem modQ_ctxWaits (q : Nat) (h : Queue → Queue) (s : State) : (modQ q h s).ctxWaits = s.ctxWaits := rfl
@[simp] theorem modQ_copies (q : Nat) (h : Queue → Queue) (s : State) : (modQ q h s).copies = s.copies := rfl
@[simp] theorem modQ_colls (q : Nat) (h : Queue → Queue) (s : State) : (modQ q h s).colls = s.colls := rfl
@[simp] theorem modQ_collWait (q : Nat) (h : Queue → Queue) (s : State) : (modQ q h s).collWait = s.collWait := rfl
@[simp] theorem modQ_partition (q : Nat) (h : Queue → Queue) (s : State) : (modQ q h s).partition = s.partition := rfl
@[simp] theorem modQ_links (q : Nat) (h : Queue → Queue) (s : State) : (modQ q h s).links = s.links := rfl
@[simp] theorem modQ_remoteLinks (q : Nat) (h : Queue → Queue) (s : State) : (modQ q h s).remoteLinks = s.remoteLinks := rfl
@[simp] theorem modQ_pkgCnt (q : Nat) (h : Queue → Queue) (s : State) : (modQ q h s).pkgCnt = s.pkgCnt := rfl
@[simp] theorem modQ_wmapBusy (q : Nat) (h : Queue → Queue) (s : State) : (modQ q h s).wmapBusy = s.wmapBusy := rfl
@[simp] theorem modQ_wmapErr (q : Nat) (h : Queue → Queue) (s : State) : (modQ q h s).wmapErr = s.wmapErr := rfl
@[simp] theorem modQ_wmapCmd (q : Nat) (h : Queue → Queue) (s : State) : (modQ q h s).wmapCmd = s.wmapCmd := rfl
@[simp] theorem modQ_cfg (q : Nat) (h : Queue → Queue) (s : State) : (modQ q h s).cfg = s.cfg := rfl
@[simp] theorem modQ_bootRecs (q : Nat) (h : Queue → Queue) (s : State) : (modQ q h s).bootRecs = s.bootRecs := rfl
@[simp] theorem modQ_bootStat (q : Nat) (h : Queue → Queue) (s : State) : (modQ q h s).bootStat = s.bootStat := rfl
@[simp] theorem modQ_startNo (q : Nat) (h : Queue → Queue) (s : State) : (modQ q h s).startNo = s.startNo := rfl
@[simp] theorem modQ_meas (q : Nat) (h : Queue → Queue) (s : State) : (modQ q h s).meas = s.meas := rfl
@[simp] theorem modQ_keysMade (q : Nat) (h : Queue → Queue) (s : State) : (modQ q h s).keysMade = s.keysMade := rfl
@[simp] theorem modQ_msix (q : Nat) (h : Queue → Queue) (s : State) : (modQ q h s).msix = s.msix := rfl

@[simp] theorem modBlk_mem (b : Nat) (h : Block → Block) (s : State) : (modBlk b h s).mem = s.mem := by unfold modBlk; split <;> rfl
@[simp] theorem modBlk_memErr (b : Nat) (h : Block → Block) (s : State) : (modBlk b h s).memErr = s.memErr := by unfold modBlk; split <;> rfl
@[simp] theorem modBlk_memFlip (b : Nat) (h : Block → Block) (s : State) : (modBlk b h s).memFlip = s.memFlip := by unfold modBlk; split <;> rfl
@[simp] theorem modBlk_aliasLines (b : Nat) (h : Block → Block) (s : State) : (modBlk b h s).aliasLines = s.aliasLines := by unfold modBlk; split <;> rfl
@[simp] theorem modBlk_hostWatches (b : Nat) (h : Block → Block) (s : State) : (modBlk b h s).hostWatches = s.hostWatches := by unfold modBlk; split <;> rfl
@[simp] theorem modBlk_worldMap (b : Nat) (h : Block → Block) (s : State) : (modBlk b h s).worldMap = s.worldMap := by unfold modBlk; split <;> rfl
@[simp] theorem modBlk_fields (b : Nat) (h : Block → Block) (s : State) : (modBlk b h s).fields = s.fields := by unfold modBlk; split <;> rfl
@[simp] theorem modBlk_cores (b : Nat) (h : Block → Block) (s : State) : (modBlk b h s).cores = s.cores := by unfold modBlk; split <;> rfl
@[simp] theorem modBlk_turn (b : Nat) (h : Block → Block) (s : State) : (modBlk b h s).turn = s.turn := by unfold modBlk; split <;> rfl
@[simp] theorem modBlk_agenda (b : Nat) (h : Block → Block) (s : State) : (modBlk b h s).agenda = s.agenda := by unfold modBlk; split <;> rfl
@[simp] theorem modBlk_touched (b : Nat) (h : Block → Block) (s : State) : (modBlk b h s).touched = s.touched := by unfold modBlk; split <;> rfl
@[simp] theorem modBlk_heldEvs (b : Nat) (h : Block → Block) (s : State) : (modBlk b h s).heldEvs = s.heldEvs := by unfold modBlk; split <;> rfl
@[simp] theorem modBlk_nextBlk (b : Nat) (h : Block → Block) (s : State) : (modBlk b h s).nextBlk = s.nextBlk := by unfold modBlk; split <;> rfl
@[simp] theorem modBlk_nextUid (b : Nat) (h : Block → Block) (s : State) : (modBlk b h s).nextUid = s.nextUid := by unfold modBlk; split <;> rfl
@[simp] theorem modBlk_nextId (b : Nat) (h : Block → Block) (s : State) : (modBlk b h s).nextId = s.nextId := by unfold modBlk; split <;> rfl
@[simp] theorem modBlk_ticks (b : Nat) (h : Block → Block) (s : State) : (modBlk b h s).ticks = s.ticks := by unfold modBlk; split <;> rfl
@[simp] theorem modBlk_free (b : Nat) (h : Block → Block) (s : State) : (modBlk b h s).free = s.free := by unfold modBlk; split <;> rfl
@[simp] theorem modBlk_queues (b : Nat) (h : Block → Block) (s : State) : (modBlk b h s).queues = s.queues := by unfold modBlk; split <;> rfl
@[simp] theorem modBlk_launches (b : Nat) (h : Block → Block) (s : State) : (modBlk b h s).launches = s.launches := by unfold modBlk; split <;> rfl
@[simp] theorem modBlk_inflight (b : Nat) (h : Block → Block) (s : State) : (modBlk b h s).inflight = s.inflight := by unfold modBlk; split <;> rfl
@[simp] theorem modBlk_decs (b : Nat) (h : Block → Block) (s : State) : (modBlk b h s).decs = s.decs := by unfold modBlk; split <;> rfl
@[simp] theorem modBlk_depctr (b : Nat) (h : Block → Block) (s : State) : (modBlk b h s).depctr = s.depctr := by unfold modBlk; split <;> rfl
@[simp] theorem modBlk_pointers (b : Nat) (h : Block → Block) (s : State) : (modBlk b h s).pointers = s.pointers := by unfold modBlk; split <;> rfl
@[simp] theorem modBlk_rcbs (b : Nat) (h : Block → Block) (s : State) : (modBlk b h s).rcbs = s.rcbs := by unfold modBlk; split <;> rfl
@[simp] theorem modBlk_charges (b : Nat) (h : Block → Block) (s : State) : (modBlk b h s).charges = s.charges := by unfold modBlk; split <;> rfl
@[simp] theorem modBlk_pools (b : Nat) (h : Block → Block) (s : State) : (modBlk b h s).pools = s.pools := by unfold modBlk; split <;> rfl
@[simp] theorem modBlk_termTlb (b : Nat) (h : Block → Block) (s : State) : (modBlk b h s).termTlb = s.termTlb := by unfold modBlk; split <;> rfl
@[simp] theorem modBlk_placeCache (b : Nat) (h : Block → Block) (s : State) : (modBlk b h s).placeCache = s.placeCache := by unfold modBlk; split <;> rfl
@[simp] theorem modBlk_kills (b : Nat) (h : Block → Block) (s : State) : (modBlk b h s).kills = s.kills := by unfold modBlk; split <;> rfl
@[simp] theorem modBlk_useLists (b : Nat) (h : Block → Block) (s : State) : (modBlk b h s).useLists = s.useLists := by unfold modBlk; split <;> rfl
@[simp] theorem modBlk_hostRanges (b : Nat) (h : Block → Block) (s : State) : (modBlk b h s).hostRanges = s.hostRanges := by unfold modBlk; split <;> rfl
@[simp] theorem modBlk_moves (b : Nat) (h : Block → Block) (s : State) : (modBlk b h s).moves = s.moves := by unfold modBlk; split <;> rfl
@[simp] theorem modBlk_events (b : Nat) (h : Block → Block) (s : State) : (modBlk b h s).events = s.events := by unfold modBlk; split <;> rfl
@[simp] theorem modBlk_eventSeq (b : Nat) (h : Block → Block) (s : State) : (modBlk b h s).eventSeq = s.eventSeq := by unfold modBlk; split <;> rfl
@[simp] theorem modBlk_mbxOutBase (b : Nat) (h : Block → Block) (s : State) : (modBlk b h s).mbxOutBase = s.mbxOutBase := by unfold modBlk; split <;> rfl
@[simp] theorem modBlk_mbxOutCtl (b : Nat) (h : Block → Block) (s : State) : (modBlk b h s).mbxOutCtl = s.mbxOutCtl := by unfold modBlk; split <;> rfl
@[simp] theorem modBlk_mbxOutWr (b : Nat) (h : Block → Block) (s : State) : (modBlk b h s).mbxOutWr = s.mbxOutWr := by unfold modBlk; split <;> rfl
@[simp] theorem modBlk_mbxOutRd (b : Nat) (h : Block → Block) (s : State) : (modBlk b h s).mbxOutRd = s.mbxOutRd := by unfold modBlk; split <;> rfl
@[simp] theorem modBlk_mbxIn (b : Nat) (h : Block → Block) (s : State) : (modBlk b h s).mbxIn = s.mbxIn := by unfold modBlk; split <;> rfl
@[simp] theorem modBlk_mbxBusy (b : Nat) (h : Block → Block) (s : State) : (modBlk b h s).mbxBusy = s.mbxBusy := by unfold modBlk; split <;> rfl
@[simp] theorem modBlk_mbxLost (b : Nat) (h : Block → Block) (s : State) : (modBlk b h s).mbxLost = s.mbxLost := by unfold modBlk; split <;> rfl
@[simp] theorem modBlk_hostUp (b : Nat) (h : Block → Block) (s : State) : (modBlk b h s).hostUp = s.hostUp := by unfold modBlk; split <;> rfl
@[simp] theorem modBlk_fwUp (b : Nat) (h : Block → Block) (s : State) : (modBlk b h s).fwUp = s.fwUp := by unfold modBlk; split <;> rfl
@[simp] theorem modBlk_grants (b : Nat) (h : Block → Block) (s : State) : (modBlk b h s).grants = s.grants := by unfold modBlk; split <;> rfl
@[simp] theorem modBlk_trinvVa (b : Nat) (h : Block → Block) (s : State) : (modBlk b h s).trinvVa = s.trinvVa := by unfold modBlk; split <;> rfl
@[simp] theorem modBlk_trinvRoot (b : Nat) (h : Block → Block) (s : State) : (modBlk b h s).trinvRoot = s.trinvRoot := by unfold modBlk; split <;> rfl
@[simp] theorem modBlk_invals (b : Nat) (h : Block → Block) (s : State) : (modBlk b h s).invals = s.invals := by unfold modBlk; split <;> rfl
@[simp] theorem modBlk_ctxWaits (b : Nat) (h : Block → Block) (s : State) : (modBlk b h s).ctxWaits = s.ctxWaits := by unfold modBlk; split <;> rfl
@[simp] theorem modBlk_copies (b : Nat) (h : Block → Block) (s : State) : (modBlk b h s).copies = s.copies := by unfold modBlk; split <;> rfl
@[simp] theorem modBlk_colls (b : Nat) (h : Block → Block) (s : State) : (modBlk b h s).colls = s.colls := by unfold modBlk; split <;> rfl
@[simp] theorem modBlk_collWait (b : Nat) (h : Block → Block) (s : State) : (modBlk b h s).collWait = s.collWait := by unfold modBlk; split <;> rfl
@[simp] theorem modBlk_partition (b : Nat) (h : Block → Block) (s : State) : (modBlk b h s).partition = s.partition := by unfold modBlk; split <;> rfl
@[simp] theorem modBlk_links (b : Nat) (h : Block → Block) (s : State) : (modBlk b h s).links = s.links := by unfold modBlk; split <;> rfl
@[simp] theorem modBlk_remoteLinks (b : Nat) (h : Block → Block) (s : State) : (modBlk b h s).remoteLinks = s.remoteLinks := by unfold modBlk; split <;> rfl
@[simp] theorem modBlk_pkgCnt (b : Nat) (h : Block → Block) (s : State) : (modBlk b h s).pkgCnt = s.pkgCnt := by unfold modBlk; split <;> rfl
@[simp] theorem modBlk_wmapBusy (b : Nat) (h : Block → Block) (s : State) : (modBlk b h s).wmapBusy = s.wmapBusy := by unfold modBlk; split <;> rfl
@[simp] theorem modBlk_wmapErr (b : Nat) (h : Block → Block) (s : State) : (modBlk b h s).wmapErr = s.wmapErr := by unfold modBlk; split <;> rfl
@[simp] theorem modBlk_wmapCmd (b : Nat) (h : Block → Block) (s : State) : (modBlk b h s).wmapCmd = s.wmapCmd := by unfold modBlk; split <;> rfl
@[simp] theorem modBlk_cfg (b : Nat) (h : Block → Block) (s : State) : (modBlk b h s).cfg = s.cfg := by unfold modBlk; split <;> rfl
@[simp] theorem modBlk_bootRecs (b : Nat) (h : Block → Block) (s : State) : (modBlk b h s).bootRecs = s.bootRecs := by unfold modBlk; split <;> rfl
@[simp] theorem modBlk_bootStat (b : Nat) (h : Block → Block) (s : State) : (modBlk b h s).bootStat = s.bootStat := by unfold modBlk; split <;> rfl
@[simp] theorem modBlk_startNo (b : Nat) (h : Block → Block) (s : State) : (modBlk b h s).startNo = s.startNo := by unfold modBlk; split <;> rfl
@[simp] theorem modBlk_meas (b : Nat) (h : Block → Block) (s : State) : (modBlk b h s).meas = s.meas := by unfold modBlk; split <;> rfl
@[simp] theorem modBlk_keysMade (b : Nat) (h : Block → Block) (s : State) : (modBlk b h s).keysMade = s.keysMade := by unfold modBlk; split <;> rfl
@[simp] theorem modBlk_msix (b : Nat) (h : Block → Block) (s : State) : (modBlk b h s).msix = s.msix := by unfold modBlk; split <;> rfl

-- What the accessors read back
@[simp] theorem getCore_modCore_same (g : Nat) (h : Core → Core) (s : State) : getCore (modCore g h s) g = h (getCore s g) := by simp [getCore, modCore]
theorem getCore_modCore (g k : Nat) (h : Core → Core) (s : State) : getCore (modCore g h s) k = if k = g then h (getCore s g) else getCore s k := by
  simp only [getCore, modCore, mget_mput]
@[simp] theorem getFld_modFld_same (i : Nat) (h : Field → Field) (s : State) : getFld (modFld i h s) i = h (getFld s i) := by simp [getFld, modFld]
theorem getFld_modFld (i k : Nat) (h : Field → Field) (s : State) : getFld (modFld i h s) k = if k = i then h (getFld s i) else getFld s k := by
  simp only [getFld, modFld, mget_mput]
@[simp] theorem getQ_modQ_same (q : Nat) (h : Queue → Queue) (s : State) : getQ (modQ q h s) q = h (getQ s q) := by simp [getQ, modQ]
theorem getQ_modQ (q k : Nat) (h : Queue → Queue) (s : State) : getQ (modQ q h s) k = if k = q then h (getQ s q) else getQ s k := by
  simp only [getQ, modQ, mget_mput]
@[simp] theorem getCore_modFld (i g : Nat) (h : Field → Field) (s : State) : getCore (modFld i h s) g = getCore s g := rfl
@[simp] theorem getCore_modQ (q g : Nat) (h : Queue → Queue) (s : State) : getCore (modQ q h s) g = getCore s g := rfl
@[simp] theorem getCore_modBlk (b g : Nat) (h : Block → Block) (s : State) : getCore (modBlk b h s) g = getCore s g := by simp [getCore]
@[simp] theorem getFld_modCore (g i : Nat) (h : Core → Core) (s : State) : getFld (modCore g h s) i = getFld s i := rfl
@[simp] theorem getFld_modQ (q i : Nat) (h : Queue → Queue) (s : State) : getFld (modQ q h s) i = getFld s i := rfl
@[simp] theorem getFld_modBlk (b i : Nat) (h : Block → Block) (s : State) : getFld (modBlk b h s) i = getFld s i := by simp [getFld]
@[simp] theorem getBlk_modCore (g b : Nat) (h : Core → Core) (s : State) : getBlk (modCore g h s) b = getBlk s b := rfl
@[simp] theorem getBlk_modFld (i b : Nat) (h : Field → Field) (s : State) : getBlk (modFld i h s) b = getBlk s b := rfl
@[simp] theorem getBlk_modQ (q b : Nat) (h : Queue → Queue) (s : State) : getBlk (modQ q h s) b = getBlk s b := rfl
@[simp] theorem getTh_modCore (g b r : Nat) (h : Core → Core) (s : State) : getTh (modCore g h s) b r = getTh s b r := rfl
@[simp] theorem getTh_modFld (i b r : Nat) (h : Field → Field) (s : State) : getTh (modFld i h s) b r = getTh s b r := rfl
@[simp] theorem getTh_modQ (q b r : Nat) (h : Queue → Queue) (s : State) : getTh (modQ q h s) b r = getTh s b r := rfl
theorem getBlk_modBlk_other (b k : Nat) (h : Block → Block) (s : State) (hk : k ≠ b) : getBlk (modBlk b h s) k = getBlk s k := by
  unfold modBlk; split
  · simp [getBlk, mget_mput, hk]
  · rfl
theorem getBlk_modBlk_some (b : Nat) (h : Block → Block) (s : State) (k : Block) (hb : mfind s.blocks b = some k) : getBlk (modBlk b h s) b = h k := by
  simp [modBlk, hb, getBlk]
theorem getBlk_modBlk_same (b : Nat) (h : Block → Block) (s : State) (hb : (mfind s.blocks b).isSome) : getBlk (modBlk b h s) b = h (getBlk s b) := by
  obtain ⟨k, hk⟩ := Option.isSome_iff_exists.mp hb
  rw [getBlk_modBlk_some b h s k hk]; simp [getBlk, mget, hk]
theorem modBlk_none (b : Nat) (h : Block → Block) (s : State) (hb : mfind s.blocks b = none) : modBlk b h s = s := by simp [modBlk, hb]
/-- Every step of a block is one of two: the function applied, or nothing where there is no such block. -/
theorem getBlk_modBlk_cases (b k : Nat) (h : Block → Block) (s : State) : getBlk (modBlk b h s) k = getBlk s k ∨ (k = b ∧ getBlk (modBlk b h s) k = h (getBlk s k)) := by
  by_cases hk : k = b
  · subst hk
    cases hb : mfind s.blocks k with
    | none => left; rw [modBlk_none k h s hb]
    | some x => right; exact ⟨rfl, getBlk_modBlk_same k h s (by simp [hb])⟩
  · left; exact getBlk_modBlk_other b k h s hk

end Sys2Proof.Machine
end

