-- ==== Sys2Proof/Laws/Frame.lean ====
section
/-! SUPPORT. What the shared operations leave alone: the frame `OnlyRegs` composes, and each operation that writes registers, notes results or moves a
clause on keeps it. -/
namespace Sys2Proof.Machine

-- Threads under a block's or a thread's update ------------------------------------------------------------------

/-- An update of a thread is an update of its block's members. -/
theorem modTh_eq (b r : Nat) (h : Thread → Thread) (s : State) : ∃ F : Block → Block, modTh b r h s = modBlk b F s ∧
    ∀ k, (∃ t, mfind k.members r = some t ∧ F k = { k with members := mput k.members r (h t) }) ∨ (mfind k.members r = none ∧ F k = k) := by
  refine ⟨_, rfl, fun k => ?_⟩
  cases hm : mfind k.members r with
  | none => right; exact ⟨rfl, rfl⟩
  | some t => left; exact ⟨t, rfl, rfl⟩
/-- A thread after an update of one thread: the same, or, of that thread, the function's value. -/
theorem getTh_modTh_cases (b r b' r' : Nat) (h : Thread → Thread) (s : State) :
    getTh (modTh b r h s) b' r' = getTh s b' r' ∨ (b' = b ∧ r' = r ∧ getTh (modTh b r h s) b' r' = h (getTh s b' r')) := by
  obtain ⟨F, e, hF⟩ := modTh_eq b r h s
  rw [e]
  rcases getBlk_modBlk_cases b b' F s with e | ⟨rfl, e⟩
  · left; simp only [getTh, e]
  · simp only [getTh, e]
    rcases hF (getBlk s b') with ⟨t, hm, hf⟩ | ⟨_, hf⟩ <;> rw [hf]
    · by_cases hr : r' = r
      · subst hr; right; refine ⟨trivial, rfl, ?_⟩; simp [mget, mfind_mput_same, hm]
      · left; simp [mget_mput, hr]
    · left; rfl
/-- A thread that exists takes the function's value. -/
theorem getTh_modTh_same (b r : Nat) (h : Thread → Thread) (s : State) (hb : (mfind s.blocks b).isSome) (hr : (mfind (getBlk s b).members r).isSome) :
    getTh (modTh b r h s) b r = h (getTh s b r) := by
  obtain ⟨F, e, hF⟩ := modTh_eq b r h s
  rw [e]; simp only [getTh, getBlk_modBlk_same b F s hb]
  rcases hF (getBlk s b) with ⟨t, hm, hf⟩ | ⟨hm, _⟩
  · rw [hf]; simp [mget, mfind_mput_same, hm]
  · simp [hm] at hr
/-- A block after an update of one of its threads differs in its members alone. -/
theorem getBlk_modTh (b r b' : Nat) (h : Thread → Thread) (s : State) : ∃ m, getBlk (modTh b r h s) b' = { getBlk s b' with members := m } := by
  obtain ⟨F, e, hF⟩ := modTh_eq b r h s
  rw [e]
  rcases getBlk_modBlk_cases b b' F s with e | ⟨rfl, e⟩
  · exact ⟨_, e⟩
  · rw [e]; rcases hF (getBlk s b') with ⟨t, _, hf⟩ | ⟨_, hf⟩ <;> rw [hf]
    · exact ⟨_, rfl⟩
    · exact ⟨_, rfl⟩
@[simp] theorem getCore_modTh (b r g : Nat) (h : Thread → Thread) (s : State) : getCore (modTh b r h s) g = getCore s g := by simp [modTh]
@[simp] theorem getFld_modTh (b r i : Nat) (h : Thread → Thread) (s : State) : getFld (modTh b r h s) i = getFld s i := by simp [modTh]
@[simp] theorem modTh_mem (b r : Nat) (h : Thread → Thread) (s : State) : (modTh b r h s).mem = s.mem := by simp [modTh]

-- The frame -----------------------------------------------------------------------------------------------------

theorem threadKept.refl (t : Thread) : threadKept t t := ⟨rfl, rfl, rfl, rfl, rfl, rfl, rfl, rfl, rfl, rfl, rfl, rfl, rfl, rfl, rfl⟩
theorem threadKept.trans {t u v : Thread} (h : threadKept t u) (k : threadKept u v) : threadKept t v := by
  simp only [threadKept] at *; simp_all
theorem blockKept.refl (k : Block) : blockKept k k := ⟨rfl, rfl, rfl, rfl, rfl, rfl, rfl, rfl, rfl, rfl, rfl, rfl, rfl, rfl, rfl, rfl, rfl⟩
theorem blockKept.trans {k l m : Block} (h : blockKept k l) (h' : blockKept l m) : blockKept k m := by
  simp only [blockKept] at *; simp_all
theorem memoryKept.refl (s : State) : memoryKept s s := ⟨rfl, rfl, rfl, rfl, rfl, rfl, rfl, fun _ => ⟨rfl, rfl, rfl, rfl, rfl, rfl⟩, fun _ => ⟨rfl, rfl, rfl, rfl, rfl⟩⟩
theorem memoryKept.trans {s t u : State} (h : memoryKept s t) (k : memoryKept t u) : memoryKept s u := by
  obtain ⟨h1, h2, h8, h3, h4, h0, h5, h6, h7⟩ := h; obtain ⟨k1, k2, k8, k3, k4, k0, k5, k6, k7⟩ := k
  refine ⟨k1.trans h1, k2.trans h2, k8.trans h8, k3.trans h3, k4.trans h4, k0.trans h0, k5.trans h5, fun g => ?_, fun f => ?_⟩
  · obtain ⟨a1, a2, a3, a4, a5, a6⟩ := h6 g; obtain ⟨b1, b2, b3, b4, b5, b6⟩ := k6 g
    exact ⟨b1.trans a1, b2.trans a2, b3.trans a3, b4.trans a4, b5.trans a5, b6.trans a6⟩
  · obtain ⟨a1, a2, a3, a4, a5⟩ := h7 f; obtain ⟨b1, b2, b3, b4, b5⟩ := k7 f
    exact ⟨b1.trans a1, b2.trans a2, b3.trans a3, b4.trans a4, b5.trans a5⟩

theorem OnlyRegs.refl (b : Nat) (D : Nat → Nat → Prop) (s : State) : OnlyRegs b D s s :=
  ⟨memoryKept.refl s, fun _ => blockKept.refl _, fun _ _ => threadKept.refl _, fun _ _ _ _ => rfl⟩
theorem OnlyRegs.trans {b : Nat} {D : Nat → Nat → Prop} {s t u : State} (h : OnlyRegs b D s t) (k : OnlyRegs b D t u) : OnlyRegs b D s u :=
  ⟨h.memory.trans k.memory, fun b' => (h.blocks b').trans (k.blocks b'), fun b' r => (h.kept b' r).trans (k.kept b' r),
    fun b' r num hn => (k.regs b' r num hn).trans (h.regs b' r num hn)⟩
theorem OnlyRegs.mono {b : Nat} {D E : Nat → Nat → Prop} {s t : State} (h : OnlyRegs b D s t) (i : ∀ r num, D r num → E r num) : OnlyRegs b E s t :=
  ⟨h.memory, h.blocks, h.kept, fun b' r num hn => h.regs b' r num (fun hd => hn ⟨hd.1, i r num hd.2⟩)⟩

/-- An update of one thread that keeps all but registers in `D`. -/
theorem onlyRegs_modTh {b r : Nat} {D : Nat → Nat → Prop} (h : Thread → Thread) (s : State) (hk : ∀ t, threadKept t (h t))
    (hr : ∀ t num, ¬ D r num → threadReg (h t) num = threadReg t num) : OnlyRegs b D s (modTh b r h s) := by
  refine ⟨?_, fun b' => ?_, fun b' r' => ?_, fun b' r' num hn => ?_⟩
  · refine ⟨by simp, by simp [modTh], by simp [modTh], by simp [modTh], by simp [modTh], by simp [modTh], by simp [modTh], fun g => by simp, fun f => by simp⟩
  · obtain ⟨m, e⟩ := getBlk_modTh b r b' h s; rw [e]; exact ⟨rfl, rfl, rfl, rfl, rfl, rfl, rfl, rfl, rfl, rfl, rfl, rfl, rfl, rfl, rfl, rfl, rfl⟩
  · rcases getTh_modTh_cases b r b' r' h s with e | ⟨_, _, e⟩
    · rw [e]; exact threadKept.refl _
    · rw [e]; exact hk _
  · unfold regAt
    rcases getTh_modTh_cases b r b' r' h s with e | ⟨rfl, rfl, e⟩
    · rw [e]
    · rw [e]; exact hr _ _ (fun hd => hn ⟨rfl, hd⟩)
/-- A state that differs in fields that hold no memory, block or register. -/
theorem onlyRegs_of_eq {b : Nat} {D : Nat → Nat → Prop} {s t : State} (hm : memoryKept s t) (hb : t.blocks = s.blocks) : OnlyRegs b D s t :=
  ⟨hm, fun b' => by simp only [getBlk, hb]; exact blockKept.refl _, fun b' r => by simp only [getTh, getBlk, hb]; exact threadKept.refl _,
    fun b' r num _ => by simp only [regAt, getTh, getBlk, hb]⟩
theorem onlyRegs_foldl {α : Type} {b : Nat} {D : Nat → Nat → Prop} (l : List α) (f : State → α → State) (s : State)
    (h : ∀ a ∈ l, ∀ t, OnlyRegs b D t (f t a)) : OnlyRegs b D s (l.foldl f s) := by
  induction l generalizing s with
  | nil => exact OnlyRegs.refl b D s
  | cons a l ih => exact (h a (by simp) s).trans (ih (f s a) (fun x hx => h x (List.mem_cons_of_mem _ hx)))

/-- A field's update that touches neither its caches nor its slices, translations or watches. -/
theorem memoryKept_modFld (i : Nat) (h : Field → Field) (s : State)
    (hf : ∀ k, (h k).rdc = k.rdc ∧ (h k).slices = k.slices ∧ (h k).walkTlb = k.walkTlb ∧ (h k).walkCache = k.walkCache ∧ (h k).watches = k.watches) :
    memoryKept s (modFld i h s) := by
  refine ⟨rfl, rfl, rfl, rfl, rfl, rfl, rfl, fun g => ⟨rfl, rfl, rfl, rfl, rfl, rfl⟩, fun f => ?_⟩
  rw [getFld_modFld]; split
  · rename_i e; subst e; exact hf _
  · exact ⟨rfl, rfl, rfl, rfl, rfl⟩
/-- A core's update that touches neither its caches, its scratchpad nor its FIFO. -/
theorem memoryKept_modCore (g : Nat) (h : Core → Core) (s : State)
    (hc : ∀ k, (h k).l1 = k.l1 ∧ (h k).scratch = k.scratch ∧ (h k).scratchErr = k.scratchErr ∧ (h k).fetchBuf = k.fetchBuf ∧ (h k).tlb = k.tlb ∧ (h k).fifo = k.fifo) :
    memoryKept s (modCore g h s) := by
  refine ⟨rfl, rfl, rfl, rfl, rfl, rfl, rfl, fun k => ?_, fun f => ⟨rfl, rfl, rfl, rfl, rfl⟩⟩
  rw [getCore_modCore]; split
  · rename_i e; subst e; exact hc _
  · exact ⟨rfl, rfl, rfl, rfl, rfl, rfl⟩

-- The operations --------------------------------------------------------------------------------------------------

theorem onlyRegs_perfAdd {b : Nat} {D : Nat → Nat → Prop} (f code : Nat) (core : Option Nat) (req : Option Bool) (n : Nat) (s : State) :
    OnlyRegs b D s (perfAdd f code core req n s) := by
  unfold perfAdd; simp only; split
  · exact OnlyRegs.refl _ _ _
  · exact onlyRegs_of_eq (memoryKept_modFld _ _ _ (fun k => ⟨rfl, rfl, rfl, rfl, rfl⟩)) rfl
theorem onlyRegs_perfCore {b : Nat} {D : Nat → Nat → Prop} (g b' code n : Nat) (s : State) : OnlyRegs b D s (perfCore g b' code n s) := onlyRegs_perfAdd ..
theorem onlyRegs_modConsist {b : Nat} {D : Nat → Nat → Prop} (g cn : Nat) (h : Consist → Consist) (s : State) : OnlyRegs b D s (modConsist g cn h s) :=
  onlyRegs_of_eq (memoryKept_modCore _ _ _ (fun k => by split <;> exact ⟨rfl, rfl, rfl, rfl, rfl, rfl⟩)) rfl

-- Registers -----------------------------------------------------------------------------------------------------------

theorem getLsbD_setBits_one {w : Nat} (v : BitVec w) (k x i : Nat) (hk : k < w) :
    (setBits v k 1 x).getLsbD i = if i = k then x.testBit 0 else v.getLsbD i := by
  have hm : ∀ j, (BitVec.ofNat w ((2 ^ 1 - 1) * 2 ^ k)).getLsbD j = (decide (j < w) && decide (j = k)) := by
    intro j
    have e : ((2 ^ 1 - 1) * 2 ^ k : Nat) = 2 ^ k := by omega
    rw [e, BitVec.getLsbD_ofNat, Nat.testBit_two_pow]
    by_cases hj : j = k
    · simp [hj]
    · simp [hj, Ne.symm hj]
  simp only [setBits, BitVec.getLsbD_or, BitVec.getLsbD_and, BitVec.getLsbD_not, hm, BitVec.getLsbD_ofNat]
  by_cases hi : i = k
  · subst hi; simp only [hk, decide_true, Bool.and_self, Bool.not_true, Bool.and_false, Bool.false_or, Bool.and_true, Bool.true_and, if_true]
    rw [Nat.testBit_mul_two_pow]; simp
  · simp only [hi, decide_false, Bool.and_false, Bool.not_false, Bool.and_true, Bool.or_false, if_false]
    by_cases hw : i < w
    · simp [hw]
    · simp [hw, BitVec.getLsbD_of_ge v i (by omega)]
theorem predBit_setBits (p : BitVec 8) (k j x : Nat) (hk : k < 7) : predBit (setBits p k 1 x) j = if j = k then x.testBit 0 else predBit p j := by
  unfold predBit bit; rw [getLsbD_setBits_one p k x j (by omega)]
  by_cases h : j = k
  · subst h; simp; omega
  · simp [h]
/-- Writing a register changes that register alone; p7 and null discard. -/
theorem threadReg_putReg (num n : Nat) (v : Word) (t : Thread) :
    threadReg (putReg num v t) n =
      if n = num ∧ num < 0x147 then (if num < 0x140 then v else if v.toNat % 2 = 1 then 1 else 0) else threadReg t n := by
  unfold threadReg putReg snapReg
  by_cases h1 : num < 0x100
  · simp only [h1, if_true]
    by_cases hn : n = num
    · subst hn; simp [h1, show n < 0x147 by omega, show n < 0x140 by omega]
    · simp only [hn, false_and, if_false, mget_mput_other _ _ _ _ _ hn]
  · simp only [h1, if_false]
    by_cases h2 : num < 0x140
    · simp only [h2, if_true]
      by_cases hn : n = num
      · subst hn; simp [h1, h2, show n < 0x147 by omega]
      · simp only [hn, false_and, if_false]
        by_cases hv : n < 0x100
        · simp [hv]
        · by_cases hs : n < 0x140
          · simp only [hv, hs, if_false, if_true]; rw [mget_mput_other]; omega
          · simp [hv, hs]
    · simp only [h2, if_false]
      by_cases h3 : num < 0x147
      · simp only [h3, if_true, and_true]
        by_cases hn : n = num
        · subst hn
          have hk : n - 320 < 7 := by omega
          simp only [h1, h2, if_false, show n < 0x148 by omega, if_true, predBit_setBits _ _ _ _ hk, Nat.testBit_zero, Nat.mod_mod]
          simp
        · simp only [hn, if_false]
          by_cases hp : n < 0x148
          · by_cases hv : n < 0x140
            · by_cases hq : n < 0x100 <;> simp [hq, hv]
            · have hk : num - 320 < 7 := by omega
              have hd : n - 320 ≠ num - 320 := by omega
              simp only [show ¬ n < 0x100 by omega, hv, hp, if_false, if_true, predBit_setBits _ _ _ _ hk, hd]
          · simp [show ¬ n < 0x100 by omega, show ¬ n < 0x140 by omega, hp]
      · simp [h3]
theorem threadKept_putReg (num : Nat) (v : Word) (t : Thread) : threadKept t (putReg num v t) := by
  unfold putReg; split
  · exact ⟨rfl, rfl, rfl, rfl, rfl, rfl, rfl, rfl, rfl, rfl, rfl, rfl, rfl, rfl, rfl⟩
  · split
    · exact ⟨rfl, rfl, rfl, rfl, rfl, rfl, rfl, rfl, rfl, rfl, rfl, rfl, rfl, rfl, rfl⟩
    · split <;> exact ⟨rfl, rfl, rfl, rfl, rfl, rfl, rfl, rfl, rfl, rfl, rfl, rfl, rfl, rfl, rfl⟩
theorem threadKept_dropMark (num : Nat) (t : Thread) : threadKept t (dropMark num t) :=
  ⟨rfl, rfl, rfl, rfl, rfl, rfl, rfl, rfl, rfl, rfl, rfl, rfl, rfl, rfl, rfl⟩
@[simp] theorem threadReg_dropMark (num n : Nat) (t : Thread) : threadReg (dropMark num t) n = threadReg t n := rfl

/-- The registers a specifier and a count name, for some ranks. -/
def regRange (p : Nat → Prop) (spec : BitVec 9) (n : Nat) (r num : Nat) : Prop := p r ∧ spec.toNat ≤ num ∧ num < spec.toNat + n

theorem threadKept_foldl {α : Type} (l : List α) (f : Thread → α → Thread) (t : Thread) (h : ∀ a u, threadKept u (f u a)) : threadKept t (l.foldl f t) := by
  induction l generalizing t with
  | nil => exact threadKept.refl t
  | cons a l ih => rw [List.foldl_cons]; exact (h a t).trans (ih (f t a))
theorem threadReg_foldl {α : Type} (l : List α) (f : Thread → α → Thread) (t : Thread) (num : Nat) (h : ∀ a ∈ l, ∀ u, threadReg (f u a) num = threadReg u num) :
    threadReg (l.foldl f t) num = threadReg t num := by
  induction l generalizing t with
  | nil => rfl
  | cons a l ih => rw [List.foldl_cons, ih (f t a) (fun x hx => h x (List.mem_cons_of_mem _ hx)), h a (by simp)]
theorem onlyRegs_writeReg (c : Ctx) (rank : Nat) (spec : BitVec 9) (n v : Nat) (s : State) {D : Nat → Nat → Prop}
    (hD : ∀ num, spec.toNat ≤ num → num < spec.toNat + n → D rank num) : OnlyRegs c.blk D s (writeReg c rank spec n v s) := by
  unfold writeReg; split
  · exact OnlyRegs.refl _ _ _
  · apply onlyRegs_modTh
    · intro t; apply threadKept_foldl; intro a u
      cases c.entry with
      | none => exact (threadKept_dropMark _ _).trans (threadKept_putReg _ _ _)
      | some e =>
        simp only; split
        · exact (threadKept_dropMark _ _).trans (threadKept_putReg _ _ _)
        · exact threadKept.refl _
    · intro t num hn; apply threadReg_foldl; intro a ha u
      have ha := List.mem_range.mp ha
      have hne : num ≠ spec.toNat + a := fun e => hn (hD num (by omega) (by omega))
      cases c.entry with
      | none => simp only; rw [threadReg_putReg]; simp [hne]
      | some e =>
        simp only; split
        · rw [threadReg_putReg]; simp [hne]
        · rfl
theorem onlyRegs_writeLanes (c : Ctx) (spec : BitVec 9) (n : Nat) (val : Nat × Nat → Nat) (s : State) (he : c.entry = none) {D : Nat → Nat → Prop}
    (hD : ∀ l ∈ c.active, ∀ num, spec.toNat ≤ num → num < spec.toNat + n → D l.2 num) : OnlyRegs c.blk D s (writeLanes c spec n val s) := by
  unfold writeLanes; split
  · exact OnlyRegs.refl _ _ _
  · rename_i first h
    simp only [he, Option.isSome_none, Bool.and_false, Bool.false_eq_true, if_false]
    exact onlyRegs_foldl _ _ _ (fun l hl t => onlyRegs_writeReg c l.2 spec n _ t (hD l hl))
theorem onlyRegs_writeP (c : Ctx) (spec : BitVec 9) (val : Nat × Nat → Bool) (s : State) {D : Nat → Nat → Prop}
    (hD : ∀ l ∈ c.active, ∀ num, spec.toNat ≤ num → num < spec.toNat + 1 → D l.2 num) : OnlyRegs c.blk D s (writeP c spec val s) := by
  unfold writeP; exact onlyRegs_foldl _ _ _ (fun l hl t => onlyRegs_writeReg c l.2 spec 1 _ t (hD l hl))
theorem onlyRegs_writeTy (c : Ctx) (spec : BitVec 9) (ty : Nat) (val : Nat × Nat → Nat) (s : State) (he : c.entry = none) {D : Nat → Nat → Prop}
    (hD : ∀ l ∈ c.active, ∀ num, spec.toNat ≤ num → num < spec.toNat + (if is64 ty then 2 else 1) → D l.2 num) : OnlyRegs c.blk D s (writeTy c spec ty val s) := by
  unfold writeTy; exact onlyRegs_writeLanes c spec _ _ s he hD

-- Past the instruction --------------------------------------------------------------------------------------------------

theorem onlyRegs_noteOut {b : Nat} {D : Nat → Nat → Prop} (r : Nat) (o : Out) (s : State) : OnlyRegs b D s (noteOut b r o s) := by
  unfold noteOut; split
  · exact OnlyRegs.refl _ _ _
  · exact (onlyRegs_of_eq (memoryKept.refl s) rfl : OnlyRegs b D s { s with nextId := s.nextId + 1 }).trans
      (onlyRegs_modTh _ _ (fun t => ⟨rfl, rfl, rfl, rfl, rfl, rfl, rfl, rfl, rfl, rfl, rfl, rfl, rfl, rfl, rfl⟩) (fun t n _ => rfl))
theorem onlyRegs_noteOuts {b : Nat} {D : Nat → Nat → Prop} (i : Instr) (c : Ctx) (a b' : Bool) (hit : List (Nat × Nat)) (s : State) (hb : c.blk = b) :
    OnlyRegs b D s (noteOuts i c a b' hit s) := by
  subst hb
  unfold noteOuts; simp only; split
  · exact OnlyRegs.refl _ _ _
  · exact onlyRegs_foldl _ _ _ (fun l _ t => onlyRegs_noteOut ..)
theorem shadowIssue_off (i : Instr) (c : Ctx) (s : State) (h : regShadow s (getBlk s c.blk).region = 0) : shadowIssue i c s = s := by
  unfold shadowIssue; simp [h]
theorem effField_congr (s t : State) (h : t.rcbs = s.rcbs) (ovr lo w dflt fuel a : Nat) : effField t ovr lo w dflt fuel a = effField s ovr lo w dflt fuel a := by
  induction fuel generalizing a with
  | zero => rfl
  | succ n ih => simp only [effField, rcbOf, h, ih]; rfl
theorem regShadow_congr (s t : State) (h : t.rcbs = s.rcbs) (a : Nat) : regShadow t a = regShadow s a := effField_congr s t h ..
/-- A block's update that keeps its members and what `blockKept` names. -/
theorem onlyRegs_modBlk {b : Nat} {D : Nat → Nat → Prop} (b' : Nat) (F : Block → Block) (s : State) (hk : ∀ k, blockKept k (F k)) (hm : ∀ k, (F k).members = k.members) :
    OnlyRegs b D s (modBlk b' F s) := by
  have hth : ∀ x r, getTh (modBlk b' F s) x r = getTh s x r := by
    intro x r
    rcases getBlk_modBlk_cases b' x F s with e | ⟨rfl, e⟩
    · simp only [getTh, e]
    · simp only [getTh, e, hm]
  refine ⟨?_, fun x => ?_, fun x r => ?_, fun x r num _ => ?_⟩
  · exact ⟨by simp, by simp, by simp, by simp, by simp, by simp, by simp, fun g => by simp, fun f => by simp⟩
  · rcases getBlk_modBlk_cases b' x F s with e | ⟨rfl, e⟩
    · rw [e]; exact blockKept.refl _
    · rw [e]; exact hk _
  · rw [hth]; exact threadKept.refl _
  · simp only [regAt, hth]
theorem onlyRegs_takeSnapshot {b : Nat} {D : Nat → Nat → Prop} (b' : Nat) (s : State) : OnlyRegs b D s (takeSnapshot b' s) := by
  unfold takeSnapshot
  exact onlyRegs_modBlk _ _ _ (fun k => ⟨rfl, rfl, rfl, rfl, rfl, rfl, rfl, rfl, rfl, rfl, rfl, rfl, rfl, rfl, rfl, rfl, rfl⟩) (fun k => rfl)
theorem onlyRegs_advance {b : Nat} {D : Nat → Nat → Prop} (c : Ctx) (s : State) : OnlyRegs b D s (advance c s) := by
  unfold advance; simp only
  generalize (if c.paired then 0 else 1) = n
  have h1 : ∀ s : State, OnlyRegs b D s (modCore c.g (fun k => { k with running := match mfind k.consists c.cn with
      | some x => if x.uid == c.uid then some c.cn else none
      | none => none }) s) := fun s => onlyRegs_of_eq (memoryKept_modCore _ _ _ (fun k => ⟨rfl, rfl, rfl, rfl, rfl, rfl⟩)) rfl
  split
  · exact ((((onlyRegs_modConsist ..).trans (h1 _)).trans (onlyRegs_perfCore ..)).trans (onlyRegs_perfCore ..)).trans (onlyRegs_takeSnapshot ..)
  · exact (((onlyRegs_modConsist ..).trans (h1 _)).trans (onlyRegs_perfCore ..)).trans (onlyRegs_perfCore ..)
/-- The frame of an effect is the frame of its instruction, in a region without shadow issue. -/
theorem onlyRegs_issued {D : Nat → Nat → Prop} (i : Instr) (c : Ctx) (s s4 : State) (h : OnlyRegs c.blk D s s4) (hu : Unshadowed s c.blk) :
    OnlyRegs c.blk D s (issued i c s s4) := by
  have h2 := h.trans (onlyRegs_noteOuts (D := D) i c (!(shape i).writes.isEmpty) (countsB i) (heldReach s s4) s4 rfl)
  unfold issued
  rw [shadowIssue_off i c]
  · exact h2.trans (onlyRegs_advance c _)
  · rw [(h2.blocks c.blk).2.2.1, regShadow_congr s _ h2.memory.2.2.2.2.2.1]; exact hu

end Sys2Proof.Machine
end

