-- ==== Sys2Proof/Laws/Issue.lean ====
section
/-! SUPPORT. The issue of an instruction that acts: once and for every word. -/
namespace Sys2Proof.Machine

/-- A context is the one of a running clause of the core in turn. -/
theorem context_some {i : Instr} {s : State} {c : Ctx} (h : context i s = some c) : ∃ g cn, ctxAt s g cn i = some c := by
  unfold context at h
  split at h
  · split at h
    · exact ⟨_, _, h⟩
    · cases h
  · cases h
/-- What a context holds beside its clause: fresh registers, no replay, no fill met, and every active thread. -/
theorem context_fresh {i : Instr} {s : State} {c : Ctx} (h : context i s = some c) :
    c.regs = snapOf (getBlk s c.blk) (membersOf c.slots) ∧ c.entry = none ∧ c.fill = none ∧ c.all = c.active := by
  obtain ⟨g, cn, h⟩ := context_some h
  unfold ctxAt at h
  split at h
  · cases h
  · split at h
    · cases h
    · simp only [Option.some.injEq] at h; subst h; exact ⟨rfl, rfl, rfl, rfl⟩
theorem context_regs {i : Instr} {s : State} {c : Ctx} (h : context i s = some c) : c.regs = snapOf (getBlk s c.blk) (membersOf c.slots) := (context_fresh h).1
theorem context_entry {i : Instr} {s : State} {c : Ctx} (h : context i s = some c) : c.entry = none := (context_fresh h).2.1
theorem uncorrLanes_none {s : State} {c : Ctx} (h : (getBlk s c.blk).members.all (fun e => e.2.regErr.isEmpty) = true) (reads : List RegUse) : uncorrLanes s c reads = [] := by
  unfold uncorrLanes; simp only [h, if_true]
theorem correctRegs_none {s : State} {c : Ctx} (h : (getBlk s c.blk).members.all (fun e => e.2.regErr.isEmpty) = true) (reads : List RegUse) : correctRegs s c reads = s := by
  unfold correctRegs; simp only [h, if_true]
theorem quantaOf_none {s : State} {c c' : Ctx} (hb : c'.blk = c.blk) (h : (getBlk s c.blk).members.all (fun e => e.2.spilled.isEmpty) = true) (reads : List RegUse) :
    quantaOf c' reads s = [] := by unfold quantaOf; rw [hb]; simp only [h, if_true]
theorem causeLanes_nil (i : Instr) : causeLanes i [] = [] := by unfold causeLanes; split <;> rfl
theorem goOn_nil (i : Instr) (c : Ctx) : goOn i c [] = c.active := by unfold goOn; split <;> simp
/-- A register file that has room gives up nothing (R55). -/
theorem fileRoom_fits (g : Nat) (keep : List (Nat × Nat × Nat)) (need fuel : Nat) (s : State) (h : (filePlaces s g).length + need ≤ fileSize) :
    fileRoom g keep need fuel s = s := by
  cases fuel with
  | zero => rfl
  | succ n => unfold fileRoom; simp only [h, if_true]
/-- A state that has not changed has reached no held pseudo-channel. -/
@[simp] theorem heldReach_self (s : State) : heldReach s s = [] := by simp [heldReach]
/-- An instruction that acts comes to its effect, in its own context. -/
theorem issueIn_ready {i : Instr} {eff : Ctx → State → Fin} {c : Ctx} {s : State} (h : Ready i s c) :
    issueIn i i false eff c s = (match eff c s with
      | .done s4 => issued i c s s4
      | .stall => s
      | .suspend => suspendFull c s
      | .refault _ _ _ _ _ => s) := by
  have hr := h.inRange; have hu := h.unowed; have hm := h.unmarked; have hl := h.lawful; have hs := h.unsynced; have ho := h.ordered
  have ha : c.active.isEmpty = false := by cases e : c.active with | nil => exact absurd e h.threads | cons _ _ => rfl
  have hg : guardPending i c s = false := by
    unfold mustSuspend at hm; simp only [Bool.or_eq_false_iff] at hm; exact hm.1.1.1
  have hff : fileFull c (readsOf s c (shape i)) (shape i).writes s = false := by
    unfold mustSuspend at hm; simp only [Bool.or_eq_false_iff] at hm; exact hm.2
  have hc : ({ c with active := c.active, all := c.active, regs := snapOf (getBlk s c.blk) (membersOf c.slots), fill := none } : Ctx) = c := by
    obtain ⟨wa, wf⟩ := h.whole
    rw [← h.fresh, ← wa, ← wf]
    cases c; simp_all
  unfold namedRegs at hr hu
  unfold issueIn
  rw [hl]
  simp only [ha, hr, hu, hm, hs, ho, hg, fileRoom_fits _ _ _ _ _ h.fits, ite_self, hff, causeLanes_nil, goOn_nil, heldReach_self, uncorrLanes_none h.noError, correctRegs_none h.noError, quantaOf_none (c := c) (c' := { c with active := c.active, all := c.active }) rfl h.filled,
    fillRegs, List.foldl_nil, List.isEmpty_nil, Bool.not_true, Bool.false_and, Bool.or_false, Bool.true_or, if_false, Bool.false_eq_true, if_true,
    List.contains_nil, Bool.not_false, List.filter_true, hc, issued]
  all_goals rfl
/-- An instruction that acts and whose effect completes. -/
theorem issueIn_done {i : Instr} {eff : Ctx → State → Fin} {c : Ctx} {s s4 : State} (h : Ready i s c) (he : eff c s = .done s4) :
    issueIn i i false eff c s = issued i c s s4 := by rw [issueIn_ready h, he]
theorem issueIn_stall {i : Instr} {eff : Ctx → State → Fin} {c : Ctx} {s : State} (h : Ready i s c) (he : eff c s = .stall) : issueIn i i false eff c s = s := by
  rw [issueIn_ready h, he]
theorem issueA_next {mk : FmtA → Instr} {f : FmtA} {eff : FmtA → Ctx → State → Fin} {s s4 : State} {c : Ctx} (h : Issues (mk f) s c) (he : eff f c s = .done s4) :
    issueA mk f eff s = .next (issued (mk f) c s s4) := by
  unfold issueA; simp only [h.here, h.noRepeat, issueIn_done h.ready he]
theorem issueI_next {mk : FmtI → Instr} {f : FmtI} {eff : FmtI → Ctx → State → Fin} {s s4 : State} {c : Ctx} (h : Issues (mk f) s c) (he : eff f c s = .done s4) :
    issueI mk f eff s = .next (issued (mk f) c s s4) := by
  unfold issueI; simp only [h.here, h.noRepeat, issueIn_done h.ready he]
theorem issueM_next {mk : FmtM → Instr} {f : FmtM} {eff : FmtM → Ctx → State → Fin} {s s4 : State} {c : Ctx} (h : Issues (mk f) s c) (he : eff f c s = .done s4) :
    issueM mk f eff s = .next (issued (mk f) c s s4) := by
  unfold issueM; simp only [h.here, h.noRepeat, issueIn_done h.ready he]
theorem issueE_next {mk : FmtE → Instr} {f : FmtE} {eff : FmtE → Ctx → State → Fin} {s s4 : State} {c : Ctx} (h : Issues (mk f) s c) (he : eff f c s = .done s4) :
    issueE mk f eff s = .next (issued (mk f) c s s4) := by
  unfold issueE; simp only [h.here, issueIn_done h.ready he]
/-- A cause that the word alone shows is raised on every executing thread, and nothing else happens (R324). -/
theorem issueIn_cause {i : Instr} {eff : Ctx → State → Fin} {c : Ctx} {s : State} {code : Nat} (h : wordCause i i c s = some code) :
    issueIn i i false eff c s = advance c (raise c c.exec code s) := by
  unfold issueIn; simp only [h]

/-- The same, of each format's issue. -/
theorem issueA_cause {c : Ctx} {s : State} {code : Nat} (mk : FmtA → Instr) (f : FmtA) (eff : FmtA → Ctx → State → Fin) (hc : context (mk f) s = some c) (hr : c.rep = none)
    (hw : wordCause (mk f) (mk f) c s = some code) : issueA mk f eff s = .next (advance c (raise c c.exec code s)) := by
  unfold issueA; simp only [hc, hr]; rw [issueIn_cause hw]
theorem issueI_cause {c : Ctx} {s : State} {code : Nat} (mk : FmtI → Instr) (f : FmtI) (eff : FmtI → Ctx → State → Fin) (hc : context (mk f) s = some c) (hr : c.rep = none)
    (hw : wordCause (mk f) (mk f) c s = some code) : issueI mk f eff s = .next (advance c (raise c c.exec code s)) := by
  unfold issueI; simp only [hc, hr]; rw [issueIn_cause hw]
theorem issueM_cause {c : Ctx} {s : State} {code : Nat} (mk : FmtM → Instr) (f : FmtM) (eff : FmtM → Ctx → State → Fin) (hc : context (mk f) s = some c) (hr : c.rep = none)
    (hw : wordCause (mk f) (mk f) c s = some code) : issueM mk f eff s = .next (advance c (raise c c.exec code s)) := by
  unfold issueM; simp only [hc, hr]; rw [issueIn_cause hw]
theorem issueE_cause {c : Ctx} {s : State} {code : Nat} (mk : FmtE → Instr) (f : FmtE) (eff : FmtE → Ctx → State → Fin) (hc : context (mk f) s = some c)
    (hw : wordCause (mk f) (mk f) c s = some code) : issueE mk f eff s = .next (advance c (raise c c.exec code s)) := by
  unfold issueE; simp only [hc]; rw [issueIn_cause hw]
/-- What every pass of a fold keeps holds after it. -/
theorem foldl_inv {α β : Type} (P : α → Prop) (f : α → β → α) (l : List β) (s : α) (h0 : P s) (h1 : ∀ b s, P s → P (f s b)) : P (l.foldl f s) := by
  induction l generalizing s with
  | nil => exact h0
  | cons b l ih => exact ih _ (h1 b s h0)
/-- Two folds that agree on every state an invariant allows are equal; the invariant may speak of what is still to come. -/
theorem foldl_congr_inv {α β : Type} (P : List β → α → Prop) (f g : α → β → α) (l : List β) (s : α) (h0 : P l s)
    (h1 : ∀ b l s, P (b :: l) s → f s b = g s b ∧ P l (g s b)) : l.foldl f s = l.foldl g s := by
  induction l generalizing s with
  | nil => rfl
  | cons b l ih => rw [List.foldl_cons, List.foldl_cons, (h1 b l s h0).1]; exact ih _ (h1 b l s h0).2
/-- Changing a thread leaves its block's allotment and its waiting requests. -/
theorem modTh_allot (b r : Nat) (h : Thread → Thread) (s : State) (b' : Nat) :
    (getBlk (modTh b r h s) b').allot = (getBlk s b').allot ∧ (getBlk (modTh b r h s) b').grows = (getBlk s b').grows := by
  obtain ⟨m, e⟩ := getBlk_modTh b r b' h s; rw [e]; exact ⟨rfl, rfl⟩

end Sys2Proof.Machine
end

