-- ==== Sys2Proof/Laws/Access.lean ====
section
/-! SUPPORT. What the shared access operation, the delivery of loaded values and a step do, each said once. -/
namespace Sys2Proof.Machine

/-- Where every access resolves, an access instruction performs all of them and does nothing else (R226, R408). -/
theorem accessLanes_reaches {c : Ctx} {i : Instr} {q : Req} {dests : List Nat} {marked : Option (List Nat)} {lanes : List LaneAt} {s s' : State} {xs : List (LaneAt × Loc)}
    (perform : List (LaneAt × Loc) → State → State) (he : c.entry = none) (h : Reaches c q lanes s xs s') :
    accessLanes c i q dests marked lanes perform s = .done (perform xs s') := by
  have hf : (xs.map (fun x => (x.1, Res.loc x.2))).filterMap resFault = [] := by rw [List.filterMap_map]; simp [Function.comp_def, resFault]
  have hl : (xs.map (fun x => (x.1, Res.loc x.2))).filterMap resLoc = xs := by rw [List.filterMap_map]; simp [Function.comp_def, resLoc]
  have ht : ∀ s : State, (xs.map (fun x => (x.1, Res.loc x.2))).foldl (resRaise c q) s = s := by
    intro s; rw [List.foldl_map]; exact List.foldl_fixed' (fun _ => rfl) _
  unfold accessLanes
  rw [h.2.2]; simp only [he, hf, hl, ht, h.1, List.isEmpty_nil, Bool.not_true, Bool.false_and, Bool.false_eq_true, if_false]
/-- Reads answer one value for each access, in order. -/
theorem laneReads_ranks (c : Ctx) (pt : Nat) (ro : Bool) (n : Nat) (xs : List (LaneAt × Loc)) (s : State) :
    (laneReads c pt ro n xs s).1.map (·.1) = xs.map (fun x => x.1.1.2) := by
  simp [laneReads, List.map_map, Function.comp_def]
/-- With a value for every active thread, delivery is a plain write of the destination. -/
theorem deliver_all {c : Ctx} {f : FmtM} {vs : List (Nat × Nat)} {s : State} (ha : c.all = c.active) (h : ∀ l ∈ c.active, l.2 ∈ vs.map (·.1)) :
    deliverVals c f vs s = writeLanes c f.data (dataN f) (fun l => ((vs.find? (fun v => v.1 == l.2)).map (·.2)).getD 0) s := by
  unfold deliverVals
  have : c.active.filter (fun l => vs.any (fun v => v.1 == l.2)) = c.active := by
    rw [List.filter_eq_self]; intro l hl; have := h l hl; simp only [List.mem_map] at this; obtain ⟨v, hv, e⟩ := this
    simp only [List.any_eq_true, beq_iff_eq]; exact ⟨v, hv, e⟩
  rw [this]
  unfold writeLanes
  have e : firstOf { c with active := c.active, all := [] } = firstOf c := by unfold firstOf; rw [ha]; cases c.active <;> rfl
  rw [e]; rfl
/-- Every next state of a step has gone through the end of a step. -/
theorem step_finish {s t : State} (h : step s = .next t) : ∃ u, t = finish u := by
  unfold step at h
  split at h
  · cases h; exact ⟨_, rfl⟩
  · cases h; exact ⟨_, rfl⟩
  · cases h; exact ⟨_, rfl⟩
  · split at h
    · cases h; exact ⟨_, rfl⟩
    · unfold runEvent at h; split at h <;> cases h; exact ⟨_, rfl⟩
  · split at h
    · cases h; exact ⟨_, rfl⟩
    · unfold runEvent at h; split at h <;> cases h; exact ⟨_, rfl⟩
  · split at h
    · unfold run ended at h; split at h <;> cases h; exact ⟨_, rfl⟩
    · cases h; exact ⟨_, rfl⟩

end Sys2Proof.Machine
end

