-- ==== Sys2Proof/Laws/Held.lean ====
section
/-! SUPPORT. What waits for a pseudo-channel (R147, R148): said once of a step's reach, of spills and of events. -/
namespace Sys2Proof.Machine

/-- What notes no held pseudo-channel has reached none. -/
theorem heldReach_kept {s t : State} (h : t.touched = s.touched) : heldReach s t = [] := by simp [heldReach, h]
/-- What one held pseudo-channel adds to the notes is all that is reached. -/
theorem heldReach_cons {s t : State} {p : Nat × Nat} (h : t.touched = p :: s.touched) : heldReach s t = [p] := by simp [heldReach, h]
/-- A spill is made, or its quantum stays pinned and the rest as it was. -/
theorem spillQuantum_cases (b r q : Nat) (refault : Bool) (s : State) :
    (heldReach s (spillNow b r q refault s) = [] ∧ spillQuantum b r q refault s = spillNow b r q refault s) ∨
    (heldReach s (spillNow b r q refault s) ≠ [] ∧ spillQuantum b r q refault s = modTh b r (fun t => { t with pinned := t.pinned ++ [(q, none)] }) s) := by
  unfold spillQuantum
  cases h : heldReach s (spillNow b r q refault s) with
  | nil => exact .inl ⟨rfl, by simp [h]⟩
  | cons p ps => exact .inr ⟨List.cons_ne_nil _ _, by simp [h]⟩
/-- An event has happened, having reached nothing held, or it waits, and nothing else has changed. -/
theorem eventEnd_cases (served : Bool) (i : Instr) (s t : State) :
    (heldReach s t = [] ∧ eventEnd served i s t = t) ∨
    (eventEnd served i s t = { s with heldEvs := if served then (heldReach s t, i) :: s.heldEvs else s.heldEvs ++ [(heldReach s t, i)] } ∧
      (heldReach s t ≠ [] ∨ (served = false ∧ fromHost i = true ∧ ∃ e ∈ s.heldEvs, fromHost e.2 = true))) := by
  unfold eventEnd
  cases served <;> cases h : heldReach s t <;> simp
  by_cases hb : fromHost i = true ∧ ∃ a b, (a, b) ∈ s.heldEvs ∧ fromHost b = true
  · refine .inr ⟨fun h => ?_, hb⟩
    obtain ⟨hi, a, b, hm, hf⟩ := hb
    rcases h with h | h
    · simp [hi] at h
    · simp [h a b hm] at hf
  · left
    intro hi a b hm hf
    exact absurd ⟨hi, a, b, hm, hf⟩ hb
/-- The first event that waits happens next, once nothing it has reached is held; else nothing changes. -/
theorem serveEvents_cases (s : State) :
    serveEvents s = s ∨ ∃ ps i rest, s.heldEvs = (ps, i) :: rest ∧ ps.any (pchHeld s) = false ∧
      serveEvents s = { s with heldEvs := rest, agenda := .served i :: s.agenda } := by
  unfold serveEvents
  split
  · exact .inl rfl
  · rename_i ps i rest h
    split
    · exact .inl rfl
    · rename_i hp; exact .inr ⟨ps, i, rest, h, by simpa using hp, rfl⟩
/-- A step ends with no note of what it has reached. -/
@[simp] theorem finish_touched (s : State) : (finish s).touched = [] := rfl

end Sys2Proof.Machine
end

