-- ==== Sys2Proof/Laws/Memory.lean ====
section
/-! SUPPORT. The canonical form of home memory: what it says, and that every memory operation keeps it. -/
namespace Sys2Proof.Machine

/-- The canonical form said of the list as a whole. -/
theorem wf_iff (m : List Host.Cell) : Memory.wf m = true ↔ m.Pairwise (fun c d => c.1 < d.1) ∧ ∀ c ∈ m, c.2 ≠ memDefault := by
  induction m with
  | nil => simp [Memory.wf]
  | cons e m ih =>
    obtain ⟨a, v⟩ := e
    simp only [Memory.wf, Bool.and_eq_true, ih, List.pairwise_cons, List.all_eq_true, decide_eq_true_eq, bne_iff_ne, List.forall_mem_cons]
    tauto
theorem wf_nil : Memory.wf [] = true := rfl
/-- Dropping cells keeps the form: an erased range, the start of the keys. -/
theorem wf_filter (m : List Host.Cell) (p : Host.Cell → Bool) (h : Memory.wf m = true) : Memory.wf (m.filter p) = true := by
  rw [wf_iff] at *
  exact ⟨h.1.filter p, fun c hc => h.2 c (List.mem_filter.1 hc).1⟩
theorem wf_mdel (m : List Host.Cell) (a : Nat) (h : Memory.wf m = true) : Memory.wf (mdel m a) = true := wf_filter m _ h
theorem mem_mput {α : Type} (m : SMap α) (a : Nat) (v : α) (c : Nat × α) (h : c ∈ mput m a v) : c = (a, v) ∨ c ∈ m := by
  induction m with
  | nil => simpa [mput] using h
  | cons e m ih =>
    obtain ⟨k, w⟩ := e
    simp only [mput] at h
    split at h
    · simpa using h
    · split at h
      · rcases List.mem_cons.1 h with h | h
        · exact .inl h
        · exact .inr (List.mem_cons_of_mem _ h)
      · rcases List.mem_cons.1 h with h | h
        · exact .inr (h ▸ List.mem_cons_self)
        · exact (ih h).imp_right (List.mem_cons_of_mem _)
theorem pairwise_mput {α : Type} (m : SMap α) (a : Nat) (v : α) (h : m.Pairwise (fun c d => c.1 < d.1)) : (mput m a v).Pairwise (fun c d => c.1 < d.1) := by
  induction m with
  | nil => simp [mput]
  | cons e m ih =>
    obtain ⟨k, w⟩ := e
    rw [List.pairwise_cons] at h
    simp only [mput]
    split
    · rename_i hk
      refine List.pairwise_cons.2 ⟨fun c hc => ?_, List.pairwise_cons.2 h⟩
      rcases List.mem_cons.1 hc with rfl | hc
      · exact hk
      · exact Nat.lt_trans hk (h.1 c hc)
    · split
      · rename_i hk; subst hk; exact List.pairwise_cons.2 h
      · rename_i h1 h2
        refine List.pairwise_cons.2 ⟨fun c hc => ?_, ih h.2⟩
        rcases mem_mput m a v c hc with rfl | hc
        · show k < a; omega
        · exact h.1 c hc
/-- One byte written. -/
theorem wf_memPut (m : List Host.Cell) (a : Nat) (v : Byte) (h : Memory.wf m = true) : Memory.wf (memPut m a v) = true := by
  unfold memPut
  split
  · exact wf_mdel m a h
  · rename_i hv
    rw [wf_iff] at *
    refine ⟨pairwise_mput m a v h.1, fun c hc => ?_⟩
    rcases mem_mput m a v c hc with rfl | hc
    · exact hv
    · exact h.2 c hc
/-- Many bytes written one by one: a range copied. -/
theorem wf_foldl_memPut {α : Type} (l : List α) (at_ : α → Nat) (v : α → Byte) (m : List Host.Cell) (h : Memory.wf m = true) :
    Memory.wf (l.foldl (fun m x => memPut m (at_ x) (v x)) m) = true := by
  induction l generalizing m with
  | nil => exact h
  | cons x l ih => exact ih _ (wf_memPut m _ _ h)
/-- The cells of an area that is written: in the area, rising, none equal to the default. -/
theorem maskCells_form (old : List Host.Cell) (bs : List (Bool × Byte)) (a : Nat) :
    (∀ c ∈ maskCells old a bs, a ≤ c.1 ∧ c.1 < a + bs.length ∧ c.2 ≠ memDefault) ∧ (maskCells old a bs).Pairwise (fun c d => c.1 < d.1) := by
  induction bs generalizing a with
  | nil => simp [maskCells]
  | cons b bs ih =>
    obtain ⟨k, b⟩ := b
    obtain ⟨h1, h2⟩ := ih (a + 1)
    have h3 : ∀ c ∈ maskCells old (a + 1) bs, a < c.1 ∧ a ≤ c.1 ∧ c.1 < a + ((k, b) :: bs).length ∧ c.2 ≠ memDefault := by
      intro c hc; have := h1 c hc; simp only [List.length_cons]; refine ⟨?_, ?_, ?_, this.2.2⟩ <;> omega
    simp only [maskCells]
    generalize (if k = true then b else memGet old a) = v
    split
    · exact ⟨fun c hc => (h3 c hc).2, h2⟩
    · rename_i hv
      refine ⟨fun c hc => ?_, List.pairwise_cons.2 ⟨fun c hc => (h3 c hc).1, h2⟩⟩
      rcases List.mem_cons.1 hc with rfl | hc
      · simp only [List.length_cons]; exact ⟨Nat.le_refl a, by omega, hv⟩
      · exact (h3 c hc).2
/-- An area written where a mask says so. -/
theorem wf_memPutMask (m : List Host.Cell) (a : Nat) (bs : List (Bool × Byte)) (h : Memory.wf m = true) : Memory.wf (memPutMask m a bs) = true := by
  rw [wf_iff] at *
  obtain ⟨h1, h2⟩ := maskCells_form (m.filter (fun c => a ≤ c.1 && c.1 < a + bs.length)) bs a
  unfold memPutMask
  refine ⟨?_, fun c hc => ?_⟩
  · refine List.pairwise_append.2 ⟨List.pairwise_append.2 ⟨h.1.filter _, h2, fun c hc d hd => ?_⟩, h.1.filter _, fun c hc d hd => ?_⟩
    · have := h1 d hd; have := (List.mem_filter.1 hc).2; simp only [decide_eq_true_eq] at this; omega
    · have hd := (List.mem_filter.1 hd).2; simp only [decide_eq_true_eq] at hd
      rcases List.mem_append.1 hc with hc | hc
      · have := (List.mem_filter.1 hc).2; simp only [decide_eq_true_eq] at this; omega
      · have := h1 c hc; omega
  · rcases List.mem_append.1 hc with hc | hc
    · rcases List.mem_append.1 hc with hc | hc
      · exact h.2 c (List.mem_filter.1 hc).1
      · exact (h1 c hc).2.2
    · exact h.2 c (List.mem_filter.1 hc).1
/-- Bytes written from an address up. -/
theorem wf_memPuts (m : List Host.Cell) (a : Nat) (bs : List Byte) (h : Memory.wf m = true) : Memory.wf (memPuts m a bs) = true := wf_memPutMask m a _ h
/-- Memory lists nothing at reset. -/
theorem wf_reset : Memory.wf State.reset.mem = true := rfl
/-- The start of the keys, the erasure of a range and the copy of a range, as the device makes them (R299, R240). -/
theorem wf_eraseRange (m : List Host.Cell) (pa n : Nat) (h : Memory.wf m = true) : Memory.wf (m.filter (fun c => c.1 < pa || pa + n ≤ c.1)) = true := wf_filter m _ h
theorem wf_moveRange (m : List Host.Cell) (src dst n : Nat) (h : Memory.wf m = true) :
    Memory.wf ((m.filter (fun c => src ≤ c.1 && c.1 < src + n)).foldl (fun m c => memPut m (dst + (c.1 - src)) c.2)
      (m.filter (fun c => c.1 < dst || dst + n ≤ c.1))) = true := wf_foldl_memPut _ _ _ _ (wf_filter m _ h)

end Sys2Proof.Machine
end

