-- ==== Sys2Proof/Laws/PerInstr.lean ====
section
/-! SUPPORT. Statements made per instruction: the family `Opcode` says that an instruction's encoded word carries the opcode of the spec's tables (R337-R344; R346 for
drill commands) in the place of R314 or R328. A device event has no word. -/
namespace Sys2Proof.Laws

/-- Where the opcode of an instruction stands (lowest bit, width) and its value, as R337-R344 and R346 print it. -/
def Opcode.printed : Instr → Option (Nat × Nat × Nat)
  | .clause _ => some (86, 10, 0x000)
  | .nop _ => some (86, 10, 0x001)
  | .br _ => some (86, 10, 0x002)
  | .brx _ => some (86, 10, 0x003)
  | .call _ => some (86, 10, 0x004)
  | .callx _ => some (86, 10, 0x005)
  | .ret _ => some (86, 10, 0x006)
  | .exit _ => some (86, 10, 0x007)
  | .trap _ => some (86, 10, 0x008)
  | .tret _ => some (86, 10, 0x009)
  | .marshal _ => some (86, 10, 0x00A)
  | .marshalRank _ => some (86, 10, 0x00A)
  | .yield _ => some (86, 10, 0x00B)
  | .yieldExpiry _ _ => none
  | .repeatN _ => some (86, 10, 0x00C)
  | .sleep _ => some (86, 10, 0x00D)
  | .sleepExpiry _ _ => none
  | .waitaddr _ => some (86, 10, 0x00E)
  | .wakeaddr _ => some (86, 10, 0x00F)
  | .preemptOff _ => some (86, 10, 0x010)
  | .preemptOn _ => some (86, 10, 0x010)
  | .preemptOverrun _ => none
  | .bar _ => some (86, 10, 0x011)
  | .bara _ => some (86, 10, 0x012)
  | .barw _ => some (86, 10, 0x013)
  | .grow _ => some (86, 10, 0x014)
  | .shrink _ => some (86, 10, 0x015)
  | .growa _ => some (86, 10, 0x016)
  | .shrinka _ => some (86, 10, 0x017)
  | .growStarved _ _ => none
  | .gets _ => some (86, 10, 0x018)
  | .sets _ => some (86, 10, 0x019)
  | .launch _ => some (86, 10, 0x01A)
  | .launchRecordWrite _ => none
  | .depdec _ => some (86, 10, 0x01B)
  | .counterDecrement _ => none
  | .locq _ => some (86, 10, 0x01C)
  | .add _ => some (86, 10, 0x040)
  | .sub _ => some (86, 10, 0x041)
  | .addc _ => some (86, 10, 0x042)
  | .subb _ => some (86, 10, 0x043)
  | .mul _ => some (86, 10, 0x044)
  | .mulhi _ => some (86, 10, 0x045)
  | .mad _ => some (86, 10, 0x046)
  | .madw _ => some (86, 10, 0x047)
  | .div _ => some (86, 10, 0x048)
  | .rem _ => some (86, 10, 0x049)
  | .min _ => some (86, 10, 0x04A)
  | .max _ => some (86, 10, 0x04B)
  | .abs _ => some (86, 10, 0x04C)
  | .neg _ => some (86, 10, 0x04D)
  | .and _ => some (86, 10, 0x04E)
  | .or _ => some (86, 10, 0x04F)
  | .xor _ => some (86, 10, 0x050)
  | .not _ => some (86, 10, 0x051)
  | .andn _ => some (86, 10, 0x052)
  | .shl _ => some (86, 10, 0x053)
  | .shr _ => some (86, 10, 0x054)
  | .sar _ => some (86, 10, 0x055)
  | .rot _ => some (86, 10, 0x056)
  | .bfe _ => some (86, 10, 0x057)
  | .bfi _ => some (86, 10, 0x058)
  | .popc _ => some (86, 10, 0x059)
  | .clz _ => some (86, 10, 0x05A)
  | .ctz _ => some (86, 10, 0x05B)
  | .brev _ => some (86, 10, 0x05C)
  | .sel _ => some (86, 10, 0x05D)
  | .cmp _ => some (86, 10, 0x05E)
  | .mov _ => some (86, 10, 0x05F)
  | .movi _ => some (86, 10, 0x060)
  | .lea _ => some (86, 10, 0x061)
  | .add64 _ => some (86, 10, 0x062)
  | .sub64 _ => some (86, 10, 0x063)
  | .mad64 _ => some (86, 10, 0x064)
  | .pand _ => some (86, 10, 0x065)
  | .por _ => some (86, 10, 0x066)
  | .pxor _ => some (86, 10, 0x067)
  | .pnot _ => some (86, 10, 0x068)
  | .pmov _ => some (86, 10, 0x069)
  | .fadd _ => some (86, 10, 0x080)
  | .fsub _ => some (86, 10, 0x081)
  | .fmul _ => some (86, 10, 0x082)
  | .fma _ => some (86, 10, 0x083)
  | .fmin _ => some (86, 10, 0x084)
  | .fmax _ => some (86, 10, 0x085)
  | .fcmp _ => some (86, 10, 0x086)
  | .fclass _ => some (86, 10, 0x087)
  | .frnd _ => some (86, 10, 0x088)
  | .frcp _ => some (86, 10, 0x089)
  | .frsq _ => some (86, 10, 0x08A)
  | .fsqrt _ => some (86, 10, 0x08B)
  | .fexp2 _ => some (86, 10, 0x08C)
  | .flog2 _ => some (86, 10, 0x08D)
  | .fsin _ => some (86, 10, 0x08E)
  | .fcos _ => some (86, 10, 0x08F)
  | .ftanh _ => some (86, 10, 0x090)
  | .fsig _ => some (86, 10, 0x091)
  | .fdot2 _ => some (86, 10, 0x092)
  | .fdot4 _ => some (86, 10, 0x093)
  | .cvt _ => some (86, 10, 0x0C0)
  | .cvts _ => some (86, 10, 0x0C1)
  | .pack2 _ => some (86, 10, 0x0C2)
  | .unpack _ => some (86, 10, 0x0C3)
  | .scalex _ => some (86, 10, 0x0C4)
  | .q4enc _ => some (86, 10, 0x0C5)
  | .q4dec _ => some (86, 10, 0x0C6)
  | .ballot _ => some (86, 10, 0x0C8)
  | .matchEq _ => some (86, 10, 0x0C9)
  | .vote _ => some (86, 10, 0x0CA)
  | .reduce _ => some (86, 10, 0x0CB)
  | .scan _ => some (86, 10, 0x0CC)
  | .shfl _ => some (86, 10, 0x0CD)
  | .slotof _ => some (86, 10, 0x0CE)
  | .rankof _ => some (86, 10, 0x0CF)
  | .ld _ => some (86, 10, 0x100)
  | .ldx _ => some (86, 10, 0x101)
  | .st _ => some (86, 10, 0x102)
  | .atom _ => some (86, 10, 0x103)
  | .atomn _ => some (86, 10, 0x104)
  | .cas _ => some (86, 10, 0x105)
  | .fence _ => some (86, 10, 0x106)
  | .prefetch _ => some (86, 10, 0x107)
  | .clean _ => some (86, 10, 0x108)
  | .inval _ => some (86, 10, 0x109)
  | .ysend _ => some (86, 10, 0x10A)
  | .yrecv _ => some (86, 10, 0x10B)
  | .yprobe _ => some (86, 10, 0x10C)
  | .trec _ => some (86, 10, 0x140)
  | .tcopy _ => some (86, 10, 0x141)
  | .tstore _ => some (86, 10, 0x142)
  | .tcopymc _ => some (86, 10, 0x143)
  | .recvarm _ => some (86, 10, 0x144)
  | .tagwait _ => some (86, 10, 0x145)
  | .tagffs _ => some (86, 10, 0x146)
  | .tagclr _ => some (86, 10, 0x147)
  | .tagstat _ => some (86, 10, 0x148)
  | .drill _ => some (86, 10, 0x180)
  | .mready _ => some (86, 10, 0x181)
  | .mwait _ => some (86, 10, 0x182)
  | .accrd _ => some (86, 10, 0x183)
  | .accwr _ => some (86, 10, 0x184)
  | .nanrd _ => some (86, 10, 0x185)
  | .wpart _ => some (86, 10, 0x1C0)
  | .fwload _ => some (86, 10, 0x1C1)
  | .fwstore _ => some (86, 10, 0x1C2)
  | .fwop _ => some (86, 10, 0x1C3)
  | .fwred _ => some (86, 10, 0x1C4)
  | .fwfill _ => some (86, 10, 0x1C5)
  | .coll _ => some (86, 10, 0x1C8)
  | .collq _ => some (86, 10, 0x1C9)
  | .trsync _ => some (86, 10, 0x3C0)
  | .tlbinvVa _ => some (86, 10, 0x3C1)
  | .tlbinvRoot _ => some (86, 10, 0x3C1)
  | .tlbinvAll _ => some (86, 10, 0x3C1)
  | .tlbinvAck _ _ => none
  | .ctxsave _ => some (86, 10, 0x3C2)
  | .ctxload _ => some (86, 10, 0x3C3)
  | .errinj _ => some (86, 10, 0x3C4)
  | .drillStreamRead _ => none
  | .dnop _ => some (88, 8, 0x01)
  | .dend _ => some (88, 8, 0x02)
  | .dbarBar _ => some (88, 8, 0x03)
  | .dbarReady _ => some (88, 8, 0x03)
  | .dzero _ => some (88, 8, 0x08)
  | .dldacc _ => some (88, 8, 0x09)
  | .dstacc _ => some (88, 8, 0x0A)
  | .dscale _ => some (88, 8, 0x0B)
  | .dmma _ => some (88, 8, 0x10)
  | .drillCommandRetire _ _ => none
  | .instructionResultReturn _ _ _ => none
  | .accessComplete _ _ _ => none
  | .clauseEnd _ => none
  | .sidingDue _ _ => none
  | .consistForm _ _ => none
  | .shadowCompare _ _ => none
  | .spill _ _ _ _ => none
  | .fqcmdReplay _ _ => none
  | .fqcmdDeny _ _ => none
  | .signalBoxEvent _ => none
  | .contextSave _ => none
  | .resumption _ => none
  | .blockRetire _ => none
  | .killDrained _ => none
  | .cmdNop _ => none
  | .cmdLaunch _ => none
  | .cmdSignal _ => none
  | .signalDone _ => none
  | .cmdDepset _ => none
  | .doorbell _ _ => none
  | .bind _ => none
  | .stop _ => none
  | .resume _ => none
  | .kill _ => none
  | .unbind _ => none
  | .uselist _ => none
  | .useclear _ => none
  | .mbxindbGo _ => none
  | .mbxoutctlWrite _ => none
  | .mbxoutrdWrite _ => none
  | .rcbsync _ => none
  | .plinv _ => none
  | .depctrWrite _ _ => none
  | .ftwctlWrite _ _ _ => none
  | .ftwRegisterWrite _ _ _ _ => none
  | .linkDisable _ => none
  | .linkEnable _ => none
  | .linkinjArm _ _ => none
  | .injectorFire _ => none
  | .pcpwrActive _ _ => none
  | .pcpwrSelfRefresh _ _ => none
  | .pcpwrPowerDown _ _ => none
  | .pcpwrHoldEnd _ => none
  | .wmapcmd _ => none
  | .bootresetClear _ => none
  | .registerWrite _ _ => none
  | .hostAccess _ _ _ => none
  | .cacheEviction _ => none
  | .copyComplete _ _ => none
  | .multicastDelivery _ _ => none
  | .wpartSwitchPoint _ _ => none
  | .furrowOperationComplete _ _ => none
  | .chunkReduced _ _ => none
  | .chunkDelivered _ _ => none
  | .reTree _ => none
  | .linkFailure _ => none
  | .linkTrainingStart _ => none
  | .linkTrainingEnd _ _ => none
  | .governorEvaluation _ _ => none
  | .trip _ _ _ => none
  | .clockStretch _ _ => none
  | .retrainStart _ _ => none
  | .retrainEnd _ _ => none
  | .moduleReset _ => none
  | .upperTierGate _ => none
  | .upperTierUngate _ => none
  | .migration _ _ _ => none
  | .rangeEviction _ _ _ => none
  | .rangeMigrateBack _ _ _ => none
  | .inFieldTest _ => none
  | .softError _ _ => none
  | .chunkPartialArrival _ _ _ => none
  | .quifinMessage _ => none
  | .undefinedOpcode _ => none
  | .queueVisit => none
  | .trinvVa => none
  | .trinvRoot => none
  | .trinvAll => none
  | .wmapCommandComplete => none

def Opcode.Statement (i : Instr) : Prop := ∀ lo n code w, Opcode.printed i = some (lo, n, code) → encode i = some w → (w.extractLsb' lo n).toNat = code

theorem Opcode.encA_at (op : BitVec 10) (f : FmtA) : (encA op f).extractLsb' 86 10 = op := by
  apply BitVec.eq_of_getLsbD_eq; intro i hi
  simp only [encA, encGuard, BitVec.getLsbD_extractLsb', BitVec.getLsbD_append]
  simp (disch := omega) only [if_neg, hi, decide_true, Bool.true_and]
  congr 1; omega
theorem Opcode.encI_at (op : BitVec 10) (f : FmtI) : (encI op f).extractLsb' 86 10 = op := by
  apply BitVec.eq_of_getLsbD_eq; intro i hi
  simp only [encI, encGuard, BitVec.getLsbD_extractLsb', BitVec.getLsbD_append]
  simp (disch := omega) only [if_neg, hi, decide_true, Bool.true_and]
  congr 1; omega
theorem Opcode.encM_at (op : BitVec 10) (f : FmtM) : (encM op f).extractLsb' 86 10 = op := by
  apply BitVec.eq_of_getLsbD_eq; intro i hi
  simp only [encM, encGuard, BitVec.getLsbD_extractLsb', BitVec.getLsbD_append]
  simp (disch := omega) only [if_neg, hi, decide_true, Bool.true_and]
  congr 1; omega
theorem Opcode.encE_at (op : BitVec 10) (f : FmtE) : (encE op f).extractLsb' 86 10 = op := by
  apply BitVec.eq_of_getLsbD_eq; intro i hi
  simp only [encE, encGuard, BitVec.getLsbD_extractLsb', BitVec.getLsbD_append]
  simp (disch := omega) only [if_neg, hi, decide_true, Bool.true_and]
  congr 1; omega
theorem Opcode.encH_at (op : BitVec 10) (f : FmtH) : (encH op f).extractLsb' 86 10 = op := by
  apply BitVec.eq_of_getLsbD_eq; intro i hi
  simp only [encH, encGuard, BitVec.getLsbD_extractLsb', BitVec.getLsbD_append]
  simp (disch := omega) only [if_neg, hi, decide_true, Bool.true_and]
  congr 1; omega
theorem Opcode.encD_at (op : BitVec 8) (f : DCmd) : (encD op f).extractLsb' 88 8 = op := by
  apply BitVec.eq_of_getLsbD_eq; intro i hi
  simp only [encD, BitVec.getLsbD_extractLsb', BitVec.getLsbD_append]
  simp (disch := omega) only [if_neg, hi, decide_true, Bool.true_and]
  congr 1; omega
theorem Opcode.event {i : Instr} (h : Opcode.printed i = none) : Opcode.Statement i := by
  intro _ _ _ _ hp _; rw [h] at hp; cases hp

theorem Opcode.clause (f) : Opcode.Statement (.clause f) := by intro _ _ _ _ hp he; cases hp; cases he; rw [Opcode.encH_at]; rfl
theorem Opcode.nop (f) : Opcode.Statement (.nop f) := by intro _ _ _ _ hp he; cases hp; cases he; rw [Opcode.encA_at]; rfl
theorem Opcode.br (f) : Opcode.Statement (.br f) := by intro _ _ _ _ hp he; cases hp; cases he; rw [Opcode.encI_at]; rfl
theorem Opcode.brx (f) : Opcode.Statement (.brx f) := by intro _ _ _ _ hp he; cases hp; cases he; rw [Opcode.encA_at]; rfl
theorem Opcode.call (f) : Opcode.Statement (.call f) := by intro _ _ _ _ hp he; cases hp; cases he; rw [Opcode.encI_at]; rfl
theorem Opcode.callx (f) : Opcode.Statement (.callx f) := by intro _ _ _ _ hp he; cases hp; cases he; rw [Opcode.encA_at]; rfl
theorem Opcode.ret (f) : Opcode.Statement (.ret f) := by intro _ _ _ _ hp he; cases hp; cases he; rw [Opcode.encA_at]; rfl
theorem Opcode.exit (f) : Opcode.Statement (.exit f) := by intro _ _ _ _ hp he; cases hp; cases he; rw [Opcode.encA_at]; rfl
theorem Opcode.trap (f) : Opcode.Statement (.trap f) := by intro _ _ _ _ hp he; cases hp; cases he; rw [Opcode.encI_at]; rfl
theorem Opcode.tret (f) : Opcode.Statement (.tret f) := by intro _ _ _ _ hp he; cases hp; cases he; rw [Opcode.encA_at]; rfl
theorem Opcode.marshal (f) : Opcode.Statement (.marshal f) := by intro _ _ _ _ hp he; cases hp; cases he; rw [Opcode.encA_at]; rfl
theorem Opcode.marshalRank (f) : Opcode.Statement (.marshalRank f) := by intro _ _ _ _ hp he; cases hp; cases he; rw [Opcode.encA_at]; rfl
theorem Opcode.yield (f) : Opcode.Statement (.yield f) := by intro _ _ _ _ hp he; cases hp; cases he; rw [Opcode.encA_at]; rfl
theorem Opcode.yieldExpiry (x0 x1) : Opcode.Statement (.yieldExpiry x0 x1) := Opcode.event rfl
theorem Opcode.repeatN (f) : Opcode.Statement (.repeatN f) := by intro _ _ _ _ hp he; cases hp; cases he; rw [Opcode.encI_at]; rfl
theorem Opcode.sleep (f) : Opcode.Statement (.sleep f) := by intro _ _ _ _ hp he; cases hp; cases he; rw [Opcode.encA_at]; rfl
theorem Opcode.sleepExpiry (x0 x1) : Opcode.Statement (.sleepExpiry x0 x1) := Opcode.event rfl
theorem Opcode.waitaddr (f) : Opcode.Statement (.waitaddr f) := by intro _ _ _ _ hp he; cases hp; cases he; rw [Opcode.encM_at]; rfl
theorem Opcode.wakeaddr (f) : Opcode.Statement (.wakeaddr f) := by intro _ _ _ _ hp he; cases hp; cases he; rw [Opcode.encM_at]; rfl
theorem Opcode.preemptOff (f) : Opcode.Statement (.preemptOff f) := by intro _ _ _ _ hp he; cases hp; cases he; rw [Opcode.encA_at]; rfl
theorem Opcode.preemptOn (f) : Opcode.Statement (.preemptOn f) := by intro _ _ _ _ hp he; cases hp; cases he; rw [Opcode.encA_at]; rfl
theorem Opcode.preemptOverrun (x0) : Opcode.Statement (.preemptOverrun x0) := Opcode.event rfl
theorem Opcode.bar (f) : Opcode.Statement (.bar f) := by intro _ _ _ _ hp he; cases hp; cases he; rw [Opcode.encA_at]; rfl
theorem Opcode.bara (f) : Opcode.Statement (.bara f) := by intro _ _ _ _ hp he; cases hp; cases he; rw [Opcode.encA_at]; rfl
theorem Opcode.barw (f) : Opcode.Statement (.barw f) := by intro _ _ _ _ hp he; cases hp; cases he; rw [Opcode.encA_at]; rfl
theorem Opcode.grow (f) : Opcode.Statement (.grow f) := by intro _ _ _ _ hp he; cases hp; cases he; rw [Opcode.encA_at]; rfl
theorem Opcode.shrink (f) : Opcode.Statement (.shrink f) := by intro _ _ _ _ hp he; cases hp; cases he; rw [Opcode.encA_at]; rfl
theorem Opcode.growa (f) : Opcode.Statement (.growa f) := by intro _ _ _ _ hp he; cases hp; cases he; rw [Opcode.encA_at]; rfl
theorem Opcode.shrinka (f) : Opcode.Statement (.shrinka f) := by intro _ _ _ _ hp he; cases hp; cases he; rw [Opcode.encA_at]; rfl
theorem Opcode.growStarved (x0 x1) : Opcode.Statement (.growStarved x0 x1) := Opcode.event rfl
theorem Opcode.gets (f) : Opcode.Statement (.gets f) := by intro _ _ _ _ hp he; cases hp; cases he; rw [Opcode.encA_at]; rfl
theorem Opcode.sets (f) : Opcode.Statement (.sets f) := by intro _ _ _ _ hp he; cases hp; cases he; rw [Opcode.encA_at]; rfl
theorem Opcode.launch (f) : Opcode.Statement (.launch f) := by intro _ _ _ _ hp he; cases hp; cases he; rw [Opcode.encA_at]; rfl
theorem Opcode.launchRecordWrite (x0) : Opcode.Statement (.launchRecordWrite x0) := Opcode.event rfl
theorem Opcode.depdec (f) : Opcode.Statement (.depdec f) := by intro _ _ _ _ hp he; cases hp; cases he; rw [Opcode.encA_at]; rfl
theorem Opcode.counterDecrement (x0) : Opcode.Statement (.counterDecrement x0) := Opcode.event rfl
theorem Opcode.locq (f) : Opcode.Statement (.locq f) := by intro _ _ _ _ hp he; cases hp; cases he; rw [Opcode.encM_at]; rfl
theorem Opcode.add (f) : Opcode.Statement (.add f) := by intro _ _ _ _ hp he; cases hp; cases he; rw [Opcode.encA_at]; rfl
theorem Opcode.sub (f) : Opcode.Statement (.sub f) := by intro _ _ _ _ hp he; cases hp; cases he; rw [Opcode.encA_at]; rfl
theorem Opcode.addc (f) : Opcode.Statement (.addc f) := by intro _ _ _ _ hp he; cases hp; cases he; rw [Opcode.encA_at]; rfl
theorem Opcode.subb (f) : Opcode.Statement (.subb f) := by intro _ _ _ _ hp he; cases hp; cases he; rw [Opcode.encA_at]; rfl
theorem Opcode.mul (f) : Opcode.Statement (.mul f) := by intro _ _ _ _ hp he; cases hp; cases he; rw [Opcode.encA_at]; rfl
theorem Opcode.mulhi (f) : Opcode.Statement (.mulhi f) := by intro _ _ _ _ hp he; cases hp; cases he; rw [Opcode.encA_at]; rfl
theorem Opcode.mad (f) : Opcode.Statement (.mad f) := by intro _ _ _ _ hp he; cases hp; cases he; rw [Opcode.encA_at]; rfl
theorem Opcode.madw (f) : Opcode.Statement (.madw f) := by intro _ _ _ _ hp he; cases hp; cases he; rw [Opcode.encA_at]; rfl
theorem Opcode.div (f) : Opcode.Statement (.div f) := by intro _ _ _ _ hp he; cases hp; cases he; rw [Opcode.encA_at]; rfl
theorem Opcode.rem (f) : Opcode.Statement (.rem f) := by intro _ _ _ _ hp he; cases hp; cases he; rw [Opcode.encA_at]; rfl
theorem Opcode.min (f) : Opcode.Statement (.min f) := by intro _ _ _ _ hp he; cases hp; cases he; rw [Opcode.encA_at]; rfl
theorem Opcode.max (f) : Opcode.Statement (.max f) := by intro _ _ _ _ hp he; cases hp; cases he; rw [Opcode.encA_at]; rfl
theorem Opcode.abs (f) : Opcode.Statement (.abs f) := by intro _ _ _ _ hp he; cases hp; cases he; rw [Opcode.encA_at]; rfl
theorem Opcode.neg (f) : Opcode.Statement (.neg f) := by intro _ _ _ _ hp he; cases hp; cases he; rw [Opcode.encA_at]; rfl
theorem Opcode.and (f) : Opcode.Statement (.and f) := by intro _ _ _ _ hp he; cases hp; cases he; rw [Opcode.encA_at]; rfl
theorem Opcode.or (f) : Opcode.Statement (.or f) := by intro _ _ _ _ hp he; cases hp; cases he; rw [Opcode.encA_at]; rfl
theorem Opcode.xor (f) : Opcode.Statement (.xor f) := by intro _ _ _ _ hp he; cases hp; cases he; rw [Opcode.encA_at]; rfl
theorem Opcode.not (f) : Opcode.Statement (.not f) := by intro _ _ _ _ hp he; cases hp; cases he; rw [Opcode.encA_at]; rfl
theorem Opcode.andn (f) : Opcode.Statement (.andn f) := by intro _ _ _ _ hp he; cases hp; cases he; rw [Opcode.encA_at]; rfl
theorem Opcode.shl (f) : Opcode.Statement (.shl f) := by intro _ _ _ _ hp he; cases hp; cases he; rw [Opcode.encA_at]; rfl
theorem Opcode.shr (f) : Opcode.Statement (.shr f) := by intro _ _ _ _ hp he; cases hp; cases he; rw [Opcode.encA_at]; rfl
theorem Opcode.sar (f) : Opcode.Statement (.sar f) := by intro _ _ _ _ hp he; cases hp; cases he; rw [Opcode.encA_at]; rfl
theorem Opcode.rot (f) : Opcode.Statement (.rot f) := by intro _ _ _ _ hp he; cases hp; cases he; rw [Opcode.encA_at]; rfl
theorem Opcode.bfe (f) : Opcode.Statement (.bfe f) := by intro _ _ _ _ hp he; cases hp; cases he; rw [Opcode.encA_at]; rfl
theorem Opcode.bfi (f) : Opcode.Statement (.bfi f) := by intro _ _ _ _ hp he; cases hp; cases he; rw [Opcode.encA_at]; rfl
theorem Opcode.popc (f) : Opcode.Statement (.popc f) := by intro _ _ _ _ hp he; cases hp; cases he; rw [Opcode.encA_at]; rfl
theorem Opcode.clz (f) : Opcode.Statement (.clz f) := by intro _ _ _ _ hp he; cases hp; cases he; rw [Opcode.encA_at]; rfl
theorem Opcode.ctz (f) : Opcode.Statement (.ctz f) := by intro _ _ _ _ hp he; cases hp; cases he; rw [Opcode.encA_at]; rfl
theorem Opcode.brev (f) : Opcode.Statement (.brev f) := by intro _ _ _ _ hp he; cases hp; cases he; rw [Opcode.encA_at]; rfl
theorem Opcode.sel (f) : Opcode.Statement (.sel f) := by intro _ _ _ _ hp he; cases hp; cases he; rw [Opcode.encA_at]; rfl
theorem Opcode.cmp (f) : Opcode.Statement (.cmp f) := by intro _ _ _ _ hp he; cases hp; cases he; rw [Opcode.encA_at]; rfl
theorem Opcode.mov (f) : Opcode.Statement (.mov f) := by intro _ _ _ _ hp he; cases hp; cases he; rw [Opcode.encA_at]; rfl
theorem Opcode.movi (f) : Opcode.Statement (.movi f) := by intro _ _ _ _ hp he; cases hp; cases he; rw [Opcode.encI_at]; rfl
theorem Opcode.lea (f) : Opcode.Statement (.lea f) := by intro _ _ _ _ hp he; cases hp; cases he; rw [Opcode.encM_at]; rfl
theorem Opcode.add64 (f) : Opcode.Statement (.add64 f) := by intro _ _ _ _ hp he; cases hp; cases he; rw [Opcode.encA_at]; rfl
theorem Opcode.sub64 (f) : Opcode.Statement (.sub64 f) := by intro _ _ _ _ hp he; cases hp; cases he; rw [Opcode.encA_at]; rfl
theorem Opcode.mad64 (f) : Opcode.Statement (.mad64 f) := by intro _ _ _ _ hp he; cases hp; cases he; rw [Opcode.encA_at]; rfl
theorem Opcode.pand (f) : Opcode.Statement (.pand f) := by intro _ _ _ _ hp he; cases hp; cases he; rw [Opcode.encA_at]; rfl
theorem Opcode.por (f) : Opcode.Statement (.por f) := by intro _ _ _ _ hp he; cases hp; cases he; rw [Opcode.encA_at]; rfl
theorem Opcode.pxor (f) : Opcode.Statement (.pxor f) := by intro _ _ _ _ hp he; cases hp; cases he; rw [Opcode.encA_at]; rfl
theorem Opcode.pnot (f) : Opcode.Statement (.pnot f) := by intro _ _ _ _ hp he; cases hp; cases he; rw [Opcode.encA_at]; rfl
theorem Opcode.pmov (f) : Opcode.Statement (.pmov f) := by intro _ _ _ _ hp he; cases hp; cases he; rw [Opcode.encA_at]; rfl
theorem Opcode.fadd (f) : Opcode.Statement (.fadd f) := by intro _ _ _ _ hp he; cases hp; cases he; rw [Opcode.encA_at]; rfl
theorem Opcode.fsub (f) : Opcode.Statement (.fsub f) := by intro _ _ _ _ hp he; cases hp; cases he; rw [Opcode.encA_at]; rfl
theorem Opcode.fmul (f) : Opcode.Statement (.fmul f) := by intro _ _ _ _ hp he; cases hp; cases he; rw [Opcode.encA_at]; rfl
theorem Opcode.fma (f) : Opcode.Statement (.fma f) := by intro _ _ _ _ hp he; cases hp; cases he; rw [Opcode.encA_at]; rfl
theorem Opcode.fmin (f) : Opcode.Statement (.fmin f) := by intro _ _ _ _ hp he; cases hp; cases he; rw [Opcode.encA_at]; rfl
theorem Opcode.fmax (f) : Opcode.Statement (.fmax f) := by intro _ _ _ _ hp he; cases hp; cases he; rw [Opcode.encA_at]; rfl
theorem Opcode.fcmp (f) : Opcode.Statement (.fcmp f) := by intro _ _ _ _ hp he; cases hp; cases he; rw [Opcode.encA_at]; rfl
theorem Opcode.fclass (f) : Opcode.Statement (.fclass f) := by intro _ _ _ _ hp he; cases hp; cases he; rw [Opcode.encA_at]; rfl
theorem Opcode.frnd (f) : Opcode.Statement (.frnd f) := by intro _ _ _ _ hp he; cases hp; cases he; rw [Opcode.encA_at]; rfl
theorem Opcode.frcp (f) : Opcode.Statement (.frcp f) := by intro _ _ _ _ hp he; cases hp; cases he; rw [Opcode.encA_at]; rfl
theorem Opcode.frsq (f) : Opcode.Statement (.frsq f) := by intro _ _ _ _ hp he; cases hp; cases he; rw [Opcode.encA_at]; rfl
theorem Opcode.fsqrt (f) : Opcode.Statement (.fsqrt f) := by intro _ _ _ _ hp he; cases hp; cases he; rw [Opcode.encA_at]; rfl
theorem Opcode.fexp2 (f) : Opcode.Statement (.fexp2 f) := by intro _ _ _ _ hp he; cases hp; cases he; rw [Opcode.encA_at]; rfl
theorem Opcode.flog2 (f) : Opcode.Statement (.flog2 f) := by intro _ _ _ _ hp he; cases hp; cases he; rw [Opcode.encA_at]; rfl
theorem Opcode.fsin (f) : Opcode.Statement (.fsin f) := by intro _ _ _ _ hp he; cases hp; cases he; rw [Opcode.encA_at]; rfl
theorem Opcode.fcos (f) : Opcode.Statement (.fcos f) := by intro _ _ _ _ hp he; cases hp; cases he; rw [Opcode.encA_at]; rfl
theorem Opcode.ftanh (f) : Opcode.Statement (.ftanh f) := by intro _ _ _ _ hp he; cases hp; cases he; rw [Opcode.encA_at]; rfl
theorem Opcode.fsig (f) : Opcode.Statement (.fsig f) := by intro _ _ _ _ hp he; cases hp; cases he; rw [Opcode.encA_at]; rfl
theorem Opcode.fdot2 (f) : Opcode.Statement (.fdot2 f) := by intro _ _ _ _ hp he; cases hp; cases he; rw [Opcode.encA_at]; rfl
theorem Opcode.fdot4 (f) : Opcode.Statement (.fdot4 f) := by intro _ _ _ _ hp he; cases hp; cases he; rw [Opcode.encA_at]; rfl
theorem Opcode.cvt (f) : Opcode.Statement (.cvt f) := by intro _ _ _ _ hp he; cases hp; cases he; rw [Opcode.encA_at]; rfl
theorem Opcode.cvts (f) : Opcode.Statement (.cvts f) := by intro _ _ _ _ hp he; cases hp; cases he; rw [Opcode.encA_at]; rfl
theorem Opcode.pack2 (f) : Opcode.Statement (.pack2 f) := by intro _ _ _ _ hp he; cases hp; cases he; rw [Opcode.encA_at]; rfl
theorem Opcode.unpack (f) : Opcode.Statement (.unpack f) := by intro _ _ _ _ hp he; cases hp; cases he; rw [Opcode.encA_at]; rfl
theorem Opcode.scalex (f) : Opcode.Statement (.scalex f) := by intro _ _ _ _ hp he; cases hp; cases he; rw [Opcode.encA_at]; rfl
theorem Opcode.q4enc (f) : Opcode.Statement (.q4enc f) := by intro _ _ _ _ hp he; cases hp; cases he; rw [Opcode.encA_at]; rfl
theorem Opcode.q4dec (f) : Opcode.Statement (.q4dec f) := by intro _ _ _ _ hp he; cases hp; cases he; rw [Opcode.encA_at]; rfl
theorem Opcode.ballot (f) : Opcode.Statement (.ballot f) := by intro _ _ _ _ hp he; cases hp; cases he; rw [Opcode.encA_at]; rfl
theorem Opcode.matchEq (f) : Opcode.Statement (.matchEq f) := by intro _ _ _ _ hp he; cases hp; cases he; rw [Opcode.encA_at]; rfl
theorem Opcode.vote (f) : Opcode.Statement (.vote f) := by intro _ _ _ _ hp he; cases hp; cases he; rw [Opcode.encA_at]; rfl
theorem Opcode.reduce (f) : Opcode.Statement (.reduce f) := by intro _ _ _ _ hp he; cases hp; cases he; rw [Opcode.encA_at]; rfl
theorem Opcode.scan (f) : Opcode.Statement (.scan f) := by intro _ _ _ _ hp he; cases hp; cases he; rw [Opcode.encA_at]; rfl
theorem Opcode.shfl (f) : Opcode.Statement (.shfl f) := by intro _ _ _ _ hp he; cases hp; cases he; rw [Opcode.encA_at]; rfl
theorem Opcode.slotof (f) : Opcode.Statement (.slotof f) := by intro _ _ _ _ hp he; cases hp; cases he; rw [Opcode.encA_at]; rfl
theorem Opcode.rankof (f) : Opcode.Statement (.rankof f) := by intro _ _ _ _ hp he; cases hp; cases he; rw [Opcode.encA_at]; rfl
theorem Opcode.ld (f) : Opcode.Statement (.ld f) := by intro _ _ _ _ hp he; cases hp; cases he; rw [Opcode.encM_at]; rfl
theorem Opcode.ldx (f) : Opcode.Statement (.ldx f) := by intro _ _ _ _ hp he; cases hp; cases he; rw [Opcode.encM_at]; rfl
theorem Opcode.st (f) : Opcode.Statement (.st f) := by intro _ _ _ _ hp he; cases hp; cases he; rw [Opcode.encM_at]; rfl
theorem Opcode.atom (f) : Opcode.Statement (.atom f) := by intro _ _ _ _ hp he; cases hp; cases he; rw [Opcode.encM_at]; rfl
theorem Opcode.atomn (f) : Opcode.Statement (.atomn f) := by intro _ _ _ _ hp he; cases hp; cases he; rw [Opcode.encM_at]; rfl
theorem Opcode.cas (f) : Opcode.Statement (.cas f) := by intro _ _ _ _ hp he; cases hp; cases he; rw [Opcode.encM_at]; rfl
theorem Opcode.fence (f) : Opcode.Statement (.fence f) := by intro _ _ _ _ hp he; cases hp; cases he; rw [Opcode.encM_at]; rfl
theorem Opcode.prefetch (f) : Opcode.Statement (.prefetch f) := by intro _ _ _ _ hp he; cases hp; cases he; rw [Opcode.encM_at]; rfl
theorem Opcode.clean (f) : Opcode.Statement (.clean f) := by intro _ _ _ _ hp he; cases hp; cases he; rw [Opcode.encM_at]; rfl
theorem Opcode.inval (f) : Opcode.Statement (.inval f) := by intro _ _ _ _ hp he; cases hp; cases he; rw [Opcode.encM_at]; rfl
theorem Opcode.ysend (f) : Opcode.Statement (.ysend f) := by intro _ _ _ _ hp he; cases hp; cases he; rw [Opcode.encM_at]; rfl
theorem Opcode.yrecv (f) : Opcode.Statement (.yrecv f) := by intro _ _ _ _ hp he; cases hp; cases he; rw [Opcode.encM_at]; rfl
theorem Opcode.yprobe (f) : Opcode.Statement (.yprobe f) := by intro _ _ _ _ hp he; cases hp; cases he; rw [Opcode.encA_at]; rfl
theorem Opcode.trec (f) : Opcode.Statement (.trec f) := by intro _ _ _ _ hp he; cases hp; cases he; rw [Opcode.encE_at]; rfl
theorem Opcode.tcopy (f) : Opcode.Statement (.tcopy f) := by intro _ _ _ _ hp he; cases hp; cases he; rw [Opcode.encE_at]; rfl
theorem Opcode.tstore (f) : Opcode.Statement (.tstore f) := by intro _ _ _ _ hp he; cases hp; cases he; rw [Opcode.encE_at]; rfl
theorem Opcode.tcopymc (f) : Opcode.Statement (.tcopymc f) := by intro _ _ _ _ hp he; cases hp; cases he; rw [Opcode.encE_at]; rfl
theorem Opcode.recvarm (f) : Opcode.Statement (.recvarm f) := by intro _ _ _ _ hp he; cases hp; cases he; rw [Opcode.encE_at]; rfl
theorem Opcode.tagwait (f) : Opcode.Statement (.tagwait f) := by intro _ _ _ _ hp he; cases hp; cases he; rw [Opcode.encE_at]; rfl
theorem Opcode.tagffs (f) : Opcode.Statement (.tagffs f) := by intro _ _ _ _ hp he; cases hp; cases he; rw [Opcode.encE_at]; rfl
theorem Opcode.tagclr (f) : Opcode.Statement (.tagclr f) := by intro _ _ _ _ hp he; cases hp; cases he; rw [Opcode.encE_at]; rfl
theorem Opcode.tagstat (f) : Opcode.Statement (.tagstat f) := by intro _ _ _ _ hp he; cases hp; cases he; rw [Opcode.encE_at]; rfl
theorem Opcode.drill (f) : Opcode.Statement (.drill f) := by intro _ _ _ _ hp he; cases hp; cases he; rw [Opcode.encA_at]; rfl
theorem Opcode.mready (f) : Opcode.Statement (.mready f) := by intro _ _ _ _ hp he; cases hp; cases he; rw [Opcode.encA_at]; rfl
theorem Opcode.mwait (f) : Opcode.Statement (.mwait f) := by intro _ _ _ _ hp he; cases hp; cases he; rw [Opcode.encA_at]; rfl
theorem Opcode.accrd (f) : Opcode.Statement (.accrd f) := by intro _ _ _ _ hp he; cases hp; cases he; rw [Opcode.encA_at]; rfl
theorem Opcode.accwr (f) : Opcode.Statement (.accwr f) := by intro _ _ _ _ hp he; cases hp; cases he; rw [Opcode.encA_at]; rfl
theorem Opcode.nanrd (f) : Opcode.Statement (.nanrd f) := by intro _ _ _ _ hp he; cases hp; cases he; rw [Opcode.encA_at]; rfl
theorem Opcode.wpart (f) : Opcode.Statement (.wpart f) := by intro _ _ _ _ hp he; cases hp; cases he; rw [Opcode.encE_at]; rfl
theorem Opcode.fwload (f) : Opcode.Statement (.fwload f) := by intro _ _ _ _ hp he; cases hp; cases he; rw [Opcode.encE_at]; rfl
theorem Opcode.fwstore (f) : Opcode.Statement (.fwstore f) := by intro _ _ _ _ hp he; cases hp; cases he; rw [Opcode.encE_at]; rfl
theorem Opcode.fwop (f) : Opcode.Statement (.fwop f) := by intro _ _ _ _ hp he; cases hp; cases he; rw [Opcode.encE_at]; rfl
theorem Opcode.fwred (f) : Opcode.Statement (.fwred f) := by intro _ _ _ _ hp he; cases hp; cases he; rw [Opcode.encE_at]; rfl
theorem Opcode.fwfill (f) : Opcode.Statement (.fwfill f) := by intro _ _ _ _ hp he; cases hp; cases he; rw [Opcode.encE_at]; rfl
theorem Opcode.coll (f) : Opcode.Statement (.coll f) := by intro _ _ _ _ hp he; cases hp; cases he; rw [Opcode.encE_at]; rfl
theorem Opcode.collq (f) : Opcode.Statement (.collq f) := by intro _ _ _ _ hp he; cases hp; cases he; rw [Opcode.encA_at]; rfl
theorem Opcode.trsync (f) : Opcode.Statement (.trsync f) := by intro _ _ _ _ hp he; cases hp; cases he; rw [Opcode.encA_at]; rfl
theorem Opcode.tlbinvVa (f) : Opcode.Statement (.tlbinvVa f) := by intro _ _ _ _ hp he; cases hp; cases he; rw [Opcode.encA_at]; rfl
theorem Opcode.tlbinvRoot (f) : Opcode.Statement (.tlbinvRoot f) := by intro _ _ _ _ hp he; cases hp; cases he; rw [Opcode.encA_at]; rfl
theorem Opcode.tlbinvAll (f) : Opcode.Statement (.tlbinvAll f) := by intro _ _ _ _ hp he; cases hp; cases he; rw [Opcode.encA_at]; rfl
theorem Opcode.tlbinvAck (x0 x1) : Opcode.Statement (.tlbinvAck x0 x1) := Opcode.event rfl
theorem Opcode.ctxsave (f) : Opcode.Statement (.ctxsave f) := by intro _ _ _ _ hp he; cases hp; cases he; rw [Opcode.encA_at]; rfl
theorem Opcode.ctxload (f) : Opcode.Statement (.ctxload f) := by intro _ _ _ _ hp he; cases hp; cases he; rw [Opcode.encA_at]; rfl
theorem Opcode.errinj (f) : Opcode.Statement (.errinj f) := by intro _ _ _ _ hp he; cases hp; cases he; rw [Opcode.encA_at]; rfl
theorem Opcode.drillStreamRead (x0) : Opcode.Statement (.drillStreamRead x0) := Opcode.event rfl
theorem Opcode.dnop (f) : Opcode.Statement (.dnop f) := by intro _ _ _ _ hp he; cases hp; cases he; rw [Opcode.encD_at]; rfl
theorem Opcode.dend (f) : Opcode.Statement (.dend f) := by intro _ _ _ _ hp he; cases hp; cases he; rw [Opcode.encD_at]; rfl
theorem Opcode.dbarBar (f) : Opcode.Statement (.dbarBar f) := by intro _ _ _ _ hp he; cases hp; cases he; rw [Opcode.encD_at]; rfl
theorem Opcode.dbarReady (f) : Opcode.Statement (.dbarReady f) := by intro _ _ _ _ hp he; cases hp; cases he; rw [Opcode.encD_at]; rfl
theorem Opcode.dzero (f) : Opcode.Statement (.dzero f) := by intro _ _ _ _ hp he; cases hp; cases he; rw [Opcode.encD_at]; rfl
theorem Opcode.dldacc (f) : Opcode.Statement (.dldacc f) := by intro _ _ _ _ hp he; cases hp; cases he; rw [Opcode.encD_at]; rfl
theorem Opcode.dstacc (f) : Opcode.Statement (.dstacc f) := by intro _ _ _ _ hp he; cases hp; cases he; rw [Opcode.encD_at]; rfl
theorem Opcode.dscale (f) : Opcode.Statement (.dscale f) := by intro _ _ _ _ hp he; cases hp; cases he; rw [Opcode.encD_at]; rfl
theorem Opcode.dmma (f) : Opcode.Statement (.dmma f) := by intro _ _ _ _ hp he; cases hp; cases he; rw [Opcode.encD_at]; rfl
theorem Opcode.drillCommandRetire (x0 x1) : Opcode.Statement (.drillCommandRetire x0 x1) := Opcode.event rfl
theorem Opcode.instructionResultReturn (x0 x1 x2) : Opcode.Statement (.instructionResultReturn x0 x1 x2) := Opcode.event rfl
theorem Opcode.accessComplete (x0 x1 x2) : Opcode.Statement (.accessComplete x0 x1 x2) := Opcode.event rfl
theorem Opcode.clauseEnd (x0) : Opcode.Statement (.clauseEnd x0) := Opcode.event rfl
theorem Opcode.sidingDue (x0 x1) : Opcode.Statement (.sidingDue x0 x1) := Opcode.event rfl
theorem Opcode.consistForm (x0 x1) : Opcode.Statement (.consistForm x0 x1) := Opcode.event rfl
theorem Opcode.shadowCompare (x0 x1) : Opcode.Statement (.shadowCompare x0 x1) := Opcode.event rfl
theorem Opcode.spill (x0 x1 x2 x3) : Opcode.Statement (.spill x0 x1 x2 x3) := Opcode.event rfl
theorem Opcode.fqcmdReplay (x0 x1) : Opcode.Statement (.fqcmdReplay x0 x1) := Opcode.event rfl
theorem Opcode.fqcmdDeny (x0 x1) : Opcode.Statement (.fqcmdDeny x0 x1) := Opcode.event rfl
theorem Opcode.signalBoxEvent (x0) : Opcode.Statement (.signalBoxEvent x0) := Opcode.event rfl
theorem Opcode.contextSave (x0) : Opcode.Statement (.contextSave x0) := Opcode.event rfl
theorem Opcode.resumption (x0) : Opcode.Statement (.resumption x0) := Opcode.event rfl
theorem Opcode.blockRetire (x0) : Opcode.Statement (.blockRetire x0) := Opcode.event rfl
theorem Opcode.killDrained (x0) : Opcode.Statement (.killDrained x0) := Opcode.event rfl
theorem Opcode.cmdNop (x0) : Opcode.Statement (.cmdNop x0) := Opcode.event rfl
theorem Opcode.cmdLaunch (x0) : Opcode.Statement (.cmdLaunch x0) := Opcode.event rfl
theorem Opcode.cmdSignal (x0) : Opcode.Statement (.cmdSignal x0) := Opcode.event rfl
theorem Opcode.signalDone (x0) : Opcode.Statement (.signalDone x0) := Opcode.event rfl
theorem Opcode.cmdDepset (x0) : Opcode.Statement (.cmdDepset x0) := Opcode.event rfl
theorem Opcode.doorbell (x0 x1) : Opcode.Statement (.doorbell x0 x1) := Opcode.event rfl
theorem Opcode.bind (x0) : Opcode.Statement (.bind x0) := Opcode.event rfl
theorem Opcode.stop (x0) : Opcode.Statement (.stop x0) := Opcode.event rfl
theorem Opcode.resume (x0) : Opcode.Statement (.resume x0) := Opcode.event rfl
theorem Opcode.kill (x0) : Opcode.Statement (.kill x0) := Opcode.event rfl
theorem Opcode.unbind (x0) : Opcode.Statement (.unbind x0) := Opcode.event rfl
theorem Opcode.uselist (x0) : Opcode.Statement (.uselist x0) := Opcode.event rfl
theorem Opcode.useclear (x0) : Opcode.Statement (.useclear x0) := Opcode.event rfl
theorem Opcode.mbxindbGo (x0) : Opcode.Statement (.mbxindbGo x0) := Opcode.event rfl
theorem Opcode.mbxoutctlWrite (x0) : Opcode.Statement (.mbxoutctlWrite x0) := Opcode.event rfl
theorem Opcode.mbxoutrdWrite (x0) : Opcode.Statement (.mbxoutrdWrite x0) := Opcode.event rfl
theorem Opcode.rcbsync (x0) : Opcode.Statement (.rcbsync x0) := Opcode.event rfl
theorem Opcode.plinv (x0) : Opcode.Statement (.plinv x0) := Opcode.event rfl
theorem Opcode.depctrWrite (x0 x1) : Opcode.Statement (.depctrWrite x0 x1) := Opcode.event rfl
theorem Opcode.ftwctlWrite (x0 x1 x2) : Opcode.Statement (.ftwctlWrite x0 x1 x2) := Opcode.event rfl
theorem Opcode.ftwRegisterWrite (x0 x1 x2 x3) : Opcode.Statement (.ftwRegisterWrite x0 x1 x2 x3) := Opcode.event rfl
theorem Opcode.linkDisable (x0) : Opcode.Statement (.linkDisable x0) := Opcode.event rfl
theorem Opcode.linkEnable (x0) : Opcode.Statement (.linkEnable x0) := Opcode.event rfl
theorem Opcode.linkinjArm (x0 x1) : Opcode.Statement (.linkinjArm x0 x1) := Opcode.event rfl
theorem Opcode.injectorFire (x0) : Opcode.Statement (.injectorFire x0) := Opcode.event rfl
theorem Opcode.pcpwrActive (x0 x1) : Opcode.Statement (.pcpwrActive x0 x1) := Opcode.event rfl
theorem Opcode.pcpwrSelfRefresh (x0 x1) : Opcode.Statement (.pcpwrSelfRefresh x0 x1) := Opcode.event rfl
theorem Opcode.pcpwrPowerDown (x0 x1) : Opcode.Statement (.pcpwrPowerDown x0 x1) := Opcode.event rfl
theorem Opcode.pcpwrHoldEnd (x0) : Opcode.Statement (.pcpwrHoldEnd x0) := Opcode.event rfl
theorem Opcode.wmapcmd (x0) : Opcode.Statement (.wmapcmd x0) := Opcode.event rfl
theorem Opcode.bootresetClear (x0) : Opcode.Statement (.bootresetClear x0) := Opcode.event rfl
theorem Opcode.registerWrite (x0 x1) : Opcode.Statement (.registerWrite x0 x1) := Opcode.event rfl
theorem Opcode.hostAccess (x0 x1 x2) : Opcode.Statement (.hostAccess x0 x1 x2) := Opcode.event rfl
theorem Opcode.cacheEviction (x0) : Opcode.Statement (.cacheEviction x0) := Opcode.event rfl
theorem Opcode.copyComplete (x0 x1) : Opcode.Statement (.copyComplete x0 x1) := Opcode.event rfl
theorem Opcode.multicastDelivery (x0 x1) : Opcode.Statement (.multicastDelivery x0 x1) := Opcode.event rfl
theorem Opcode.wpartSwitchPoint (x0 x1) : Opcode.Statement (.wpartSwitchPoint x0 x1) := Opcode.event rfl
theorem Opcode.furrowOperationComplete (x0 x1) : Opcode.Statement (.furrowOperationComplete x0 x1) := Opcode.event rfl
theorem Opcode.chunkReduced (x0 x1) : Opcode.Statement (.chunkReduced x0 x1) := Opcode.event rfl
theorem Opcode.chunkDelivered (x0 x1) : Opcode.Statement (.chunkDelivered x0 x1) := Opcode.event rfl
theorem Opcode.reTree (x0) : Opcode.Statement (.reTree x0) := Opcode.event rfl
theorem Opcode.linkFailure (x0) : Opcode.Statement (.linkFailure x0) := Opcode.event rfl
theorem Opcode.linkTrainingStart (x0) : Opcode.Statement (.linkTrainingStart x0) := Opcode.event rfl
theorem Opcode.linkTrainingEnd (x0 x1) : Opcode.Statement (.linkTrainingEnd x0 x1) := Opcode.event rfl
theorem Opcode.governorEvaluation (x0 x1) : Opcode.Statement (.governorEvaluation x0 x1) := Opcode.event rfl
theorem Opcode.trip (x0 x1 x2) : Opcode.Statement (.trip x0 x1 x2) := Opcode.event rfl
theorem Opcode.clockStretch (x0 x1) : Opcode.Statement (.clockStretch x0 x1) := Opcode.event rfl
theorem Opcode.retrainStart (x0 x1) : Opcode.Statement (.retrainStart x0 x1) := Opcode.event rfl
theorem Opcode.retrainEnd (x0 x1) : Opcode.Statement (.retrainEnd x0 x1) := Opcode.event rfl
theorem Opcode.moduleReset (x0) : Opcode.Statement (.moduleReset x0) := Opcode.event rfl
theorem Opcode.upperTierGate (x0) : Opcode.Statement (.upperTierGate x0) := Opcode.event rfl
theorem Opcode.upperTierUngate (x0) : Opcode.Statement (.upperTierUngate x0) := Opcode.event rfl
theorem Opcode.migration (x0 x1 x2) : Opcode.Statement (.migration x0 x1 x2) := Opcode.event rfl
theorem Opcode.rangeEviction (x0 x1 x2) : Opcode.Statement (.rangeEviction x0 x1 x2) := Opcode.event rfl
theorem Opcode.rangeMigrateBack (x0 x1 x2) : Opcode.Statement (.rangeMigrateBack x0 x1 x2) := Opcode.event rfl
theorem Opcode.inFieldTest (x0) : Opcode.Statement (.inFieldTest x0) := Opcode.event rfl
theorem Opcode.softError (x0 x1) : Opcode.Statement (.softError x0 x1) := Opcode.event rfl
theorem Opcode.chunkPartialArrival (x0 x1 x2) : Opcode.Statement (.chunkPartialArrival x0 x1 x2) := Opcode.event rfl
theorem Opcode.quifinMessage (x0) : Opcode.Statement (.quifinMessage x0) := Opcode.event rfl
theorem Opcode.undefinedOpcode (x0) : Opcode.Statement (.undefinedOpcode x0) := Opcode.event rfl
theorem Opcode.queueVisit : Opcode.Statement (.queueVisit) := Opcode.event rfl
theorem Opcode.trinvVa : Opcode.Statement (.trinvVa) := Opcode.event rfl
theorem Opcode.trinvRoot : Opcode.Statement (.trinvRoot) := Opcode.event rfl
theorem Opcode.trinvAll : Opcode.Statement (.trinvAll) := Opcode.event rfl
theorem Opcode.wmapCommandComplete : Opcode.Statement (.wmapCommandComplete) := Opcode.event rfl

end Sys2Proof.Laws
end

