-- ==== Sys2Proof/Tests/Slice0.lean ====
section
/-! SUPPORT. Tests: the words of every constructor decoded, what well-formedness refuses, single steps computed by hand, and for every statement with hypotheses
a state and operands that meet them. The words are written out field by field from the layouts of R314, R316, R317, R322 and R328. -/
open Sys2Proof Sys2Proof.Machine
namespace Sys2Proof.Tests
set_option Elab.async false

-- Words --------------------------------------------------------------------------------------------------------------------------

/-- The plain guard: p7, not negated. -/
def gd : Guard := { neg := 0, pred := 7, fx := 0 }
def tA (d a b c : BitVec 9) (ty : BitVec 5) (mods : BitVec 7) (imm : BitVec 20) : FmtA := { g := gd, d := d, a := a, am := 0, b := b, c := c, ty := ty, mods := mods, imm := imm }
def tI (d a : BitVec 9) (ty : BitVec 5) (mods : BitVec 11) (imm : BitVec 32) : FmtI := { g := gd, d := d, a := a, am := 0, rsv := 0, ty := ty, mods := mods, imm := imm }
def tM (data base index : BitVec 9) (width space : BitVec 4) (order : BitVec 3) (scope hint : BitVec 2) (offset : BitVec 26) : FmtM :=
  { g := gd, data := data, base := base, am := 0, index := index, width := width, space := space, order := order, scope := scope, hint := hint, offset := offset }
def tE (status coord : BitVec 9) (rslot : BitVec 4) (tag : BitVec 6) (espec : BitVec 11) (opnd : BitVec 9) (ectl : BitVec 32) : FmtE :=
  { g := gd, status := status, coord := coord, rslot := rslot, tag := tag, espec := espec, opnd := opnd, ectl := ectl }
def tH (wait : BitVec 12) (len seta setb : BitVec 5) (unif : BitVec 1) : FmtH := { g := gd, wait := wait, len := len, seta := seta, setb := setb, unif := unif, rsv := 0 }
def tD (id : BitVec 8) (p1v : BitVec 1) (p1 : BitVec 8) (p2v : BitVec 1) (p2 : BitVec 8) (acc reca recb : BitVec 4) (ctl : BitVec 50) : DCmd :=
  { id := id, p1v := p1v, p1 := p1, p2v := p2v, p2 := p2, acc := acc, reca := reca, recb := recb, ctl := ctl }

def wordsControl1 : List (Nat × Instr) := [
  (0x005CFFFFC003FFFF00000000, .nop (tA null null null null 0 0 0)),
  (0x009CFFFFC0000000FFFFFFF0, .br (tI null null 0 0 0xFFFFFFF0)),
  (0x00DCFF818003FFFF00000000, .brx (tA null 6 null null 0 0 0)),
  (0x011C047FC000000000001234, .call (tI 8 null 0 0 0x1234)),
  (0x015C85018003FFFF00000000, .callx (tA 0x10A 6 null null 0 0 0)),
  (0x019CFFC30003FFFF00000000, .ret (tA null 0x10C null null 0 0 0)),
  (0x01DCFFFFC003FFFF00000000, .exit (tA null null null null 0 0 0)),
  (0x021CFFFFC00000000000007B, .trap (tI null null 0 0 0x7B)),
  (0x025CFFFFC003FFFF00000000, .tret (tA null null null null 0 0 0)),
  (0x029CFFFFC003FFFF00000000, .marshal (tA null null null null 0 0 0)),
  (0x029CFFFFC003FFFF00100000, .marshalRank (tA null null null null 0 1 0)),
  (0x02DCFFFFC003FFFF00000000, .yield (tA null null null null 0 0 0)),
  (0x031CFFFFC000008F000001F4, .repeatN (tI null null 0 0x8F 0x1F4)),
  (0x035CFFFFC003FFFF00003039, .sleep (tA null null null null 0 0 0x3039)),
  (0x039C01C10003FE4000000080, .waitaddr (tM 3 0x104 null 2 0 0 0 0 0x80)),
  (0x03DCC1C10003FE4000000080, .wakeaddr (tM 0x183 0x104 null 2 0 0 0 0 0x80))]
def wordsControl2 : List (Nat × Instr) := [
  (0x041CFFFFC003FFFF00000000, .preemptOff (tA null null null null 0 0 0)),
  (0x041CFFFFC003FFFF00100000, .preemptOn (tA null null null null 0 1 0)),
  (0x045CFFFFC003FFFF00000013, .bar (tA null null null null 0 0 0x13)),
  (0x049CFFFFC003FFFF00000014, .bara (tA null null null null 0 0 0x14)),
  (0x04DCFFFFC003FFFF00000015, .barw (tA null null null null 0 0 0x15)),
  (0x051C04FFC003FFFF00000010, .grow (tA 9 null null null 0 0 0x10)),
  (0x055C04FFC003FFFF00000010, .shrink (tA 9 null null null 0 0 0x10)),
  (0x059C0482C003FFFF00000000, .growa (tA 9 0xB null null 0 0 0)),
  (0x05DC04FFC003FFFF00000040, .shrinka (tA 9 null null null 0 0 0x40)),
  (0x061C0A7FC003FFFF00000031, .gets (tA 0x14 null null null 0 0 0x31)),
  (0x065CFF858003FFFF00000031, .sets (tA null 0x16 null null 0 0 0x31)),
  (0x069C82848003FFFF00000007, .launch (tA 0x105 0x12 null null 0 0 7)),
  (0x06DC01FFC003FFFF00000123, .depdec (tA 3 null null null 0 0 0x123)),
  (0x071C01818000120000000040, .locq (tM 3 6 9 0 0 0 0 0 0x40))]
/-- Words of the control group (R337, R347-R373). -/
def wordsControl : List (Nat × Instr) := wordsControl1 ++ wordsControl2
def wordsInteger1 : List (Nat × Instr) := [
  (0x101C0200400005FF30100000, .add (tA 4 1 2 null 6 1 0)),
  (0x105C0200400005FF30100000, .sub (tA 4 1 2 null 6 1 0)),
  (0x109C02004000054350000000, .addc (tA 4 1 2 0x143 0xA 0 0)),
  (0x10DC02004000054350000000, .subb (tA 4 1 2 0x143 0xA 0 0)),
  (0x111C02004003FFFF50012345, .mul (tA 4 1 null null 0xA 0 0x12345)),
  (0x115C02004003FFFF50012345, .mulhi (tA 4 1 null null 0xA 0 0x12345)),
  (0x119C02004000040330000000, .mad (tA 4 1 2 3 6 0 0)),
  (0x11DC02004000040630000000, .madw (tA 4 1 2 6 6 0 0)),
  (0x121C020080000DFF38000000, .div (tA 4 2 6 null 7 0 0)),
  (0x125C020080000DFF38000000, .rem (tA 4 2 6 null 7 0 0)),
  (0x129C020080000DFF38000000, .min (tA 4 2 6 null 7 0 0)),
  (0x12DC020080000DFF38000000, .max (tA 4 2 6 null 7 0 0)),
  (0x131C02004003FFFF28100000, .abs (tA 4 1 null null 5 1 0)),
  (0x135C02004003FFFF28100000, .neg (tA 4 1 null null 5 1 0)),
  (0x139C0200400005FF10000000, .and (tA 4 1 2 null 2 0 0)),
  (0x13DC0200400005FF10000000, .or (tA 4 1 2 null 2 0 0))]
def wordsInteger2 : List (Nat × Instr) := [
  (0x141C0200400005FF10000000, .xor (tA 4 1 2 null 2 0 0)),
  (0x145C02004003FFFF00000000, .not (tA 4 1 null null 0 0 0)),
  (0x149C020080000DFF18000000, .andn (tA 4 2 6 null 3 0 0)),
  (0x14DC020040000FFF50000000, .shl (tA 4 1 7 null 0xA 0 0)),
  (0x151C020040000FFF50000000, .shr (tA 4 1 7 null 0xA 0 0)),
  (0x155C020040000FFF50000000, .sar (tA 4 1 7 null 0xA 0 0)),
  (0x159C020040000FFF50000000, .rot (tA 4 1 7 null 0xA 0 0)),
  (0x15DC02004003FFFF50000804, .bfe (tA 4 1 null null 0xA 0 0x804)),
  (0x161C0200400005FF10000804, .bfi (tA 4 1 2 null 2 0 0x804)),
  (0x165C02004003FFFF08000000, .popc (tA 4 1 null null 1 0 0)),
  (0x169C02004003FFFF08000000, .clz (tA 4 1 null null 1 0 0)),
  (0x16DC02004003FFFF08000000, .ctz (tA 4 1 null null 1 0 0)),
  (0x171C02004003FFFF08000000, .brev (tA 4 1 null null 1 0 0)),
  (0x175C02004000054260000000, .sel (tA 4 1 2 0x142 0xC 0 0)),
  (0x179CA0804000054230A00000, .cmp (tA 0x141 1 2 0x142 6 0xA 0)),
  (0x17DC02614003FFFF10000000, .mov (tA 4 0x185 null null 2 0 0))]
def wordsInteger3 : List (Nat × Instr) := [
  (0x181C027FC0003800DEADBEEF, .movi (tI 4 null 7 0 0xDEADBEEF)),
  (0x185C02018000120003FFFFF0, .lea (tM 4 6 9 0 0 0 0 0 0x3FFFFF0)),
  (0x189C020080000FFF50000000, .add64 (tA 4 2 7 null 0xA 0 0)),
  (0x18DC020080000FFF50000000, .sub64 (tA 4 2 7 null 0xA 0 0)),
  (0x191C020080000E0630000000, .mad64 (tA 4 2 7 6 6 0 0)),
  (0x195CA0D080028FFF00000000, .pand (tA 0x141 0x142 0x147 null 0 0 0)),
  (0x199CA0D080028FFF00000000, .por (tA 0x141 0x142 0x147 null 0 0 0)),
  (0x19DCA0D080028FFF00000000, .pxor (tA 0x141 0x142 0x147 null 0 0 0)),
  (0x1A1CA0D08003FFFF00000000, .pnot (tA 0x141 0x142 null null 0 0 0)),
  (0x1A5CA0D08003FFFF00000000, .pmov (tA 0x141 0x142 null null 0 0 0))]
/-- Words of the integer and move group (R379-R388). -/
def wordsInteger : List (Nat × Instr) := wordsInteger1 ++ wordsInteger2 ++ wordsInteger3
def wordsFloat1 : List (Nat × Instr) := [
  (0x201C0200400005FF60100000, .fadd (tA 4 1 2 null 0xC 1 0)),
  (0x205C0200400005FF60100000, .fsub (tA 4 1 2 null 0xC 1 0)),
  (0x209C0200400005FF60100000, .fmul (tA 4 1 2 null 0xC 1 0)),
  (0x20DC02004000040360000000, .fma (tA 4 1 2 3 0xC 0 0)),
  (0x211C0200400005FF68000000, .fmin (tA 4 1 2 null 0xD 0 0)),
  (0x215C0200400005FF68000000, .fmax (tA 4 1 2 null 0xD 0 0)),
  (0x219CA0804000054260A00000, .fcmp (tA 0x141 1 2 0x142 0xC 0xA 0)),
  (0x21DCA0804003FFFF700001FF, .fclass (tA 0x141 1 null null 0xE 0 0x1FF)),
  (0x221C02004003FFFF60200000, .frnd (tA 4 1 null null 0xC 2 0)),
  (0x225C02004003FFFF68000000, .frcp (tA 4 1 null null 0xD 0 0)),
  (0x229C02004003FFFF68000000, .frsq (tA 4 1 null null 0xD 0 0)),
  (0x22DC02004003FFFF68000000, .fsqrt (tA 4 1 null null 0xD 0 0)),
  (0x231C02004003FFFF68000000, .fexp2 (tA 4 1 null null 0xD 0 0)),
  (0x235C02004003FFFF68000000, .flog2 (tA 4 1 null null 0xD 0 0)),
  (0x239C02004003FFFF68000000, .fsin (tA 4 1 null null 0xD 0 0)),
  (0x23DC02004003FFFF68000000, .fcos (tA 4 1 null null 0xD 0 0))]
def wordsFloat2 : List (Nat × Instr) := [
  (0x241C02004003FFFF68000000, .ftanh (tA 4 1 null null 0xD 0 0)),
  (0x245C02004003FFFF68000000, .fsig (tA 4 1 null null 0xD 0 0)),
  (0x249C02004000040390000000, .fdot2 (tA 4 1 2 3 0x12 0 0)),
  (0x24DC02004000040378000000, .fdot4 (tA 4 1 2 3 0xF 0 0))]
/-- Words of the floating-point group (R389-R392). -/
def wordsFloat : List (Nat × Instr) := wordsFloat1 ++ wordsFloat2
/-- Words of the conversion group (R393-R399). -/
def wordsConversion : List (Nat × Instr) := [
  (0x301C02004003FFFF60600001, .cvt (tA 4 1 null null 0xC 6 1)),
  (0x305C02004003FFFF20600000, .cvts (tA 4 1 null null 4 6 0)),
  (0x309C0200400005FF90000000, .pack2 (tA 4 1 2 null 0x12 0 0)),
  (0x30DC02004003FFFF40300000, .unpack (tA 4 1 null null 8 3 0)),
  (0x311C02004003FFFF60000005, .scalex (tA 4 1 null null 0xC 0 5)),
  (0x315C02004003FFFF6020007F, .q4enc (tA 4 1 null null 0xC 2 0x7F)),
  (0x319C0200400005FF60000000, .q4dec (tA 4 1 2 null 0xC 0 0))]
/-- Words of the cross-lane group (R400-R403). -/
def wordsCrossLane : List (Nat × Instr) := [
  (0x321C02504003FFFF00000000, .ballot (tA 4 0x141 null null 0 0 0)),
  (0x325C02004003FFFF10000000, .matchEq (tA 4 1 null null 2 0 0)),
  (0x329CA0D08003FFFF00100000, .vote (tA 0x141 0x142 null null 0 1 0)),
  (0x32DC02004003FFFF50900000, .reduce (tA 4 1 null null 0xA 9 0)),
  (0x331C02004003FFFF10B00000, .scan (tA 4 1 null null 2 0xB 0)),
  (0x335C02004003FFFF10200003, .shfl (tA 4 1 null null 2 2 3)),
  (0x339C02004003FFFF50000000, .slotof (tA 4 1 null null 0xA 0 0)),
  (0x33DC02004003FFFF50000000, .rankof (tA 4 1 null null 0xA 0 0))]
/-- Words of the memory group (R404-R427). -/
def wordsMemory : List (Nat × Instr) := [
  (0x401C04410003FE4050000040, .ld (tM 8 0x104 null 2 0 1 1 0 0x40)),
  (0x405C84018003FE6000000008, .ldx (tM 0x108 6 null 3 0 0 0 0 8)),
  (0x409C04018003FE8200000010, .st (tM 8 6 null 4 1 0 0 0 0x10)),
  (0x40DC040180001840E2100004, .atom (tM 8 6 0xC 2 0 3 2 0 0x2100004)),
  (0x411C04018003FE6001800008, .atomn (tM 8 6 null 3 0 0 0 0 0x1800008)),
  (0x415C04018000186000000010, .cas (tM 8 6 0xC 3 0 0 0 0 0x10)),
  (0x419CFFFFC003FE00F0000000, .fence (tM null null null 0 0 3 3 0 0)),
  (0x41DCFF818003FE0004000080, .prefetch (tM null 6 null 0 0 0 0 1 0x80)),
  (0x421CFF818003FE0020000000, .clean (tM null 6 null 0 0 0 2 0 0)),
  (0x425CFF818003FE0010000000, .inval (tM null 6 null 0 0 0 1 0 0)),
  (0x429CFF81C003FE0200000000, .ysend (tM null 7 null 0 1 0 0 0 0)),
  (0x42DCFF81C003FE0400000000, .yrecv (tM null 7 null 0 2 0 0 0 0)),
  (0x431CA0FFC003FFFF00100000, .yprobe (tA 0x141 null null null 0 1 0))]
def wordsEngine1 : List (Nat × Instr) := [
  (0x501C027FC800000600000000, .trec (tE 4 null 2 0 0 6 0)),
  (0x505CFF840430001400000000, .tcopy (tE null 0x10 1 3 0 0x14 0)),
  (0x509CFF840430021400000000, .tstore (tE null 0x10 1 3 1 0x14 0)),
  (0x50DCFF8404300BFF00000001, .tcopymc (tE null 0x10 1 3 5 null 1)),
  (0x511CFF8240300C0800000000, .recvarm (tE null 9 0 3 6 8 0)),
  (0x515CFFFFC07003FF00000000, .tagwait (tE null null 0 7 1 null 0)),
  (0x519C027FC000000600000000, .tagffs (tE 4 null 0 0 0 6 0)),
  (0x51DCFFFFC07001FF00000000, .tagclr (tE null null 0 7 0 null 0)),
  (0x521C027FC07003FF00000000, .tagstat (tE 4 null 0 7 1 null 0)),
  (0x601CFF818003FFFF00000000, .drill (tA null 6 null null 0 0 0)),
  (0x605CFFFFC003FFFF0000000F, .mready (tA null null null null 0 0 0xF)),
  (0x609CFFFFC003FFFF000000AB, .mwait (tA null null null null 0 0 0xAB)),
  (0x60DC02528003FFFF600003FF, .accrd (tA 4 0x14A null null 0xC 0 0x3FF)),
  (0x611CA501000013FF10000000, .accwr (tA 0x14A 4 9 null 2 0 0)),
  (0x615C027FC003FFFF00000000, .nanrd (tA 4 null null null 0 0 0)),
  (0x701C027FC0100A0900000000, .wpart (tE 4 null 0 1 5 9 0))]
def wordsEngine2 : List (Nat × Instr) := [
  (0x705C02040410140900000405, .fwload (tE 4 0x10 1 1 0xA 9 0x405)),
  (0x709C02040410140900000405, .fwstore (tE 4 0x10 1 1 0xA 9 0x405)),
  (0x70DC0683C010000C4248F000, .fwop (tE 0xD 0xF 0 1 0 0xC 0x4248F000)),
  (0x711C06838010000C0481000F, .fwred (tE 0xD 0xE 0 1 0 0xC 0x481000F)),
  (0x715C0683C010000C0481000F, .fwfill (tE 0xD 0xF 0 1 0 0xC 0x481000F)),
  (0x721CFFC10002110600000000, .coll (tE null 0x104 0 0 0x108 0x106 0)),
  (0x725C027FC003FFFF00000005, .collq (tA 4 null null null 0 0 5))]
/-- Words of the engine groups (R428-R452). -/
def wordsEngine : List (Nat × Instr) := wordsEngine1 ++ wordsEngine2
/-- Privileged words (R337, R372). -/
def wordsSystem : List (Nat × Instr) := [
  (0xF01CFFFFC003FFFF00000000, .trsync (tA null null null null 0 0 0)),
  (0xF05CFF81800011FF00000000, .tlbinvVa (tA null 6 8 null 0 0 0)),
  (0xF05CFFFFC00011FF00100000, .tlbinvRoot (tA null null 8 null 0 1 0)),
  (0xF05CFFFFC003FFFF00200000, .tlbinvAll (tA null null null null 0 2 0)),
  (0xF09C02018003FFFF00000000, .ctxsave (tA 4 6 null null 0 0 0)),
  (0xF0DC02018003FFFF00000000, .ctxload (tA 4 6 null null 0 0 0)),
  (0xF11CFFFFC00013FF00100000, .errinj (tA null null 9 null 0 1 0))]
/-- A clause header (R322) and an undefined opcode (R336). -/
def wordsHeader : List (Nat × Instr) := [
  (0x001C5A5C2E10000000000000, .clause (tH 0x5A5 0x18 0xB 0x10 1)),
  (0xFFDCFFFFC003FFFF00000000, .undefinedOpcode 0xFFDCFFFFC003FFFF00000000)]
/-- Drill commands (R328, R346). -/
def wordsDrill : List (Nat × Instr) := [
  (0x015A00000000000000000000, .dnop (tD 0x5A 0 0 0 0 0 0 0 0)),
  (0x025AC0800000000000000000, .dend (tD 0x5A 1 0x81 0 0 0 0 0 0)),
  (0x035A0000000000000000000B, .dbarBar (tD 0x5A 0 0 0 0 0 0 0 0xB)),
  (0x035A0000000000000000001B, .dbarReady (tD 0x5A 0 0 0 0 0 0 0 0x1B)),
  (0x085A00002400000000000000, .dzero (tD 0x5A 0 0 0 0 9 0 0 0)),
  (0x095A000024C0000000000000, .dldacc (tD 0x5A 0 0 0 0 9 3 0 0)),
  (0x0A5A000024C0000000000000, .dstacc (tD 0x5A 0 0 0 0 9 3 0 0)),
  (0x0B5A00002400000000000000, .dscale (tD 0x5A 0 0 0 0 9 0 0 0)),
  (0x10058180080400040080001F, .dmma (tD 5 1 3 0 0 2 0 1 0x40080001F))]

-- Decoding ------------------------------------------------------------------------------------------------------------------------

def decodes (l : List (Nat × Instr)) : Bool := l.all (fun x => decodeTableWord 96 x.1 == some x.2)

theorem test_decode_Control : decodes wordsControl = true := by decide +kernel
theorem test_decode_Integer : decodes wordsInteger = true := by decide +kernel
theorem test_decode_Float : decodes wordsFloat = true := by decide +kernel
theorem test_decode_Conversion : decodes wordsConversion = true := by decide +kernel
theorem test_decode_CrossLane : decodes wordsCrossLane = true := by decide +kernel
theorem test_decode_Memory : decodes wordsMemory = true := by decide +kernel
theorem test_decode_Engine : decodes wordsEngine = true := by decide +kernel
theorem test_decode_System : decodes wordsSystem = true := by decide +kernel
theorem test_decode_Header : decodes wordsHeader = true := by decide +kernel
theorem test_decode_Drill : wordsDrill.all (fun x => decodeDrill (BitVec.ofNat 96 x.1) == some x.2) = true := by decide +kernel

-- States and hypotheses -------------------------------------------------------------------------------------------------------

/-- After reset, an instruction where the next step runs it: core 0, consist 0, block 0 of one thread. -/
def host (i : Instr) : State := State.reset.withFetchWord 96 ((encode i).getD 0).toNat
def thr (h : Thread → Thread) (s : State) : State := modTh 0 0 h s
/-- Region 0 secure. -/
def sec (s : State) : State := { s with rcbs := [(0, (1 <<< 67 : BitVec 2048) ||| (1 <<< 92))] }
/-- Page 0 mapped to physical page 0 in core 0's TLB; the block's backing area elsewhere. -/
def mapped (s : State) : State := modBlk 0 (fun k => { k with backing := 0x100000 }) <| modCore 0 (fun c => { c with tlb := [{ root := 0, va := 0, log2 := 12, pa := 0, w := true, x := true, d := true, secure := false }] }) s
/-- The context of `i` at `s`. -/
def ctxOf (i : Instr) (s : State) : Ctx :=
  match context i s with
  | some c => c
  | none => { g := 0, cn := 0, uid := 0, blk := 0, slots := [], canon := false, base := 0, clause := 0, setA := false, setB := false, last := false, afterYoke := false,
              pc := 0, rep := none, exec := [], active := [], regs := [] }
def readyB (i : Instr) (s : State) (c : Ctx) : Bool :=
  c.all == c.active && c.fill.isNone && !syncHeld i c s && !orderHeld i c s && c.regs == snapOf (getBlk s c.blk) (membersOf c.slots) && !c.active.isEmpty && wordCause i i c s == none && !rangeBad (getBlk s c.blk).allot (namedRegs i c s) &&
  !scoreboard c (namedRegs i c s) s && !mustSuspend i c s && (getBlk s c.blk).members.all (fun e => e.2.regErr.isEmpty) &&
  (getBlk s c.blk).members.all (fun e => e.2.spilled.isEmpty) &&
  decide ((filePlaces s c.g).length + (newQuanta c (readsOf s c (shape i)) (shape i).writes s).length ≤ fileSize)
def issuesB (i : Instr) (s : State) : Bool := (context i s).isSome && (ctxOf i s).rep == none && readyB i s (ctxOf i s)
theorem ready_of {i : Instr} {s : State} {c : Ctx} (h : readyB i s c = true) : Ready i s c := by
  simp only [readyB, Bool.and_eq_true, beq_iff_eq, Bool.not_eq_true'] at h
  obtain ⟨⟨⟨⟨⟨⟨⟨⟨⟨⟨⟨⟨ha, hf⟩, hs⟩, ho⟩, h1⟩, h2⟩, h3⟩, h4⟩, h5⟩, h6⟩, h7⟩, h8⟩, h9⟩ := h
  exact ⟨h1, ⟨ha, by simpa using hf⟩, fun e => by rw [e] at h2; simp at h2, h3, h4, h5, h6, hs, ho, h7, h8, by simpa using h9⟩
theorem context_of {i : Instr} {s : State} (h : (context i s).isSome = true) : context i s = some (ctxOf i s) := by
  unfold ctxOf; split
  · assumption
  · rename_i e; rw [e] at h; cases h
theorem issues_of {i : Instr} {s : State} (h : issuesB i s = true) : Issues i s (ctxOf i s) := by
  simp only [issuesB, Bool.and_eq_true, beq_iff_eq] at h
  exact ⟨context_of h.1.1, h.1.2, ready_of h.2⟩
/-- The locations of resolved accesses. -/
def locsOf (xs : List (LaneAt × Res)) : List (LaneAt × Loc) := xs.filterMap (fun x => match x.2 with | .loc l => some (x.1, l) | _ => none)
/-- Every access resolves. -/
def reachesB (c : Ctx) (q : Req) (lanes : List LaneAt) (s : State) : Bool :=
  (heldReach s (resolveAll c.g c.blk q lanes s).2).isEmpty && (resolveAll c.g c.blk q lanes s).1 == (locsOf (resolveAll c.g c.blk q lanes s).1).map (fun x => (x.1, Res.loc x.2)) &&
  (locsOf (resolveAll c.g c.blk q lanes s).1).map (·.1) == lanes
theorem reaches_of {c : Ctx} {q : Req} {lanes : List LaneAt} {s : State} (h : reachesB c q lanes s = true) : ∃ xs s', Reaches c q lanes s xs s' := by
  simp only [reachesB, Bool.and_eq_true, beq_iff_eq] at h
  exact ⟨_, _, List.isEmpty_iff.1 h.1.1, h.2, Prod.ext h.1.2 rfl⟩


-- Hypotheses of the statements about words --------------------------------------------------------------------------------------

def issueAll (l : List (Nat × Instr)) : Bool := l.all (fun x => issuesB x.2 (host x.2))
theorem issues_all {l : List (Nat × Instr)} (h : issueAll l = true) : ∀ x ∈ l, Issues x.2 (host x.2) (ctxOf x.2 (host x.2)) :=
  fun x hx => issues_of (List.all_eq_true.1 h x hx)
/-- Every word of the tables but the privileged ones acts where it stands: the hypotheses of IntegerResults to CrossLaneResults, TransferResults, WaitResults, TagResults. -/
theorem witness_IntegerResults : ∀ x ∈ wordsInteger, Issues x.2 (host x.2) (ctxOf x.2 (host x.2)) := issues_all (by decide +kernel)
theorem witness_FloatResults : ∀ x ∈ wordsFloat, Issues x.2 (host x.2) (ctxOf x.2 (host x.2)) := issues_all (by decide +kernel)
theorem witness_ConversionResults : ∀ x ∈ wordsConversion, Issues x.2 (host x.2) (ctxOf x.2 (host x.2)) := issues_all (by decide +kernel)
theorem witness_CrossLaneResults : ∀ x ∈ wordsCrossLane, Issues x.2 (host x.2) (ctxOf x.2 (host x.2)) := issues_all (by decide +kernel)
theorem witness_TransferResults : ∀ x ∈ wordsControl, Issues x.2 (host x.2) (ctxOf x.2 (host x.2)) := issues_all (by decide +kernel)
theorem witness_TagResults : ∀ x ∈ wordsEngine, Issues x.2 (host x.2) (ctxOf x.2 (host x.2)) := issues_all (by decide +kernel)
/-- In a secure region every privileged word acts. -/
theorem witness_SystemWords : ∀ x ∈ wordsSystem, Issues x.2 (sec (host x.2)) (ctxOf x.2 (sec (host x.2))) :=
  fun x hx => issues_of (List.all_eq_true.1 (show wordsSystem.all (fun x => issuesB x.2 (sec (host x.2))) = true by decide +kernel) x hx)

def iTret : Instr := .tret (tA null null null null 0 0 0)
def sTret : State := thr (fun t => { t with trap := .handler, trappc := 0x1C, cause := 5 }) (host iTret)
/-- `tret` inside a handler and outside one. -/
theorem witness_TrapReturn : (Issues iTret sTret (ctxOf iTret sTret) ∧ ((ctxOf iTret sTret).active.map (·.2)).Nodup ∧
      ∀ l ∈ (ctxOf iTret sTret).active, (getTh sTret (ctxOf iTret sTret).blk l.2).trap = .handler) ∧
    Issues iTret (host iTret) (ctxOf iTret (host iTret)) ∧ ∀ l ∈ (ctxOf iTret (host iTret)).active, (getTh (host iTret) (ctxOf iTret (host iTret)).blk l.2).trap ≠ .handler :=
  ⟨⟨issues_of (by decide +kernel), by decide +kernel, by decide +kernel⟩, issues_of (by decide +kernel), by decide +kernel⟩

def fHead : FmtH := tH 0 4 11 16 0
def sHead : State := host (.clause fHead)
def kHead : Consist := (consistOf sHead 0 0).getD default
def fetched : List (BitVec 512) × Option (DWord × Fetch) × State := fetchLines 0 0 (linesOf 0 4) sHead
theorem witness_ClauseBegins : sHead.turn = .core 0 ∧ pick sHead 0 = some 0 ∧ consistOf sHead 0 0 = some kHead ∧ kHead.clause = none ∧ membersOf kHead.slots ≠ [] ∧
    (∀ l ∈ membersOf kHead.slots, (getTh sHead kHead.blk l.2).pc = 0 ∧ (getTh sHead kHead.blk l.2).deferred = [] ∧ (getTh sHead kHead.blk l.2).raised = none) ∧ slotOk 0 = true ∧ headerOk (encH 0 fHead) = true ∧
    fetched.2.1 = none ∧ consistOf fetched.2.2 0 0 = some kHead ∧ (∀ l ∈ membersOf kHead.slots, (getTh fetched.2.2 kHead.blk l.2).via = .fall) ∧
    fetched.1.all parityOk = true ∧ fetched.1.all lineRsvOk = true := by decide +kernel

def iRep : Instr := .repeatN (tI null null 0 0x8F 500)
/-- `repeat` with the largest step, and an instruction inside a `repeat` at its last pass. -/
theorem witness_ClauseControlResults : context iRep (host iRep) = some (ctxOf iRep (host iRep)) ∧
    Ready iRep (host iRep) { ctxOf iRep (host iRep) with active := (ctxOf iRep (host iRep)).exec, all := (ctxOf iRep (host iRep)).exec } := ⟨context_of (by decide +kernel), ready_of (by decide +kernel)⟩
def fAdd : FmtA := tA 4 1 2 null 6 1 0
def sRep : State := modClause 0 0 (fun cl => { cl with rep := some { total := 4, done := 3, step := 2, mask := 7, guarded := false } }) (host (.add fAdd))
theorem witness_RepeatSteps : context (.add fAdd) sRep = some (ctxOf (.add fAdd) sRep) ∧
    (ctxOf (.add fAdd) sRep).rep = some { total := 4, done := 3, step := 2, mask := 7, guarded := false } ∧ stepA 7 (3 * 2) fAdd = some (tA 10 7 8 null 6 1 0) :=
  ⟨context_of (by decide +kernel), by decide +kernel, by decide +kernel⟩

/-- An access instruction with its request and the addresses it names acts, and each of its accesses resolves. -/
def accessB (i : Instr) (q : Req) (ad : Ctx → Nat × Nat → Nat) (s : State) : Bool := issuesB i s && reachesB (ctxOf i s) q (laneAddrs (ctxOf i s) (ad (ctxOf i s))) s
theorem access_at {i : Instr} {q : Req} {ad : Ctx → Nat × Nat → Nat} {s : State} (h : accessB i q ad s = true) :
    ∃ xs s', Issues i s (ctxOf i s) ∧ Reaches (ctxOf i s) q (laneAddrs (ctxOf i s) (ad (ctxOf i s))) s xs s' := by
  simp only [accessB, Bool.and_eq_true] at h
  obtain ⟨xs, s', hr⟩ := reaches_of h.2
  exact ⟨xs, s', issues_of h.1, hr⟩
theorem access_of {i : Instr} {q : Req} {ad : Ctx → Nat × Nat → Nat} {s : State} (h : accessB i q ad s = true) :
    ∃ c xs s', Issues i s c ∧ Reaches c q (laneAddrs c (ad c)) s xs s' := ⟨_, access_at h⟩
def fAddr : FmtM := tM 3 6 null 2 0 0 0 0 0x80
theorem witness_AddressWaitResults :
    (∃ s c xs s', Issues (.waitaddr fAddr) s c ∧ Reaches c { space := 0, n := 4, align := true, acc := 0, detail := 0, code := 0, pt := 3 } (laneAddrs c (addrM c fAddr)) s xs s') ∧
    (∃ s c xs s', Issues (.wakeaddr fAddr) s c ∧
      Reaches c { space := 0, n := 4, align := true, acc := 0, detail := 5, code := 8, consume := false } (laneAddrs c (addrM c fAddr)) s xs s') :=
  ⟨⟨mapped (host (.waitaddr fAddr)), access_of (by decide +kernel)⟩, ⟨mapped (host (.wakeaddr fAddr)), access_of (by decide +kernel)⟩⟩

def iGrow : Instr := .grow (tA 9 null null null 0 0 0x10)
/-- A block at 248 registers, in a region with `left` bytes of backing left. -/
def sGrow (left : Nat) : State := modBlk 0 (fun k => { k with allot := 248 }) { host iGrow with rcbs := [(0, (1 <<< 81 : BitVec 2048) ||| (BitVec.ofNat 2048 left <<< 192))] }
/-- The 32 bytes of eight more registers are just there, and just not. -/
theorem witness_AllotmentResults : (Issues iGrow (sGrow 32) (ctxOf iGrow (sGrow 32)) ∧ growFits (sGrow 32) 0 256 = true) ∧
    Issues iGrow (sGrow 31) (ctxOf iGrow (sGrow 31)) ∧ growFits (sGrow 31) 0 256 = false :=
  ⟨⟨issues_of (by decide +kernel), by decide +kernel⟩, issues_of (by decide +kernel), by decide +kernel⟩
def iSets : Instr := .sets (tA null 0x16 null null 0 0 0x31)
def iLaunch : Instr := .launch (tA 0x105 0x12 null null 0 0 7)
def sSets : State := thr (fun t => { t with trap := .handler }) (host iSets)
theorem witness_SpecialAndLaunchResults : (Issues iSets sSets (ctxOf iSets sSets) ∧ ∀ l ∈ (ctxOf iSets sSets).active, (getTh sSets (ctxOf iSets sSets).blk l.2).trap = .handler) ∧
    (Issues iSets (host iSets) (ctxOf iSets (host iSets)) ∧ ∀ l ∈ (ctxOf iSets (host iSets)).active, (getTh (host iSets) (ctxOf iSets (host iSets)).blk l.2).trap ≠ .handler) ∧
    Issues iLaunch (mapped (host iLaunch)) (ctxOf iLaunch (mapped (host iLaunch))) ∧
    (resolve 0 0 { space := 0, n := 64, align := true, acc := 0, detail := 0, code := 0, pt := 2 } 0 (release 0 2 (mapped (host iLaunch)))).1 = .loc (.g 0) :=
  ⟨⟨issues_of (by decide +kernel), by decide +kernel⟩, ⟨issues_of (by decide +kernel), by decide +kernel⟩, issues_of (by decide +kernel), by decide +kernel⟩

def iCtx : Instr := .ctxsave (tA 4 6 null null 0 0 0)
def iInj : Instr := .errinj (tA null null null null 0 4 0)
def sInj : State := { sec (host iInj) with rcbs := [(0, (1 <<< 67 : BitVec 2048) ||| (1 <<< 92) ||| (1 <<< 68) ||| (1 <<< 93))] }
/-- Memory that holds the image of a block of one thread, a header alone, at an address. -/
def savedImage (a : Nat) : List Host.Cell := memPuts [] a (ctxHeader 16 (crc32c (ctxHeader 16 0 1)) 1)
/-- With another block at handle 8: saved. The block itself stands at handle 0. -/
def sCtx (phase : BlkPhase) (h : Word) : State := thr (fun t => { t with sregs := [], vregs := [(6, h)] }) { sec (host iCtx) with
  blocks := mput (sec (host iCtx)).blocks 1 { (default : Block) with id := 1, handle := 8, threads := 1, phase := phase }, mem := savedImage 8 }
theorem witness_SystemResults : ((sec (host iCtx)).invals = []) ∧
    (Issues iCtx (sCtx .saved 16) (ctxOf iCtx (sCtx .saved 16)) ∧ handleBlk (sCtx .saved 16) 16 = none) ∧
    (Issues iCtx (sCtx .saved 0) (ctxOf iCtx (sCtx .saved 0)) ∧ (handleBlk (sCtx .saved 0) 0).map (·.id) = some (ctxOf iCtx (sCtx .saved 0)).blk) ∧
    (Issues iCtx (sCtx .saved 8) (ctxOf iCtx (sCtx .saved 8)) ∧ (handleBlk (sCtx .saved 8) 8).map (fun k => (k.id, k.phase)) = some (1, .saved) ∧
      (ctxGood 1 { sCtx .saved 8 with termTlb := [{ root := 0, va := 0, log2 := 12, pa := 0, w := true, x := true, d := true, secure := false }] }).1 = true) ∧
    Issues iInj sInj (ctxOf iInj sInj) ∧ regShadow sInj (getBlk sInj (ctxOf iInj sInj).blk).region ≠ 0 :=
  ⟨rfl, ⟨issues_of (by decide +kernel), by decide +kernel⟩, ⟨issues_of (by decide +kernel), by decide +kernel⟩, ⟨issues_of (by decide +kernel), by decide +kernel, by decide +kernel⟩, issues_of (by decide +kernel), by decide +kernel⟩


def fLd : FmtM := tM 8 6 null 2 0 1 1 0 0x40
def fLdx : FmtM := tM 0x108 6 null 3 0 0 0 0 0xFF8
def fSt : FmtM := tM 8 6 null 4 0 0 0 0 0xFF0
def fStRel : FmtM := tM 8 6 null 2 0 2 2 0 0x7C
def fStPad : FmtM := tM 8 6 null 2 1 0 0 0 0x3FFFFFC
def fAtom : FmtM := tM 8 6 12 2 0 3 2 0 0x2100FFC
def fAtomn : FmtM := tM 8 6 null 3 0 0 0 0 0x1800FF8
def fCas : FmtM := tM 8 6 12 3 0 0 0 0 0xFF8
def stReq (f : FmtM) : Req := { space := f.space.toNat, n := widthOf f, align := decide (f.order ≠ 0), acc := 1, detail := 1, code := 1, consume := false }
theorem witness_LoadResults : (∃ s c xs s', Issues (.ld fLd) s c ∧ Reaches c (loadReq fLd) (laneAddrs c (addrM c fLd)) s xs s') ∧
    (∃ s c xs s', Issues (.ldx fLdx) s c ∧ Reaches c (loadReq fLdx) ((laneAddrs c (addrM c fLdx)).take 1) s xs s') :=
  ⟨⟨mapped (host (.ld fLd)), access_of (by decide +kernel)⟩, mapped (host (.ldx fLdx)), _,
    (reaches_of (c := ctxOf (.ldx fLdx) (mapped (host (.ldx fLdx)))) (by decide +kernel)).elim fun xs h => ⟨xs, h.elim fun s' h => ⟨s', issues_of (by decide +kernel), h⟩⟩⟩
theorem witness_StoreResults : ∀ f ∈ [fSt, fStRel, fStPad], ∃ s c xs s', Issues (.st f) s c ∧ Reaches c (stReq f) (laneAddrs c (addrM c f)) s xs s' :=
  fun f hf => ⟨mapped (host (.st f)), access_of (List.all_eq_true.1
    (show [fSt, fStRel, fStPad].all (fun f => accessB (.st f) (stReq f) (fun c => addrM c f) (mapped (host (.st f)))) = true by decide +kernel) f hf)⟩
theorem witness_AtomicResults :
    (∃ s c xs s', Issues (.atom fAtom) s c ∧ Reaches c (atomReq fAtom) (laneAddrs c (addrAtom c fAtom false)) s xs s') ∧
    (∃ s c xs s', Issues (.atomn fAtomn) s c ∧ Reaches c (atomReq fAtomn) (laneAddrs c (addrAtom c fAtomn true)) s xs s') ∧
    (∃ s c xs s', Issues (.cas fCas) s c ∧ Reaches c (atomReq fCas) (laneAddrs c (addrAtom c fCas false)) s xs s') :=
  ⟨⟨mapped (host (.atom fAtom)), access_of (by decide +kernel)⟩, ⟨mapped (host (.atomn fAtomn)), access_of (by decide +kernel)⟩,
    mapped (host (.cas fCas)), access_of (by decide +kernel)⟩
def fFence (order scope : Nat) : FmtM := tM null null null 0 0 (BitVec.ofNat 3 order) (BitVec.ofNat 2 scope) 0 0
def fProm : FmtM := tM null 6 null 0 0 7 3 0 0x40
def fLine : FmtM := tM null 6 null 0 0 0 3 0 0xFFF
def lineReqOf : Req := { space := 0, n := 1, align := false, acc := 0, detail := 5, code := 8, consume := false }
theorem witness_FenceAndLineResults : (∀ o ∈ [1, 2, 3], Issues (.fence (fFence o 3)) (host (.fence (fFence o 3))) (ctxOf (.fence (fFence o 3)) (host (.fence (fFence o 3))))) ∧
    (∃ s c xs s', Issues (.fence fProm) s c ∧ Reaches c { space := 0, n := 1, align := false, acc := 0, detail := 0, code := 0, consume := false, acq := true }
      (laneAddrs c (fun l => addrOf c fProm false fProm.offset.toInt l.1 l.2)) s xs s') ∧
    (∃ s c xs s', Issues (.clean fLine) s c ∧ Reaches c lineReqOf (laneAddrs c (addrM c fLine)) s xs s') ∧
    (∃ s c xs s', Issues (.inval fLine) s c ∧ Reaches c lineReqOf (laneAddrs c (addrM c fLine)) s xs s') :=
  ⟨fun o ho => issues_of (List.all_eq_true.1 (show [1, 2, 3].all (fun o => issuesB (.fence (fFence o 3)) (host (.fence (fFence o 3)))) = true by decide +kernel) o ho),
    ⟨mapped (host (.fence fProm)), access_of (ad := fun c l => addrOf c fProm false fProm.offset.toInt l.1 l.2) (by decide +kernel)⟩,
    ⟨mapped (host (.clean fLine)), access_of (by decide +kernel)⟩, mapped (host (.inval fLine)), access_of (by decide +kernel)⟩
def fYoke : FmtM := tM null 7 null 0 1 0 0 0 0xF0
/-- A block with 128 bytes of scratch from byte 0. -/
def padded (s : State) : State := modBlk 0 (fun k => { k with scratchSize := 512 }) s
theorem witness_YokeResults : (∃ s c xs s', Issues (.ysend fYoke) s c ∧
      Reaches c { space := 1, n := 128, align := false, acc := 0, detail := 0, code := 0, consume := true, al := 16 } (laneAddrs c (addrM c fYoke)) s xs s') ∧
    (∃ s c xs s', Issues (.yrecv fYoke) s c ∧
      Reaches c { space := 1, n := 128, align := false, acc := 1, detail := 1, code := 1, consume := false, al := 16 } (laneAddrs c (addrM c fYoke)) s xs s') :=
  ⟨⟨padded (host (.ysend fYoke)), access_of (by decide +kernel)⟩, padded (host (.yrecv fYoke)), access_of (by decide +kernel)⟩
def sPad : State := thr (fun t => { t with vregs := [(6, 512)] }) (padded (host (.st fStPad)))
/-- The one location an access instruction of one thread reaches. -/
def oneB (i : Instr) (q : Req) (ad : Ctx → Nat × Nat → Nat) (l : Loc) (s : State) : Bool :=
  accessB i q ad s && (locsOf (resolveAll (ctxOf i s).g (ctxOf i s).blk q (laneAddrs (ctxOf i s) (ad (ctxOf i s))) s).1).map (·.2) == [l]
theorem one_of {i : Instr} {q : Req} {ad : Ctx → Nat × Nat → Nat} {l : Loc} {s : State} (h : oneB i q ad l s = true) :
    ∃ c x s', Issues i s c ∧ Reaches c q (laneAddrs c (ad c)) s [x] s' ∧ x.2 = l := by
  simp only [oneB, accessB, reachesB, Bool.and_eq_true, beq_iff_eq] at h
  obtain ⟨⟨h1, ⟨hh, h2⟩, h3⟩, h4⟩ := h
  obtain ⟨x, hx, e⟩ := List.map_eq_singleton_iff.1 h4
  rw [hx] at h2 h3
  exact ⟨_, x, _, issues_of h1, ⟨List.isEmpty_iff.1 hh, h3, Prod.ext h2 rfl⟩, e⟩
/-- A weak store that ends its 128-byte line, a release store that does, and the last word of a scratch grant. -/
theorem witness_StoredBytesRead :
    (∃ s c x s', Issues (.st fSt) s c ∧ Reaches c (stReq fSt) (laneAddrs c (addrM c fSt)) s [x] s' ∧ x.2 = .g 0xFF0) ∧
    (0xFF0 % 128 + widthOf fSt ≤ 128 ∧ hasRel fSt = false ∧ fSt.hint ≠ 2 ∧ target 0xFF0 = .dev 0 0xFF0) ∧
    (∃ s c x s', Issues (.st fStRel) s c ∧ Reaches c (stReq fStRel) (laneAddrs c (addrM c fStRel)) s [x] s' ∧ x.2 = .g 0x7C) ∧
    (0x7C % 128 + widthOf fStRel ≤ 128 ∧ target 0 = .dev 0 0 ∧ target 0x7C = .dev 0 0x7C ∧ hasRel fStRel = true ∧ 2 ≤ fStRel.scope.toNat) ∧
    (∃ s c x s', Issues (.st fStPad) s c ∧ Reaches c (stReq fStPad) (laneAddrs c (addrM c fStPad)) s [x] s' ∧
      x.2 = .sc ((upto (widthOf fStPad)).map (fun i => Spot.pad 0 (508 + i)))) :=
  ⟨⟨mapped (host (.st fSt)), one_of (by decide +kernel)⟩, by decide +kernel, ⟨mapped (host (.st fStRel)), one_of (by decide +kernel)⟩, by decide +kernel, sPad, one_of (by decide +kernel)⟩


/-- A tensor record of rank 1: f32, 8 elements, a tile of 32 (R244). -/
def rec1 : BitVec 1024 := (12 <<< 64 : BitVec 1024) ||| (1 <<< 69) ||| (8 <<< 128) ||| (31 <<< 576)
def recSlot (s : State) : State := modRec 0 1 (fun k => { k with bits := rec1, valid := true }) s
def iTcopy : Instr := .tcopy (tE null 0x10 1 3 0 0x14 0)
def iTstore : Instr := .tstore (tE null 0x13F 1 3 1 0x14 0)
def iTcopymc : Instr := .tcopymc (tE null 0x10 1 3 5 null 1)
def iRecvarm : Instr := .recvarm (tE null 9 0 3 6 8 0)
def fTrec : FmtE := tE 4 null 1 0 0 6 0
def sTrec : State := mapped (host (.trec fTrec))
/-- A tag one below its limit. -/
def tagFull (s : State) : State := modTag 0 3 (fun t => { t with set := false, count := 254 }) s
theorem witness_TensorResults : recCheck rec1 = 0 ∧
    ((∃ xs s', Issues (.trec fTrec) sTrec (ctxOf (.trec fTrec) sTrec) ∧ Reaches (ctxOf (.trec fTrec) sTrec) { space := 0, n := 128, align := true, acc := 0, detail := 0, code := 0 }
      ((ctxOf (.trec fTrec) sTrec).active.map (fun l => (l, src64 (ctxOf (.trec fTrec) sTrec) l.2 6))) sTrec xs s') ∧ (getRec (getBlk sTrec 0) 1).refs = 0) ∧
    (∀ i ∈ [iTcopy, iTstore, iTcopymc], Issues i (tagFull (recSlot (host i))) (ctxOf i (tagFull (recSlot (host i)))) ∧
      (getRec (getBlk (tagFull (recSlot (host i))) 0) 1).valid = true ∧ (getTag (getBlk (tagFull (recSlot (host i))) 0) 3).count + 1 ≤ 255) ∧
    (Issues iTcopy (host iTcopy) (ctxOf iTcopy (host iTcopy)) ∧ (getRec (getBlk (host iTcopy) 0) 1).valid = false) ∧
    Issues iRecvarm (tagFull (host iRecvarm)) (ctxOf iRecvarm (tagFull (host iRecvarm))) ∧ getRecv (getBlk (tagFull (host iRecvarm)) 0) 6 = .idle :=
  ⟨by decide +kernel,
    ⟨access_at (ad := fun c l => src64 c l.2 6) (by decide +kernel), by decide +kernel⟩,
    fun i hi => ⟨issues_of (List.all_eq_true.1 (show [iTcopy, iTstore, iTcopymc].all (fun i => issuesB i (tagFull (recSlot (host i)))) = true by decide +kernel) i hi), by
      revert i; decide +kernel⟩,
    ⟨issues_of (by decide +kernel), by decide +kernel⟩, issues_of (by decide +kernel), by decide +kernel⟩

def iDrill (a : Nat) : Instr × State := (.drill (tA null 6 null null 0 0 0), thr (fun t => { t with vregs := [(6, BitVec.ofNat 32 a)] }) (host (.drill (tA null 6 null null 0 0 0))))
def drl (h : Drill → Drill) (s : State) : State := modDrill 0 h s
def iMwait : Instr := .mwait (tA null null null null 0 0 0xAB)
def iMready : Instr := .mready (tA null null null null 0 0 15)
def iAccrd : Instr := .accrd (tA 4 0x157 null null 12 0 0x3FF)
def iAccwr : Instr := .accwr (tA 0x157 4 9 null 2 0 0)
def issues (i : Instr) (s : State) : Prop := Issues i s (ctxOf i s)
theorem issues_is {i : Instr} {s : State} (h : issuesB i s = true) : issues i s := issues_of h
theorem witness_DrillWordResults :
    (∀ a ∈ [4, 2], issues (iDrill a).1 (iDrill a).2 ∧ src64 (ctxOf (iDrill a).1 (iDrill a).2) 0 6 = a) ∧
    (issues iMready (drl (fun d => { d with readyCtr := [(15, 65534)] }) (host iMready))) ∧
    (issues iMwait (drl (fun d => { d with failure := some 0x0C }) (host iMwait))) ∧
    (issues iMwait (host iMwait) ∧ mwaitFor (getBlk (host iMwait) 0).drill false 0xAB = none) ∧
    (issues iMwait (drl (fun d => { d with reading := true }) (host iMwait)) ∧
      mwaitFor (getBlk (drl (fun d => { d with reading := true }) (host iMwait)) 0).drill false 0xAB = some (.firstId 0xAB)) ∧
    (∀ i ∈ [iAccrd, iAccwr], issues i (host i) ∧ accOwed (host i) 0 15 = false) ∧
    (∀ i ∈ [iAccrd, iAccwr], issues i (drl (fun d => { d with owed := [(0, 15)] }) (host i)) ∧ accOwed (drl (fun d => { d with owed := [(0, 15)] }) (host i)) 0 15 = true) := by
  refine ⟨fun a ha => ⟨issues_is ?_, ?_⟩, issues_is ?_, issues_is ?_, ⟨issues_is ?_, ?_⟩, ⟨issues_is ?_, ?_⟩, fun i hi => ⟨issues_is ?_, ?_⟩, fun i hi => ⟨issues_is ?_, ?_⟩⟩
  all_goals first | decide +kernel | (revert a; decide +kernel) | (revert i; decide +kernel)

def wordsFurrow : List Instr := [.wpart (tE 4 null 0 3 7 9 0), .fwop (tE 0xD 0xF 0 3 7 0xC 0x4248F000), .fwred (tE 0xD 0xE 0 3 7 0xC 0x0481000F), .fwfill (tE 0xD 0xF 0 3 7 0xC 0x0481000F)]
def wordsFurrowMove : List Instr := [.fwload (tE 4 0x10 1 3 0x7F 9 0x1FFF), .fwstore (tE 4 0x10 1 3 0x7F 9 0x1FFF)]
theorem witness_FurrowResults :
    (∀ i ∈ wordsFurrow, issues i (tagFull (host i)) ∧ (getTag (getBlk (tagFull (host i)) 0) 3).count + (ctxOf i (tagFull (host i))).active.length ≤ 255 ∧ (getSlice (tagFull (host i)) 0 7).queue.length + 1 ≤ 32) ∧
    (∀ i ∈ wordsFurrowMove, issues i (tagFull (recSlot (host i))) ∧ (getRec (getBlk (tagFull (recSlot (host i))) 0) 1).valid = true ∧ coordBad 0x10 rec1 = false) := by
  refine ⟨fun i hi => ⟨issues_is ?_, ?_⟩, fun i hi => ⟨issues_is ?_, ?_⟩⟩ <;> (revert i; decide +kernel)
def iColl : Instr := .coll (tE null 0x104 0 3 0x108 0x106 0)
theorem witness_CollectiveResults : issues iColl (tagFull (host iColl)) ∧ (∀ l ∈ (ctxOf iColl (tagFull (host iColl))).active, src64 (ctxOf iColl (tagFull (host iColl))) l.2 0x104 % 64 = 0) ∧
    faultsOpen (tagFull (host iColl)) 0 + 1 ≤ 256 := ⟨issues_is (by decide +kernel), by decide +kernel, by decide +kernel⟩
/-- An undefined opcode, and a privileged word outside a secure region. -/
def iUndef : Instr := .undefinedOpcode 0xFFDCFFFFC003FFFF00000000
theorem witness_RefusedWords : (∀ x ∈ (0, iUndef) :: wordsSystem, context x.2 (host x.2) = some (ctxOf x.2 (host x.2)) ∧ (ctxOf x.2 (host x.2)).rep = none ∧ encode x.2 ≠ none ∧
      wordCause x.2 x.2 (ctxOf x.2 (host x.2)) (host x.2) = some (if x.2 = iUndef then cIllegalOp else cPriv)) ∧
    (∀ x ∈ wordsSystem, privileged x.2 = true ∧ secureOf (host x.2) 0 = false ∧ (getTh (host x.2) 0 0).raised = none ∧ mfind (host x.2).blocks 0 ≠ none ∧
      mfind (getBlk (host x.2) 0).members 0 ≠ none) := by
  refine ⟨fun x hx => ⟨context_of ?_, ?_⟩, ?_⟩
  · revert x; decide +kernel
  · revert x; decide +kernel
  · decide +kernel


-- Hypotheses of the statements about frames, traps and registers ------------------------------------------------------------------

theorem witness_RegisterWordsFrame : (∀ x ∈ wordsInteger ++ wordsFloat ++ wordsConversion ++ wordsCrossLane, writesOnlyRegisters x.2 = true ∧ Unshadowed (host x.2) (ctxOf x.2 (host x.2)).blk) ∧
    writesOnlyRegisters (.gets (tA 0x14 null null null 0 0 0x31)) = true := by unfold Unshadowed; decide +kernel
theorem witness_ControlWordsFrame : (wordsControl.filter (fun x => directsThreads x.2)).length = 13 := by decide +kernel
/-- A region with a trap entry; a block with a recorded cause, a deferred cause, or in its handler. -/
def trapped (entry : Nat) (t : TrapState) (r : Option TrapInfo) (d : List TrapInfo) : State :=
  thr (fun x => { x with trap := t, raised := r, deferred := d }) { host iTret with rcbs := [(0, (1 <<< 75 : BitVec 2048) ||| (BitVec.ofNat 2048 entry <<< 384))] }
def info : TrapInfo := { code := 3, detail := 0, pc := 0x18, va := 0, rep := none }
theorem witness_TrapTaken : regTrapEntry (trapped 0x40 .normal none []) (getBlk (trapped 0x40 .normal none []) 0).region = 0x40 ∧
    ((getTh (trapped 0x40 .raised (some info) []) 0 0).raised = some info ∧ (getTh (trapped 0x40 .raised (some info) []) 0 0).trap ≠ .handler) ∧
    ((getTh (trapped 0x40 .normal none [info]) 0 0).deferred = [info] ∧ (getTh (trapped 0x40 .normal none [info]) 0 0).waits = []) ∧
    ((getTh (trapped 0x40 .handler none [info]) 0 0).trap ≠ .normal) ∧
    (mfind (host iTret).blocks 0).isSome = true ∧ (mfind (getBlk (host iTret) 0).members 0).isSome = true := by decide +kernel
theorem witness_DoubleFaults : ((getTh (trapped 0x40 .handler (some info) []) 0 0).trap = .handler ∧ (getTh (trapped 0x40 .handler (some info) []) 0 0).raised = some info) ∧
    regTrapEntry (trapped 0 .raised (some info) []) 0 = 0 ∧ regFaultPol (trapped 0 .raised (some info) []) 0 = 0 ∧
    regFaultPol { trapped 0 .raised (some info) [] with rcbs := [(0, (1 <<< 65 : BitVec 2048) ||| (2 <<< 89))] } 0 = 2 ∧ resident (getBlk (trapped 0 .raised (some info) []) 0) = true := by decide +kernel
theorem witness_PredicateAndScalarWrites : (ctxOf (.add fAdd) (host (.add fAdd))).entry = none ∧ (ctxOf (.add fAdd) (host (.add fAdd))).active = [(0, 0)] ∧ isS 0x13F = true := by decide +kernel

-- Hypotheses of the statements about the drill and the device ----------------------------------------------------------------------

/-- A record of rank 2 and 32 by 32 elements of a type. -/
def rec2 (ty : Nat) : BitVec 1024 := (BitVec.ofNat 1024 ty <<< 64) ||| (2 <<< 69) ||| (32 <<< 128) ||| (32 <<< 160) ||| (64 <<< 320) ||| (31 <<< 576) ||| (31 <<< 588)
/-- Block 0's drill in turn with one command, records of a type in slots 0 and 1, and page 0 mapped for the engines. -/
def sDrill (i : Instr) (d : DCmd) (ty : Nat) (valid issued : Bool) (row : Nat) : State :=
  { modFld 0 (fun k => { k with walkTlb := [{ root := 0, va := 0, log2 := 12, pa := 0, w := true, x := true, d := true, secure := false }] })
      (modRec 0 0 (fun k => { k with bits := rec2 ty, valid := valid }) (modRec 0 1 (fun k => { k with bits := rec2 ty, valid := valid })
        (drl (fun x => { x with table := [{ uid := 7, instr := i, cmd := d, preds := [], issued := issued, row := row, recA := some (rec2 ty), recB := some (rec2 ty) }] }) (host iTret)))) with
    turn := .drill 0 7 }
def entOf (s : State) : DEnt := ((getBlk s 0).drill.table.head?).getD { uid := 0, instr := .queueVisit, cmd := tD 0 0 0 0 0 0 0 0 0, preds := [] }
def drillCmds : List (Instr × DCmd × Nat) := [(.dnop (tD 1 0 0 0 0 0 0 0 0), tD 1 0 0 0 0 0 0 0 0, 12), (.dend (tD 2 0 0 0 0 0 0 0 0), tD 2 0 0 0 0 0 0 0 0, 12),
  (.dbarBar (tD 3 0 0 0 0 0 0 0 11), tD 3 0 0 0 0 0 0 0 11, 12), (.dbarReady (tD 4 0 0 0 0 0 0 0 27), tD 4 0 0 0 0 0 0 0 27, 12), (.dzero (tD 5 0 0 0 0 15 0 0 0), tD 5 0 0 0 0 15 0 0 0, 12),
  (.dldacc (tD 6 0 0 0 0 15 0 0 0), tD 6 0 0 0 0 15 0 0 0, 12), (.dstacc (tD 7 0 0 0 0 15 0 0 0), tD 7 0 0 0 0 15 0 0 0, 14), (.dscale (tD 8 0 0 0 0 15 0 0 0x3F000000), tD 8 0 0 0 0 15 0 0 0x3F000000, 12),
  (.dmma (tD 9 0 0 0 0 15 0 1 0), tD 9 0 0 0 0 15 0 1 0, 14)]
theorem witness_DrillIssue : (∀ x ∈ drillCmds, let s := sDrill x.1 x.2.1 x.2.2 true false 0; let e := entOf s
      s.turn = .drill 0 7 ∧ (getBlk s 0).drill.table.find? (fun e => e.uid == 7 && e.instr == x.1) = some e ∧ (getBlk s 0).phase = .resident ∧ e.fault = none ∧ e.done = false ∧ e.issued = false ∧
      ((getBlk s 0).drill.table.find? (fun y => dIssuable (getBlk s 0).drill y)).map (·.uid) = some 7 ∧ dRecsOk e (getRec (getBlk s 0) e.cmd.reca.toNat).bits (getRec (getBlk s 0) e.cmd.recb.toNat).bits = true) ∧
    (∀ x ∈ drillCmds.drop 5, x.1 ≠ drillCmds[7].1 → (dUses x.1).2.1 = true ∧ (getRec (getBlk (sDrill x.1 x.2.1 x.2.2 false false 0) 0) 0).valid = false) := by decide +kernel
def rowDone : RowOut → Bool
  | .done _ _ => true
  | _ => false
/-- The last row of each command that has rows. -/
theorem witness_DrillRows : (∀ x ∈ drillCmds.drop 4, let s := sDrill x.1 x.2.1 x.2.2 true true 31; let e := entOf s
      (getBlk s 0).drill.table.find? (fun e => e.uid == 7 && e.instr == x.1) = some e ∧ (getBlk s 0).phase = .resident ∧ e.issued = true ∧ e.done = false ∧ e.fault = none ∧
      dmmaBusy (getBlk s 0).drill e = false) ∧
    (let s := sDrill (.dldacc (tD 6 0 0 0 0 15 0 0 0)) (tD 6 0 0 0 0 15 0 0 0) 14 true true 31; rowDone (dldaccRow 0 (entOf s) (entOf s).cmd s) = true) ∧
    (let s := sDrill (.dstacc (tD 7 0 0 0 0 15 0 0 0)) (tD 7 0 0 0 0 15 0 0 0) 14 true true 31; rowDone (dstaccRow 0 (entOf s) (entOf s).cmd s) = true) ∧
    (let s := sDrill (.dscale (tD 8 0 0 0 0 15 0 0 0)) (tD 8 0 0 0 0 15 0 0 0) 14 true true 31; rowDone (dscaleRow 0 (entOf s) (entOf s).cmd s) = true) ∧
    (let s := sDrill (.dmma (tD 9 0 0 0 0 15 0 1 0)) (tD 9 0 0 0 0 15 0 1 0) 14 true true 31; rowDone (dmmaRow 0 (entOf s) (entOf s).cmd s) = true) := by
  refine ⟨?_, ?_, ?_, ?_, ?_⟩ <;> decide +kernel


def th1 (p : Place) (w : List Wait) : Thread := { place := p, waits := w }
/-- Block 0 resident on core 0 with one thread, and nothing else. -/
def blk0 (h : Block → Block) : State := { State.reset with blocks := [(0, h { (default : Block) with id := 0, threads := 1, allot := 8, members := [(0, th1 .ready [])] })] }
def core0 (h : Core → Core) (s : State) : State := modCore 0 h s
def con0 : Consist := { uid := 0, blk := 0, slots := some 0 :: List.replicate 31 none }
theorem witness_TimedEvents :
    (let s := core0 (fun c => { c with consists := [(63, { con0 with yieldUntil := some 64 })] }) (blk0 id); (consistOf s 0 63).bind (·.yieldUntil) = some 64) ∧
    (let s := blk0 (fun k => { k with members := [(0, th1 .waiting [.sleep 9])] });
      (getTh s 0 0).waits.findSome? sleepOf = some 9 ∧ resident (getBlk s 0) = true ∧ (getTh s 0 0).place = .waiting) ∧
    (let s := core0 (fun c => { c with sidings := [(63, { blk := 0, pc := 0, handler := false, ranks := [0], since := 5, due := false })] }) (blk0 id);
      (mfind (getCore s 0).sidings 63).isSome = true ∧ (getBlk s 0).phase = .resident) ∧
    (let s := blk0 (fun k => { k with holders := [0] }); (getBlk s 0).holders ≠ [] ∧ resident (getBlk s 0) = true) ∧
    (let s := blk0 (fun k => { k with members := [(0, th1 .waiting [.grow 3])], grows := [{ id := 3, kind := 0, x := 8, d := null, ranks := [0], pc := 0, since := 0, out := 3 }] });
      ((getBlk s 0).grows.find? (fun q => q.id == 3)).isSome = true ∧ (getTh s 0 0).place = .waiting) := by decide +kernel
theorem witness_ClauseEndAndFormation :
    (let s := core0 (fun c => { c with running := some 0, consists := [(0, { con0 with clause := some { id := 0, header := 0, len := 1, issued := 1 } })] }) (blk0 id);
      ((consistOf s 0 0).bind (·.clause)).map (clauseOver s con0) = some true) ∧
    (let s := core0 (fun c => { c with sidings := [(63, { blk := 0, pc := 0, handler := false, ranks := [0], since := 5, due := true })] }) (blk0 id);
      firstDue s 0 = some 63 ∧ (mget default (getCore s 0).sidings 63).blk = 0 ∧ (getBlk s 0).phase = .resident ∧ (getCore s 0).consists.length < 64) ∧
    (let s := blk0 (fun k => { k with savedConsists := [con0] }); (getBlk s 0).savedConsists[0]? = some con0 ∧ (getBlk s 0).core = 0 ∧ (getBlk s 0).phase = .resident) := by decide +kernel
def inval (agents : List Nat) (b : Option Nat) : Inval := { id := 1, form := 2, va := 0, root := 0, agents := agents, blk := b, ranks := [], out := 1, clause := 0 }
theorem witness_ReturnEvents : outHeld (blk0 id) 0 0 = false ∧
    (let s := core0 (fun c => { c with shadowQ := [{ blk := 0, pc := 0, slots := [], forced := 0 }] }) (blk0 id); (getCore s 0).shadowQ ≠ []) ∧
    (let s := { State.reset with decs := [4095], depctr := [(4095, 1)] }; s.decs[0]? = some 4095 ∧ mget 0 s.depctr 4095 ≠ 0) ∧
    (let s := { State.reset with decs := [4095] }; s.decs[0]? = some 4095 ∧ mget 0 s.depctr 4095 = 0) ∧
    (let s := { State.reset with inflight := [{ blk := 0, ranks := [0], d := null, image := 0, queue := 256, region := 0, out := 0, clause := 0, entry := none }] };
      (s.inflight[0]?).map (·.entry) = some none) ∧
    (let s := { State.reset with invals := [inval [0, 16448] none] }; (s.invals[0]?).map (fun v => (v.agents.contains 16448, v.agents.filter (· != 16448))) = some (true, [0])) ∧
    (let s := { State.reset with invals := [inval [16448] none] }; (s.invals[0]?).map (fun v => (v.agents.contains 16448, v.agents.filter (· != 16448), v.blk)) = some (true, [], none)) := by
  decide +kernel
def frec (seq : Word) : FRec := {
  va := 0, seq := seq, kind := 0, refault := false, access := 0, source := 0, secure := false, core := 0, unit := 0, drill := false, double := false, root := 0, level := 0,
  entry := 0, cause := 0, pa := 0, src := .double 0, open_ := true }
def engMap (s : State) : State := modFld 0 (fun k => { k with walkTlb := [{ root := 0, va := 0, log2 := 12, pa := 0, w := true, x := true, d := true, secure := false }] }) s
def copy0 : Copy := { id := 0, blk := 0, kind := 0, tag := 0, slot := 0, record := rec1, coords := [0], space := 1, off := 0, counter := none }
def fwop0 : FwOp := { id := 0, blk := 0, core := 0, tag := 0, instr := .fwfill (tE 0xD 0xF 0 1 0 0xC 0), ways := 1, vals := [0] }
/-- Memory that holds a word's twelve bytes at address 0. -/
def memOf (w : IWord) : List Host.Cell := memPuts [] 0 (toBytes 12 w)
def okB {α : Type} : Except EFault α × State → Bool
  | (.ok _, _) => true
  | _ => false
theorem witness_EngineEvents : (getFld State.reset 63).faults.find? (fun r => r.seq == 1 && r.open_) = none ∧
    (let s := modFld 63 (fun k => { k with faults := [frec 1] }) State.reset; (getFld s 63).faults.find? (fun r => r.seq == 1 && r.open_) = some (frec 1)) ∧
    (resident (getBlk (blk0 id) 0) = true ∧ 0 * 8 < (getBlk (blk0 id) 0).allot ∧ quantumRegs (getTh (blk0 id) 0 0) 0 ≠ []) ∧
    (let s := drl (fun d => { d with reading := true }) (engMap (blk0 id)); okB (ttuRead 0 (rootOf s 0) (secureOf s 0) 0 12 s) = true ∧ decodeDrill 0 = none) ∧
    (let s := { drl (fun d => { d with reading := true }) (engMap (blk0 id)) with mem := memOf (encD 1 (tD 5 0 0 0 0 0 0 0 0)) };
      (match ttuRead 0 (rootOf s 0) (secureOf s 0) 0 12 s with | (.ok bs, s') => decodeDrill (ofBytes 96 bs) == some (.dnop (tD 5 0 0 0 0 0 0 0 0)) && (mfind s'.blocks 0).isSome | _ => false) = true ∧
      dLegal (getBlk s 0) (.dnop (tD 5 0 0 0 0 0 0 0 0)) (tD 5 0 0 0 0 0 0 0 0) = true) ∧
    (let e := entOf (sDrill (.dzero (tD 5 0 0 0 0 15 0 0 0)) (tD 5 0 0 0 0 15 0 0 0) 12 true true 31);
      mayRetire (getBlk (drl (fun d => { d with table := [{ e with done := true }] }) (host iTret)) 0) { e with done := true } = true) ∧
    (let s := { blk0 id with copies := [copy0] }; copyOf s 0 = some copy0 ∧ resident (getBlk s 0) = true) ∧
    (let cp := { copy0 with kind := 2, elem := rCount rec1, mask := 1 };
     let s := setRecv 0 7 (.armed 0 128 3) (blk0 (fun k => { k with tags := List.replicate 64 {} }));
     bit cp.mask 0 = true ∧ bit cp.doneMask 0 = false ∧ (nbOwner s 0 0).map (·.id) = some 0 ∧ getRecv (getBlk s 0) 7 = .armed 0 128 3 ∧
      ceilDiv (rCount cp.record) (rBox cp.record 0) * rPitch cp.record ≤ 128) ∧
    (let s := modSlice 63 7 (fun x => { x with queue := [fwop0] }) State.reset;
      (upto 8).findSome? (fun i => ((getSlice s 63 i).queue.find? (fun o => o.id == 0)).map (fun o => (i, o))) = some (7, fwop0) ∧ fwTurn (getSlice s 63 7) fwop0 = true) ∧
    (let s := modSlice 63 7 (fun x => { x with queue := [{ fwop0 with image := some 5 }] }) State.reset; (getSlice s 63 7).queue ≠ []) := by
  refine ⟨?_, ?_, ?_, ?_, ?_, ?_, ?_, ?_, ?_, ?_⟩ <;> decide +kernel
/-- A sum over two packages' field 0, of one 4 KiB chunk and one of 4 bytes, in one tree. -/
def desc0 : BitVec 512 := 1 ||| (3 <<< 64) ||| (12 <<< 84) ||| (1 <<< 90) ||| (4100 <<< 128) ||| (0x8000 <<< 192) ||| (9 <<< 256)
def mem0 (p : Nat) : CMember := { id := p, pkg := p, field := 0, blk := 0, tag := 0, src := 0, dst := 0, desc := toBytes 64 desc0 }
def coll0 (paused : Bool) (last : Chunk) : Collective :=
  { seq := 9, members := [mem0 0, mem0 1], started := true, zeroed := true, paused := paused, trees := [[{ pkg := 0, link := 136, a := 0, b := 64 }]], chunks := [{ phase := 3 }, last] }
/-- Package `p` with that collective. -/
def pkgS (p : Nat) (k : Collective) : State := { engMap (blk0 (fun k => { k with tags := [{}] })) with
  colls := [k], cfg := toBytes 64 (BitVec.ofNat 512 (p * 2 ^ 46 + 0xFFF0000)) }
def mapped2 (s : State) : State := modFld 0 (fun k => { k with walkTlb := [{ root := 0, va := 0, log2 := 16, pa := 0, w := true, x := true, d := true, secure := false }] }) s
def reduced : Collective := coll0 false { phase := 1, arrived := [0, 64], partials := [(0, [[0, 0, 128, 63]])] }
def fresh0 : Collective := coll0 false {}
def sent0 : Collective := coll0 false { phase := 2, result := [0, 0, 128, 63] }
/-- A group of fields 0 and 1 of package 0, paused, with links UP that span the package as a tree. -/
def desc1 : BitVec 512 := 3 ||| (1 <<< 64) ||| (12 <<< 84) ||| (1 <<< 90) ||| (4096 <<< 128) ||| (0x1000 <<< 192) ||| (3 <<< 256)
def mem1 (f : Nat) : CMember := { id := f, pkg := 0, field := f, blk := 0, tag := 0, src := 0, dst := 0, desc := toBytes 64 desc1 }
def coll1 : Collective := { seq := 3, members := [mem1 0, mem1 1], started := true, zeroed := true, paused := true, chunks := [{}] }
def spanning : List Nat := (upto 64).filter (fun n => n % 8 != 7) ++ (upto 7).map (fun i => 64 + 8 * i)
/-- The last chunk, of 4 bytes: its partial at a node whose parent is far, its result at the root, its delivery far from the root. -/
theorem witness_CollectiveEvents : (collDescOf fresh0 = desc0 ∧ gMembers desc0 = [0, 64] ∧ gRoot desc0 = 0 ∧ gCount desc0 = 2 ∧ chunkSpan desc0 1 = (4096, 4)) ∧
    (let s := mapped2 (pkgS 1 fresh0); pkgId s = 1 ∧ collOf s 9 = some fresh0 ∧ collRuns s fresh0 = true ∧ chunkOrder fresh0 1 1 = true ∧ nodeWaits fresh0 (treeNo fresh0 1) 64 = false ∧
      nodeWaits fresh0 (treeNo fresh0 1) 0 = false ∧ (chunkTree fresh0 1).find? (fun e => e.b == 64) = some { pkg := 0, link := 136, a := 0, b := 64 } ∧
      (match nodePartial fresh0 {} 1 64 s with | (.ok _, _) => true | _ => false) = true) ∧
    (let s := mapped2 (pkgS 0 reduced); pkgId s = 0 ∧ collOf s 9 = some reduced ∧ collRuns s reduced = true ∧ memberOf reduced 0 = some (mem0 0) ∧ chunkOrder reduced 1 2 = true ∧
      (match nodePartial reduced (reduced.chunks.getD 1 {}) 1 0 s with
       | (.ok p, s1) => okB (dstWrite reduced (mem0 0) 4096 (chunkResult desc0 p) s1) && okB (mileWrite reduced (mem0 0) 1 2 2 (dstWrite reduced (mem0 0) 4096 (chunkResult desc0 p) s1).2)
       | _ => false) = true) ∧
    (let s := mapped2 (pkgS 1 sent0); collOf s 9 = some sent0 ∧ collRuns s sent0 = true ∧ memberOf sent0 0 = some (mem0 0) ∧
      (deliverTo sent0 4096 [0, 0, 128, 63] (sent0.members.filter (fun x => x.pkg == pkgId s && x.pkg * 64 + x.field != 0)) s).1.isNone = true) ∧
    (let s := pkgS 1 fresh0; collRuns s fresh0 = true ∧ gRoot desc0 / 64 = 0 ∧ (fresh0.chunks.getD 1 {}).phase ≤ 1) := by
  refine ⟨?_, ?_, ?_, ?_, ?_⟩ <;> decide +kernel
theorem witness_reTree : let s := { pkgS 1 coll1 with remoteLinks := [(0, { up := spanning, far := [], fallow := 45 })] }
    collOf s 3 = some coll1 ∧ coll1.paused = true ∧ coll1.status = none ∧ memberOf coll1 (gRoot desc1) = some (mem1 0) ∧ gRoot desc1 / 64 ≠ pkgId s ∧ buildTrees s desc1 ≠ [] := by
  refine ⟨?_, ?_, ?_, ?_, ?_, ?_⟩
  · decide +kernel
  · decide +kernel
  · decide +kernel
  · decide +kernel
  · decide +kernel
  · decide +kernel

def qOn (q : Nat) (h : Queue → Queue) (s : State) : State := { s with queues := [(q, h { state := .active, wr := 1 })] }
def ringS (w : Nat) : State := { qOn 255 (fun k => k) State.reset with mem := memPuts [] 0 (toBytes 64 (BitVec.ofNat 512 w)) }
theorem witness_QueueCommands : (∀ n ∈ [0, 1, 2, 3], let s := ringS n; mayTake (getQ s 255) = true ∧ (nextEntry 255 s).1 = BitVec.ofNat 512 n ∧ recBad (getQ s 255) (nextEntry 255 s).1 = false) ∧
    (let s := ringS 4; recBad (getQ s 255) (nextEntry 255 s).1 = true) ∧
    (let s := qOn 255 (fun k => { k with signal := some (0, 2) }) State.reset; (getQ s 255).signal = some (0, 2) ∧ (getQ s 255).launches = []) := by decide +kernel
/-- A launch of one block of one thread, checked and released at the head of queue 0, in a region with a backing and a context pool. -/
def launch0 : Launch := { id := 0, queue := 0, index := 0, entry := 1 ||| (1 <<< 8) ||| (1 <<< 12), kdesc := (1 <<< 64) ||| (8 <<< 76), checked := true, next := 0 }
def sVisit : State := { qOn 0 (fun k => { k with head := some 0, released := true, launches := [0], desc := 1 <<< 185 }) State.reset with
  launches := [(0, launch0)], rcbs := [(0, (0x100000 <<< 448 : BitVec 2048) ||| (0x100000 <<< 512) ||| (0x200000 <<< 576) ||| (0x100000 <<< 640))] }
theorem witness_QueueAndBlockEvents :
    (let s := qOn 255 (fun k => { k with desc := 12 <<< 52 }) State.reset; (getQ s 255).state ≠ .unbound ∧ qDevice (getQ s 255) = false ∧ (4096 - (getQ s 255).rd).toNat ≤ 2 ^ qLog (getQ s 255) ∧
      2 ^ qLog (getQ s 255) < (4097 - (getQ s 255).rd).toNat) ∧
    (boundQueues State.reset = []) ∧
    (let s1 := latchHeads ((boundQueues sVisit).foldl (fun s q => checkHead q s) sVisit)
     let s2 := readHomes [(0, launch0)] s1
     boundQueues sVisit = [0] ∧ eligibleHead s1 0 = some launch0 ∧ useRanges s1 launch0 = [] ∧ (admission s2 launch0).2 = false ∧ (admission s2 launch0).1.isSome = true) ∧
    (let s := core0 (fun c => { c with tlb := [{ root := 0, va := 0, log2 := 12, pa := 0, w := true, x := true, d := true, secure := false }] })
      (blk0 (fun k => { k with members := [(0, { place := .exited, live := false })] })); mayRetireBlk s 0 = true ∧ anyPinned (getBlk (saveRegs 0 s) 0) = false) ∧
    (let s := { State.reset with kills := [{ id := 0, blocks := [], queue := none }] }; (s.kills[0]?).map (fun k => (k.blocks, k.queue)) = some ([], none)) := by
  refine ⟨?_, ?_, ?_, ?_, ?_⟩ <;> decide +kernel
def termMap (s : State) : State := { s with termTlb := [{ root := 0, va := 0, log2 := 12, pa := 0, w := true, x := true, d := true, secure := false }] }
theorem witness_SaveAndResume : mayStop (blk0 id) 0 = false ∧
    (let s := termMap (blk0 (fun k => { k with phase := .stopping, members := [(0, th1 .ready [])] }))
     let s := core0 (fun c => { c with tlb := [{ root := 0, va := 0, log2 := 12, pa := 0, w := true, x := true, d := true, secure := false }] }) s
     mayStop s 0 = true ∧ anyPinned (getBlk (saveRegs 0 s) 0) = false ∧ saveHeld s (getBlk s 0) = false ∧
      (let s1 := saveRegs 0 s; let k := getBlk s1 0; let im := imageOf k (grantOf (getCore s1 k.core) k) 0 (flushRdc (fieldOf k.core) (flushL1 k.core s1));
       (termPuts k.region 1000 k.handle im.1 im.2).any (fun t => (mfind t.blocks 0).isSome) = true)) ∧
    (let s := termMap (blk0 (fun k => { k with phase := .saved, coreHeld := true }))
     let s := { s with mem := savedImage 0 }
     unitBlocks s 0 = [getBlk s 0] ∧ pathRoom s 0 1 0 = true ∧ (unitGood [getBlk s 0] s).1 = true ∧ resumePlace (unitGood [getBlk s 0] s).2 [getBlk s 0] = some [0]) := by
  refine ⟨?_, ?_, ?_⟩ <;> decide +kernel
def opened (s : State) : State := { s with mbxOutCtl := 0x10004, fwUp := true }
def asks (w : BitVec 512) : State := opened { State.reset with events := [{ seq := 1, key := (4, 0), what := .request w true }] }
theorem witness_MailboxEvents : (∀ op ∈ [1, 2, 3, 4, 5, 6, 7], let w : BitVec 512 := BitVec.ofNat 512 (op + 255 * 256)
      (reqNext op (reqOf w true) (asks w)).isSome = true ∧ mbxOpen (asks w) = true ∧ (sbPick (asks w) 11).isSome = true ∧
      ((sbPick (asks w) 11).bind (fun e => serve e (sbHand 11 e (asks w)))).isSome = true) ∧
    (backed State.reset 0 = true ∧ backed State.reset (2 ^ 48) = false) ∧
    (let s := opened State.reset; (s.mbxOutWr - (0xFFFFFFF0 : DWord).setWidth 32).toNat ≤ 2 ^ mbxLog s ∧ 2 ^ mbxLog s < (s.mbxOutWr - (0xFFFFFFEF : DWord).setWidth 32).toNat) := by
  refine ⟨?_, ?_, ?_⟩ <;> decide +kernel
theorem witness_RegisterEvents : mfind State.reset.rcbs 0 = none ∧
    (let t := dropWindow 63 15 (modFld 63 (fun k => { k with windows := [(15, { len := 1 })] }) State.reset); winOk t 63 (getWin t 63 15) 0 = true ∧ winOk t 63 (getWin t 63 15) 3 = false ∧
      bit (getWin t 63 15).ctl 0 = false) ∧
    (let t := dropWindow 63 15 (modFld 63 (fun k => { k with windows := [(15, { ctl := 1, len := 1 })] }) State.reset); bit (getWin t 63 15).ctl 0 = true) ∧
    ({ State.reset with bootStat := 1 <<< 13 } : State).bootStat.getLsbD 13 = true ∧
    (let v : DWord := BitVec.ofNat 64 (32767 * 2 ^ 6); nbits v 6 15 + (nbits v 21 15 + 1) ≤ 32768 ∧ nbits v 40 24 = 0) ∧
    (let v : DWord := BitVec.ofNat 64 (32767 * 2 ^ 6 + 2 ^ 21); 32768 < nbits v 6 15 + (nbits v 21 15 + 1)) ∧ 9 ≤ 0x900000 / 2 ^ 20 := by decide +kernel
def linkS (id : Nat) (l : Link) : State := { State.reset with links := [(id, l)], cfg := List.replicate 256 0 }
theorem witness_LinkEvents : (∀ id ∈ [0, 151], linkNamed (linkS id { state := 1 }) id = true ∧ (getLink (linkS id { state := 1 }) id).state = 1 ∧ (getLink (linkS id { state := 1 }) id).disable = false) ∧
    (let l := getLink (linkS 151 { state := 3, disable := true }) 151; l.disable = true ∧ l.state = 3) ∧
    (let v : DWord := 1; let arm : DWord := (v ||| 1) &&& 0xFFFF07FF; nbits arm 2 2 ≠ 3 ∧ nbits arm 5 6 < linkLanes 151) ∧
    (let l := getLink (linkS 0 { state := 1, inj := 1, injN := 1 }) 0; bit l.inj 0 = true ∧ nbits l.injN 0 32 ≠ 0) ∧
    (getLink (linkS 0 { state := 2 }) 0).state = 2 ∧ linkNamed (linkS 0 {}) 0 = true := by decide +kernel
theorem witness_PowerEvents : (tileOn State.reset 63 31 = false) ∧ (tileOn (blk0 (fun k => { k with accs := 1, savePchs := [(63, 31)] })) 63 31 = true) ∧
    (let s := modFld 63 (fun k => { k with retrain := some 31 }) State.reset; (getFld s 63).retrain = some 31 ∧ (getFld s 63).pcpwrReq ≠ 1) ∧
    (let s := modFld 63 (fun k => { k with pcpwrReq := 2, pcpwr := 31 }) State.reset; (getFld s 63).pcpwrReq = 2 ∧ nbits (getFld s 63).pcpwr 0 5 = 31 ∧ tileOn s 63 31 = false) := by decide +kernel
theorem witness_DeviceEvents : (getFld State.reset 63).tripped = false ∧ (getFld (modFld 63 (fun k => { k with tripped := true }) State.reset) 63).tripped = true ∧ blocksIn State.reset 63 true = [] ∧
    (getFld (modFld 63 (fun k => { k with gated := true }) State.reset) 63).gated = true ∧ 63 ≠ fallow State.reset ∧
    (getFld (modFld 63 (fun k => { k with testing := true }) State.reset) 63).testing = true := by decide +kernel
/-- A page table at address 0, of five tables, that maps the page at 0 to device memory at 0x5000. -/
def tables : List Host.Cell := memPuts (memPuts (memPuts (memPuts (memPuts [] 0 (toBytes 8 (0x1001 : DWord))) 0x1000 (toBytes 8 (0x2001 : DWord))) 0x2000 (toBytes 8 (0x3001 : DWord)))
  0x3000 (toBytes 8 (0x4001 : DWord))) 0x4000 (toBytes 8 (0x5009 : DWord))
def sRange : State := { State.reset with mem := tables, rcbs := [(0, 0)] }
theorem witness_MemoryEvents : resident (getBlk (blk0 id) 0) = true ∧ (paSecure State.reset (2 ^ 42 - 1) = false) ∧
    paSecure { State.reset with worldMap := [(0, 1)] } 0x1FFFFF = true ∧ target (2 ^ 36 - 4096) = .dev 0 (2 ^ 36 - 4096) ∧ target (2 ^ 36) = .dev 1 0 ∧
    (rangeAt sRange 0 0 = (0, 65536) ∧ rangeIn sRange 0 (0, 65536) true = true ∧ mayEvict sRange 0 (0, 65536) = true) ∧
    (let s := { qOn 0 (fun k => { k with head := some 0 }) State.reset with launches := [(0, launch0)], useLists := [{ queue := 0, index := 0, ranges := [(0, 4096)] }] }
     (getQ s 0).head.bind (fun id => mfind s.launches id) = some launch0 ∧ isDev (2 ^ 42 - 4096) = true ∧ isDev (2 ^ 42 - 4096 + 4096 - 1) = true ∧
      s.useLists.find? (fun (u : UseList) => u.queue == 0 && u.index == 0) = some { queue := 0, index := 0, ranges := [(0, 4096)] }) := by
  refine ⟨?_, ?_, ?_, ?_, ?_, ?_, ?_⟩ <;> decide +kernel

-- Hypotheses of the statements about encoding and steps ------------------------------------------------------------------------------

def allWords : List (Nat × Instr) := wordsControl ++ wordsInteger ++ wordsFloat ++ wordsConversion ++ wordsCrossLane ++ wordsMemory ++ wordsEngine ++ wordsSystem ++ wordsHeader
theorem witness_DecodeOfEncode : ∀ x ∈ allWords ++ wordsDrill, wellFormed x.2 = true ∧ encode x.2 = some (BitVec.ofNat 96 x.1) := by decide +kernel
/-- A core at a slot of its clause, at the clause's end and at a boundary; a drill; an event. -/
theorem witness_StepRunsDecoded : (let s := host (.add fAdd); s.agenda = [] ∧ s.turn = .core 0 ∧ pick s 0 = some 0 ∧ ((consistOf s 0 0).bind (·.clause)).map (clauseOver s (consistOf s 0 0 |>.getD default)) = some false) ∧
    (let s := modClause 0 0 (fun cl => { cl with issued := 1 }) (host (.add fAdd)); ((consistOf s 0 0).bind (·.clause)).map (clauseOver s (consistOf s 0 0 |>.getD default)) = some true) ∧
    (pick sHead 0 = some 0 ∧ kHead.clause = none) ∧
    (let s := sDrill (.dzero (tD 5 0 0 0 0 15 0 0 0)) (tD 5 0 0 0 0 15 0 0 0) 12 true true 31; s.agenda = [] ∧ s.turn = .drill 0 7 ∧ (entOf s).done = false ∧ isDrillCmd (entOf s).instr = true) ∧
    isWord (.doorbell 255 1) = false := by refine ⟨?_, ?_, ?_, ?_, ?_⟩ <;> decide +kernel
/-- A core whose one consist is eligible at a boundary. -/
theorem witness_EligibleConsistsKept : Settled sHead ∧ (consistOf sHead 0 0).bind (·.eligible) = some 0 := by unfold Settled; decide +kernel
theorem witness_HomeMemoryReads : Memory.wf tables = true ∧ tables.length = 10 := by decide +kernel


-- Further hypotheses: the other forms, at the values where they begin ---------------------------------------------------------------

/-- `repeat` with a count of 0, which passes over the slot after it. -/
def iRep0 : Instr := .repeatN (tI null null 0 0x87 0)
def sRep0 : State := modClause 0 0 (fun cl => { cl with words := cl.words.set 2 ((encode (.add fAdd)).getD 0) }) (host iRep0)
theorem witness_repeatZero : context iRep0 sRep0 = some (ctxOf iRep0 sRep0) ∧
    Ready iRep0 sRep0 { ctxOf iRep0 sRep0 with active := (ctxOf iRep0 sRep0).exec, all := (ctxOf iRep0 sRep0).exec } ∧
    (match (consistOf sRep0 0 0).bind (·.clause) with | some cl => repeatBad (tI null null 0 0x87 0) (cl.words.getD (2 + cl.issued) 0) | none => true) = false :=
  ⟨context_of (by decide +kernel), ready_of (by decide +kernel), by decide +kernel⟩
def sGrowWait : State := modBlk 0 (fun k => { k with grows := [{ id := 3, kind := 0, x := 8, d := null, ranks := [0], pc := 0, since := 0, out := 3 }] }) (sGrow 32)
/-- A request that waits behind an earlier one of its block; no request anywhere. -/
theorem witness_growWaits : Issues iGrow sGrowWait (ctxOf iGrow sGrowWait) ∧ (getBlk sGrowWait 0).grows ≠ [] ∧ backingRoom (sGrow 32) 0 32 = true ∧ backingRoom (sGrow 31) 0 32 = false ∧
    (∀ e ∈ (sGrow 32).blocks, e.2.grows = []) := ⟨issues_of (by decide +kernel), by decide +kernel⟩
def iInjM (n : BitVec 7) : Instr := .errinj (tA null 6 null null 0 n 0)
/-- A resident block at the handle; a saved one whose image is bad; an error in memory; a `trsync` with an invalidation open. -/
theorem witness_systemForms :
    (Issues iCtx (sCtx .resident 8) (ctxOf iCtx (sCtx .resident 8)) ∧ (handleBlk (sCtx .resident 8) 8).map (fun k => (k.id, k.phase)) = some (1, .resident)) ∧
    (ctxGood 1 { sCtx .saved 8 with mem := [], termTlb := [{ root := 0, va := 0, log2 := 12, pa := 0, w := true, x := true, d := true, secure := false }] }).1 = false ∧
    (∀ n ∈ [2, 3], ∃ xs s', Issues (iInjM n) (mapped (sec (host (iInjM n)))) (ctxOf (iInjM n) (mapped (sec (host (iInjM n))))) ∧
      Reaches (ctxOf (iInjM n) (mapped (sec (host (iInjM n))))) { space := 0, n := 8, align := true, acc := 0, detail := 0, code := 0, consume := false }
        (laneAddrs (ctxOf (iInjM n) (mapped (sec (host (iInjM n))))) (fun l => src64 (ctxOf (iInjM n) (mapped (sec (host (iInjM n))))) l.2 6)) (mapped (sec (host (iInjM n)))) xs s') ∧
    (let i : Instr := .trsync (tA null null null null 0 0 0)
     let s := { sec (host i) with invals := [{ id := 1, form := 2, va := 0, root := 0, agents := [0], blk := some 0, ranks := [0], out := 1, clause := 0 }] }
     Issues i s (ctxOf i s) ∧ ((release 0 2 s).invals.filter (fun v => v.blk == some 0 && [0].any (fun x => v.ranks.contains x))).map (·.id) = [1]) := by
  refine ⟨⟨issues_of (by decide +kernel), by decide +kernel⟩, by decide +kernel, fun n hn => ?_, issues_of (by decide +kernel), by decide +kernel⟩
  have h : [2, 3].all (fun n => accessB (iInjM n) { space := 0, n := 8, align := true, acc := 0, detail := 0, code := 0, consume := false } (fun c l => src64 c l.2 6) (mapped (sec (host (iInjM n))))) = true := by
    decide +kernel
  exact access_at (ad := fun c l => src64 c l.2 6) (List.all_eq_true.1 h n hn)
/-- A record slot in use, none there, coordinates past s63, a tag at its limit, a slot that is receiving. -/
theorem witness_tensorWaits :
    (let s := modRec 0 1 (fun k => { k with refs := 1 }) (host (.trec fTrec)); issues (.trec fTrec) s ∧ (getRec (getBlk s 0) 1).refs ≠ 0) ∧
    (let i : Instr := .tcopy (tE null 0x140 1 3 0 0x14 0); let s := recSlot (host i); (isS 0x13F && decide (0x140 < 0x13F + rRank (getRec (getBlk (recSlot (host i)) 0) 1).bits)) = false ∧
      (getRec (getBlk s 0) 1).valid = true) ∧
    (∀ i ∈ [iTcopy, iTstore, iTcopymc, iRecvarm], let s := modTag 0 3 (fun t => { t with set := false, count := 255 }) (recSlot (host i));
      issues i s ∧ 255 < (getTag (getBlk s 0) 3).count + (ctxOf i s).active.length) ∧
    (let s := setRecv 0 6 (.receiving 0 128 3) (host iRecvarm); issues iRecvarm s ∧ getRecv (getBlk s 0) 6 = .receiving 0 128 3) := by
  refine ⟨⟨issues_is ?_, ?_⟩, ?_, fun i hi => ⟨issues_is ?_, ?_⟩, issues_is ?_, ?_⟩
  all_goals first | decide +kernel | (revert i; decide +kernel)
def fMisaligned : FmtE := tE 0xD 0xE 0 3 7 0xC 0x0481000F
/-- A full queue, no record, a result address not aligned to 8. -/
theorem witness_furrowWaits :
    (∀ i ∈ wordsFurrow, let s := modSlice 0 7 (fun x => { x with queue := List.replicate 32 { id := 0, blk := 0, core := 0, tag := 0, instr := i, ways := 1, vals := [0] } }) (host i);
      issues i s ∧ 32 < (getSlice s 0 7).queue.length + (ctxOf i s).active.length) ∧
    (∀ i ∈ wordsFurrowMove, issues i (host i) ∧ (getRec (getBlk (host i) 0) 1).valid = false) ∧
    (let s := thr (fun t => { t with vregs := [(14, 4)] }) (host (.fwred fMisaligned)); issues (.fwred fMisaligned) s ∧ src64 (ctxOf (.fwred fMisaligned) s) 0 0xE % 8 ≠ 0) := by
  refine ⟨fun i hi => ⟨issues_is ?_, ?_⟩, fun i hi => ⟨issues_is ?_, ?_⟩, issues_is ?_, ?_⟩
  all_goals first | decide +kernel | (revert i; decide +kernel)
/-- A tag at its limit. -/
theorem witness_collWaits : let s := modTag 0 3 (fun t => { t with set := false, count := 255 }) (host iColl); issues iColl s ∧ 255 < (getTag (getBlk s 0) 3).count + 1 :=
  ⟨issues_is (by decide +kernel), by decide +kernel⟩
def rowFault : RowOut → Bool
  | .fault _ _ _ => true
  | _ => false
/-- A command that is not first, records that do not fit, a row whose access faults with room and without, a `dmma` behind another. -/
theorem witness_drillForms :
    (let x := drillCmds[8]; let s := sDrill x.1 x.2.1 12 true false 0; dRecsOk (entOf s) 0 0 = false) ∧
    (let x := drillCmds[5]; let s := sDrill x.1 x.2.1 12 true true 31; let u := modFld 0 (fun k => { k with walkTlb := [] }) s; rowFault (dldaccRow 0 (entOf u) (entOf u).cmd u) = true ∧ faultRoom u 0 = true ∧
      faultRoom (modFld 0 (fun k => { k with faults := List.replicate 256 (frec 1) }) u) 0 = false) ∧
    (let x := drillCmds[8]; let s := sDrill x.1 x.2.1 14 true true 31
     dmmaBusy (drl (fun d => { d with table := [{ (entOf s) with uid := 6, row := 3, order := 0 }, { (entOf s) with row := 0, order := 1 }] }) s |> fun u => (getBlk u 0).drill) { (entOf s) with row := 0, order := 1 } = true) := by
  refine ⟨?_, ?_, ?_⟩ <;> decide +kernel
def conC (cl : Clause) : Consist := { con0 with clause := some cl }
def over1 : Clause := { id := 0, header := 0, len := 1, issued := 1 }
def sOver (t : Thread) : State := core0 (fun c => { c with running := some 0, consists := [(0, conC over1)] }) (blk0 (fun k => { k with members := [(0, t)] }))
def logged : LogEntry := {
  id := 0, uid := 0, slot := 0, cn := 0, instr := .brx (tA null 6 null null 0 0 0), pc := 0, clause := 0, slots := con0.slots, canon := false, base := 0, snap := [], lanes := [0]
  dests := [], seq := 1, access := 4, fills := [(0, 6)] }
/-- A clause that is over: its end, and one that waits for a replay; a consist that goes on whole; a saved consist, a rank group; no number free. -/
theorem witness_clauseEnds :
    (let s := sOver { place := .consist 0 }; pick s 0 = some 0 ∧ consistOf s 0 0 = some (conC over1) ∧ clauseOver s (conC over1) over1 = true ∧ heldEnd s (conC over1) over1 = false ∧
      (getBlk s 0).snapDue = false ∧ (getBlk s 0).phase = .resident ∧ (getCore s 0).consists.length < 64 ∧ membersOf (conC over1).slots = [(0, 0)] ∧
      (let t := getTh s 0 0; t.live = true ∧ t.raised = none ∧ t.deferred = [] ∧ t.waits = [] ∧ t.began = false ∧ t.nextPc.getD (slotAddr (slotNum over1.header + 1 + over1.len)) = slotAddr 2)) ∧
    (let s := modBlk 0 (fun k => { k with log := [logged] }) (sOver { place := .consist 0 }); heldEnd s (conC over1) over1 = true) ∧
    (let s := blk0 (fun k => { k with members := [(0, th1 .rankWait [])] }); groupRanks (getBlk s 0) 0 = [0] ∧ savedWaits s 0 = false ∧ (getTh s 0 0).place = .rankWait) ∧
    (let s := core0 (fun c => { c with sidings := [(63, { blk := 0, pc := 0, handler := false, ranks := [0], since := 5, due := true })] }) (blk0 id); savedWaits s 0 = false ∧ groupWaits s 0 = false) ∧
    (let s := core0 (fun c => { c with consists := (upto 64).map (fun i => (i, con0)) }) State.reset; 64 ≤ (getCore s 0).consists.length) := by
  refine ⟨?_, ?_, ?_, ?_, ?_⟩ <;> decide +kernel
def inFl (entry : Option Nat) : InFlight := { blk := 0, ranks := [0], d := 9, image := 0, queue := 255, region := 0, out := 4, clause := 0, entry := entry }
/-- An outstanding request that is settled elsewhere; an access to a pseudo-channel that retrains; a replayed launch whose entry owns D. -/
theorem witness_returnForms :
    (let s := { blk0 id with inflight := [inFl none] }; outHeld s 0 4 = true) ∧
    (let s := modFld 0 (fun k => { k with retrain := some 31 }) (blk0 (fun k => { k with members := [(0, { outs := [{ id := 1, clause := 0, a := false, b := true, pchs := [(0, 31)] }] })] }));
      outHeld s 0 1 = false ∧ ∃ o ∈ (getTh s 0 0).outs, o.id = 1 ∧ accessHeld s (getTh s 0 0) o = true) ∧
    (let s := { blk0 (fun k => { k with members := [(0, { marks := [(9, 7)] })] }) with inflight := [inFl (some 7)] }; s.inflight[0]? = some (inFl (some 7)) ∧ (getTh s 0 0).marks.contains (9, 7) = true) ∧
    (getCore State.reset 0).shadowQ = [] := by decide +kernel
def sStream (w : IWord) : State := { drl (fun d => { d with reading := true }) (engMap (blk0 id)) with mem := memOf w }
/-- A stream read that faults, with room for its record and without; a word that is no command; a command the block may not hold. -/
theorem witness_streamForms :
    (let s := drl (fun d => { d with reading := true }) (blk0 id)
     let x := ttuRead 0 (rootOf s 0) (secureOf s 0) 0 12 s
     okB x = false ∧ faultRoom x.2 0 = true ∧
     (let u := modFld 0 (fun k => { k with faults := List.replicate 256 (frec 1) }) s; faultRoom (ttuRead 0 (rootOf u 0) (secureOf u 0) 0 12 u).2 0 = false)) ∧
    (let s := sStream (encD 0xFF (tD 5 0 0 0 0 0 0 0 0)); (match ttuRead 0 (rootOf s 0) (secureOf s 0) 0 12 s with | (.ok bs, _) => decodeDrill (ofBytes 96 bs) == none | _ => false) = true) ∧
    dLegal (getBlk (blk0 id) 0) (.dzero (tD 5 0 0 0 0 9 0 0 0)) (tD 5 0 0 0 0 9 0 0 0) = false := by
  refine ⟨?_, ?_, ?_⟩ <;> decide +kernel
def unstarted : Collective := { coll0 false {} with started := false, zeroed := false }
def delivered : Collective := coll0 false { phase := 2, pkgsDone := [1] }
/-- A collective not yet started; a partial and a result whose access faults; the root's delivery; a tree set of this package; a partial that comes from a package. -/
theorem witness_collectiveForms :
    (collOf (pkgS 1 unstarted) 9 = some unstarted ∧ unstarted.zeroed = false) ∧
    (let s := modFld 0 (fun k => { k with walkTlb := [] }) (pkgS 1 fresh0); (match nodePartial fresh0 {} 1 64 s with | (.error _, _) => true | _ => false) = true) ∧
    (let k := coll0 false { phase := 1, arrived := [0, 64] }; (match nodePartial k (k.chunks.getD 1 {}) 1 0 (modFld 0 (fun k => { k with walkTlb := [] }) (pkgS 0 k)) with | (.error _, _) => true | _ => false) = true) ∧
    (let s := mapped2 (pkgS 0 delivered); collRuns s delivered = true ∧ chunkOrder delivered 1 3 = true ∧ okB (memberRead (mem0 0) 4096 4 s) = true ∧
      (deliverTo delivered 4096 [0, 0, 0, 0] [] s).1.isNone = true) ∧
    (let s := pkgS 0 fresh0; (chunkTree fresh0 1).find? (fun e => e.b == 64) = some { pkg := 0, link := 136, a := 0, b := 64 } ∧ collRuns s fresh0 = true ∧ 64 / 64 ≠ pkgId s ∧ 0 / 64 = pkgId s ∧
      chunkOrder fresh0 1 1 = true ∧ nodeWaits fresh0 (treeNo fresh0 1) 0 = false) ∧
    (let s := pkgS 0 coll1; buildTrees s desc1 = []) ∧
    (let s := { pkgS 0 coll1 with links := spanning.map (fun n => (n, { state := 1 })) }; buildTrees s desc1 ≠ [] ∧ gRoot desc1 / 64 = pkgId s ∧ (mem1 0).faults = []) := by
  refine ⟨?_, ?_, ?_, ?_, ?_, ?_, ?_⟩ <;> decide +kernel
/-- A block that may not retire, and one with a register that cannot be written; an unbound queue. -/
theorem witness_retireForms : mayRetireBlk (blk0 id) 0 = false ∧ (getQ State.reset 0).state = .unbound ∧ mayTake (getQ State.reset 255) = false ∧ (getQ State.reset 255).signal = none ∧
    (let s := blk0 (fun k => { k with members := [(0, { place := .exited, live := false, vregs := [(1, 5)] })] }); mayRetireBlk s 0 = true ∧ anyPinned (getBlk (saveRegs 0 s) 0) = true) := by
  refine ⟨?_, ?_, ?_, ?_, ?_⟩ <;> decide +kernel
/-- A stopping block that an access holds, that a register holds, whose image cannot be written; a saved block that is held, whose image is bad, that finds no core. -/
theorem witness_saveForms :
    (let s := modFld 0 (fun k => { k with retrain := some 31 })
      (blk0 (fun k => { k with phase := .stopping, members := [(0, { outs := [{ id := 1, clause := 0, a := false, b := true, pchs := [(0, 31)] }] })] })); saveHeld s (getBlk s 0) = true) ∧
    (let s := blk0 (fun k => { k with phase := .stopping, members := [(0, { place := .ready, vregs := [(1, 5)] })] }); mayStop s 0 = true ∧ anyPinned (getBlk (saveRegs 0 s) 0) = true) ∧
    (let s := blk0 (fun k => { k with phase := .stopping, members := [(0, th1 .ready [])] })
     let s := core0 (fun c => { c with tlb := [{ root := 0, va := 0, log2 := 12, pa := 0, w := true, x := true, d := true, secure := false }] }) s
     let s1 := saveRegs 0 s; let k := getBlk s1 0; let im := imageOf k (grantOf (getCore s1 k.core) k) 0 (flushRdc (fieldOf k.core) (flushL1 k.core s1))
     mayStop s 0 = true ∧ anyPinned k = false ∧ (termPuts k.region 1000 k.handle im.1 im.2).isNone = true) ∧
    (let s := blk0 (fun k => { k with phase := .saved, held := true }); (getBlk s 0).held = true) ∧
    (let s := termMap (blk0 (fun k => { k with phase := .saved })); (unitGood [getBlk s 0] s).1 = false) ∧
    (let s := modFld 0 (fun k => { k with testing := true }) { termMap (blk0 (fun k => { k with phase := .saved, coreHeld := true })) with mem := savedImage 0 }
     (unitGood [getBlk s 0] s).1 = true ∧ resumePlace (unitGood [getBlk s 0] s).2 [getBlk s 0] = none) := by
  refine ⟨?_, ?_, ?_, ?_, ?_, ?_⟩ <;> decide +kernel
/-- No grant and one; a ring that is full; a core with nothing to take. -/
theorem witness_mailboxForms : (8 ∉ State.reset.grants ∧ 8 ∈ ({ State.reset with grants := [8] } : State).grants) ∧ sbPick State.reset 11 = none ∧
    (let s := { asks 2 with mbxOutCtl := 0 }; mbxOpen s = false ∧ (sbPick s 0).isSome = true ∧ ((sbPick s 0).bind (fun e => serve e (sbHand 0 e s))).isNone = true) ∧
    reqNext 2 (reqOf 2 true) State.reset = none ∧ (reqOf (2 ||| (1 <<< 400)) true).misused = true ∧ (reqOf 2 true).misused = false ∧ reqDenied (reqOf 2 true) State.reset = false := by
  refine ⟨?_, ?_, ?_, ?_, ?_, ?_, ?_⟩ <;> decide +kernel
/-- A region block that is held and has not moved; a window of no field; a world-map command under way; the host without and with the security block. -/
theorem witness_registerForms :
    (let s := { State.reset with rcbs := [(0x1000, 0)] }; mfind s.rcbs 0x1000 = some 0 ∧ (homeGets 0x1000 256 s).1 = List.replicate 256 0 ∧ boundQueues s = []) ∧
    (64 ≤ 64 ∧ ({ State.reset with wmapBusy := some 0 } : State).wmapBusy ≠ none) ∧ (bit State.reset.bootStat 13 = false ∧ 7 ∉ State.reset.grants) ∧
    (∀ n ∈ [0, 1, 2, 3], nbits (BitVec.ofNat 64 (n * 2 ^ 38)) 38 2 = n ∧ nbits (BitVec.ofNat 64 n) 0 2 = n) := by
  refine ⟨?_, ?_, ?_, ?_⟩ <;> decide +kernel
/-- An injector that may not be armed, an unnamed link, links in each other state. -/
theorem witness_linkForms : (let arm : DWord := (0xD ||| 1) &&& 0xFFFF07FF; nbits arm 2 2 = 3) ∧ linkNamed (linkS 152 {}) 152 = false ∧ (getLink (linkS 0 { state := 1 }) 0).state = 1 ∧
    (getLink (linkS 0 { disable := true, state := 0 }) 0).disable = true ∧ (getLink (linkS 151 { state := 1, inj := 0 }) 151).state = 1 := by decide +kernel
/-- A request pending; a pseudo-channel due for training by its temperature, by its corrections, and not due. -/
theorem witness_powerForms : (getFld (modFld 63 (fun k => { k with pcpwrReq := 1 }) State.reset) 63).pcpwrReq ≠ 0 ∧
    (let moved := fun (v : Int) => let k := getFld (modFld 63 (fun k => { k with td := v }) State.reset) 63; (k.td - mget 0 k.trainTd 31).natAbs
     128 ≤ moved 128 ∧ 128 ≤ moved (-128) ∧ ¬ 128 ≤ moved (-127) ∧ ¬ 16 < mget 0 (getFld State.reset 63).corrected 31) ∧
    (let k := getFld (modFld 63 (fun k => { k with corrected := [(31, 17)] }) State.reset) 63; 16 < mget 0 k.corrected 31) ∧
    (let s := modFld 63 (fun k => { k with retrain := some 31, pcpwrReq := 1, pcpwr := 63 }) State.reset; (getFld s 63).pcpwrReq = 1 ∧ nbits (getFld s 63).pcpwr 0 5 = 31) := by
  refine ⟨?_, ?_, ?_, ?_⟩ <;> decide +kernel
/-- A tier and a field with a block; a start-up that has stopped. -/
theorem witness_deviceForms : blocksIn (blk0 (fun k => { k with core := 128 })) 0 true ≠ [] ∧ blocksIn (blk0 id) 0 false ≠ [] ∧ blocksIn (blk0 id) 0 true = [] ∧
    bit ({ State.reset with bootStat := 1 <<< 13 } : State).bootStat 13 = true ∧ fallow State.reset = 45 := by refine ⟨?_, ?_, ?_, ?_, ?_⟩ <;> decide +kernel
def line0 (d : BitVec 128) : Line := { data := 0, valid := fullMask, dirty := d }
/-- Lines in a cache, the host let in, a range under way. -/
theorem witness_memoryForms :
    (mfind (getCore (core0 (fun c => { c with l1 := [(0, line0 1)] }) State.reset) 0).l1 0 = some (line0 1)) ∧
    (mfind (getFld (modFld 1 (fun k => { k with rdc := [(0, line0 0)] }) State.reset) 1).rdc 0 = some (line0 0)) ∧
    (let s := { State.reset with hostUp := true }; s.hostUp = true ∧ target (2 ^ 51) = .host ∧ backed s (2 ^ 51) = true ∧ backed s (2 ^ 42 - 1) = true ∧ target (31 * 2 ^ 42) = .ctl 0) ∧
    (let s := { sRange with moves := [{ region := 0, lo := 0, n := 65536, dst := 2 ^ 51, pages := [], leaves := [] }] }
     (s.moves.find? (fun m => m.region == 0 && m.lo == 0 && m.dst == 2 ^ 51)).isSome = true) ∧
    ((2 : Nat) ^ 51 / 2 ^ 51 = 1 ∧ isDev (2 ^ 51) = false ∧ covers 4095 (0, 4096) = true ∧ covers 4096 (0, 4096) = false) := by
  refine ⟨?_, ?_, ?_, ?_, ?_⟩ <;> decide +kernel
def roomyB (g : Nat) (lns : List Nat) (s : State) : Bool :=
  (getCore s g).l1.isEmpty && (getFld s (fieldOf g)).rdc.isEmpty && s.aliasLines.isEmpty && decide (lns.length ≤ 1) &&
    lns.all (fun ln => match homeOf (ln * 128) with | some f => decide (1 ≤ ((upto 16).filter (fun w => role (getSlice s f (llcSlice (ln * 128))).inForce w == 0)).length) | none => true)
theorem roomy_of {g : Nat} {lns : List Nat} {s : State} (h : roomyB g lns s = true) : Roomy g lns s := by
  simp only [roomyB, Bool.and_eq_true, List.isEmpty_iff, decide_eq_true_eq, List.all_eq_true] at h
  obtain ⟨⟨⟨⟨h1, h2⟩, h3⟩, h4⟩, h5⟩ := h
  have le (p : Nat → Bool) : (lns.filter p).length ≤ 1 := Nat.le_trans (List.length_filter_le _ _) h4
  refine ⟨⟨h1 ▸ .nil, h2 ▸ .nil, h3 ▸ .nil⟩, ?_, fun ln _ => ?_, fun ln hl f hf => ?_⟩
  · have := le (fun x => (mfind (getCore s g).l1 x).isNone); rw [h1] at this ⊢; simp only [List.length_nil]; omega
  · intro mine; have := le (fun x => mine x && (mfind (getFld s (fieldOf g)).rdc x).isNone); rw [h2] at this ⊢; simp only [List.filter_nil, List.length_nil]; omega
  · have hw := h5 ln hl; rw [hf] at hw
    intro mine; have := le (fun x => mine x && (mfind s.aliasLines x).isNone)
    have ha : aliasIn s f (ln * 128) = [] := by simp [Sys2Proof.Machine.aliasIn, h3]
    rw [ha]; simp only [List.length_nil, decide_eq_true_eq] at hw ⊢; omega
/-- The line that a store, a load and an atomic reach fits beside what the caches hold. -/
def roomAtB (i : Instr) (f : FmtM) (q : Req) (ad : Ctx → Nat × Nat → Nat) (s : State) : Bool :=
  let r := resolveAll (ctxOf i s).g (ctxOf i s).blk q (laneAddrs (ctxOf i s) (ad (ctxOf i s))) s
  accessB i q ad s && roomyB (ctxOf i s).g (touched (locsOf r.1) (widthOf f)) (before (ctxOf i s) f (locsOf r.1) r.2)
theorem room_at {i : Instr} {f : FmtM} {q : Req} {ad : Ctx → Nat × Nat → Nat} {s : State} (h : roomAtB i f q ad s = true) :
    ∃ c xs s', Roomy c.g (touched xs (widthOf f)) (before c f xs s') ∧ Issues i s c ∧ Reaches c q (laneAddrs c (ad c)) s xs s' := by
  simp only [roomAtB, accessB, reachesB, Bool.and_eq_true, beq_iff_eq] at h
  obtain ⟨⟨hi, ⟨hh, hr⟩, hl⟩, hb⟩ := h
  exact ⟨ctxOf i s, _, _, roomy_of hb, issues_of hi, List.isEmpty_iff.1 hh, hl, Prod.ext hr rfl⟩
theorem witness_MemoryWordsFrame :
    (∃ s c xs s', Roomy c.g (touched xs (widthOf fLd)) (before c fLd xs s') ∧ Issues (.ld fLd) s c ∧ Reaches c (loadReq fLd) (laneAddrs c (addrM c fLd)) s xs s') ∧
    (∃ s c xs s', Roomy c.g (touched xs (widthOf fSt)) (before c fSt xs s') ∧ Issues (.st fSt) s c ∧ Reaches c (stReq fSt) (laneAddrs c (addrM c fSt)) s xs s') ∧
    (∃ s c xs s', Roomy c.g (touched xs (widthOf fAtom)) (before c fAtom xs s') ∧ Issues (.atom fAtom) s c ∧ Reaches c (atomReq fAtom) (laneAddrs c (addrAtom c fAtom false)) s xs s') :=
  ⟨⟨mapped (host (.ld fLd)), room_at (by decide +kernel)⟩, ⟨mapped (host (.st fSt)), room_at (by decide +kernel)⟩, ⟨mapped (host (.atom fAtom)), room_at (by decide +kernel)⟩⟩

-- Further hypotheses: forms of this text alone -------------------------------------------------------------------------------------

def inRep (mask : BitVec 4) (i : Instr) : State := modClause 0 0 (fun cl => { cl with rep := some { total := 4, done := 3, step := 2, mask := mask, guarded := false } }) (host i)
def fMovi : FmtI := tI 249 null 2 0 7
def fMoviPast : FmtI := tI 250 null 2 0 7
def fAddPast : FmtA := tA 4 250 2 null 6 0 0
def fLdIn : FmtM := tM 8 248 null 2 0 0 0 0 0
def fLdPast : FmtM := tM 250 6 null 2 0 0 0 0 0
def guardOpen (i : Instr) (s : State) : Bool :=
  (context i s).isSome && (wordCause i i (ctxOf i s) s).isNone && !guardPending i (ctxOf i s) s && !(ctxOf i s).active.isEmpty
/-- A `movi` and a load inside a `repeat` whose moved registers end at v255, and the same, and an `add`, one further. -/
theorem witness_repeatForms :
    ((context (.movi fMovi) (inRep 1 (.movi fMovi))).isSome = true ∧ (stepI 1 6 fMovi).map (·.d) = some 255) ∧
    ((context (.ld fLdIn) (inRep 2 (.ld fLdIn))).isSome = true ∧ (stepM 2 6 fLdIn).map (·.base) = some 254) ∧
    (guardOpen (.add fAddPast) (inRep 2 (.add fAddPast)) = true ∧ 256 ≤ fAddPast.a.toNat + 6) ∧
    (guardOpen (.movi fMoviPast) (inRep 1 (.movi fMoviPast)) = true ∧ 256 ≤ fMoviPast.d.toNat + 6) ∧
    (guardOpen (.ld fLdPast) (inRep 1 (.ld fLdPast)) = true ∧ 256 ≤ fLdPast.data.toNat + 6) := by
  refine ⟨?_, ?_, ?_, ?_, ?_⟩ <;> decide +kernel
/-- A block at the handle that is not saved, of a unit of its own. -/
theorem witness_ctxsaveWaits : Issues iCtx (sCtx .resident 8) (ctxOf iCtx (sCtx .resident 8)) ∧
    (handleBlk (sCtx .resident 8) 8).map (fun k => (k.id, k.phase)) = some (1, .resident) ∧ (mfind (sCtx .resident 8).blocks 1) = handleBlk (sCtx .resident 8) 8 :=
  ⟨issues_of (by decide +kernel), by decide +kernel⟩
/-- Where the queue is full, a descriptor whose read faults has no record, and no pseudo-channel holds it. -/
def collAt (s : State) : State :=
  let c := ctxOf iColl s
  let m : CMember := { id := s.nextId, pkg := pkgId s, field := 0, blk := 0, tag := 3, src := 0, dst := 0, desc := [] }
  collRead m 0 false (tagIssue c.blk 3 { s with nextId := s.nextId + 1 })
theorem witness_collNoRecord :
    (let s := modFld 0 (fun k => { k with faults := List.replicate 256 (frec 1) }) (host iColl)
     issuesB iColl s = true ∧ (collAt s).collWait.length = 1 ∧ (collAt s).collWait.all (fun w => !spanHeld (collAt s) w.1 0 64) = true ∧
       (collAt s).fields.all (fun e => e.2.faults.all (fun r => match r.src with | .collDesc _ => false | _ => true)) = true ∧
       (collAt s).collWait.all (fun w => s.nextId ≤ w.1.id) = true) ∧
    (let s := mapped2 (host iColl); spanHeld s { (default : CMember) with blk := 0 } 0 64 = false ∧ okB (memberRead { (default : CMember) with blk := 0 } 0 64 s) = true) ∧
    (let s := host iColl; faultRoom (memberRead { (default : CMember) with blk := 0 } 0 64 s).2 0 = true ∧ okB (memberRead { (default : CMember) with blk := 0 } 0 64 s) = false) := by
  refine ⟨?_, ?_, ?_⟩ <;> decide +kernel
def resetK : Collective := coll0 false { phase := 0, reset := true }
/-- A group of fields 0, 1 and 2 over packages 0 and 1. -/
def desc2 : BitVec 512 := 7 ||| (7 <<< 64) ||| (12 <<< 84) ||| (1 <<< 90) ||| (4096 <<< 128) ||| (0x8000 <<< 192) ||| (9 <<< 256)
def coll2 : Collective :=
  { seq := 9, members := [(0, 0), (0, 1), (1, 0)].map (fun x => { id := x.1 + 2 * x.2, pkg := x.1, field := x.2, blk := 0, tag := 0, src := 0, dst := 0, desc := toBytes 64 desc2 })
    started := true, zeroed := true, trees := [[{ pkg := 0, link := 136, a := 64, b := 1 }, { pkg := 0, link := 137, a := 0, b := 64 }]], chunks := [{}] }
/-- A chunk set back by a re-tree; a sender with the root of its package here; a fault of the chunk's tree. -/
theorem witness_chunkForms :
    ((resetK.chunks.getD 1 {}).reset = true ∧ chunkRuns (pkgS 0 resetK) resetK 1 = false ∧ chunkRuns (pkgS 0 fresh0) fresh0 1 = true) ∧
    (let s := mapped2 (pkgS 0 coll2); collOf s 9 = some coll2 ∧ chunkRuns s coll2 0 = true ∧ (chunkTree coll2 0).find? (fun e => e.b == 1) = some { pkg := 0, link := 136, a := 64, b := 1 } ∧
      (memberOf coll2 (gRoot desc2)).map (·.pkg) = some (pkgId s) ∧
      (match nodePartial coll2 {} 0 1 s, memberOf coll2 0 with
       | (.ok _, t), some m => okB (mileWrite coll2 m 0 1 1 t) && !okB (mileWrite coll2 m 0 1 1 (modFld 0 (fun k => { k with walkTlb := [] }) t))
       | _, _ => false) = true) ∧
    (let m : CMember := { mem0 0 with faults := [(0, 1)] }; partWaits fresh0 m 0 = true) := by
  refine ⟨?_, ?_, ?_⟩ <;> decide +kernel
def snapOn (s : State) : State := modBlk 0 (fun k => { k with snapshot := some { members := k.members, consists := [], sidings := [], ready := [], barriers := [] } }) s
/-- A shadowed block that no result differs in; one that rolls back, and one that does not. -/
theorem witness_shadowForms :
    ((getCore sInj 0).laneErr = 0 ∧ ∀ l ∈ (ctxOf iInj sInj).active, (getTh sInj 0 l.2).shadowInj = false) ∧ rollsBack sInj 0 = false ∧
    rollsBack (snapOn { sInj with rcbs := [(0, (1 <<< 67 : BitVec 2048) ||| (1 <<< 92) ||| (3 <<< 68) ||| (1 <<< 93) ||| (1 <<< 95))] }) 0 = true := by decide +kernel
/-- A store with a release, in caches that hold the line whole. -/
theorem witness_releaseFrame : (∃ s c xs s', Roomy c.g (touched xs (widthOf fStRel)) (before c fStRel xs s') ∧ Issues (.st fStRel) s c ∧
      Reaches c (stReq fStRel) (laneAddrs c (addrM c fStRel)) s xs s') ∧
    WholeLines 0 [0] (core0 (fun c => { c with l1 := [(0, line0 1)] }) State.reset) :=
  ⟨⟨mapped (host (.st fStRel)), room_at (by decide +kernel)⟩, by unfold WholeLines; decide +kernel⟩
/-- A move of a killed block's region; a request of the firmware once it runs; a block with nothing due; a sleeper that also waits for its rank. -/
theorem witness_heldForms :
    (let s := { blk0 id with moves := [{ region := 0, lo := 0, n := 65536, dst := 2 ^ 51, pages := [], leaves := [] }] }
     killMoves s { id := 0, blocks := [0], queue := none } = true ∧ killMoves (blk0 id) { id := 0, blocks := [0], queue := none } = false) ∧
    (State.reset.fwUp = false ∧ (asks 2).fwUp = true) ∧
    (let s := core0 (fun c => { c with sidings := [(63, { blk := 0, pc := 0, handler := false, ranks := [0], since := 5, due := true })] }) (blk0 (fun k => { k with phase := .stopping }))
     firstDue s 0 = none) ∧
    (let s := blk0 (fun k => { k with members := [(0, th1 .rankWait [.sleep 9])] }); (getTh s 0 0).waits.findSome? sleepOf = some 9 ∧ (getTh s 0 0).place = .rankWait) ∧
    (let s := { State.reset with agenda := [.measure [1]], fwUp := true }; s.agenda = .measure [1] :: [] ∧ s.fwUp = true ∧ State.reset.fwUp = false) ∧
    (let s := { State.reset with hostUp := true, grants := [7] }; s.hostUp = true ∧ 7 ∈ s.grants) := by
  refine ⟨?_, ?_, ?_, ?_, ?_, ?_⟩ <;> decide +kernel
/-- A row and a stream read that wait for a pseudo-channel which trains. -/
theorem witness_heldReads :
    (let s := sDrill (.dldacc (tD 6 0 0 0 0 15 0 0 0)) (tD 6 0 0 0 0 15 0 0 0) 14 true true 0
     let t := modFld 0 (fun k => { k with retrain := some (pchOf 0) }) s
     rowHeld s 0 (entOf s) = false ∧ rowHeld t 0 (entOf t) = true) ∧
    (let s := sStream 0
     let t := modFld 0 (fun k => { k with retrain := some (pchOf 0) }) s
     vaHeld s 0 (rootOf s 0) (secureOf s 0) 0 0 = false ∧ vaHeld t 0 (rootOf t 0) (secureOf t 0) 0 0 = true) := by
  refine ⟨?_, ?_⟩ <;> decide +kernel
/-- The upper tier is empty, and a core of it has an entry in its FIFO. -/
theorem witness_tierForms : let s := modCore 128 (fun c => { c with fifo := [{ launch := 0, up := true, bytes := [] }] }) State.reset
    (getFld s 0).gated = false ∧ blocksIn s 0 true = [] ∧ (getCore s 128).fifo ≠ [] := by decide +kernel


-- Further hypotheses: forms where something is held, or part of a word's threads fail ----------------------------------------------

/-- A second thread in the consist, whose v14 is 4. -/
def two (s : State) : State :=
  modConsist 0 0 (fun k => { k with slots := some 0 :: some 1 :: List.replicate 30 none })
    (modBlk 0 (fun k => { k with threads := 2, members := k.members ++ [(1, { (getTh s 0 0) with vregs := [(14, 4)] })] }) s)
def sHalf (n : Nat) : State := two (modTag 0 3 (fun t => { t with set := false, count := n }) (host (.fwred fMisaligned)))
/-- One of two result addresses is misaligned: the other's operation just has room on its tag, and has none. -/
theorem witness_fwredForms : (∀ n ∈ [254, 255], let c := ctxOf (.fwred fMisaligned) (sHalf n)
      issues (.fwred fMisaligned) (sHalf n) ∧ c.active.filter (fun l => src64 c l.2 0xE % 8 == 0) = [(0, 0)] ∧ c.active.filter (fun l => !(src64 c l.2 0xE % 8 == 0)) = [(1, 1)]) ∧
    (∀ n ∈ [254, 255], let c := ctxOf (.fwred fMisaligned) (sHalf n)
      let s1 := raiseAt c c.pc [(1, 1)] cMisalign 1 (fun r => BitVec.ofNat 64 (src64 c r 0xE)) (sHalf n)
      (getTag (getBlk s1 0) 3).count = n ∧ (getSlice s1 0 7).queue = []) := by
  refine ⟨fun n hn => ⟨issues_is ?_, ?_⟩, ?_⟩
  · revert n; decide +kernel
  · revert n; decide +kernel
  · decide +kernel
/-- Field 0's pseudo-channel `p` trains. -/
def trains (p : Nat) (s : State) : State := modFld 0 (fun k => { k with retrain := some p }) s
/-- The page of a launch image is found in tables whose pseudo-channel trains; a record whose image was read there. -/
theorem witness_launchHeld :
    (let s := trains (pchOf 0) { host iLaunch with mem := tables, rcbs := [(0, 0)] }
     Issues iLaunch s (ctxOf iLaunch s) ∧ (match resolve 0 0 { space := 0, n := 64, align := true, acc := 0, detail := 0, code := 0, pt := 2 } 0 (release 0 2 s) with
       | (.loc _, s2) => !(heldReach (release 0 2 s) s2).isEmpty | _ => false) = true) ∧
    (let s := trains 31 { blk0 id with inflight := [{ inFl none with pchs := [(0, 31)] }] }; (s.inflight[0]?).map (fun x => x.pchs.any (pchHeld s)) = some true) :=
  ⟨⟨issues_of (by decide +kernel), by decide +kernel⟩, by decide +kernel⟩
/-- A record of one f32 element that crosses from one pseudo-channel, or page, to the next. -/
def recAcross (base : Nat) : BitVec 1024 := BitVec.ofNat 1024 base ||| (12 <<< 64) ||| (2 <<< 69) ||| (1 <<< 128) ||| (1 <<< 160) ||| (64 <<< 320) ||| (31 <<< 576) ||| (31 <<< 588)
def sAcross (base p : Nat) : State :=
  let i : Instr := .dldacc (tD 6 0 0 0 0 15 0 0 0)
  let s := sDrill i (tD 6 0 0 0 0 15 0 0 0) 12 true true 0
  trains p (drl (fun d => { d with table := d.table.map (fun e => { e with recA := some (recAcross base) }) }) s)
/-- A row that reaches a pseudo-channel which holds it, at its end and at a fault. -/
theorem witness_rowReaches :
    (let s := sAcross 0xFE (pchOf 0x100); rowHeld s 0 (entOf s) = false ∧
      (match dldaccRow 0 (entOf s) (entOf s).cmd s with | .done _ t => !(heldReach s t).isEmpty | _ => false) = true) ∧
    (let s := sAcross 0xFFE (pchOf 0); rowHeld s 0 (entOf s) = false ∧
      (match dldaccRow 0 (entOf s) (entOf s).cmd s with | .fault _ _ t => !(heldReach s t).isEmpty && faultRoom t 0 | _ => false) = true) := by
  refine ⟨?_, ?_⟩ <;> decide +kernel
def sStopping : State :=
  core0 (fun c => { c with tlb := [{ root := 0, va := 0, log2 := 12, pa := 0, w := true, x := true, d := true, secure := false }] })
    (termMap (blk0 (fun k => { k with phase := .stopping, members := [(0, th1 .ready [])] })))
/-- A block whose image goes where no pseudo-channel holds it, and where one does. -/
theorem witness_saveServed : (let s0 := modBlk 0 (fun k => { k with saving := true }) sStopping;
      mayStop sStopping 0 = true ∧ saveHeld s0 (getBlk s0 0) = false ∧ heldReach s0 (saveBlock 0 s0) = []) ∧
    (let s0 := modBlk 0 (fun k => { k with saving := true }) (trains 0 sStopping);
      mayStop (trains 0 sStopping) 0 = true ∧ saveHeld s0 (getBlk s0 0) = false ∧ heldReach s0 (saveBlock 0 s0) ≠ []) := by
  refine ⟨?_, ?_⟩ <;> decide +kernel
/-- An event answers, and what it has reached of a pseudo-channel that holds its accesses is, or is not, nothing. -/
def reaches (i : Instr) (s : State) : Option Bool :=
  match exec i s with
  | .next t => some (!(heldReach s t).isEmpty)
  | _ => none
def hostWrite : Instr := .hostAccess 0 true [7]
/-- The host writes where nothing holds it, where a pseudo-channel does, and behind another of its accesses that waits; a block to pre-empt. -/
theorem witness_heldEvents :
    (∀ (r : List Act), let s := { State.reset with hostUp := true }
      ({ s with agenda := .event hostWrite :: r } : State).agenda = .event hostWrite :: r ∧ isWord hostWrite = false ∧ fromHost hostWrite = true ∧ s.heldEvs = []) ∧
    (reaches hostWrite { State.reset with hostUp := true } = some false ∧ reaches hostWrite (trains 0 { State.reset with hostUp := true }) = some true) ∧
    (let s : State := { State.reset with hostUp := true, heldEvs := [([(0, 5)], hostWrite)] }; reaches hostWrite s = some false ∧ ∃ e ∈ s.heldEvs, fromHost e.2 = true) ∧
    (({ State.reset with agenda := [.served hostWrite] } : State).agenda = [.served hostWrite]) ∧
    (({ blk0 id with agenda := [.preempt 0], fwUp := true } : State).agenda = [.preempt 0] ∧ State.reset.fwUp = false) := by
  refine ⟨fun r => ⟨rfl, ?_⟩, ?_, ?_, ?_, ?_⟩ <;> decide +kernel
/-- A launch record of a request older than the block's last barrier, and one as old. -/
theorem witness_lateRecord : let s := { snapOn (blk0 id) with inflight := [inFl none] }
    (s.inflight[0]?).map (fun x => (x.entry, x.pchs.any (pchHeld s))) = some (none, false) ∧
    (let u := modBlk 0 (fun k => { k with snapshot := k.snapshot.map (fun n => { n with mark := 5 }) }) s; (getBlk u 0).snapshot.map (fun n => decide ((inFl none).out < n.mark)) = some true) ∧
    (let u := modBlk 0 (fun k => { k with snapshot := k.snapshot.map (fun n => { n with mark := 4 }) }) s; (getBlk u 0).snapshot.map (fun n => decide ((inFl none).out < n.mark)) = some false) := by
  refine ⟨?_, ?_, ?_⟩ <;> decide +kernel
/-- A collective that has started and whose mileposts are not zeroed. -/
theorem witness_zeroing : let k := { coll0 false {} with zeroed := false }; collOf (pkgS 1 k) 9 = some k ∧ k.started = true ∧ k.zeroed = false := by
  refine ⟨?_, ?_, ?_⟩ <;> decide +kernel
/-- A region whose policy is to kill, with a queue and a block on it; a deferred cause of a thread that waits; the end of a training. -/
theorem witness_policyForms :
    (let s := { trapped 0 .raised (some info) [] with rcbs := [(0, (1 <<< 65 : BitVec 2048) ||| (1 <<< 89))], queues := [(0, { state := .active, wr := 0 })] }
     (getTh s 0 0).raised = some info ∧ regTrapEntry s 0 = 0 ∧ regFaultPol s 0 = 1 ∧ mfind s.queues 0 ≠ none ∧ (getQ s 0).state = .active ∧ below s 0 (qRegion (getQ s 0)) = true ∧
       (getBlk s 0).queue = 0 ∧ (getBlk s 0).phase = .resident) ∧
    (let s := thr (fun t => { t with waits := [.sleep 9] }) (trapped 0x40 .normal none [info])
     (getTh s 0 0).deferred = [info] ∧ (getTh s 0 0).trap = .normal ∧ (getTh s 0 0).raised = none ∧ (getTh s 0 0).waits = [.sleep 9] ∧ regTrapEntry s (getBlk s 0).region = 0x40) ∧
    (∀ d ∈ [true, false], (getLink (linkS 151 { state := 2, disable := d }) 151).state = 2 ∧ (getLink (linkS 151 { state := 2, disable := d }) 151).disable = d) := by
  refine ⟨?_, ?_, ?_⟩ <;> decide +kernel


-- Single steps: results computed by hand from the rules ------------------------------------------------------------------------------

/-- A register of thread 0 after one step on the given v registers. -/
def after (i : Instr) (regs : SMap Word) (num : Nat) : Option Word :=
  match step (thr (fun t => { t with vregs := regs }) (host i)) with
  | .next t => some (regAt t 0 0 num)
  | _ => none
/-- The same with page 0 mapped and some memory. -/
def afterMem (i : Instr) (regs : SMap Word) (mem : List Host.Cell) (f : State → Nat) : Option Nat :=
  match step { thr (fun t => { t with vregs := regs }) (mapped (host i)) with mem := mem } with
  | .next t => some (f t)
  | _ => none
theorem test_add_sat : after (.add (tA 4 1 2 null 6 1 0)) [(1, 0x7FFFFFFF), (2, 1)] 4 = some 0x7FFFFFFF := by decide +kernel
theorem test_sub_wrap : after (.sub (tA 4 1 2 null 10 0 0)) [(2, 1)] 4 = some 0xFFFFFFFF := by decide +kernel
theorem test_addc_carry : after (.addc (tA 4 1 2 0x143 10 0 0)) [(1, 0xFFFFFFFF), (2, 1)] 0x143 = some 1 := by decide +kernel
theorem test_mulhi_signed : after (.mulhi (tA 4 1 2 null 6 0 0)) [(1, 0xFFFFFFFF), (2, 1)] 4 = some 0xFFFFFFFF := by decide +kernel
theorem test_div_zero : after (.div (tA 4 1 2 null 6 0 0)) [(1, 0xFFFFFFFF)] 4 = some 0x80000000 := by decide +kernel
theorem test_div_truncates : after (.div (tA 4 1 2 null 6 0 0)) [(1, 0xFFFFFFF9), (2, 2)] 4 = some 0xFFFFFFFD := by decide +kernel
theorem test_rem_sign : after (.rem (tA 4 1 2 null 6 0 0)) [(1, 0xFFFFFFF9), (2, 2)] 4 = some 0xFFFFFFFF := by decide +kernel
theorem test_sar_far : after (.sar (tA 4 1 7 null 6 0 0)) [(1, 0x80000000), (7, 40)] 4 = some 0xFFFFFFFF := by decide +kernel
theorem test_shl_width : after (.shl (tA 4 1 7 null 10 0 0)) [(1, 1), (7, 32)] 4 = some 0 := by decide +kernel
theorem test_rot : after (.rot (tA 4 1 7 null 10 0 0)) [(1, 0x80000001), (7, 33)] 4 = some 3 := by decide +kernel
theorem test_clz_zero : after (.clz (tA 4 1 null null 2 0 0)) [] 4 = some 32 := by decide +kernel
theorem test_cmp_less : after (.cmp (tA 0x141 1 2 null 6 2 0)) [(1, 0xFFFFFFFF)] 0x141 = some 1 := by decide +kernel
theorem test_movi_signed : after (.movi (tI 4 null 7 0 0xDEADBEEF)) [] 5 = some 0xFFFFFFFF := by decide +kernel
theorem test_fma_fused : after (.fma (tA 4 1 2 3 12 0 0)) [(1, 0x3F800001), (2, 0x3F800001), (3, 0xBF800002)] 4 = some 0x28800000 := by decide +kernel
theorem test_fmin_nan : after (.fmin (tA 4 1 2 null 12 0 0)) [(1, 0x7FC00000), (2, 0x3F800000)] 4 = some 0x3F800000 := by decide +kernel
theorem test_fsqrt_two : after (.fsqrt (tA 4 1 null null 12 0 0)) [(1, 0x40000000)] 4 = some 0x3FB504F3 := by decide +kernel
theorem test_cvts_clamps : after (.cvts (tA 4 1 null null 4 6 0)) [(1, 300)] 4 = some 127 := by decide +kernel
theorem test_ballot_self : after (.ballot (tA 4 0x147 null null 0 0 0)) [] 4 = some 1 := by decide +kernel
theorem test_call_link : after (.call (tI 8 null 0 0 0x1234)) [] 8 = some 0x18 := by decide +kernel
theorem test_gets_trank : after (.gets (tA 4 null null null 0 0 0)) [(4, 9)] 4 = some 0 := by decide +kernel
theorem test_ld_low_byte_first : afterMem (.ld (tM 8 6 null 2 0 0 0 0 0x40)) [] [(0x40, 1), (0x43, 0x80)] (fun t => (regAt t 0 0 8).toNat) = some 0x80000001 := by decide +kernel
theorem test_st_weak_stays : afterMem (.st (tM 8 6 null 2 0 0 0 0 0x40)) [(8, 0x11223344)] [] (fun t => (coreByte t 0 0x40).toNat + 256 * (memGet t.mem 0x40).toNat) = some 0x44 := by decide +kernel
theorem test_st_release_home : afterMem (.st (tM 8 6 null 2 0 2 2 0 0x40)) [(8, 0x11223344)] [] (fun t => (memGet t.mem 0x43).toNat) = some 0x11 := by decide +kernel
theorem test_atom_add_old : afterMem (.atom (tM 8 6 12 2 0 3 2 0 0x40)) [(12, 5)] [(0x40, 7)] (fun t => (regAt t 0 0 8).toNat + 256 * (memGet t.mem 0x40).toNat) = some (7 + 256 * 12) := by
  decide +kernel
theorem test_cas_fails : afterMem (.cas (tM 8 6 12 2 0 3 2 0 0x40)) [(8, 6), (12, 5)] [(0x40, 7)] (fun t => (regAt t 0 0 8).toNat + 256 * (memGet t.mem 0x40).toNat) = some (7 + 256 * 7) := by
  decide +kernel
/-- `trap` records its cause, with the PC of the slot after it (R85). -/
theorem test_trap_raised : (match step (host (.trap (tI null null 0 0 0x7B))) with | .next t => (getTh t 0 0).raised.map (fun i => (i.detail, i.pc)) | _ => none) = some (0x7B, 0x18) := by decide +kernel
theorem test_undefined_opcode : (match step (host iUndef) with | .next t => (getTh t 0 0).raised.map (·.pc) | _ => none) = some 0xC := by decide +kernel
theorem test_doorbell_overrun : (match step { qOn 255 (fun k => { k with desc := 12 <<< 52 }) State.reset with agenda := [.event (.doorbell 255 4097)] } with
    | .next t => (getQ t 255).state == .faulted | _ => false) = true := by decide +kernel
theorem test_launch_overrun_kept : (match step { State.reset with agenda := [.event (.counterDecrement 0)], decs := [4095], depctr := [(4095, 2)] } with
    | .next t => mget 0 t.depctr 4095 | _ => 0) = 1 := by decide +kernel

-- What the checks of well-formedness refuse -------------------------------------------------------------------------------------------

theorem test_illFormed_header : ([tH 0 0 16 16 0, tH 0 25 16 16 0, tH 0 1 12 16 0, tH 0 1 16 15 0, { tH 0 1 16 16 0 with rsv := 1 }, { tH 0 1 16 16 0 with g := { gd with pred := 0 } }] : List FmtH).all
    (fun f => !wellFormed (.clause f)) = true := by decide +kernel
theorem test_illFormed_variant : ([.marshal (tA null null null null 0 1 0), .marshalRank (tA null null null null 0 0 0), .preemptOff (tA null null null null 0 1 0), .preemptOn (tA null null null null 0 0 0),
    .tlbinvVa (tA null 6 8 null 0 1 0), .tlbinvRoot (tA null null 8 null 0 0 0), .tlbinvAll (tA null null null null 0 3 0), .dbarBar (tD 0 0 0 0 0 0 0 0 16), .dbarReady (tD 0 0 0 0 0 0 0 0 0),
    .undefinedOpcode 0] : List Instr).all (fun i => !wellFormed i) = true := by decide +kernel
/-- FX, a type, a destination, each operand kind, MODS, IMM20, the lane modifier (R314-R327, R338, R375-R377). -/
theorem test_illFormed_formA : ([.add { tA 4 1 2 null 6 0 0 with g := { gd with fx := 1 } }, .add (tA 4 1 2 null 12 0 0), .add (tA 0x141 1 2 null 6 0 0), .add (tA 4 0x141 2 null 6 0 0), .add (tA 4 1 2 5 6 0 0),
    .add (tA 4 3 2 null 7 0 0), .add (tA 4 1 2 null 6 2 0), .add (tA 4 1 2 null 6 0 1), .add { tA 4 1 2 null 6 0 0 with am := 0x300 }, .add (tA 4 0x199 2 null 6 0 0), .cmp (tA 0x141 1 2 null 2 2 0),
    .pand (tA 0x141 1 0x142 null 0 0 0), .accrd (tA 4 1 2 null 2 0 0), .madw (tA 4 1 2 7 6 0 0), .reduce (tA 4 1 null null 2 0 0), .gets (tA 4 null null null 0 0 0x7F),
    .shl (tA 4 1 0x199 null 10 0 0)] : List Instr).all (fun i => !wellFormed i) = true := by decide +kernel
theorem test_illFormed_other : ([.br (tI 4 null 0 0 0), .trap (tI null null 0 0 256), .movi (tI 4 null 4 0 0x80), .repeatN (tI null null 0 0x20 1), .ld (tM 0x108 6 null 2 0 0 0 0 0), .ld (tM 9 6 null 3 0 0 0 0 0),
    .ld (tM 8 7 null 2 0 0 0 0 0), .ld (tM 8 6 null 2 5 0 0 0 0), .ld (tM 8 6 null 5 0 0 0 0 0), .ld (tM 8 6 null 2 0 2 0 0 0), .st (tM 8 6 null 2 0 0 0 3 0), .atom (tM 8 6 12 1 0 0 0 0 0),
    .tcopy (tE null 0x10 1 3 3 0x14 0), .fwop (tE 0xD 0xF 0 1 0 0xC 0x03800000), .coll (tE null 0x104 0 0 0x109 0x106 0)] : List Instr).all (fun i => !wellFormed i) = true := by decide +kernel
/-- Predecessor fields without their valid bit, a tile or record slot unused but named, reserved CTL bits (R328, R346). -/
theorem test_illFormed_drill : ([.dnop (tD 0 0 1 0 0 0 0 0 0), .dnop (tD 0 0 0 0 1 0 0 0 0), .dnop (tD 0 0 0 0 0 1 0 0 0), .dzero (tD 0 0 0 0 0 0 1 0 0), .dldacc (tD 0 0 0 0 0 0 0 1 0),
    .dzero (tD 0 0 0 0 0 0 0 0 1)] : List Instr).all (fun i => !wellFormed i) = true := by decide +kernel
theorem test_illFormed_event : ([.yieldExpiry 16384 0, .yieldExpiry 0 64, .clauseEnd 16384, .sidingDue 0 64, .consistForm 16384 (.siding 0), .shadowCompare 16384 0, .spill 0 0 2048 0, .sleepExpiry 0 2048,
    .trip 64 0 0, .wpartSwitchPoint 0 8, .pcpwrActive 0 32, .ftwctlWrite 0 16 0, .signalBoxEvent 12, .doorbell 256 0, .depctrWrite 4096 0, .linkFailure 256, .registerWrite (2 ^ 42) 0,
    .hostAccess (2 ^ 52) false []] : List Instr).all (fun i => !wellFormed i) = true := by decide +kernel

end Sys2Proof.Tests
end

section
/-! Home memory (R138, assumption 1): what a sparse map of bytes reads after each of its writes, and that canonical memories which read alike are one list. -/
namespace Sys2Proof.Machine

-- Sparse maps ------------------------------------------------------------------------------------------

theorem mfind_append {α : Type} (m m' : SMap α) (i : Nat) : mfind (m ++ m') i = (mfind m i).or (mfind m' i) := by
  induction m with
  | nil => simp [mfind]
  | cons e m ih =>
    simp only [List.cons_append, mfind, ih]
    split <;> simp

/-- A filter that looks at keys only keeps or drops the whole entry of a key. -/
theorem mfind_filter_key {α : Type} (m : SMap α) (p : Nat → Bool) (i : Nat) : mfind (m.filter (fun e => p e.1)) i = if p i then mfind m i else none := by
  induction m with
  | nil => simp [mfind]
  | cons e m ih =>
    obtain ⟨k, v⟩ := e
    by_cases hk : k = i
    · subst hk
      cases hp : p k <;> simp [hp, mfind, ih]
    · cases hp : p k <;> simp [hp, mfind, ih, hk]

theorem mfind_eq_none_of_forall_ne {α : Type} (m : SMap α) (i : Nat) (h : ∀ e ∈ m, e.1 ≠ i) : mfind m i = none :=
  Option.eq_none_iff_forall_ne_some.2 fun x hx => h (i, x) (mem_of_mfind m i x hx) rfl

/-- In a map with rising keys every entry is the one its key finds. -/
theorem mfind_of_mem {α : Type} (m : SMap α) (hm : m.Pairwise (fun c d => c.1 < d.1)) (i : Nat) (x : α) (h : (i, x) ∈ m) : mfind m i = some x := by
  induction m with
  | nil => simp at h
  | cons e m ih =>
    obtain ⟨hlt, hm⟩ := List.pairwise_cons.1 hm
    rcases List.mem_cons.1 h with rfl | h
    · simp [mfind]
    · simp [mfind, (hlt _ h).ne, ih hm h]

/-- A map with rising keys is determined by its entries. -/
theorem eq_of_pairwise_of_mem_iff {α : Type} (m m' : SMap α) (hm : m.Pairwise (fun c d => c.1 < d.1)) (hm' : m'.Pairwise (fun c d => c.1 < d.1))
    (h : ∀ e, e ∈ m ↔ e ∈ m') : m = m' :=
  have : Std.Irrefl (fun c d : Nat × α => c.1 < d.1) := ⟨fun c => Nat.lt_irrefl c.1⟩
  have : Std.Antisymm (fun c d : Nat × α => c.1 < d.1) := ⟨fun _ _ hcd hdc => absurd hcd hdc.asymm⟩
  hm.eq_of_mem_iff hm' h

-- One byte ---------------------------------------------------------------------------------------------

/-- A byte written reads back, and no other byte changes. The default is written by removing the entry. -/
theorem memGet_memPut (m : List Host.Cell) (a x : Nat) (v : Byte) : memGet (memPut m a v) x = if x = a then v else memGet m x := by
  unfold memPut memGet
  split
  · rename_i hv
    subst hv
    simp only [mget, mfind_mdel]
    split <;> rfl
  · exact mget_mput memDefault m a x v

-- An area ----------------------------------------------------------------------------------------------

theorem mfind_maskCells_outside (old : List Host.Cell) (a : Nat) (bs : List (Bool × Byte)) (x : Nat) (hx : ¬(a ≤ x ∧ x < a + bs.length)) :
    mfind (maskCells old a bs) x = none :=
  mfind_eq_none_of_forall_ne _ _ fun c hc he => by
    obtain ⟨hlo, hhi, -⟩ := (maskCells_form old bs a).1 c hc
    exact hx ⟨he ▸ hlo, he ▸ hhi⟩

/-- Inside the area a cell reads as the mask says: the byte written, or the byte that stood there. -/
theorem memGet_maskCells (old : List Host.Cell) (bs : List (Bool × Byte)) (a i : Nat) (hi : i < bs.length) :
    memGet (maskCells old a bs) (a + i) = if bs[i].1 then bs[i].2 else memGet old (a + i) := by
  induction bs generalizing a i with
  | nil => simp at hi
  | cons e bs ih =>
    obtain ⟨k, b⟩ := e
    simp only [maskCells]
    cases i with
    | zero =>
      have htail : mfind (maskCells old (a + 1) bs) a = none := mfind_maskCells_outside _ _ _ _ (by omega)
      simp only [Nat.add_zero, List.getElem_cons_zero]
      generalize (if k = true then b else memGet old a) = v
      split
      · rename_i hv
        simp [memGet, mget, htail, hv]
      · simp [memGet, mget, mfind]
    | succ i =>
      have htail := ih (a + 1) i (Nat.lt_of_succ_lt_succ hi)
      rw [show a + 1 + i = a + (i + 1) by omega] at htail
      rw [List.getElem_cons_succ, ← htail]
      generalize (if k = true then b else memGet old a) = v
      split
      · rfl
      · simp [memGet, mget, mfind]

/-- A masked write replaces the entries of its area by the cells the mask chooses and keeps those below and above. -/
theorem mfind_memPutMask (m : List Host.Cell) (a x : Nat) (bs : List (Bool × Byte)) :
    mfind (memPutMask m a bs) x =
      if a ≤ x ∧ x < a + bs.length then mfind (maskCells (m.filter (fun c => a ≤ c.1 && c.1 < a + bs.length)) a bs) x else mfind m x := by
  unfold memPutMask
  rw [mfind_append, mfind_append, mfind_filter_key m (fun k => decide (k < a)), mfind_filter_key m (fun k => decide (a + bs.length ≤ k))]
  by_cases hx : a ≤ x ∧ x < a + bs.length
  · simp [hx, Nat.not_lt.2 hx.1, Nat.not_le.2 hx.2]
  · rw [mfind_maskCells_outside _ _ _ _ hx]
    by_cases hlo : x < a
    · simp [hx, hlo, show ¬ a + bs.length ≤ x by omega]
    · simp [hx, hlo, show a + bs.length ≤ x by omega]

theorem memGet_memPutMask_outside (m : List Host.Cell) (a x : Nat) (bs : List (Bool × Byte)) (hx : ¬(a ≤ x ∧ x < a + bs.length)) :
    memGet (memPutMask m a bs) x = memGet m x := by
  simp only [memGet, mget, mfind_memPutMask, if_neg hx]

theorem memGet_memPutMask_inside (m : List Host.Cell) (a i : Nat) (bs : List (Bool × Byte)) (hi : i < bs.length) :
    memGet (memPutMask m a bs) (a + i) = if bs[i].1 then bs[i].2 else memGet m (a + i) := by
  have harea : a ≤ a + i ∧ a + i < a + bs.length := by omega
  have hcells := memGet_maskCells (m.filter (fun c => a ≤ c.1 && c.1 < a + bs.length)) bs a i hi
  simp only [memGet, mget] at hcells ⊢
  rw [mfind_memPutMask, if_pos harea, hcells, mfind_filter_key m (fun k => a ≤ k && k < a + bs.length)]
  simp [hi]

/-- Bytes written from an address up are read there, and no other byte changes. -/
theorem memGet_memPuts (m : List Host.Cell) (a x : Nat) (bs : List Byte) :
    memGet (memPuts m a bs) x = if a ≤ x ∧ x < a + bs.length then bs.getD (x - a) 0 else memGet m x := by
  unfold memPuts
  split
  · rename_i hx
    obtain ⟨i, rfl⟩ := Nat.exists_eq_add_of_le hx.1
    have hi : i < bs.length := by omega
    rw [memGet_memPutMask_inside m a i _ (by simpa using hi)]
    simp [hi]
  · rename_i hx
    exact memGet_memPutMask_outside m a x _ (by simpa using hx)

theorem getD_memBytes (m : List Host.Cell) (a n i : Nat) (hi : i < n) : (memBytes m a n).getD i 0 = memGet m (a + i) := by
  simp [memBytes, hi]

-- Equal data -------------------------------------------------------------------------------------------

/-- The entries of a canonical memory are its bytes that are not the default. -/
theorem mem_iff_memGet_of_wf (m : List Host.Cell) (hm : Memory.wf m = true) (a : Nat) (v : Byte) : (a, v) ∈ m ↔ v ≠ memDefault ∧ memGet m a = v := by
  obtain ⟨hrise, hval⟩ := (wf_iff m).1 hm
  constructor
  · intro h
    exact ⟨hval _ h, by simp [memGet, mget, mfind_of_mem m hrise a v h]⟩
  · rintro ⟨hv, rfl⟩
    cases hf : mfind m a with
    | none => simp [memGet, mget, hf] at hv
    | some w =>
      rw [memGet, mget, hf]
      exact mem_of_mfind m a w hf

theorem eq_of_wf_of_memGet_eq (m m' : List Host.Cell) (hm : Memory.wf m = true) (hm' : Memory.wf m' = true) (h : ∀ a, memGet m a = memGet m' a) : m = m' :=
  eq_of_pairwise_of_mem_iff m m' ((wf_iff m).1 hm).1 ((wf_iff m').1 hm').1 fun ⟨a, v⟩ => by
    rw [mem_iff_memGet_of_wf m hm, mem_iff_memGet_of_wf m' hm', h a]

/-- Settles O53: a read after each write by the keys the write touches, and equality by the entries that reads determine. -/
theorem homeMemoryReads : Obligations.HomeMemoryReads :=
  ⟨memGet_memPut, fun m a x bs _ => memGet_memPuts m a x bs, wf_memPut, wf_memPuts, getD_memBytes, eq_of_wf_of_memGet_eq⟩

end Sys2Proof.Machine
end

section
/-! What every step keeps (R26, R27, R230): the end of a step stamps every consist anew, so an eligible one is where R26 wants it. -/
namespace Sys2Proof.Machine

/-- The stamp of R26 is given only to a consist of a resident block that waits on no fetch, at a boundary or in a suspended clause. -/
theorem eligibleNow_placed {s : State} {g cn : Nat} {k : Consist} (h : eligibleNow s g cn k = true) :
    (getBlk s k.blk).phase = .resident ∧ k.fetchWait = none ∧ ∀ cl, k.clause = some cl → cl.suspended = true := by
  simp only [eligibleNow, Bool.and_eq_true, beq_iff_eq, Option.isNone_iff_eq_none] at h
  obtain ⟨⟨⟨hphase, hfetch⟩, -⟩, hclause⟩ := h
  refine ⟨hphase, hfetch, fun cl hcl => ?_⟩
  by_contra hrun
  simp [hcl, hrun] at hclause

/-- A numbered consist of a core as `settle` stamps it. -/
def stamped (s : State) (g : Nat) (x : Nat × Consist) : Nat × Consist :=
  (x.1, { x.2 with eligible := if eligibleNow s g x.1 x.2 then some (x.2.eligible.getD s.ticks) else none })

theorem settle_cores (s : State) : (settle s).cores = s.cores.map (fun e => (e.1, { e.2 with consists := e.2.consists.map (stamped s e.1) })) := rfl
@[simp] theorem getBlk_settle (s : State) (b : Nat) : getBlk (settle s) b = getBlk s b := rfl

theorem eligibleNow_of_stamped {s : State} {g : Nat} {x : Nat × Consist} (h : (stamped s g x).2.eligible ≠ none) : eligibleNow s g x.1 x.2 = true := by
  by_contra hnow
  simp [stamped, hnow] at h

/-- Stamping leaves no consist marked that is not eligible now. -/
theorem settled_settle (s : State) : Settled (settle s) := by
  intro e he x hx hmark
  rw [settle_cores] at he
  obtain ⟨e₀, -, rfl⟩ := List.mem_map.1 he
  obtain ⟨x₀, -, rfl⟩ := List.mem_map.1 hx
  rw [getBlk_settle]
  exact eligibleNow_placed (eligibleNow_of_stamped (x := x₀) hmark)

theorem Settled.congr {s t : State} (hcores : t.cores = s.cores) (hblocks : t.blocks = s.blocks) (h : Settled s) : Settled t := by
  unfold Settled getBlk
  rw [hcores, hblocks]
  exact h

/-- `finish` ends with the stamping; what it clears after it holds no consist. -/
theorem settled_finish (s : State) : Settled (finish s) :=
  Settled.congr rfl rfl (settled_settle (serveEvents (finishColls (finishReplays (sendSpills (keepFills (trimFiles s)))))))

/-- Settles O51: whatever a step does, it ends in `finish`, which stamps every consist anew. -/
theorem eligibleConsistsKept : Obligations.EligibleConsistsKept := by
  intro s t _ h
  obtain ⟨u, rfl⟩ := step_finish h
  exact settled_finish u

end Sys2Proof.Machine
end

section
/-! What a step runs (R26, R27, R147, R148, R172, R219, R299, R305): an equation of `step` for each head of the agenda, and for each agent in turn. -/
namespace Sys2Proof.Machine

-- The agent in turn --------------------------------------------------------------------------------------------

theorem step_of_nextInstr {s : State} {i : Instr} (hagenda : s.agenda = []) (hnext : nextInstr s = some i) : step s = ended (exec i s) := by
  simp [step, hagenda, hnext, run]

theorem nextInstr_clause {s : State} {g cn : Nat} {k : Consist} {cl : Clause} (hturn : s.turn = .core g) (hpick : pick s g = some cn)
    (hk : consistOf s g cn = some k) (hcl : k.clause = some cl) :
    nextInstr s = if clauseOver s k cl then some (.clauseEnd g) else some (decodeWord (cl.words.getD (1 + cl.issued) 0)) := by
  simp only [nextInstr, hturn, nextOnCore, hpick, hk, hcl]
theorem nextInstr_boundary {s : State} {g cn : Nat} {k : Consist} (hturn : s.turn = .core g) (hpick : pick s g = some cn) (hk : consistOf s g cn = some k)
    (hcl : k.clause = none) : nextInstr s = some (decodeWord (peekHeader s g k)) := by
  simp only [nextInstr, hturn, nextOnCore, hpick, hk, hcl]

theorem nextInstr_drill {s : State} {b uid : Nat} {e : DEnt} (hturn : s.turn = .drill b uid)
    (hfind : (getBlk s b).drill.table.find? (fun e => e.uid == uid) = some e) (hdone : e.done = false) (hcmd : isDrillCmd e.instr = true) :
    nextInstr s = some e.instr := by
  simp [nextInstr, hturn, nextOnDrill, hfind, hdone, hcmd]

-- Events on the agenda -------------------------------------------------------------------------------------------

theorem step_event {s t : State} {i : Instr} {rest : List Act} (hagenda : s.agenda = .event i :: rest) (hword : isWord i = false)
    (hexec : exec i { s with agenda := rest } = .next t) : step s = .next (finish (eventEnd false i { s with agenda := rest } t)) := by
  simp [step, hagenda, hword, runEvent, hexec]

theorem step_served {s t : State} {i : Instr} {rest : List Act} (hagenda : s.agenda = .served i :: rest) (hword : isWord i = false)
    (hexec : exec i { s with agenda := rest } = .next t) : step s = .next (finish (eventEnd true i { s with agenda := rest } t)) := by
  simp [step, hagenda, hword, runEvent, hexec]

/-- An event of the host stands behind another of the host's that waits (R172). -/
def behindHost (i : Instr) (s : State) : Prop := fromHost i = true ∧ ∃ e ∈ s.heldEvs, fromHost e.2 = true

theorem eventEnd_free {i : Instr} {s t : State} (hreach : heldReach s t = []) (hhost : ¬ behindHost i s) : eventEnd false i s t = t := by
  have hgo : ((heldReach s t).isEmpty && !(fromHost i && s.heldEvs.any (fun e => fromHost e.2))) = true := by
    rw [hreach, List.isEmpty_nil, Bool.true_and, Bool.not_eq_true', Bool.eq_false_iff, ne_eq, Bool.and_eq_true]
    exact fun ⟨hi, hany⟩ => hhost ⟨hi, List.any_eq_true.1 hany⟩
  simp only [eventEnd, Bool.false_eq_true, if_false, hgo, if_true]

theorem eventEnd_waits {i : Instr} {s t : State} (h : heldReach s t ≠ [] ∨ behindHost i s) :
    eventEnd false i s t = { s with heldEvs := s.heldEvs ++ [(heldReach s t, i)] } := by
  have hwait : ((heldReach s t).isEmpty && !(fromHost i && s.heldEvs.any (fun e => fromHost e.2))) = false := by
    rcases h with hreach | ⟨hi, hany⟩
    · simp [hreach]
    · simp [hi, List.any_eq_true.2 hany]
  simp only [eventEnd, Bool.false_eq_true, if_false, hwait]

theorem eventEnd_served_free {i : Instr} {s t : State} (hreach : heldReach s t = []) : eventEnd true i s t = t := by
  simp [eventEnd, hreach]

theorem eventEnd_served_waits {i : Instr} {s t : State} (hreach : heldReach s t ≠ []) :
    eventEnd true i s t = { s with heldEvs := (heldReach s t, i) :: s.heldEvs } := by
  simp [eventEnd, hreach]

-- The signal box's own measurements and requests -------------------------------------------------------------------

theorem step_preempt {s : State} {b : Nat} {rest : List Act} (hagenda : s.agenda = .preempt b :: rest) :
    step s = .next (finish (if s.fwUp then preemptUnit b { s with agenda := rest } else { s with agenda := rest })) := by
  simp [step, hagenda, preemptAsked]

theorem step_measure {s : State} {o : List Byte} {rest : List Act} (hagenda : s.agenda = .measure o :: rest) :
    step s = .next (finish (if s.fwUp then { s with agenda := rest, meas := extendMeas s.meas o } else { s with agenda := rest })) := by
  simp [step, hagenda, measureOwn]

/-- Settles O49: by the head of the agenda, and by the agent in turn where it is empty. -/
theorem stepRunsDecoded : Obligations.StepRunsDecoded := by
  refine ⟨?_, ?_, ?_, ?_, ?_, ?_, ?_, ?_, ?_, ?_⟩
  · intro s g cn k cl hagenda hturn hpick hk hcl hover
    exact step_of_nextInstr hagenda (by rw [nextInstr_clause hturn hpick hk hcl, hover]; rfl)
  · intro s g cn k cl hagenda hturn hpick hk hcl hover
    exact step_of_nextInstr hagenda (by rw [nextInstr_clause hturn hpick hk hcl, hover]; rfl)
  · intro s g cn k hagenda hturn hpick hk hcl
    exact step_of_nextInstr hagenda (nextInstr_boundary hturn hpick hk hcl)
  · intro s b uid e hagenda hturn hfind hdone hcmd
    exact step_of_nextInstr hagenda (nextInstr_drill hturn hfind hdone hcmd)
  · intro s t i rest hagenda hword hexec ps behind
    rw [step_event hagenda hword hexec]
    exact ⟨fun hreach hhost => by rw [eventEnd_free hreach hhost], fun hwait => by rw [eventEnd_waits hwait]⟩
  · intro s t i rest hagenda hword hexec ps
    rw [step_served hagenda hword hexec]
    exact ⟨fun hreach => by rw [eventEnd_served_free hreach], fun hreach => by rw [eventEnd_served_waits hreach]⟩
  · intro s b rest hagenda hfw
    rw [step_preempt hagenda, if_pos hfw]
  · intro s b rest hagenda hfw
    rw [step_preempt hagenda, if_neg (by simp [hfw])]
  · intro s o rest hagenda hfw
    rw [step_measure hagenda, if_pos hfw]
    rfl
  · intro s o rest hagenda hfw
    rw [step_measure hagenda, if_neg (by simp [hfw])]

end Sys2Proof.Machine
end

section
/-! Times that come (R31, R91, R354, R359, R367): the field's clock under `setNow`, and what each timed event then does. -/
namespace Sys2Proof.Machine

-- Counting leaves the machine alone -----------------------------------------------------------------------------

/-- Counting touches a field's performance counters alone, where it has any. -/
theorem perfAdd_cases (f code : Nat) (core : Option Nat) (req : Option Bool) (n : Nat) (s : State) :
    perfAdd f code core req n s = s ∨ ∃ p : Field → SMap Perf, perfAdd f code core req n s = modFld f (fun k => { k with perf := p k }) s := by
  unfold perfAdd
  simp only
  split
  · exact .inl rfl
  · exact .inr ⟨_, rfl⟩

/-- What no update of a field touches, counting leaves. -/
theorem perfAdd_frame {α : Type} (view : State → α) (hview : ∀ i F s, view (modFld i F s) = view s) (f code : Nat) (core : Option Nat) (req : Option Bool) (n : Nat) (s : State) :
    view (perfAdd f code core req n s) = view s := by
  rcases perfAdd_cases f code core req n s with h | ⟨p, h⟩ <;> rw [h]
  exact hview ..
@[simp] theorem perfAdd_cores (f code : Nat) (core : Option Nat) (req : Option Bool) (n : Nat) (s : State) : (perfAdd f code core req n s).cores = s.cores :=
  perfAdd_frame State.cores modFld_cores ..
@[simp] theorem perfAdd_blocks (f code : Nat) (core : Option Nat) (req : Option Bool) (n : Nat) (s : State) : (perfAdd f code core req n s).blocks = s.blocks :=
  perfAdd_frame State.blocks modFld_blocks ..
@[simp] theorem perfAdd_rcbs (f code : Nat) (core : Option Nat) (req : Option Bool) (n : Nat) (s : State) : (perfAdd f code core req n s).rcbs = s.rcbs :=
  perfAdd_frame State.rcbs modFld_rcbs ..
@[simp] theorem getFld_perfAdd_now (f code : Nat) (core : Option Nat) (req : Option Bool) (n : Nat) (s : State) (i : Nat) :
    (getFld (perfAdd f code core req n s) i).now = (getFld s i).now := by
  rcases perfAdd_cases f code core req n s with h | ⟨p, h⟩ <;> rw [h]
  rw [getFld_modFld]
  split
  · rename_i hi; rw [hi]
  · rfl

-- The field's clock ------------------------------------------------------------------------------------------------

/-- The first part of `setNow`: cycles counted and the clock brought forward, before the sidings are looked at. -/
def clockTo (f t : Nat) (s : State) : State :=
  let k := getFld s f
  let s := perfAdd f 0x00 none none (t - k.now) s
  let s := if k.retrain.isSome || k.pcpwrReq == 2 then perfAdd f 0x14 none none (t - k.now) s else s
  modFld f (fun k => { k with now := max k.now t }) s
/-- A siding once its field's clock stands at `n`: due by its age, where its block is not stopping (R31). -/
def dueBy (s : State) (n : Nat) (sd : Siding) : Siding :=
  { sd with due := sd.due || (decide (sd.since + regAge s (getBlk s sd.blk).region ≤ n) && (getBlk s sd.blk).phase == .resident) }

@[simp] theorem clockTo_cores (f t : Nat) (s : State) : (clockTo f t s).cores = s.cores := by simp only [clockTo]; split <;> simp
@[simp] theorem clockTo_blocks (f t : Nat) (s : State) : (clockTo f t s).blocks = s.blocks := by simp only [clockTo]; split <;> simp
@[simp] theorem clockTo_rcbs (f t : Nat) (s : State) : (clockTo f t s).rcbs = s.rcbs := by simp only [clockTo]; split <;> simp
@[simp] theorem getFld_clockTo_now (f t : Nat) (s : State) : (getFld (clockTo f t s) f).now = max (getFld s f).now t := by simp only [clockTo]; split <;> simp

theorem regAge_congr (s t : State) (h : t.rcbs = s.rcbs) (a : Nat) : regAge t a = regAge s a := effField_congr s t h ..

theorem dueBy_clockTo (f t n : Nat) (s : State) (sd : Siding) : dueBy (clockTo f t s) n sd = dueBy s n sd := by
  have hblk : getBlk (clockTo f t s) sd.blk = getBlk s sd.blk := by simp [getBlk]
  rw [dueBy, dueBy, regAge_congr s (clockTo f t s) (clockTo_rcbs f t s), hblk]

/-- `setNow` brings the clock forward and marks the field's sidings that are due by then (R5, R31). -/
theorem setNow_eq (f t : Nat) (s : State) : setNow f t s = { clockTo f t s with
    cores := s.cores.map (fun e => (e.1, if fieldOf e.1 == f then
      { e.2 with sidings := e.2.sidings.map (fun x => (x.1, dueBy s (max (getFld s f).now t) x.2)) } else e.2)) } := by
  have hcores : s.cores.map (fun e => (e.1, if fieldOf e.1 == f then
      { e.2 with sidings := e.2.sidings.map (fun x => (x.1, dueBy s (max (getFld s f).now t) x.2)) } else e.2)) =
      (clockTo f t s).cores.map (fun e => if fieldOf e.1 == f then
        (e.1, { e.2 with sidings := e.2.sidings.map (fun x => (x.1, dueBy (clockTo f t s) (getFld (clockTo f t s) f).now x.2)) }) else e) := by
    rw [clockTo_cores]
    refine List.map_congr_left fun e _ => ?_
    simp only [dueBy_clockTo, getFld_clockTo_now]
    split <;> rfl
  rw [hcores]
  rfl

@[simp] theorem setNow_blocks (f t : Nat) (s : State) : (setNow f t s).blocks = s.blocks := by rw [setNow_eq]; exact clockTo_blocks f t s
@[simp] theorem getBlk_setNow (f t : Nat) (s : State) (b : Nat) : getBlk (setNow f t s) b = getBlk s b := by simp [getBlk]
@[simp] theorem getTh_setNow (f t : Nat) (s : State) (b r : Nat) : getTh (setNow f t s) b r = getTh s b r := by simp [getTh]
theorem getFld_setNow_now (f t : Nat) (s : State) : (getFld (setNow f t s) f).now = max (getFld s f).now t := by
  rw [setNow_eq]; exact getFld_clockTo_now f t s

/-- A map rebuilt key by key. -/
theorem mfind_map_key {α β : Type} (m : SMap α) (F : Nat → α → β) (i : Nat) : mfind (m.map (fun e => (e.1, F e.1 e.2))) i = (mfind m i).map (F i) := by
  induction m with
  | nil => rfl
  | cons e m ih =>
    simp only [List.map_cons, mfind]
    split
    · rename_i h; rw [h]; rfl
    · exact ih

theorem sidings_setNow (f t g : Nat) (s : State) : (getCore (setNow f t s) g).sidings =
    if fieldOf g = f then (getCore s g).sidings.map (fun x => (x.1, dueBy s (max (getFld s f).now t) x.2)) else (getCore s g).sidings := by
  rw [setNow_eq]
  simp only [getCore, mget]
  rw [mfind_map_key s.cores (fun g c => if fieldOf g == f then { c with sidings := c.sidings.map (fun x => (x.1, dueBy s (max (getFld s f).now t) x.2)) } else c) g]
  cases mfind s.cores g with
  | none => simp
  | some c => by_cases hg : fieldOf g = f <;> simp [hg]

/-- A siding of the field after `setNow`. -/
theorem siding_setNow {f t g i : Nat} {s : State} {sd : Siding} (hg : fieldOf g = f) (hsd : mfind (getCore s g).sidings i = some sd) :
    mfind (getCore (setNow f t s) g).sidings i = some (dueBy s (max (getFld s f).now t) sd) := by
  rw [sidings_setNow, if_pos hg, mfind_map, hsd, Option.map_some]

-- The events ---------------------------------------------------------------------------------------------------------

theorem exec_yieldExpiry_some {s : State} {g cn t : Nat} {x : Consist} (hx : consistOf s g cn = some x) (ht : x.yieldUntil = some t) :
    exec (.yieldExpiry g cn) s = .next (modConsist g cn (fun k => { k with yieldUntil := none }) (setNow (fieldOf g) t s)) := by
  show execYieldExpiry g cn s = _
  simp [execYieldExpiry, hx, ht]
theorem exec_yieldExpiry_none {s : State} {g cn : Nat} (h : ∀ x, consistOf s g cn = some x → x.yieldUntil = none) : exec (.yieldExpiry g cn) s = .next s := by
  show execYieldExpiry g cn s = _
  cases hx : consistOf s g cn with
  | none => simp [execYieldExpiry, hx]
  | some x => simp [execYieldExpiry, hx, h x hx]

theorem exec_sleepExpiry_wakes {s : State} {b r d : Nat} (hd : (getTh s b r).waits.findSome? sleepOf = some d) (hres : resident (getBlk s b) = true)
    (hplace : (getTh s b r).place = .waiting ∨ (getTh s b r).place = .rankWait) :
    exec (.sleepExpiry b r) s = .next (endWait b r (fun w => w == .sleep d) (setNow (fieldOf (getBlk s b).core) d s)) := by
  show execSleepExpiry b r s = _
  simp [execSleepExpiry, hd, hres, hplace]
theorem exec_sleepExpiry_none {s : State} {b r : Nat} (h : (getTh s b r).waits.findSome? sleepOf = none ∨ resident (getBlk s b) = false ∨
    ((getTh s b r).place ≠ .waiting ∧ (getTh s b r).place ≠ .rankWait)) : exec (.sleepExpiry b r) s = .next s := by
  show execSleepExpiry b r s = _
  unfold execSleepExpiry
  simp only
  split
  · rename_i d hd
    rcases h with h | h | ⟨hw, hr⟩
    · rw [h] at hd; cases hd
    · simp [h]
    · simp [hw, hr]
  · rfl

theorem exec_sidingDue_resident {s : State} {g idx : Nat} {sd : Siding} (hsd : mfind (getCore s g).sidings idx = some sd) (hres : (getBlk s sd.blk).phase = .resident) :
    exec (.sidingDue g idx) s = .next (setNow (fieldOf g) (sd.since + regAge s (getBlk s sd.blk).region) s) := by
  show execSidingDue g idx s = _
  simp [execSidingDue, hsd, hres]
theorem exec_sidingDue_none {s : State} {g idx : Nat} (h : ∀ sd, mfind (getCore s g).sidings idx = some sd → (getBlk s sd.blk).phase ≠ .resident) :
    exec (.sidingDue g idx) s = .next s := by
  show execSidingDue g idx s = _
  cases hsd : mfind (getCore s g).sidings idx with
  | none => simp [execSidingDue, hsd]
  | some sd => simp [execSidingDue, hsd, h sd hsd]

theorem exec_preemptOverrun_open {s : State} {b : Nat} (hh : (getBlk s b).holders ≠ []) (hres : resident (getBlk s b) = true) :
    exec (.preemptOverrun b) s = .next (modBlk b (fun k => { k with holders := [] }) ((getBlk s b).holders.foldl (fun s r => queueDeferred b r cOverrun 0 0 s)
      (evAdd (fieldOf (getBlk s b).core) 0x78 1 (setNow (fieldOf (getBlk s b).core) ((getBlk s b).winStart + 65536) s)))) := by
  show execPreemptOverrun b s = _
  simp [execPreemptOverrun, hh, hres]
theorem exec_preemptOverrun_none {s : State} {b : Nat} (h : (getBlk s b).holders = [] ∨ resident (getBlk s b) = false) : exec (.preemptOverrun b) s = .next s := by
  show execPreemptOverrun b s = _
  rcases h with h | h <;> simp [execPreemptOverrun, h]

/-- A block's update that keeps its members keeps its threads. -/
theorem getTh_modBlk_of_members (b : Nat) (F : Block → Block) (s : State) (hm : ∀ k, (F k).members = k.members) (b' r : Nat) :
    getTh (modBlk b F s) b' r = getTh s b' r := by
  rcases getBlk_modBlk_cases b b' F s with e | ⟨-, e⟩ <;> simp only [getTh, e, hm]

theorem exec_growStarved_withdrawn {s : State} {b req : Nat} {q : GrowReq} (hq : (getBlk s b).grows.find? (fun q => q.id == req) = some q)
    (hres : (getBlk s b).phase = .resident) :
    exec (.growStarved b req) s = .next (growWake (
      let t := (q.ranks.filter (fun r => (getTh s b r).live)).foldl (fun s r =>
        endWait b r (fun w => w == .grow req) (takeRaised b r (recordTrap b r cGrowStarved 0 q.pc 0 none
          (modTh b r (fun t => { t with outs := t.outs.filter (fun o => o.id != q.out) }) s))))
        (modBlk b (fun k => { k with grows := k.grows.filter (fun r => r.id != req) }) (setNow (fieldOf (getBlk s b).core) (q.since + 2 ^ 20).toNat s))
      match q.entry with | some e => dropEntry b e t | none => t)) := by
  have hlive : ∀ r, getTh (modBlk b (fun k => { k with grows := k.grows.filter (fun r => r.id != req) }) (setNow (fieldOf (getBlk s b).core) (q.since + 2 ^ 20).toNat s)) b r =
      getTh s b r := by
    intro r
    refine (getTh_modBlk_of_members b _ _ ?_ b r).trans (getTh_setNow ..)
    exact fun _ => rfl
  show execGrowStarved b req s = _
  simp only [execGrowStarved, hq, hres, bne_self_eq_false, Bool.false_eq_true, if_false, hlive] <;> rfl
theorem exec_growStarved_none {s : State} {b req : Nat} (h : (getBlk s b).grows.find? (fun q => q.id == req) = none ∨ (getBlk s b).phase ≠ .resident) :
    exec (.growStarved b req) s = .next s := by
  show execGrowStarved b req s = _
  unfold execGrowStarved
  simp only
  split
  · rfl
  · rename_i q hq
    rcases h with h | h
    · rw [h] at hq; cases hq
    · simp [h]

/-- Settles O31: event by event, and `setNow` by its effect on the clock and on the sidings. -/
theorem timedEvents : Obligations.TimedEvents := by
  intro s g cn b r idx req k f
  refine ⟨fun x t hx ht => exec_yieldExpiry_some hx ht, exec_yieldExpiry_none, fun d hd hres hplace => exec_sleepExpiry_wakes hd hres hplace, exec_sleepExpiry_none,
    fun sd hsd hres => ?_, exec_sidingDue_none, exec_preemptOverrun_open, exec_preemptOverrun_none, fun q hq hres => exec_growStarved_withdrawn hq hres,
    exec_growStarved_none, fun f t => ⟨getFld_setNow_now f t s, fun g' i sd hg hsd => siding_setNow hg hsd, fun g' hg => ?_⟩⟩
  · refine ⟨_, _, exec_sidingDue_resident hsd hres, rfl, siding_setNow rfl hsd, ?_⟩
    simp [dueBy, hres]
  · rw [sidings_setNow, if_neg hg]

end Sys2Proof.Machine
end

section
/-! The beginning of a clause (R26, R311-R313, R322): what a header word says of its clause, and `beginClause` where nothing is in its way. -/
namespace Sys2Proof.Machine

-- The header word (R316) ----------------------------------------------------------------------------------------

/-- The fields of a header stand in its word where R316 puts them. -/
theorem hdr_encH (op : BitVec 10) (f : FmtH) :
    hdrLen (encH op f) = f.len.toNat ∧ hdrSetA (encH op f) = f.seta.toNat ∧ hdrSetB (encH op f) = f.setb.toNat := by
  refine ⟨?_, ?_, ?_⟩
  all_goals
    refine congrArg BitVec.toNat (BitVec.eq_of_getLsbD_eq fun i hi => ?_)
    simp only [encH, encGuard, BitVec.getLsbD_extractLsb', BitVec.getLsbD_append]
    simp (disch := omega) only [if_neg, if_pos, hi, decide_true, Bool.true_and]
    congr 1
    omega

/-- A header that R322 accepts has opcode 0 and a LEN of 1 to 24. -/
theorem headerOk_len {w : IWord} (h : headerOk w = true) : (nbits w 86 10 == 0 && 1 ≤ hdrLen w && hdrLen w ≤ 24) = true := by
  simp only [headerOk, Bool.and_eq_true] at h ⊢
  tauto

-- The clause ----------------------------------------------------------------------------------------------------------

/-- The clause that a header at `pc` begins over the fetched lines `ds` (R311, R313). -/
def clauseAt (id : Nat) (pc : DWord) (w : IWord) (ds : List (BitVec 512)) : Clause :=
  let line := fun (n : Nat) => ds.getD (n / 5 - slotNum pc / 5) 0
  { id := id, header := pc, len := hdrLen w
    words := w :: (upto (hdrLen w)).map (fun i => slotWord (line (slotNum pc + 1 + i)) ((slotNum pc + 1 + i) % 5))
    pairs := (upto (hdrLen w)).filter (fun i => i != 0 && (slotNum pc + 1 + i) % 5 != 0 && bit (line (slotNum pc + 1 + i)) (494 + (slotNum pc + 1 + i) % 5)) }

theorem frontPc_eq {s : State} {b : Nat} {ms : List (Nat × Nat)} {pc : DWord} (hne : ms ≠ []) (h : ∀ l ∈ ms, (getTh s b l.2).pc = pc) : frontPc s b ms = pc := by
  cases ms with
  | nil => exact absurd rfl hne
  | cons l ms => simpa [frontPc] using h l List.mem_cons_self

/-- A thread that came by fall-through, or whose slot is a target, has landed rightly (R312). -/
theorem wrongLanding_target {v : Via} {tgt : Bool} (h : v = .fall ∨ tgt = true) : wrongLanding v true tgt = false := by
  rcases h with rfl | rfl
  · rfl
  · cases v <;> simp [wrongLanding]

/-- No line of a fetch fails a test that all of its lines pass. -/
theorem find_zip_lines {α : Type} {vas : List α} {ds : List (BitVec 512)} {ok : BitVec 512 → Bool} (h : ds.all ok = true) :
    (vas.zip ds).find? (fun e => !ok e.2) = none := by
  refine List.find?_eq_none.2 fun e he => ?_
  simpa using List.all_eq_true.1 h e.2 (List.of_mem_zip he).2

/-- Where no cause is due, the lines come whole and every thread has landed rightly, the clause is placed for all of them. -/
theorem beginClause_whole {s s' : State} {g cn : Nat} {k : Consist} {pc : DWord} {w : IWord} {ds : List (BitVec 512)} (hk : consistOf s g cn = some k)
    (hne : membersOf k.slots ≠ [])
    (hms : ∀ l ∈ membersOf k.slots, (getTh s k.blk l.2).pc = pc ∧ (getTh s k.blk l.2).deferred = [] ∧ (getTh s k.blk l.2).raised = none)
    (hslot : slotOk pc = true) (hhdr : headerOk w = true) (hfetch : fetchLines g k.blk (linesOf (slotNum pc) (hdrLen w)) s = (ds, none, s'))
    (hland : ∀ l ∈ membersOf k.slots, (getTh s' k.blk l.2).via = .fall ∨ targetBit (ds.headD 0) (nbits pc 0 6 / 12) = true)
    (hpar : ds.all parityOk = true) (hrsv : ds.all lineRsvOk = true) :
    beginClause g cn w s = perfCore g k.blk 0x04 1 (placeClause g cn (clauseAt s'.nextId pc w ds)
      ((membersOf k.slots).foldl (fun s l => modTh k.blk l.2 (clearFlags s'.nextId (hdrSetA w) (hdrSetB w)) s) { s' with nextId := s'.nextId + 1 })) := by
  have hpc : frontPc s k.blk (membersOf k.slots) = pc := frontPc_eq hne fun l hl => (hms l hl).1
  have hdue : (membersOf k.slots).any (fun l => let t := getTh s k.blk l.2; t.raised.isSome || (t.trap == .normal && !t.deferred.isEmpty)) = false := by
    refine List.any_eq_false.2 fun l hl => ?_
    obtain ⟨-, hdef, hraised⟩ := hms l hl
    simp [hdef, hraised]
  have hwrong : (membersOf k.slots).filter (fun l => wrongLanding (getTh s' k.blk l.2).via true (targetBit (ds.headD 0) (nbits pc 0 6 / 12))) = [] := by
    refine List.filter_eq_nil_iff.2 fun l hl => ?_
    rw [wrongLanding_target (hland l hl)]
    exact Bool.false_ne_true
  have hall : (membersOf k.slots).filter (fun l => !([] : List (Nat × Nat)).contains l) = membersOf k.slots := by simp
  have hsome : (membersOf k.slots).isEmpty = false := by simpa using hne
  unfold beginClause
  simp only [hk, hpc, hdue, hslot, headerOk_len hhdr, hfetch, find_zip_lines hpar, find_zip_lines hrsv, hwrong, hall, hhdr, hsome, Bool.false_eq_true, if_false, if_true,
    Bool.not_true, Bool.or_self, List.foldl_nil, List.map_nil]
  rfl

/-- The core in turn stands at a boundary, so a header goes to `beginClause`. -/
theorem exec_clause_boundary {f : FmtH} {s : State} {g cn : Nat} {k : Consist} (hturn : s.turn = .core g) (hpick : pick s g = some cn) (hk : consistOf s g cn = some k)
    (hcl : k.clause = none) : exec (.clause f) s = .next (beginClause g cn (encH 0 f) s) := by
  have hctx : context (.clause f) s = none := by simp [context, hturn, hpick, ctxAt, hk, hcl]
  show execClause f s = _
  simp [execClause, hctx, noClause, hturn, hpick, encode]

/-- Settles O10: at a boundary the header goes to `beginClause`, in whose way nothing stands. -/
theorem clauseBegins : Obligations.ClauseBegins := by
  intro f s s' g cn k pc ds hturn hpick hk hcl hne hms hslot hhdr hfetch _ hland hpar hrsv line
  obtain ⟨hlen, hseta, hsetb⟩ := hdr_encH 0 f
  rw [exec_clause_boundary hturn hpick hk hcl, beginClause_whole hk hne hms hslot hhdr (by rwa [hlen]) hland hpar hrsv, hseta, hsetb]
  simp only [placeClause, clauseAt, hlen]
  rfl

end Sys2Proof.Machine
end

section
/-! Taking a trap (R38, R84-R87): the thread that `enterHandler` leaves, and what `deliver` does in each of its cases. -/
namespace Sys2Proof.Machine

-- TRAPCAUSE (R84) --------------------------------------------------------------------------------------------------

/-- TRAPCAUSE of a cause: code, detail, and whether a REPCOUNT is kept. -/
def causeWord (i : TrapInfo) : Word := i.code.setWidth 32 ||| (i.detail.setWidth 32 <<< 8) ||| (if i.rep.isSome then 0x10000 else 0)

theorem repMark_getLsbD (b : Bool) (j : Nat) : (if b = true then (0x10000 : Word) else 0).getLsbD j = (b && decide (16 = j)) := by
  cases b with
  | false => simp
  | true => exact (BitVec.getLsbD_twoPow (w := 32) (i := 16) (j := j)).trans (by simp)
theorem causeWord_getLsbD (i : TrapInfo) (j : Nat) (hj : j < 32) : (causeWord i).getLsbD j =
    if j < 8 then i.code.getLsbD j else if j < 16 then i.detail.getLsbD (j - 8) else i.rep.isSome && decide (16 = j) := by
  simp only [causeWord, BitVec.getLsbD_or, BitVec.getLsbD_shiftLeft, BitVec.getLsbD_setWidth, repMark_getLsbD, hj, decide_true, Bool.true_and]
  by_cases h8 : j < 8
  · simp [h8, show ¬ 16 = j by omega]
  · by_cases h16 : j < 16
    · simp [h8, h16, show ¬ 16 = j by omega, show j - 8 < 32 by omega, BitVec.getLsbD_of_ge i.code j (by omega)]
    · simp [h8, h16, BitVec.getLsbD_of_ge i.code j (by omega), BitVec.getLsbD_of_ge i.detail (j - 8) (by omega)]

theorem causeWord_code (i : TrapInfo) : nbits (causeWord i) 0 8 = i.code.toNat := by
  refine congrArg BitVec.toNat (BitVec.eq_of_getLsbD_eq fun j hj => ?_)
  simp [causeWord_getLsbD i j (by omega), hj]
theorem causeWord_detail (i : TrapInfo) : nbits (causeWord i) 8 8 = i.detail.toNat := by
  refine congrArg BitVec.toNat (BitVec.eq_of_getLsbD_eq fun j hj => ?_)
  rw [BitVec.getLsbD_extractLsb', causeWord_getLsbD i (8 + j) (by omega), if_neg (by omega), if_pos (by omega)]
  simp [hj]
theorem causeWord_rep (i : TrapInfo) : nbits (causeWord i) 16 16 = if i.rep.isSome then 1 else 0 := by
  have hbits : (causeWord i).extractLsb' 16 16 = if i.rep.isSome then 1#16 else 0#16 := by
    refine BitVec.eq_of_getLsbD_eq fun j hj => ?_
    rw [BitVec.getLsbD_extractLsb', causeWord_getLsbD i (16 + j) (by omega), if_neg (by omega), if_neg (by omega)]
    cases i.rep.isSome <;> simp [hj]
  rw [nbits, hbits]
  split <;> rfl

-- The handler (R85-R88) -------------------------------------------------------------------------------------------

/-- `enterHandler` takes the trap of `i`. -/
theorem inHandler_enterHandler (entry : DWord) (i : TrapInfo) (t : Thread) : InHandler entry i t (enterHandler entry i t) where
  state := rfl
  pc := ⟨rfl, rfl⟩
  code := causeWord_code i
  detail := causeWord_detail i
  rep := causeWord_rep i
  trappc := rfl
  trapva := rfl
  keptRep := rfl
  cleared := rfl
  kept := ⟨rfl, rfl, rfl, rfl, rfl, rfl, rfl⟩

-- Delivery (R86) ------------------------------------------------------------------------------------------------------

/-- With nothing owed, or in a block that is stopping or saved, delivery does nothing (R38). -/
theorem deliver_away {s : State} {b : Nat} (r cn : Nat) (h : (getBlk s b).phase ≠ .resident) : deliver b r cn s = s := by
  simp [deliver, h]
theorem deliver_nothing {s : State} {b r : Nat} (cn : Nat) (hraised : (getTh s b r).raised = none)
    (h : (getTh s b r).deferred = [] ∨ (getTh s b r).trap ≠ .normal) : deliver b r cn s = s := by
  unfold deliver
  simp only [hraised]
  split
  · rfl
  · split
    · rcases h with h | h
      · simp_all
      · simp [h]
    · rfl
/-- A recorded cause enters the handler. -/
theorem deliver_raised {s : State} {b r : Nat} {i : TrapInfo} (cn : Nat) (hphase : (getBlk s b).phase = .resident)
    (hentry : regTrapEntry s (getBlk s b).region ≠ 0) (hraised : (getTh s b r).raised = some i) (htrap : (getTh s b r).trap ≠ .handler) :
    deliver b r cn s = modTh b r (enterHandler (regTrapEntry s (getBlk s b).region) i) s := by
  simp only [deliver, hphase, hraised, bne_self_eq_false, beq_iff_eq, htrap, hentry, Bool.false_eq_true, if_false]
/-- The oldest deferred cause enters it, in the Normal state, at the thread's own PC. -/
theorem deliver_deferred {s : State} {b r : Nat} {d : TrapInfo} {rest : List TrapInfo} (cn : Nat) (hphase : (getBlk s b).phase = .resident)
    (hentry : regTrapEntry s (getBlk s b).region ≠ 0) (hraised : (getTh s b r).raised = none) (hdef : (getTh s b r).deferred = d :: rest)
    (htrap : (getTh s b r).trap = .normal) : deliver b r cn s =
      modTh b r (fun t => enterHandler (regTrapEntry s (getBlk s b).region) { d with pc := (getTh s b r).pc } { t with deferred := rest }) s := by
  simp only [deliver, hphase, hraised, hdef, htrap, bne_self_eq_false, beq_self_eq_true, hentry, Bool.false_eq_true, if_false, if_true]

/-- Outside a handler, with an entry to go to, delivery updates its own thread or nothing. -/
theorem deliver_one_thread {s : State} {b r : Nat} (cn : Nat) (hphase : (getBlk s b).phase = .resident) (hentry : regTrapEntry s (getBlk s b).region ≠ 0)
    (htrap : (getTh s b r).trap ≠ .handler) : deliver b r cn s = s ∨ ∃ F, deliver b r cn s = modTh b r F s := by
  cases hraised : (getTh s b r).raised with
  | some i => exact .inr ⟨_, deliver_raised cn hphase hentry hraised htrap⟩
  | none =>
    by_cases hnormal : (getTh s b r).trap = .normal
    · cases hdef : (getTh s b r).deferred with
      | nil => exact .inl (deliver_nothing cn hraised (.inl hdef))
      | cons d rest => exact .inr ⟨_, deliver_deferred cn hphase hentry hraised hdef hnormal⟩
    · exact .inl (deliver_nothing cn hraised (.inr hnormal))

theorem memoryKept_modTh (b r : Nat) (F : Thread → Thread) (s : State) : memoryKept s (modTh b r F s) :=
  ⟨by simp, by simp [modTh], by simp [modTh], by simp [modTh], by simp [modTh], by simp [modTh], by simp [modTh], fun g => by simp, fun f => by simp⟩
theorem getTh_modTh_other {b r b' r' : Nat} (F : Thread → Thread) (s : State) (h : ¬(b' = b ∧ r' = r)) : getTh (modTh b r F s) b' r' = getTh s b' r' := by
  rcases getTh_modTh_cases b r b' r' F s with e | ⟨hb, hr, -⟩
  · exact e
  · exact absurd ⟨hb, hr⟩ h

/-- Settles O58: the cases of `deliver`, each an update of one thread by `enterHandler`, or none. -/
theorem trapTaken : Obligations.TrapTaken := by
  intro s b r cn hblk hth t u entry
  refine ⟨fun hphase hentry => ⟨fun i hraised htrap => ?_, fun d rest hraised hdef htrap => ?_, fun htrap => ?_⟩, deliver_nothing cn, deliver_away r cn⟩
  · have hu : getTh u b r = enterHandler entry i t := by
      rw [show u = _ from deliver_raised cn hphase hentry hraised htrap, getTh_modTh_same b r _ s hblk hth]
    exact hu ▸ ⟨inHandler_enterHandler entry i t, rfl⟩
  · have hu : getTh u b r = enterHandler entry { d with pc := t.pc } { t with deferred := rest } := by
      rw [show u = _ from deliver_deferred cn hphase hentry hraised hdef htrap, getTh_modTh_same b r _ s hblk hth]
    obtain ⟨h1, h2, h3, h4, h5, h6, h7, h8, h9, h10⟩ := inHandler_enterHandler entry { d with pc := t.pc } { t with deferred := rest }
    exact hu ▸ ⟨⟨h1, h2, h3, h4, h5, h6, h7, h8, h9, h10⟩, rfl⟩
  · rcases deliver_one_thread cn hphase hentry htrap with hu | ⟨F, hu⟩
    · rw [show u = s from hu]
      exact ⟨memoryKept.refl s, fun _ _ _ => rfl⟩
    · rw [show u = _ from hu]
      exact ⟨memoryKept_modTh b r F s, fun b' r' hne => getTh_modTh_other F s hne⟩

end Sys2Proof.Machine
end

section
/-! Doorbells, the arbiter and the end of blocks (R40-R42, R194, R195, R200, R202-R207, R260): an equation per case of each event. -/
namespace Sys2Proof.Machine

-- Doorbells (R194, R195) ----------------------------------------------------------------------------------------

theorem exec_doorbell_taken {s : State} {q : Nat} {v : Word} (hq : q < 256) (hbound : (getQ s q).state ≠ .unbound) (hhost : qDevice (getQ s q) = false)
    (hfit : (v - (getQ s q).rd).toNat ≤ 2 ^ qLog (getQ s q)) : exec (.doorbell q v) s = .next (modQ q (fun k => { k with wr := v }) s) := by
  show execDoorbell q v s = _
  simp only [execDoorbell, Nat.not_le.2 hq, decide_false, Bool.false_or, beq_iff_eq, Bool.or_eq_true, hbound, hhost, Bool.false_eq_true, or_self, if_false, hfit, if_true]
theorem exec_doorbell_faults {s : State} {q : Nat} {v : Word} (hq : q < 256) (hstate : (getQ s q).state = .active ∨ (getQ s q).state = .stopped)
    (hhost : qDevice (getQ s q) = false) (hover : 2 ^ qLog (getQ s q) < (v - (getQ s q).rd).toNat) :
    exec (.doorbell q v) s = .next (sbEvent (1, q) (.queueFault q (getQ s q).nextSeq 0x14) (journal q 0 5 0x14 0 0 (modQ q (fun k => { k with state := .faulted }) s))) := by
  have hbound : (getQ s q).state ≠ .unbound := by rcases hstate with h | h <;> rw [h] <;> decide
  show execDoorbell q v s = _
  simp only [execDoorbell, Nat.not_le.2 hq, decide_false, Bool.false_or, beq_iff_eq, Bool.or_eq_true, hbound, hhost, Bool.false_eq_true, or_self, if_false,
    Nat.not_le.2 hover, hstate, if_true]
theorem exec_doorbell_ignored {s : State} {q : Nat} {v : Word} (h : 256 ≤ q ∨ (getQ s q).state = .unbound ∨ qDevice (getQ s q) = true ∨
    (2 ^ qLog (getQ s q) < (v - (getQ s q).rd).toNat ∧ (getQ s q).state ≠ .active ∧ (getQ s q).state ≠ .stopped)) : exec (.doorbell q v) s = .next s := by
  show execDoorbell q v s = _
  simp only [execDoorbell, Bool.or_eq_true, decide_eq_true_eq, beq_iff_eq]
  split
  · rfl
  · rename_i hserved
    obtain ⟨hover, hactive, hstopped⟩ : 2 ^ qLog (getQ s q) < (v - (getQ s q).rd).toNat ∧ (getQ s q).state ≠ .active ∧ (getQ s q).state ≠ .stopped := by tauto
    simp only [Nat.not_le.2 hover, hactive, hstopped, or_self, if_false]

-- Retirement (R40, R41) --------------------------------------------------------------------------------------------

theorem exec_blockRetire_busy {s : State} {b : Nat} (h : mayRetireBlk s b = false) : exec (.blockRetire b) s = .next s := by
  show execBlockRetire b s = _
  simp [execBlockRetire, h]
theorem exec_blockRetire_pinned {s : State} {b : Nat} (h : mayRetireBlk s b = true) (hpin : anyPinned (getBlk (saveRegs b s) b) = true) :
    exec (.blockRetire b) s = .next (saveRegs b s) := by
  show execBlockRetire b s = _
  simp [execBlockRetire, h, hpin]
theorem exec_blockRetire_leaves {s : State} {b : Nat} (h : mayRetireBlk s b = true) (hpin : anyPinned (getBlk (saveRegs b s) b) = false) :
    exec (.blockRetire b) s = .next (
      let s1 := departDeficit (getBlk (saveRegs b s) b) (saveRegs b s)
      let k := getBlk s1 b
      let s2 := modLaunch k.launch (fun l => { l with live := l.live - 1, sum := l.sum + k.residence })
        (settleCtx b 1 (freeHeldFor k (removeBlk b (chargePath k.region (-1) (-(backingOf k : Int)) s1))))
      maybeEnd k.launch (growWake (fileReady k.core (getCore s2 k.core).ready.length s2))) := by
  show execBlockRetire b s = _
  simp only [execBlockRetire, h, hpin, Bool.not_true, Bool.false_eq_true, if_false]

theorem removeBlk_gone (b : Nat) (s : State) : mfind (removeBlk b s).blocks b = none := by
  show mfind (mdel _ b) b = none
  rw [mfind_mdel, if_pos rfl]

-- Drained kills (R42) -----------------------------------------------------------------------------------------------

theorem exec_killDrained_none {s : State} {idx : Nat} (h : s.kills[idx]? = none) : exec (.killDrained idx) s = .next s := by
  show execKillDrained idx s = _
  simp [execKillDrained, h]
theorem exec_killDrained_moving {s : State} {idx : Nat} {kl : Kill} (h : s.kills[idx]? = some kl) (hmove : killMoves s kl = true) : exec (.killDrained idx) s = .next s := by
  show execKillDrained idx s = _
  simp [execKillDrained, h, hmove]
theorem exec_killDrained_drains {s : State} {idx : Nat} {kl : Kill} (h : s.kills[idx]? = some kl) (hmove : killMoves s kl = false) :
    exec (.killDrained idx) s = .next (
      let s0 := kl.blocks.foldl (fun s b => flushL1 (getBlk s b).core s) { s with kills := s.kills.eraseIdx idx }
      let qs := match kl.queue with | some q => [q] | none => (kl.blocks.map (fun b => (getBlk s0 b).queue)).eraseDups
      let s1 := kl.blocks.foldl (fun s b =>
        let k := getBlk s b
        let s := settleCtx b 1 (freeHeldFor k (removeBlk b (chargePath k.region 0 (-(backingOf k : Int)) s)))
        modLaunch k.launch (fun l => { l with live := l.live - 1, sum := l.sum + k.residence }) s) (dropWork kl.blocks s0)
      let s2 := qs.foldl (fun s q =>
        let s := if (getQ s q).state = .unbound then s else journal q 0 7 0 0 0 s
        if kl.queue = some q ∧ s.kills.any (fun x => x.queue == some q) = false then
          modQ q (fun k => { k with state := if k.state = .killing then .stopped else k.state }) s else s) s1
      let ls := (kl.blocks.map (fun b => (getBlk s0 b).launch)).eraseDups ++ (match kl.queue with | some q => (getQ s2 q).launches | none => [])
      pumpYokes (growWake (ls.eraseDups.foldl (fun s l => maybeEnd l s) s2))) := by
  show execKillDrained idx s = _
  simp only [execKillDrained, h, hmove, Bool.false_eq_true, if_false, beq_iff_eq, Bool.and_eq_true, Bool.not_eq_true'] <;> rfl

-- The arbiter (R203-R207) --------------------------------------------------------------------------------------------

/-- The state in which a decision of the arbiter has checked and latched the heads. -/
def headsLatched (s : State) : State := latchHeads ((boundQueues s).foldl (fun s q => checkHead q s) s)
/-- The heads that then may be dispatched, each with its queue. -/
def headsOf (s : State) : List (Nat × Launch) := (boundQueues s).filterMap (fun q => (eligibleHead (headsLatched s) q).map (fun l => (q, l)))
/-- The level of a head's queue. -/
def headLevel (s : State) (x : Nat × Launch) : Nat := qLevel s (getQ s x.1)
/-- The state in which it has read what admission looks at. -/
def headsRead (s : State) : State :=
  (headsOf s).foldl (fun s x => (useRanges s x.2).foldl (fun s r => readLeaves (qRegion (getQ s x.1)) r.1 r.2 s) s) (readHomes (headsOf s) (headsLatched s))
/-- The state in which it has requested the pre-emptions of heads that lack cores alone. -/
def coresAsked (s : State) : State :=
  (sortBy (headLevel (headsRead s)) ((headsOf s).filter (fun x => (admission (headsRead s) x.2).2))).foldl (fun s x => preemptFor x.2 s) (headsRead s)
/-- The head of least level that passes admission. -/
def firstHead (s : State) : Option (Nat × Launch) := leastBy (headLevel (coresAsked s)) ((headsOf s).filter (fun x => (admission (coresAsked s) x.2).1.isSome))

/-- The queue that is visited at the level of a head: the next in the cycle of that level's bound queues (R203). -/
def queueInTurn (s : State) (x : Nat × Launch) : Nat :=
  let cyc := (boundQueues s).filter (fun q => qLevel (coresAsked s) (getQ (coresAsked s) q) == headLevel (coresAsked s) x)
  (cyc.find? (fun q => mget 0 (coresAsked s).pointers (headLevel (coresAsked s) x) ≤ q)).getD (cyc.headD 0)
/-- The state after a decision of the arbiter. -/
def visited (s : State) : State :=
  match firstHead s with
  | none => coresAsked s
  | some x => visitQueue (queueInTurn s x) { coresAsked s with pointers := mput (coresAsked s).pointers (headLevel (coresAsked s) x) (queueInTurn s x + 1) }

theorem exec_queueVisit (s : State) : exec .queueVisit s = .next (visited s) := by
  have hmodel : execQueueVisit s = match firstHead s with
      | none => .next (coresAsked s)
      | some (q, l) => .next (visitQueue (queueInTurn s (q, l))
          { coresAsked s with pointers := mput (coresAsked s).pointers (headLevel (coresAsked s) (q, l)) (queueInTurn s (q, l) + 1) }) := rfl
  show execQueueVisit s = _
  rw [hmodel, visited]
  rcases firstHead s with _ | ⟨q, l⟩ <;> rfl

/-- Settles O37: event by event, in the cases of each. -/
theorem queueAndBlockEvents : Obligations.QueueAndBlockEvents := by
  intro s q b idx v k
  refine ⟨exec_doorbell_taken, exec_doorbell_faults, exec_doorbell_ignored, ?_, exec_blockRetire_busy, exec_blockRetire_pinned, exec_blockRetire_leaves, removeBlk_gone b,
    fun kl => exec_killDrained_moving, fun kl => exec_killDrained_drains, exec_killDrained_none⟩
  show match firstHead s with
    | none => exec .queueVisit s = .next (coresAsked s)
    | some x => exec .queueVisit s = .next (visitQueue (queueInTurn s x)
        { coresAsked s with pointers := mput (coresAsked s).pointers (headLevel (coresAsked s) x) (queueInTurn s x + 1) })
  rw [exec_queueVisit, visited]
  cases firstHead s <;> rfl

end Sys2Proof.Machine
end

section
/-! Where blocks stand (R36): the operations of the yard, of waits and of late results keep every block's phase. -/
namespace Sys2Proof.Machine

/-- The same blocks, each in the same phase. -/
structure SamePhases (s t : State) : Prop where
  same : ∀ b, (mfind t.blocks b).map (·.phase) = (mfind s.blocks b).map (·.phase)

theorem SamePhases.refl (s : State) : SamePhases s s := ⟨fun _ => rfl⟩
theorem SamePhases.trans {s t u : State} (h : SamePhases s t) (h' : SamePhases t u) : SamePhases s u := ⟨fun b => (h'.same b).trans (h.same b)⟩
theorem SamePhases.of_blocks {s t : State} (h : t.blocks = s.blocks) : SamePhases s t := ⟨fun b => by rw [h]⟩
theorem SamePhases.foldl {α : Type} (f : State → α → State) (h : ∀ s a, SamePhases s (f s a)) (l : List α) (s : State) : SamePhases s (l.foldl f s) :=
  foldl_inv (SamePhases s) f l s (.refl s) fun a _ ht => ht.trans (h _ a)
/-- An operation after a change that leaves the blocks alone. -/
theorem SamePhases.after {s t u : State} (h : SamePhases t u) (hblocks : t.blocks = s.blocks) : SamePhases s u := (of_blocks hblocks).trans h

theorem SamePhases.isSome {s t : State} (h : SamePhases s t) (b : Nat) : (mfind t.blocks b).isSome = (mfind s.blocks b).isSome := by
  simpa using congrArg Option.isSome (h.same b)
theorem SamePhases.phase {s t : State} (h : SamePhases s t) (b : Nat) : (getBlk t b).phase = (getBlk s b).phase := by
  have hb := h.same b
  simp only [getBlk, mget]
  cases hs : mfind s.blocks b <;> cases ht : mfind t.blocks b <;> simp_all

-- Blocks and threads ------------------------------------------------------------------------------------------

theorem mfind_modBlk_blocks (b b' : Nat) (F : Block → Block) (s : State) :
    mfind (modBlk b F s).blocks b' = if b' = b then (mfind s.blocks b).map F else mfind s.blocks b' := by
  unfold modBlk
  cases hb : mfind s.blocks b with
  | none => by_cases hb' : b' = b <;> simp [hb', hb]
  | some k => simp only [mfind_mput]; rfl
theorem samePhases_modBlk (b : Nat) (F : Block → Block) (s : State) (hF : ∀ k, (F k).phase = k.phase) : SamePhases s (modBlk b F s) := by
  refine ⟨fun b' => ?_⟩
  rw [mfind_modBlk_blocks]
  split
  · rename_i h
    subst h
    cases mfind s.blocks b' <;> simp [hF]
  · rfl
theorem samePhases_modCore (g : Nat) (F : Core → Core) (s : State) : SamePhases s (modCore g F s) := .of_blocks rfl
theorem samePhases_modTh (b r : Nat) (F : Thread → Thread) (s : State) : SamePhases s (modTh b r F s) :=
  samePhases_modBlk b _ s fun k => by split <;> rfl

-- The yard -------------------------------------------------------------------------------------------------------

theorem samePhases_fileThread (g b r : Nat) (s : State) : SamePhases s (fileThread g b r s) := by
  unfold fileThread
  simp only
  split
  · exact (samePhases_modTh ..).after rfl
  · split <;> exact (samePhases_modTh ..).after rfl
theorem samePhases_fileReady (g n : Nat) (s : State) : SamePhases s (fileReady g n s) := by
  induction n generalizing s with
  | zero => exact .refl s
  | succ n ih =>
    unfold fileReady
    simp only
    split
    · exact .refl s
    · split
      · refine SamePhases.trans ?_ (ih _)
        exact (samePhases_fileThread ..).after rfl
      · exact .refl s
theorem samePhases_clearYard (b : Nat) (s : State) : SamePhases s (clearYard b s) := (samePhases_fileReady ..).after rfl
theorem samePhases_evictYard (b : Nat) (s : State) : SamePhases s (evictYard b s) := (samePhases_clearYard b s).trans (.of_blocks rfl)

-- Charges and late results ----------------------------------------------------------------------------------------

theorem samePhases_chargePath (region : Nat) (cores backing : Int) (s : State) : SamePhases s (chargePath region cores backing s) := by
  refine SamePhases.foldl _ (fun s a => ?_) _ s
  exact .of_blocks rfl
theorem samePhases_departDeficit (k : Block) (s : State) : SamePhases s (departDeficit k s) :=
  (samePhases_modBlk k.id (fun b => { b with residence := k.residence + (nowOf s k.core - k.since) }) s fun _ => rfl).trans (.of_blocks rfl)
theorem samePhases_dropEntry (b id : Nat) (s : State) : SamePhases s (dropEntry b id s) := samePhases_modBlk _ _ s fun _ => rfl
theorem samePhases_lateResult (b : Nat) (ranks : List Nat) (d : BitVec 9) (v : Word) (out : Nat) (entry : Option Nat) (s : State) :
    SamePhases s (lateResult b ranks d v out entry s) := by
  unfold lateResult
  refine (SamePhases.foldl (fun s r => modTh b r (lateWrite d v out entry) s) (fun s r => samePhases_modTh b r _ s) ranks s).trans ?_
  simp only
  split
  · exact samePhases_dropEntry ..
  · split
    · exact samePhases_modBlk _ _ _ fun _ => rfl
    · exact .refl _
  · exact .refl _
theorem samePhases_settleCtx (target status : Nat) (s : State) : SamePhases s (settleCtx target status s) :=
  (SamePhases.foldl _ (fun _ _ => samePhases_lateResult ..) _ _).after (t := { s with ctxWaits := s.ctxWaits.filter (fun w => w.target != target) }) rfl

end Sys2Proof.Machine
end

section
/-! Saving and resumption (R36, R37, R94-R97, R148): the branches of CONTEXT_SAVE and RESUMPTION, and the phase a written image leaves its block in. -/
namespace Sys2Proof.Machine

-- CONTEXT_SAVE ----------------------------------------------------------------------------------------------------

/-- The state in which a save has begun. -/
def savingOf (b : Nat) (s : State) : State := modBlk b (fun k => { k with saving := true }) s

theorem exec_contextSave_off {s : State} {b : Nat} (h : mayStop s b = false) : exec (.contextSave b) s = .next s := by
  show execContextSave b s = _
  simp [execContextSave, h]
theorem exec_contextSave_begun {s : State} {b : Nat} (h : mayStop s b = true)
    (hw : saveHeld (savingOf b s) (getBlk (savingOf b s) b) = true ∨ heldReach (savingOf b s) (saveBlock b (savingOf b s)) ≠ []) :
    exec (.contextSave b) s = .next (savingOf b s) := by
  show execContextSave b s = _
  unfold savingOf at hw ⊢
  simp only [execContextSave, h, Bool.not_true, Bool.false_eq_true, if_false]
  rcases hw with hw | hw
  · rw [if_pos hw]
  · split
    · rfl
    · rw [if_neg (by simpa using hw)]
theorem exec_contextSave_served {s : State} {b : Nat} (h : mayStop s b = true) (hheld : saveHeld (savingOf b s) (getBlk (savingOf b s) b) = false)
    (hserved : heldReach (savingOf b s) (saveBlock b (savingOf b s)) = []) : exec (.contextSave b) s = .next (saveBlock b (savingOf b s)) := by
  show execContextSave b s = _
  unfold savingOf at hheld hserved ⊢
  simp only [execContextSave, h, hheld, hserved, Bool.not_true, Bool.false_eq_true, if_false, List.isEmpty_nil, if_true]


-- The image (R95, R96) -------------------------------------------------------------------------------------------------

/-- Consists of a block that its image holds. -/
def imageConsists (s : State) (b : Nat) : Nat :=
  (getBlk s b).savedConsists.length + ((getCore s (getBlk s b).core).consists.filter (fun e => e.2.blk == b)).length
/-- The image of a block whose registers are written back, and the state in which the caches have been written back before it. -/
def imageBytes (s : State) (b : Nat) : List Byte × State :=
  imageOf (getBlk s b) (grantOf (getCore s (getBlk s b).core) (getBlk s b)) (imageConsists s b) (flushRdc (fieldOf (getBlk s b).core) (flushL1 (getBlk s b).core s))

theorem saveBlock_pinned {s : State} {b : Nat} (h : anyPinned (getBlk (saveRegs b s) b) = true) : saveBlock b s = saveRegs b s := by
  simp [saveBlock, h]
theorem saveBlock_unwritten {s : State} {b : Nat} (h : anyPinned (getBlk (saveRegs b s) b) = false)
    (hput : termPuts (getBlk (saveRegs b s) b).region 1000 (getBlk (saveRegs b s) b).handle (imageBytes (saveRegs b s) b).1 (imageBytes (saveRegs b s) b).2 = none) :
    saveBlock b s = (imageBytes (saveRegs b s) b).2 := by
  unfold imageBytes imageConsists at hput ⊢
  simp only [saveBlock, h, Bool.false_eq_true, if_false]
  rw [hput]

/-- A block whose image is written is SAVED: what is left to do keeps every phase (R96). -/
theorem saveBlock_written {s s3 : State} {b : Nat} (h : anyPinned (getBlk (saveRegs b s) b) = false)
    (hput : termPuts (getBlk (saveRegs b s) b).region 1000 (getBlk (saveRegs b s) b).handle (imageBytes (saveRegs b s) b).1 (imageBytes (saveRegs b s) b).2 = some s3)
    (hblk : mfind s3.blocks b ≠ none) : (getBlk (saveBlock b s) b).phase = .saved := by
  unfold imageBytes imageConsists at hput
  simp only [saveBlock, h, Bool.false_eq_true, if_false]
  rw [hput]
  simp only
  rw [(samePhases_settleCtx ..).phase, (samePhases_fileReady ..).phase, getBlk_modBlk_same]
  rw [SamePhases.isSome (s := s3)]
  · exact Option.isSome_iff_ne_none.2 hblk
  · refine SamePhases.trans ?_ (samePhases_modCore ..)
    refine SamePhases.trans ?_ (samePhases_chargePath ..)
    refine SamePhases.trans ?_ (samePhases_departDeficit ..)
    refine SamePhases.trans ?_ (samePhases_evictYard ..)
    exact samePhases_modBlk _ _ _ fun _ => rfl

-- RESUMPTION ------------------------------------------------------------------------------------------------------------

/-- A saved unit may come back (R37, R256). -/
def mayReturn (s : State) (b : Nat) : Prop :=
  (getBlk s b).phase = .saved ∧ (∀ k ∈ unitBlocks s b, k.phase = .saved ∧ k.held = false ∧ k.halted = false) ∧
    coresRoom s (getBlk s b).region (unitBlocks s b).length = true

/-- The test that RESUMPTION makes says just that. -/
theorem resumption_test (s : State) (b : Nat) :
    ((getBlk s b).phase != .saved || !(unitBlocks s b).all (fun k => k.phase == .saved && !k.held && !k.halted) ||
      !coresRoom s (getBlk s b).region (unitBlocks s b).length) = true ↔ ¬ mayReturn s b := by
  have hunit : (unitBlocks s b).all (fun k => k.phase == .saved && !k.held && !k.halted) = true ↔
      ∀ k ∈ unitBlocks s b, k.phase = .saved ∧ k.held = false ∧ k.halted = false := by simp [and_assoc]
  rw [mayReturn, ← hunit]
  simp only [Bool.or_eq_true, bne_iff_ne, Bool.not_eq_true', ← Bool.not_eq_true]
  tauto

theorem exec_resumption_off {s : State} {b : Nat} (h : ¬ mayReturn s b) : exec (.resumption b) s = .next s := by
  show execResumption b s = _
  simp only [execResumption, (resumption_test s b).2 h, if_true]
theorem exec_resumption_badImage {s s1 : State} {b : Nat} (h : mayReturn s b) (hgood : unitGood (unitBlocks s b) s = (false, s1)) :
    exec (.resumption b) s = .next s1 := by
  show execResumption b s = _
  simp only [execResumption, if_neg (mt (resumption_test s b).1 (not_not.2 h)), hgood, Bool.not_false, if_true]
theorem exec_resumption_noPlace {s s1 : State} {b : Nat} (h : mayReturn s b) (hgood : unitGood (unitBlocks s b) s = (true, s1))
    (hplace : resumePlace (readResume (unitBlocks s b) s1) (unitBlocks s b) = none) : exec (.resumption b) s = .next (readResume (unitBlocks s b) s1) := by
  show execResumption b s = _
  simp only [execResumption, if_neg (mt (resumption_test s b).1 (not_not.2 h)), hgood, Bool.not_true, Bool.false_eq_true, if_false, hplace]
theorem exec_resumption_restores {s s1 : State} {b : Nat} {gs : List Nat} (h : mayReturn s b) (hgood : unitGood (unitBlocks s b) s = (true, s1))
    (hplace : resumePlace (readResume (unitBlocks s b) s1) (unitBlocks s b) = some gs) :
    exec (.resumption b) s = .next (((unitBlocks s b).zip gs).foldl restoreOn (readResume (unitBlocks s b) s1)) := by
  show execResumption b s = _
  simp only [execResumption, if_neg (mt (resumption_test s b).1 (not_not.2 h)), hgood, Bool.not_true, Bool.false_eq_true, if_false, hplace]

/-- Settles O38: the branches of CONTEXT_SAVE, by how far the save comes, and of RESUMPTION. -/
theorem saveAndResume : Obligations.SaveAndResume := by
  intro s b unit s0 served s1 k n image free
  refine ⟨exec_contextSave_off, fun h hw => exec_contextSave_begun h (.inl hw), fun h _ hw => exec_contextSave_begun h (.inr hw), fun h hheld hserved hpin => ?_,
    fun h hheld hserved hpin hput => ?_, fun s3 h hheld hserved hpin hput hblk => ⟨_, exec_contextSave_served h hheld hserved, saveBlock_written hpin hput hblk⟩,
    exec_resumption_off, fun s1 => exec_resumption_badImage, fun s1 => exec_resumption_noPlace, fun s1 gs => exec_resumption_restores⟩
  · exact (exec_contextSave_served h hheld hserved).trans (congrArg _ (saveBlock_pinned hpin))
  · exact (exec_contextSave_served h hheld hserved).trans (congrArg _ (saveBlock_unwritten hpin hput))

end Sys2Proof.Machine
end

section
/-! What writing caches back leaves alone (R77, R160): every yoke FIFO, though watches wake and file threads on the way. -/
namespace Sys2Proof.Machine

/-- Every core's yoke FIFO holds what it held. -/
structure SameFifos (s t : State) : Prop where
  same : ∀ g, (getCore t g).fifo = (getCore s g).fifo

theorem SameFifos.refl (s : State) : SameFifos s s := ⟨fun _ => rfl⟩
theorem SameFifos.trans {s t u : State} (h : SameFifos s t) (h' : SameFifos t u) : SameFifos s u := ⟨fun g => (h'.same g).trans (h.same g)⟩
theorem SameFifos.of_cores {s t : State} (h : t.cores = s.cores) : SameFifos s t := ⟨fun g => by rw [getCore, getCore, h]⟩
/-- An operation after a change that leaves the cores alone, or before one. -/
theorem SameFifos.after {s t u : State} (h : SameFifos t u) (hcores : t.cores = s.cores) : SameFifos s u := (of_cores hcores).trans h
theorem SameFifos.before {s t u : State} (h : SameFifos s t) (hcores : u.cores = t.cores) : SameFifos s u := h.trans (of_cores hcores)
theorem SameFifos.foldl {α : Type} (f : State → α → State) (h : ∀ s a, SameFifos s (f s a)) (l : List α) (s : State) : SameFifos s (l.foldl f s) :=
  foldl_inv (SameFifos s) f l s (.refl s) fun a _ ht => ht.trans (h _ a)

theorem sameFifos_modCore (g : Nat) (F : Core → Core) (s : State) (hF : ∀ c, (F c).fifo = c.fifo) : SameFifos s (modCore g F s) := by
  refine ⟨fun g' => ?_⟩
  rw [getCore_modCore]
  split
  · rename_i h
    rw [hF, h]
  · rfl
theorem sameFifos_modTh (b r : Nat) (F : Thread → Thread) (s : State) : SameFifos s (modTh b r F s) := .of_cores (modBlk_cores ..)

-- Threads that wake ---------------------------------------------------------------------------------------------------

theorem sameFifos_fileThread (g b r : Nat) (s : State) : SameFifos s (fileThread g b r s) := by
  unfold fileThread
  simp only
  split
  · refine SameFifos.trans ?_ (sameFifos_modTh ..)
    exact sameFifos_modCore _ _ _ fun _ => rfl
  · split
    all_goals
      refine SameFifos.trans ?_ (sameFifos_modTh ..)
      exact sameFifos_modCore _ _ _ fun _ => rfl
theorem sameFifos_makeReady (b r : Nat) (s : State) : SameFifos s (makeReady b r s) := by
  unfold makeReady
  simp only
  split
  · exact sameFifos_fileThread ..
  · exact (sameFifos_modTh ..).before (modBlk_cores ..)
theorem sameFifos_endWait (b r : Nat) (p : Wait → Bool) (s : State) : SameFifos s (endWait b r p s) := by
  unfold endWait
  simp only
  split
  · refine SameFifos.trans ?_ (sameFifos_makeReady ..)
    exact (sameFifos_modTh ..).after rfl
  · exact (sameFifos_modTh ..).after rfl
theorem sameFifos_wakeLines (f : Nat) (lns : List Nat) (s : State) : SameFifos s (wakeLines f lns s) := by
  unfold wakeLines
  simp only
  split
  · exact .refl s
  · exact (SameFifos.foldl (fun s w => wakeOne w s) (fun _ _ => sameFifos_endWait ..) _ _).after (modFld_cores ..)
theorem sameFifos_wakeLine (ln : Nat) (s : State) : SameFifos s (wakeLine ln s) := by
  unfold wakeLine
  split
  · exact .refl s
  · exact sameFifos_wakeLines ..

-- Requests between fields are only counted -------------------------------------------------------------------------------

theorem sameFifos_llcMiss (w : Option Bool) (n pa : Nat) (s : State) : SameFifos s (llcMiss w n pa s) := by
  unfold llcMiss
  split
  · exact .refl s
  · split
    · exact .refl s
    · exact .of_cores (perfAdd_cores ..)
theorem sameFifos_flits (s : State) : SameFifos s (flits s) := by
  unfold flits
  refine SameFifos.foldl _ (fun s e => ?_) _ s
  exact .of_cores (perfAdd_cores ..)
theorem sameFifos_homeReq (w : Option Bool) (f ln : Nat) (s : State) : SameFifos s (homeReq w f ln s) := by
  unfold homeReq crossReq
  split
  · exact .refl s
  · split
    · exact sameFifos_llcMiss ..
    · exact ((sameFifos_flits _).after ((perfAdd_cores ..).trans (perfAdd_cores ..))).trans (sameFifos_llcMiss ..)

-- Homes (R138, R140-R142) --------------------------------------------------------------------------------------------------

theorem sameFifos_correctHome (pa n : Nat) (s : State) : SameFifos s (correctHome pa n s) := by
  unfold correctHome
  split
  · exact .refl s
  · simp only
    split <;> exact .of_cores rfl
theorem sameFifos_wakePch (pa : Nat) (s : State) : SameFifos s (wakePch pa s) := by
  unfold wakePch
  split
  · simp only
    split <;> split <;> exact .of_cores rfl
  · exact .refl s
/-- The data of a line that a window shows lie in one pseudo-channel, and its scales, where it has any, in another. -/
theorem sameFifos_wakePchs (data scales : Nat) (c : Bool) (s : State) : SameFifos s (wakePch data (if c = true then s else wakePch scales s)) := by
  split
  · exact sameFifos_wakePch ..
  · exact (sameFifos_wakePch ..).trans (sameFifos_wakePch ..)
theorem sameFifos_aliasDrop (ln : Nat) (s : State) : SameFifos s (aliasDrop ln s) := by
  unfold aliasDrop
  split
  · simp only
    split
    · exact .of_cores rfl
    · refine SameFifos.trans ?_ (sameFifos_wakeLines ..)
      refine SameFifos.trans ?_ (sameFifos_wakePchs ..)
      split <;> exact .of_cores rfl
  · exact .refl s
theorem sameFifos_aliasWay (f pa : Nat) (s : State) : SameFifos s (aliasWay f pa s).2 := by
  unfold aliasWay
  simp only
  split
  · exact .refl s
  · exact (SameFifos.foldl (fun s (e : Nat × Line) => aliasDrop e.1 s) (fun _ _ => sameFifos_aliasDrop ..) _ _).after rfl
theorem sameFifos_homeRead (ln : Nat) (s : State) : SameFifos s (homeRead ln s).2 := by
  fun_cases homeRead ln s
  case case1 => exact .refl s
  case case2 f w o _ _ e n sb sn _ read t bad d p way u hway =>
    have hread : SameFifos s t := ((sameFifos_correctHome ..).trans (sameFifos_correctHome ..)).trans (sameFifos_wakePchs ..)
    have hkept : SameFifos t u := by
      have hway : (aliasWay f (ln * 128) t).2 = u := congrArg Prod.snd hway
      exact hway ▸ sameFifos_aliasWay f (ln * 128) t
    exact (hread.trans hkept).before rfl
  case case3 => exact (sameFifos_wakePch ..).trans (sameFifos_correctHome ..)
theorem sameFifos_overtake (ln : Nat) (m : BitVec 128) (s : State) : SameFifos s (overtake ln m s) := by
  unfold overtake
  split <;> exact .of_cores rfl
theorem sameFifos_homeWrite (ln : Nat) (d : BitVec 1024) (m : BitVec 128) (s : State) : SameFifos s (homeWrite ln d m s) := by
  unfold homeWrite
  split
  · exact .refl s
  · refine (sameFifos_overtake ln m s).trans ?_
    simp only
    split
    · refine (sameFifos_homeRead ln _).trans ?_
      split <;> exact .of_cores rfl
    · refine SameFifos.trans ?_ (sameFifos_wakeLine ..)
      exact (sameFifos_wakePch ..).after rfl
theorem sameFifos_homePoison (ln : Nat) (p : BitVec 16) (m : BitVec 128) (s : State) : SameFifos s (homePoison ln p m s) := by
  unfold homePoison
  simp only
  split
  · exact .refl s
  · split <;> exact .of_cores rfl

-- Caches (R135, R139, R161) ---------------------------------------------------------------------------------------------------

theorem sameFifos_cleanRdc (f ln : Nat) (s : State) : SameFifos s (cleanRdc f ln s) := by
  unfold cleanRdc
  split
  · exact .refl s
  · split
    · exact .refl s
    · refine SameFifos.trans ?_ (sameFifos_homePoison ..)
      refine SameFifos.trans ?_ (sameFifos_homeWrite ..)
      exact (sameFifos_homeReq ..).before (modFld_cores ..)
theorem sameFifos_rdcRoom (f ln : Nat) (s : State) : SameFifos s (rdcRoom f ln s) := by
  unfold rdcRoom
  simp only
  split
  · exact .refl s
  · refine SameFifos.before ?_ (modFld_cores ..)
    exact (sameFifos_cleanRdc ..).after rfl
theorem sameFifos_fldWrite (w : Option Bool) (f ln : Nat) (d : BitVec 1024) (m : BitVec 128) (s : State) : SameFifos s (fldWrite w f ln d m s) := by
  unfold fldWrite
  split
  · exact ((sameFifos_overtake ..).trans (sameFifos_rdcRoom ..)).before (modFld_cores ..)
  · exact (sameFifos_homeReq ..).trans (sameFifos_homeWrite ..)
theorem sameFifos_cleanL1 (g ln : Nat) (s : State) : SameFifos s (cleanL1 g ln s) := by
  unfold cleanL1
  split
  · exact .refl s
  · split
    · exact .refl s
    · simp only
      have hwrite := fun l : Line => (sameFifos_modCore g (fun c => { c with l1 := putKept ln (cleaned l) c.l1 }) s fun _ => rfl).trans
        (sameFifos_fldWrite none (fieldOf g) ln l.data l.dirty _)
      split
      · exact (hwrite _).before (modFld_cores ..)
      · exact (hwrite _).trans (sameFifos_homePoison ..)
theorem sameFifos_flushL1 (g : Nat) (s : State) : SameFifos s (flushL1 g s) := SameFifos.foldl _ (fun s ln => sameFifos_cleanL1 g ln s) _ s

end Sys2Proof.Machine
end

section
/-! The module as a device (R35, R78, R289-R307, R456): governors, the upper tier's gate, in-field tests, reset. -/
namespace Sys2Proof.Machine

-- The governor (R289-R296) --------------------------------------------------------------------------------------------

theorem tripHot_iff (tl td : Int) : tripHot tl td = true ↔ 115 * 16 ≤ tl ∨ 105 * 16 ≤ td := by
  simp only [tripHot, Bool.or_eq_true, decide_eq_true_eq]
theorem tripHot_eq_false {tl td : Int} (h : ¬ (115 * 16 ≤ tl ∨ 105 * 16 ≤ td)) : tripHot tl td = false := by
  rwa [← tripHot_iff, Bool.not_eq_true] at h

/-- A field trips: the state it enters is the hottest that it has (R295). -/
theorem tripNow_eq (f : Nat) (s : State) : tripNow f s =
    let t := enterState f (if f = fallow s then 6 else 7) true
      (modFld f (fun k => { k with tripped := true, capForce := 5, divForce := 2, relCap := 0, relDiv := 0 }) s)
    sbEvent (0, f) (.governor f (getFld t f).sense (if f = fallow s then 6 else 7) true) t := by
  simp only [tripNow, beq_iff_eq]

theorem exec_trip_hot {s : State} {f : Nat} {tl td : Int} (hf : f < 64) (htripped : (getFld s f).tripped = false) (hot : 115 * 16 ≤ tl ∨ 105 * 16 ≤ td) :
    exec (.trip f tl td) s = .next (tripNow f s) := by
  show execTrip f tl td s = _
  simp only [execTrip, htripped, (tripHot_iff tl td).mpr hot, Nat.not_le.mpr hf, decide_false, Bool.or_false, Bool.not_true, Bool.false_eq_true, if_false]
theorem exec_trip_none {s : State} {f : Nat} {tl td : Int} (h : (getFld s f).tripped = true ∨ (tl < 115 * 16 ∧ td < 105 * 16)) :
    exec (.trip f tl td) s = .next s := by
  show execTrip f tl td s = _
  unfold execTrip
  refine if_pos ?_
  rcases h with htripped | ⟨hlogic, hdram⟩
  · simp only [htripped, Bool.or_true, Bool.true_or]
  · have hcold : tripHot tl td = false := tripHot_eq_false (by omega)
    simp only [hcold, Bool.not_false, Bool.or_true]

/-- The state in which a window of a field has ended, with what its sensors read (R291). -/
def windowEnd (f : Nat) (i : GovInputs) (s : State) : State :=
  modFld f (fun k => { k with
      sense := BitVec.ofNat 64 (wrap 16 i.tlogic + wrap 16 i.tdram * 2 ^ 16 + i.power % 2 ^ 16 * 2 ^ 32), td := i.tdram, shares := i.shares, oldShares := []
      corrected := k.corrected.filter (fun c => 16 < c.2) })
    (setNow f (((getFld s f).now / 65536 + 1) * 65536) s)

theorem exec_governorEvaluation_trips {s : State} {f : Nat} {i : GovInputs} (hf : f < 64) (htripped : (getFld (windowEnd f i s) f).tripped = false)
    (hot : 115 * 16 ≤ i.tlogic ∨ 105 * 16 ≤ i.tdram) : exec (.governorEvaluation f i) s =
      .next (tripNow f (modFld f (fun k => { k with ceiling := ceilingOf (windowEnd f i s) f }) (windowEnd f i s))) := by
  show execGovernorEvaluation f i s = _
  unfold execGovernorEvaluation
  rw [if_neg (Nat.not_le.mpr hf)]
  refine if_pos ?_
  rw [Bool.and_eq_true, Bool.not_eq_true']
  exact ⟨htripped, (tripHot_iff ..).mpr hot⟩
theorem exec_governorEvaluation_held {s : State} {f : Nat} {i : GovInputs} (hf : f < 64) (htripped : (getFld (windowEnd f i s) f).tripped = true)
    (hwarm : 112 * 16 ≤ i.tlogic ∨ 102 * 16 ≤ i.tdram) : exec (.governorEvaluation f i) s =
      .next (modFld f (fun k => { k with ceiling := ceilingOf (windowEnd f i s) f }) (windowEnd f i s)) := by
  have hheld : (decide (i.tlogic < 112 * 16) && decide (i.tdram < 102 * 16)) = false := by
    simp only [Bool.and_eq_false_iff, decide_eq_false_iff_not]
    omega
  show execGovernorEvaluation f i s = _
  unfold execGovernorEvaluation
  rw [if_neg (Nat.not_le.mpr hf)]
  refine (if_neg ?_).trans (if_pos ?_)
  · rw [Bool.and_eq_true, Bool.not_eq_true', not_and]
    exact fun hclear => absurd (htripped.symm.trans hclear) Bool.noConfusion
  · rw [Bool.and_eq_true, Bool.not_eq_true']
    exact ⟨htripped, hheld⟩

/-- The field at a window's end that neither trips nor keeps its trip: each control moves to what is wanted (R292-R294). -/
def governed (f : Nat) (i : GovInputs) (w : State) : State :=
  let kw := getFld w f
  let cap := if kw.tripped then 5 else kw.capForce
  let div := if kw.tripped then 2 else kw.divForce
  let pw := capPower cap i.power
  let nCap := if pw < cap ∧ capOf (i.tlogic + 48) < cap then (if kw.tripped then 1 else kw.relCap + 1) else 0
  let nDiv := if refreshOf (i.tdram + 48) < div then (if kw.tripped then 1 else kw.relDiv + 1) else 0
  let cap' := moveStep (max (capOf i.tlogic) pw) cap nCap
  let div' := moveStep (refreshOf i.tdram) div nDiv
  let t := modFld f (fun k => { k with
    tripped := false, ceiling := ceilingOf w f, capForce := cap', divForce := div', relCap := min nCap 4, relDiv := min nDiv 4 }) w
  enterState f (gradState (f == fallow t) (ceilingOf w f) cap' div') false t

theorem exec_governorEvaluation_moves {s : State} {f : Nat} {i : GovInputs} (hf : f < 64)
    (hcool : ((getFld (windowEnd f i s) f).tripped = false ∧ ¬ (115 * 16 ≤ i.tlogic ∨ 105 * 16 ≤ i.tdram)) ∨
      ((getFld (windowEnd f i s) f).tripped = true ∧ ¬ (112 * 16 ≤ i.tlogic ∨ 102 * 16 ≤ i.tdram))) :
    exec (.governorEvaluation f i) s = .next (governed f i (windowEnd f i s)) := by
  show execGovernorEvaluation f i s = _
  unfold execGovernorEvaluation
  rw [if_neg (Nat.not_le.mpr hf)]
  refine (if_neg ?_).trans ((if_neg ?_).trans ?_)
  · rw [Bool.and_eq_true, Bool.not_eq_true', tripHot_iff, not_and]
    intro hclear
    rcases hcool with ⟨-, hcold⟩ | ⟨htripped, -⟩
    · exact hcold
    · exact absurd (htripped.symm.trans hclear) Bool.noConfusion
  · simp only [Bool.and_eq_true, Bool.not_eq_true', Bool.and_eq_false_iff, decide_eq_false_iff_not, not_and]
    intro htripped
    rcases hcool with ⟨hclear, -⟩ | ⟨-, hcold⟩
    · exact absurd (htripped.symm.trans hclear) Bool.noConfusion
    · omega
  · clear hcool
    rw [← windowEnd.eq_1 f i s, governed]
    generalize windowEnd f i s = w
    cases (getFld w f).tripped <;> simp only [Bool.and_eq_true, decide_eq_true_eq, if_true, Bool.false_eq_true, if_false]

theorem exec_clockStretch {s : State} {f n : Nat} (hf : f < 64) : exec (.clockStretch f n) s = .next (evAdd f 0x08 n s) := by
  show execClockStretch f n s = _
  rw [execClockStretch, if_neg (Nat.not_le.mpr hf)]

-- The upper tier (R35, R78) -------------------------------------------------------------------------------------------

/-- The cores of a field that the state lists. -/
def coresIn (f : Nat) (s : State) : List Nat := (mkeys s.cores).filter (fun g => fieldOf g == f)
/-- The tier's gate has closed to blocks. -/
def tierClosing (f : Nat) (s : State) : State := modFld f (fun k => { k with gating := true }) s
/-- The L1s of the tier's cores are written back and have lost their clean bytes. -/
def tierFlushed (f : Nat) (s : State) : State :=
  (coresIn f s).foldl (fun s g => if 128 ≤ g % 256 then modCore g (fun c => { c with l1 := dropClean false c.l1 }) (flushL1 g s) else s) (tierClosing f s)
/-- What stands in the FIFOs of a pair of cores. -/
def pairFifos (f n : Nat) (s : State) : List YEntry := (getCore s (f * 256 + n)).fifo ++ (getCore s (f * 256 + n + 128)).fifo
/-- Every FIFO of the listed cores is emptied. -/
def emptyFifos (gs : List Nat) (s : State) : State := gs.foldl (fun s g => modCore g (fun c => { c with fifo := [] }) s) s
/-- The tier is down, and what stood in the FIFOs stands in the buffers. -/
def tierDown (f : Nat) (s : State) : State :=
  modFld f (fun k => { k with
      gated := true, gating := false
      yokeBuf := ((upto 128).filter (fun n => !(pairFifos f n (tierFlushed f s)).isEmpty)).map (fun n => (n, pairFifos f n (tierFlushed f s))) })
    (emptyFifos (coresIn f s) (tierFlushed f s))

/-- Buffers that hold only what is not empty, as a filter and a map. -/
theorem filterMap_nonempty {α β : Type} (B : α → List β) (l : List α) :
    l.filterMap (fun n => if (B n).isEmpty then none else some (n, B n)) = (l.filter (fun n => !(B n).isEmpty)).map (fun n => (n, B n)) := by
  induction l with
  | nil => rfl
  | cons n rest ih =>
    rw [List.filterMap_cons, List.filter_cons, ih]
    cases (B n).isEmpty <;> rfl
theorem mget_map_of_mem {α : Type} (d : α) (B : Nat → α) (l : List Nat) {n : Nat} (h : n ∈ l) : mget d (l.map (fun n => (n, B n))) n = B n := by
  induction l with
  | nil => cases h
  | cons m rest ih =>
    by_cases hm : m = n
    · simp [mget, mfind, hm]
    · have hrest : n ∈ rest := (List.mem_cons.mp h).resolve_left (Ne.symm hm)
      simpa [mget, mfind, hm] using ih hrest
theorem mget_map_of_not_mem {α : Type} (d : α) (B : Nat → α) (l : List Nat) {n : Nat} (h : n ∉ l) : mget d (l.map (fun n => (n, B n))) n = d := by
  rw [mget, mfind_eq_none_of_forall_ne, Option.getD_none]
  intro e he
  obtain ⟨m, hm, rfl⟩ := List.mem_map.mp he
  rintro rfl
  exact h hm
/-- A buffer that is listed only where it is not empty reads as what it holds. -/
theorem mget_nonempty {β : Type} (B : Nat → List β) (l : List Nat) {n : Nat} (h : n ∈ l) :
    mget [] ((l.filter (fun n => !(B n).isEmpty)).map (fun n => (n, B n))) n = B n := by
  by_cases hempty : B n = []
  · rw [hempty]
    exact mget_map_of_not_mem _ _ _ (by simp [hempty])
  · exact mget_map_of_mem _ _ _ (by simp [h, hempty])

theorem exec_upperTierGate_down {s : State} {f : Nat} (hf : f < 64) (hgated : (getFld s f).gated = false) (hblocks : blocksIn s f true = []) :
    exec (.upperTierGate f) s = .next (tierDown f s) := by
  have hblocks' : blocksIn (tierClosing f s) f true = [] := hblocks
  show execUpperTierGate f s = _
  unfold execUpperTierGate
  refine (if_neg ?_).trans ?_
  · simp [hgated, hf]
  rw [← tierClosing.eq_1 f s]
  simp only [hblocks', List.foldl_nil, List.isEmpty_nil, Bool.not_true, Bool.false_eq_true, if_false]
  rw [tierDown, ← filterMap_nonempty]
  rfl
theorem exec_upperTierGate_asks {s : State} {f : Nat} (hf : f < 64) (hgated : (getFld s f).gated = false) (hblocks : blocksIn s f true ≠ []) :
    exec (.upperTierGate f) s = .next ((blocksIn s f true).foldl (fun s b =>
      preemptUnit b.id (modCore b.core (fun c => { c with heldFor := true }) (modBlk b.id (fun k => { k with coreHeld := true }) s))) (tierClosing f s)) := by
  show execUpperTierGate f s = _
  unfold execUpperTierGate
  refine (if_neg ?_).trans (if_pos ?_)
  · simp [hgated, hf]
  · rw [Bool.not_eq_true', List.isEmpty_eq_false_iff]
    exact hblocks
theorem exec_upperTierGate_gated {s : State} {f : Nat} (hgated : (getFld s f).gated = true) : exec (.upperTierGate f) s = .next s := by
  show execUpperTierGate f s = _
  simp only [execUpperTierGate, hgated, Bool.or_true, if_true]

theorem sameFifos_tierFlushed (f : Nat) (s : State) : SameFifos s (tierFlushed f s) := by
  refine SameFifos.after (SameFifos.foldl _ (fun s g => ?_) _ _) (modFld_cores ..)
  split
  · exact (sameFifos_flushL1 g s).trans (sameFifos_modCore _ _ _ fun _ => rfl)
  · exact .refl s
theorem fifo_emptyFifos (gs : List Nat) (s : State) (g : Nat) : (getCore (emptyFifos gs s) g).fifo = if g ∈ gs then [] else (getCore s g).fifo := by
  unfold emptyFifos
  induction gs generalizing s with
  | nil => rfl
  | cons h rest ih =>
    rw [List.foldl_cons, ih, getCore_modCore]
    by_cases hg : g = h
    · simp [hg]
    · simp [hg]
/-- A core that the state does not list has an empty FIFO. -/
theorem fifo_of_not_listed {s : State} {g : Nat} (h : g ∉ mkeys s.cores) : (getCore s g).fifo = [] := by
  have hnone : mfind s.cores g = none := by_contra fun hsome => h (mfind_of_mem_keys _ _ hsome)
  rw [getCore, mget, hnone]
  rfl
/-- No FIFO of the field holds anything when the tier is down (R78). -/
theorem fifo_tierDown {s : State} {f g : Nat} (hg : fieldOf g = f) : (getCore (tierDown f s) g).fifo = [] := by
  show (getCore (emptyFifos (coresIn f s) (tierFlushed f s)) g).fifo = []
  rw [fifo_emptyFifos]
  split
  · rfl
  · next hmem =>
    rw [(sameFifos_tierFlushed f s).same g]
    refine fifo_of_not_listed fun hlisted => hmem ?_
    exact List.mem_filter.mpr ⟨hlisted, beq_iff_eq.mpr hg⟩
/-- With the tier down, the buffers hold what stood in the FIFOs (R78). -/
theorem tierDown_buffers (f : Nat) (s : State) : (getFld (tierDown f s) f).gated = true ∧ (getFld (tierDown f s) f).gating = false ∧
    ∀ n < 128, mget [] (getFld (tierDown f s) f).yokeBuf n = pairFifos f n (tierFlushed f s) ∧
      (getCore (tierDown f s) (f * 256 + n)).fifo = [] ∧ (getCore (tierDown f s) (f * 256 + n + 128)).fifo = [] := by
  rw [show getFld (tierDown f s) f = _ from getFld_modFld_same ..]
  refine ⟨rfl, rfl, fun n hn => ⟨?_, fifo_tierDown ?_, fifo_tierDown ?_⟩⟩
  · exact mget_nonempty (fun n => pairFifos f n (tierFlushed f s)) _ (List.mem_range.mpr hn)
  · show (f * 256 + n) / 256 = f
    omega
  · show (f * 256 + n + 128) / 256 = f
    omega

theorem exec_upperTierUngate_refills {s : State} {f : Nat} (hgated : (getFld s f).gated = true) :
    ∃ t, exec (.upperTierUngate f) s = .next t ∧ (getFld t f).gated = false ∧ (getFld t f).yokeBuf = [] := by
  refine ⟨_, if_neg (by simp [hgated]), ?_⟩
  rw [getFld_modFld_same]
  exact ⟨rfl, rfl⟩
theorem exec_upperTierUngate_open {s : State} {f : Nat} (hgated : (getFld s f).gated = false) : exec (.upperTierUngate f) s = .next s :=
  if_pos (by simp [hgated])

-- Tests and start-up (R299-R307, R456) --------------------------------------------------------------------------------

theorem exec_inFieldTest_begins {s : State} {f : Nat} (hf : f < 64) (hfallow : f ≠ fallow s) (htesting : (getFld s f).testing = false) :
    exec (.inFieldTest f) s = .next ((blocksIn s f false).foldl (fun s b => preemptUnit b.id s) (modFld f (fun k => { k with testing := true }) s)) :=
  (if_neg (by simp [hf, hfallow])).trans (if_pos (by simp [htesting]))
theorem exec_inFieldTest_ends {s : State} {f : Nat} (hf : f < 64) (hfallow : f ≠ fallow s) (htesting : (getFld s f).testing = true)
    (hblocks : blocksIn s f false = []) : exec (.inFieldTest f) s = .next (modFld f (fun k => { k with testing := false }) s) :=
  (if_neg (by simp [hf, hfallow])).trans ((if_neg (by simp [htesting])).trans (if_pos (by simp [hblocks])))
theorem exec_inFieldTest_none {s : State} {f : Nat} (h : f = fallow s ∨ ((getFld s f).testing = true ∧ blocksIn s f false ≠ [])) :
    exec (.inFieldTest f) s = .next s := by
  show execInFieldTest f s = _
  unfold execInFieldTest
  rcases h with hfallow | ⟨htesting, hblocks⟩
  · exact if_pos (by simp [← hfallow])
  · simp [htesting, hblocks]
theorem bootStep_stopped {b : BootInputs} {n : Nat} {s : State} (h : bit s.bootStat 13 = true) :
    bootStep b n s = ({ s with bootRecs := mput s.bootRecs n (bootRec s n 0 0) }, true) := if_pos h

/-- Settles O43: event by event. -/
theorem deviceEvents : Obligations.DeviceEvents := by
  intro s f n tl td i b hf k sense window kw trips hot warm capped
  have htrips : ∀ s, trips s = tripNow f s := fun s => (tripNow_eq f s).symm
  refine ⟨fun htripped hhot => ?_, exec_trip_none, fun htripped hhot => ?_, exec_governorEvaluation_held hf, exec_governorEvaluation_moves hf,
    exec_clockStretch hf, ⟨exec_upperTierGate_down hf, fun hgated hblocks => ⟨_, exec_upperTierGate_down hf hgated hblocks, tierDown_buffers f s⟩,
    exec_upperTierGate_asks hf⟩, exec_upperTierGate_gated, exec_upperTierUngate_refills, exec_upperTierUngate_open, exec_inFieldTest_begins hf,
    exec_inFieldTest_ends hf, exec_inFieldTest_none, rfl, bootStep_stopped⟩
  · rw [htrips]
    exact exec_trip_hot hf htripped hhot
  · rw [htrips]
    exact exec_governorEvaluation_trips hf htripped hhot

end Sys2Proof.Machine
end

section
/-! Why the clause about a whole consist fails: nothing in it says that the consists of the core are listed in rising order of their numbers. -/
namespace Sys2Proof.Machine

/-- A clause whose one instruction has issued, and a consist of one thread that runs it. -/
def endedClause : Clause := { id := 0, header := 0, len := 1, issued := 1 }
def endedConsist : Consist := { uid := 0, blk := 0, slots := some 0 :: List.replicate 31 none, clause := some endedClause }
/-- A core that lists 63 consists, number 1 before number 0, runs the clause of number 0, and has a thread ready. -/
def unorderedCore : Core :=
  { consists := (1, endedConsist) :: (0, endedConsist) :: (upto 61).map (fun i => (i + 2, endedConsist)), running := some 0, ready := [(0, 0)] }
/-- A resident block of one thread on that core. -/
def unorderedState : State := modCore 0 (fun _ => unorderedCore) (hostBlock State.reset)

/-- Consist 0, which `mput` lists again before number 1, makes 64 of the 63, and is given up for the ready thread. -/
theorem clauseEnd_breaks_unordered : (match exec (.clauseEnd 0) unorderedState with | .next t => (consistOf t 0 0).isNone | _ => false) = true := by decide +kernel

/-- Refutes O32: of 63 consists that are not listed in the order of their numbers, the one whose clause ends is listed twice, counts as the 64th, and does not stay whole. -/
theorem not_clauseEndAndFormation : ¬ Obligations.ClauseEndAndFormation := by
  intro h
  obtain ⟨-, -, hwhole, -⟩ := h unorderedState 0 0 0 0 0 (.siding 0)
  have hmembers : membersOf endedConsist.slots = [(0, 0)] := by decide +kernel
  obtain ⟨t, y, hexec, hy, -⟩ := hwhole endedConsist endedClause 24 false (by decide +kernel) rfl rfl (by decide +kernel)
    (by decide +kernel) (by decide +kernel) (by decide +kernel) (by decide +kernel) (by decide +kernel) (by decide) rfl rfl rfl (by decide +kernel) (by decide +kernel)
    (by
      intro l hl
      rw [hmembers, List.mem_singleton] at hl
      subst hl
      refine ⟨?_, ?_, ?_, ?_, ?_, ?_, ?_, ?_⟩ <;> decide +kernel)
  have hbroken := clauseEnd_breaks_unordered
  rw [hexec] at hbroken
  simp [hy] at hbroken

end Sys2Proof.Machine
end

section
/-! Why the clause about scalar destinations fails: `writeLanes` takes the value of the lowest-slot thread among ALL the instruction's threads (R49, R59), and nothing in the
clause says that these are the active ones. -/
namespace Sys2Proof.Machine

/-- A block of two threads, of ranks 0 and 1. -/
def twoThreads : State := { State.reset with blocks := [(0, { (default : Block) with members := [(0, {}), (1, {})] })] }
/-- Slot 1 goes on alone, as after a register fill of slot 0 that has faulted. -/
def secondGoesOn : Ctx :=
  { g := 0, cn := 0, uid := 0, blk := 0, slots := [some 0, some 1], canon := false, base := 0, clause := 0, setA := false, setB := false, last := false, afterYoke := false
    pc := 0, rep := none, exec := [(0, 0), (1, 1)], active := [(1, 1)], regs := [], all := [(0, 0), (1, 1)] }

/-- Each thread offers its slot, and the scalar register takes slot 0's. -/
theorem scalar_takes_inactive_value : regAt (writeLanes secondGoesOn 0x100 1 (fun l => l.1) twoThreads) 0 1 0x100 = 0 := by decide +kernel

/-- Refutes O60: where a thread below the active ones has dropped out of the instruction, the scalar destination takes that thread's value. -/
theorem not_predicateAndScalarWrites : ¬ Obligations.PredicateAndScalarWrites := by
  intro h
  obtain ⟨-, -, -, hscalar⟩ := h
  have hwritten := hscalar twoThreads secondGoesOn 0x100 (fun l => l.1) (1, 1) [] rfl rfl rfl (by simp) (by decide) (by decide +kernel) (1, 1) (by simp [secondGoesOn])
    (by decide +kernel)
  have hclash := scalar_takes_inactive_value.symm.trans hwritten
  exact absurd hclash (by decide)

end Sys2Proof.Machine
end

section
/-! Words inside a `repeat` (R356, R357): what a stepped specifier is, and the issue of each format with its fields stepped or past v255. -/
namespace Sys2Proof.Machine

-- Stepped fields -----------------------------------------------------------------------------------------------

/-- A stepped specifier is `k` registers up where its field is masked. -/
theorem toNat_of_stepSpec {on : Bool} {k : Nat} {x y : BitVec 9} (h : stepSpec on k x = some y) : y.toNat = x.toNat + if on then k else 0 := by
  unfold stepSpec at h
  split at h
  · split at h
    · rename_i hon hlt
      simp only [Option.some.injEq] at h
      simp only [← h, hon, if_true, BitVec.toNat_ofNat]
      omega
    · cases h
  · rename_i hon
    simp_all
theorem stepSpec_past {on : Bool} {k : Nat} {x : BitVec 9} (h : on = true ∧ 256 ≤ x.toNat + k) : stepSpec on k x = none := by
  simp [stepSpec, h.1, Nat.not_lt.2 h.2]

theorem stepA_some {mask : BitVec 4} {k : Nat} {f f' : FmtA} (h : stepA mask k f = some f') : ∃ d a b c,
    stepSpec (bit mask 0) k f.d = some d ∧ stepSpec (bit mask 1) k f.a = some a ∧ stepSpec (bit mask 2) k f.b = some b ∧ stepSpec (bit mask 3) k f.c = some c ∧
    f' = { f with d := d, a := a, b := b, c := c } := by
  unfold stepA at h
  split at h
  · rename_i d a b c hd ha hb hc
    exact ⟨d, a, b, c, hd, ha, hb, hc, (Option.some.inj h).symm⟩
  · cases h
theorem stepI_some {mask : BitVec 4} {k : Nat} {f f' : FmtI} (h : stepI mask k f = some f') :
    ∃ d, stepSpec (bit mask 0) k f.d = some d ∧ f' = { f with d := d } := by
  unfold stepI at h
  split at h
  · rename_i d hd
    exact ⟨d, hd, (Option.some.inj h).symm⟩
  · cases h
theorem stepM_some {mask : BitVec 4} {k : Nat} {f f' : FmtM} (h : stepM mask k f = some f') : ∃ d b x,
    stepSpec (bit mask 0) k f.data = some d ∧ stepSpec (bit mask 1) k f.base = some b ∧ stepSpec (bit mask 2) k f.index = some x ∧
    f' = { f with data := d, base := b, index := x } := by
  unfold stepM at h
  split at h
  · rename_i d b x hd hb hx
    exact ⟨d, b, x, hd, hb, hx, (Option.some.inj h).symm⟩
  · cases h

theorem stepA_past {mask : BitVec 4} {k : Nat} {f : FmtA} (h : stepSpec (bit mask 0) k f.d = none ∨ stepSpec (bit mask 1) k f.a = none ∨
    stepSpec (bit mask 2) k f.b = none ∨ stepSpec (bit mask 3) k f.c = none) : stepA mask k f = none := by
  rcases hs : stepA mask k f with _ | f'
  · rfl
  · obtain ⟨d, a, b, c, hd, ha, hb, hc, -⟩ := stepA_some hs
    simp_all
theorem stepI_past {mask : BitVec 4} {k : Nat} {f : FmtI} (h : stepSpec (bit mask 0) k f.d = none) : stepI mask k f = none := by
  simp only [stepI, h]
theorem stepM_past {mask : BitVec 4} {k : Nat} {f : FmtM} (h : stepSpec (bit mask 0) k f.data = none ∨ stepSpec (bit mask 1) k f.base = none ∨
    stepSpec (bit mask 2) k f.index = none) : stepM mask k f = none := by
  rcases hs : stepM mask k f with _ | f'
  · rfl
  · obtain ⟨d, b, x, hd, hb, hx, -⟩ := stepM_some hs
    simp_all

-- Issue ----------------------------------------------------------------------------------------------------------

section
variable {s : State} {c : Ctx} {r : Rep}

theorem issueA_stepped {x : FmtA → Instr} {f f' : FmtA} (eff : FmtA → Ctx → State → Fin) (hrep : c.rep = some r) (hc : context (x f) s = some c)
    (h : stepA r.mask (r.done * r.step) f = some f') : issueA x f eff s = .next (issueIn (x f) (x f') false (eff f') c s) := by
  simp only [issueA, hc, hrep, h]
theorem issueI_stepped {x : FmtI → Instr} {f f' : FmtI} (eff : FmtI → Ctx → State → Fin) (hrep : c.rep = some r) (hc : context (x f) s = some c)
    (h : stepI r.mask (r.done * r.step) f = some f') : issueI x f eff s = .next (issueIn (x f) (x f') false (eff f') c s) := by
  simp only [issueI, hc, hrep, h]
theorem issueM_stepped {x : FmtM → Instr} {f f' : FmtM} (eff : FmtM → Ctx → State → Fin) (hrep : c.rep = some r) (hc : context (x f) s = some c)
    (h : stepM r.mask (r.done * r.step) f = some f') : issueM x f eff s = .next (issueIn (x f) (x f') false (eff f') c s) := by
  simp only [issueM, hc, hrep, h]

/-- A word with a register past v255 that may issue raises REG_RANGE and does nothing else. -/
theorem issueIn_tooFar {i : Instr} (eff : Ctx → State → Fin) (h : wordCause i i c s = none ∧ guardPending i c s = false ∧ c.active ≠ []) :
    issueIn i i true eff c s = advance c (raiseOperand i c c.active cRegRange s) := by
  obtain ⟨hcause, hguard, hactive⟩ := h
  have hsome : c.active.isEmpty = false := List.isEmpty_eq_false_iff.2 hactive
  simp only [issueIn, hcause, hguard, hsome, Bool.true_or, Bool.false_eq_true, if_false, if_true]

theorem issueA_past {x : FmtA → Instr} {f : FmtA} (eff : FmtA → Ctx → State → Fin) (hrep : c.rep = some r) (hc : context (x f) s = some c)
    (h : stepA r.mask (r.done * r.step) f = none) (hmay : wordCause (x f) (x f) c s = none ∧ guardPending (x f) c s = false ∧ c.active ≠ []) :
    issueA x f eff s = .next (advance c (raiseOperand (x f) c c.active cRegRange s)) := by
  simp only [issueA, hc, hrep, h, issueIn_tooFar (eff f) hmay]
theorem issueI_past {x : FmtI → Instr} {f : FmtI} (eff : FmtI → Ctx → State → Fin) (hrep : c.rep = some r) (hc : context (x f) s = some c)
    (h : stepI r.mask (r.done * r.step) f = none) (hmay : wordCause (x f) (x f) c s = none ∧ guardPending (x f) c s = false ∧ c.active ≠ []) :
    issueI x f eff s = .next (advance c (raiseOperand (x f) c c.active cRegRange s)) := by
  simp only [issueI, hc, hrep, h, issueIn_tooFar (eff f) hmay]
theorem issueM_past {x : FmtM → Instr} {f : FmtM} (eff : FmtM → Ctx → State → Fin) (hrep : c.rep = some r) (hc : context (x f) s = some c)
    (h : stepM r.mask (r.done * r.step) f = none) (hmay : wordCause (x f) (x f) c s = none ∧ guardPending (x f) c s = false ∧ c.active ≠ []) :
    issueM x f eff s = .next (advance c (raiseOperand (x f) c c.active cRegRange s)) := by
  simp only [issueM, hc, hrep, h, issueIn_tooFar (eff f) hmay]

end

/-- Settles O12: a format's step moves each masked field, or finds one past v255. -/
theorem repeatSteps : Obligations.RepeatSteps := by
  intro s c r hrep k moved past mayIssue
  refine ⟨?_, ?_, ?_, ?_, ?_, ?_⟩
  · intro f f' x eff hc hstep
    obtain ⟨d, a, b, c', hd, ha, hb, hc', rfl⟩ := stepA_some hstep
    exact ⟨issueA_stepped eff hrep hc hstep, toNat_of_stepSpec hd, toNat_of_stepSpec ha, toNat_of_stepSpec hb, toNat_of_stepSpec hc', rfl, rfl, rfl, rfl, rfl⟩
  · intro f f' hc hstep
    obtain ⟨d, hd, rfl⟩ := stepI_some hstep
    exact ⟨issueI_stepped effMovi hrep hc hstep, toNat_of_stepSpec hd, rfl, rfl, rfl, rfl, rfl, rfl, rfl⟩
  · intro f f' x eff hc hstep
    obtain ⟨d, b, i, hd, hb, hi, rfl⟩ := stepM_some hstep
    exact ⟨issueM_stepped eff hrep hc hstep, toNat_of_stepSpec hd, toNat_of_stepSpec hb, toNat_of_stepSpec hi, rfl, rfl, rfl, rfl, rfl, rfl, rfl, rfl⟩
  · intro f x eff hc hpast hmay
    exact issueA_past eff hrep hc (stepA_past (hpast.imp stepSpec_past (Or.imp stepSpec_past (Or.imp stepSpec_past stepSpec_past)))) hmay
  · intro f hc hpast hmay
    exact issueI_past effMovi hrep hc (stepI_past (stepSpec_past hpast)) hmay
  · intro f x eff hc hpast hmay
    exact issueM_past eff hrep hc (stepM_past (hpast.imp stepSpec_past (Or.imp stepSpec_past stepSpec_past))) hmay

end Sys2Proof.Machine
end

section
/-! What returns (R71, R72, R92, R148, R234, R235, R259, R369): an equation of each event in each of its cases. -/
namespace Sys2Proof.Machine

-- Outstanding results and accesses (R71, R72, R148) --------------------------------------------------------------

/-- What keeps an outstanding number of a thread from being settled: another event's part, or a held access. -/
def outKept (s : State) (b r n : Nat) : Bool := outHeld s b n || (getTh s b r).outs.any (fun o => o.id == n && accessHeld s (getTh s b r) o)

theorem outKept_false {s : State} {b r n : Nat} (hout : outHeld s b n = false)
    (hacc : ∀ o ∈ (getTh s b r).outs, o.id = n → accessHeld s (getTh s b r) o = false) : outKept s b r n = false := by
  simp only [outKept, hout, Bool.false_or, List.any_eq_false, Bool.and_eq_true, beq_iff_eq, not_and]
  intro o ho hid
  simp [hacc o ho hid]
theorem outKept_true {s : State} {b r n : Nat}
    (h : outHeld s b n = true ∨ ∃ o ∈ (getTh s b r).outs, o.id = n ∧ accessHeld s (getTh s b r) o = true) : outKept s b r n = true := by
  simpa [outKept] using h

theorem resultReturn_kept {s : State} {b r n : Nat} (h : outKept s b r n = true) : exec (.instructionResultReturn b r n) s = .next s := if_pos h
theorem accessComplete_kept {s : State} {b r n : Nat} (h : outKept s b r n = true) : exec (.accessComplete b r n) s = .next s := if_pos h
theorem resultReturn_settled {s : State} {b r n : Nat} (h : outKept s b r n = false) : exec (.instructionResultReturn b r n) s = .next (modTh b r (fun t =>
    { t with outs := (modWhere (fun o => o.id == n) (fun o => { o with a := false }) t.outs).filter (fun o => o.a || o.b || o.id != n) }) s) :=
  if_neg (Bool.eq_false_iff.1 h)
theorem accessComplete_settled {s : State} {b r n : Nat} (h : outKept s b r n = false) : exec (.accessComplete b r n) s = .next (modTh b r (fun t =>
    { t with outs := (modWhere (fun o => o.id == n) (fun o => { o with b := false }) t.outs).filter (fun o => o.a || o.b || o.id != n) }) s) :=
  if_neg (Bool.eq_false_iff.1 h)

-- Comparisons and decrements (R92, R259) ---------------------------------------------------------------------------

theorem shadowCompare_queued {s : State} {g : Nat} {e : ShadowEnt} {rest : List ShadowEnt} (differ : BitVec 32) (h : (getCore s g).shadowQ = e :: rest) :
    exec (.shadowCompare g differ) s = .next (shadowMismatch e.blk ((membersOf e.slots).filter (fun l => bit differ l.1 || bit e.forced l.1)) e.pc e.rep
      (perfCore g e.blk 0x15 1 (evAdd (fieldOf g) 0x50 1 (modCore g (fun c => { c with shadowQ := rest }) s)))) := by
  show execShadowCompare .. = _
  simp only [execShadowCompare, h]
theorem shadowCompare_empty {s : State} {g : Nat} (differ : BitVec 32) (h : (getCore s g).shadowQ = []) :
    exec (.shadowCompare g differ) s = .next (modCore g (fun c => { c with laneErr := differ }) s) := by
  show execShadowCompare .. = _
  simp only [execShadowCompare, h]
theorem counterDecrement_some {s : State} {idx n : Nat} (h : s.decs[idx]? = some n) :
    exec (.counterDecrement idx) s = .next (decCounter n { s with decs := s.decs.eraseIdx idx }) := by
  show execCounterDecrement .. = _
  simp only [execCounterDecrement, h]
theorem counterDecrement_none {s : State} {idx : Nat} (h : s.decs[idx]? = none) : exec (.counterDecrement idx) s = .next s := by
  show execCounterDecrement .. = _
  simp only [execCounterDecrement, h]

-- Launch records (R196, R369) ---------------------------------------------------------------------------------------

/-- The status of a launch record: the first that applies (R196). -/
def launchStatus (s : State) (x : InFlight) : Nat :=
  let q := getQ s x.queue
  if 256 ≤ x.queue ∨ q.state = .unbound ∨ qDevice q = false then 3
  else if below s x.region (qRegion q) = false then 4
  else if q.state ≠ .active then 2
  else if (q.wr - q.rd).toNat = 2 ^ qLog q then 1
  else 0
/-- A launch record that is accepted enters its queue's ring and journal (R196, R209). -/
def launchEnters (x : InFlight) (q : Queue) (s : State) : State :=
  journal x.queue q.wr.toNat 1 0 (lTag x.image) 0 (modQ x.queue (fun k => { k with wr := k.wr + 1 }) (homePuts (ringAt q q.wr.toNat) (toBytes 64 x.image) s))

theorem launchRecordWrite_none {s : State} {idx : Nat} (h : s.inflight[idx]? = none) : exec (.launchRecordWrite idx) s = .next s := by
  show execLaunchRecordWrite .. = _
  simp only [execLaunchRecordWrite, h]
theorem launchRecordWrite_held {s : State} {idx : Nat} {x : InFlight} (h : s.inflight[idx]? = some x) (hheld : x.pchs.any (pchHeld s) = true) :
    exec (.launchRecordWrite idx) s = .next s := by
  show execLaunchRecordWrite .. = _
  simp only [execLaunchRecordWrite, h, hheld, if_true]
theorem launchRecordWrite_served {s : State} {idx : Nat} {x : InFlight} (h : s.inflight[idx]? = some x) (hheld : x.pchs.any (pchHeld s) = false) :
    let s1 := { s with inflight := s.inflight.eraseIdx idx }
    let s4 := lateResult x.blk x.ranks x.d (BitVec.ofNat 32 (launchStatus s x)) x.out x.entry
      (if launchStatus s x ≠ 0 then s1 else launchEnters x (getQ s x.queue) s1)
    exec (.launchRecordWrite idx) s = .next (if launchStatus s x = 4 then x.ranks.foldl (fun s t => queueDeferred x.blk t cPriv 0 0 s) s4 else s4) := by
  show execLaunchRecordWrite .. = _
  simp only [execLaunchRecordWrite, h, hheld, launchStatus, launchEnters, Bool.false_eq_true, if_false, Bool.or_eq_true, beq_iff_eq, bne_iff_ne, decide_eq_true_eq,
    Bool.not_eq_true', or_assoc]
  rfl

-- Acknowledgements (R234, R235) --------------------------------------------------------------------------------------

theorem tlbinvAck_stray {s : State} {idx agent : Nat} (h : s.invals[idx]? = none ∨ ∃ v, s.invals[idx]? = some v ∧ agent ∉ v.agents) :
    exec (.tlbinvAck idx agent) s = .next s := by
  rcases h with h | ⟨v, h, hagent⟩
  · show execTlbinvAck .. = _
    simp only [execTlbinvAck, h]
  · show execTlbinvAck .. = _
    simp [execTlbinvAck, h, hagent]
section
variable {s : State} {idx agent : Nat} {v : Inval}
theorem tlbinvAck_awaited (h : s.invals[idx]? = some v) (hagent : agent ∈ v.agents) (hleft : v.agents.filter (· != agent) ≠ []) :
    let t := agentDrop agent v.form v.va v.root s
    exec (.tlbinvAck idx agent) s = .next { t with invals := t.invals.set idx { v with agents := v.agents.filter (· != agent) } } := by
  have hsome : (v.agents.filter (· != agent)).isEmpty = false := List.isEmpty_eq_false_iff.2 hleft
  show execTlbinvAck .. = _
  simp [execTlbinvAck, h, hagent, hsome]
theorem tlbinvAck_last (h : s.invals[idx]? = some v) (hagent : agent ∈ v.agents) (hleft : v.agents.filter (· != agent) = []) :
    let t := agentDrop agent v.form v.va v.root s
    let u := { t with invals := t.invals.eraseIdx idx }
    exec (.tlbinvAck idx agent) s = .next (match v.blk with | some b => endSyncs b v.id (dropOuts b v.ranks v.out u) | none => u) := by
  show execTlbinvAck .. = _
  simp only [execTlbinvAck, h, hleft, List.contains_iff_mem.2 hagent, Bool.not_true, List.isEmpty_nil, Bool.false_eq_true, if_false]
  cases v.blk <;> rfl
end

/-- Settles O33: each event's equation, by what it finds to return. -/
theorem returnEvents : Obligations.ReturnEvents := by
  intro s b r n g idx agent differ
  refine ⟨?_, ?_, ?_, shadowCompare_empty differ, ?_, ?_, ?_, ?_, launchRecordWrite_none, counterDecrement_none, tlbinvAck_stray, ?_⟩
  · intro hout hacc
    exact ⟨resultReturn_settled (outKept_false hout hacc), accessComplete_settled (outKept_false hout hacc)⟩
  · intro hkept
    exact ⟨resultReturn_kept (outKept_true hkept), accessComplete_kept (outKept_true hkept)⟩
  · intro e rest hq
    exact shadowCompare_queued differ hq
  · intro c hdec hctr
    rw [counterDecrement_some hdec, decCounter, if_neg hctr]
  · intro c hdec hctr
    rw [counterDecrement_some hdec, decCounter, if_pos hctr]
  · intro x hx hheld
    exact launchRecordWrite_held hx hheld
  · intro x hx hheld
    exact launchRecordWrite_served hx hheld
  · intro v hv hagent
    refine ⟨tlbinvAck_awaited hv hagent, fun hleft hblk => ?_, fun b hleft hblk => ?_⟩
    · rw [tlbinvAck_last hv hagent hleft, hblk]
    · rw [tlbinvAck_last hv hagent hleft, hblk]

end Sys2Proof.Machine
end

section
/-! Errors, host access and moves of ranges (R58, R140, R172, R188, R239-R242, R299, R308): an equation of each event in each of its cases. -/
namespace Sys2Proof.Machine

-- Errors (R140, R188) ----------------------------------------------------------------------------------------------

theorem coreEvent_eq (g off : Nat) (s : State) : coreEvent g off s = if fieldOf g = fallow s then s else evAdd (fieldOf g) off 1 s := by
  simp only [coreEvent, beq_iff_eq]
/-- A bit error where a cache holds no line does nothing. -/
theorem lineError_none (f word : Nat) (dbl : Bool) (drop : State → State) (put : Line → State → State) (s : State) :
    lineError f word dbl none drop put s = s := rfl
theorem lineError_single (f word : Nat) (l : Line) (drop : State → State) (put : Line → State → State) (s : State) :
    lineError f word false (some l) drop put s = evAdd f 0x30 1 s := rfl
theorem lineError_double (f word : Nat) (l : Line) (drop : State → State) (put : Line → State → State) (s : State) :
    lineError f word true (some l) drop put s = if l.dirty = 0 then evAdd f 0x38 1 (drop s) else if bit l.poison word = true then s
      else evAdd f 0x40 1 (put { l with poison := l.poison ||| (1 <<< word) } s) := rfl

/-- The place of the error stays open here, so that the equations below each meet one place. -/
theorem exec_softError (p : ErrorPlace) (dbl : Bool) (s : State) : exec (.softError p dbl) s = execSoftError p dbl s := rfl
theorem softError_l1 (s : State) (g pa : Nat) (dbl : Bool) : exec (.softError (.l1 g pa) dbl) s =
    .next (lineError (fieldOf g) (pa / 8 % 16) dbl (mfind (getCore s g).l1 (pa / 128)) (modCore g (fun c => { c with l1 := mdel c.l1 (pa / 128) }))
      (fun l => modCore g (fun c => { c with l1 := mput c.l1 (pa / 128) l })) s) := rfl
theorem softError_rdc (s : State) (f pa : Nat) (dbl : Bool) : exec (.softError (.rdc f pa) dbl) s =
    .next (lineError f (pa / 8 % 16) dbl (mfind (getFld s f).rdc (pa / 128)) (modFld f (fun k => { k with rdc := mdel k.rdc (pa / 128) }))
      (fun l => modFld f (fun k => { k with rdc := mput k.rdc (pa / 128) l })) s) := rfl
theorem softError_register (s : State) (b r i : Nat) (dbl : Bool) : exec (.softError (.register b r i) dbl) s =
    .next (if i < 256 ∧ resident (getBlk s b) = true then regError b r i (softBits (getTh s b r) i dbl) s else s) := by
  simp only [exec_softError, execSoftError, Bool.and_eq_true, decide_eq_true_eq]
theorem softError_scratch_single {s : State} {g off : Nat} (h : off < 262144) : exec (.softError (.scratch g off) false) s = .next (coreEvent g 0x30 s) := by
  simp only [exec_softError, execSoftError, Nat.not_le.2 h, if_false, Bool.not_false, if_true]
theorem softError_scratch_double {s : State} {g off : Nat} (h : off < 262144) : exec (.softError (.scratch g off) true) s = .next (
    if (off / 8, true) ∈ (getCore s g).scratchErr then s
    else coreEvent g 0x40 (modCore g (fun c => { c with scratchErr := (off / 8, true) :: c.scratchErr.filter (fun e => e.1 != off / 8) }) s)) := by
  simp only [exec_softError, execSoftError, Nat.not_le.2 h, if_false, Bool.not_true, Bool.false_eq_true, List.contains_iff_mem]
theorem softError_scratch_beyond {s : State} {g off : Nat} (dbl : Bool) (h : 262144 ≤ off) : exec (.softError (.scratch g off) dbl) s = .next s := by
  simp only [exec_softError, execSoftError, h, if_true]
theorem softError_llcScratch (s : State) (f j w off : Nat) (dbl : Bool) : exec (.softError (.llcScratch f j w off) dbl) s = .next (
    let key := (w * 2 ^ 20 + off % 2 ^ 20) / 8
    if role (getSlice s f j).inForce w ≠ 1 then s
    else if dbl = false then evAdd f 0x30 1 s
    else if (key, true) ∈ (getSlice s f j).scratchErr then s
    else evAdd f 0x40 1 (modSlice f j (fun k => { k with scratchErr := (key, true) :: k.scratchErr.filter (fun e => e.1 != key) }) s)) := by
  simp only [exec_softError, execSoftError, bne_iff_ne, Bool.not_eq_true', List.contains_iff_mem]
theorem softError_furrow (s : State) (f j w row seg : Nat) (dbl : Bool) : exec (.softError (.furrow f j w row seg) dbl) s = .next (
    if role (getSlice s f j).inForce w ≠ 2 ∨ 128 ≤ row ∨ 1024 ≤ seg then s
    else modSlice f j (fun k => { k with badSeg := (w, row, seg) :: k.badSeg.filter (· != (w, row, seg)) }) s) := by
  simp only [exec_softError, execSoftError, Bool.or_eq_true, bne_iff_ne, decide_eq_true_eq, or_assoc]

-- Host access (R172, R308) -------------------------------------------------------------------------------------------

/-- What the host may reach through its BARs beside the control space: 1 to 4096 bytes of host memory, or of non-secure device memory, all backed. -/
def hostReach (s : State) (pa n : Nat) : Prop :=
  0 < n ∧ n ≤ 4096 ∧ (target pa = .host ∨ ∃ h o, target pa = .dev h o) ∧
    ∀ i < n, backed s (pa + i) = true ∧ (target (pa + i) = .host ∨ ((∃ h o, target (pa + i) = .dev h o) ∧ paSecure s (pa + i) = false))
/-- The same, as HOST_ACCESS checks it. -/
def hostReachB (s : State) (pa n : Nat) : Bool :=
  0 < n && n ≤ 4096 && (match target pa with | .host => true | .dev _ _ => true | _ => false) &&
    (upto n).all (fun i => backed s (pa + i) && (match target (pa + i) with | .host => true | .dev _ _ => !paSecure s (pa + i) | _ => false))

theorem hostReachB_iff (s : State) (pa n : Nat) : hostReachB s pa n = true ↔ hostReach s pa n := by
  have hplace : ∀ a, (match target a with | .host => true | .dev _ _ => true | _ => false) = true ↔ (target a = .host ∨ ∃ h o, target a = .dev h o) := by
    intro a
    cases target a <;> simp
  have hopen : ∀ a, (match target a with | .host => true | .dev _ _ => !paSecure s a | _ => false) = true ↔
      (target a = .host ∨ ((∃ h o, target a = .dev h o) ∧ paSecure s a = false)) := by
    intro a
    cases target a <;> simp
  simp only [hostReachB, hostReach, Bool.and_eq_true, decide_eq_true_eq, hplace, List.all_eq_true, List.mem_range, hopen, and_assoc]

theorem hostAccess_shut {s : State} {pa : Nat} {write : Bool} {bytes : List Byte} (hup : s.hostUp = false) : exec (.hostAccess pa write bytes) s = .next s := by
  show execHostAccess .. = _
  simp only [execHostAccess, hup]
theorem hostAccess_ctl {s : State} {pa o : Nat} {write : Bool} {bytes : List Byte} (hup : s.hostUp = true) (hpa : target pa = .ctl o) :
    exec (.hostAccess pa write bytes) s = .next (
      if write = true ∧ bytes ≠ [] ∧ o + bytes.length ≤ 2 ^ 24 then { s with agenda := s.agenda ++ (hostWrites s o bytes).map .event } else s) := by
  show execHostAccess .. = _
  simp only [execHostAccess, hup, hpa, Bool.and_eq_true, bne_iff_ne, ne_eq, List.length_eq_zero_iff, decide_eq_true_eq, and_assoc]
theorem hostAccess_memory {s : State} {pa : Nat} {write : Bool} {bytes : List Byte} (hup : s.hostUp = true) (hpa : ∀ o, target pa ≠ .ctl o) :
    exec (.hostAccess pa write bytes) s = if (!hostReachB s pa bytes.length) = true then .next s
      else if write = true then .next ((upto (bytes.length / 128 + 1)).foldl (fun s i => homePuts (pa + 128 * i) ((bytes.drop (128 * i)).take 128) s) s)
      else .next ((upto (bytes.length / 128 + 1)).foldl (fun s i => (homeGets (pa + 128 * i) (min 128 (bytes.length - 128 * i)) s).2.2) s) := by
  show execHostAccess .. = _
  simp only [execHostAccess, hup]
  rfl
theorem not_ctl_of_hostReach {s : State} {pa n : Nat} (h : hostReach s pa n) (o : Nat) : target pa ≠ .ctl o := by
  obtain ⟨-, -, hhost | ⟨f, o', hdev⟩, -⟩ := h
  · simp [hhost]
  · simp [hdev]

-- Moves (R239-R242) -----------------------------------------------------------------------------------------------------

theorem migration_moves {s : State} {pa dst n f o h p : Nat} (hpa : target pa = .dev f o) (hdst : target dst = .dev h p) (hother : f ≠ h) (ho : o + n ≤ 2 ^ 36)
    (hp : p + n ≤ 2 ^ 36) (hn : n % 4096 = 0) (hpos : 0 < n) (hmax : n ≤ 2 ^ 30) (hsrc : pa % 4096 = 0) (hto : dst % 4096 = 0) :
    exec (.migration pa dst n) s = .next (migrate pa dst n s) := by
  have hfits : (f != h && decide (o + n ≤ 2 ^ 36) && decide (p + n ≤ 2 ^ 36)) = true := by
    simp only [bne_iff_ne, Bool.and_eq_true, decide_eq_true_eq, hother, ho, hp, ne_eq, not_false_eq_true, and_self]
  have hlen : decide (2 ^ 30 < n) = false := decide_eq_false (Nat.not_lt.2 hmax)
  have hsome : (n == 0) = false := beq_false_of_ne (Nat.ne_of_gt hpos)
  show execMigration .. = _
  simp only [execMigration, hpa, hdst, hfits, hn, hsome, hlen, hsrc, hto, bne_self_eq_false, Bool.not_true, Bool.or_false, Bool.false_eq_true, if_false]

section
variable {s : State} {region dst : Nat} {r : Nat × Nat} {fromHost may : Bool}
theorem moveRange_ends {m : Move} (h : s.moves.find? (fun m => m.region == region && m.lo == r.1 && m.dst == dst) = some m) :
    moveRange region dst r fromHost may s = endMove m s := by
  simp only [moveRange, h]
theorem moveRange_begins (h : s.moves.find? (fun m => m.region == region && m.lo == r.1 && m.dst == dst) = none) :
    moveRange region dst r fromHost may s = if may = true then startMove region r.1 r.2 dst fromHost s else s := by
  simp only [moveRange, h]
end

theorem rangeEviction_tried {s : State} {region va dst : Nat} (hrcb : (mfind s.rcbs region).isSome = true) (hhost : dst / 2 ^ 51 = 1) (hto : dst % 4096 = 0) :
    let r := rangeAt s region va
    let t := readLeaves region r.1 r.2 s
    exec (.rangeEviction region va dst) s = .next (moveRange region dst r false (rangeIn t region r true && mayEvict t region r) t) := by
  have hsome : (mfind s.rcbs region).isNone = false := by simpa using hrcb
  show execRangeEviction .. = _
  simp only [execRangeEviction, hsome, hhost, hto, bne_self_eq_false, Bool.or_false, Bool.false_eq_true, if_false]
theorem rangeEviction_refused {s : State} {region va dst : Nat} (h : mfind s.rcbs region = none ∨ dst / 2 ^ 51 ≠ 1 ∨ dst % 4096 ≠ 0) :
    exec (.rangeEviction region va dst) s = .next s := by
  have hbad : ((mfind s.rcbs region).isNone || dst / 2 ^ 51 != 1 || dst % 4096 != 0) = true := by
    simpa only [Bool.or_eq_true, Option.isNone_iff_eq_none, bne_iff_ne, or_assoc] using h
  show execRangeEviction .. = _
  simp only [execRangeEviction, hbad, if_true]

section
variable {s : State} {q va dst : Nat} {l : Launch} {u : UseList} {r : Nat × Nat}
theorem migrateBack_tried (hhead : (getQ s q).head.bind (fun id => mfind s.launches id) = some l)
    (hlist : s.useLists.find? (fun (u : UseList) => u.queue == q && u.index == l.index) = some u) (hrange : u.ranges.find? (covers va) = some r)
    (hfits : isDev dst = true ∧ isDev (dst + r.2 - 1) = true) (hto : dst % 4096 = 0) :
    exec (.rangeMigrateBack q va dst) s = .next (moveRange (qRegion (getQ s q)) dst r true true (readLeaves (qRegion (getQ s q)) r.1 r.2 s)) := by
  show execRangeMigrateBack .. = _
  simp [execRangeMigrateBack, hhead, hlist, hrange, hfits, hto]
theorem migrateBack_noRoom (hhead : (getQ s q).head.bind (fun id => mfind s.launches id) = some l)
    (hlist : s.useLists.find? (fun (u : UseList) => u.queue == q && u.index == l.index) = some u) (hrange : u.ranges.find? (covers va) = some r)
    (hfits : ¬(isDev dst = true ∧ isDev (dst + r.2 - 1) = true)) :
    exec (.rangeMigrateBack q va dst) s = .next (modLaunch l.id (fun l => { l with stay := r :: l.stay }) s) := by
  have hout : (!isDev dst || !isDev (dst + r.2 - 1)) = true := by
    rw [← Bool.not_and, Bool.not_eq_true', Bool.eq_false_iff, ne_eq, Bool.and_eq_true]
    exact hfits
  show execRangeMigrateBack .. = _
  simp only [execRangeMigrateBack, hhead, hlist, hrange, Option.bind_some, hout, if_true]
end
theorem migrateBack_noHead {s : State} {q va dst : Nat} (h : (getQ s q).head = none) : exec (.rangeMigrateBack q va dst) s = .next s := by
  show execRangeMigrateBack .. = _
  simp only [execRangeMigrateBack, h, Option.bind_none]

/-- Two ranges that are not empty meet where one begins inside the other. -/
theorem meets_iff {a b : Nat × Nat} (ha : 0 < a.2) (hb : 0 < b.2) : meets a b = true ↔ ∃ x, a.1 ≤ x ∧ x < a.1 + a.2 ∧ b.1 ≤ x ∧ x < b.1 + b.2 := by
  simp only [meets, Bool.and_eq_true, decide_eq_true_eq]
  constructor
  · intro h
    exact ⟨max a.1 b.1, by omega⟩
  · rintro ⟨x, hx⟩
    omega
/-- A range is evicted only where no launch that names it has a dispatched block (R242). -/
theorem undispatched_of_mayEvict {s : State} {region : Nat} {r : Nat × Nat} (h : mayEvict s region r = true) :
    ∀ u ∈ rangeUses s (regRoot s region) r, u.2.2 = false := by
  simp only [mayEvict, Bool.and_eq_true] at h
  simpa using h.1

/-- Settles O44: each event's equation, by what it finds in the place it names. -/
theorem memoryEvents : Obligations.MemoryEvents := by
  intro s g f ln i j w row seg pa off n q va dst region write bytes dbl counts room
  refine ⟨rfl, rfl, rfl, rfl, rfl, rfl, rfl, rfl, rfl, fun b r => softError_register s b r i dbl, ?_, ?_, softError_scratch_beyond dbl, ?_, ?_, ?_, ?_,
    softError_llcScratch s f j w off dbl, softError_furrow s f j w row seg dbl, hostAccess_shut, ?_, ?_, ?_, fun o hup hpa => hostAccess_ctl hup hpa, ?_, ⟨?_, rangeEviction_refused⟩,
    ?_, fun a b ha hb => meets_iff ha hb, undispatched_of_mayEvict, migrateBack_noHead⟩
  · intro hoff
    rw [softError_scratch_single hoff, coreEvent_eq]
  · intro hoff
    simp only [softError_scratch_double hoff, coreEvent_eq, counts]
  · intro hl
    rw [softError_l1, hl, lineError_none]
  · intro l hl
    simp only [softError_l1, hl, lineError_single, lineError_double, true_and]
  · intro hl
    rw [softError_rdc, hl, lineError_none]
  · intro l hl
    simp only [softError_rdc, hl, lineError_single, lineError_double, true_and]
  · intro hup hroom hwrite
    rw [hostAccess_memory hup (not_ctl_of_hostReach hroom), (hostReachB_iff s pa bytes.length).2 hroom, hwrite]
    rfl
  · intro hup hroom hwrite
    rw [hostAccess_memory hup (not_ctl_of_hostReach hroom), (hostReachB_iff s pa bytes.length).2 hroom, hwrite]
    rfl
  · intro hup hpa hroom
    have hshut : hostReachB s pa bytes.length = false := Bool.eq_false_iff.2 (mt (hostReachB_iff s pa bytes.length).1 hroom)
    rw [hostAccess_memory hup hpa, hshut]
    rfl
  · intro h o p hpa hdst hother ho hp hn hpos hmax hsrc hto
    exact migration_moves hpa hdst hother ho hp hn hpos hmax hsrc hto
  · intro hrcb hhost hto
    have htried := rangeEviction_tried (va := va) hrcb hhost hto
    refine ⟨fun hunder hin hmay => ?_, fun hunder hnot => ?_, fun m hunder => ?_⟩
    · rw [htried, moveRange_begins hunder, hin, hmay]
      rfl
    · rw [htried, moveRange_begins hunder, if_neg (by rcases hnot with h | h <;> simp [h])]
    · rw [htried, moveRange_ends hunder]
  · intro l u r hhead hlist hrange t under fits
    refine ⟨fun hfits hto hunder => ?_, fun m hfits hto hunder => ?_, migrateBack_noRoom hhead hlist hrange⟩
    · rw [migrateBack_tried hhead hlist hrange hfits hto, moveRange_begins hunder, if_pos rfl]
    · rw [migrateBack_tried hhead hlist hrange hfits hto, moveRange_ends hunder]

end Sys2Proof.Machine
end

section
/-! The drill's vector-side words (R52, R82, R282, R438-R442): what each effect is in each of its cases. -/
namespace Sys2Proof.Machine

/-- A word of format A whose effect stalls holds the port, and nothing changes (R27). -/
theorem issueA_stall {mk : FmtA → Instr} {f : FmtA} {eff : FmtA → Ctx → State → Fin} {s : State} {c : Ctx} (h : Issues (mk f) s c) (he : eff f c s = .stall) :
    issueA mk f eff s = .next s := by
  simp only [issueA, h.here, h.noRepeat, issueIn_stall h.ready he]

section
variable {f : FmtA} {s : State} {c : Ctx}

theorem effDrill_aligned (h : (BitVec.ofNat 64 (src64 c (lead c) f.a) : DWord).toNat % 4 = 0) : effDrill f c s = .done (modDrill c.blk (fun d =>
    { d with reading := true, addr := BitVec.ofNat 64 (src64 c (lead c) f.a), fault := none, again := false, failure := none, history := [] }) (flushL1 c.g s)) := by
  simp only [effDrill, pairA, h, bne_self_eq_false, Bool.false_eq_true, if_false]
theorem effDrill_misaligned (h : (BitVec.ofNat 64 (src64 c (lead c) f.a) : DWord).toNat % 4 ≠ 0) :
    effDrill f c s = .done (raiseAt c c.pc (c.active.take 1) cMisalign 0 (fun _ => BitVec.ofNat 64 (src64 c (lead c) f.a)) s) := by
  simp only [effDrill, pairA, bne_iff_ne, ne_eq, h, not_false_eq_true, if_true]
theorem effMready_counts (h : mget 0 (getBlk s c.blk).drill.readyCtr (nbits f.imm 0 4) < 65535) : effMready f c s = .done (modDrill c.blk (fun d =>
    { d with readyCtr := mput d.readyCtr (nbits f.imm 0 4) (mget 0 d.readyCtr (nbits f.imm 0 4) + 1) }) (flushL1 c.g s)) := by
  simp only [effMready, Nat.not_le.2 h, if_false]
theorem effMready_full (h : 65535 ≤ mget 0 (getBlk s c.blk).drill.readyCtr (nbits f.imm 0 4)) : effMready f c s = .stall := by
  simp only [effMready, h, if_true]
theorem effMwait_failed {code : BitVec 8} (h : (getBlk s c.blk).drill.failure = some code) : effMwait f c s = .done (raise c c.active code.toNat s) := by
  simp only [effMwait, h]
theorem effMwait_over (h : (getBlk s c.blk).drill.failure = none) (hfor : mwaitFor (getBlk s c.blk).drill (bit f.mods 0) (bits f.imm 0 8) = none) :
    effMwait f c s = .done (mwaitNow c.blk (getBlk s c.blk).drill (bit f.mods 0) (bits f.imm 0 8) s) := by
  simp only [effMwait, h, hfor]
theorem effMwait_waits {t : MTarget} (h : (getBlk s c.blk).drill.failure = none)
    (hfor : mwaitFor (getBlk s c.blk).drill (bit f.mods 0) (bits f.imm 0 8) = some t) :
    effMwait f c s = .done (c.active.foldl (fun s l => modTh c.blk l.2 (fun x => { x with waits := x.waits ++ [.matrix t c.pc], began := true }) s) s) := by
  simp only [effMwait, h, hfor, beginWait]
theorem effAccrd_free (h : accOwed s c.blk (f.a.toNat - 0x148) = false) :
    effAccrd f c s = .done (writeLanes c f.d 1 (fun l => (accGet (getBlk s c.blk) (f.a.toNat - 0x148) (src32 c l.2 f.b f.imm % 1024)).toNat) s) := by
  simp only [effAccrd, h, Bool.false_eq_true, if_false]
theorem effAccrd_owed (h : accOwed s c.blk (f.a.toNat - 0x148) = true) : effAccrd f c s = .done (
    let s := accFree c.blk (f.a.toNat - 0x148) 0 s
    writeLanes c f.d 1 (fun l => (Config.freeWord (s.free + l.1)).toNat) { s with free := s.free + 32 }) := by
  simp only [effAccrd, h, if_true]
theorem effAccwr_free (h : accOwed s c.blk (f.d.toNat - 0x148) = false) : effAccwr f c s = .done (c.active.foldl (fun s l =>
    accPut c.blk (f.d.toNat - 0x148) (src32 c l.2 f.b f.imm % 1024) (BitVec.ofNat 32 (srcVal c l.2 f.ty.toNat f.a 0)) s) s) := by
  simp only [effAccwr, h, Bool.false_eq_true, if_false]
theorem effAccwr_owed (h : accOwed s c.blk (f.d.toNat - 0x148) = true) : effAccwr f c s = .done (accFree c.blk (f.d.toNat - 0x148) 0 s) := by
  simp only [effAccwr, h, if_true]
end

/-- Settles O26: each effect, by the alignment, the counter, the failure or the owed tile it meets. -/
theorem drillWordResults : Obligations.DrillWordResults := by
  intro f s c k d gives n a
  exact ⟨fun ha h => issueA_next h (effDrill_aligned ha), fun ha h => issueA_next h (effDrill_misaligned ha),
    fun hroom h => issueA_next h (effMready_counts hroom), fun hfull h => issueA_stall h (effMready_full hfull),
    fun code hfail h => issueA_next h (effMwait_failed hfail), fun hfail hfor h => issueA_next h (effMwait_over hfail hfor),
    fun t hfail hfor h => issueA_next h (effMwait_waits hfail hfor),
    fun howed h => issueA_next h (effAccrd_free howed), fun howed h => issueA_next h (effAccrd_owed howed),
    fun howed h => issueA_next h (effAccwr_free howed), fun howed h => issueA_next h (effAccwr_owed howed), fun h => issueA_next h rfl⟩

end Sys2Proof.Machine
end

section
/-! Special registers, `launch`, `depdec` and `locq` (R66-R68, R90, R148, R368-R371). -/
namespace Sys2Proof.Machine

-- sets (R90) -----------------------------------------------------------------------------------------------------

/-- One thread's `sets`: TRAPPC in a handler, PRIV outside one (R90). -/
def setsOne (f : FmtA) (c : Ctx) (s : State) (l : Nat × Nat) : State :=
  if (getTh s c.blk l.2).trap = .handler then modTh c.blk l.2 (fun t => { t with trappc := BitVec.ofNat 64 (src64 c l.2 f.a), trappcWritten := true }) s
  else raise c [l] cPriv s

theorem effSets_eq (f : FmtA) (c : Ctx) (s : State) : effSets f c s = .done (c.active.foldl (setsOne f c) s) := by
  simp only [effSets, pairA, beq_iff_eq]
  rfl

/-- A cause raised on one thread reaches no other. -/
theorem getTh_raise_other (c : Ctx) (l : Nat × Nat) (code b r : Nat) (s : State) (h : r ≠ l.2) : getTh (raise c [l] code s) b r = getTh s b r := by
  have hrecord : getTh (recordTrap c.blk l.2 code 0 c.pc 0 (repOf c) s) b r = getTh s b r := getTh_modTh_other _ s fun e => h e.2
  simp only [raise, raiseAt, List.foldl_cons, List.foldl_nil]
  split
  · exact hrecord
  · exact hrecord
theorem getTh_setsOne_other (f : FmtA) (c : Ctx) (l : Nat × Nat) (b r : Nat) (s : State) (h : r ≠ l.2) : getTh (setsOne f c s l) b r = getTh s b r := by
  unfold setsOne
  split
  · exact getTh_modTh_other _ s fun e => h e.2
  · exact getTh_raise_other c l cPriv b r s h

/-- Of threads of different ranks, each meets `sets` in the state it was in at issue. -/
theorem foldl_setsOne (f : FmtA) (c : Ctx) (s : State) (hnodup : (c.active.map (·.2)).Nodup) :
    c.active.foldl (setsOne f c) s = c.active.foldl (fun u l =>
      if (getTh s c.blk l.2).trap = .handler then modTh c.blk l.2 (fun t => { t with trappc := BitVec.ofNat 64 (src64 c l.2 f.a), trappcWritten := true }) u
      else raise c [l] cPriv u) s := by
  refine foldl_congr_inv (fun ls u => (ls.map (·.2)).Nodup ∧ ∀ l ∈ ls, getTh u c.blk l.2 = getTh s c.blk l.2) _ _ _ _ ⟨hnodup, fun _ _ => rfl⟩ ?_
  rintro l ls u ⟨hnodup, hsame⟩
  simp only [List.map_cons, List.nodup_cons, List.mem_map, not_exists, not_and] at hnodup
  have hstep : setsOne f c u l = if (getTh s c.blk l.2).trap = .handler then
      modTh c.blk l.2 (fun t => { t with trappc := BitVec.ofNat 64 (src64 c l.2 f.a), trappcWritten := true }) u else raise c [l] cPriv u := by
    rw [setsOne, hsame l (List.mem_cons_self ..)]
  refine ⟨hstep, hnodup.2, fun m hm => ?_⟩
  rw [← hstep, getTh_setsOne_other f c l c.blk m.2 u (hnodup.1 m hm), hsame m (List.mem_cons_of_mem _ hm)]
theorem effSets_handler {f : FmtA} {c : Ctx} {s : State} (hnodup : (c.active.map (·.2)).Nodup) (hin : ∀ l ∈ c.active, (getTh s c.blk l.2).trap = .handler) :
    effSets f c s = .done (c.active.foldl (fun s l =>
      modTh c.blk l.2 (fun t => { t with trappc := BitVec.ofNat 64 (src64 c l.2 f.a), trappcWritten := true }) s) s) := by
  rw [effSets_eq, foldl_setsOne f c s hnodup]
  exact congrArg Fin.done (List.foldl_ext _ _ _ fun u l hl => if_pos (hin l hl))
theorem effSets_outside {f : FmtA} {c : Ctx} {s : State} (hnodup : (c.active.map (·.2)).Nodup) (hout : ∀ l ∈ c.active, (getTh s c.blk l.2).trap ≠ .handler) :
    effSets f c s = .done (c.active.foldl (fun s l => raise c [l] cPriv s) s) := by
  rw [effSets_eq, foldl_setsOne f c s hnodup]
  exact congrArg Fin.done (List.foldl_ext _ _ _ fun u l hl => if_neg (hout l hl))

-- launch (R369) -----------------------------------------------------------------------------------------------------

/-- The access `launch` makes to its record. -/
abbrev launchReq : Req := { space := 0, n := 64, align := true, acc := 0, detail := 0, code := 0, pt := 2 }
/-- The record on its way to the Terminus, from a state in which its bytes `bs` have been read. -/
def launchRecord (f : FmtA) (c : Ctx) (s t : State) (bs : List Byte) : InFlight :=
  { blk := c.blk, ranks := c.active.map (·.2), d := f.d, image := setBits (ofBytes 512 bs) 0 8 1, queue := src32 c (lead c) f.b f.imm
    region := (getBlk s c.blk).region, out := t.nextId, clause := c.clause, entry := none, pchs := heldReach s t }

@[simp] theorem modTh_inflight (b r : Nat) (h : Thread → Thread) (s : State) : (modTh b r h s).inflight = s.inflight := modBlk_inflight ..
@[simp] theorem pendOut_inflight (c : Ctx) (id : Nat) (a b : Bool) (s : State) : (pendOut c id a b s).inflight = s.inflight := by
  unfold pendOut
  split
  · rfl
  · exact foldl_inv (fun t : State => t.inflight = s.inflight) _ _ _ rfl fun l t ht => (modTh_inflight ..).trans ht

section
variable {f : FmtA} {c : Ctx} {s s2 : State} {x : Loc}
theorem effLaunch_walkHeld (hres : resolve c.g c.blk launchReq (src64 c (lead c) f.a) (release c.g 2 s) = (.loc x, s2))
    (hheld : heldReach (release c.g 2 s) s2 ≠ []) : effLaunch f c s = .stall := by
  simp only [effLaunch, hres, List.isEmpty_eq_false_iff.2 hheld, Bool.not_false, if_true]
theorem effLaunch_sent (hentry : c.entry = none) (hres : resolve c.g c.blk launchReq (src64 c (lead c) f.a) (release c.g 2 s) = (.loc x, s2))
    (hheld : heldReach (release c.g 2 s) s2 = []) :
    let rd := rdLoc (secureOf s2 c.blk) c.g 2 false x 64 s2
    effLaunch f c s = .done (pendOut c rd.2.nextId (f.d != null) false
      { rd.2 with inflight := rd.2.inflight ++ [launchRecord f c s rd.2 rd.1], nextId := rd.2.nextId + 1 }) := by
  simp only [effLaunch, hres, hheld, hentry, launchRecord, List.isEmpty_nil, Bool.not_true, Bool.false_eq_true, if_false]
end

/-- Settles O16: each effect; `sets` by the threads' own states at issue, `launch` by what its page walk reaches. -/
theorem specialAndLaunchResults : Obligations.SpecialAndLaunchResults := by
  intro f fm s c gives
  refine ⟨fun h => issueA_next h rfl, fun h => issueA_next h (effSets_eq f c s), fun hnodup hin h => issueA_next h (effSets_handler hnodup hin),
    fun hnodup hout h => issueA_next h (effSets_outside hnodup hout), ?_, fun h => issueA_next h rfl, fun h => issueM_next h rfl⟩
  intro x s2 hres h
  refine ⟨fun hheld => issueA_stall h (effLaunch_walkHeld hres hheld), fun hheld => ?_⟩
  exact ⟨_, issueA_next h (effLaunch_sent (context_entry h.here) hres hheld), pendOut_inflight ..⟩

end Sys2Proof.Machine
end

section
/-! Answers to fault records and the engines' work (R54-R61, R148, R176-R191, R219, R230-R232, R328, R436): an equation of each event in each of its cases. -/
namespace Sys2Proof.Machine

-- Answers and spills (R57, R230, R231) ---------------------------------------------------------------------------

/-- A record that is answered is no longer open, and goes once the signal box has taken it (R231). -/
def closeRecord (f : Nat) (seq : Word) (s : State) : State :=
  modFld f (fun k => { k with
    faults := (modWhere (fun x => x.seq == seq) (fun x => { x with open_ := false }) k.faults).filter (fun x => x.open_ || !x.taken || x.seq != seq) }) s

section
variable {s : State} {f : Nat} {seq : Word}
theorem answer_unknown (act : FRec → State → State) (h : (getFld s f).faults.find? (fun r => r.seq == seq && r.open_) = none) :
    answer f seq act s = evAdd f 0x70 1 s := by
  simp only [answer, h]
theorem answer_known {x : FRec} (act : FRec → State → State) (h : (getFld s f).faults.find? (fun r => r.seq == seq && r.open_) = some x) :
    answer f seq act s = act x (closeRecord f seq s) := by
  simp only [answer, h, closeRecord]
theorem fqcmdReplay_field (h : f < 64) : exec (.fqcmdReplay f seq) s = .next (answer f seq (replaySource f) s) := if_neg (Nat.not_le.2 h)
theorem fqcmdDeny_field (h : f < 64) : exec (.fqcmdDeny f seq) s = .next (answer f seq denySource s) := if_neg (Nat.not_le.2 h)
theorem fqcmd_noField (h : 64 ≤ f) : exec (.fqcmdReplay f seq) s = .next s ∧ exec (.fqcmdDeny f seq) s = .next s := ⟨if_pos h, if_pos h⟩
end

theorem spill_made {s : State} {b r q : Nat} (hres : resident (getBlk s b) = true) (hrank : r < (getBlk s b).threads) (hallot : q * 8 < (getBlk s b).allot)
    (hpinned : (getTh s b r).pinned.any (fun p => p.1 == q) = false) (hregs : quantumRegs (getTh s b r) q ≠ []) :
    exec (.spill (getBlk s b).core b r q) s = .next (spillQuantum b r q false s) := by
  have hsome : (quantumRegs (getTh s b r) q).isEmpty = false := List.isEmpty_eq_false_iff.2 hregs
  have hin : decide ((getBlk s b).threads ≤ r) = false := decide_eq_false (Nat.not_le.2 hrank)
  have hbelow : decide ((getBlk s b).allot ≤ q * 8) = false := decide_eq_false (Nat.not_le.2 hallot)
  show execSpill .. = _
  simp only [execSpill, hres, hin, hbelow, hpinned, hsome, bne_self_eq_false, Bool.not_true, Bool.or_false, Bool.false_eq_true, if_false]

-- The drill's stream (R219, R328, R438) ------------------------------------------------------------------------------

/-- Blocks keep what their drills hold. -/
structure SameDrills (s t : State) : Prop where
  same : ∀ b, (getBlk t b).drill = (getBlk s b).drill

theorem SameDrills.refl (s : State) : SameDrills s s := ⟨fun _ => rfl⟩
theorem SameDrills.trans {s t u : State} (h : SameDrills s t) (h' : SameDrills t u) : SameDrills s u := ⟨fun b => (h'.same b).trans (h.same b)⟩
/-- An operation after a change that leaves the blocks alone. -/
theorem SameDrills.after {s t u : State} (h : SameDrills t u) (hblocks : t.blocks = s.blocks) : SameDrills s u :=
  SameDrills.trans ⟨fun b => by rw [getBlk, getBlk, hblocks]⟩ h
theorem SameDrills.foldl {α : Type} (f : State → α → State) (h : ∀ s a, SameDrills s (f s a)) (l : List α) (s : State) : SameDrills s (l.foldl f s) :=
  foldl_inv (SameDrills s) f l s (.refl s) fun a _ ht => ht.trans (h _ a)
theorem sameDrills_modBlk (b : Nat) (F : Block → Block) (s : State) (hF : ∀ k, (F k).drill = k.drill) : SameDrills s (modBlk b F s) := by
  refine ⟨fun b' => ?_⟩
  rcases getBlk_modBlk_cases b b' F s with e | ⟨-, e⟩
  · rw [e]
  · rw [e, hF]
theorem sameDrills_modTh (b r : Nat) (F : Thread → Thread) (s : State) : SameDrills s (modTh b r F s) := by
  refine ⟨fun b' => ?_⟩
  obtain ⟨m, e⟩ := getBlk_modTh b r b' F s
  rw [e]
theorem sameDrills_fileThread (g b r : Nat) (s : State) : SameDrills s (fileThread g b r s) := by
  unfold fileThread
  simp only
  split
  · exact (sameDrills_modTh ..).after rfl
  · split <;> exact (sameDrills_modTh ..).after rfl
theorem sameDrills_makeReady (b r : Nat) (s : State) : SameDrills s (makeReady b r s) := by
  unfold makeReady
  simp only
  split
  · exact sameDrills_fileThread ..
  · exact (sameDrills_modTh ..).trans (sameDrills_modBlk _ _ _ fun _ => rfl)
theorem sameDrills_endWait (b r : Nat) (p : Wait → Bool) (s : State) : SameDrills s (endWait b r p s) := by
  unfold endWait
  simp only
  split
  · refine SameDrills.trans ?_ (sameDrills_makeReady ..)
    exact (sameDrills_modTh ..).after rfl
  · exact (sameDrills_modTh ..).after rfl

/-- The drill of a block reads its next command now: nothing stops it, and no pseudo-channel holds the word (R148, R219). -/
def drillReads (s : State) (b : Nat) : Prop :=
  (getBlk s b).phase = .resident ∧ (getBlk s b).drill.reading = true ∧ (getBlk s b).drill.fault = none ∧ (getBlk s b).drill.table.length < 64 ∧
    ∀ x ∈ lineParts 3 (getBlk s b).drill.addr.toNat 12, vaHeld s (fieldOf (getBlk s b).core) (rootOf s b) (secureOf s b) (x.1 * 128 + x.2.1) 0 = false
/-- The same, negated, as DRILL_STREAM_READ checks it. -/
def drillStopped (s : State) (b : Nat) : Bool :=
  (getBlk s b).phase != .resident || !(getBlk s b).drill.reading || (getBlk s b).drill.fault.isSome || 64 ≤ (getBlk s b).drill.table.length ||
    (lineParts 3 (getBlk s b).drill.addr.toNat 12).any (fun x => vaHeld s (fieldOf (getBlk s b).core) (rootOf s b) (secureOf s b) (x.1 * 128 + x.2.1) 0)
/-- The read of that command's word. -/
def drillWord (s : State) (b : Nat) : Except EFault (List Byte) × State :=
  ttuRead (fieldOf (getBlk s b).core) (rootOf s b) (secureOf s b) (getBlk s b).drill.addr.toNat 12 s

theorem drillStopped_eq_false_iff (s : State) (b : Nat) : drillStopped s b = false ↔ drillReads s b := by
  simp only [drillStopped, drillReads, Bool.or_eq_false_iff, bne_eq_false_iff_eq, Bool.not_eq_false', Option.isSome_eq_false_iff, Option.isNone_iff_eq_none,
    decide_eq_false_iff_not, Nat.not_le, List.any_eq_false, Bool.not_eq_true, and_assoc]

section
variable {s s' : State} {b : Nat}
theorem streamRead_stopped (h : ¬ drillReads s b) : exec (.drillStreamRead b) s = .next s :=
  if_pos (by rw [← drillStopped_eq_false_iff, Bool.not_eq_false] at h; exact h)

theorem streamRead_fault {e : EFault} (h : drillReads s b) (hread : drillWord s b = (.error e, s')) : exec (.drillStreamRead b) s =
    if faultRoom s' (fieldOf (getBlk s b).core) = false then .next s else
      let q := sendFault (fieldOf (getBlk s b).core) { engineRec s' b 0 6 e (.drillRead b) with drill := true, refault := (getBlk s b).drill.again } s'
      .next (modDrill b (fun d => { d with fault := some q.1, again := false }) q.2) := by
  have hgo := (drillStopped_eq_false_iff s b).2 h
  unfold drillStopped at hgo
  unfold drillWord at hread
  show execDrillStreamRead .. = _
  simp only [execDrillStreamRead, hgo, hread, Bool.false_eq_true, if_false, Bool.not_eq_true']

variable {bs : List Byte} (h : drillReads s b) (hread : drillWord s b = (.ok bs, s'))
include h hread
theorem streamRead_undefined (hdecode : decodeDrill (ofBytes 96 bs) = none) : exec (.drillStreamRead b) s = .next (failDrill b cIllegalOp s') := by
  have hgo := (drillStopped_eq_false_iff s b).2 h
  unfold drillStopped at hgo
  unfold drillWord at hread
  show execDrillStreamRead .. = _
  simp only [execDrillStreamRead, hgo, hread, hdecode, Bool.false_eq_true, if_false]
theorem streamRead_illegal {j : Instr} (hdecode : decodeDrill (ofBytes 96 bs) = some j)
    (hid : (getBlk s b).drill.table.any (fun e => e.cmd.id == (decD (ofBytes 96 bs)).id) = false) (hlegal : dLegal (getBlk s b) j (decD (ofBytes 96 bs)) = false) :
    exec (.drillStreamRead b) s = .next (failDrill b cIllegalEnc s') := by
  have hgo := (drillStopped_eq_false_iff s b).2 h
  unfold drillStopped at hgo
  unfold drillWord at hread
  show execDrillStreamRead .. = _
  simp only [execDrillStreamRead, hgo, hread, hdecode, hid, hlegal, Bool.not_false, Bool.false_eq_true, if_false, if_true]
/-- A legal command joins the table behind the others, and the stream moves on by a word; the threads that wait for it change their waits alone. -/
theorem streamRead_joins {j : Instr} (hdecode : decodeDrill (ofBytes 96 bs) = some j)
    (hid : (getBlk s b).drill.table.any (fun e => e.cmd.id == (decD (ofBytes 96 bs)).id) = false) (hlegal : dLegal (getBlk s b) j (decD (ofBytes 96 bs)) = true) :
    ∃ F e t, exec (.drillStreamRead b) s = .next t ∧ SameDrills (modDrill b F s') t ∧ (∀ d, (F d).table = d.table ++ [e] ∧ (F d).addr = d.addr + 12) ∧
      e.instr = j ∧ e.cmd = decD (ofBytes 96 bs) ∧ e.uid = (getBlk s b).drill.nextUid ∧ e.issued = false := by
  have hgo := (drillStopped_eq_false_iff s b).2 h
  unfold drillStopped at hgo
  unfold drillWord at hread
  refine ⟨?F, ?e, ?t, ?exec, ?drills, fun d => ⟨?table, ?addr⟩, ?instr, ?cmd, ?uid, ?issued⟩
  case exec =>
    show execDrillStreamRead .. = _
    simp only [execDrillStreamRead, hgo, hread, hdecode, hid, hlegal, Bool.not_true, Bool.false_eq_true, if_false]
    rfl
  case drills =>
    refine SameDrills.foldl _ (fun s r => ?_) _ _
    split
    · exact (sameDrills_modTh ..).trans (sameDrills_endWait ..)
    · exact sameDrills_modTh ..
  case table => rfl
  all_goals rfl
end

-- Retirement and copies (R219, R282, R433, R436) -----------------------------------------------------------------------

theorem retire_command {s : State} {b n : Nat} {e : DEnt} (hphase : (getBlk s b).phase = .resident) (he : (getBlk s b).drill.table[n]? = some e)
    (hmay : mayRetire (getBlk s b) e = true) : exec (.drillCommandRetire b n) s = .next (retireCmd b e (match e.instr with
      | .dbarBar c => modBlk b (fun k =>
          let r := mget {} k.barriers (nbits c.ctl 0 4)
          { k with barriers := mput k.barriers (nbits c.ctl 0 4) { r with consumed := r.consumed + 1 } }) s
      | .dbarReady c => modDrill b (fun d => { d with readyCtr := mput d.readyCtr (nbits c.ctl 0 4) (mget 0 d.readyCtr (nbits c.ctl 0 4) - 1) }) s
      | _ => s)) := by
  show execDrillCommandRetire .. = _
  simp only [execDrillCommandRetire, he, hphase, hmay, bne_self_eq_false, Bool.not_true, Bool.or_false, Bool.false_eq_true, if_false]
    <;> cases e.instr <;> rfl

section
variable {s : State} {op n : Nat} {cp : Copy}
theorem copyComplete_none (h : copyOf s op = none) : exec (.copyComplete op n) s = .next s := by
  show execCopyComplete .. = _
  simp only [execCopyComplete, h]
theorem multicast_none (h : copyOf s op = none) : exec (.multicastDelivery op n) s = .next s := by
  show execMulticastDelivery .. = _
  simp only [execMulticastDelivery, h]
theorem copyComplete_runs (h : copyOf s op = some cp) (hres : resident (getBlk s cp.blk) = true) (hfault : cp.fault = none) :
    exec (.copyComplete op n) s = .next (copyRun false (if n = 0 then rCount cp.record - cp.elem else n) cp s) := by
  show execCopyComplete .. = _
  simp only [execCopyComplete, h, hres, hfault, Bool.not_true, Option.isSome_none, Bool.or_false, Bool.false_eq_true, if_false, beq_iff_eq]

variable {rb : Block} (h : copyOf s op = some cp) (hkind : cp.kind = 2) (hres : resident (getBlk s cp.blk) = true) (hready : cp.elem = rCount cp.record)
  (hmask : bit cp.mask n = true) (hopen : bit cp.doneMask n = false) (hrb : nbOwner s cp.blk n = some rb)
include h hkind hres hready hmask hopen hrb
/-- A ready tile on its way to a receiver that stands, not taken yet. -/
theorem multicast_offered (hnew : bit cp.accepted n = false) : exec (.multicastDelivery op n) s = (match getRecv rb cp.rslot with
    | .armed off len t =>
      if ceilDiv (rCount cp.record) (rBox cp.record 0) * rPitch cp.record ≤ len then
        .next (putCopy { cp with accepted := cp.accepted ||| (1 <<< n) } (setRecv rb.id cp.rslot (.receiving off len t) s))
      else .next (mcSettle { cp with refusal := cp.refusal ||| (1 <<< n), doneMask := cp.doneMask ||| (1 <<< n) } s)
    | _ => .next (mcSettle { cp with refusal := cp.refusal ||| (1 <<< n), doneMask := cp.doneMask ||| (1 <<< n) } s)) := by
  show execMulticastDelivery .. = _
  simp only [execMulticastDelivery, h, hkind, hres, hready, hmask, hopen, hrb, hnew, bne_self_eq_false, Bool.not_true, Bool.or_false, Bool.false_eq_true, if_false]
    <;> rfl
theorem multicast_accepted {off len : Nat} {t : Nat} (hnew : bit cp.accepted n = false) (harmed : getRecv rb cp.rslot = .armed off len t)
    (hfits : ceilDiv (rCount cp.record) (rBox cp.record 0) * rPitch cp.record ≤ len) : exec (.multicastDelivery op n) s =
      .next (putCopy { cp with accepted := cp.accepted ||| (1 <<< n) } (setRecv rb.id cp.rslot (.receiving off len t) s)) := by
  simp only [multicast_offered h hkind hres hready hmask hopen hrb hnew, harmed, hfits, if_true]
theorem multicast_refused (hnew : bit cp.accepted n = false)
    (hnot : ∀ off len t, getRecv rb cp.rslot = .armed off len t → ¬ ceilDiv (rCount cp.record) (rBox cp.record 0) * rPitch cp.record ≤ len) :
    exec (.multicastDelivery op n) s = .next (mcSettle { cp with refusal := cp.refusal ||| (1 <<< n), doneMask := cp.doneMask ||| (1 <<< n) } s) := by
  rw [multicast_offered h hkind hres hready hmask hopen hrb hnew]
  split
  · rename_i off len t harmed
    rw [if_neg (hnot off len t harmed)]
  · rfl
theorem multicast_delivered {off len : Nat} {t : Nat} (hold : bit cp.accepted n = true) (hrecv : getRecv rb cp.rslot = .receiving off len t) :
    exec (.multicastDelivery op n) s = .next (mcSettle { cp with doneMask := cp.doneMask ||| (1 <<< n) }
      (tagDone rb.id t 0 0 1 (setRecv rb.id cp.rslot .idle (mcWrite cp rb.id off s)))) := by
  show execMulticastDelivery .. = _
  simp only [execMulticastDelivery, h, hkind, hres, hready, hmask, hopen, hrb, hold, hrecv, bne_self_eq_false, Bool.not_true, Bool.or_false, Bool.false_eq_true,
    if_false, if_true]
end

-- Furrow operations and partitions (R176, R186) ---------------------------------------------------------------------------

theorem furrow_completes {s : State} {f i op : Nat} {o : FwOp}
    (ho : (upto 8).findSome? (fun i => ((getSlice s f i).queue.find? (fun o => o.id == op)).map (fun o => (i, o))) = some (i, o)) (himage : o.image = none)
    (hfault : o.fault = none) (hturn : fwTurn (getSlice s f i) o = true) : exec (.furrowOperationComplete f op) s = .next (fwRun false f i o s) := by
  show execFurrowOperationComplete .. = _
  simp only [execFurrowOperationComplete, ho, himage, hfault, hturn, Option.isSome_none, Bool.not_true, Bool.or_false, Bool.false_eq_true, if_false]
theorem switchPoint_idle {s : State} {f i : Nat} (h : ∀ o rest, (getSlice s f i).queue = o :: rest → o.image = none) : exec (.wpartSwitchPoint f i) s = .next s := by
  show execWpartSwitchPoint .. = _
  simp only [execWpartSwitchPoint]
  split
  · rename_i o rest hq
    rw [h o rest hq]
  · rfl

theorem getSlice_modSlice_same (f i : Nat) (h : Slice → Slice) (s : State) : getSlice (modSlice f i h s) f i = h (getSlice s f i) := by
  simp [getSlice, modSlice, mfind_mput_same]
/-- Slices stay as they are where a field changes beside them. -/
theorem getSlice_modFld (f g i : Nat) (F : Field → Field) (s : State) (hF : ∀ k, (F k).slices = k.slices) : getSlice (modFld g F s) f i = getSlice s f i := by
  rw [getSlice, getFld_modFld]
  split
  · rename_i e
    rw [hF, getSlice, e]
  · rfl
@[simp] theorem emptyWay_inForce (w : Nat) (sl : Slice) : (emptyWay w sl).inForce = sl.inForce := rfl
theorem foldl_emptyWay_inForce (ws : List Nat) (sl : Slice) : (ws.foldl (fun sl w => emptyWay w sl) sl).inForce = sl.inForce :=
  foldl_inv (fun t : Slice => t.inForce = sl.inForce) _ ws sl rfl fun w t ht => (emptyWay_inForce w t).trans ht
/-- The partition at the head of a slice's queue comes into force, and its operation finishes (R176). -/
theorem switchPoint_switches {s : State} {f i : Nat} {o : FwOp} {rest : List FwOp} {img : BitVec 32} (hq : (getSlice s f i).queue = o :: rest)
    (himage : o.image = some img) : ∃ u, exec (.wpartSwitchPoint f i) s = .next (fwFinish f i o 0 0 u) ∧ (getSlice u f i).inForce = img := by
  refine ⟨?u, ?exec, ?force⟩
  case exec =>
    show execWpartSwitchPoint .. = _
    simp only [execWpartSwitchPoint, hq, himage]
    rfl
  case force =>
    rw [getSlice_modFld, getSlice_modSlice_same]
    · exact foldl_emptyWay_inForce ..
    · exact fun _ => rfl

/-- Settles O34: an equation of each event in each case, and a frame of the drills for the threads that wait for a command. -/
theorem engineEvents : Obligations.EngineEvents := by
  unfold Obligations.EngineEvents
  intro s f i b r q n op seq
  refine ⟨fun hf h => ?_, fun x hf h => ?_, spill_made, fqcmd_noField, streamRead_stopped, fun e s' hreads hread => ?_, fun bs s' hreads hread => streamRead_undefined hreads hread,
    fun bs s' j hreads hread => streamRead_illegal hreads hread, fun bs s' j hreads hread hdecode hid hlegal hb => ?_, fun e => retire_command, fun cp => copyComplete_runs,
    fun cp rb h hkind hres hready hmask hopen hrb => ?_, fun o => furrow_completes, fun o rest img hq himage => ?_, switchPoint_idle,
    fun h => ⟨copyComplete_none h, multicast_none h⟩⟩
  · exact ⟨(fqcmdReplay_field hf).trans (congrArg _ (answer_unknown _ h)), (fqcmdDeny_field hf).trans (congrArg _ (answer_unknown _ h))⟩
  · exact ⟨(fqcmdReplay_field hf).trans (congrArg _ (answer_known _ h)), (fqcmdDeny_field hf).trans (congrArg _ (answer_known _ h))⟩
  · have he := streamRead_fault hreads hread
    exact ⟨fun hroom => he.trans (if_pos hroom), fun hroom => he.trans (if_neg (by simp [hroom]))⟩
  · obtain ⟨F, e, t, hexec, hdrills, hF, hinstr, hcmd, huid, hissued⟩ := streamRead_joins hreads hread hdecode hid hlegal
    have hdrill : (getBlk t b).drill = F (getBlk s' b).drill := by
      rw [hdrills.same, modDrill, getBlk_modBlk_same _ _ _ (Option.isSome_iff_ne_none.2 hb)]
    refine ⟨t, e, hexec, ?_, hinstr, hcmd, huid, hissued, ?_⟩
    · rw [hdrill, (hF _).1]
    · rw [hdrill, (hF _).2]
  · exact ⟨fun off len t hnew harmed hfits => multicast_accepted h hkind hres hready hmask hopen hrb hnew harmed hfits,
      fun hnew => multicast_refused h hkind hres hready hmask hopen hrb hnew,
      fun off len t hold hrecv => multicast_delivered h hkind hres hready hmask hopen hrb hold hrecv⟩
  · obtain ⟨u, hexec, hforce⟩ := switchPoint_switches hq himage
    exact ⟨_, u, hexec, rfl, hforce⟩

end Sys2Proof.Machine
end

section
/-! Register allotment (R63, R366, R367): what each request leaves, and that lowering an allotment wakes nobody where nobody waits. -/
namespace Sys2Proof.Machine

-- Requests that raise it (R366) --------------------------------------------------------------------------------------

theorem growTo_grow (cur x : Nat) : growTo 0 cur x = min 256 (cur + roundUp x 8) := rfl
theorem growTo_growa (cur x : Nat) : growTo 1 cur x = min 256 (max cur (roundUp x 8)) := rfl
theorem growFits_iff (s : State) (b n : Nat) :
    growFits s b n = true ↔ n ≤ (getBlk s b).allot ∨ backingRoom s (getBlk s b).region ((n - (getBlk s b).allot) * 4 * (getBlk s b).threads) = true := by
  simp only [growFits, Bool.or_eq_true, decide_eq_true_eq]

/-- What a `grow` or `growa` asks for. -/
def growAsks (kind : Nat) (f : FmtA) (c : Ctx) (s : State) : Nat := growTo kind (getBlk s c.blk).allot (src32 c (lead c) f.a f.imm)
/-- The request that waits (R367). -/
def growWaits (kind : Nat) (f : FmtA) (c : Ctx) (s : State) : GrowReq :=
  { id := s.nextId, kind := kind, x := src32 c (lead c) f.a f.imm, d := f.d, ranks := c.active.map (·.2), pc := c.pc, since := nowOf s c.g, out := s.nextId, entry := c.entry }

theorem foldl_beginWait_allot (b : Nat) (w : Wait) (rs : List Nat) (s : State) :
    (getBlk (rs.foldl (fun s r => beginWait b r w s) s) b).allot = (getBlk s b).allot ∧ (getBlk (rs.foldl (fun s r => beginWait b r w s) s) b).grows = (getBlk s b).grows :=
  foldl_inv (fun t : State => (getBlk t b).allot = (getBlk s b).allot ∧ (getBlk t b).grows = (getBlk s b).grows) _ rs s ⟨rfl, rfl⟩
    fun _ _ ht => ⟨(modTh_allot ..).1.trans ht.1, (modTh_allot ..).2.trans ht.2⟩
theorem pendOut_allot (c : Ctx) (id : Nat) (x y : Bool) (s : State) (b : Nat) :
    (getBlk (pendOut c id x y s) b).allot = (getBlk s b).allot ∧ (getBlk (pendOut c id x y s) b).grows = (getBlk s b).grows := by
  unfold pendOut
  split
  · exact ⟨rfl, rfl⟩
  · exact foldl_inv (fun t : State => (getBlk t b).allot = (getBlk s b).allot ∧ (getBlk t b).grows = (getBlk s b).grows) _ _ s ⟨rfl, rfl⟩
      fun _ _ ht => ⟨(modTh_allot ..).1.trans ht.1, (modTh_allot ..).2.trans ht.2⟩

/-- A request joins the others of its block. -/
def joinGrow (b : Nat) (q : GrowReq) (s : State) : State := modBlk b (fun k => { k with grows := k.grows ++ [q] }) s
theorem allot_joinGrow (b : Nat) (q : GrowReq) (s : State) : (getBlk (joinGrow b q s) b).allot = (getBlk s b).allot := by
  unfold joinGrow
  rcases getBlk_modBlk_cases b b (fun k => { k with grows := k.grows ++ [q] }) s with e | ⟨-, e⟩ <;> rw [e]
theorem grows_joinGrow {b : Nat} (q : GrowReq) (s : State) (hb : mfind s.blocks b ≠ none) : (getBlk (joinGrow b q s) b).grows = (getBlk s b).grows ++ [q] := by
  rw [joinGrow, getBlk_modBlk_same _ _ _ (Option.isSome_iff_ne_none.2 hb)]

section
variable {kind : Nat} {f : FmtA} {c : Ctx} {s : State}
theorem growReq_granted (hnone : (getBlk s c.blk).grows = []) (hfits : growFits s c.blk (growAsks kind f c s) = true) :
    growReq kind f c s = .done (writeLanes c f.d 1 (fun _ => growAsks kind f c s) (setAllot c.blk (growAsks kind f c s) s)) := by
  unfold growAsks at hfits
  simp only [growReq, hnone, hfits, List.isEmpty_nil, Bool.and_true, if_true, growAsks]
/-- A request that waits joins the block's others and leaves the allotment. -/
theorem growReq_waits (h : (getBlk s c.blk).grows ≠ [] ∨ growFits s c.blk (growAsks kind f c s) = false) :
    ∃ t, growReq kind f c s = .done t ∧ (getBlk t c.blk).allot = (getBlk s c.blk).allot ∧
      (mfind s.blocks c.blk ≠ none → (getBlk t c.blk).grows = (getBlk s c.blk).grows ++ [growWaits kind f c s]) := by
  have hwait : ((getBlk s c.blk).grows.isEmpty && growFits s c.blk (growAsks kind f c s)) = false := by
    rcases h with h | h
    · rw [List.isEmpty_eq_false_iff.2 h, Bool.false_and]
    · rw [h, Bool.and_false]
  unfold growAsks at hwait
  refine ⟨_, by simp only [growReq, hwait, Bool.false_eq_true, if_false]; rfl, ?_, fun hb => ?_⟩
  · exact (pendOut_allot ..).1.trans ((foldl_beginWait_allot ..).1.trans (allot_joinGrow ..))
  · exact (pendOut_allot ..).2.trans ((foldl_beginWait_allot ..).2.trans (grows_joinGrow _ _ hb))
end

-- Requests that lower it (R367) ----------------------------------------------------------------------------------------

/-- No block has a request that waits. -/
def noGrows (s : State) : Prop := ∀ e ∈ s.blocks, e.2.grows = []

theorem growWake_noGrows {s : State} (h : noGrows s) : growWake s = s := by
  have hnone : (s.blocks.flatMap fun e => if e.2.phase == .killed then [] else e.2.grows.map fun q => (q.id, e.1)) = [] := by
    rw [List.flatMap_eq_nil_iff]
    intro e he
    rw [h e he]
    split <;> rfl
  unfold growWake
  simp only [hnone]
  rfl

theorem noGrows_modBlk {s : State} (b : Nat) {F : Block → Block} (hF : ∀ k, (F k).grows = k.grows) (h : noGrows s) : noGrows (modBlk b F s) := by
  unfold modBlk
  split
  · rename_i k hk
    intro e he
    rcases mem_mput _ _ _ _ he with rfl | he
    · exact (hF k).trans (h _ (mem_of_mfind _ _ _ hk))
    · exact h e he
  · exact h
theorem noGrows_modTh {s : State} (b r : Nat) (F : Thread → Thread) (h : noGrows s) : noGrows (modTh b r F s) :=
  noGrows_modBlk b (fun k => by split <;> rfl) h
theorem noGrows_setAllot {s : State} (b n : Nat) (h : noGrows s) : noGrows (setAllot b n s) :=
  noGrows_modBlk b (fun _ => rfl) (foldl_inv noGrows _ _ s h fun _ _ ht => ht)
theorem noGrows_writeReg {s : State} (c : Ctx) (r : Nat) (spec : BitVec 9) (n v : Nat) (h : noGrows s) : noGrows (writeReg c r spec n v s) := by
  unfold writeReg
  split
  · exact h
  · exact noGrows_modTh _ _ _ h
theorem noGrows_writeLanes {s : State} (c : Ctx) (spec : BitVec 9) (n : Nat) (val : Nat × Nat → Nat) (h : noGrows s) : noGrows (writeLanes c spec n val s) := by
  unfold writeLanes
  split
  · exact h
  · exact foldl_inv noGrows _ _ s h fun l _ ht => noGrows_writeReg _ _ _ _ _ ht

/-- A request to raise the allotment, granted or made to wait. -/
theorem allotment_raised {f : FmtA} {s : State} {c : Ctx} {i : Instr} {kind n : Nat} (hn : growAsks kind f c s = n)
    (hexec : ∀ t, Issues i s c → growReq kind f c s = .done t → exec i s = .next (issued i c s t)) :
    let k := getBlk s c.blk
    (k.grows = [] → n ≤ k.allot ∨ backingRoom s k.region ((n - k.allot) * 4 * k.threads) = true → Issues i s c →
      exec i s = .next (issued i c s (writeLanes c f.d 1 (fun _ => n) (setAllot c.blk n s)))) ∧
    (k.grows ≠ [] ∨ (k.allot < n ∧ backingRoom s k.region ((n - k.allot) * 4 * k.threads) = false) → Issues i s c → ∃ t, exec i s = .next (issued i c s t) ∧
      (getBlk t c.blk).allot = k.allot ∧ (mfind s.blocks c.blk ≠ none → (getBlk t c.blk).grows = k.grows ++ [{
        id := s.nextId, kind := kind, x := src32 c (lead c) f.a f.imm, d := f.d, ranks := c.active.map (·.2), pc := c.pc, since := nowOf s c.g, out := s.nextId }])) := by
  intro k
  subst hn
  refine ⟨fun hnone hfits hissues => hexec _ hissues (growReq_granted hnone ((growFits_iff ..).2 hfits)), fun hwait hissues => ?_⟩
  have hnot : k.grows ≠ [] ∨ growFits s c.blk (growAsks kind f c s) = false := by
    refine hwait.imp_right fun ⟨hmore, hroom⟩ => ?_
    rw [Bool.eq_false_iff, ne_eq, growFits_iff, not_or, Nat.not_le, Bool.not_eq_true]
    exact ⟨hmore, hroom⟩
  obtain ⟨t, ht, hallot, hgrows⟩ := growReq_waits hnot
  refine ⟨t, hexec t hissues ht, hallot, fun hb => ?_⟩
  rw [hgrows hb, growWaits, context_entry hissues.here]

/-- Settles O15: the requests by what waits and fits, and the wake of nobody where nobody waits. -/
theorem allotmentResults : Obligations.AllotmentResults := by
  intro f s c
  refine ⟨allotment_raised (growTo_grow ..) fun t h he => issueA_next h he, allotment_raised (growTo_growa ..) fun t h he => issueA_next h he,
    fun h => issueA_next h rfl, fun h => issueA_next h rfl, fun hnone => ⟨fun h => ?_, fun h => ?_⟩⟩
  · rw [← growWake_noGrows (noGrows_writeLanes c f.d 1 _ (noGrows_setAllot c.blk _ hnone))]
    exact issueA_next h rfl
  · rw [← growWake_noGrows (noGrows_writeLanes c f.d 1 _ (noGrows_setAllot c.blk _ hnone))]
    exact issueA_next h rfl

end Sys2Proof.Machine
end

section
/-! What waking, filing and rolling back a block leave alone (R30, R33, R64, R93): home memory, and the registers of every other block. -/
namespace Sys2Proof.Machine

/-- Home memory and the registers of every block but `b` are as they were. -/
structure OthersKept (b : Nat) (s t : State) : Prop where
  mem  : t.mem = s.mem
  regs : ∀ b' r num, b' ≠ b → regAt t b' r num = regAt s b' r num

theorem OthersKept.refl (b : Nat) (s : State) : OthersKept b s s := ⟨rfl, fun _ _ _ _ => rfl⟩
theorem OthersKept.trans {b : Nat} {s t u : State} (h : OthersKept b s t) (h' : OthersKept b t u) : OthersKept b s u :=
  ⟨h'.mem.trans h.mem, fun b' r num hb => (h'.regs b' r num hb).trans (h.regs b' r num hb)⟩
theorem OthersKept.of_eq {b : Nat} {s t : State} (hmem : t.mem = s.mem) (hblocks : t.blocks = s.blocks) : OthersKept b s t :=
  ⟨hmem, fun b' r num _ => by rw [regAt, regAt, getTh, getTh, getBlk, getBlk, hblocks]⟩
/-- An operation after a change that leaves home memory and the blocks alone. -/
theorem OthersKept.after {b : Nat} {s t u : State} (h : OthersKept b t u) (hmem : t.mem = s.mem) (hblocks : t.blocks = s.blocks) : OthersKept b s u :=
  (OthersKept.of_eq hmem hblocks).trans h
theorem OthersKept.foldl {α : Type} {b : Nat} (f : State → α → State) (h : ∀ s a, OthersKept b s (f s a)) (l : List α) (s : State) : OthersKept b s (l.foldl f s) :=
  foldl_inv (OthersKept b s) f l s (.refl b s) fun a _ ht => ht.trans (h _ a)

section
variable {b : Nat} {s : State}
/-- Whatever becomes of the block itself. -/
theorem othersKept_modBlk_own (F : Block → Block) : OthersKept b s (modBlk b F s) := by
  refine ⟨modBlk_mem .., fun b' r num hb => ?_⟩
  rcases getBlk_modBlk_cases b b' F s with e | ⟨hself, -⟩
  · rw [regAt, getTh, e]
    rfl
  · exact absurd hself hb
theorem othersKept_modTh_own (r : Nat) (F : Thread → Thread) : OthersKept b s (modTh b r F s) := othersKept_modBlk_own _
/-- A block that keeps its threads. -/
theorem othersKept_modBlk (b' : Nat) (F : Block → Block) (hF : ∀ k, (F k).members = k.members) : OthersKept b s (modBlk b' F s) := by
  refine ⟨modBlk_mem .., fun x r num _ => ?_⟩
  rcases getBlk_modBlk_cases b' x F s with e | ⟨-, e⟩
  · rw [regAt, getTh, e]
    rfl
  · rw [regAt, getTh, e, hF]
    rfl
/-- A thread that keeps its registers. -/
theorem othersKept_modTh (b' r : Nat) (F : Thread → Thread) (hF : ∀ t num, threadReg (F t) num = threadReg t num) : OthersKept b s (modTh b' r F s) := by
  refine ⟨modTh_mem .., fun x r' num _ => ?_⟩
  rcases getTh_modTh_cases b' r x r' F s with e | ⟨-, -, e⟩
  · rw [regAt, e]
    rfl
  · rw [regAt, e, hF]
    rfl
theorem othersKept_fileThread (g b' r : Nat) : OthersKept b s (fileThread g b' r s) := by
  have hplace : ∀ (p : Place) (c : Core → Core), OthersKept b s (modTh b' r (fun t => { t with place := p }) (modCore g c s)) := fun p c =>
    (othersKept_modTh _ _ _ (by exact fun _ _ => rfl)).after rfl rfl
  unfold fileThread
  simp only
  split
  · exact hplace _ _
  · split
    · exact hplace _ _
    · exact hplace _ _
theorem othersKept_makeReady (b' r : Nat) : OthersKept b s (makeReady b' r s) := by
  unfold makeReady
  simp only
  split
  · exact othersKept_fileThread ..
  · exact (othersKept_modTh _ _ _ (by exact fun _ _ => rfl)).trans (othersKept_modBlk _ _ (by exact fun _ => rfl))
theorem othersKept_endWait (b' r : Nat) (p : Wait → Bool) : OthersKept b s (endWait b' r p s) := by
  unfold endWait
  simp only
  split
  · refine OthersKept.trans ?_ (othersKept_makeReady ..)
    exact (othersKept_modTh _ _ _ (by exact fun _ _ => rfl)).after rfl rfl
  · exact (othersKept_modTh _ _ _ (by exact fun _ _ => rfl)).after rfl rfl
theorem othersKept_wakeLines (f : Nat) (lns : List Nat) : OthersKept b s (wakeLines f lns s) := by
  unfold wakeLines
  simp only
  split
  · exact .refl b s
  · exact (OthersKept.foldl (fun s w => wakeOne w s) (fun _ _ => othersKept_endWait ..) _ _).after rfl rfl
theorem othersKept_wakeLine (ln : Nat) : OthersKept b s (wakeLine ln s) := by
  unfold wakeLine
  split
  · exact .refl b s
  · exact othersKept_wakeLines ..
end
theorem othersKept_fileReady {b : Nat} (g n : Nat) (s : State) : OthersKept b s (fileReady g n s) := by
  induction n generalizing s with
  | zero => exact .refl b s
  | succ n ih =>
    unfold fileReady
    simp only
    split
    · exact .refl b s
    · split
      · refine OthersKept.trans ?_ (ih _)
        exact (othersKept_fileThread ..).after rfl rfl
      · exact .refl b s

-- Rolling a block back (R64, R93) -------------------------------------------------------------------------------

section
variable {b : Nat} {s : State}
theorem othersKept_evAdd (f off n : Nat) : OthersKept b s (evAdd f off n s) := .of_eq rfl rfl
theorem othersKept_clearYard (b' : Nat) : OthersKept b s (clearYard b' s) := (othersKept_fileReady ..).after rfl rfl
theorem othersKept_rollback : OthersKept b s (rollback b s) := by
  unfold rollback
  simp only
  split
  · exact .refl b s
  · have hyard : OthersKept b s (clearYard b (evAdd (fieldOf (getBlk s b).core) 0x68 1 s)) := (othersKept_evAdd ..).trans (othersKept_clearYard b)
    exact hyard.trans ((othersKept_modBlk_own _).after rfl rfl)
theorem othersKept_settleYard (b' : Nat) : OthersKept b s (settleYard b' s) := by
  unfold settleYard
  simp only
  refine OthersKept.trans ?_ (OthersKept.foldl _ (fun s r => ?_) _ _)
  · exact (othersKept_modBlk _ _ (by exact fun _ => rfl)).after rfl rfl
  · split
    · exact othersKept_fileThread ..
    · exact othersKept_fileThread ..
    · exact othersKept_endWait ..
    · exact .refl b s
end

end Sys2Proof.Machine
end

section
/-! Stores (R46, R152, R155, R168): the bytes of values, lines and masks, what each kind of write leaves where it writes, and that what follows a store keeps memory. -/
namespace Sys2Proof.Machine

-- Bytes of values and lines (R4, R46) ---------------------------------------------------------------------------------

theorem length_toBytes {w : Nat} (n : Nat) (v : BitVec w) : (toBytes n v).length = n := by
  induction n generalizing v with
  | zero => rfl
  | succ n ih => simp [toBytes, ih]
theorem getElem_toBytes {w : Nat} (n : Nat) (v : BitVec w) (i : Nat) (h : i < (toBytes n v).length) : (toBytes n v)[i] = bits v (8 * i) 8 := by
  induction n generalizing v i with
  | zero => exact absurd h (Nat.not_lt_zero i)
  | succ n ih =>
    cases i with
    | zero =>
      refine BitVec.eq_of_getLsbD_eq fun j hj => ?_
      simp [toBytes, hj]
    | succ i =>
      simp only [toBytes, List.getElem_cons_succ, ih]
      refine BitVec.eq_of_getLsbD_eq fun j hj => ?_
      simp [hj, Nat.mul_add, Nat.add_comm, Nat.add_left_comm]
theorem getLsbD_ofBytes (w : Nat) (bs : List Byte) (i j : Nat) (hj : j < 8) (hi : i < bs.length) (hw : 8 * i + j < w) :
    (ofBytes w bs).getLsbD (8 * i + j) = bs[i].getLsbD j := by
  induction bs generalizing i with
  | nil => exact absurd hi (Nat.not_lt_zero i)
  | cons b bs ih =>
    cases i with
    | zero =>
      have hlow : j < w := by omega
      simp [ofBytes, hj, hlow]
    | succ i =>
      have hin : i < bs.length := Nat.lt_of_succ_lt_succ hi
      have hbelow : 8 * i + j < w := by omega
      have hhigh : b.getLsbD (8 * (i + 1) + j) = false := BitVec.getLsbD_of_ge _ _ (by omega)
      have hshift : 8 * (i + 1) + j - 8 = 8 * i + j := by omega
      simp only [ofBytes, BitVec.getLsbD_or, BitVec.getLsbD_shiftLeft, BitVec.getLsbD_setWidth, hhigh, hshift, List.getElem_cons_succ, ih i hin hbelow, hw,
        decide_true, Bool.true_and, Bool.and_false, Bool.or_false, show ¬ 8 * (i + 1) + j < 8 by omega, decide_false, Bool.not_false]
/-- The bytes placed in a line from `lo` stand there. -/
theorem lineByte_lineWith (bs : List Byte) (lo i : Nat) (hi : i < bs.length) (hfits : lo + bs.length ≤ 128) : lineByte (lineWith bs lo) (lo + i) = bs[i] := by
  refine BitVec.eq_of_getLsbD_eq fun j hj => ?_
  have hshift : 8 * (lo + i) + j - 8 * lo = 8 * i + j := by omega
  have hin : 8 * (lo + i) + j < 1024 := by omega
  simp only [lineByte, lineWith, BitVec.getLsbD_extractLsb', hj, BitVec.getLsbD_shiftLeft, hshift, hin, getLsbD_ofBytes 1024 bs i j hj hi (by omega), decide_true,
    Bool.true_and, show ¬ 8 * (lo + i) + j < 8 * lo by omega, decide_false, Bool.not_false]
theorem bit_rangeMask (lo n i : Nat) (hi : i < n) (hfits : lo + n ≤ 128) : bit (rangeMask lo n) (lo + i) = true := by
  simp only [rangeMask, BitVec.getLsbD_ofNat, Nat.testBit_mul_two_pow, Nat.testBit_two_pow_sub_one, Nat.add_sub_cancel_left, hi, decide_true, Bool.and_true,
    Bool.and_eq_true, decide_eq_true_eq]
  omega
theorem getLsbD_byteOnes (n k : Nat) (hk : k < 1024) : (0xFF#1024 <<< (8 * n)).getLsbD k = decide (k / 8 = n) := by
  have hones : (0xFF#1024).getLsbD (k - 8 * n) = decide (k - 8 * n < 8) := by
    rw [BitVec.getLsbD_ofNat, show 255 = 2 ^ 8 - 1 from rfl, Nat.testBit_two_pow_sub_one]
    simp only [Bool.and_eq_right_iff_imp, decide_eq_true_eq]
    omega
  rw [BitVec.getLsbD_shiftLeft, hones, decide_eq_true hk, Bool.true_and, Bool.eq_iff_iff]
  simp only [Bool.and_eq_true, Bool.not_eq_true', decide_eq_false_iff_not, decide_eq_true_eq]
  omega
theorem getLsbD_byteMask_upto (m : BitVec 128) (n k : Nat) (hk : k < 1024) :
    ((upto n).foldl (fun (acc : BitVec 1024) i => if bit m i then acc ||| (0xFF#1024 <<< (8 * i)) else acc) 0).getLsbD k = (decide (k / 8 < n) && bit m (k / 8)) := by
  induction n with
  | zero => simp [upto]
  | succ n ih =>
    rw [upto] at ih ⊢
    rw [List.range_succ, List.foldl_append, List.foldl_cons, List.foldl_nil]
    by_cases hbyte : k / 8 = n
    · subst hbyte
      split
      · rename_i hbit
        rw [BitVec.getLsbD_or, ih, getLsbD_byteOnes _ _ hk]
        simp [hbit]
      · rename_i hbit
        rw [ih]
        simp [hbit]
    · have hlt : decide (k / 8 < n + 1) = decide (k / 8 < n) := decide_eq_decide.2 (by omega)
      rw [hlt, ← ih]
      split
      · rw [BitVec.getLsbD_or, getLsbD_byteOnes _ _ hk, decide_eq_false hbyte, Bool.or_false]
      · rfl
theorem getLsbD_byteMask (m : BitVec 128) (k : Nat) (hk : k < 1024) : (byteMask m).getLsbD k = bit m (k / 8) := by
  rw [byteMask, getLsbD_byteMask_upto m 128 k hk, decide_eq_true (show k / 8 < 128 by omega), Bool.true_and]
/-- Bytes of the mask come from the second line. -/
theorem lineByte_mergeBytes (a b : BitVec 1024) {m : BitVec 128} {i : Nat} (hi : i < 128) (hm : bit m i = true) : lineByte (mergeBytes a b m) i = lineByte b i := by
  unfold mergeBytes
  split
  · rfl
  · refine BitVec.eq_of_getLsbD_eq fun j hj => ?_
    have hin : 8 * i + j < 1024 := by omega
    have hbyte : (8 * i + j) / 8 = i := by omega
    simp only [lineByte, BitVec.getLsbD_extractLsb', BitVec.getLsbD_or, BitVec.getLsbD_and, BitVec.getLsbD_not, getLsbD_byteMask m _ hin, hbyte, hm, Bool.not_true,
      Bool.and_false, Bool.and_true, Bool.false_or]

-- What a write leaves where it writes (R135, R152, R168) ------------------------------------------------------------------

theorem coreByte_of_l1 {s : State} {g pa : Nat} {v : Byte} (h : l1Byte s g pa = some v) : coreByte s g pa = v := by
  simp only [coreByte, h]
theorem l1Byte_l1Write (g ln : Nat) (d : BitVec 1024) (m : BitVec 128) (s : State) {k : Nat} (hk : k < 128) (hm : bit m k = true) :
    l1Byte (l1Write g ln d m s) g (ln * 128 + k) = some (lineByte d k) := by
  have hline : (ln * 128 + k) / 128 = ln := by omega
  have hbyte : (ln * 128 + k) % 128 = k := by omega
  have hvalid : ∀ v : BitVec 128, bit (v ||| m) k = true := fun v => by simp only [BitVec.getLsbD_or, hm, Bool.or_true]
  simp only [l1Byte, l1Write, getCore_modCore_same, mfind_mput_same, hline, hbyte, putLine, hvalid, if_true, lineByte_mergeBytes _ _ hk hm]

theorem mem_wakePch (pa : Nat) (s : State) : (wakePch pa s).mem = s.mem := by
  unfold wakePch
  split
  · simp only
    split <;> split <;> rfl
  · rfl
theorem mem_wakeLine (ln : Nat) (s : State) : (wakeLine ln s).mem = s.mem := (othersKept_wakeLine (b := 0) ln).mem
/-- A write at the home of a line of device or host memory. -/
theorem memGet_homeWrite {ln : Nat} (d : BitVec 1024) {m : BitVec 128} (s : State) {k : Nat} (hln : ∀ f w o, target (ln * 128) ≠ .viewOf f w o) (hk : k < 128)
    (hm : bit m k = true) : memGet (homeWrite ln d m s).mem (ln * 128 + k) = lineByte d k := by
  have hsome : m ≠ 0 := by
    rintro rfl
    simp at hm
  have hwrite : (homeWrite ln d m s).mem = memPutMask (overtake ln m s).mem (ln * 128) ((upto 128).map fun i => (bit m i, bits d (8 * i) 8)) := by
    unfold homeWrite
    rw [if_neg hsome]
    dsimp only
    split
    · rename_i h
      exact absurd h (hln _ _ _)
    · rw [mem_wakeLine, mem_wakePch]
  rw [hwrite, memGet_memPutMask_inside _ _ _ _ (by simpa [upto] using hk)]
  simp [upto, hm, lineByte]

theorem wrLoc_memory (w : Bool) (g pt : Nat) {p : Nat} (bs : List Byte) (s : State) (hp : ∀ o, target p ≠ .ctl o) :
    wrLoc w g pt (.g p) bs s = writePoint w g pt (p / 128) (lineWith bs (p % 128)) (rangeMask (p % 128) bs.length) s := by
  cases ht : target p with
  | ctl o => exact absurd ht (hp o)
  | _ => simp only [wrLoc, ht]

-- Scratchpads (R168) --------------------------------------------------------------------------------------------------

theorem padRead_padWrite (g g' off off' : Nat) (v : Byte) (s : State) :
    padRead (padWrite g off v s) g' off' = if g' = g ∧ off' = off then v else padRead s g' off' := by
  have hcore : ∀ (m : BitVec 128) (x : Nat), getCore (overtake (padKey g off / 128) m s) x = getCore s x := fun m x => by
    unfold overtake
    split <;> rfl
  by_cases hg : g' = g
  · subst hg
    simp only [padRead, padWrite, getCore_modCore_same, hcore, true_and]
    split
    · rename_i hv
      simp only [mget, mfind_mdel]
      split
      · exact hv.symm
      · rfl
    · simp only [mget, mfind_mput]
      split <;> rfl
  · simp only [padRead, padWrite, getCore_modCore, hcore, hg, false_and, if_false]

/-- Bytes written to the spots of a scratch access in turn; those outside every scratchpad are dropped. -/
def padWrites (l : List (Spot × Byte)) (s : State) : State := l.foldl (fun s x => match x.1 with | .pad g off => padWrite g off x.2 s | _ => s) s

theorem padRead_padWrites_other {g off : Nat} (l : List (Spot × Byte)) (s : State) (h : Spot.pad g off ∉ l.map (·.1)) : padRead (padWrites l s) g off = padRead s g off := by
  induction l generalizing s with
  | nil => rfl
  | cons x l ih =>
    obtain ⟨hx, hl⟩ := not_or.1 (mt List.mem_cons.2 h)
    obtain ⟨spot, v⟩ := x
    refine (ih _ hl).trans ?_
    cases spot with
    | pad g' off' =>
      refine (padRead_padWrite ..).trans (if_neg ?_)
      rintro ⟨rfl, rfl⟩
      exact hx rfl
    | _ => rfl
theorem padRead_padWrites {g off : Nat} {v : Byte} (l : List (Spot × Byte)) (s : State) (hdistinct : (l.map (·.1)).Nodup) (h : (Spot.pad g off, v) ∈ l) :
    padRead (padWrites l s) g off = v := by
  induction l generalizing s with
  | nil => cases h
  | cons x l ih =>
    obtain ⟨hx, hl⟩ := List.nodup_cons.1 hdistinct
    rcases List.mem_cons.1 h with rfl | h
    · refine (padRead_padWrites_other l _ hx).trans ?_
      simp only [padRead_padWrite, and_self, if_true]
    · exact ih _ hl h
theorem padRead_spotsClean (ps : List Spot) (s : State) (g off : Nat) : padRead (spotsClean ps s) g off = padRead s g off := by
  unfold spotsClean
  refine foldl_inv (fun t => padRead t g off = padRead s g off) _ ps s rfl fun p t ht => ?_
  split
  · split
    · exact ht
    · split
      · rw [← ht]
        simp only [padRead, getCore_modCore]
        split
        · rename_i e
          rw [e]
        · rfl
      · exact ht
  · exact ht
theorem wrLoc_scratch (w : Bool) (g pt : Nat) (ps : List Spot) (bs : List Byte) (s : State) : wrLoc w g pt (.sc ps) bs s = spotsClean ps (padWrites (ps.zip bs) s) := rfl
/-- Bytes written to neighbouring places of a scratchpad. -/
theorem padRead_wrLoc (w : Bool) (c pt g off : Nat) (bs : List Byte) (s : State) {i : Nat} (hi : i < bs.length) :
    padRead (wrLoc w c pt (.sc ((upto bs.length).map fun i => Spot.pad g (off + i))) bs s) g (off + i) = bs[i] := by
  rw [wrLoc_scratch, padRead_spotsClean]
  have hlen : ((upto bs.length).map fun i => Spot.pad g (off + i)).length = bs.length := by simp [upto]
  refine padRead_padWrites _ _ ?_ ?_
  · rw [List.map_fst_zip (by omega)]
    refine List.Nodup.map (fun x y e => ?_) List.nodup_range
    injection e with _ e
    omega
  · refine List.mem_iff_getElem.2 ⟨i, by simpa [hlen] using hi, ?_⟩
    simp [upto]

-- What follows a store (R92, R148) -----------------------------------------------------------------------------------------

theorem shadowIssue_unshadowed {i : Instr} (c : Ctx) (s : State) (h : shadowed i = false) : shadowIssue i c s = s := by
  simp only [shadowIssue, h, Bool.not_false, Bool.or_true, if_true]
/-- Once a word that is not compared with its clones has acted, memory stays as it left it. -/
theorem memoryKept_issued {i : Instr} (c : Ctx) (s t : State) (h : shadowed i = false) : memoryKept t (issued i c s t) := by
  unfold issued
  rw [shadowIssue_unshadowed c _ h]
  exact ((onlyRegs_noteOuts (D := fun _ _ => False) i c _ _ _ t rfl).trans (onlyRegs_advance c _)).memory
theorem memoryKept_backingStore (root va n : Nat) (s : State) : memoryKept s (backingStore root va n s) := by
  unfold backingStore
  refine foldl_inv (memoryKept s) _ _ s (.refl s) fun x t ht => ht.trans ?_
  exact memoryKept_modTh _ _ _ (freeW t).2
theorem memoryKept.coreByte {s t : State} (h : memoryKept s t) (g pa : Nat) : Machine.coreByte t g pa = Machine.coreByte s g pa := by
  obtain ⟨hmem, -, -, halias, -, -, -, hcores, hfields⟩ := h
  simp only [Machine.coreByte, l1Byte, rdcByte, (hcores g).1, (hfields (fieldOf g)).1, halias, hmem]
theorem memoryKept.padRead {s t : State} (h : memoryKept s t) (g off : Nat) : Machine.padRead t g off = Machine.padRead s g off := by
  obtain ⟨-, -, -, -, -, -, -, hcores, -⟩ := h
  simp only [Machine.padRead, (hcores g).2.1]

-- Stores (R414) ----------------------------------------------------------------------------------------------------------

/-- The point a store writes at. -/
def storePoint (f : FmtM) : Nat :=
  let nt := if f.hint == 2 then 1 else 0
  if hasRel f then max nt (pointOf f.scope.toNat) else nt
/-- What a store asks of its accesses. -/
def storeReq (f : FmtM) : Req :=
  { space := f.space.toNat, n := widthOf f, align := decide (f.order ≠ 0), acc := 1, detail := 1, code := 1, consume := false }
/-- What a store does where its accesses resolve: the write-backs of its order, then every thread's bytes in turn. -/
def storeLanes (f : FmtM) (c : Ctx) (ls : List (LaneAt × Loc)) (s : State) : State :=
  ls.foldl (fun s x => laneWrite c (storePoint f) x (widthOf f) (dataVal c f x.1.1.2) s) (before c f ls s)
/-- The bytes of a thread's store. -/
def storeBytes (f : FmtM) (c : Ctx) (r : Nat) : List Byte := toBytes (widthOf f) (BitVec.ofNat 128 (dataVal c f r))

section
variable {f : FmtM} {s s' : State} {c : Ctx} {x : LaneAt × Loc}
theorem effSt_one (he : c.entry = none) (hreach : Reaches c (storeReq f) (laneAddrs c (addrM c f)) s [x] s') :
    effSt f c s = .done (laneWrite c (storePoint f) x (widthOf f) (dataVal c f x.1.1.2) (before c f [x] s')) := by
  have halign : decide (f.order ≠ 0) = (f.order != 0) := decide_not
  rw [storeReq, halign] at hreach
  exact accessLanes_reaches (storeLanes f c) he hreach
theorem memoryKept_laneWrite (pt n v : Nat) (u : State) :
    memoryKept (wrLoc (secureOf u c.blk) c.g pt x.2 (toBytes n (BitVec.ofNat 128 v)) u) (laneWrite c pt x n v u) := by
  unfold laneWrite
  simp only
  split
  · exact memoryKept_backingStore ..
  · exact .refl _
/-- A store of one thread writes its bytes where its access resolves, and what follows keeps memory as it then stands. -/
theorem store_writes (h : Issues (.st f) s c) (hreach : Reaches c (storeReq f) (laneAddrs c (addrM c f)) s [x] s') :
    ∃ w u t, exec (.st f) s = .next t ∧ memoryKept (wrLoc w c.g (storePoint f) x.2 (storeBytes f c x.1.1.2) u) t :=
  ⟨_, _, _, issueM_next h (effSt_one (context_entry h.here) hreach), (memoryKept_laneWrite ..).trans (memoryKept_issued c s _ rfl)⟩
end

theorem length_storeBytes (f : FmtM) (c : Ctx) (r : Nat) : (storeBytes f c r).length = widthOf f := length_toBytes ..
theorem getElem_storeBytes (f : FmtM) (c : Ctx) (r i : Nat) (h : i < (storeBytes f c r).length) :
    (storeBytes f c r)[i] = bits (BitVec.ofNat 128 (dataVal c f r)) (8 * i) 8 := getElem_toBytes ..
theorem storePoint_weak {f : FmtM} (hrel : hasRel f = false) (hhint : f.hint ≠ 2) : storePoint f = 0 := by
  simpa [storePoint, hrel] using hhint
theorem storePoint_home {f : FmtM} (hrel : hasRel f = true) (hscope : 2 ≤ f.scope.toNat) : storePoint f = 2 := by
  simp only [storePoint, hrel, if_true, pointOf]
  split <;> omega

section
variable {w : Bool} {g p : Nat} {bs : List Byte} {u : State} (hfits : p % 128 + bs.length ≤ 128) {i : Nat} (hi : i < bs.length)
include hfits hi
/-- What a store to the L1 leaves there. -/
theorem coreByte_stored (hp : ∀ o, target p ≠ .ctl o) : coreByte (wrLoc w g 0 (.g p) bs u) g (p + i) = bs[i] := by
  have haddr : p + i = p / 128 * 128 + (p % 128 + i) := by omega
  rw [wrLoc_memory _ _ _ _ _ hp, ← lineByte_lineWith bs (p % 128) i hi hfits, haddr]
  exact coreByte_of_l1 (l1Byte_l1Write g _ _ _ u (by omega) (bit_rangeMask _ _ _ hi hfits))
/-- What a store at the home leaves there. -/
theorem memGet_stored (hp : ∀ o, target p ≠ .ctl o) (hline : ∀ f w o, target (p / 128 * 128) ≠ .viewOf f w o) :
    memGet (wrLoc w g 2 (.g p) bs u).mem (p + i) = bs[i] := by
  have haddr : p + i = p / 128 * 128 + (p % 128 + i) := by omega
  rw [wrLoc_memory _ _ _ _ _ hp, ← lineByte_lineWith bs (p % 128) i hi hfits, haddr]
  exact memGet_homeWrite _ _ hline (by omega) (bit_rangeMask _ _ _ hi hfits)
end

/-- Settles O54: where the access resolves decides which write it is, and what follows keeps memory. -/
theorem storedBytesRead : Obligations.StoredBytesRead := by
  intro f s s' c x n v hissues hreach
  obtain ⟨w, u, t, hexec, hkept⟩ := store_writes hissues hreach
  have hlen : (storeBytes f c x.1.1.2).length = n := length_storeBytes ..
  refine ⟨fun p hx hfits hp hrel hhint => ⟨t, hexec, fun i hi => ?_⟩, fun p hx hfits hline hp hrel hscope => ⟨t, hexec, fun i hi => ?_⟩,
    fun g off hx => ⟨t, hexec, fun i hi => ?_⟩⟩
  · rw [hkept.coreByte, hx, storePoint_weak hrel hhint, coreByte_stored (by rwa [hlen]) (by rwa [hlen]) hp, getElem_storeBytes]
  · have hctl : ∀ o, target p ≠ .ctl o := by
      rcases hp with hp | ⟨_, _, hp⟩ <;> simp [hp]
    have hview : ∀ f w o, target (p / 128 * 128) ≠ .viewOf f w o := by
      obtain ⟨_, _, hline | hline⟩ := hline <;> simp [hline]
    rw [hkept.1, hx, storePoint_home hrel hscope, memGet_stored (by rwa [hlen]) (by rwa [hlen]) hctl hview, getElem_storeBytes]
  · rw [hkept.padRead, hx, ← hlen, padRead_wrLoc _ _ _ _ _ _ _ (by rwa [hlen]), getElem_storeBytes]

end Sys2Proof.Machine
end

section
/-! Words that write registers (R45, R49, R92, R93, R319): which registers each of them names and writes, what shadow issue may change beside, and what both leave alone. -/
namespace Sys2Proof.Machine

-- What shadow issue looks at (R92, R93) ---------------------------------------------------------------------------

/-- What decides whether a block rolls back is as it was: the region registers, and every block's region, rollback mark and snapshot. -/
structure RollKept (s t : State) : Prop where
  rcbs   : t.rcbs = s.rcbs
  blocks : ∀ b, (getBlk t b).region = (getBlk s b).region ∧ (getBlk t b).rolled = (getBlk s b).rolled ∧ (getBlk t b).snapshot = (getBlk s b).snapshot

theorem RollKept.refl (s : State) : RollKept s s := ⟨rfl, fun _ => ⟨rfl, rfl, rfl⟩⟩
theorem RollKept.trans {s t u : State} (h : RollKept s t) (h' : RollKept t u) : RollKept s u := by
  refine ⟨h'.rcbs.trans h.rcbs, fun b => ?_⟩
  obtain ⟨hregion, hrolled, hsnapshot⟩ := h.blocks b
  obtain ⟨hregion', hrolled', hsnapshot'⟩ := h'.blocks b
  exact ⟨hregion'.trans hregion, hrolled'.trans hrolled, hsnapshot'.trans hsnapshot⟩
theorem RollKept.of_eq {s t : State} (hrcbs : t.rcbs = s.rcbs) (hblocks : t.blocks = s.blocks) : RollKept s t := by
  refine ⟨hrcbs, fun b => ?_⟩
  rw [getBlk, getBlk, hblocks]
  exact ⟨rfl, rfl, rfl⟩
theorem rollKept_modTh (b r : Nat) (F : Thread → Thread) (s : State) : RollKept s (modTh b r F s) := by
  refine ⟨by simp [modTh], fun b' => ?_⟩
  obtain ⟨m, e⟩ := getBlk_modTh b r b' F s
  rw [e]
  exact ⟨rfl, rfl, rfl⟩
theorem RollKept.rollsBack {s t : State} (h : RollKept s t) (b : Nat) : Machine.rollsBack t b = Machine.rollsBack s b := by
  obtain ⟨hregion, hrolled, hsnapshot⟩ := h.blocks b
  have hroll : regRollback t (getBlk s b).region = regRollback s (getBlk s b).region := congrArg (· == 1) (effField_congr s t h.rcbs ..)
  simp only [Machine.rollsBack, hregion, hrolled, hsnapshot, hroll]

/-- So are injected lane errors and armed mismatches. -/
structure ShadowKept (s t : State) : Prop where
  roll    : RollKept s t
  laneErr : ∀ g, (getCore t g).laneErr = (getCore s g).laneErr
  armed   : ∀ b r, (getTh t b r).shadowInj = (getTh s b r).shadowInj

theorem ShadowKept.refl (s : State) : ShadowKept s s := ⟨.refl s, fun _ => rfl, fun _ _ => rfl⟩
theorem ShadowKept.trans {s t u : State} (h : ShadowKept s t) (h' : ShadowKept t u) : ShadowKept s u :=
  ⟨h.roll.trans h'.roll, fun g => (h'.laneErr g).trans (h.laneErr g), fun b r => (h'.armed b r).trans (h.armed b r)⟩
theorem ShadowKept.foldl {α : Type} (f : State → α → State) (h : ∀ s a, ShadowKept s (f s a)) (l : List α) (s : State) : ShadowKept s (l.foldl f s) :=
  foldl_inv (ShadowKept s) f l s (.refl s) fun a _ ht => ht.trans (h _ a)
theorem ShadowKept.of_eq {s t : State} (hrcbs : t.rcbs = s.rcbs) (hcores : t.cores = s.cores) (hblocks : t.blocks = s.blocks) : ShadowKept s t := by
  refine ⟨.of_eq hrcbs hblocks, fun g => ?_, fun b r => ?_⟩
  · rw [getCore, getCore, hcores]
  · rw [getTh, getTh, getBlk, getBlk, hblocks]
theorem ShadowKept.undiffering {s t : State} {c : Ctx} (h : ShadowKept s t) (hs : Undiffering s c) : Undiffering t c :=
  ⟨(h.laneErr c.g).trans hs.1, fun l hl => (h.armed c.blk l.2).trans (hs.2 l hl)⟩
theorem shadowKept_modTh (b r : Nat) (F : Thread → Thread) (s : State) (hF : ∀ t, (F t).shadowInj = t.shadowInj) : ShadowKept s (modTh b r F s) := by
  refine ⟨rollKept_modTh .., fun g => by simp, fun b' r' => ?_⟩
  rcases getTh_modTh_cases b r b' r' F s with e | ⟨-, -, e⟩
  · rw [e]
  · rw [e, hF]
theorem shadowInj_putReg (num : Nat) (v : Word) (t : Thread) : (putReg num v t).shadowInj = t.shadowInj := by
  unfold putReg
  split
  · rfl
  · split
    · rfl
    · split <;> rfl
theorem shadowKept_writeReg (c : Ctx) (r : Nat) (spec : BitVec 9) (n v : Nat) (s : State) : ShadowKept s (writeReg c r spec n v s) := by
  unfold writeReg
  split
  · exact .refl s
  · refine shadowKept_modTh _ _ _ _ fun t => foldl_inv (fun u : Thread => u.shadowInj = t.shadowInj) _ _ t rfl fun i u hu => ?_
    simp only
    split
    · exact (shadowInj_putReg ..).trans hu
    · split
      · exact (shadowInj_putReg ..).trans hu
      · exact hu
theorem shadowKept_writeLanes (c : Ctx) (spec : BitVec 9) (n : Nat) (val : Nat × Nat → Nat) (s : State) : ShadowKept s (writeLanes c spec n val s) := by
  unfold writeLanes
  split
  · exact .refl s
  · exact ShadowKept.foldl _ (fun _ _ => shadowKept_writeReg ..) _ s
theorem shadowKept_writeP (c : Ctx) (spec : BitVec 9) (val : Nat × Nat → Bool) (s : State) : ShadowKept s (writeP c spec val s) :=
  ShadowKept.foldl _ (fun _ _ => shadowKept_writeReg ..) _ s
theorem shadowKept_noteOuts (i : Instr) (c : Ctx) (a b : Bool) (hit : List (Nat × Nat)) (s : State) : ShadowKept s (noteOuts i c a b hit s) := by
  have hone : ∀ (r : Nat) (o : Out) (s : State), ShadowKept s (noteOut c.blk r o s) := by
    intro r o s
    unfold noteOut
    split
    · exact .refl s
    · have hid : ShadowKept s { s with nextId := s.nextId + 1 } := .of_eq rfl rfl rfl
      exact hid.trans (shadowKept_modTh _ _ _ _ fun _ => rfl)
  unfold noteOuts
  simp only
  split
  · exact .refl s
  · exact ShadowKept.foldl _ (fun _ _ => hone ..) _ s
theorem shadowKept_perfAdd (f code : Nat) (core : Option Nat) (req : Option Bool) (n : Nat) (s : State) : ShadowKept s (perfAdd f code core req n s) := by
  unfold perfAdd
  simp only
  split
  · exact .refl s
  · exact .of_eq rfl rfl rfl

-- What shadow issue does (R92, R93) ---------------------------------------------------------------------------------

/-- Between `s` and `t` only registers in `D` and deferred causes of the threads in `A` of block `b` may have changed. -/
structure RegsOrDeferred (b : Nat) (A : Nat → Prop) (D : Nat → Nat → Prop) (s t : State) : Prop where
  memory   : memoryKept s t
  blocks   : ∀ b', blockKept (getBlk s b') (getBlk t b')
  deferred : ∀ b' r, ¬(b' = b ∧ A r) → (getTh t b' r).deferred = (getTh s b' r).deferred
  kept     : ∀ b' r d, threadKept { getTh s b' r with deferred := d } { getTh t b' r with deferred := d }
  regs     : ∀ b' r num, ¬(b' = b ∧ D r num) → regAt t b' r num = regAt s b' r num

section
variable {b : Nat} {A : Nat → Prop} {D : Nat → Nat → Prop}
theorem threadKept.with_deferred {t u : Thread} (h : threadKept t u) (d : List TrapInfo) : threadKept { t with deferred := d } { u with deferred := d } := by
  obtain ⟨h1, h2, h3, h4, h5, h6, h7, h8, h9, h10, h11, h12, h13, h14, -⟩ := h
  exact ⟨h1, h2, h3, h4, h5, h6, h7, h8, h9, h10, h11, h12, h13, h14, rfl⟩
theorem OnlyRegs.regsOrDeferred {s t : State} (h : OnlyRegs b D s t) : RegsOrDeferred b A D s t := by
  refine ⟨h.memory, h.blocks, fun b' r _ => ?_, fun b' r d => (h.kept b' r).with_deferred d, h.regs⟩
  obtain ⟨-, -, -, -, -, -, -, -, -, -, -, -, -, -, hdeferred⟩ := h.kept b' r
  exact hdeferred
theorem RegsOrDeferred.trans {s t u : State} (h : RegsOrDeferred b A D s t) (h' : RegsOrDeferred b A D t u) : RegsOrDeferred b A D s u :=
  ⟨h.memory.trans h'.memory, fun b' => (h.blocks b').trans (h'.blocks b'), fun b' r hn => (h'.deferred b' r hn).trans (h.deferred b' r hn),
    fun b' r d => (h.kept b' r d).trans (h'.kept b' r d), fun b' r num hn => (h'.regs b' r num hn).trans (h.regs b' r num hn)⟩
theorem regsOrDeferred_foldl {α : Type} (l : List α) (f : State → α → State) (s : State) (h : ∀ a ∈ l, ∀ t, RegsOrDeferred b A D t (f t a)) :
    RegsOrDeferred b A D s (l.foldl f s) := by
  induction l generalizing s with
  | nil => exact (OnlyRegs.refl b D s).regsOrDeferred
  | cons a l ih => exact (h a List.mem_cons_self s).trans (ih (f s a) fun x hx => h x (List.mem_cons_of_mem a hx))
theorem regsOrDeferred_queueDeferred {r : Nat} (hr : A r) (code detail : Nat) (va : DWord) (rep : Option (BitVec 16 × BitVec 16)) (s : State) :
    RegsOrDeferred b A D s (queueDeferred b r code detail va s rep) := by
  have hthread : ∀ b' r', getTh (queueDeferred b r code detail va s rep) b' r' = getTh s b' r' ∨
      ((b' = b ∧ r' = r) ∧ ∃ d, getTh (queueDeferred b r code detail va s rep) b' r' = { getTh s b' r' with deferred := d }) := by
    intro b' r'
    unfold queueDeferred
    rcases getTh_modTh_cases b r b' r' _ s with e | ⟨hb, hr, e⟩
    · exact .inl e
    · rw [e]
      split
      · exact .inl rfl
      · exact .inr ⟨⟨hb, hr⟩, _, rfl⟩
  refine ⟨memoryKept_modTh .., fun b' => ?_, fun b' r' hn => ?_, fun b' r' d => ?_, fun b' r' num _ => ?_⟩
  · obtain ⟨m, e⟩ := getBlk_modTh b r b' _ s
    rw [queueDeferred, e]
    exact ⟨rfl, rfl, rfl, rfl, rfl, rfl, rfl, rfl, rfl, rfl, rfl, rfl, rfl, rfl, rfl, rfl, rfl⟩
  · rcases hthread b' r' with e | ⟨⟨hb, rfl⟩, -⟩
    · rw [e]
    · exact absurd ⟨hb, hr⟩ hn
  · rcases hthread b' r' with e | ⟨-, d', e⟩
    · rw [e]
      exact .refl _
    · rw [e]
      exact .refl _
  · rcases hthread b' r' with e | ⟨-, d', e⟩
    · rw [regAt, e]
      rfl
    · rw [regAt, e]
      rfl
theorem OnlyRegs.othersKept {s t : State} (h : OnlyRegs b D s t) : OthersKept b s t :=
  ⟨h.memory.1, fun b' r num hb => h.regs b' r num fun hd => hb hd.1⟩
end

section
variable {b : Nat} {D : Nat → Nat → Prop}
theorem onlyRegs_evAdd (f off n : Nat) (s : State) : OnlyRegs b D s (evAdd f off n s) :=
  onlyRegs_of_eq (memoryKept_modFld _ _ _ fun _ => ⟨rfl, rfl, rfl, rfl, rfl⟩) rfl
/-- Mismatches armed on some threads have been made. -/
theorem onlyRegs_disarm (ls : List (Nat × Nat)) (s : State) : OnlyRegs b D s (ls.foldl (fun s l => modTh b l.2 (fun t => { t with shadowInj := false }) s) s) :=
  onlyRegs_foldl _ _ _ fun _ _ _ => onlyRegs_modTh _ _ (fun _ => ⟨rfl, rfl, rfl, rfl, rfl, rfl, rfl, rfl, rfl, rfl, rfl, rfl, rfl, rfl, rfl⟩) fun _ _ _ => rfl
theorem rollKept_evAdd (f off n : Nat) (s : State) : RollKept s (evAdd f off n s) := .of_eq rfl rfl
theorem rollKept_disarm (ls : List (Nat × Nat)) (s : State) : RollKept s (ls.foldl (fun s l => modTh b l.2 (fun t => { t with shadowInj := false }) s) s) :=
  foldl_inv (RollKept s) _ ls s (.refl s) fun _ _ ht => ht.trans (rollKept_modTh ..)

section
variable {ls : List (Nat × Nat)} {pc : DWord} {rep : Option (BitVec 16 × BitVec 16)} {s : State}
theorem shadowMismatch_nil : shadowMismatch b [] pc rep s = s := rfl
/-- Mismatches of threads outside a region that rolls back leave a deferred cause with each. -/
theorem regsOrDeferred_shadowMismatch {A : Nat → Prop} (hls : ∀ l ∈ ls, A l.2) (hroll : rollsBack s b = false) :
    RegsOrDeferred b A D s (shadowMismatch b ls pc rep s) := by
  unfold shadowMismatch
  split
  · exact (OnlyRegs.refl b D s).regsOrDeferred
  · have hsame := ((rollKept_disarm (b := b) ls s).trans (rollKept_evAdd (fieldOf (getBlk s b).core) 0x60 ls.length _)).rollsBack b
    have hdisarm := (onlyRegs_disarm (b := b) (D := D) ls s).trans (onlyRegs_evAdd (fieldOf (getBlk s b).core) 0x60 ls.length _)
    simp only
    rw [hsame, hroll]
    exact hdisarm.regsOrDeferred.trans (regsOrDeferred_foldl _ _ _ fun l hl t => regsOrDeferred_queueDeferred (hls l hl) ..)
theorem othersKept_shadowMismatch : OthersKept b s (shadowMismatch b ls pc rep s) := by
  unfold shadowMismatch
  split
  · exact .refl b s
  · have hdisarm := ((onlyRegs_disarm (b := b) (D := fun _ _ => False) ls s).trans (onlyRegs_evAdd (fieldOf (getBlk s b).core) 0x60 ls.length _)).othersKept
    simp only
    refine hdisarm.trans ?_
    split
    · exact othersKept_rollback.trans (othersKept_settleYard b)
    · exact OthersKept.foldl _ (fun _ _ => othersKept_modTh_own ..) _ _
end

/-- A comparison is counted (R92). -/
def comparisonCounted (c : Ctx) (s : State) : State := perfCore c.g c.blk 0x15 1 (evAdd (fieldOf c.g) 0x50 1 s)
theorem onlyRegs_comparisonCounted (c : Ctx) (s : State) : OnlyRegs b D s (comparisonCounted c s) := (onlyRegs_evAdd ..).trans (onlyRegs_perfCore ..)
theorem shadowKept_comparisonCounted (c : Ctx) (s : State) : ShadowKept s (comparisonCounted c s) := by
  have hev : ShadowKept s (evAdd (fieldOf c.g) 0x50 1 s) := .of_eq rfl rfl rfl
  exact hev.trans (shadowKept_perfAdd ..)
/-- The lane errors that a comparison has met are gone. -/
def laneErrTaken (c : Ctx) (s : State) : State := if (getCore s c.g).laneErr = 0 then s else modCore c.g (fun k => { k with laneErr := 0 }) s
theorem onlyRegs_laneErrTaken (c : Ctx) (s : State) : OnlyRegs b D s (laneErrTaken c s) := by
  unfold laneErrTaken
  split
  · exact .refl ..
  · exact onlyRegs_of_eq (memoryKept_modCore _ _ _ fun _ => ⟨rfl, rfl, rfl, rfl, rfl, rfl⟩) rfl
theorem rollKept_laneErrTaken (c : Ctx) (s : State) : RollKept s (laneErrTaken c s) := by
  unfold laneErrTaken
  split
  · exact .refl s
  · exact .of_eq rfl rfl
/-- The threads of a comparison whose results differ. -/
def differing (c : Ctx) (ls : List (Nat × Nat)) (s : State) : List (Nat × Nat) := ls.filter (fun l => (getTh s c.blk l.2).shadowInj || bit (getCore s c.g).laneErr l.1)
theorem differing_undiffering {c : Ctx} {ls : List (Nat × Nat)} {s : State} (hls : ∀ l ∈ ls, l ∈ c.active) (h : Undiffering s c) : differing c ls s = [] := by
  obtain ⟨hlane, harmed⟩ := h
  refine List.filter_eq_nil_iff.2 fun l hl => ?_
  simp [harmed l (hls l hl), hlane]
theorem shadowCompareNow_eq (c : Ctx) (ls : List (Nat × Nat)) (s : State) : shadowCompareNow c ls s =
    shadowMismatch c.blk (differing c ls (comparisonCounted c s)) c.pc (repOf c) (laneErrTaken c (comparisonCounted c s)) := rfl
/-- A comparison that waits for an idle cycle (R92). -/
theorem onlyRegs_queueComparison (g : Nat) (q : List ShadowEnt) (s : State) : OnlyRegs b D s (modCore g (fun k => { k with shadowQ := k.shadowQ ++ q }) s) :=
  onlyRegs_of_eq (memoryKept_modCore _ _ _ fun _ => ⟨rfl, rfl, rfl, rfl, rfl, rfl⟩) rfl

/-- Shadow issue changes nothing but registers in `D`, or it makes the mismatches of some active threads; none where no result differs. -/
theorem shadowIssue_cases (D : Nat → Nat → Prop) (i : Instr) (c : Ctx) (s : State) : OnlyRegs c.blk D s (shadowIssue i c s) ∨
    ∃ ls u, shadowIssue i c s = shadowMismatch c.blk ls c.pc (repOf c) u ∧ OnlyRegs c.blk D s u ∧ RollKept s u ∧ (∀ l ∈ ls, l ∈ c.active) ∧ (Undiffering s c → ls = []) := by
  unfold shadowIssue
  simp only
  split
  · exact .inl (.refl ..)
  · split
    · have htake : ∀ l ∈ c.active.take (32 - c.active.length), l ∈ c.active := fun l hl => List.mem_of_mem_take hl
      exact .inr ⟨_, _, shadowCompareNow_eq .., (onlyRegs_comparisonCounted ..).trans (onlyRegs_laneErrTaken ..),
        (shadowKept_comparisonCounted ..).roll.trans (rollKept_laneErrTaken ..), fun l hl => htake l (List.mem_of_mem_filter hl),
        fun hsame => differing_undiffering htake ((shadowKept_comparisonCounted ..).undiffering hsame)⟩
    · split
      · exact .inl (.refl ..)
      · split
        · left
          split
          · exact onlyRegs_queueComparison ..
          · exact (onlyRegs_queueComparison ..).trans (onlyRegs_disarm ..)
        · exact .inl (onlyRegs_evAdd ..)

section
variable {i : Instr} {c : Ctx} {s : State}
theorem onlyRegs_shadowIssue (h : Undiffering s c) : OnlyRegs c.blk D s (shadowIssue i c s) := by
  rcases shadowIssue_cases D i c s with hregs | ⟨ls, u, hu, hregs, -, -, hnone⟩
  · exact hregs
  · rw [hu, hnone h, shadowMismatch_nil]
    exact hregs
theorem regsOrDeferred_shadowIssue (h : rollsBack s c.blk = false) : RegsOrDeferred c.blk (fun r => ∃ l ∈ c.active, l.2 = r) D s (shadowIssue i c s) := by
  rcases shadowIssue_cases D i c s with hregs | ⟨ls, u, hu, hregs, hroll, hactive, -⟩
  · exact hregs.regsOrDeferred
  · rw [hu]
    exact hregs.regsOrDeferred.trans (regsOrDeferred_shadowMismatch (fun l hl => ⟨l, hactive l hl, rfl⟩) ((hroll.rollsBack c.blk).trans h))
theorem othersKept_shadowIssue : OthersKept c.blk s (shadowIssue i c s) := by
  rcases shadowIssue_cases (fun _ _ => False) i c s with hregs | ⟨ls, u, hu, hregs, -⟩
  · exact hregs.othersKept
  · rw [hu]
    exact hregs.othersKept.trans othersKept_shadowMismatch
end
end

end Sys2Proof.Machine
end

section
/-! The frame of the words that write registers (R379-R403, R368, R427, R437, R452): each writes what its word names, and no more. -/
namespace Sys2Proof.Machine

-- Destinations of legal words (R319, R347, R375) --------------------------------------------------------------------

/-- `n` registers from a specifier are destinations that the word names, or the destination is null. -/
def NamesDest (i : Instr) (spec : BitVec 9) (n : Nat) : Prop := spec = null ∨ ∃ u ∈ (shape i).writes, u.spec = spec ∧ n ≤ u.n

theorem shape_legal {i : Instr} {c : Ctx} {s : State} (h : wordCause i i c s = none) : (shape i).legal = true := by
  by_contra hillegal
  rw [Bool.not_eq_true] at hillegal
  unfold wordCause at h
  split at h
  · cases h
  · simp only [hillegal, Bool.not_false, Bool.true_or, if_true] at h
    split at h <;> cases h
theorem isR_of_isPair {spec : BitVec 9} (h : isPair spec = true) : isR spec = true := (Bool.and_eq_true_iff.1 h).1
/-- A legal destination is null, or a register of its use. -/
theorem dstOk_named {k : Opd} {ty : Nat} {spec : BitVec 9} {n : Nat} (hok : dstOk k ty spec = true) (hacc : k ≠ .acc) (hpos : 0 < n) :
    spec = null ∨ { spec := spec, n := n } ∈ useOf spec n := by
  have hnamed : spec = null ∨ (isR spec || isP spec) = true := by
    cases k <;> simp only [dstOk, Bool.or_eq_true, beq_iff_eq] at hok
    case no => exact .inl hok
    case acc => exact absurd rfl hacc
    case p => exact hok.imp_right fun h => by rw [h, Bool.or_true]
    case r32 | r32Imm => exact hok.imp_right fun h => by rw [h, Bool.true_or]
    case w | pair => exact hok.imp_right fun h => by rw [isR_of_isPair h, Bool.true_or]
    case r | rImm =>
      refine hok.imp_right fun h => ?_
      split at h
      · rw [isR_of_isPair h, Bool.true_or]
      · rw [h, Bool.true_or]
  refine hnamed.imp_right fun h => ?_
  have hn : (n != 0) = true := bne_iff_ne.2 (Nat.ne_of_gt hpos)
  simp [useOf, h, hn]

theorem dstOk_shA {f : FmtA} {d a b c : Opd} {tys : List Nat} {mods : Nat} {extra : Bool} {tyA tyD : Nat} {immUsed am vz : Bool}
    (h : (shA f d a b c tys mods extra tyA tyD immUsed am false 0 0 vz).legal = true) : dstOk d tyD f.d = true ∧ srcOk c f.ty.toNat f.c f.imm = true := by
  simp only [shA, Bool.and_eq_true] at h
  obtain ⟨⟨⟨⟨⟨⟨⟨⟨⟨⟨-, -⟩, hd⟩, -⟩, -⟩, hc⟩, -⟩, -⟩, -⟩, -⟩, -⟩ := h
  exact ⟨hd, hc⟩
theorem dstOk_shE {f : FmtE} {status coord opnd : Opd} {espec ectl : Nat} {tag slot extra coordReg : Bool}
    (h : (shE f status coord opnd espec ectl tag slot extra coordReg).legal = true) : dstOk status 0 f.status = true := by
  simp only [shE, Bool.and_eq_true] at h
  obtain ⟨⟨⟨⟨⟨⟨⟨⟨-, hstatus⟩, -⟩, -⟩, -⟩, -⟩, -⟩, -⟩, -⟩ := h
  exact hstatus

-- What a word that writes registers does ------------------------------------------------------------------------------

/-- Only destinations that the word names have changed, and nothing that shadow issue looks at. -/
structure WritesDests (i : Instr) (c : Ctx) (s t : State) : Prop where
  regs   : OnlyRegs c.blk (destRegs i c) s t
  shadow : ShadowKept s t

theorem WritesDests.trans {i : Instr} {c : Ctx} {s t u : State} (h : WritesDests i c s t) (h' : WritesDests i c t u) : WritesDests i c s u :=
  ⟨h.regs.trans h'.regs, h.shadow.trans h'.shadow⟩
theorem writeReg_null (c : Ctx) (r n v : Nat) (s : State) : writeReg c r null n v s = s := if_pos rfl
theorem writeLanes_null (c : Ctx) (n : Nat) (val : Nat × Nat → Nat) (s : State) : writeLanes c null n val s = s := by
  unfold writeLanes
  split
  · rfl
  · exact foldl_inv (· = s) _ _ s rfl fun _ _ ht => (writeReg_null ..).trans ht
theorem writeP_null (c : Ctx) (val : Nat × Nat → Bool) (s : State) : writeP c null val s = s :=
  foldl_inv (· = s) _ _ s rfl fun _ _ ht => (writeReg_null ..).trans ht

section
variable {i : Instr} {c : Ctx} {s : State} {spec : BitVec 9}
theorem destRegs_of_namesDest {n r num : Nat} (h : ∃ u ∈ (shape i).writes, u.spec = spec ∧ n ≤ u.n) (hr : ∃ l ∈ c.active, l.2 = r) (hlo : spec.toNat ≤ num)
    (hhi : num < spec.toNat + n) : destRegs i c r num := by
  obtain ⟨u, hu, rfl, hn⟩ := h
  exact ⟨hr, u, hu, hlo, by omega⟩
theorem writesDests_writeLanes {n : Nat} (val : Nat × Nat → Nat) (he : c.entry = none) (hdest : NamesDest i spec n) : WritesDests i c s (writeLanes c spec n val s) := by
  refine ⟨?_, shadowKept_writeLanes ..⟩
  rcases hdest with rfl | hdest
  · rw [writeLanes_null]
    exact .refl ..
  · exact onlyRegs_writeLanes _ _ _ _ _ he fun l hl num hlo hhi => destRegs_of_namesDest hdest ⟨l, hl, rfl⟩ hlo hhi
theorem writesDests_writeP (val : Nat × Nat → Bool) (hdest : NamesDest i spec 1) : WritesDests i c s (writeP c spec val s) := by
  refine ⟨?_, shadowKept_writeP ..⟩
  rcases hdest with rfl | hdest
  · rw [writeP_null]
    exact .refl ..
  · exact onlyRegs_writeP _ _ _ _ fun l hl num hlo hhi => destRegs_of_namesDest hdest ⟨l, hl, rfl⟩ hlo hhi

/-- A use of the destination in the word's own kind and type. -/
theorem namesDest_of_use {k : Opd} {ty n : Nat} (hok : dstOk k ty spec = true) (hacc : k ≠ .acc) (hpos : 0 < n) {m : Nat} (hm : n ≤ m)
    (hw : ∀ u ∈ useOf spec m, u ∈ (shape i).writes) : NamesDest i spec n :=
  (dstOk_named hok hacc (Nat.lt_of_lt_of_le hpos hm)).imp_right fun h => ⟨_, hw _ h, rfl, hm⟩
end

section
variable {i : Instr} {c : Ctx} {s : State} {spec : BitVec 9} {k : Opd} {ty n m : Nat}
/-- What a word that writes registers does: its effect writes only what it names, and then it has issued. -/
def ActsOnDests (i : Instr) (s : State) (c : Ctx) : Prop := ∃ t, exec i s = .next (issued i c s t) ∧ WritesDests i c s t

theorem acts_lanes {val : Nat × Nat → Nat} (h : Issues i s c) (hexec : exec i s = .next (issued i c s (writeLanes c spec n val s)))
    (hok : (shape i).legal = true → dstOk k ty spec = true) (hw : (shape i).writes = useOf spec m) (hn : 0 < n ∧ n ≤ m) (hacc : k ≠ .acc := by decide) : ActsOnDests i s c :=
  ⟨_, hexec, writesDests_writeLanes val (context_entry h.here) (namesDest_of_use (hok (shape_legal h.ready.lawful)) hacc hn.1 hn.2 fun _ hu => hw ▸ hu)⟩
theorem acts_pred {val : Nat × Nat → Bool} (h : Issues i s c) (hexec : exec i s = .next (issued i c s (writeP c spec val s)))
    (hok : (shape i).legal = true → dstOk .p ty spec = true) (hw : (shape i).writes = useOf spec 1) : ActsOnDests i s c :=
  ⟨_, hexec, writesDests_writeP val (namesDest_of_use (hok (shape_legal h.ready.lawful)) (by decide) Nat.one_pos le_rfl fun _ hu => hw ▸ hu)⟩
/-- As many registers as a typed result takes. -/
theorem opdN_r (ty : Nat) : 0 < opdN .r ty ∧ opdN .r ty ≤ opdN .r ty := by
  refine ⟨?_, le_rfl⟩
  show 0 < if is64 ty = true then 2 else 1
  split <;> decide
theorem one_le_opdN_r (ty : Nat) : 0 < 1 ∧ 1 ≤ opdN .r ty := ⟨Nat.one_pos, (opdN_r ty).1⟩
theorem one_le_one : 0 < 1 ∧ 1 ≤ 1 := by decide
theorem two_le_two : 0 < 2 ∧ 2 ≤ 2 := by decide
end

theorem legal_together {x : Shape} (h : (together x).legal = true) : x.legal = true := h

theorem dstOk_movi {f : FmtI} (h : (shape (.movi f)).legal = true) : dstOk .r f.ty.toNat f.d = true := (Bool.and_eq_true_iff.1 (Bool.and_eq_true_iff.1 h).1).2
theorem dstOk_lea {f : FmtM} (h : (shape (.lea f)).legal = true) : dstOk (if isG f then .pair else .r32) 0 f.data = true :=
  (Bool.and_eq_true_iff.1 (Bool.and_eq_true_iff.1 h).2).2
/-- A destination that is a pair or a register. -/
theorem pairOrOne (b : Bool) (ty : Nat) : 0 < (if b then 2 else 1) ∧ (if b then 2 else 1) ≤ opdN (if b then .pair else .r32) ty := by
  cases b <;> exact ⟨by decide, le_rfl⟩
theorem pairOrOne_self (b : Bool) : 0 < (if b then 2 else 1) ∧ (if b then 2 else 1) ≤ if b then 2 else 1 := by
  cases b <;> decide
theorem pairOrOne_kind (b : Bool) : (if b then Opd.pair else Opd.r32) ≠ .acc := by
  cases b <;> decide
/-- A sum and the carry it leaves in the predicate it takes one from. -/
theorem acts_carry {i : Instr} {s : State} {c : Ctx} {d e : BitVec 9} {ty : Nat} {val : Nat × Nat → Nat} {carry : Nat × Nat → Bool} (h : Issues i s c)
    (hexec : exec i s = .next (issued i c s (writeP c e carry (writeLanes c d (opdN .r ty) val s))))
    (hok : (shape i).legal = true → dstOk .r ty d = true ∧ isP e = true) (hw : (shape i).writes = useOf d (opdN .r ty) ++ useOf e 1) : ActsOnDests i s c := by
  obtain ⟨hd, he⟩ := hok (shape_legal h.ready.lawful)
  have hpred : dstOk .p ty e = true := Bool.or_eq_true_iff.2 (.inr he)
  exact ⟨_, hexec, (writesDests_writeLanes val (context_entry h.here) (namesDest_of_use hd (by decide) (opdN_r ty).1 le_rfl fun _ hu =>
    hw ▸ List.mem_append_left _ hu)).trans (writesDests_writeP carry (namesDest_of_use hpred (by decide) Nat.one_pos le_rfl fun _ hu => hw ▸ List.mem_append_right _ hu))⟩

/-- Every word that writes registers alone, by the kind of its destination. -/
theorem actsOnDests {i : Instr} {s : State} {c : Ctx} (hw : writesOnlyRegisters i = true) (h : Issues i s c) : ActsOnDests i s c := by
  cases i with
  | add f | sub f | mul f | mulhi f | mad f | div f | rem f | min f | max f | abs f | neg f | and f | or f | xor f | not f | andn f | shl f | shr f
  | sar f | rot f | bfe f | bfi f | brev f | sel f | mov f | fadd f | fsub f | fmul f | fma f | fmin f | fmax f | frnd f | frcp f | frsq f | fsqrt f
  | fexp2 f | flog2 f | fsin f | fcos f | ftanh f | fsig f | cvt f | cvts f | scalex f | q4dec f | shfl f =>
    exact acts_lanes h (issueA_next h rfl) (fun hl => (dstOk_shA hl).1) rfl (opdN_r f.ty.toNat)
  | reduce f | scan f => exact acts_lanes h (issueA_next h rfl) (fun hl => (dstOk_shA (legal_together hl)).1) rfl (opdN_r f.ty.toNat)
  | popc f | clz f | ctz f | fdot2 f | fdot4 f | unpack f | q4enc f | collq f => exact acts_lanes h (issueA_next h rfl) (fun hl => (dstOk_shA hl).1) rfl one_le_one
  | ballot f | matchEq f => exact acts_lanes h (issueA_next h rfl) (fun hl => (dstOk_shA (legal_together hl)).1) rfl one_le_one
  | slotof f | rankof f => exact acts_lanes h (issueA_next h rfl) (fun hl => (dstOk_shA hl).1) rfl (one_le_opdN_r f.ty.toNat)
  | madw f | add64 f | sub64 f | mad64 f => exact acts_lanes h (issueA_next h rfl) (fun hl => (dstOk_shA hl).1) rfl two_le_two
  | cmp f | fcmp f | fclass f | pand f | por f | pxor f | pnot f | pmov f | yprobe f => exact acts_pred h (issueA_next h rfl) (fun hl => (dstOk_shA hl).1) rfl
  | vote f => exact acts_pred h (issueA_next h rfl) (fun hl => (dstOk_shA (legal_together hl)).1) rfl
  | addc f | subb f =>
    exact acts_carry h (issueA_next h rfl) (fun hl => dstOk_shA hl) rfl
  | pack2 f => exact acts_lanes h (issueA_next h rfl) (fun hl => (dstOk_shA (Bool.and_eq_true_iff.1 hl).1).1) rfl one_le_one
  | gets f => exact acts_lanes h (issueA_next h rfl) (fun hl => (dstOk_shA hl).1) rfl (pairOrOne _ f.ty.toNat) (pairOrOne_kind _)
  | movi f => exact acts_lanes h (issueI_next h rfl) dstOk_movi rfl (opdN_r f.ty.toNat)
  | lea f => exact acts_lanes h (issueM_next h rfl) dstOk_lea rfl (pairOrOne_self (isG f)) (pairOrOne_kind _)
  | tagffs f | tagstat f => exact acts_lanes h (issueE_next h rfl) (fun hl => dstOk_shE hl) rfl one_le_one
  | _ => cases hw

/-- Settles O55: the word's effect on its destinations, then shadow issue. -/
theorem registerWordsFrame : Obligations.RegisterWordsFrame := by
  intro i s c hw h
  obtain ⟨u, hexec, heffect⟩ := actsOnDests hw h
  have hnoted : WritesDests i c s (noteOuts i c (!(shape i).writes.isEmpty) (countsB i) (heldReach s u) u) :=
    heffect.trans ⟨onlyRegs_noteOuts i c _ _ _ u rfl, shadowKept_noteOuts ..⟩
  refine ⟨_, hexec, fun hsame => ?_, fun hroll => ?_, ?_⟩
  · rcases hsame with hoff | hsame
    · exact onlyRegs_issued i c s u heffect.regs hoff
    · exact (hnoted.regs.trans (onlyRegs_shadowIssue (hnoted.shadow.undiffering hsame))).trans (onlyRegs_advance c _)
  · have hkept : RegsOrDeferred c.blk (fun r => ∃ l ∈ c.active, l.2 = r) (destRegs i c) s (issued i c s u) :=
      (hnoted.regs.regsOrDeferred.trans (regsOrDeferred_shadowIssue ((hnoted.shadow.roll.rollsBack c.blk).trans hroll))).trans (onlyRegs_advance c _).regsOrDeferred
    exact ⟨hkept.memory, hkept.blocks, hkept.deferred, fun b' r => hkept.kept b' r _, hkept.regs⟩
  · have hkept : OthersKept c.blk s (issued i c s u) :=
      (hnoted.regs.othersKept.trans othersKept_shadowIssue).trans (onlyRegs_advance (D := destRegs i c) c _).othersKept
    exact ⟨fun a => congrArg (memGet · a) hkept.mem, hkept.regs⟩

end Sys2Proof.Machine
end

section
/-! The return from a trap handler, waits, windows and barriers (R86, R351, R359, R363-R365). -/
namespace Sys2Proof.Machine

-- Threads that meet a word one after another ---------------------------------------------------------------------

/-- Of threads of different ranks, where none's turn reaches another, each meets its turn in the state it was in at issue. -/
theorem foldl_own_thread {b : Nat} (turn : Thread → State → Nat × Nat → State) (hother : ∀ t u l r, r ≠ l.2 → getTh (turn t u l) b r = getTh u b r)
    {ls : List (Nat × Nat)} (s : State) (hnodup : (ls.map (·.2)).Nodup) :
    ls.foldl (fun u l => turn (getTh u b l.2) u l) s = ls.foldl (fun u l => turn (getTh s b l.2) u l) s := by
  refine foldl_congr_inv (fun ls u => (ls.map (·.2)).Nodup ∧ ∀ l ∈ ls, getTh u b l.2 = getTh s b l.2) _ _ _ _ ⟨hnodup, fun _ _ => rfl⟩ ?_
  rintro l ls u ⟨hnodup, hsame⟩
  simp only [List.map_cons, List.nodup_cons, List.mem_map, not_exists, not_and] at hnodup
  refine ⟨by rw [hsame l (List.mem_cons_self ..)], hnodup.2, fun m hm => ?_⟩
  rw [hother _ u l m.2 (hnodup.1 m hm), hsame m (List.mem_cons_of_mem _ hm)]

-- tret (R351) ----------------------------------------------------------------------------------------------------

/-- A thread's `tret`: back to TRAPPC in a handler, ILLEGAL_OP outside one (R351). -/
def tretTurn (c : Ctx) (t : Thread) (s : State) (l : Nat × Nat) : State :=
  if t.trap = .handler then modTh c.blk l.2 leaveHandler s else raise c [l] cIllegalOp s

theorem effTret_eq (f : FmtA) (c : Ctx) (s : State) : effTret f c s = .done (c.active.foldl (fun u l => tretTurn c (getTh u c.blk l.2) u l) s) := by
  simp only [effTret, beq_iff_eq]
  rfl
theorem getTh_tretTurn_other (c : Ctx) (t : Thread) (s : State) (l : Nat × Nat) (r : Nat) (h : r ≠ l.2) : getTh (tretTurn c t s l) c.blk r = getTh s c.blk r := by
  unfold tretTurn
  split
  · exact getTh_modTh_other _ s fun e => h e.2
  · exact getTh_raise_other c l cIllegalOp c.blk r s h
theorem effTret_own_thread (f : FmtA) {c : Ctx} (s : State) (hnodup : (c.active.map (·.2)).Nodup) :
    effTret f c s = .done (c.active.foldl (fun u l => tretTurn c (getTh s c.blk l.2) u l) s) :=
  (effTret_eq f c s).trans (congrArg Fin.done (foldl_own_thread (tretTurn c) (getTh_tretTurn_other c) s hnodup))
theorem effTret_handler (f : FmtA) {c : Ctx} {s : State} (hnodup : (c.active.map (·.2)).Nodup) (hin : ∀ l ∈ c.active, (getTh s c.blk l.2).trap = .handler) :
    effTret f c s = .done (c.active.foldl (fun s l => modTh c.blk l.2 leaveHandler s) s) := by
  rw [effTret_own_thread f s hnodup]
  exact congrArg Fin.done (List.foldl_ext _ _ _ fun u l hl => if_pos (hin l hl))
theorem effTret_outside (f : FmtA) {c : Ctx} {s : State} (hnodup : (c.active.map (·.2)).Nodup) (hout : ∀ l ∈ c.active, (getTh s c.blk l.2).trap ≠ .handler) :
    effTret f c s = .done (c.active.foldl (fun s l => raise c [l] cIllegalOp s) s) := by
  rw [effTret_own_thread f s hnodup]
  exact congrArg Fin.done (List.foldl_ext _ _ _ fun u l hl => if_neg (hout l hl))

/-- Settles O9: each thread by its own state at issue, which another's `tret` leaves alone. -/
theorem trapReturn : Obligations.TrapReturn := by
  intro f s c h hnodup
  exact ⟨issueA_next h (effTret_eq f c s), fun hin => issueA_next h (effTret_handler f hnodup hin), fun hout => issueA_next h (effTret_outside f hnodup hout)⟩

-- Waits, windows and barriers (R359, R363-R365) --------------------------------------------------------------------

/-- A sleep of 0 cycles is none; another begins a wait (R359). -/
theorem effSleep_eq (f : FmtA) (c : Ctx) (s : State) : effSleep f c s = .done (c.active.foldl (fun s l => if src32 c l.2 f.a f.imm = 0 then s
    else modTh c.blk l.2 (fun t => { t with waits := t.waits ++ [.doze (src32 c l.2 f.a f.imm)], began := true }) s) s) := by
  simp only [effSleep, beq_iff_eq, beginWait]

/-- Settles O13: the effect of each word is the one stated, `sleep`'s by its count. -/
theorem waitResults : Obligations.WaitResults := by
  intro f s c gives each no
  exact ⟨fun h => issueA_next h (effSleep_eq f c s), fun h => issueA_next h rfl, fun h => issueA_next h rfl, fun h => issueA_next h rfl,
    fun h => issueA_next h rfl, fun h => issueA_next h rfl⟩

end Sys2Proof.Machine
end

section
/-! The yoke, tensor records and copies (R77-R81, R218, R228, R244, R278, R424-R427, R432-R436): what each effect is in each of its cases. -/
namespace Sys2Proof.Machine

-- The yoke (R424-R427) -----------------------------------------------------------------------------------------

/-- Settles O23: where every access resolves, each is served or waits in turn; the probe reads what decides it. -/
theorem yokeResults : Obligations.YokeResults := by
  intro f fa s s' c xs q w mayS mayR
  refine ⟨fun h hreach => issueM_next h (accessLanes_reaches _ (context_entry h.here) hreach),
    fun h hreach => issueM_next h (accessLanes_reaches _ (context_entry h.here) hreach), fun h => issueA_next h rfl⟩

-- Words of format E ------------------------------------------------------------------------------------------------

/-- A word of format E whose effect stalls holds the port, and nothing changes (R27). -/
theorem issueE_stall {mk : FmtE → Instr} {f : FmtE} {eff : FmtE → Ctx → State → Fin} {s : State} {c : Ctx} (h : Issues (mk f) s c) (he : eff f c s = .stall) :
    issueE mk f eff s = .next s := by
  simp only [issueE, h.here, issueIn_stall h.ready he]

-- trec (R432) ------------------------------------------------------------------------------------------------------

/-- A write of every access's thread is a write of every active thread. -/
theorem writeLanes_reached {c : Ctx} {xs : List (LaneAt × Loc)} (addr : Nat × Nat → Nat) (hall : c.all = c.active)
    (hxs : xs.map (·.1) = c.active.map (fun l => (l, addr l))) (spec : BitVec 9) (n : Nat) (val : Nat × Nat → Nat) (s : State) :
    writeLanes { c with active := xs.map (fun x => x.1.1), all := [] } spec n val s = writeLanes c spec n val s := by
  have hactive : xs.map (fun x => x.1.1) = c.active := by
    simpa [List.map_map, Function.comp_def] using congrArg (List.map Prod.fst) hxs
  have hfirst : firstOf { c with active := c.active, all := [] } = firstOf c := by
    unfold firstOf
    rw [hall]
    cases c.active <;> rfl
  rw [hactive, writeLanes, hfirst]
  rfl

/-- The records that the threads load, in order: each thread's code, and the slot as the good ones leave it (R432). -/
def trecReads (f : FmtE) (c : Ctx) (xs : List (LaneAt × Loc)) (s : State) : List (Nat × Nat) × State :=
  xs.foldl (fun (acc : List (Nat × Nat) × State) x =>
    let bs := rdLoc (secureOf acc.2 c.blk) c.g 0 false x.2 128 acc.2
    let code := recCheck (ofBytes 1024 bs.1)
    (acc.1 ++ [(x.1.1.2, code)], if code = 0 then modRec c.blk f.rslot.toNat (fun k => { k with bits := ofBytes 1024 bs.1, valid := true }) bs.2 else bs.2)) ([], s)

section
variable {f : FmtE} {s s' : State} {c : Ctx} {xs : List (LaneAt × Loc)}

theorem effTrec_held (h : (getRec (getBlk s c.blk) f.rslot.toNat).refs ≠ 0) : effTrec f c s = .stall := by
  simp only [effTrec, bne_iff_ne, ne_eq, h, not_false_eq_true, if_true]
theorem effTrec_loads (hfree : (getRec (getBlk s c.blk) f.rslot.toNat).refs = 0) (hentry : c.entry = none) (hall : c.all = c.active)
    (hreach : Reaches c { space := 0, n := 128, align := true, acc := 0, detail := 0, code := 0 } (c.active.map (fun l => (l, src64 c l.2 f.opnd))) s xs s') :
    effTrec f c s = .done (writeLanes c f.status 1 (fun l => (((trecReads f c xs s').1.find? (fun v => v.1 == l.2)).map (·.2)).getD 0) (trecReads f c xs s').2) := by
  simp only [effTrec, hfree, bne_self_eq_false, Bool.false_eq_true, if_false]
  rw [accessLanes_reaches _ hentry hreach, writeLanes_reached _ hall hreach.2.1]
  simp only [trecReads, beq_iff_eq]

-- tcopy, tstore, tcopymc (R433, R436) --------------------------------------------------------------------------------

/-- One thread's operation, as it is put on its tag and its record slot (R433). -/
def copyStart (kind : Nat) (f : FmtE) (c : Ctx) (r : Rec) (s : State) (l : Nat × Nat) : State :=
  let s := if kind = 1 then s else flushSource c r (coordVals c l.2 f.coord r) s
  let s := preWalk (fieldOf c.g) c.blk r (coordVals c l.2 f.coord r) 0 (if kind = 2 then release c.g 1 s else s)
  recHold c.blk f.rslot.toNat (tagIssue c.blk f.tag.toNat { s with
    copies := s.copies ++ [{
      id := s.nextId, blk := c.blk, kind := kind, tag := f.tag.toNat, slot := f.rslot.toNat, record := r, coords := coordVals c l.2 f.coord r
      space := if kind = 2 then 1 else nbits f.espec 0 2 + 1, off := if kind = 2 ∨ f.opnd = null then 0 else src32 c l.2 f.opnd 0
      counter := if kind ≠ 2 ∧ bit f.ectl 12 = true then some (nbits f.ectl 0 12) else none
      mask := if kind = 2 then bits f.ectl 0 24 else 0, rslot := if kind = 2 then nbits f.espec 0 3 else 0 }]
    nextId := s.nextId + 1 })

theorem tagFull_eq_false {n : Nat} (h : (getTag (getBlk s c.blk) n).count + c.active.length ≤ 255) : tagFull s c n = false :=
  decide_eq_false (Nat.not_lt.2 h)
theorem tagFull_eq_true {n : Nat} (h : 255 < (getTag (getBlk s c.blk) n).count + c.active.length) : tagFull s c n = true := decide_eq_true h

variable (kind : Nat)

theorem copyIssue_empty (h : (getRec (getBlk s c.blk) f.rslot.toNat).valid = false) : copyIssue kind f c s = .done (raise c c.active cRecordEmpty s) := by
  simp only [copyIssue, h, Bool.not_false, if_true]
theorem copyIssue_badCoord (h : (getRec (getBlk s c.blk) f.rslot.toNat).valid = true)
    (hbad : coordBad f.coord (getRec (getBlk s c.blk) f.rslot.toNat).bits = true) : copyIssue kind f c s = .done (raise c c.active cIllegalEnc s) := by
  simp only [copyIssue, h, Bool.not_true, Bool.false_eq_true, if_false, hbad, if_true]
theorem copyIssue_tagFull (h : (getRec (getBlk s c.blk) f.rslot.toNat).valid = true)
    (hgood : coordBad f.coord (getRec (getBlk s c.blk) f.rslot.toNat).bits = false) (hfull : 255 < (getTag (getBlk s c.blk) f.tag.toNat).count + c.active.length) :
    copyIssue kind f c s = .stall := by
  simp only [copyIssue, h, Bool.not_true, Bool.false_eq_true, if_false, hgood, tagFull_eq_true hfull, if_true]
theorem copyIssue_starts (h : (getRec (getBlk s c.blk) f.rslot.toNat).valid = true)
    (hgood : coordBad f.coord (getRec (getBlk s c.blk) f.rslot.toNat).bits = false) (hroom : (getTag (getBlk s c.blk) f.tag.toNat).count + c.active.length ≤ 255) :
    copyIssue kind f c s = .done (c.active.foldl (copyStart kind f c (getRec (getBlk s c.blk) f.rslot.toNat).bits) s) := by
  simp only [copyIssue, h, Bool.not_true, Bool.false_eq_true, if_false, hgood, tagFull_eq_false hroom, beq_iff_eq, bne_iff_ne, Bool.or_eq_true, Bool.and_eq_true,
    decide_eq_true_eq]
  rfl

-- recvarm (R435) -------------------------------------------------------------------------------------------------------

/-- One thread arms the slot, after the tag of an arming that it replaces is done (R435). -/
def recvarmOne (f : FmtE) (c : Ctx) (s : State) (l : Nat × Nat) : State :=
  setRecv c.blk (nbits f.espec 0 3) (.armed (src32 c l.2 f.opnd 0) (src32 c l.2 f.coord 0) f.tag.toNat) (tagIssue c.blk f.tag.toNat
    (match getRecv (getBlk s c.blk) (nbits f.espec 0 3) with | .armed _ _ t => tagDone c.blk t 0 0 0 s | _ => s))

theorem effRecvarm_waits (h : (∃ o l t, getRecv (getBlk s c.blk) (nbits f.espec 0 3) = .receiving o l t) ∨ 255 < (getTag (getBlk s c.blk) f.tag.toNat).count + c.active.length) :
    effRecvarm f c s = .stall := by
  unfold effRecvarm
  simp only
  split
  · rfl
  · rename_i hidle
    rcases h with ⟨o, l, t, hrecv⟩ | hfull
    · exact absurd hrecv (hidle o l t)
    · exact if_pos (tagFull_eq_true hfull)
theorem effRecvarm_arms (h : ∀ o l t, getRecv (getBlk s c.blk) (nbits f.espec 0 3) ≠ .receiving o l t) (hroom : (getTag (getBlk s c.blk) f.tag.toNat).count + c.active.length ≤ 255) :
    effRecvarm f c s = .done (c.active.foldl (recvarmOne f c) s) := by
  have hidle : effRecvarm f c s = if tagFull s c f.tag.toNat then .stall else .done (c.active.foldl (recvarmOne f c) s) := by
    cases hslot : getRecv (getBlk s c.blk) (nbits f.espec 0 3) with
    | idle => simp only [effRecvarm, hslot]; rfl
    | armed => simp only [effRecvarm, hslot]; rfl
    | receiving o l t => exact absurd hslot (h o l t)
  rw [hidle, tagFull_eq_false hroom, if_neg Bool.false_ne_true]
end

/-- A copy of each kind issues, or meets what keeps it from it, as `copyIssue` says. -/
theorem tensorWord_refused {f : FmtE} {s : State} {c : Ctx} {mk : FmtE → Instr} {kind : Nat} {eff : FmtE → Ctx → State → Fin} (heff : eff f c s = copyIssue kind f c s)
    (h : Issues (mk f) s c) :
    let slot := getRec (getBlk s c.blk) f.rslot.toNat
    (slot.valid = false → issueE mk f eff s = .next (issued (mk f) c s (raise c c.active cRecordEmpty s))) ∧
    (slot.valid = true → coordBad f.coord slot.bits = true → issueE mk f eff s = .next (issued (mk f) c s (raise c c.active cIllegalEnc s))) ∧
    (slot.valid = true → coordBad f.coord slot.bits = false → 255 < (getTag (getBlk s c.blk) f.tag.toNat).count + c.active.length → issueE mk f eff s = .next s) :=
  ⟨fun hempty => issueE_next h (heff.trans (copyIssue_empty kind hempty)), fun hvalid hbad => issueE_next h (heff.trans (copyIssue_badCoord kind hvalid hbad)),
    fun hvalid hgood hfull => issueE_stall h (heff.trans (copyIssue_tagFull kind hvalid hgood hfull))⟩

/-- Settles O24: each effect, by the record slot, the coordinates, the tag and the receive slot it meets. -/
theorem tensorResults : Obligations.TensorResults := by
  intro f s s' c xs k slot ok coords start
  refine ⟨fun h hfree hreach => ?_, fun ⟨hvalid, hgood, hroom⟩ h => issueE_next h (copyIssue_starts 0 hvalid hgood hroom),
    fun ⟨hvalid, hgood, hroom⟩ h => issueE_next h (copyIssue_starts 1 hvalid hgood hroom), fun ⟨hvalid, hgood, hroom⟩ h => issueE_next h (copyIssue_starts 2 hvalid hgood hroom),
    fun hheld h => issueE_stall h (effTrec_held hheld), ?_, fun hwait h => issueE_stall h (effRecvarm_waits hwait),
    fun hrecv hroom h => issueE_next h (effRecvarm_arms hrecv hroom)⟩
  · obtain ⟨-, hentry, -, hall⟩ := context_fresh h.here
    exact issueE_next h (effTrec_loads hfree hentry hall hreach)
  · intro i hi h
    simp only [List.mem_cons, List.not_mem_nil, or_false] at hi
    rcases hi with rfl | rfl | rfl
    · exact tensorWord_refused (kind := 0) rfl h
    · exact tensorWord_refused (kind := 1) rfl h
    · exact tensorWord_refused (kind := 2) rfl h

end Sys2Proof.Machine
end

section
/-! The machine never stops (R83, R324, R336): a device event answers in every state, and a word where a step hands it on, at a clause of the core in turn or in the table of
the drill in turn. -/
namespace Sys2Proof.Machine

-- Outcomes that are a next state --------------------------------------------------------------------------------

/-- The outcome is a next state. -/
def Answers (o : Host.Outcome State Fault Refusal) : Prop := ∃ t, o = .next t

theorem answers_next (t : State) : Answers (.next t) := ⟨t, rfl⟩
theorem answers_ite {p : Prop} [Decidable p] {a b : Host.Outcome State Fault Refusal} (ha : Answers a) (hb : Answers b) : Answers (if p then a else b) := by
  split
  · exact ha
  · exact hb

-- Device events: every branch of each ends in a next state ------------------------------------------------------

theorem timedEvents_answer (s : State) :
    (∀ core cn, Answers (execYieldExpiry core cn s)) ∧ (∀ b r, Answers (execSleepExpiry b r s)) ∧ (∀ b req, Answers (execGrowStarved b req s)) ∧
    (∀ g i, Answers (execSidingDue g i s)) ∧ (∀ f n, Answers (execRetrainEnd f n s)) := by
  unfold execYieldExpiry execSleepExpiry execGrowStarved execSidingDue execRetrainEnd
  refine ⟨?_, ?_, ?_, ?_, ?_⟩
  all_goals intros
  all_goals repeat' first | extract_lets | split
  all_goals exact answers_next _

theorem returnEvents_answer (s : State) :
    (∀ idx, Answers (execLaunchRecordWrite idx s)) ∧ (∀ idx, Answers (execCounterDecrement idx s)) ∧ (∀ idx agent, Answers (execTlbinvAck idx agent s)) ∧
    (∀ g d, Answers (execShadowCompare g d s)) := by
  unfold execLaunchRecordWrite execCounterDecrement execTlbinvAck execShadowCompare
  refine ⟨?_, ?_, ?_, ?_⟩
  all_goals intros
  all_goals repeat' first | extract_lets | split
  all_goals exact answers_next _

theorem yardEvents_answer (s : State) : (∀ g, Answers (execClauseEnd g s)) ∧ (∀ g src, Answers (execConsistForm g src s)) := by
  unfold execClauseEnd execConsistForm
  refine ⟨?_, ?_⟩
  all_goals intros
  all_goals repeat' first | extract_lets | split
  all_goals exact answers_next _

theorem queueEvents_answer (s : State) :
    (∀ b, Answers (execResumption b s)) ∧ (∀ idx, Answers (execKillDrained idx s)) ∧ (∀ q, Answers (execSignalDone q s)) ∧ (∀ sb, Answers (execSignalBoxEvent sb s)) ∧
    (∀ q va dst, Answers (execRangeMigrateBack q va dst s)) := by
  unfold execResumption execKillDrained execSignalDone execSignalBoxEvent execRangeMigrateBack
  refine ⟨?_, ?_, ?_, ?_, ?_⟩
  all_goals intros
  all_goals repeat' first | extract_lets | split
  all_goals exact answers_next _

theorem engineEvents_answer (s : State) :
    (∀ b, Answers (execDrillStreamRead b s)) ∧ (∀ b n, Answers (execDrillCommandRetire b n s)) ∧ (∀ op n, Answers (execCopyComplete op n s)) ∧
    (∀ op k, Answers (execMulticastDelivery op k s)) ∧ (∀ f i, Answers (execWpartSwitchPoint f i s)) ∧ (∀ f op, Answers (execFurrowOperationComplete f op s)) := by
  unfold execDrillStreamRead execDrillCommandRetire execCopyComplete execMulticastDelivery execWpartSwitchPoint execFurrowOperationComplete
  refine ⟨?_, ?_, ?_, ?_, ?_, ?_⟩
  all_goals intros
  all_goals repeat' first | extract_lets | split
  all_goals exact answers_next _

theorem collectiveEvents_answer (s : State) :
    (∀ seq n, Answers (execChunkReduced seq n s)) ∧ (∀ seq n, Answers (execChunkDelivered seq n s)) ∧ (∀ seq, Answers (execReTree seq s)) ∧
    (∀ seq n node, Answers (execChunkPartialArrival seq n node s)) ∧ (∀ m, Answers (execQuifinMessage m s)) := by
  unfold execChunkReduced execChunkDelivered execReTree execChunkPartialArrival execQuifinMessage
  refine ⟨?_, ?_, ?_, ?_, ?_⟩
  all_goals intros
  all_goals repeat' first | extract_lets | split
  all_goals exact answers_next _

theorem memoryEvents_answer (s : State) :
    (∀ pa w bs, Answers (execHostAccess pa w bs s)) ∧ (∀ p d, Answers (execSoftError p d s)) ∧ (∀ w, Answers (execCacheEviction w s)) := by
  unfold execHostAccess execSoftError execCacheEviction
  refine ⟨?_, ?_, ?_⟩
  all_goals intros
  all_goals repeat' first | extract_lets | split
  all_goals exact answers_next _

theorem event_answers {i : Instr} (h : encode i = none) (s : State) : Answers (exec i s) := by
  obtain ⟨hyieldExpiry, hsleepExpiry, hgrowStarved, hsidingDue, hretrainEnd⟩ := timedEvents_answer s
  obtain ⟨hlaunchRecordWrite, hcounterDecrement, htlbinvAck, hshadowCompare⟩ := returnEvents_answer s
  obtain ⟨hclauseEnd, hconsistForm⟩ := yardEvents_answer s
  obtain ⟨hresumption, hkillDrained, hsignalDone, hsignalBoxEvent, hrangeMigrateBack⟩ := queueEvents_answer s
  obtain ⟨hdrillStreamRead, hdrillCommandRetire, hcopyComplete, hmulticastDelivery, hwpartSwitchPoint, hfurrowOperationComplete⟩ := engineEvents_answer s
  obtain ⟨hchunkReduced, hchunkDelivered, hreTree, hchunkPartialArrival, hquifinMessage⟩ := collectiveEvents_answer s
  obtain ⟨hhostAccess, hsoftError, hcacheEviction⟩ := memoryEvents_answer s
  cases i with
  | cmdNop | cmdLaunch | cmdSignal | cmdDepset | bind | stop | resume | kill | unbind | uselist | useclear | mbxindbGo | mbxoutctlWrite | mbxoutrdWrite | rcbsync | plinv
  | depctrWrite | ftwctlWrite | ftwRegisterWrite | linkDisable | linkEnable | linkinjArm | pcpwrActive | pcpwrSelfRefresh | pcpwrPowerDown | wmapcmd | bootresetClear
  | registerWrite | trinvVa | trinvRoot | trinvAll | wmapCommandComplete | moduleReset => exact answers_next _
  | queueVisit => exact ⟨_, exec_queueVisit s⟩
  | preemptOverrun | instructionResultReturn | accessComplete | spill | fqcmdReplay | fqcmdDeny | injectorFire | pcpwrHoldEnd | linkFailure | linkTrainingStart | trip
  | clockStretch | retrainStart | upperTierUngate | migration | rangeEviction => exact answers_ite (answers_next _) (answers_next _)
  | contextSave | blockRetire | linkTrainingEnd | upperTierGate => exact answers_ite (answers_next _) (answers_ite (answers_next _) (answers_next _))
  | doorbell | governorEvaluation | inFieldTest => exact answers_ite (answers_next _) (answers_ite (answers_next _) (answers_ite (answers_next _) (answers_next _)))
  | yieldExpiry => exact hyieldExpiry ..
  | sleepExpiry => exact hsleepExpiry ..
  | growStarved => exact hgrowStarved ..
  | sidingDue => exact hsidingDue ..
  | retrainEnd => exact hretrainEnd ..
  | launchRecordWrite => exact hlaunchRecordWrite ..
  | counterDecrement => exact hcounterDecrement ..
  | tlbinvAck => exact htlbinvAck ..
  | shadowCompare => exact hshadowCompare ..
  | clauseEnd => exact hclauseEnd ..
  | consistForm => exact hconsistForm ..
  | resumption => exact hresumption ..
  | killDrained => exact hkillDrained ..
  | signalDone => exact hsignalDone ..
  | signalBoxEvent => exact hsignalBoxEvent ..
  | rangeMigrateBack => exact hrangeMigrateBack ..
  | drillStreamRead => exact hdrillStreamRead ..
  | drillCommandRetire => exact hdrillCommandRetire ..
  | copyComplete => exact hcopyComplete ..
  | multicastDelivery => exact hmulticastDelivery ..
  | wpartSwitchPoint => exact hwpartSwitchPoint ..
  | furrowOperationComplete => exact hfurrowOperationComplete ..
  | chunkReduced => exact hchunkReduced ..
  | chunkDelivered => exact hchunkDelivered ..
  | reTree => exact hreTree ..
  | chunkPartialArrival => exact hchunkPartialArrival ..
  | quifinMessage => exact hquifinMessage ..
  | hostAccess => exact hhostAccess ..
  | softError => exact hsoftError ..
  | cacheEviction => exact hcacheEviction ..
  | _ => cases h

-- Words on the core in turn ---------------------------------------------------------------------------------------

section
variable {s : State} {g cn : Nat} (hturn : s.turn = .core g) (hpick : pick s g = some cn)
include hturn hpick

/-- With a consist for the core in turn, a word outside a clause goes to the beginning of one. -/
theorem noClause_answers (i : Instr) : Answers (noClause i s) := by
  unfold noClause
  rw [hturn]
  simp only [hpick]
  exact answers_next _
theorem issueA_answers (mk : FmtA → Instr) (f : FmtA) (eff : FmtA → Ctx → State → Fin) : Answers (issueA mk f eff s) := by
  unfold issueA
  split
  · exact noClause_answers hturn hpick _
  · split
    · exact answers_next _
    · split <;> exact answers_next _
theorem issueI_answers (mk : FmtI → Instr) (f : FmtI) (eff : FmtI → Ctx → State → Fin) : Answers (issueI mk f eff s) := by
  unfold issueI
  split
  · exact noClause_answers hturn hpick _
  · split
    · exact answers_next _
    · split <;> exact answers_next _
theorem issueM_answers (mk : FmtM → Instr) (f : FmtM) (eff : FmtM → Ctx → State → Fin) : Answers (issueM mk f eff s) := by
  unfold issueM
  split
  · exact noClause_answers hturn hpick _
  · split
    · exact answers_next _
    · split <;> exact answers_next _
theorem issueE_answers (mk : FmtE → Instr) (f : FmtE) (eff : FmtE → Ctx → State → Fin) : Answers (issueE mk f eff s) := by
  unfold issueE
  split
  · exact noClause_answers hturn hpick _
  · exact answers_next _
theorem clause_answers (f : FmtH) : Answers (exec (.clause f) s) := by
  show Answers (execClause f s)
  unfold execClause
  split
  · exact answers_next _
  · exact noClause_answers hturn hpick _
theorem repeatN_answers (f : FmtI) : Answers (exec (.repeatN f) s) := by
  show Answers (execRepeatN f s)
  unfold execRepeatN
  split
  · exact noClause_answers hturn hpick _
  · exact answers_next _
theorem undefinedOpcode_answers (w : IWord) : Answers (exec (.undefinedOpcode w) s) := by
  show Answers (execUndefinedOpcode w s)
  unfold execUndefinedOpcode
  split
  · exact answers_next _
  · exact noClause_answers hturn hpick _

/-- All but a drill command answers where the core in turn has a consist: by the format of the word. -/
theorem exec_answers_onCore {i : Instr} (h : isDrillCmd i = false) : Answers (exec i s) := by
  cases i with
  | nop | brx | callx | ret | exit | tret | marshal | marshalRank | yield | sleep | preemptOff | preemptOn | bar | bara | barw | grow | shrink | growa | shrinka | gets | sets
  | launch | depdec | add | sub | addc | subb | mul | mulhi | mad | madw | div | rem | min | max | abs | neg | and | or | xor | not | andn | shl | shr | sar | rot | bfe | bfi
  | popc | clz | ctz | brev | sel | cmp | mov | add64 | sub64 | mad64 | pand | por | pxor | pnot | pmov | fadd | fsub | fmul | fma | fmin | fmax | fcmp | fclass | frnd | frcp
  | frsq | fsqrt | fexp2 | flog2 | fsin | fcos | ftanh | fsig | fdot2 | fdot4 | cvt | cvts | pack2 | unpack | scalex | q4enc | q4dec | ballot | matchEq | vote | reduce | scan
  | shfl | slotof | rankof | yprobe | drill | mready | mwait | accrd | accwr | nanrd | collq | trsync | tlbinvVa | tlbinvRoot | tlbinvAll | ctxsave | ctxload | errinj =>
    exact issueA_answers hturn hpick _ _ _
  | br | call | trap | movi => exact issueI_answers hturn hpick _ _ _
  | waitaddr | wakeaddr | locq | lea | ld | ldx | st | atom | atomn | cas | fence | prefetch | clean | inval | ysend | yrecv => exact issueM_answers hturn hpick _ _ _
  | trec | tcopy | tstore | tcopymc | recvarm | tagwait | tagffs | tagclr | tagstat | wpart | fwload | fwstore | fwop | fwred | fwfill | coll =>
    exact issueE_answers hturn hpick _ _ _
  | clause f => exact clause_answers hturn hpick f
  | repeatN f => exact repeatN_answers hturn hpick f
  | undefinedOpcode w => exact undefinedOpcode_answers hturn hpick w
  | dnop | dend | dbarBar | dbarReady | dzero | dldacc | dstacc | dscale | dmma => cases h
  | _ => exact event_answers rfl s
end

/-- No slot of a clause holds a drill command. -/
theorem isDrillCmd_decodeWord (w : IWord) : isDrillCmd (decodeWord w) = false := by
  unfold decodeWord
  repeat' split
  all_goals rfl

/-- What a core does next is no drill command, and stands at a consist of it. -/
theorem nextOnCore_some {s : State} {g : Nat} {i : Instr} (h : nextOnCore s g = some i) : (∃ cn, pick s g = some cn) ∧ isDrillCmd i = false := by
  unfold nextOnCore at h
  split at h
  · cases h
  · rename_i cn hpick
    refine ⟨⟨cn, hpick⟩, ?_⟩
    split at h
    · cases h
    · split at h
      · split at h <;> cases h
        · rfl
        · exact isDrillCmd_decodeWord _
      · cases h
        exact isDrillCmd_decodeWord _

-- Commands on the drill in turn -------------------------------------------------------------------------------------

/-- What a drill does next is a drill command of its table. -/
theorem nextOnDrill_some {s : State} {b uid : Nat} {i : Instr} (h : nextOnDrill s b uid = some i) :
    isDrillCmd i = true ∧ ((getBlk s b).drill.table.find? (fun e => e.uid == uid && e.instr == i)).isSome = true := by
  unfold nextOnDrill at h
  split at h
  · rename_i e hfind
    split at h
    · cases h
    · rename_i hcmd
      cases h
      simp only [Bool.or_eq_true, Bool.not_eq_true', not_or, Bool.not_eq_false] at hcmd
      have huid := List.find?_some hfind
      exact ⟨hcmd.2, List.find?_isSome.2 ⟨e, List.mem_of_find?_eq_some hfind, by simpa using huid⟩⟩
  · cases h
theorem drillStep_answers {i : Instr} {s : State} {b uid : Nat} (hturn : s.turn = .drill b uid)
    (hfind : ((getBlk s b).drill.table.find? (fun e => e.uid == uid && e.instr == i)).isSome = true) (row : Nat → DEnt → State → RowOut) : Answers (drillStep i row s) := by
  obtain ⟨e, he⟩ := Option.isSome_iff_exists.1 hfind
  unfold drillStep
  rw [hturn]
  simp only [he]
  refine answers_ite (answers_next _) (answers_ite (answers_ite (answers_next _) (answers_next _)) (answers_ite (answers_next _) ?_))
  split <;> exact answers_next _
theorem exec_answers_onDrill {i : Instr} {s : State} {b uid : Nat} (hturn : s.turn = .drill b uid) (hcmd : isDrillCmd i = true)
    (hfind : ((getBlk s b).drill.table.find? (fun e => e.uid == uid && e.instr == i)).isSome = true) : Answers (exec i s) := by
  cases i with
  | dnop | dend | dbarBar | dbarReady => exact drillStep_answers hturn hfind fun _ _ s => .done 0 s
  | dzero c => exact drillStep_answers hturn hfind fun b e s => dzeroRow b e c s
  | dldacc c => exact drillStep_answers hturn hfind fun b e s => dldaccRow b e c s
  | dstacc c => exact drillStep_answers hturn hfind fun b e s => dstaccRow b e c s
  | dscale c => exact drillStep_answers hturn hfind fun b e s => dscaleRow b e c s
  | dmma c => exact drillStep_answers hturn hfind fun b e s => dmmaRow b e c s
  | _ => cases hcmd

-- A step ------------------------------------------------------------------------------------------------------------

theorem nextInstr_answers {s : State} {i : Instr} (h : nextInstr s = some i) : Answers (exec i s) := by
  unfold nextInstr at h
  split at h
  · rename_i g hturn
    obtain ⟨⟨cn, hpick⟩, hcmd⟩ := nextOnCore_some h
    exact exec_answers_onCore hturn hpick hcmd
  · rename_i b uid hturn
    obtain ⟨hcmd, hfind⟩ := nextOnDrill_some h
    exact exec_answers_onDrill hturn hcmd hfind
  · cases h
theorem ended_answers {o : Host.Outcome State Fault Refusal} (h : Answers o) : Answers (ended o) := by
  obtain ⟨t, rfl⟩ := h
  exact answers_next _
/-- What stands on the agenda as an event passes where it is a word, and answers where it is none. -/
theorem agendaEvent_answers (served : Bool) (i : Instr) (s : State) : Answers (if isWord i then .next (finish s) else runEvent served i s) := by
  split
  · exact answers_next _
  · rename_i hword
    obtain ⟨t, ht⟩ := event_answers (Option.not_isSome_iff_eq_none.1 hword) s
    rw [runEvent, ht]
    exact answers_next _
theorem step_answers (s : State) : Answers (step s) := by
  unfold step
  split
  · exact answers_next _
  · exact answers_next _
  · exact answers_next _
  · exact agendaEvent_answers false _ _
  · exact agendaEvent_answers true _ _
  · split
    · rename_i i hnext
      exact ended_answers (nextInstr_answers hnext)
    · exact answers_next _

/-- Settles O50: by the head of the agenda, the agent in turn and the event. -/
theorem everyStepAnswers : Obligations.EveryStepAnswers := ⟨step_answers, fun _ s h => event_answers h s⟩

end Sys2Proof.Machine
end

section
/-! What home writes, wakes and the yard leave alone (R30, R33, R42, R150, R209): where blocks and queues stand, what threads keep of their traps, the fault records and the
events of the signal box. -/
namespace Sys2Proof.Machine

-- The view ----------------------------------------------------------------------------------------------------------

/-- What the end of a clause and a handler go by: the trap state, the trap registers and the PC. -/
def trapRegs (t : Thread) : TrapState × DWord × Word × DWord × DWord := (t.trap, t.pc, t.cause, t.trappc, t.trapva)
/-- Where a block stands: its phase, its queue, whether it is held or halted, and the trap registers of its threads. -/
def standing (k : Block) : BlkPhase × Nat × Bool × Bool × (Nat → TrapState × DWord × Word × DWord × DWord) :=
  (k.phase, k.queue, k.held, k.halted, fun r => trapRegs (mget {} k.members r))

/-- Blocks and queues stand where they stood, and no fault record or event of the signal box comes or goes. -/
structure Quiet (s t : State) : Prop where
  events : t.events = s.events
  faults : ∀ f, (getFld t f).faults = (getFld s f).faults
  queues : ∀ q, (getQ t q).state = (getQ s q).state
  blocks : ∀ b, (mfind t.blocks b).map standing = (mfind s.blocks b).map standing

theorem Quiet.refl (s : State) : Quiet s s := ⟨rfl, fun _ => rfl, fun _ => rfl, fun _ => rfl⟩
theorem Quiet.trans {s t u : State} (h : Quiet s t) (h' : Quiet t u) : Quiet s u :=
  ⟨h'.events.trans h.events, fun f => (h'.faults f).trans (h.faults f), fun q => (h'.queues q).trans (h.queues q), fun b => (h'.blocks b).trans (h.blocks b)⟩
theorem Quiet.of_eq {s t : State} (hevents : t.events = s.events := by rfl) (hfields : t.fields = s.fields := by rfl) (hqueues : t.queues = s.queues := by rfl)
    (hblocks : t.blocks = s.blocks := by rfl) :
    Quiet s t :=
  ⟨hevents, fun f => by rw [getFld, hfields, getFld], fun q => by rw [getQ, hqueues, getQ], fun b => by rw [hblocks]⟩
/-- A change of what is not in view, after an operation. -/
theorem Quiet.before {s t u : State} (h : Quiet s t) (hevents : u.events = t.events := by rfl) (hfields : u.fields = t.fields := by rfl)
    (hqueues : u.queues = t.queues := by rfl) (hblocks : u.blocks = t.blocks := by rfl) : Quiet s u := h.trans (.of_eq hevents hfields hqueues hblocks)
theorem Quiet.foldl {α : Type} (f : State → α → State) (h : ∀ s a, Quiet s (f s a)) (l : List α) (s : State) : Quiet s (l.foldl f s) :=
  foldl_inv (Quiet s) f l s (.refl s) fun a _ ht => ht.trans (h _ a)

theorem Quiet.present {s t : State} (h : Quiet s t) (b : Nat) : (mfind t.blocks b).isSome = (mfind s.blocks b).isSome := by
  simpa using congrArg Option.isSome (h.blocks b)
theorem Quiet.standing_eq {s t : State} (h : Quiet s t) (b : Nat) : standing (getBlk t b) = standing (getBlk s b) := by
  have hb := h.blocks b
  simp only [getBlk, mget]
  cases hs : mfind s.blocks b <;> cases ht : mfind t.blocks b <;> simp_all
theorem Quiet.phase {s t : State} (h : Quiet s t) (b : Nat) : (getBlk t b).phase = (getBlk s b).phase := congrArg (·.1) (h.standing_eq b)
theorem Quiet.queue {s t : State} (h : Quiet s t) (b : Nat) : (getBlk t b).queue = (getBlk s b).queue := congrArg (·.2.1) (h.standing_eq b)
theorem Quiet.held {s t : State} (h : Quiet s t) (b : Nat) : (getBlk t b).held = (getBlk s b).held := congrArg (·.2.2.1) (h.standing_eq b)
theorem Quiet.halted {s t : State} (h : Quiet s t) (b : Nat) : (getBlk t b).halted = (getBlk s b).halted := congrArg (·.2.2.2.1) (h.standing_eq b)
theorem Quiet.threads {s t : State} (h : Quiet s t) (b r : Nat) : trapRegs (getTh t b r) = trapRegs (getTh s b r) := congrFun (congrArg (·.2.2.2.2) (h.standing_eq b)) r

-- The accessors -----------------------------------------------------------------------------------------------------

theorem quiet_modCore (g : Nat) (F : Core → Core) (s : State) : Quiet s (modCore g F s) := .of_eq rfl rfl rfl rfl
theorem quiet_modFld (f : Nat) (F : Field → Field) (s : State) (hF : ∀ k, (F k).faults = k.faults) : Quiet s (modFld f F s) := by
  refine ⟨rfl, fun f' => ?_, fun _ => rfl, fun _ => rfl⟩
  rw [getFld_modFld]
  split
  · rename_i h
    rw [hF, h]
  · rfl
theorem quiet_modQ (q : Nat) (F : Queue → Queue) (s : State) (hF : ∀ k, (F k).state = k.state) : Quiet s (modQ q F s) := by
  refine ⟨rfl, fun _ => rfl, fun q' => ?_, fun _ => rfl⟩
  rw [getQ_modQ]
  split
  · rename_i h
    rw [hF, h]
  · rfl
theorem quiet_modBlk (b : Nat) (F : Block → Block) (s : State) (hF : ∀ k, standing (F k) = standing k) : Quiet s (modBlk b F s) := by
  refine ⟨modBlk_events .., fun _ => by rw [getFld_modBlk], fun q => by rw [getQ, modBlk_queues, getQ], fun b' => ?_⟩
  rw [mfind_modBlk_blocks]
  split
  · rename_i h
    subst h
    cases mfind s.blocks b' <;> simp [hF]
  · rfl
theorem quiet_modTh (b r : Nat) (F : Thread → Thread) (s : State) (hF : ∀ t, trapRegs (F t) = trapRegs t) : Quiet s (modTh b r F s) := by
  refine quiet_modBlk b _ s fun k => ?_
  split
  · rename_i t ht
    simp only [standing, Prod.mk.injEq, true_and]
    funext r'
    rw [mget_mput]
    split
    · rename_i h
      rw [hF, h, mget, ht, Option.getD_some]
    · rfl
  · rfl

section
variable {s t : State} (h : Quiet s t)
include h
theorem Quiet.modCore {g : Nat} {F : Core → Core} : Quiet s (modCore g F t) := h.trans (quiet_modCore g F t)
theorem Quiet.modFld {f : Nat} {F : Field → Field} (hF : ∀ k, (F k).faults = k.faults := by intro _; rfl) : Quiet s (modFld f F t) := h.trans (quiet_modFld f F t hF)
theorem Quiet.modQ {q : Nat} {F : Queue → Queue} (hF : ∀ k, (F k).state = k.state := by intro _; rfl) : Quiet s (modQ q F t) := h.trans (quiet_modQ q F t hF)
theorem Quiet.modBlk {b : Nat} {F : Block → Block} (hF : ∀ k, standing (F k) = standing k := by intro _; rfl) : Quiet s (modBlk b F t) := h.trans (quiet_modBlk b F t hF)
theorem Quiet.modTh {b r : Nat} {F : Thread → Thread} (hF : ∀ t, trapRegs (F t) = trapRegs t := by intro _; rfl) : Quiet s (modTh b r F t) := h.trans (quiet_modTh b r F t hF)
end

-- Threads that wake (R30, R33) ----------------------------------------------------------------------------------------

theorem quiet_fileThread (g b r : Nat) (s : State) : Quiet s (fileThread g b r s) := by
  unfold fileThread
  simp only
  split
  · exact Quiet.modTh (.modCore (.refl s))
  · split <;> exact Quiet.modTh (.modCore (.refl s))
theorem quiet_makeReady (b r : Nat) (s : State) : Quiet s (makeReady b r s) := by
  unfold makeReady
  simp only
  split
  · exact quiet_fileThread ..
  · exact Quiet.modBlk (.modTh (.refl s))
theorem quiet_endWait (b r : Nat) (p : Wait → Bool) (s : State) : Quiet s (endWait b r p s) := by
  unfold endWait
  simp only
  split
  · refine Quiet.trans ?_ (quiet_makeReady ..)
    exact Quiet.modTh (.of_eq)
  · exact Quiet.modTh (.of_eq)
theorem quiet_wakeLines (f : Nat) (lns : List Nat) (s : State) : Quiet s (wakeLines f lns s) := by
  unfold wakeLines
  simp only
  split
  · exact .refl s
  · refine Quiet.trans ?_ (Quiet.foldl (fun s w => wakeOne w s) (fun _ _ => quiet_endWait ..) _ _)
    exact Quiet.modFld (.refl s)
theorem quiet_wakeLine (ln : Nat) (s : State) : Quiet s (wakeLine ln s) := by
  unfold wakeLine
  split
  · exact .refl s
  · exact quiet_wakeLines ..
theorem quiet_fileReady (g n : Nat) (s : State) : Quiet s (fileReady g n s) := by
  induction n generalizing s with
  | zero => exact .refl s
  | succ n ih =>
    unfold fileReady
    simp only
    split
    · exact .refl s
    · split
      · exact ((quiet_modCore ..).trans (quiet_fileThread ..)).trans (ih _)
      · exact .refl s
theorem quiet_evictYard (b : Nat) (s : State) : Quiet s (evictYard b s) := by
  unfold evictYard clearYard
  refine Quiet.modCore (Quiet.trans ?_ (quiet_fileReady ..))
  exact Quiet.modCore (.refl s)

-- Home writes (R138, R150) ----------------------------------------------------------------------------------------------

theorem quiet_perfAdd (f code : Nat) (core : Option Nat) (req : Option Bool) (n : Nat) (s : State) : Quiet s (perfAdd f code core req n s) := by
  rcases perfAdd_cases f code core req n s with h | ⟨p, h⟩ <;> rw [h]
  · exact .refl s
  · exact Quiet.modFld (.refl s)
theorem quiet_llcMiss (w : Option Bool) (n pa : Nat) (s : State) : Quiet s (llcMiss w n pa s) := by
  unfold llcMiss
  split
  · exact .refl s
  · split
    · exact .refl s
    · exact (Quiet.of_eq : Quiet s (freeW s).2).trans (quiet_perfAdd ..)
theorem quiet_correctHome (pa n : Nat) (s : State) : Quiet s (correctHome pa n s) := by
  unfold correctHome
  split
  · exact .refl s
  · simp only
    split
    · exact Quiet.modFld (.modFld (.of_eq))
    · exact .of_eq
theorem quiet_wakePch (pa : Nat) (s : State) : Quiet s (wakePch pa s) := by
  unfold wakePch
  split
  · simp only
    split <;> split
    · exact .of_eq
    · exact Quiet.modFld (.of_eq)
    · exact .refl s
    · exact Quiet.modFld (.refl s)
  · exact .refl s
/-- The data of a line that a window shows lie in one pseudo-channel, and its scales, where it has any, in another. -/
theorem quiet_wakePchs (data scales : Nat) (c : Bool) (s : State) : Quiet s (wakePch data (if c = true then s else wakePch scales s)) := by
  split
  · exact quiet_wakePch ..
  · exact (quiet_wakePch ..).trans (quiet_wakePch ..)
theorem quiet_aliasDrop (ln : Nat) (s : State) : Quiet s (aliasDrop ln s) := by
  unfold aliasDrop
  split
  · simp only
    split
    · exact .of_eq
    · refine Quiet.trans ?_ (quiet_wakeLines ..)
      refine Quiet.trans ?_ (quiet_wakePchs ..)
      split
      · exact .of_eq
      · exact Quiet.modFld (.of_eq)
  · exact .refl s
theorem quiet_aliasWay (f pa : Nat) (s : State) : Quiet s (aliasWay f pa s).2 := by
  unfold aliasWay
  simp only
  split
  · exact .refl s
  · exact (Quiet.of_eq : Quiet s (freeW s).2).trans (Quiet.foldl (fun s (e : Nat × Line) => aliasDrop e.1 s) (fun _ _ => quiet_aliasDrop ..) _ _)
theorem quiet_homeRead (ln : Nat) (s : State) : Quiet s (homeRead ln s).2 := by
  fun_cases homeRead ln s
  case case1 => exact .refl s
  case case2 f w o _ _ e n sb sn _ read t bad d p way u hway =>
    have hread : Quiet s t := ((quiet_correctHome ..).trans (quiet_correctHome ..)).trans (quiet_wakePchs ..)
    have hkept : Quiet t u := by
      have hway : (aliasWay f (ln * 128) t).2 = u := congrArg Prod.snd hway
      exact hway ▸ quiet_aliasWay f (ln * 128) t
    exact (hread.trans hkept).before
  case case3 => exact (quiet_wakePch ..).trans (quiet_correctHome ..)
theorem quiet_overtake (ln : Nat) (m : BitVec 128) (s : State) : Quiet s (overtake ln m s) := by
  unfold overtake
  split <;> exact .of_eq
theorem quiet_homeWrite (ln : Nat) (d : BitVec 1024) (m : BitVec 128) (s : State) : Quiet s (homeWrite ln d m s) := by
  unfold homeWrite
  split
  · exact .refl s
  · refine (quiet_overtake ln m s).trans ?_
    simp only
    split
    · refine (quiet_homeRead ln _).trans ?_
      split <;> exact .of_eq
    · refine Quiet.trans ?_ (quiet_wakeLine ..)
      refine Quiet.trans ?_ (quiet_wakePch ..)
      exact .of_eq
theorem quiet_homePuts (pa : Nat) (bs : List Byte) (s : State) : Quiet s (homePuts pa bs s) :=
  foldl_inv (fun acc : List Byte × State => Quiet s acc.2) _ _ _ (.refl s) fun _ _ h => h.trans ((quiet_llcMiss ..).trans (quiet_homeWrite ..))
theorem quiet_msixRaise (v : Nat) (s : State) : Quiet s (msixRaise v s) := .of_eq
theorem quiet_journal (q index event status : Nat) (tag data : DWord) (s : State) : Quiet s (journal q index event status tag data s) := by
  unfold journal
  simp only
  split
  · refine Quiet.trans ?_ (quiet_msixRaise ..)
    exact Quiet.modQ (quiet_homePuts ..)
  · exact Quiet.modQ (quiet_homePuts ..)

-- Charges (R206, R256) ------------------------------------------------------------------------------------------------------

theorem quiet_chargePath (region : Nat) (cores backing : Int) (s : State) : Quiet s (chargePath region cores backing s) := by
  refine Quiet.foldl _ (fun s a => ?_) _ s
  exact .of_eq
theorem quiet_departDeficit (k : Block) (s : State) : Quiet s (departDeficit k s) := by
  unfold departDeficit
  exact Quiet.modQ (.modBlk (.refl s))

end Sys2Proof.Machine
end

section
/-! Kills (R42, R89, R208): the blocks they end, and what they leave of traps, records and events. -/
namespace Sys2Proof.Machine

-- What every policy keeps -----------------------------------------------------------------------------------------------

/-- No block or event goes, threads keep their trap registers, and the fault records of all but furrow operations stay. -/
structure ReportKept (s t : State) : Prop where
  events : ∀ e ∈ s.events, e ∈ t.events
  records : ∀ f, ∀ x ∈ (getFld s f).faults, (∀ g i op, x.src ≠ .furrow g i op) → x ∈ (getFld t f).faults
  present : ∀ b, (mfind t.blocks b).isSome = (mfind s.blocks b).isSome
  threads : ∀ b r, trapRegs (getTh t b r) = trapRegs (getTh s b r)

theorem ReportKept.refl (s : State) : ReportKept s s := ⟨fun _ h => h, fun _ _ h _ => h, fun _ => rfl, fun _ _ => rfl⟩
theorem ReportKept.trans {s t u : State} (h : ReportKept s t) (h' : ReportKept t u) : ReportKept s u :=
  ⟨fun e he => h'.events e (h.events e he), fun f x hx hsrc => h'.records f x (h.records f x hx hsrc) hsrc, fun b => (h'.present b).trans (h.present b),
    fun b r => (h'.threads b r).trans (h.threads b r)⟩
theorem ReportKept.foldl {α : Type} (f : State → α → State) (h : ∀ s a, ReportKept s (f s a)) (l : List α) (s : State) : ReportKept s (l.foldl f s) :=
  foldl_inv (ReportKept s) f l s (.refl s) fun a _ ht => ht.trans (h _ a)
theorem Quiet.reportKept {s t : State} (h : Quiet s t) : ReportKept s t :=
  ⟨fun _ he => h.events ▸ he, fun f _ hx _ => h.faults f ▸ hx, h.present, h.threads⟩

theorem reportKept_modQ (q : Nat) (F : Queue → Queue) (s : State) : ReportKept s (modQ q F s) := ⟨fun _ h => h, fun _ _ h _ => h, fun _ => rfl, fun _ _ => rfl⟩
theorem reportKept_sbEvent (key : Nat × Nat) (what : SbWhat) (s : State) : ReportKept s (sbEvent key what s) :=
  ⟨fun _ h => List.mem_append_left _ h, fun _ _ h _ => h, fun _ => rfl, fun _ _ => rfl⟩
theorem present_modBlk (b b' : Nat) (F : Block → Block) (s : State) : (mfind (modBlk b F s).blocks b').isSome = (mfind s.blocks b').isSome := by
  rw [mfind_modBlk_blocks]
  split
  · rename_i h
    rw [h, Option.isSome_map]
  · rfl
theorem reportKept_modBlk (b : Nat) (F : Block → Block) (s : State) (hF : ∀ k, (F k).members = k.members) : ReportKept s (modBlk b F s) :=
  ⟨fun _ h => (modBlk_events ..).symm ▸ h, fun f _ h _ => (getFld_modBlk b f F s).symm ▸ h, fun b' => present_modBlk b b' F s,
    fun b' r => by rw [getTh_modBlk_of_members b F s hF]⟩

-- What every kill keeps --------------------------------------------------------------------------------------------------

/-- A kill: a block stays of its queue, and in its phase or is killed. -/
structure Ends (s t : State) : Prop extends ReportKept s t where
  queue : ∀ b, (getBlk t b).queue = (getBlk s b).queue
  phase : ∀ b, (getBlk t b).phase = (getBlk s b).phase ∨ (getBlk t b).phase = .killed

theorem Ends.refl (s : State) : Ends s s := ⟨.refl s, fun _ => rfl, fun _ => .inl rfl⟩
theorem Ends.killed {s t : State} (h : Ends s t) {b : Nat} (hb : (getBlk s b).phase = .killed) : (getBlk t b).phase = .killed :=
  (h.phase b).elim (fun hsame => hsame.trans hb) id
theorem Ends.trans {s t u : State} (h : Ends s t) (h' : Ends t u) : Ends s u := by
  refine ⟨h.toReportKept.trans h'.toReportKept, fun b => (h'.queue b).trans (h.queue b), fun b => ?_⟩
  rcases h.phase b with hsame | hkilled
  · rw [← hsame]
    exact h'.phase b
  · exact .inr (h'.killed hkilled)
theorem Ends.foldl {α : Type} (f : State → α → State) (h : ∀ s a, Ends s (f s a)) (l : List α) (s : State) : Ends s (l.foldl f s) :=
  foldl_inv (Ends s) f l s (.refl s) fun a _ ht => ht.trans (h _ a)
theorem Quiet.ends {s t : State} (h : Quiet s t) : Ends s t := ⟨h.reportKept, h.queue, fun b => .inl (h.phase b)⟩

-- One block (R42) --------------------------------------------------------------------------------------------------------

/-- A block whose kill begins leaves its core, where it is on one. -/
def leavesCore (b : Nat) (s : State) : State :=
  evictYard b (if resident (getBlk s b) then chargePath (getBlk s b).region (-1) 0 (departDeficit (getBlk s b) s) else s)
/-- A block as its kill leaves it. -/
def asKilled (k : Block) : Block :=
  { k with phase := .killed, holders := [], occupies := resident k, savedConsists := [], savedSidings := [], savedReady := [], savedSend := [], savedRecv := []
           savePchs := if resident k then k.savePchs else [] }
/-- A field without the watches and furrow operations of a block. -/
def forgetsIn (b : Nat) (k : Field) : Field :=
  { k with
    watches := k.watches.filter (fun w => w.blk != b), faults := fwForget (fwGone b k) k.faults, slices := k.slices.map (fun x => (x.1, { x.2 with queue := fwDiscard b x.2.queue })) }
/-- The launch of a killed block is marked, and its watches and furrow operations go. -/
def forgets (b : Nat) (k : Block) (s : State) : State :=
  { s with
    launches := s.launches.map (fun e => if e.1 == k.launch then (e.1, { e.2 with killed := true }) else e)
    hostWatches := s.hostWatches.filter (fun w => w.blk != b)
    fields := s.fields.map (fun e => (e.1, forgetsIn b e.2)) }
/-- The kill of one block begins. -/
def killOne (s : State) (b : Nat) : State := forgets b (getBlk s b) (modBlk b asKilled (leavesCore b s))
/-- The blocks whose kill begins: those that have not ended. -/
def toKill (bs : List Nat) (s : State) : List Nat :=
  bs.filter (fun b => (getBlk s b).phase == .resident || (getBlk s b).phase == .stopping || (getBlk s b).phase == .saved)

/-- A kill that drains from now on. -/
def drains (bs : List Nat) (queue : Option Nat) (s : State) : State :=
  { s with kills := s.kills ++ [{ id := s.nextId, blocks := bs, queue := queue }], nextId := s.nextId + 1 }

theorem killBlocks_eq (bs : List Nat) (queue : Option Nat) (s : State) : killBlocks bs queue s = drains (toKill bs s) queue ((toKill bs s).foldl killOne s) := rfl
theorem quiet_drains (bs : List Nat) (queue : Option Nat) (s : State) : Quiet s (drains bs queue s) := .of_eq

theorem quiet_leavesCore (b : Nat) (s : State) : Quiet s (leavesCore b s) := by
  unfold leavesCore
  refine Quiet.trans ?_ (quiet_evictYard ..)
  split
  · exact (quiet_departDeficit ..).trans (quiet_chargePath ..)
  · exact .refl s
theorem ends_asKilled (b : Nat) (s : State) : Ends s (modBlk b asKilled s) := by
  refine ⟨reportKept_modBlk _ _ _ fun _ => rfl, fun b' => ?_, fun b' => ?_⟩
  · rcases getBlk_modBlk_cases b b' asKilled s with h | ⟨-, h⟩ <;> rw [h]
    rfl
  · rcases getBlk_modBlk_cases b b' asKilled s with h | ⟨-, h⟩ <;> rw [h]
    · exact .inl rfl
    · exact .inr rfl

theorem mem_fwForget {gone : List Nat} {rs : List FRec} {x : FRec} (hx : x ∈ rs) (hsrc : ∀ g i op, x.src ≠ .furrow g i op) : x ∈ fwForget gone rs := by
  unfold fwForget modWhere
  refine List.mem_filter.2 ⟨List.mem_map.2 ⟨x, hx, ?_⟩, ?_⟩
  · cases hs : x.src with
    | furrow g i op => exact absurd hs (hsrc g i op)
    | _ => simp [hs]
  · cases hs : x.src with
    | furrow g i op => exact absurd hs (hsrc g i op)
    | _ => simp
theorem ends_forgets (b : Nat) (k : Block) (s : State) : Ends s (forgets b k s) := by
  refine ⟨⟨fun _ h => h, fun f x hx hsrc => ?_, fun _ => rfl, fun _ _ => rfl⟩, fun _ => rfl, fun _ => .inl rfl⟩
  simp only [forgets, getFld, mget, mfind_map] at hx ⊢
  cases hf : mfind s.fields f with
  | none =>
    rw [hf] at hx
    cases hx
  | some k =>
    rw [hf] at hx
    exact mem_fwForget hx hsrc
theorem ends_killOne (s : State) (b : Nat) : Ends s (killOne s b) := ((quiet_leavesCore b s).ends.trans (ends_asKilled ..)).trans (ends_forgets ..)
theorem killOne_killed {s : State} {b : Nat} (hb : (mfind s.blocks b).isSome = true) : (getBlk (killOne s b) b).phase = .killed := by
  show (getBlk (modBlk b asKilled (leavesCore b s)) b).phase = .killed
  rw [getBlk_modBlk_same _ _ _ (((quiet_leavesCore b s).present b).trans hb)]
  rfl
theorem killOne_queues (s : State) (b q : Nat) : (getQ (killOne s b) q).state = (getQ s q).state := by
  rw [← (quiet_leavesCore b s).queues q]
  show (mget {} (modBlk b _ (leavesCore b s)).queues q : Queue).state = _
  rw [modBlk_queues]
  rfl

-- Blocks and queues (R42, R208) -------------------------------------------------------------------------------------------

/-- A block that a kill may take: it is resident, stopping or saved. -/
def Unended (s : State) (b : Nat) : Prop := (getBlk s b).phase = .resident ∨ (getBlk s b).phase = .stopping ∨ (getBlk s b).phase = .saved

theorem mem_toKill {bs : List Nat} {s : State} {b : Nat} (hb : b ∈ bs) (h : Unended s b) : b ∈ toKill bs s := by
  refine List.mem_filter.2 ⟨hb, ?_⟩
  rcases h with h | h | h <;> simp [h]
theorem ends_foldl_killOne (bs : List Nat) (s : State) : Ends s (bs.foldl killOne s) := Ends.foldl _ ends_killOne _ _
theorem foldl_killOne_killed {bs : List Nat} {s : State} {b : Nat} (hmem : b ∈ bs) (hb : (mfind s.blocks b).isSome = true) : (getBlk (bs.foldl killOne s) b).phase = .killed := by
  induction bs generalizing s with
  | nil => cases hmem
  | cons b' rest ih =>
    rw [List.foldl_cons]
    rcases List.mem_cons.1 hmem with rfl | hrest
    · exact (ends_foldl_killOne rest _).killed (killOne_killed hb)
    · exact ih hrest (((ends_killOne s b').present b).trans hb)

theorem ends_killBlocks (bs : List Nat) (queue : Option Nat) (s : State) : Ends s (killBlocks bs queue s) := by
  rw [killBlocks_eq]
  exact (ends_foldl_killOne _ s).trans (quiet_drains ..).ends
theorem killBlocks_killed {bs : List Nat} {queue : Option Nat} {s : State} {b : Nat} (hmem : b ∈ bs) (hb : (mfind s.blocks b).isSome = true) (h : Unended s b) :
    (getBlk (killBlocks bs queue s) b).phase = .killed := foldl_killOne_killed (mem_toKill hmem h) hb
theorem killBlocks_queues (bs : List Nat) (queue : Option Nat) (s : State) (q : Nat) : (getQ (killBlocks bs queue s) q).state = (getQ s q).state :=
  foldl_inv (fun t : State => (getQ t q).state = (getQ s q).state) killOne (toKill bs s) s rfl fun b t ht => (killOne_queues t b q).trans ht

/-- The launches of a killed queue that have not ended are marked. -/
def endLaunches (q : Nat) (s : State) : State :=
  { s with launches := s.launches.map (fun e => if e.2.queue == q && !e.2.ended then (e.1, { e.2 with stop := true, killed := true }) else e) }
/-- A queue whose kill has been noted, before its blocks are killed. -/
def killNoted (q : Nat) (s : State) : State := endLaunches q (journal q 0 6 0 0 0 (modQ q (fun k => { k with state := .killing }) s))

theorem killQueue_draining {q : Nat} {s : State} (h : (getQ s q).state = .killing) : killQueue q s = journal q 0 6 0 0 0 s := if_pos (beq_iff_eq.2 h)
theorem killQueue_begins {q : Nat} {s : State} (h : (getQ s q).state ≠ .killing) :
    killQueue q s = killBlocks (blocksOfQueue (killNoted q s) q) (some q) (killNoted q s) := if_neg (mt beq_iff_eq.1 h)
theorem quiet_endLaunches (q : Nat) (s : State) : Quiet s (endLaunches q s) := .of_eq
theorem quiet_killNoted (q : Nat) (s : State) : Quiet (modQ q (fun k => { k with state := .killing }) s) (killNoted q s) :=
  (quiet_journal ..).trans (quiet_endLaunches ..)
theorem ends_killNoted (q : Nat) (s : State) : Ends s (killNoted q s) :=
  Ends.trans ⟨reportKept_modQ .., fun _ => rfl, fun _ => .inl rfl⟩ (quiet_killNoted q s).ends

theorem ends_killQueue (q : Nat) (s : State) : Ends s (killQueue q s) := by
  by_cases h : (getQ s q).state = .killing
  · rw [killQueue_draining h]
    exact (quiet_journal ..).ends
  · rw [killQueue_begins h]
    exact (ends_killNoted q s).trans (ends_killBlocks ..)
theorem killQueue_state (q x : Nat) (s : State) : (getQ (killQueue q s) x).state = if x = q then .killing else (getQ s x).state := by
  by_cases h : (getQ s q).state = .killing
  · rw [killQueue_draining h, (quiet_journal ..).queues]
    split
    · rename_i hx
      rw [hx, h]
    · rfl
  · rw [killQueue_begins h, killBlocks_queues, (quiet_killNoted q s).queues, getQ_modQ]
    split <;> rfl
theorem mem_blocksOfQueue {s : State} {b : Nat} (hb : (mfind s.blocks b).isSome = true) : b ∈ blocksOfQueue s (getBlk s b).queue := by
  obtain ⟨k, hk⟩ := Option.isSome_iff_exists.1 hb
  have hblk : getBlk s b = k := by rw [getBlk, mget, hk, Option.getD_some]
  exact List.mem_map.2 ⟨(b, k), List.mem_filter.2 ⟨mem_of_mfind _ _ _ hk, by simp [hblk]⟩, rfl⟩
/-- The kill of a queue that was not being killed kills every block of it that has not ended. -/
theorem killQueue_killed {s : State} {b : Nat} (hq : (getQ s (getBlk s b).queue).state ≠ .killing) (hb : (mfind s.blocks b).isSome = true) (h : Unended s b) :
    (getBlk (killQueue (getBlk s b).queue s) b).phase = .killed := by
  have hnoted := quiet_killNoted (getBlk s b).queue s
  have hpresent : (mfind (killNoted (getBlk s b).queue s).blocks b).isSome = true := (hnoted.present b).trans hb
  have hqueue : (getBlk (killNoted (getBlk s b).queue s) b).queue = (getBlk s b).queue := hnoted.queue b
  rw [killQueue_begins hq]
  refine killBlocks_killed ?_ hpresent ?_
  · have hmem := mem_blocksOfQueue hpresent
    rwa [hqueue] at hmem
  · rw [Unended, hnoted.phase b]
    exact h

/-- The kill of several queues: each is being killed, and the blocks of those that were not are killed. -/
theorem killQueues (qs : List Nat) (s : State) :
    let u := qs.foldl (fun s q => killQueue q s) s
    Ends s u ∧ (∀ q, q ∈ qs ∨ (getQ s q).state = .killing → (getQ u q).state = .killing) ∧
      ∀ b, (getBlk s b).queue ∈ qs → (getQ s (getBlk s b).queue).state ≠ .killing → (mfind s.blocks b).isSome = true → Unended s b → (getBlk u b).phase = .killed := by
  induction qs generalizing s with
  | nil => exact ⟨.refl s, fun q hq => hq.resolve_left List.not_mem_nil, fun b hb => absurd hb List.not_mem_nil⟩
  | cons q rest ih =>
    obtain ⟨hends, hstate, hkilled⟩ := ih (killQueue q s)
    have hfirst := ends_killQueue q s
    refine ⟨hfirst.trans hends, fun x hx => hstate x ?_, fun b hqueue hnot hb h => ?_⟩
    · rw [killQueue_state]
      by_cases hxq : x = q
      · exact .inr (if_pos hxq)
      · rw [if_neg hxq]
        exact hx.imp_left fun hmem => (List.mem_cons.1 hmem).resolve_left hxq
    · by_cases hq : (getBlk s b).queue = q
      · subst hq
        exact hends.killed (killQueue_killed hnot hb h)
      · rcases hfirst.phase b with hsame | hgone
        · refine hkilled b ?_ ?_ ((hfirst.present b).trans hb) ?_
          · rw [hfirst.queue b]
            exact (List.mem_cons.1 hqueue).resolve_left hq
          · rw [hfirst.queue b, killQueue_state, if_neg hq]
            exact hnot
          · rw [Unended, hsame]
            exact h
        · exact hends.killed hgone

end Sys2Proof.Machine
end

section
/-! Double faults (R87, R89): the record, the policy of the region, and what the thread keeps of its traps. -/
namespace Sys2Proof.Machine

-- Stops (R35, R208) ---------------------------------------------------------------------------------------------------------

theorem reportKept_preemptUnit (b : Nat) (s : State) : ReportKept s (preemptUnit b s) :=
  ReportKept.foldl (fun s x => stopBlock x s) (fun _ _ => reportKept_modBlk _ _ _ fun k => by split <;> rfl) _ s
theorem preemptUnit_fields (b : Nat) (s : State) : (preemptUnit b s).fields = s.fields :=
  foldl_inv (fun t : State => t.fields = s.fields) (fun s x => stopBlock x s) (unitOf s b) s rfl fun _ _ ht => (modBlk_fields ..).trans ht
theorem stopQueue_cases (q : Nat) (s : State) :
    stopQueue q s = s ∨ Quiet (modQ q (fun k => { k with state := .stopped }) s) (stopQueue q s) := by
  unfold stopQueue
  split
  · exact .inr (quiet_journal ..)
  · exact .inl rfl
theorem reportKept_stopQueue (q : Nat) (s : State) : ReportKept s (stopQueue q s) := by
  rcases stopQueue_cases q s with h | h
  · exact h.symm ▸ .refl s
  · exact (reportKept_modQ ..).trans h.reportKept
theorem stopQueue_faults (q f : Nat) (s : State) : (getFld (stopQueue q s) f).faults = (getFld s f).faults := by
  rcases stopQueue_cases q s with h | h
  · rw [h]
  · exact h.faults f
theorem stopQueue_standing (q b : Nat) (s : State) : standing (getBlk (stopQueue q s) b) = standing (getBlk s b) := by
  rcases stopQueue_cases q s with h | h
  · rw [h]
  · exact h.standing_eq b

-- The policy of a region (R89) ------------------------------------------------------------------------------------------------

/-- A block that is halted and held, in a unit that stops. -/
def haltUnit (b : Nat) (s : State) : State := modBlk b (fun k => { k with held := true, halted := true }) (preemptUnit b s)
/-- The queues bound to a region or to one below it. -/
def queuesBelow (region : Nat) (s : State) : List Nat := (s.queues.filter (fun e => e.2.state != .unbound && below s region (qRegion e.2))).map (·.1)

section
variable {s : State} {b : Nat}
theorem faultPolicy_kill (h : regFaultPol s (getBlk s b).region = 0) : faultPolicy b s = killBlocks [b] none (journal (getBlk s b).queue 0 6 0 0 0 s) := by
  rw [faultPolicy, h]
  rfl
theorem faultPolicy_halt (h : regFaultPol s (getBlk s b).region = 2) : faultPolicy b s =
    sbEvent (2, (getBlk s b).region) (.region (getBlk s b).region 1 (getBlk s b).handle) (stopQueue (getBlk s b).queue (haltUnit b s)) := by
  rw [faultPolicy, h]
  rfl
theorem faultPolicy_region (hkill : regFaultPol s (getBlk s b).region ≠ 0) (hhalt : regFaultPol s (getBlk s b).region ≠ 2) : faultPolicy b s =
    (queuesBelow (getBlk s b).region s).foldl (fun s q => killQueue q s) (sbEvent (2, (getBlk s b).region) (.region (getBlk s b).region 2 (getBlk s b).handle) s) := by
  dsimp only [faultPolicy]
  split
  · contradiction
  · contradiction
  · rfl

/-- Whatever the policy, the threads keep their trap registers and the records stay. -/
theorem reportKept_faultPolicy (b : Nat) (s : State) : ReportKept s (faultPolicy b s) := by
  by_cases hkill : regFaultPol s (getBlk s b).region = 0
  · rw [faultPolicy_kill hkill]
    exact ((quiet_journal ..).ends.trans (ends_killBlocks ..)).toReportKept
  · by_cases hhalt : regFaultPol s (getBlk s b).region = 2
    · rw [faultPolicy_halt hhalt]
      have hunit : ReportKept s (haltUnit b s) := (reportKept_preemptUnit b s).trans (reportKept_modBlk _ _ _ fun _ => rfl)
      exact (hunit.trans (reportKept_stopQueue ..)).trans (reportKept_sbEvent ..)
    · rw [faultPolicy_region hkill hhalt]
      exact (reportKept_sbEvent ..).trans (killQueues _ _).1.toReportKept

theorem faultPolicy_killed (h : regFaultPol s (getBlk s b).region = 0) (hb : (mfind s.blocks b).isSome = true) (hphase : (getBlk s b).phase = .resident) :
    (getBlk (faultPolicy b s) b).phase = .killed := by
  have hjournal := quiet_journal (getBlk s b).queue 0 6 0 0 0 s
  rw [faultPolicy_kill h]
  exact killBlocks_killed List.mem_cons_self ((hjournal.present b).trans hb) (.inl ((hjournal.phase b).trans hphase))
theorem faultPolicy_halted (h : regFaultPol s (getBlk s b).region = 2) (hb : (mfind s.blocks b).isSome = true) :
    (getBlk (faultPolicy b s) b).held = true ∧ (getBlk (faultPolicy b s) b).halted = true := by
  have hblk : getBlk (haltUnit b s) b = { getBlk (preemptUnit b s) b with held := true, halted := true } :=
    getBlk_modBlk_same _ _ _ (((reportKept_preemptUnit b s).present b).trans hb)
  have hstanding : standing (getBlk (faultPolicy b s) b) = standing (getBlk (haltUnit b s) b) := by
    rw [faultPolicy_halt h]
    exact stopQueue_standing ..
  rw [hblk] at hstanding
  exact ⟨congrArg (·.2.2.1) hstanding, congrArg (·.2.2.2.1) hstanding⟩
theorem faultPolicy_halt_faults (h : regFaultPol s (getBlk s b).region = 2) (f : Nat) : (getFld (faultPolicy b s) f).faults = (getFld s f).faults := by
  rw [faultPolicy_halt h]
  refine (stopQueue_faults _ f _).trans ?_
  rw [haltUnit, getFld_modBlk, getFld, preemptUnit_fields, getFld]

theorem mem_queuesBelow {region q : Nat} (hq : mfind s.queues q ≠ none) (hbound : (getQ s q).state ≠ .unbound) (hbelow : below s region (qRegion (getQ s q)) = true) :
    q ∈ queuesBelow region s := by
  obtain ⟨k, hk⟩ := Option.ne_none_iff_exists'.1 hq
  have hget : getQ s q = k := by rw [getQ, mget, hk, Option.getD_some]
  rw [hget] at hbound hbelow
  exact List.mem_map.2 ⟨(q, k), List.mem_filter.2 ⟨mem_of_mfind _ _ _ hk, by simp [hbound, hbelow]⟩, rfl⟩
end

/-- The kill of a region: the signal box hears of it, every queue of the region or one below it is being killed, and the blocks of those that were not are killed. -/
def RegionKilled (s : State) (region : Nat) (handle : DWord) (u : State) : Prop :=
  (∃ e ∈ u.events, e.what = .region region 2 handle) ∧
    ∀ q, mfind s.queues q ≠ none → (getQ s q).state ≠ .unbound → below s region (qRegion (getQ s q)) = true → (getQ u q).state = .killing ∧
      ((getQ s q).state ≠ .killing → ∀ b, mfind s.blocks b ≠ none → (getBlk s b).queue = q → Unended s b → (getBlk u b).phase = .killed)

theorem regionKilled_faultPolicy {s : State} {b : Nat} (h : regFaultPol s (getBlk s b).region = 1) :
    RegionKilled s (getBlk s b).region (getBlk s b).handle (faultPolicy b s) := by
  rw [faultPolicy_region (h ▸ by decide) (h ▸ by decide)]
  obtain ⟨hends, hstate, hkilled⟩ := killQueues (queuesBelow (getBlk s b).region s)
    (sbEvent (2, (getBlk s b).region) (.region (getBlk s b).region 2 (getBlk s b).handle) s)
  refine ⟨⟨_, hends.events _ (List.mem_append_right _ (List.mem_singleton_self _)), rfl⟩, fun q hq hbound hbelow => ?_⟩
  have hmem := mem_queuesBelow hq hbound hbelow
  refine ⟨hstate q (.inl hmem), fun hnot b' hb' hqueue hunended => ?_⟩
  subst hqueue
  exact hkilled b' hmem hnot (Option.isSome_iff_ne_none.2 hb') hunended

-- States that differ in threads, records and events -----------------------------------------------------------------------------

/-- Queues and regions are the same, and blocks but for their threads. -/
structure BesideThreads (s t : State) : Prop where
  queues : t.queues = s.queues
  rcbs : t.rcbs = s.rcbs
  present : ∀ b, (mfind t.blocks b).isSome = (mfind s.blocks b).isSome
  blocks : ∀ b, ∃ m, getBlk t b = { getBlk s b with members := m }

theorem BesideThreads.refl (s : State) : BesideThreads s s := ⟨rfl, rfl, fun _ => rfl, fun _ => ⟨_, rfl⟩⟩
theorem BesideThreads.trans {s t u : State} (h : BesideThreads s t) (h' : BesideThreads t u) : BesideThreads s u := by
  refine ⟨h'.queues.trans h.queues, h'.rcbs.trans h.rcbs, fun b => (h'.present b).trans (h.present b), fun b => ?_⟩
  obtain ⟨m, hm⟩ := h.blocks b
  obtain ⟨m', hm'⟩ := h'.blocks b
  exact ⟨m', by rw [hm', hm]⟩
theorem besideThreads_modTh (b r : Nat) (F : Thread → Thread) (s : State) : BesideThreads s (modTh b r F s) :=
  ⟨modBlk_queues .., modBlk_rcbs .., fun b' => present_modBlk b b' _ s, fun b' => getBlk_modTh b r b' F s⟩
theorem besideThreads_sendFault (f : Nat) (x : FRec) (s : State) : BesideThreads s (sendFault f x s).2 := ⟨rfl, rfl, fun _ => rfl, fun _ => ⟨_, rfl⟩⟩

theorem regPath_congr (s t : State) (h : t.rcbs = s.rcbs) (fuel a : Nat) : regPath t fuel a = regPath s fuel a := by
  induction fuel generalizing a with
  | zero => rfl
  | succ n ih => simp only [regPath, rcbOf, h, ih]; rfl

section
variable {s t : State} (h : BesideThreads s t)
include h
theorem BesideThreads.region (b : Nat) : (getBlk t b).region = (getBlk s b).region := by obtain ⟨m, hm⟩ := h.blocks b; rw [hm]
theorem BesideThreads.handle (b : Nat) : (getBlk t b).handle = (getBlk s b).handle := by obtain ⟨m, hm⟩ := h.blocks b; rw [hm]
theorem BesideThreads.queue (b : Nat) : (getBlk t b).queue = (getBlk s b).queue := by obtain ⟨m, hm⟩ := h.blocks b; rw [hm]
theorem BesideThreads.phase (b : Nat) : (getBlk t b).phase = (getBlk s b).phase := by obtain ⟨m, hm⟩ := h.blocks b; rw [hm]
theorem BesideThreads.core (b : Nat) : (getBlk t b).core = (getBlk s b).core := by obtain ⟨m, hm⟩ := h.blocks b; rw [hm]
theorem BesideThreads.getQ (q : Nat) : getQ t q = getQ s q := by rw [Machine.getQ, h.queues, Machine.getQ]
theorem BesideThreads.below (anc a : Nat) : below t anc a = below s anc a := by rw [Machine.below, pathOf, regPath_congr s t h.rcbs, Machine.below, pathOf]
theorem BesideThreads.regFaultPol (b : Nat) : regFaultPol t (getBlk t b).region = regFaultPol s (getBlk s b).region := by
  rw [h.region]
  exact effField_congr s t h.rcbs ..
/-- The kill of a region goes by queues, regions and blocks alone. -/
theorem BesideThreads.regionKilled {region : Nat} {handle : DWord} {u : State} (hkilled : RegionKilled t region handle u) : RegionKilled s region handle u := by
  obtain ⟨hevent, hqueues⟩ := hkilled
  refine ⟨hevent, fun q => ?_⟩
  have hq := hqueues q
  rw [h.queues, h.getQ, h.below] at hq
  intro hfound hbound hbelow
  obtain ⟨hstate, hblocks⟩ := hq hfound hbound hbelow
  refine ⟨hstate, fun hnot b hb hqueue hunended => hblocks hnot b ?_ ((h.queue b).trans hqueue) ?_⟩
  · rw [← Option.isSome_iff_ne_none, h.present b]
    exact Option.isSome_iff_ne_none.2 hb
  · rw [Unended, h.phase b]
    exact hunended
end

-- The double fault (R89) ----------------------------------------------------------------------------------------------------------

/-- The record of a double fault as it joins the queue of its field. -/
def doubleReport (b cn : Nat) (i : TrapInfo) (s : State) : FRec := { doubleRec s b i cn with seq := (getFld s (fieldOf (getBlk s b).core)).faultSeq + 1 }
/-- A double fault that is on record, before the policy. -/
def reported (b r cn : Nat) (i : TrapInfo) (s : State) : State :=
  modTh b r (fun t => { t with raised := none }) (sendFault (fieldOf (getBlk s b).core) (doubleRec s b i cn) s).2

section
variable (b r cn : Nat) (i : TrapInfo) (s : State)
theorem doubleFault_eq : doubleFault b r cn i s = faultPolicy b (reported b r cn i s) := rfl
theorem besideThreads_reported : BesideThreads s (reported b r cn i s) := (besideThreads_sendFault ..).trans (besideThreads_modTh ..)
theorem reported_faults : (getFld (reported b r cn i s) (fieldOf (getBlk s b).core)).faults =
    (getFld s (fieldOf (getBlk s b).core)).faults ++ [doubleReport b cn i s] := by
  unfold reported
  rw [getFld_modTh]
  exact congrArg Field.faults (getFld_modFld_same (fieldOf (getBlk s b).core)
    (fun k => { k with faultSeq := (getFld s (fieldOf (getBlk s b).core)).faultSeq + 1, faults := k.faults ++ [doubleReport b cn i s] }) s)
/-- The thread keeps its trap registers. -/
theorem doubleFault_threads (b' r' : Nat) : trapRegs (getTh (doubleFault b r cn i s) b' r') = trapRegs (getTh s b' r') :=
  ((reportKept_faultPolicy ..).threads b' r').trans ((quiet_modTh b r (fun t => { t with raised := none }) _ fun _ => rfl).threads b' r')
end

/-- What a double fault of block `b` makes of `s`: its record, and the policy of its region. -/
structure DoubleFaulted (s : State) (b : Nat) (i : TrapInfo) (u : State) : Prop where
  record : ∃ x ∈ (getFld u (fieldOf (getBlk s b).core)).faults, x.seq = (getFld s (fieldOf (getBlk s b).core)).faultSeq + 1 ∧ x.double = true ∧ x.cause = i.code.setWidth 6 ∧
    x.open_ = false ∧ (regFaultPol s (getBlk s b).region = 2 →
      (getFld u (fieldOf (getBlk s b).core)).faults = (getFld s (fieldOf (getBlk s b).core)).faults ++ [x])
  killed : regFaultPol s (getBlk s b).region = 0 → (getBlk u b).phase = .killed
  region : regFaultPol s (getBlk s b).region = 1 → RegionKilled s (getBlk s b).region (getBlk s b).handle u
  halted : regFaultPol s (getBlk s b).region = 2 → (getBlk u b).held = true ∧ (getBlk u b).halted = true

theorem doubleFaulted_doubleFault {s : State} {b : Nat} (r cn : Nat) (i : TrapInfo) (hb : (mfind s.blocks b).isSome = true) (hphase : (getBlk s b).phase = .resident) :
    DoubleFaulted s b i (doubleFault b r cn i s) := by
  have hbeside := besideThreads_reported b r cn i s
  have hfaults := reported_faults b r cn i s
  rw [doubleFault_eq]
  refine ⟨⟨doubleReport b cn i s, ?_, rfl, rfl, rfl, rfl, fun h => ?_⟩, fun h => ?_, fun h => ?_, fun h => ?_⟩
  · refine (reportKept_faultPolicy ..).records _ _ ?_ fun _ _ _ hsrc => by cases hsrc
    rw [hfaults]
    exact List.mem_append_right _ (List.mem_singleton_self _)
  · rw [faultPolicy_halt_faults ((hbeside.regFaultPol b).trans h), hfaults]
  · exact faultPolicy_killed ((hbeside.regFaultPol b).trans h) ((hbeside.present b).trans hb) ((hbeside.phase b).trans hphase)
  · have hkilled := regionKilled_faultPolicy ((hbeside.regFaultPol b).trans h)
    rw [hbeside.region, hbeside.handle] at hkilled
    exact hbeside.regionKilled hkilled
  · exact faultPolicy_halted ((hbeside.regFaultPol b).trans h) ((hbeside.present b).trans hb)
/-- A double fault goes by no thread. -/
theorem DoubleFaulted.before_modTh {s u : State} {b r : Nat} {i : TrapInfo} {F : Thread → Thread} (h : DoubleFaulted (modTh b r F s) b i u) : DoubleFaulted s b i u := by
  have hbeside := besideThreads_modTh b r F s
  obtain ⟨hrecord, hkilled, hregion, hhalted⟩ := h
  rw [hbeside.regFaultPol] at hkilled hregion hhalted
  rw [hbeside.regFaultPol, hbeside.core, getFld_modTh] at hrecord
  rw [hbeside.region, hbeside.handle] at hregion
  exact ⟨hrecord, hkilled, fun hpol => hbeside.regionKilled (hregion hpol), hhalted⟩

-- Delivery (R86, R87) ---------------------------------------------------------------------------------------------------------------

section
variable {s : State} {b r : Nat} {i : TrapInfo} (cn : Nat) (hphase : (getBlk s b).phase = .resident) (hraised : (getTh s b r).raised = some i)
include hphase hraised
/-- A second cause in the handler is a double fault. -/
theorem deliver_in_handler (htrap : (getTh s b r).trap = .handler) : deliver b r cn s = doubleFault b r cn i s := by
  simp only [deliver, hphase, hraised, htrap, bne_self_eq_false, beq_self_eq_true, Bool.false_eq_true, if_false, if_true]
/-- So is a cause where the region has no handler, after the thread has taken its trap. -/
theorem deliver_without_entry (htrap : (getTh s b r).trap ≠ .handler) (hentry : regTrapEntry s (getBlk s b).region = 0) :
    deliver b r cn s = doubleFault b r cn i (modTh b r (enterHandler 0 i) s) := by
  simp only [deliver, hphase, hraised, htrap, hentry, bne_self_eq_false, beq_iff_eq, Bool.false_eq_true, if_false, if_true]
theorem doubleFaulted_deliver (hb : (mfind s.blocks b).isSome = true) (h : (getTh s b r).trap = .handler ∨ regTrapEntry s (getBlk s b).region = 0) :
    DoubleFaulted s b i (deliver b r cn s) := by
  by_cases htrap : (getTh s b r).trap = .handler
  · rw [deliver_in_handler cn hphase hraised htrap]
    exact doubleFaulted_doubleFault r cn i hb hphase
  · have hbeside := besideThreads_modTh b r (enterHandler 0 i) s
    rw [deliver_without_entry cn hphase hraised htrap (h.resolve_left htrap)]
    exact (doubleFaulted_doubleFault r cn i ((hbeside.present b).trans hb) ((hbeside.phase b).trans hphase)).before_modTh
end

/-- Settles O59: in the handler, and where the region has no entry, a cause is a double fault, whose record and policy leave the trap registers; else the thread enters the
handler. -/
theorem doubleFaults : Obligations.DoubleFaults := by
  unfold Obligations.DoubleFaults
  intro s b r cn i hb hr hraised hphase k f u
  refine ⟨fun h => ?_, fun htrap => ?_, fun htrap hentry => ?_, fun htrap hentry => ?_⟩
  · obtain ⟨hrecord, hkilled, hregion, hhalted⟩ := doubleFaulted_deliver cn hphase hraised hb h
    exact ⟨hrecord, hkilled, hregion, hhalted⟩
  · have hregs : trapRegs (getTh u b r) = trapRegs (getTh s b r) := by
      rw [show u = _ from deliver_in_handler cn hphase hraised htrap]
      exact doubleFault_threads ..
    simp only [trapRegs, Prod.mk.injEq] at hregs
    obtain ⟨htrap', -, hcause, htrappc, htrapva⟩ := hregs
    exact ⟨hcause, htrappc, htrapva, htrap'.trans htrap⟩
  · have hregs : trapRegs (getTh u b r) = trapRegs (enterHandler 0 i (getTh s b r)) := by
      rw [show u = _ from deliver_without_entry cn hphase hraised htrap hentry, doubleFault_threads, getTh_modTh_same _ _ _ _ hb hr]
    exact ⟨congrArg (·.1) hregs, congrArg (·.2.2.2.1) hregs⟩
  · have hth : getTh u b r = enterHandler (regTrapEntry s k.region) i (getTh s b r) := by
      rw [show u = _ from deliver_raised cn hphase hentry hraised htrap, getTh_modTh_same _ _ _ _ hb hr]
    rw [hth]
    exact ⟨rfl, rfl⟩

end Sys2Proof.Machine
end

section
/-! Cross-lane words (R120-R122, R400-R403): what they write, each by its effect. -/
namespace Sys2Proof.Machine

theorem effScan_eq (f : FmtA) (c : Ctx) (s : State) : effScan f c s = .done (
    let ty := f.ty.toNat
    let op := nbits f.mods 0 3
    let scanned := [1, 2, 4, 8, 16].foldl (fun x d => scanStep (redOp ty op) d x) (redVals f c)
    writeTy c f.d ty (fun l => if bit f.mods 3 then (if l.1 = 0 then redId ty op else scanned.getD (l.1 - 1) 0) else scanned.getD l.1 0) s) := by
  simp only [effScan, beq_iff_eq]
/-- A rank that no thread of the consist has is at no slot (R403). -/
theorem effSlotof_eq (f : FmtA) (c : Ctx) (s : State) : effSlotof f c s = .done (writeLanes c f.d 1 (fun l =>
    (((membersOf c.slots).find? (fun m => m.2 == opA c f 10 l)).map (·.1)).getD 0xFFFFFFFF) s) := by
  unfold effSlotof
  congr
  funext l
  cases (membersOf c.slots).find? (fun m => m.2 == opA c f 10 l) <;> rfl

/-- Settles O7: each word's effect is one write of its results, `scan`'s and `slotof`'s in another spelling. -/
theorem crossLaneResults : Obligations.CrossLaneResults := by
  intro f s c ty op gives one lg scanned
  exact ⟨fun h => issueA_next h rfl, fun h => issueA_next h rfl, fun h => issueA_next h rfl, fun h => issueA_next h rfl,
    fun h => issueA_next h (effScan_eq f c s), fun h => issueA_next h rfl, fun h => issueA_next h (effSlotof_eq f c s), fun h => issueA_next h rfl⟩

end Sys2Proof.Machine
end

section
/-! The rows of an issued drill command (R116-R119, R148, R219, R230, R443-R447): what a row leaves behind, and when the command in turn does one. -/
namespace Sys2Proof.Machine

-- What a row leaves behind --------------------------------------------------------------------------------------

section
variable {b n access uid : Nat} {e : DEnt} {y : EFault} {row : State → RowOut} {s s' : State} (refault : Bool)

theorem dRow_done (hrow : row s = .done n s') (hreach : heldReach s s' = []) :
    dRow b e refault row s = putEnt b { e with row := e.row + 1, done := e.row + 1 == 32, nans := e.nans + n } s' := by
  simp only [dRow, hrow, hreach, List.isEmpty_nil, Bool.not_true, Bool.false_eq_true, if_false]
theorem dRow_done_held (hrow : row s = .done n s') (hreach : heldReach s s' ≠ []) : dRow b e refault row s = s := by
  simp only [dRow, hrow, List.isEmpty_eq_false_iff.2 hreach, Bool.not_false, if_true]
theorem dRow_fault (huid : e.uid = uid) (hrow : row s = .fault y access s') (hroom : faultRoom s' (fieldOf (getBlk s b).core) = true) (hreach : heldReach s s' = []) :
    dRow b e refault row s =
      let q := sendFault (fieldOf (getBlk s b).core) { engineRec s' b 0 access y (.drillCmd b uid) with drill := true, refault := refault } s'
      putEnt b { e with fault := some q.1 } q.2 := by
  simp only [dRow, hrow, hroom, hreach, huid, List.isEmpty_nil, Bool.not_true, Bool.or_self, Bool.false_eq_true, if_false]
/-- A faulting row is not begun while the fault queue has no room or a pseudo-channel holds what it reached (R148, R230). -/
theorem dRow_fault_waits (hrow : row s = .fault y access s') (h : faultRoom s' (fieldOf (getBlk s b).core) = false ∨ heldReach s s' ≠ []) :
    dRow b e refault row s = s := by
  have hwaits : (!faultRoom s' (fieldOf (getBlk s b).core) || !(heldReach s s').isEmpty) = true := by
    simpa only [Bool.or_eq_true, Bool.not_eq_true', List.isEmpty_eq_false_iff] using h
  simp only [dRow, hrow, hwaits, if_true]
end

-- The command in turn -------------------------------------------------------------------------------------------

section
variable {i : Instr} {s : State} {b uid : Nat} {e : DEnt} (row : Nat → DEnt → State → RowOut) (hturn : s.turn = .drill b uid)
  (hfind : (getBlk s b).drill.table.find? (fun e => e.uid == uid && e.instr == i) = some e) (hissued : e.issued = true)
include hturn hfind hissued

/-- An issued command of the five that have rows does its next one. -/
theorem drillStep_row {d : DCmd} (hrows : i ∈ [Instr.dzero d, .dldacc d, .dstacc d, .dscale d, .dmma d]) (hphase : (getBlk s b).phase = .resident) (hfault : e.fault = none)
    (hdone : e.done = false) (hbusy : dmmaBusy (getBlk s b).drill e = false) (hheld : rowHeld s b e = false) :
    drillStep i row s = .next (dRow b { e with again := false } e.again (row b { e with again := false }) s) := by
  simp only [drillStep, hturn, hfind, hphase, hfault, hdone, hissued, hbusy, hheld, bne_self_eq_false, Option.isSome_none, Bool.or_self, Bool.not_true,
    Bool.false_eq_true, if_false]
  simp only [List.mem_cons, List.not_mem_nil, or_false] at hrows
  obtain rfl | rfl | rfl | rfl | rfl := hrows <;> rfl
/-- It waits for a `dmma` issued earlier, and for a pseudo-channel that holds what its row reaches (R148, R445). -/
theorem drillStep_waits (h : dmmaBusy (getBlk s b).drill e = true ∨ rowHeld s b e = true) : drillStep i row s = .next s := by
  have hwaits : (dmmaBusy (getBlk s b).drill e || rowHeld s b e) = true := Bool.or_eq_true_iff.2 h
  simp only [drillStep, hturn, hfind, hissued, hwaits, Bool.not_true, Bool.false_eq_true, if_false, if_true, ite_self]
end

/-- The five commands that have rows are steps of the drill. -/
theorem exec_rowCommand (d : DCmd) (s : State) : ∀ i ∈ [Instr.dzero d, .dldacc d, .dstacc d, .dscale d, .dmma d], ∃ row, exec i s = drillStep i row s := by
  simp only [List.forall_mem_cons]
  exact ⟨⟨fun b e s => dzeroRow b e d s, rfl⟩, ⟨fun b e s => dldaccRow b e d s, rfl⟩, ⟨fun b e s => dstaccRow b e d s, rfl⟩,
    ⟨fun b e s => dscaleRow b e d s, rfl⟩, ⟨fun b e s => dmmaRow b e d s, rfl⟩, List.forall_mem_nil _⟩

/-- Settles O30: a command ready for a row does it, and what is left behind follows from what the row did; one that is not waits. -/
theorem drillRows : Obligations.DrillRows := by
  intro d s b uid e k f x ready moves
  have hmoves : ∀ (i : Instr) (row : Nat → DEnt → State → RowOut), i ∈ [Instr.dzero d, .dldacc d, .dstacc d, .dscale d, .dmma d] → exec i s = drillStep i row s →
      moves i (row b x s) := by
    intro i row hrows hexec ⟨hturn, hfind, hphase, hfault, hdone, hissued, hbusy, hheld⟩
    have huid : x.uid = uid := (by simpa using List.find?_some hfind : e.uid = uid ∧ e.instr = i).1
    have hstep : exec i s = .next (dRow b x e.again (row b x) s) :=
      hexec.trans (drillStep_row row hturn hfind hissued hrows hphase hfault hdone hbusy hheld)
    refine ⟨fun n s' hrow hreach => ?_, fun n s' hrow hreach => ?_, fun y access s' hrow hroom hreach => ?_, fun y access s' hrow hwait => ?_⟩
    · rw [hstep, dRow_done e.again hrow hreach]
    · rw [hstep, dRow_done_held e.again hrow hreach]
    · rw [hstep, dRow_fault e.again huid hrow hroom hreach]
    · rw [hstep, dRow_fault_waits e.again hrow hwait]
  refine ⟨hmoves _ (fun b e s => dzeroRow b e d s) (by simp) rfl, hmoves _ (fun b e s => dldaccRow b e d s) (by simp) rfl,
    hmoves _ (fun b e s => dstaccRow b e d s) (by simp) rfl, hmoves _ (fun b e s => dscaleRow b e d s) (by simp) rfl,
    hmoves _ (fun b e s => dmmaRow b e d s) (by simp) rfl, fun i hi hturn hfind hissued hwait => ?_⟩
  obtain ⟨row, hexec⟩ := exec_rowCommand d s i hi
  exact hexec.trans (drillStep_waits row hturn hfind hissued hwait)

end Sys2Proof.Machine
end

section
/-! Pseudo-channel power and retraining (R147, R297, R298): what a written request names, how it goes on, and an equation of each event in each of its cases. -/
namespace Sys2Proof.Machine
set_option Elab.async false -- Elaborating proofs side by side takes the memory of a thread for each.

-- Requests (R298) -----------------------------------------------------------------------------------------------------

/-- A write of PCPWR that asks a state of a pseudo-channel. -/
def pchRequest (p st : Nat) : DWord := BitVec.ofNat 64 (p + 32 * st)
/-- The field once it has accepted a request. -/
def pchAccepted (f p st : Nat) (s : State) : State := modFld f (fun k => { k with pcpwr := pchRequest p st, pcpwrErr := false }) s

theorem pchRequest_channel {p : Nat} (st : Nat) (hp : p < 32) : nbits (pchRequest p st) 0 5 = p := by
  simp only [pchRequest, nbits, BitVec.extractLsb'_toNat, BitVec.toNat_ofNat, Nat.shiftRight_zero]
  omega
theorem pchRequest_state {p st : Nat} (hp : p < 32) (hst : st < 4) : nbits (pchRequest p st) 5 2 = st := by
  simp only [pchRequest, nbits, BitVec.extractLsb'_toNat, BitVec.toNat_ofNat, Nat.shiftRight_eq_div_pow]
  omega
theorem pchRequest_rest {p st : Nat} (hp : p < 32) (hst : st < 4) : nbits (pchRequest p st) 7 57 = 0 := by
  simp only [pchRequest, nbits, BitVec.extractLsb'_toNat, BitVec.toNat_ofNat, Nat.shiftRight_eq_div_pow]
  omega
/-- Of an update of a field only its value there counts. -/
theorem modFld_congr {f : Nat} {F G : Field → Field} {s : State} (h : F (getFld s f) = G (getFld s f)) : modFld f F s = modFld f G s := by
  simp only [modFld, h]

section
variable {s : State} {f p st : Nat}
/-- An accepted request past any retraining: a live tile holds it, or its state is entered. -/
theorem pchProceed_held (hp : p < 32) (hst : st < 4) (htile : tileOn s f p = true) : pchProceed f (pchAccepted f p st s) =
    sbEvent (0, f) (.power f p st true) (modFld f (fun k => { k with pcpwrReq := 2 }) (pchAccepted f p st s)) := by
  simp only [pchProceed, pchAccepted, getFld_modFld_same, pchRequest_channel st hp, pchRequest_state hp hst]
  exact if_pos htile
theorem pchProceed_enters (hp : p < 32) (hst : st < 4) (htile : tileOn s f p = false) : pchProceed f (pchAccepted f p st s) =
    serveHeld (modFld f (fun k => { k with pcpwrReq := 0, pchState := mput k.pchState p st }) (pchAccepted f p st s)) := by
  have henter : pchEnter f (pchAccepted f p st s) =
      serveHeld (modFld f (fun k => { k with pcpwrReq := 0, pchState := mput k.pchState p st }) (pchAccepted f p st s)) := by
    refine congrArg serveHeld (modFld_congr ?_)
    simp only [pchAccepted, getFld_modFld_same, pchRequest_channel st hp, pchRequest_state hp hst]
  simp only [pchProceed, pchAccepted, getFld_modFld_same, pchRequest_channel st hp]
  exact (if_neg (Bool.eq_false_iff.1 htile)).trans henter

variable (hf : f < 64)
include hf
theorem pcpwrPut_refused (v : DWord) (hreq : (getFld s f).pcpwrReq ≠ 0) : pcpwrPut f v s = modFld f (fun k => { k with pcpwrErr := true }) s :=
  (if_neg (Nat.not_le.2 hf)).trans (if_pos (by simp [hreq]))

section
variable (hp : p < 32) (hst : st < 3) (hreq : (getFld s f).pcpwrReq = 0)
include hp hst hreq
theorem pcpwrPut_accepted : pcpwrPut f (pchRequest p st) s =
    if st = 0 then modFld f (fun k => { k with pchState := mdel k.pchState p }) (pchAccepted f p st s)
    else if (getFld s f).retrain = some p then modFld f (fun k => { k with pcpwrReq := 1 }) (pchAccepted f p st s)
    else pchProceed f (pchAccepted f p st s) := by
  have hlt : st < 4 := by omega
  have hstate : (st == 3) = false := beq_eq_false_iff_ne.2 (by omega)
  have haccepted : ¬ ((getFld s f).pcpwrReq != 0 || nbits (pchRequest p st) 5 2 == 3 || nbits (pchRequest p st) 7 57 != 0) = true := by
    simp only [hreq, pchRequest_state hp hlt, pchRequest_rest hp hlt, hstate, bne_self_eq_false, Bool.or_self, Bool.false_eq_true, not_false_eq_true]
  refine (if_neg (Nat.not_le.2 hf)).trans ((if_neg haccepted).trans ?_)
  simp only [pchRequest_channel st hp, pchRequest_state hp hlt, beq_iff_eq]
  rfl
end

/-- What an event that asks a state other than ACTIVE does: it is refused, waits for the retraining, is held, or enters its state. -/
theorem pcpwr_asks {i : Instr} (hp : p < 32) (hst : 0 < st ∧ st < 3) (hexec : exec i s = .next (pcpwrPut f (pchRequest p st) s)) :
    ((getFld s f).pcpwrReq ≠ 0 → exec i s = .next (modFld f (fun k => { k with pcpwrErr := true }) s)) ∧
    ((getFld s f).pcpwrReq = 0 → (getFld s f).retrain = some p → exec i s = .next (modFld f (fun k => { k with pcpwrReq := 1 }) (pchAccepted f p st s))) ∧
    ((getFld s f).pcpwrReq = 0 → (getFld s f).retrain ≠ some p → tileOn s f p = true → exec i s =
      .next (sbEvent (0, f) (.power f p st true) (modFld f (fun k => { k with pcpwrReq := 2 }) (pchAccepted f p st s)))) ∧
    ((getFld s f).pcpwrReq = 0 → (getFld s f).retrain ≠ some p → tileOn s f p = false → exec i s =
      .next (serveHeld (modFld f (fun k => { k with pcpwrReq := 0, pchState := mput k.pchState p st }) (pchAccepted f p st s)))) := by
  have hlt : st < 4 := by omega
  have hactive : st ≠ 0 := by omega
  rw [hexec]
  refine ⟨fun hreq => by rw [pcpwrPut_refused hf _ hreq], fun hreq hretrain => ?_, fun hreq hretrain htile => ?_, fun hreq hretrain htile => ?_⟩ <;>
    rw [pcpwrPut_accepted hf hp hst.2 hreq, if_neg hactive]
  · rw [if_pos hretrain]
  · rw [if_neg hretrain, pchProceed_held hp hlt htile]
  · rw [if_neg hretrain, pchProceed_enters hp hlt htile]
end

section
variable {s : State} {f p : Nat}
/-- The word of each request's event. -/
theorem exec_pcpwrActive (hp : p < 32) : exec (.pcpwrActive f p) s = .next (pcpwrPut f (pchRequest p 0) s) := by
  show execPcpwrActive f p s = _
  rw [execPcpwrActive, Nat.mod_eq_of_lt hp]
  rfl
theorem exec_pcpwrSelfRefresh (hp : p < 32) : exec (.pcpwrSelfRefresh f p) s = .next (pcpwrPut f (pchRequest p 1) s) := by
  show execPcpwrSelfRefresh f p s = _
  rw [execPcpwrSelfRefresh, Nat.mod_eq_of_lt hp]
  rfl
theorem exec_pcpwrPowerDown (hp : p < 32) : exec (.pcpwrPowerDown f p) s = .next (pcpwrPut f (pchRequest p 2) s) := by
  show execPcpwrPowerDown f p s = _
  rw [execPcpwrPowerDown, Nat.mod_eq_of_lt hp]
  rfl

-- The end of a hold (R298) ----------------------------------------------------------------------------------------------

theorem exec_pcpwrHoldEnd_enters (hreq : (getFld s f).pcpwrReq = 2) (hp : nbits (getFld s f).pcpwr 0 5 = p) (htile : tileOn s f p = false) :
    exec (.pcpwrHoldEnd f) s = .next (pchEnter f (sbEvent (0, f) (.power f p (nbits (getFld s f).pcpwr 5 2) false) s)) := by
  subst hp
  refine if_neg ?_
  simp only [hreq, htile, bne_self_eq_false, Bool.or_self, Bool.false_eq_true, not_false_eq_true]
theorem exec_pcpwrHoldEnd_none (h : (getFld s f).pcpwrReq ≠ 2 ∨ tileOn s f (nbits (getFld s f).pcpwr 0 5) = true) : exec (.pcpwrHoldEnd f) s = .next s := by
  refine if_pos ?_
  simpa only [Bool.or_eq_true, bne_iff_ne] using h

-- Retraining (R147, R297) -------------------------------------------------------------------------------------------------

/-- TD has moved by 8 degrees since the pseudo-channel's last training, or it has made more than 16 corrections. -/
theorem retrainDue_iff (k : Field) (p : Nat) : retrainDue k p = true ↔ 128 ≤ (k.td - mget 0 k.trainTd p).natAbs ∨ 16 < mget 0 k.corrected p := by
  simp only [retrainDue, Bool.or_eq_true, decide_eq_true_eq]
theorem exec_retrainStart_begins (hf : f < 64) (hp : p < 32) (hnone : (getFld s f).retrain = none) (hdue : retrainDue (getFld s f) p = true) :
    exec (.retrainStart f p) s = .next (sbEvent (0, f) .note (modFld f (fun k =>
      { k with retrain := some p, trainTd := mput k.trainTd p k.td, corrected := mdel k.corrected p }) s)) :=
  if_neg (by simp [hf, hp, hnone, hdue])
theorem exec_retrainStart_none (h : (getFld s f).retrain ≠ none ∨ retrainDue (getFld s f) p = false) : exec (.retrainStart f p) s = .next s := by
  refine if_pos ?_
  rcases h with hsome | hdue
  · simp [Option.isSome_iff_ne_none.2 hsome]
  · simp [hdue]
/-- The field whose retraining has ended, after at most 8192 cycles: accesses that waited are served, and the training and its cycles are counted. -/
def retrained (f n : Nat) (s : State) : State :=
  evAdd f 0x18 (min n 8192) (evAdd f 0x10 1 (serveHeld (modFld f (fun k => { k with retrain := none }) (setNow f ((getFld s f).now + min n 8192) s))))
theorem exec_retrainEnd {n : Nat} (h : (getFld s f).retrain = some p) : exec (.retrainEnd f n) s = .next
    (if (getFld (retrained f n s) f).pcpwrReq = 1 ∧ nbits (getFld (retrained f n s) f).pcpwr 0 5 = p then pchProceed f (retrained f n s) else retrained f n s) := by
  show execRetrainEnd f n s = _
  simp only [execRetrainEnd, h, Bool.and_eq_true, beq_iff_eq]
  rfl
theorem exec_retrainEnd_none {n : Nat} (h : (getFld s f).retrain = none) : exec (.retrainEnd f n) s = .next s := by
  show execRetrainEnd f n s = _
  simp only [execRetrainEnd, h]
end

/-- Settles O42: event by event, a request by what it meets. -/
theorem powerEvents : Obligations.PowerEvents := by
  intro s f p n hf hp k req at_ refused asks td due trained
  refine ⟨fun hreq => ?_, fun hreq => ?_, pcpwr_asks hf hp (by decide) (exec_pcpwrSelfRefresh hp), pcpwr_asks hf hp (by decide) (exec_pcpwrPowerDown hp),
    fun hreq hchannel htile => ?_, exec_pcpwrHoldEnd_none, fun hnone hdue => ?_, fun h => ?_, fun hretrain h => ?_, fun hretrain hreq hchannel => ?_, exec_retrainEnd_none⟩
  · rw [exec_pcpwrActive hp, pcpwrPut_refused hf _ hreq]
  · rw [exec_pcpwrActive hp, pcpwrPut_accepted hf hp (by decide) hreq, if_pos rfl]
    rfl
  · exact exec_pcpwrHoldEnd_enters hreq hchannel htile
  · exact exec_retrainStart_begins hf hp hnone ((retrainDue_iff k p).2 hdue)
  · exact exec_retrainStart_none (h.imp_right fun hnot => by rwa [← Bool.not_eq_true, retrainDue_iff])
  · rw [exec_retrainEnd hretrain]
    exact congrArg Host.Outcome.next (if_neg fun hwaits => h.elim (· hwaits.1) (· hwaits.2))
  · rw [exec_retrainEnd hretrain]
    exact congrArg Host.Outcome.next (if_pos ⟨hreq, hchannel⟩)

end Sys2Proof.Machine
end

section
/-! What memory accesses leave beside the memory they reach (R30, R33, R54, R135-R142, R361): the registers and backing areas of every block and every scratchpad, though
watches wake and file threads on the way; and the operations on the way that leave memory and every cache alone too. -/
namespace Sys2Proof.Machine
set_option Elab.async false -- Elaborating proofs side by side takes the memory of a thread for each.

-- The frames --------------------------------------------------------------------------------------------------------

/-- What decides where the backing area of a block lies (R53). -/
def areaOf (k : Block) : Bool × DWord × Nat := (resident k, k.backing, k.threads)

/-- Every register is as it was, and no backing area lies where none lay. -/
structure RegsKept (s t : State) : Prop where
  regs  : ∀ b r num, regAt t b r num = regAt s b r num
  roots : ∀ b, rootOf t b = rootOf s b
  areas : ∀ e ∈ t.blocks, ∃ k, (e.1, k) ∈ s.blocks ∧ areaOf k = areaOf e.2
/-- So is every scratchpad. -/
structure BesideMemory (s t : State) : Prop extends RegsKept s t where
  pads : ∀ g, (getCore t g).scratch = (getCore s g).scratch
/-- Home memory, every L1, every RDC and the LLC's aliased lines are as they were, and so are the roles of its ways. -/
structure CachesKept (s t : State) : Prop where
  mem    : t.mem = s.mem
  views  : t.aliasLines = s.aliasLines
  l1     : ∀ g, (getCore t g).l1 = (getCore s g).l1
  rdc    : ∀ f, (getFld t f).rdc = (getFld s f).rdc
  forces : ∀ f i, (getSlice t f i).inForce = (getSlice s f i).inForce
/-- All of these are as they were. -/
structure Aside (s t : State) : Prop extends BesideMemory s t where
  caches : CachesKept s t

section
variable {s t u : State}
theorem RegsKept.refl (s : State) : RegsKept s s := ⟨fun _ _ _ => rfl, fun _ => rfl, fun e he => ⟨e.2, he, rfl⟩⟩
theorem RegsKept.trans (h : RegsKept s t) (h' : RegsKept t u) : RegsKept s u := by
  refine ⟨fun b r num => (h'.regs b r num).trans (h.regs b r num), fun b => (h'.roots b).trans (h.roots b), fun e he => ?_⟩
  obtain ⟨k, hk, hkarea⟩ := h'.areas e he
  obtain ⟨l, hl, hlarea⟩ := h.areas _ hk
  exact ⟨l, hl, hlarea.trans hkarea⟩
theorem BesideMemory.refl (s : State) : BesideMemory s s := ⟨.refl s, fun _ => rfl⟩
theorem BesideMemory.trans (h : BesideMemory s t) (h' : BesideMemory t u) : BesideMemory s u :=
  ⟨h.toRegsKept.trans h'.toRegsKept, fun g => (h'.pads g).trans (h.pads g)⟩
theorem CachesKept.refl (s : State) : CachesKept s s := ⟨rfl, rfl, fun _ => rfl, fun _ => rfl, fun _ _ => rfl⟩
theorem CachesKept.trans (h : CachesKept s t) (h' : CachesKept t u) : CachesKept s u :=
  ⟨h'.mem.trans h.mem, h'.views.trans h.views, fun g => (h'.l1 g).trans (h.l1 g), fun f => (h'.rdc f).trans (h.rdc f), fun f i => (h'.forces f i).trans (h.forces f i)⟩
theorem Aside.refl (s : State) : Aside s s := ⟨.refl s, .refl s⟩
theorem Aside.trans (h : Aside s t) (h' : Aside t u) : Aside s u := ⟨h.toBesideMemory.trans h'.toBesideMemory, h.caches.trans h'.caches⟩

theorem RegsKept.of_eq (hblocks : t.blocks = s.blocks := by rfl) (hrcbs : t.rcbs = s.rcbs := by rfl) : RegsKept s t := by
  refine ⟨fun b r num => ?_, fun b => ?_, fun e he => ⟨e.2, hblocks ▸ he, rfl⟩⟩
  · rw [regAt, regAt, getTh, getTh, getBlk, getBlk, hblocks]
  · rw [rootOf, rootOf, getBlk, getBlk, hblocks]
    exact effField_congr s t hrcbs ..
theorem BesideMemory.of_eq (hblocks : t.blocks = s.blocks := by rfl) (hrcbs : t.rcbs = s.rcbs := by rfl) (hcores : t.cores = s.cores := by rfl) : BesideMemory s t :=
  ⟨.of_eq hblocks hrcbs, fun g => by rw [getCore, getCore, hcores]⟩
theorem CachesKept.of_eq (hmem : t.mem = s.mem := by rfl) (hviews : t.aliasLines = s.aliasLines := by rfl) (hcores : t.cores = s.cores := by rfl)
    (hfields : t.fields = s.fields := by rfl) : CachesKept s t :=
  ⟨hmem, hviews, fun g => by rw [getCore, getCore, hcores], fun f => by rw [getFld, getFld, hfields], fun f i => by rw [getSlice, getSlice, getFld, getFld, hfields]⟩
theorem Aside.of_eq (hblocks : t.blocks = s.blocks := by rfl) (hrcbs : t.rcbs = s.rcbs := by rfl) (hcores : t.cores = s.cores := by rfl)
    (hfields : t.fields = s.fields := by rfl) (hmem : t.mem = s.mem := by rfl) (hviews : t.aliasLines = s.aliasLines := by rfl) : Aside s t :=
  ⟨.of_eq hblocks hrcbs hcores, .of_eq hmem hviews hcores hfields⟩
theorem memoryKept.cachesKept (h : memoryKept s t) : CachesKept s t := by
  obtain ⟨hmem, -, -, hviews, -, -, -, hcores, hfields⟩ := h
  refine ⟨hmem, hviews, fun g => (hcores g).1, fun f => (hfields f).1, fun f i => ?_⟩
  rw [getSlice, getSlice, (hfields f).2.1]

section
variable {α : Type} (f : State → α → State) (l : List α) (s : State)
theorem RegsKept.foldl (h : ∀ s a, RegsKept s (f s a)) : RegsKept s (l.foldl f s) := foldl_inv (RegsKept s) f l s (.refl s) fun a _ ht => ht.trans (h _ a)
theorem BesideMemory.foldl (h : ∀ s a, BesideMemory s (f s a)) : BesideMemory s (l.foldl f s) :=
  foldl_inv (BesideMemory s) f l s (.refl s) fun a _ ht => ht.trans (h _ a)
theorem Aside.foldl (h : ∀ s a, Aside s (f s a)) : Aside s (l.foldl f s) := foldl_inv (Aside s) f l s (.refl s) fun a _ ht => ht.trans (h _ a)
end

/-- A byte outside every backing area stays outside. -/
theorem RegsKept.backingAt_none (h : RegsKept s t) {root va : Nat} (hnone : backingAt s root va = none) : backingAt t root va = none := by
  have hlies : ∀ (u : State) (e : Nat × Block), (resident e.2 && rootOf u e.1 / 4096 == root / 4096 && decide (e.2.backing.toNat ≤ va) &&
      decide (va < e.2.backing.toNat + e.2.threads * 1024)) = ((areaOf e.2).1 && rootOf u e.1 / 4096 == root / 4096 && decide ((areaOf e.2).2.1.toNat ≤ va) &&
      decide (va < (areaOf e.2).2.1.toNat + (areaOf e.2).2.2 * 1024)) := fun _ _ => rfl
  have hfound : ∀ u, backingAt u root va = none ↔ ∀ e ∈ u.blocks, ¬ (resident e.2 && rootOf u e.1 / 4096 == root / 4096 && decide (e.2.backing.toNat ≤ va) &&
      decide (va < e.2.backing.toNat + e.2.threads * 1024)) = true := by
    intro u
    rw [← List.find?_eq_none]
    unfold backingAt
    split
    · rename_i hsome
      simp [hsome]
    · rename_i hnone
      simp [hnone]
  rw [hfound] at hnone ⊢
  intro e he
  obtain ⟨k, hk, harea⟩ := h.areas e he
  rw [hlies, h.roots, ← harea]
  exact hnone _ hk
end

-- The accessors -----------------------------------------------------------------------------------------------------

theorem aside_modCore (g : Nat) (F : Core → Core) (s : State) (hl1 : ∀ c, (F c).l1 = c.l1 := by intro _; rfl) (hpad : ∀ c, (F c).scratch = c.scratch := by intro _; rfl) :
    Aside s (modCore g F s) := by
  refine ⟨⟨.of_eq rfl rfl, fun g' => ?_⟩, rfl, rfl, fun g' => ?_, fun _ => rfl, fun _ _ => rfl⟩ <;> rw [getCore_modCore] <;> split
  · rename_i e
    rw [hpad, e]
  · rfl
  · rename_i e
    rw [hl1, e]
  · rfl
theorem besideMemory_modFld (f : Nat) (F : Field → Field) (s : State) : BesideMemory s (modFld f F s) := .of_eq
theorem cachesKept_modFld (f : Nat) (F : Field → Field) (s : State) (hrdc : ∀ k, (F k).rdc = k.rdc) (hslices : ∀ k, (F k).slices = k.slices) :
    CachesKept s (modFld f F s) := by
  refine ⟨rfl, rfl, fun _ => rfl, fun f' => ?_, fun f' i => ?_⟩
  · rw [getFld_modFld]
    split
    · rename_i e
      rw [hrdc, e]
    · rfl
  · rw [getSlice, getFld_modFld]
    split
    · rename_i e
      rw [hslices, ← e]
      rfl
    · rfl
theorem aside_modFld (f : Nat) (F : Field → Field) (s : State) (hrdc : ∀ k, (F k).rdc = k.rdc := by intro _; rfl) (hslices : ∀ k, (F k).slices = k.slices := by intro _; rfl) :
    Aside s (modFld f F s) := ⟨besideMemory_modFld .., cachesKept_modFld f F s hrdc hslices⟩
theorem mem_modBlk_blocks {b : Nat} {F : Block → Block} {s : State} {e : Nat × Block} (h : e ∈ (modBlk b F s).blocks) :
    e ∈ s.blocks ∨ ∃ k, (b, k) ∈ s.blocks ∧ e = (b, F k) := by
  unfold modBlk at h
  split at h
  · rename_i k hk
    exact (mem_mput _ _ _ _ h).symm.imp_right fun he => ⟨k, mem_of_mfind _ _ _ hk, he⟩
  · exact .inl h
theorem aside_modBlk (b : Nat) (F : Block → Block) (s : State) (hregs : ∀ k r num, threadReg (mget {} (F k).members r) num = threadReg (mget {} k.members r) num)
    (hregion : ∀ k, (F k).region = k.region) (harea : ∀ k, areaOf (F k) = areaOf k) : Aside s (modBlk b F s) := by
  refine ⟨⟨⟨fun b' r num => ?_, fun b' => ?_, fun e he => ?_⟩, fun g => by rw [getCore_modBlk]⟩, modBlk_mem .., modBlk_aliasLines .., fun g => by rw [getCore_modBlk],
    fun f => by rw [getFld_modBlk], fun f i => by rw [getSlice, getFld_modBlk]; rfl⟩
  · rcases getBlk_modBlk_cases b b' F s with e | ⟨-, e⟩
    · rw [regAt, getTh, e]
      rfl
    · rw [regAt, getTh, e, hregs]
      rfl
  · have hroot : regRoot (modBlk b F s) (getBlk s b').region = regRoot s (getBlk s b').region := effField_congr s _ (modBlk_rcbs ..) ..
    rcases getBlk_modBlk_cases b b' F s with e | ⟨-, e⟩
    · rw [rootOf, e, hroot]
      rfl
    · rw [rootOf, e, hregion, hroot]
      rfl
  · rcases mem_modBlk_blocks he with he | ⟨k, hk, rfl⟩
    · exact ⟨e.2, he, rfl⟩
    · exact ⟨k, hk, (harea k).symm⟩
theorem aside_modTh (b r : Nat) (F : Thread → Thread) (s : State) (hF : ∀ t num, threadReg (F t) num = threadReg t num := by intro _ _; rfl) : Aside s (modTh b r F s) := by
  obtain ⟨G, e, hG⟩ := modTh_eq b r F s
  have hmembers : ∀ k, ∃ m, G k = { k with members := m } := fun k => by
    rcases hG k with ⟨t, -, hk⟩ | ⟨-, hk⟩
    · exact ⟨_, hk⟩
    · exact ⟨k.members, hk⟩
  rw [e]
  refine aside_modBlk b G s (fun k r' num => ?_) (fun k => ?_) fun k => ?_
  · rcases hG k with ⟨t, ht, hk⟩ | ⟨-, hk⟩
    · rw [hk, mget_mput]
      split
      · rename_i hr
        rw [hF, hr, mget, ht, Option.getD_some]
      · rfl
    · rw [hk]
  · obtain ⟨m, hk⟩ := hmembers k
    rw [hk]
  · obtain ⟨m, hk⟩ := hmembers k
    rw [hk]
    rfl

-- Threads that wake (R30, R33, R361) ----------------------------------------------------------------------------------

theorem aside_fileThread (g b r : Nat) (s : State) : Aside s (fileThread g b r s) := by
  unfold fileThread
  simp only
  split
  · exact (aside_modCore ..).trans (aside_modTh ..)
  · split <;> exact (aside_modCore ..).trans (aside_modTh ..)
theorem aside_makeReady (b r : Nat) (s : State) : Aside s (makeReady b r s) := by
  unfold makeReady
  simp only
  split
  · exact aside_fileThread ..
  · exact (aside_modTh ..).trans (aside_modBlk _ _ _ (fun _ _ _ => rfl) (fun _ => rfl) fun _ => rfl)
theorem aside_nextId (n : Nat) (s : State) : Aside s { s with nextId := n } := .of_eq
theorem aside_endWait (b r : Nat) (p : Wait → Bool) (s : State) : Aside s (endWait b r p s) := by
  unfold endWait
  simp only
  split
  · refine Aside.trans ?_ (aside_makeReady ..)
    exact (aside_nextId _ s).trans (aside_modTh _ _ _ _ (by exact fun _ _ => rfl))
  · exact (aside_nextId _ s).trans (aside_modTh _ _ _ _ (by exact fun _ _ => rfl))
theorem aside_wakeLines (f : Nat) (lns : List Nat) (s : State) : Aside s (wakeLines f lns s) := by
  unfold wakeLines
  simp only
  split
  · exact .refl s
  · exact (aside_modFld ..).trans (Aside.foldl (fun s w => wakeOne w s) _ _ fun _ _ => aside_endWait ..)
theorem aside_wakeLine (ln : Nat) (s : State) : Aside s (wakeLine ln s) := by
  unfold wakeLine
  split
  · exact .refl s
  · exact aside_wakeLines ..

-- Counting, corrections, pseudo-channels and copies (R140, R171, R287, R298) ----------------------------------------------

theorem aside_perfAdd (f code : Nat) (core : Option Nat) (req : Option Bool) (n : Nat) (s : State) : Aside s (perfAdd f code core req n s) := by
  rcases perfAdd_cases f code core req n s with h | ⟨p, h⟩ <;> rw [h]
  · exact .refl s
  · exact aside_modFld ..
theorem aside_freeW (s : State) : Aside s (freeW s).2 := .of_eq
theorem aside_flits (s : State) : Aside s (flits s) := by
  unfold flits
  exact Aside.foldl _ _ s fun s e => (aside_freeW s).trans (aside_perfAdd ..)
theorem aside_llcMiss (w : Option Bool) (n pa : Nat) (s : State) : Aside s (llcMiss w n pa s) := by
  unfold llcMiss
  split
  · exact .refl s
  · split
    · exact .refl s
    · exact (aside_freeW s).trans (aside_perfAdd ..)
theorem aside_homeReq (w : Option Bool) (f ln : Nat) (s : State) : Aside s (homeReq w f ln s) := by
  unfold homeReq crossReq
  split
  · exact .refl s
  · split
    · exact aside_llcMiss ..
    · exact ((aside_perfAdd ..).trans (aside_perfAdd ..)).trans ((aside_flits _).trans (aside_llcMiss ..))
theorem aside_walkReq (w : Bool) (fld : Option Nat) (ln : Nat) (s : State) : Aside s (walkReq w fld ln s) := by
  cases fld with
  | none => exact aside_llcMiss ..
  | some f => exact aside_homeReq ..
theorem aside_evAdd (f off n : Nat) (s : State) : Aside s (evAdd f off n s) := aside_modFld ..
theorem aside_correctHome (pa n : Nat) (s : State) : Aside s (correctHome pa n s) := by
  unfold correctHome
  split
  · exact .refl s
  · have herr : Aside s { s with memErr := s.memErr.filter (fun e => !(e.2 == false && (errWords s pa n false).contains e.1)) } := .of_eq
    simp only
    split
    · exact herr.trans ((aside_evAdd ..).trans (aside_modFld ..))
    · exact herr
theorem aside_wakePch (pa : Nat) (s : State) : Aside s (wakePch pa s) := by
  unfold wakePch
  split
  · simp only
    split <;> split
    · exact .of_eq
    · exact (Aside.of_eq : Aside s { s with touched := _ }).trans (aside_modFld ..)
    · exact .refl s
    · exact aside_modFld ..
  · exact .refl s
/-- The data of a line that a window shows lie in one pseudo-channel, and its scales, where it has any, in another. -/
theorem aside_wakePchs (data scales : Nat) (c : Bool) (s : State) : Aside s (wakePch data (if c = true then s else wakePch scales s)) := by
  split
  · exact aside_wakePch ..
  · exact (aside_wakePch ..).trans (aside_wakePch ..)
theorem aside_overtake (ln : Nat) (m : BitVec 128) (s : State) : Aside s (overtake ln m s) := by
  unfold overtake
  split <;> exact .of_eq
end Sys2Proof.Machine
end

section
/-! Registers, scratchpads and backing areas under every access to memory, evictions and write-backs included (R135-R142, R160-R166, R221-R227). -/
namespace Sys2Proof.Machine
set_option Elab.async false -- Elaborating proofs side by side takes the memory of a thread for each.

theorem besideMemory_modCore (g : Nat) (F : Core → Core) (s : State) (hpad : ∀ c, (F c).scratch = c.scratch := by intro _; rfl) : BesideMemory s (modCore g F s) := by
  refine ⟨.of_eq rfl rfl, fun g' => ?_⟩
  rw [getCore_modCore]
  split
  · rename_i e
    rw [hpad, e]
  · rfl

section
variable {s t : State} (h : BesideMemory s t)
include h
theorem BesideMemory.modCore {g : Nat} {F : Core → Core} (hpad : ∀ c, (F c).scratch = c.scratch := by intro _; rfl) : BesideMemory s (modCore g F t) :=
  h.trans (besideMemory_modCore g F t hpad)
theorem BesideMemory.modFld {f : Nat} {F : Field → Field} : BesideMemory s (modFld f F t) := h.trans (besideMemory_modFld f F t)
/-- A change of memory, its errors or the aliased lines. -/
theorem BesideMemory.before {u : State} (hblocks : u.blocks = t.blocks := by rfl) (hrcbs : u.rcbs = t.rcbs := by rfl) (hcores : u.cores = t.cores := by rfl) :
    BesideMemory s u := h.trans (.of_eq hblocks hrcbs hcores)
end

/-- The frame of an operation that answers beside its state. -/
theorem BesideMemory.of_result {α : Type} {s t : State} {x : α × State} {a : α} (h : BesideMemory s x.2) (hx : x = (a, t)) : BesideMemory s t := by
  rw [hx] at h
  exact h

-- Homes (R138, R140-R142) -------------------------------------------------------------------------------------------

theorem besideMemory_aliasDrop (ln : Nat) (s : State) : BesideMemory s (aliasDrop ln s) := by
  unfold aliasDrop
  split
  · simp only
    split
    · exact .of_eq
    · refine BesideMemory.trans ?_ (aside_wakeLines ..).toBesideMemory
      refine BesideMemory.trans ?_ (aside_wakePchs ..).toBesideMemory
      split
      · exact .of_eq
      · exact BesideMemory.modFld .of_eq
  · exact .refl s
theorem besideMemory_aliasWay (f pa : Nat) (s : State) : BesideMemory s (aliasWay f pa s).2 := by
  unfold aliasWay
  simp only
  split
  · exact .refl s
  · exact (aside_freeW s).toBesideMemory.trans (BesideMemory.foldl (fun s (e : Nat × Line) => aliasDrop e.1 s) _ _ fun _ _ => besideMemory_aliasDrop ..)
theorem besideMemory_homeRead (ln : Nat) (s : State) : BesideMemory s (homeRead ln s).2 := by
  fun_cases homeRead ln s
  case case1 => exact .refl s
  case case2 f w o _ _ e n sb sn _ read t bad d p way u hway =>
    have hread : BesideMemory s t := ((aside_correctHome ..).trans ((aside_correctHome ..).trans (aside_wakePchs ..))).toBesideMemory
    have hkept : BesideMemory t u := by
      have hway : (aliasWay f (ln * 128) t).2 = u := congrArg Prod.snd hway
      exact hway ▸ besideMemory_aliasWay f (ln * 128) t
    exact (hread.trans hkept).before
  case case3 => exact ((aside_wakePch ..).trans (aside_correctHome ..)).toBesideMemory
theorem besideMemory_homeWrite (ln : Nat) (d : BitVec 1024) (m : BitVec 128) (s : State) : BesideMemory s (homeWrite ln d m s) := by
  unfold homeWrite
  split
  · exact .refl s
  · refine (aside_overtake ln m s).toBesideMemory.trans ?_
    simp only
    split
    · refine (besideMemory_homeRead ln _).trans ?_
      split <;> exact .of_eq
    · refine BesideMemory.trans ?_ (aside_wakeLine ..).toBesideMemory
      refine BesideMemory.trans ?_ (aside_wakePch ..).toBesideMemory
      exact .of_eq
theorem besideMemory_homePoison (ln : Nat) (p : BitVec 16) (m : BitVec 128) (s : State) : BesideMemory s (homePoison ln p m s) := by
  unfold homePoison
  simp only
  split
  · exact .refl s
  · split <;> exact .of_eq

-- Caches (R135, R139, R160-R166) ------------------------------------------------------------------------------------

theorem besideMemory_homeReq (w : Option Bool) (f ln : Nat) (s : State) : BesideMemory s (homeReq w f ln s) := (aside_homeReq ..).toBesideMemory
theorem besideMemory_perfAdd (f code : Nat) (core : Option Nat) (req : Option Bool) (n : Nat) (s : State) : BesideMemory s (perfAdd f code core req n s) :=
  (aside_perfAdd ..).toBesideMemory
theorem besideMemory_cleanRdc (f ln : Nat) (s : State) : BesideMemory s (cleanRdc f ln s) := by
  unfold cleanRdc
  split
  · exact .refl s
  · split
    · exact .refl s
    · refine BesideMemory.trans ?_ (besideMemory_homePoison ..)
      exact (besideMemory_homeReq ..).modFld.trans (besideMemory_homeWrite ..)
theorem besideMemory_rdcRoom (f ln : Nat) (s : State) : BesideMemory s (rdcRoom f ln s) := by
  unfold rdcRoom
  simp only
  split
  · exact .refl s
  · exact ((aside_freeW s).toBesideMemory.trans (besideMemory_cleanRdc ..)).modFld
theorem besideMemory_fldRead (w : Bool) (f ln : Nat) (need : BitVec 128) (s : State) : BesideMemory s (fldRead w f ln need s).2 := by
  have hread : ∀ u, BesideMemory s u → BesideMemory s (homeRead ln (homeReq (some w) f ln u)).2 := fun u hu =>
    hu.trans ((besideMemory_homeReq ..).trans (besideMemory_homeRead ..))
  unfold fldRead
  split
  · simp only
    split
    · exact .refl s
    · exact (hread _ (besideMemory_rdcRoom ..)).modFld.trans (besideMemory_perfAdd ..)
  · exact hread s (.refl s)
theorem besideMemory_fldWrite (w : Option Bool) (f ln : Nat) (d : BitVec 1024) (m : BitVec 128) (s : State) : BesideMemory s (fldWrite w f ln d m s) := by
  unfold fldWrite
  split
  · exact ((aside_overtake ..).toBesideMemory.trans (besideMemory_rdcRoom ..)).modFld
  · exact (besideMemory_homeReq ..).trans (besideMemory_homeWrite ..)
theorem besideMemory_cleanL1 (g ln : Nat) (s : State) : BesideMemory s (cleanL1 g ln s) := by
  unfold cleanL1
  split
  · exact .refl s
  · rename_i l _
    have hwrite : BesideMemory s (fldWrite none (fieldOf g) ln l.data l.dirty (Machine.modCore g (fun c => { c with l1 := putKept ln (cleaned l) c.l1 }) s)) :=
      (besideMemory_modCore ..).trans (besideMemory_fldWrite ..)
    split
    · exact .refl s
    · simp only
      split
      · exact hwrite.modFld
      · exact hwrite.trans (besideMemory_homePoison ..)
theorem besideMemory_l1Room (g ln : Nat) (s : State) : BesideMemory s (l1Room g ln s) := by
  unfold l1Room
  simp only
  split
  · exact .refl s
  · exact ((aside_freeW s).toBesideMemory.trans (besideMemory_cleanL1 ..)).modCore
theorem besideMemory_l1Read (w : Bool) (g ln : Nat) (need : BitVec 128) (ro : Bool) (s : State) : BesideMemory s (l1Read w g ln need ro s).2 := by
  unfold l1Read
  simp only
  split
  · exact .refl s
  · exact ((besideMemory_l1Room ..).trans (besideMemory_fldRead ..)).modCore.trans (besideMemory_perfAdd ..)
theorem besideMemory_l1Write (g ln : Nat) (d : BitVec 1024) (m : BitVec 128) (s : State) : BesideMemory s (l1Write g ln d m s) :=
  ((aside_overtake ..).toBesideMemory.trans (besideMemory_l1Room ..)).modCore
theorem besideMemory_flushL1 (g : Nat) (s : State) : BesideMemory s (flushL1 g s) := BesideMemory.foldl _ _ s fun s ln => besideMemory_cleanL1 g ln s
theorem besideMemory_flushRdc (f : Nat) (s : State) : BesideMemory s (flushRdc f s) := BesideMemory.foldl _ _ s fun s ln => besideMemory_cleanRdc f ln s
theorem besideMemory_release (g scope : Nat) (s : State) : BesideMemory s (release g scope s) := by
  unfold release
  simp only
  split
  · exact .refl s
  · split
    · exact besideMemory_flushL1 ..
    · exact (besideMemory_flushL1 ..).trans (besideMemory_flushRdc ..)
theorem besideMemory_acquire (g scope : Nat) (keep : Bool) (s : State) : BesideMemory s (acquire g scope keep s) := by
  unfold acquire
  simp only
  split
  · exact .refl s
  · split
    · exact besideMemory_modCore ..
    · exact (besideMemory_modCore g (fun c => { c with l1 := dropClean keep c.l1 }) s).modFld
theorem besideMemory_promote (g : Nat) (h : Option Nat) (s : State) : BesideMemory s (promote g h s) := by
  unfold promote
  split
  · exact .refl s
  · split
    · exact .refl s
    · refine BesideMemory.trans (BesideMemory.foldl _ _ s fun s c => ?_) (besideMemory_flushRdc ..)
      split
      · exact besideMemory_flushL1 ..
      · exact .refl s
/-- The write-backs of an order, and its invalidation (R151, R160, R161, R166). -/
theorem besideMemory_before (c : Ctx) (f : FmtM) (ls : List (LaneAt × Loc)) (s : State) : BesideMemory s (before c f ls s) := by
  have hrelease : BesideMemory s (if hasRel f then release c.g f.scope.toNat s else s) := by
    split
    · exact besideMemory_release ..
    · exact .refl s
  have hpromote : ∀ u, BesideMemory u (if hasProm f then ls.foldl (fun s x => match x.2 with | .g pa => promote c.g (homeOf pa) s | _ => s) u else u) := by
    intro u
    split
    · refine BesideMemory.foldl _ _ _ fun s x => ?_
      split
      · exact besideMemory_promote ..
      · exact .refl s
    · exact .refl u
  unfold before
  split
  · exact .refl s
  · exact hrelease.trans (hpromote _)
theorem besideMemory_after (c : Ctx) (f : FmtM) (ls : List (LaneAt × Loc)) (s : State) : BesideMemory s (after c f ls s) := by
  unfold after
  split
  · exact besideMemory_acquire ..
  · exact .refl s

-- Points of coherence (R150, R155, R163) ------------------------------------------------------------------------------

theorem besideMemory_readPast (g pt ln : Nat) (m : BitVec 128) (s : State) : BesideMemory s (readPast g pt ln m s) := by
  unfold readPast
  simp only
  split
  · exact besideMemory_modCore ..
  · exact (besideMemory_modCore g (fun c => { c with l1 := dropRead m ln c.l1 }) s).modFld
theorem besideMemory_readPoint (w : Bool) (g pt ln : Nat) (m : BitVec 128) (ro : Bool) (s : State) : BesideMemory s (readPoint w g pt ln m ro s).2 := by
  unfold readPoint
  split
  · exact besideMemory_l1Read ..
  · show BesideMemory s (readPast g 1 ln m (fldRead w (fieldOf g) ln m s).2)
    exact (besideMemory_fldRead ..).trans (besideMemory_readPast ..)
  · exact (besideMemory_homeReq ..).trans (besideMemory_homeRead ..)
  · show BesideMemory s (readPast g _ ln m (homeRead ln (homeReq (some w) (fieldOf g) ln s)).2)
    exact ((besideMemory_homeReq ..).trans (besideMemory_homeRead ..)).trans (besideMemory_readPast ..)
theorem besideMemory_writePoint (w : Bool) (g pt ln : Nat) (d : BitVec 1024) (m : BitVec 128) (s : State) : BesideMemory s (writePoint w g pt ln d m s) := by
  unfold writePoint
  split
  · exact besideMemory_l1Write ..
  · exact (besideMemory_fldWrite ..).modCore
  · exact ((besideMemory_homeReq ..).trans (besideMemory_homeWrite ..)).modFld.modCore
theorem besideMemory_pushBytes (g pt ln : Nat) (m : BitVec 128) (s : State) : BesideMemory s (pushBytes g pt ln m s) := by
  have hif : ∀ (p : Prop) [Decidable p] (u v : State), BesideMemory u v → BesideMemory u (if p then u else v) := by
    intro p _ u v h
    split
    · exact .refl u
    · exact h
  unfold pushBytes
  split
  · exact .refl s
  · simp only
    have hpushed := BesideMemory.modCore (g := g) (F := fun c => { c with l1 := dropBytes m ln c.l1 })
      (hif ((mget emptyLine (getCore s g).l1 ln).dirty &&& m = 0) s _ (besideMemory_fldWrite none (fieldOf g) ln (mget emptyLine (getCore s g).l1 ln).data
        ((mget emptyLine (getCore s g).l1 ln).dirty &&& m) s))
    split
    · exact hpushed
    · exact (hpushed.trans (hif _ _ _ ((besideMemory_homeReq ..).trans (besideMemory_homeWrite ..)))).modFld

-- Translation (R221-R227) -----------------------------------------------------------------------------------------------

theorem besideMemory_readPte (w : Bool) (fld : Option Nat) (pa : Nat) (s : State) : BesideMemory s (readPte w fld pa s).2 :=
  (aside_walkReq ..).toBesideMemory.trans (besideMemory_homeRead ..)
theorem besideMemory_walkKeep (fld : Option Nat) (root level : Nat) (va : DWord) (table : Nat) (s : State) : BesideMemory s (walkKeep fld root level va table s) := by
  cases fld with
  | none => exact .refl s
  | some f => exact .of_eq
theorem besideMemory_walkFrom (fld : Option Nat) (root : Nat) (sec : Bool) (va : DWord) (n table : Nat) (s : State) :
    BesideMemory s (walkFrom fld root sec va n table s).2 := by
  fun_induction walkFrom fld root sec va n table s
  case case1 | case3 => exact .refl _
  case case2 ih => exact ih
  case case4 | case5 | case6 | case7 | case8 | case10 => exact (besideMemory_readPte ..).of_result ‹_›
  case case9 hread _ _ _ _ _ _ ih => exact (((besideMemory_readPte ..).of_result hread).trans (besideMemory_walkKeep ..)).trans ih
theorem besideMemory_walk (fld : Option Nat) (root : Nat) (sec : Bool) (va : DWord) (s : State) : BesideMemory s (walk fld root sec va s).2 := by
  unfold walk
  split
  · exact .refl s
  · split
    · exact besideMemory_walkFrom ..
    · exact .refl s
theorem besideMemory_leafEntry (root level at_ : Nat) (pte va : DWord) (sec d : Bool) (s : State) : BesideMemory s (leafEntry root level at_ pte va sec d s).2 := by
  unfold leafEntry
  simp only
  split
  · split <;> exact besideMemory_homeRead ..
  · exact .refl s
theorem besideMemory_setTlb (a : Agent) (l : List TlbEntry) (s : State) : BesideMemory s (setTlb a l s) := by
  cases a with
  | core g => exact besideMemory_modCore g (fun c => { c with tlb := l }) s
  | ttu f => exact .of_eq
  | term => exact .of_eq
theorem besideMemory_translateWalk (ag : Agent) (root : Nat) (sec : Bool) (va : DWord) (acc : Nat) (s : State) :
    BesideMemory s (translateWalk ag root sec va acc s).2 := by
  fun_cases translateWalk ag root sec va acc s
  case case1 hwalk => exact (besideMemory_walk ..).of_result hwalk
  case case2 level at_ pte t hwalk _ _ _ _ pa _ _ pte' u e v hleaf _ =>
    have hmarked : BesideMemory t u := by
      show BesideMemory t (if _ then _ else _)
      split
      · exact .refl t
      · exact (aside_walkReq ..).toBesideMemory.trans (besideMemory_homeWrite ..)
    exact (((besideMemory_walk ..).of_result hwalk).trans (hmarked.trans ((besideMemory_leafEntry ..).of_result hleaf))).trans (besideMemory_setTlb ..)
  case case3 hwalk _ _ _ _ _ => exact (besideMemory_walk ..).of_result hwalk
theorem besideMemory_translate (ag : Agent) (root : Nat) (sec : Bool) (va : DWord) (acc : Nat) (s : State) : BesideMemory s (translate ag root sec va acc s).2 := by
  unfold translate
  split
  · split
    · exact besideMemory_translateWalk ..
    · exact .refl s
  · exact besideMemory_translateWalk ..
theorem besideMemory_ctlAccess (g b : Nat) (q : Req) (addr : Nat) (s : State) : BesideMemory s (ctlAccess g b q addr s).2 := by
  fun_cases ctlAccess g b q addr s
  case case1 htranslate _ _ _ => exact (besideMemory_translate ..).of_result htranslate
  case case2 | case3 | case4 => exact .refl s
theorem besideMemory_resolve (g b : Nat) (q : Req) (addr : Nat) (s : State) : BesideMemory s (resolve g b q addr s).2 := by
  fun_cases resolve g b q addr s
  case case3 htranslate => exact ((besideMemory_translate ..).of_result htranslate).trans (besideMemory_ctlAccess ..)
  case case2 | case4 | case5 | case6 | case7 | case8 => exact (besideMemory_translate ..).of_result ‹_›
  case case1 | case9 | case10 | case11 | case12 | case13 | case14 | case15 => exact .refl s
theorem besideMemory_resolveAll (g b : Nat) (q : Req) (ls : List LaneAt) (s : State) : BesideMemory s (resolveAll g b q ls s).2 := by
  induction ls generalizing s with
  | nil => exact .refl s
  | cons x ls ih => exact (besideMemory_resolve ..).trans (ih _)

-- Locations (R46, R125, R137) ---------------------------------------------------------------------------------------------

/-- Reads of a location, and of the lines that some lanes name. -/
theorem besideMemory_rdLoc (w : Bool) (g pt : Nat) (ro : Bool) (x : Loc) (n : Nat) (s : State) : BesideMemory s (rdLoc w g pt ro x n s).2 := by
  unfold rdLoc
  split
  · split
    · exact .refl s
    · exact besideMemory_readPoint ..
  · exact .refl s
  · exact .refl s
theorem besideMemory_readLines (w : Bool) (g pt : Nat) (ro : Bool) (l : List (Nat × BitVec 128)) (s : State) : BesideMemory s (readLines w g pt ro l s).2 := by
  induction l generalizing s with
  | nil => exact .refl s
  | cons x l ih => exact (besideMemory_readPoint ..).trans (ih _)
theorem aside_laneDraw (c : Ctx) (n : Nat) (xs : List (LaneAt × Loc)) (s : State) : Aside s (laneDraw c n xs s) := by
  unfold laneDraw
  split
  · exact .of_eq
  · exact .refl s
theorem besideMemory_laneReads (c : Ctx) (pt : Nat) (ro : Bool) (n : Nat) (xs : List (LaneAt × Loc)) (s : State) : BesideMemory s (laneReads c pt ro n xs s).2 :=
  (aside_laneDraw ..).toBesideMemory.trans (besideMemory_readLines ..)
theorem besideMemory_laneRead (c : Ctx) (pt : Nat) (ro : Bool) (x : LaneAt × Loc) (n : Nat) (s : State) : BesideMemory s (laneRead c pt ro x n s).2 :=
  (aside_laneDraw ..).toBesideMemory.trans (besideMemory_rdLoc ..)
/-- A write of memory, or of the control space. -/
theorem besideMemory_wrLoc_memory (w : Bool) (g pt p : Nat) (bs : List Byte) (s : State) : BesideMemory s (wrLoc w g pt (.g p) bs s) := by
  unfold wrLoc
  simp only
  split
  · exact .of_eq
  · exact besideMemory_writePoint ..
theorem regsKept_modCore (g : Nat) (F : Core → Core) (s : State) : RegsKept s (modCore g F s) := .of_eq
theorem regsKept_padWrites (l : List (Spot × Byte)) (s : State) : RegsKept s (padWrites l s) := by
  refine RegsKept.foldl _ l s fun s x => ?_
  split
  · exact (aside_overtake ..).toRegsKept.trans (regsKept_modCore ..)
  · exact .refl s
theorem aside_spotsClean (ps : List Spot) (s : State) : Aside s (spotsClean ps s) := by
  unfold spotsClean
  refine Aside.foldl _ ps s fun s p => ?_
  split
  · split
    · exact .refl s
    · split
      · exact aside_modCore ..
      · exact .refl s
  · exact .refl s
theorem besideMemory_modSlice (f i : Nat) (F : Slice → Slice) (s : State) : BesideMemory s (modSlice f i F s) := .of_eq
theorem regsKept_wrLoc (w : Bool) (g pt : Nat) (x : Loc) (bs : List Byte) (s : State) : RegsKept s (wrLoc w g pt x bs s) := by
  cases x with
  | g p => exact (besideMemory_wrLoc_memory ..).toRegsKept
  | sc ps =>
    rw [wrLoc_scratch]
    exact (regsKept_padWrites ..).trans (aside_spotsClean ..).toRegsKept
  | l off => exact RegsKept.foldl _ _ s fun s _ => (besideMemory_modSlice ..).toRegsKept
/-- Bytes that lie in no backing area undefine no register (R54). -/
theorem backingStore_none {root va n : Nat} {s : State} (h : ∀ i < n, backingAt s root (va + i) = none) : backingStore root va n s = s := by
  have hnone : (upto n).filterMap (fun i => backingAt s root (va + i)) = [] := List.filterMap_eq_nil_iff.2 fun i hi => h i (List.mem_range.1 hi)
  simp only [backingStore, hnone, List.eraseDups_nil, List.foldl_nil]
/-- A write of a lane, whatever its location, keeps registers where no backing area lies. -/
theorem regsKept_laneWrite (c : Ctx) (pt : Nat) (x : LaneAt × Loc) (n v : Nat) (s : State) (h : ∀ i < n, backingAt s (rootOf s c.blk) (x.1.2 + i) = none) :
    RegsKept s (laneWrite c pt x n v s) := by
  have hwrite := regsKept_wrLoc (secureOf s c.blk) c.g pt x.2 (toBytes n (BitVec.ofNat 128 v)) s
  unfold laneWrite
  simp only
  split
  · rw [backingStore_none fun i hi => ?_]
    · exact hwrite
    · rw [hwrite.roots]
      exact hwrite.backingAt_none (h i hi)
  · exact hwrite

end Sys2Proof.Machine
end

section
/-! Room in the caches (R1, R131, R137): the lines that a cache holds and those that are to come keep their number while lines come and go among them, so that nothing
is evicted. -/
namespace Sys2Proof.Machine
set_option Elab.async false -- Elaborating proofs side by side takes the memory of a thread for each.

-- Lines held and lines to come --------------------------------------------------------------------------------------

/-- The lines that a cache holds, and some lines beside. -/
def claimed {α : Type} (c : SMap α) (lns : List Nat) : Finset Nat := (mkeys c).toFinset ∪ lns.toFinset

theorem mem_mkeys_mput {α : Type} (c : SMap α) (i : Nat) (x : α) (j : Nat) : j ∈ mkeys (mput c i x) ↔ j = i ∨ j ∈ mkeys c := by
  induction c with
  | nil => simp [mput, mkeys]
  | cons e c ih =>
    obtain ⟨k, v⟩ := e
    simp only [mkeys] at ih ⊢
    simp only [mput]
    split
    · simp
    · split
      · rename_i hk
        simp [hk]
      · simp only [List.map_cons, List.mem_cons, ih]
        tauto
theorem mem_mkeys_mdel {α : Type} (c : SMap α) (i j : Nat) : j ∈ mkeys (mdel c i) ↔ j ≠ i ∧ j ∈ mkeys c := by
  simp only [mkeys, mdel, List.mem_map, List.mem_filter, bne_iff_ne]
  constructor
  · rintro ⟨e, ⟨he, hi⟩, rfl⟩
    exact ⟨hi, e, he, rfl⟩
  · rintro ⟨hj, e, he, rfl⟩
    exact ⟨e, ⟨he, hj⟩, rfl⟩
theorem mfind_isNone_iff {α : Type} (c : SMap α) (i : Nat) : (mfind c i).isNone = true ↔ i ∉ mkeys c := by
  induction c with
  | nil => simp [mfind, mkeys]
  | cons e c ih =>
    obtain ⟨k, v⟩ := e
    simp only [mkeys] at ih
    simp only [mfind, mkeys, List.map_cons, List.mem_cons, not_or]
    split
    · rename_i hk
      simp [hk]
    · rename_i hk
      rw [ih]
      exact ⟨fun h => ⟨Ne.symm hk, h⟩, And.right⟩

/-- In a set of a cache, the lines held and the new ones among some lines are the lines claimed. -/
theorem length_add_length_eq_card {α : Type} {c : SMap α} {lns : List Nat} (hc : rising c) (hlns : lns.Nodup) (p : Nat → Bool) :
    (c.filter (fun e => p e.1)).length + (lns.filter (fun x => p x && (mfind c x).isNone)).length = ((claimed c lns).filter (fun x => p x)).card := by
  have hkeys : (mkeys c).Nodup := (List.pairwise_map.2 hc).imp fun h => h.ne
  have hheld : (c.filter (fun e => p e.1)).length = ((mkeys c).filter p).length := by
    rw [mkeys, List.filter_map, List.length_map]
    rfl
  have hdisjoint : List.Disjoint ((mkeys c).filter p) (lns.filter (fun x => p x && (mfind c x).isNone)) := by
    intro x hx hx'
    simp only [List.mem_filter, Bool.and_eq_true, mfind_isNone_iff] at hx hx'
    exact hx'.2.2 hx.1
  have hset : (claimed c lns).filter (fun x => p x) = ((mkeys c).filter p ++ lns.filter (fun x => p x && (mfind c x).isNone)).toFinset := by
    ext x
    simp only [claimed, Finset.mem_filter, Finset.mem_union, List.mem_toFinset, List.mem_append, List.mem_filter, Bool.and_eq_true, mfind_isNone_iff]
    tauto
  rw [hset, List.toFinset_card_of_nodup ((hkeys.filter p).append (hlns.filter _) hdisjoint), List.length_append, hheld]

/-- The lines of a cache change among some lines only. -/
structure Steady {α : Type} (lns : List Nat) (c d : SMap α) : Prop where
  order   : rising c → rising d
  claimed : claimed d lns = claimed c lns

section
variable {α : Type} {lns : List Nat} {c d e : SMap α}
theorem Steady.refl (lns : List Nat) (c : SMap α) : Steady lns c c := ⟨id, rfl⟩
theorem Steady.of_eq (h : d = c) : Steady lns c d := h ▸ .refl lns c
theorem Steady.trans (h : Steady lns c d) (h' : Steady lns d e) : Steady lns c e := ⟨h'.order ∘ h.order, h'.claimed.trans h.claimed⟩
theorem steady_mput (c : SMap α) {ln : Nat} (hln : ln ∈ lns) (x : α) : Steady lns c (mput c ln x) := by
  refine ⟨pairwise_mput c ln x, ?_⟩
  ext j
  simp only [Machine.claimed, Finset.mem_union, List.mem_toFinset, mem_mkeys_mput]
  constructor
  · rintro ((rfl | h) | h)
    · exact .inr hln
    · exact .inl h
    · exact .inr h
  · exact Or.imp_left .inr
theorem steady_mdel (c : SMap α) {ln : Nat} (hln : ln ∈ lns) : Steady lns c (mdel c ln) := by
  refine ⟨fun h => h.filter _, ?_⟩
  ext j
  simp only [Machine.claimed, Finset.mem_union, List.mem_toFinset, mem_mkeys_mdel]
  constructor
  · exact Or.imp_left And.right
  · rintro (h | h)
    · by_cases hj : j = ln
      · exact .inr (hj ▸ hln)
      · exact .inl ⟨hj, h⟩
    · exact .inr h
end

section
variable {lns : List Nat} {ln : Nat} (hln : ln ∈ lns)
include hln
theorem steady_putKept (l : Line) (c : SMap Line) : Steady lns c (putKept ln l c) := by
  unfold putKept
  split
  · exact steady_mdel c hln
  · exact steady_mput c hln l
theorem steady_dropBytes (m : BitVec 128) (c : SMap Line) : Steady lns c (dropBytes m ln c) := by
  unfold dropBytes
  split
  · exact .refl lns c
  · exact steady_putKept hln ..
theorem steady_dropRead (m : BitVec 128) (c : SMap Line) : Steady lns c (dropRead m ln c) := by
  unfold dropRead
  split
  · exact .refl lns c
  · split
    · exact .refl lns c
    · exact steady_putKept hln ..
end

-- Caches with room ----------------------------------------------------------------------------------------------------

section
variable {g : Nat} {lns : List Nat} {s t : State}
/-- The set of the LLC that a line of a field lies in. -/
def sameView (f ln x : Nat) : Bool := homeOf (x * 128) == some f && llcSlice (x * 128) == llcSlice (ln * 128) && llcSet (x * 128) == llcSet (ln * 128)

/-- Room is a matter of the lines claimed in each cache, or each of its sets. -/
theorem roomy_iff (hlns : lns.Nodup) : Roomy g lns s ↔
    (rising (getCore s g).l1 ∧ rising (getFld s (fieldOf g)).rdc ∧ rising s.aliasLines) ∧
    (claimed (getCore s g).l1 lns).card ≤ 6144 ∧
    (∀ ln ∈ lns, ((claimed (getFld s (fieldOf g)).rdc lns).filter (fun x => rdcSet (x * 128) == rdcSet (ln * 128))).card ≤ 16) ∧
    ∀ ln ∈ lns, ∀ f, homeOf (ln * 128) = some f → ((claimed s.aliasLines lns).filter (fun x => sameView f ln x)).card ≤
      ((upto 16).filter (fun w => role (getSlice s f (llcSlice (ln * 128))).inForce w == 0)).length := by
  have hall : ∀ c : SMap Line, rising c → c.length + (lns.filter (fun x => (mfind c x).isNone)).length = (claimed c lns).card := fun c hc => by
    simpa using length_add_length_eq_card hc hlns fun _ => true
  constructor
  · rintro ⟨horder, hl1, hrdc, hviews⟩
    refine ⟨horder, hall _ horder.1 ▸ hl1, fun ln hln => ?_, fun ln hln f hf => ?_⟩
    · rw [← length_add_length_eq_card horder.2.1 hlns]
      exact hrdc ln hln
    · rw [← length_add_length_eq_card horder.2.2 hlns (sameView f ln)]
      exact hviews ln hln f hf
  · rintro ⟨horder, hl1, hrdc, hviews⟩
    refine ⟨horder, (hall _ horder.1).symm ▸ hl1, fun ln hln => ?_, fun ln hln f hf => ?_⟩
    · have hset := hrdc ln hln
      rw [← length_add_length_eq_card horder.2.1 hlns] at hset
      exact hset
    · have hset := hviews ln hln f hf
      rw [← length_add_length_eq_card horder.2.2 hlns (sameView f ln)] at hset
      exact hset

/-- Caches whose lines change among those that have room go on having room for them. -/
theorem Roomy.of_steady (hlns : lns.Nodup) (h : Roomy g lns s) (hl1 : Steady lns (getCore s g).l1 (getCore t g).l1)
    (hrdc : Steady lns (getFld s (fieldOf g)).rdc (getFld t (fieldOf g)).rdc) (hviews : Steady lns s.aliasLines t.aliasLines)
    (hforces : ∀ f i, (getSlice t f i).inForce = (getSlice s f i).inForce) : Roomy g lns t := by
  rw [roomy_iff hlns] at h ⊢
  obtain ⟨⟨hl1order, hrdcorder, hvieworder⟩, hcard⟩ := h
  simp only [hl1.claimed, hrdc.claimed, hviews.claimed, hforces]
  exact ⟨⟨hl1.order hl1order, hrdc.order hrdcorder, hviews.order hvieworder⟩, hcard⟩
end

-- Nothing is evicted --------------------------------------------------------------------------------------------------

section
variable {g : Nat} {lns : List Nat} {s : State} (h : Roomy g lns s) {ln : Nat} (hln : ln ∈ lns)
include h hln
theorem l1Room_roomy : l1Room g ln s = s := by
  refine if_pos ?_
  rw [Bool.or_eq_true, decide_eq_true_eq]
  by_cases hheld : (mfind (getCore s g).l1 ln).isSome = true
  · exact .inr hheld
  · have hnew : 0 < (lns.filter (fun x => (mfind (getCore s g).l1 x).isNone)).length := List.length_pos_of_mem (List.mem_filter.2 ⟨hln, by simpa using hheld⟩)
    have hl1 := h.l1
    exact .inl (by omega)
theorem rdcRoom_roomy : rdcRoom (fieldOf g) ln s = s := by
  refine if_pos ?_
  rw [Bool.or_eq_true, decide_eq_true_eq, mfind_filter_key _ (fun x => rdcSet (x * 128) == rdcSet (ln * 128)), if_pos (beq_self_eq_true _)]
  by_cases hheld : (mfind (getFld s (fieldOf g)).rdc ln).isSome = true
  · exact .inr hheld
  · have hnew : 0 < (lns.filter (fun x => rdcSet (x * 128) == rdcSet (ln * 128) && (mfind (getFld s (fieldOf g)).rdc x).isNone)).length :=
      List.length_pos_of_mem (List.mem_filter.2 ⟨hln, by simpa using hheld⟩)
    have hrdc := h.rdc ln hln
    simp only at hrdc
    exact .inl (by omega)
theorem aliasWay_roomy {f : Nat} (hf : homeOf (ln * 128) = some f) (hnew : mfind s.aliasLines ln = none) : (aliasWay f (ln * 128) s).2 = s := by
  have hfree : ((upto 16).filter (fun w => role (getSlice s f (llcSlice (ln * 128))).inForce w == 0)).find? (fun w => (aliasIn s f (ln * 128)).all (fun e => e.2.way != w)) ≠ none := by
    intro hnone
    have hused : (upto 16).filter (fun w => role (getSlice s f (llcSlice (ln * 128))).inForce w == 0) ⊆ (aliasIn s f (ln * 128)).map (fun e => e.2.way) := by
      intro w hw
      have hw := List.find?_eq_none.1 hnone w hw
      simpa using hw
    have hdistinct : ((upto 16).filter (fun w => role (getSlice s f (llcSlice (ln * 128))).inForce w == 0)).Nodup := List.nodup_range.filter _
    have hle := (List.subperm_of_subset hdistinct hused).length_le
    have hmine : 0 < (lns.filter (fun x => sameView f ln x && (mfind s.aliasLines x).isNone)).length :=
      List.length_pos_of_mem (List.mem_filter.2 ⟨hln, by simp [sameView, hf, hnew]⟩)
    have hviews := h.views ln hln f hf
    simp only at hviews
    rw [List.length_map] at hle
    unfold sameView at hmine
    omega
  unfold aliasWay
  simp only
  split
  · rfl
  · rename_i hnone
    exact absurd hnone hfree
end

end Sys2Proof.Machine
end

section
/-! What accesses to lines that the caches have room for leave of home memory (R135-R142, R150, R163): nothing is evicted, and only bytes that are written change. -/
namespace Sys2Proof.Machine
set_option Elab.async false -- Elaborating proofs side by side takes the memory of a thread for each.

/-- While the caches of a core, of its field and of the homes have room for some lines, they keep it, and home memory changes at the addresses of `W` alone. -/
structure Confined (g : Nat) (lns : List Nat) (W : Nat → Prop) (s t : State) : Prop where
  keeps : lns.Nodup → Roomy g lns s → Roomy g lns t ∧ ∀ a, ¬ W a → memGet t.mem a = memGet s.mem a

section
variable {g : Nat} {lns : List Nat} {W : Nat → Prop} {s t u : State}
theorem Confined.refl (s : State) : Confined g lns W s s := ⟨fun _ h => ⟨h, fun _ _ => rfl⟩⟩
theorem Confined.trans (h : Confined g lns W s t) (h' : Confined g lns W t u) : Confined g lns W s u := by
  refine ⟨fun hlns hroom => ?_⟩
  obtain ⟨hroomt, hmemt⟩ := h.keeps hlns hroom
  obtain ⟨hroomu, hmemu⟩ := h'.keeps hlns hroomt
  exact ⟨hroomu, fun a ha => (hmemu a ha).trans (hmemt a ha)⟩
theorem Confined.foldl {α : Type} (f : State → α → State) (l : List α) (s : State) (h : ∀ a ∈ l, ∀ s, Confined g lns W s (f s a)) : Confined g lns W s (l.foldl f s) := by
  induction l generalizing s with
  | nil => exact .refl s
  | cons a l ih => exact (h a List.mem_cons_self s).trans (ih _ fun b hb => h b (List.mem_cons_of_mem a hb))

-- Elementary changes ------------------------------------------------------------------------------------------------

theorem CachesKept.confined (h : CachesKept s t) : Confined g lns W s t :=
  ⟨fun hlns hroom => ⟨hroom.of_steady hlns (.of_eq (h.l1 g)) (.of_eq (h.rdc _)) (.of_eq h.views) h.forces, fun _ _ => by rw [h.mem]⟩⟩
theorem Aside.confined (h : Aside s t) : Confined g lns W s t := h.caches.confined
/-- Lines come and go in the L1, in the RDC and among the aliased lines. -/
theorem confined_l1 (F : SMap Line → SMap Line) (hF : ∀ c, Steady lns c (F c)) (s : State) : Confined g lns W s (modCore g (fun c => { c with l1 := F c.l1 }) s) := by
  refine ⟨fun hlns hroom => ⟨hroom.of_steady hlns ?_ (.refl ..) (.refl ..) fun _ _ => rfl, fun _ _ => rfl⟩⟩
  rw [getCore_modCore_same]
  exact hF _
theorem confined_rdc (F : SMap Line → SMap Line) (hF : ∀ c, Steady lns c (F c)) (s : State) :
    Confined g lns W s (modFld (fieldOf g) (fun k => { k with rdc := F k.rdc }) s) := by
  refine ⟨fun hlns hroom => ⟨hroom.of_steady hlns (.refl ..) ?_ (.refl ..) fun f i => ?_, fun _ _ => rfl⟩⟩
  · rw [getFld_modFld_same]
    exact hF _
  · rw [getSlice, getFld_modFld]
    split
    · rename_i e
      rw [e]
      rfl
    · rfl
theorem confined_views {c : SMap Line} (h : Steady lns s.aliasLines c) : Confined g lns W s { s with aliasLines := c } :=
  ⟨fun hlns hroom => ⟨hroom.of_steady hlns (.refl ..) (.refl ..) h fun _ _ => rfl, fun _ _ => rfl⟩⟩
theorem confined_mem {m : List Host.Cell} {e : List (Nat × Bool)} (h : ∀ a, ¬ W a → memGet m a = memGet s.mem a) : Confined g lns W s { s with mem := m, memErr := e } :=
  ⟨fun hlns hroom => ⟨hroom.of_steady hlns (.refl ..) (.refl ..) (.refl ..) fun _ _ => rfl, h⟩⟩

/-- Under the room that there is, a step may be taken for what it does with room. -/
theorem Confined.of_eq (h : Roomy g lns s → u = t) (ht : Confined g lns W s t) : Confined g lns W s u :=
  ⟨fun hlns hroom => h hroom ▸ ht.keeps hlns hroom⟩
end

-- Homes (R138, R141, R142) ----------------------------------------------------------------------------------------------

/-- The bytes of a mask lie in `W`. -/
def MaskIn (W : Nat → Prop) (ln : Nat) (m : BitVec 128) : Prop := ∀ k < 128, bit m k = true → W (ln * 128 + k)

section
variable {g : Nat} {lns : List Nat} {W : Nat → Prop} {ln : Nat} (hln : ln ∈ lns)
include hln
/-- With room, a read at the home at most adds an aliased line. -/
theorem homeRead_roomy {s : State} (hlns : lns.Nodup) (hroom : Roomy g lns s) : Aside s (homeRead ln s).2 ∨
    ∃ t l, Aside s t ∧ (∃ f w o, target (ln * 128) = .viewOf f w o) ∧ (homeRead ln s).2 = { t with aliasLines := mput t.aliasLines ln l } := by
  fun_cases homeRead ln s
  case case1 => exact .inl (.refl s)
  case case2 f w o htarget hnew e n sb sn _ read t bad d p way u hway =>
    have hread : Aside s t := (aside_correctHome ..).trans ((aside_correctHome ..).trans (aside_wakePchs ..))
    have htarget : target (ln * 128) = .viewOf f w o := htarget
    have hhome : homeOf (ln * 128) = some f := by simp only [homeOf, htarget]
    have hroomt : Roomy g lns t := (hread.confined (W := fun _ => False)).keeps hlns hroom |>.1
    have hsame : u = t := (congrArg Prod.snd hway).symm.trans (aliasWay_roomy hroomt hln hhome (hread.caches.views ▸ hnew))
    subst hsame
    exact .inr ⟨_, _, hread, ⟨f, w, o, htarget⟩, rfl⟩
  case case3 => exact .inl ((aside_wakePch ..).trans (aside_correctHome ..))
theorem confined_homeRead (s : State) : Confined g lns W s (homeRead ln s).2 := by
  refine ⟨fun hlns hroom => Confined.keeps ?_ hlns hroom⟩
  rcases homeRead_roomy hln hlns hroom with h | ⟨t, l, h, -, hread⟩
  · exact h.confined
  · rw [hread]
    exact h.confined.trans (confined_views (steady_mput _ hln l))
theorem confined_homeWrite (d : BitVec 1024) {m : BitVec 128} (hm : MaskIn W ln m) (s : State) : Confined g lns W s (homeWrite ln d m s) := by
  unfold homeWrite
  split
  · exact .refl s
  · refine (aside_overtake ln m s).confined.trans ?_
    simp only
    split
    · refine (confined_homeRead hln _).trans ?_
      split
      · exact confined_views (steady_mput _ hln _)
      · exact .refl _
    · refine Confined.trans ?_ (aside_wakeLine ..).confined
      refine Confined.trans ?_ (aside_wakePch ..).confined
      refine confined_mem fun a ha => ?_
      by_cases hin : ln * 128 ≤ a ∧ a < ln * 128 + 128
      · obtain ⟨k, rfl⟩ := Nat.exists_eq_add_of_le hin.1
        have hk : k < 128 := by omega
        have hclear : bit m k = false := Bool.eq_false_iff.2 fun hbit => ha (hm k hk hbit)
        rw [memGet_memPutMask_inside _ _ _ _ (by simpa [upto] using hk)]
        simp [upto, hclear]
      · exact memGet_memPutMask_outside _ _ _ _ (by simpa [upto] using hin)

-- Caches and points of coherence (R135, R139, R150, R163) -----------------------------------------------------------------

theorem confined_fldRead (w : Bool) (need : BitVec 128) (s : State) : Confined g lns W s (fldRead w (fieldOf g) ln need s).2 := by
  unfold fldRead
  split
  · simp only
    split
    · exact .refl s
    · refine Confined.trans (t := (homeRead ln (homeReq (some w) (fieldOf g) ln (rdcRoom (fieldOf g) ln s))).2) ?_ ?_
      · refine Confined.trans (.of_eq (fun hroom => rdcRoom_roomy hroom hln) (.refl s)) ?_
        exact (aside_homeReq ..).confined.trans (confined_homeRead hln _)
      · exact (confined_rdc (fun c => mput c ln _) (fun c => steady_mput c hln _) _).trans (aside_perfAdd ..).confined
  · exact (aside_homeReq ..).confined.trans (confined_homeRead hln _)
theorem confined_fldWrite (w : Option Bool) (d : BitVec 1024) {m : BitVec 128} (hm : MaskIn W ln m) (s : State) :
    Confined g lns W s (fldWrite w (fieldOf g) ln d m s) := by
  unfold fldWrite
  split
  · refine (aside_overtake ln m s).confined.trans ?_
    refine Confined.trans (.of_eq (fun hroom => rdcRoom_roomy hroom hln) (.refl _)) ?_
    exact confined_rdc (fun c => mput c ln (putLine (mget emptyLine c ln) d m)) (fun c => steady_mput c hln _) _
  · exact (aside_homeReq ..).confined.trans (confined_homeWrite hln d hm _)
theorem confined_l1Read (w : Bool) (need : BitVec 128) (ro : Bool) (s : State) : Confined g lns W s (l1Read w g ln need ro s).2 := by
  unfold l1Read
  simp only
  split
  · exact .refl s
  · refine Confined.trans (t := (fldRead w (fieldOf g) ln fullMask (l1Room g ln s)).2) ?_ ?_
    · exact Confined.trans (.of_eq (fun hroom => l1Room_roomy hroom hln) (.refl s)) (confined_fldRead hln ..)
    · exact (confined_l1 (fun c => mput c ln _) (fun c => steady_mput c hln _) _).trans (aside_perfAdd ..).confined
theorem confined_l1Write (d : BitVec 1024) (m : BitVec 128) (s : State) : Confined g lns W s (l1Write g ln d m s) := by
  refine (aside_overtake ln m s).confined.trans ?_
  refine Confined.trans (.of_eq (fun hroom => l1Room_roomy hroom hln) (.refl _)) ?_
  exact confined_l1 (fun c => mput c ln (putLine (mget emptyLine c ln) d m)) (fun c => steady_mput c hln _) _
theorem confined_readPast (pt : Nat) (m : BitVec 128) (s : State) : Confined g lns W s (readPast g pt ln m s) := by
  have hl1 := confined_l1 (g := g) (W := W) (dropRead m ln) (fun c => steady_dropRead hln m c) s
  unfold readPast
  simp only
  split
  · exact hl1
  · exact hl1.trans (confined_rdc (dropRead m ln) (fun c => steady_dropRead hln m c) _)
theorem confined_readPoint (w : Bool) (pt : Nat) (m : BitVec 128) (ro : Bool) (s : State) : Confined g lns W s (readPoint w g pt ln m ro s).2 := by
  have hhome : Confined g lns W s (homeRead ln (homeReq (some w) (fieldOf g) ln s)).2 := (aside_homeReq ..).confined.trans (confined_homeRead hln _)
  unfold readPoint
  split
  · exact confined_l1Read hln ..
  · show Confined g lns W s (readPast g 1 ln m (fldRead w (fieldOf g) ln m s).2)
    exact (confined_fldRead hln ..).trans (confined_readPast hln ..)
  · exact hhome
  · show Confined g lns W s (readPast g _ ln m (homeRead ln (homeReq (some w) (fieldOf g) ln s)).2)
    exact hhome.trans (confined_readPast hln ..)
theorem confined_writePoint (w : Bool) (pt : Nat) (d : BitVec 1024) {m : BitVec 128} (hm : MaskIn W ln m) (s : State) :
    Confined g lns W s (writePoint w g pt ln d m s) := by
  unfold writePoint
  split
  · exact confined_l1Write hln ..
  · exact (confined_fldWrite hln _ d hm s).trans (confined_l1 (dropBytes m ln) (fun c => steady_dropBytes hln m c) _)
  · exact (((aside_homeReq ..).confined.trans (confined_homeWrite hln d hm _)).trans (confined_rdc (dropBytes m ln) (fun c => steady_dropBytes hln m c) _)).trans
      (confined_l1 (dropBytes m ln) (fun c => steady_dropBytes hln m c) _)
theorem confined_pushBytes (pt : Nat) {m : BitVec 128} (hm : MaskIn W ln m) (s : State) : Confined g lns W s (pushBytes g pt ln m s) := by
  have hif : ∀ (p : Prop) [Decidable p] (u v : State), Confined g lns W u v → Confined g lns W u (if p then u else v) := by
    intro p _ u v h
    split
    · exact .refl u
    · exact h
  have hdirty : ∀ d : BitVec 128, MaskIn W ln (d &&& m) := fun d k hk hbit => hm k hk (by simp_all)
  unfold pushBytes
  split
  · exact .refl s
  · simp only
    have hpushed := fun u (hu : Confined g lns W s u) => hu.trans (confined_l1 (dropBytes m ln) (fun c => steady_dropBytes hln m c) u)
    have hbelow := fun u (hu : Confined g lns W s u) => hu.trans (confined_rdc (dropBytes m ln) (fun c => steady_dropBytes hln m c) u)
    have hl1 := hpushed _ (hif ((mget emptyLine (getCore s g).l1 ln).dirty &&& m = 0) _ _
      (confined_fldWrite hln none (mget emptyLine (getCore s g).l1 ln).data (hdirty (mget emptyLine (getCore s g).l1 ln).dirty) s))
    split
    · exact hl1
    · exact hbelow _ (hl1.trans (hif _ _ _ ((aside_homeReq ..).confined.trans (confined_homeWrite hln _ (hdirty _) _))))
end

end Sys2Proof.Machine
end

section
/-! Lanes whose lines the caches have room for (R46, R54, R163, R409): where a lane may write, and what its read, its write and its atomic leave of home memory. -/
namespace Sys2Proof.Machine
set_option Elab.async false -- Elaborating proofs side by side takes the memory of a thread for each.

-- The lines and the bytes of some accesses ------------------------------------------------------------------------------

theorem nodup_eraseDups (l : List Nat) : l.eraseDups.Nodup :=
  match l with
  | [] => by simp
  | a :: l => by
    rw [List.eraseDups_cons, List.nodup_cons, List.mem_eraseDups, List.mem_filter]
    exact ⟨by simp, nodup_eraseDups _⟩
termination_by l.length
decreasing_by exact Nat.lt_succ_of_le (List.length_filter_le ..)
theorem nodup_touched (xs : List (LaneAt × Loc)) (n : Nat) : (touched xs n).Nodup := nodup_eraseDups _
theorem line_mem_touched {xs : List (LaneAt × Loc)} {x : LaneAt × Loc} (hx : x ∈ xs) {p : Nat} (hp : x.2 = .g p) (n : Nat) : p / 128 ∈ touched xs n := by
  refine List.mem_eraseDups.2 (List.mem_flatMap.2 ⟨x, hx, ?_⟩)
  rw [hp]
  exact List.mem_cons_self
theorem of_bit_rangeMask {lo n k : Nat} (h : bit (rangeMask lo n) k = true) : lo ≤ k ∧ k < lo + n := by
  simp only [rangeMask, BitVec.getLsbD_ofNat, Nat.testBit_mul_two_pow, Nat.testBit_two_pow_sub_one, Bool.and_eq_true, decide_eq_true_eq] at h
  omega

/-- The line of a lane's access is among some lines, and its bytes in that line are in `W`. -/
def LaneIn (lns : List Nat) (W : Nat → Prop) (n : Nat) (x : LaneAt × Loc) : Prop := ∀ p, x.2 = .g p → p / 128 ∈ lns ∧ MaskIn W (p / 128) (rangeMask (p % 128) n)

/-- The accesses of an instruction lie in the lines they touch, and write where one of them lies. -/
theorem laneIn_touched {xs : List (LaneAt × Loc)} {x : LaneAt × Loc} (hx : x ∈ xs) (n : Nat) : LaneIn (touched xs n) (fun a => ¬ clearOf xs n a) n x := by
  refine fun p hp => ⟨line_mem_touched hx hp n, fun k _ hbit hclear => ?_⟩
  obtain ⟨hlo, hhi⟩ := of_bit_rangeMask hbit
  exact hclear x hx p hp (by omega)

-- Reads (R409) ------------------------------------------------------------------------------------------------------------

section
variable {g : Nat} {lns : List Nat} {W : Nat → Prop} {s : State}
theorem confined_readLines (w : Bool) (pt : Nat) (ro : Bool) {l : List (Nat × BitVec 128)} (hl : ∀ x ∈ l, x.1 ∈ lns) : Confined g lns W s (readLines w g pt ro l s).2 := by
  induction l generalizing s with
  | nil => exact .refl s
  | cons x l ih => exact (confined_readPoint (hl x List.mem_cons_self) ..).trans (ih fun y hy => hl y (List.mem_cons_of_mem x hy))
theorem laneLine_mem_touched {xs : List (LaneAt × Loc)} {n : Nat} {y : Nat × BitVec 128} (hy : y ∈ laneLines n xs) : y.1 ∈ touched xs n := by
  obtain ⟨ln, hln, rfl⟩ := List.mem_map.1 hy
  obtain ⟨x, hx, hline⟩ := List.mem_filterMap.1 (List.mem_eraseDups.1 hln)
  unfold laneLine at hline
  split at hline
  · rename_i p hp
    split at hline
    · cases hline
    · cases hline
      exact line_mem_touched hx hp n
  · cases hline
theorem confined_laneReads (c : Ctx) (pt : Nat) (ro : Bool) (n : Nat) (xs : List (LaneAt × Loc)) : Confined c.g (touched xs n) W s (laneReads c pt ro n xs s).2 :=
  (aside_laneDraw ..).confined.trans (confined_readLines _ _ _ fun _ => laneLine_mem_touched)
theorem confined_rdLoc (w : Bool) (pt : Nat) (ro : Bool) {x : LaneAt × Loc} {n : Nat} (hx : LaneIn lns W n x) : Confined g lns W s (rdLoc w g pt ro x.2 n s).2 := by
  obtain ⟨at_, loc⟩ := x
  cases loc with
  | g p =>
    have hread : Confined g lns W s (readPoint w g pt (p / 128) (rangeMask (p % 128) n) ro s).2 := confined_readPoint (hx p rfl).1 ..
    unfold rdLoc
    simp only
    split
    · exact .refl s
    · exact hread
  | sc ps => exact .refl s
  | l off => exact .refl s
end

-- Writes (R125, R137, R152, R168) -------------------------------------------------------------------------------------------

theorem cachesKept_modCore (g : Nat) (F : Core → Core) (s : State) (hl1 : ∀ c, (F c).l1 = c.l1) : CachesKept s (modCore g F s) := by
  refine ⟨rfl, rfl, fun g' => ?_, fun _ => rfl, fun _ _ => rfl⟩
  rw [getCore_modCore]
  split
  · rename_i e
    rw [hl1, e]
  · rfl
section
variable {α : Type} (f : State → α → State) (l : List α) (s : State)
theorem CachesKept.foldl (h : ∀ s a, CachesKept s (f s a)) : CachesKept s (l.foldl f s) := foldl_inv (CachesKept s) f l s (.refl s) fun a _ ht => ht.trans (h _ a)
end
theorem cachesKept_padWrites (l : List (Spot × Byte)) (s : State) : CachesKept s (padWrites l s) := by
  refine CachesKept.foldl _ l s fun s x => ?_
  split
  · exact (aside_overtake ..).caches.trans (cachesKept_modCore _ _ _ fun _ => rfl)
  · exact .refl s
/-- Bytes and errors of LLC scratch are no part of a cache. -/
theorem cachesKept_modSlice (f i : Nat) (F : Slice → Slice) (s : State) (hF : ∀ k, (F k).inForce = k.inForce) : CachesKept s (modSlice f i F s) := by
  have hfield : ∀ f', getFld (modSlice f i F s) f' = if f' = f then { getFld s f with slices := mput (getFld s f).slices i (F (getSlice s f i)) } else getFld s f' :=
    fun f' => getFld_modFld ..
  refine ⟨rfl, rfl, fun _ => rfl, fun f' => ?_, fun f' j => ?_⟩
  · rw [hfield]
    split
    · rename_i e
      rw [e]
    · rfl
  · rw [getSlice, hfield]
    split
    · rename_i e
      rw [mfind_mput, e]
      split
      · rename_i hj
        rw [Option.getD_some, hF, hj]
      · rfl
    · rfl
/-- A write of a scratchpad, of LLC scratch or of the control space leaves every cache as it is. -/
theorem cachesKept_wrLoc (w : Bool) (g pt : Nat) (x : Loc) (bs : List Byte) (s : State) (hx : ∀ p, x = .g p → ∃ o, target p = .ctl o) : CachesKept s (wrLoc w g pt x bs s) := by
  cases x with
  | g p =>
    obtain ⟨o, ho⟩ := hx p rfl
    simp only [wrLoc, ho]
    exact .of_eq
  | sc ps =>
    rw [wrLoc_scratch]
    exact (cachesKept_padWrites ..).trans (aside_spotsClean ..).caches
  | l off => exact CachesKept.foldl _ _ s fun s _ => cachesKept_modSlice _ _ _ _ fun _ => rfl
/-- A lane writes memory at its point, or leaves every cache as it is. -/
theorem laneWrite_cases (c : Ctx) (pt : Nat) (x : LaneAt × Loc) (n v : Nat) (s : State) : CachesKept s (laneWrite c pt x n v s) ∨
    ∃ p, x.2 = .g p ∧ CachesKept (writePoint (secureOf s c.blk) c.g pt (p / 128) (lineWith (toBytes n (BitVec.ofNat 128 v)) (p % 128)) (rangeMask (p % 128) n) s)
      (laneWrite c pt x n v s) := by
  have hwritten := (memoryKept_laneWrite (c := c) (x := x) pt n v s).cachesKept
  by_cases hmem : ∃ p, x.2 = .g p ∧ ∀ o, target p ≠ .ctl o
  · obtain ⟨p, hp, hctl⟩ := hmem
    rw [hp, wrLoc_memory _ _ _ _ _ hctl, length_toBytes] at hwritten
    exact .inr ⟨p, hp, hwritten⟩
  · refine .inl ((cachesKept_wrLoc _ _ _ _ _ _ fun p hp => ?_).trans hwritten)
    by_contra hctl
    exact hmem ⟨p, hp, fun o ho => hctl ⟨o, ho⟩⟩

section
variable {c : Ctx} {lns : List Nat} {W : Nat → Prop} {n : Nat} {x : LaneAt × Loc} (hx : LaneIn lns W n x)
include hx
theorem confined_laneRead (pt : Nat) (ro : Bool) (s : State) : Confined c.g lns W s (laneRead c pt ro x n s).2 :=
  (aside_laneDraw c n [x] s).confined.trans (confined_rdLoc (s := laneDraw c n [x] s) (secureOf (laneDraw c n [x] s) c.blk) pt ro hx)
theorem confined_laneWrite (pt v : Nat) (s : State) : Confined c.g lns W s (laneWrite c pt x n v s) := by
  rcases laneWrite_cases c pt x n v s with h | ⟨p, hp, h⟩
  · exact h.confined
  · obtain ⟨hln, hm⟩ := hx p hp
    exact (confined_writePoint hln _ _ _ hm s).trans h.confined
end

-- Atomics (R163, R415-R418) ----------------------------------------------------------------------------------------------------

/-- An atomic once its bytes have been pushed: it reads, and writes unless it has nothing to write. -/
def rmwAt (c : Ctx) (f : FmtM) (new : Nat → Nat → Option Nat) (x : LaneAt × Loc) (s : State) : Nat × State :=
  let r := laneRead c (pointOf f.scope.toNat) false x (widthOf f) s
  match new x.1.1.2 r.1 with
  | some v => if locThere x.2 then (r.1, laneWrite c (pointOf f.scope.toNat) x (widthOf f) v r.2) else (r.1, r.2)
  | none => (r.1, r.2)
theorem rmwAt_cases (c : Ctx) (f : FmtM) (new : Nat → Nat → Option Nat) (x : LaneAt × Loc) (s : State) :
    (rmwAt c f new x s).2 = (laneRead c (pointOf f.scope.toNat) false x (widthOf f) s).2 ∨
    ∃ v, (rmwAt c f new x s).2 = laneWrite c (pointOf f.scope.toNat) x (widthOf f) v (laneRead c (pointOf f.scope.toNat) false x (widthOf f) s).2 := by
  unfold rmwAt
  generalize laneRead c (pointOf f.scope.toNat) false x (widthOf f) s = r
  simp only
  split
  · split
    · exact .inr ⟨_, rfl⟩
    · exact .inl rfl
  · exact .inl rfl
/-- Dirty copies of an atomic's bytes go to its point first, where it lies in memory. -/
theorem rmw_cases (c : Ctx) (f : FmtM) (new : Nat → Nat → Option Nat) (x : LaneAt × Loc) (s : State) : rmw c f new x s = rmwAt c f new x s ∨
    ∃ p, x.2 = .g p ∧ rmw c f new x s = rmwAt c f new x (pushBytes c.g (pointOf f.scope.toNat) (p / 128) (rangeMask (p % 128) (widthOf f)) s) := by
  obtain ⟨l, p | ps | off⟩ := x
  · cases ht : target p with
    | ctl o =>
      left
      simp only [rmw, rmwAt, ht] <;> rfl
    | _ =>
      refine .inr ⟨p, rfl, ?_⟩
      simp only [rmw, rmwAt, ht] <;> rfl
  · exact .inl rfl
  · exact .inl rfl

theorem regsKept_rmw (c : Ctx) (f : FmtM) (new : Nat → Nat → Option Nat) (x : LaneAt × Loc) (s : State)
    (h : ∀ i < widthOf f, backingAt s (rootOf s c.blk) (x.1.2 + i) = none) : RegsKept s (rmw c f new x s).2 := by
  have hafter : ∀ u, RegsKept s u → RegsKept s (rmwAt c f new x u).2 := by
    intro u hu
    have hread := hu.trans (besideMemory_laneRead c (pointOf f.scope.toNat) false x (widthOf f) u).toRegsKept
    rcases rmwAt_cases c f new x u with e | ⟨v, e⟩ <;> rw [e]
    · exact hread
    · refine hread.trans (regsKept_laneWrite _ _ _ _ _ _ fun i hi => ?_)
      rw [hread.roots]
      exact hread.backingAt_none (h i hi)
  rcases rmw_cases c f new x s with e | ⟨p, -, e⟩ <;> rw [e]
  · exact hafter s (.refl s)
  · exact hafter _ (besideMemory_pushBytes ..).toRegsKept
theorem regsKept_rmws (c : Ctx) (f : FmtM) (new : Nat → Nat → Option Nat) (xs : List (LaneAt × Loc)) (s : State)
    (h : ∀ x ∈ xs, ∀ i < widthOf f, backingAt s (rootOf s c.blk) (x.1.2 + i) = none) : RegsKept s (rmws c f new xs s).2 := by
  induction xs generalizing s with
  | nil => exact .refl s
  | cons x xs ih =>
    have hone := regsKept_rmw c f new x s (h x List.mem_cons_self)
    refine hone.trans (ih _ fun y hy i hi => ?_)
    rw [hone.roots]
    exact hone.backingAt_none (h y (List.mem_cons_of_mem x hy) i hi)
section
variable {c : Ctx} {lns : List Nat} {W : Nat → Prop} {f : FmtM} (new : Nat → Nat → Option Nat)
theorem confined_rmw {x : LaneAt × Loc} (hx : LaneIn lns W (widthOf f) x) (s : State) : Confined c.g lns W s (rmw c f new x s).2 := by
  have hafter : ∀ u, Confined c.g lns W u (rmwAt c f new x u).2 := by
    intro u
    have hread := confined_laneRead (c := c) hx (pointOf f.scope.toNat) false u
    rcases rmwAt_cases c f new x u with e | ⟨v, e⟩ <;> rw [e]
    · exact hread
    · exact hread.trans (confined_laneWrite hx ..)
  rcases rmw_cases c f new x s with e | ⟨p, hp, e⟩ <;> rw [e]
  · exact hafter s
  · exact (confined_pushBytes (hx p hp).1 _ (hx p hp).2 s).trans (hafter _)
theorem confined_rmws {xs : List (LaneAt × Loc)} (hxs : ∀ x ∈ xs, LaneIn lns W (widthOf f) x) (s : State) : Confined c.g lns W s (rmws c f new xs s).2 := by
  induction xs generalizing s with
  | nil => exact .refl s
  | cons x xs ih => exact (confined_rmw new (hxs x List.mem_cons_self) s).trans (ih (fun y hy => hxs y (List.mem_cons_of_mem x hy)) _)
end

end Sys2Proof.Machine
end

section
/-! What a core sees of a byte that a store does not reach (R135, R139, R142, R153, R155): its copies in the caches and its place in home memory, under each kind of write. -/
namespace Sys2Proof.Machine
set_option Elab.async false -- Elaborating proofs side by side takes the memory of a thread for each.

-- Steps that keep a view ------------------------------------------------------------------------------------------------

/-- While an invariant holds it goes on holding, and a view of the state stays the same. -/
structure Keeps {α : Type} (I : State → Prop) (view : State → α) (s t : State) : Prop where
  keeps : I s → I t ∧ view t = view s

section
variable {α : Type} {I : State → Prop} {view : State → α} {s t u : State}
theorem Keeps.refl (s : State) : Keeps I view s s := ⟨fun h => ⟨h, rfl⟩⟩
theorem Keeps.trans (h : Keeps I view s t) (h' : Keeps I view t u) : Keeps I view s u := by
  refine ⟨fun hs => ?_⟩
  obtain ⟨ht, hview⟩ := h.keeps hs
  obtain ⟨hu, hview'⟩ := h'.keeps ht
  exact ⟨hu, hview'.trans hview⟩
theorem Keeps.foldl {β : Type} (f : State → β → State) (l : List β) (s : State) (h : ∀ x ∈ l, ∀ s, Keeps I view s (f s x)) : Keeps I view s (l.foldl f s) := by
  induction l generalizing s with
  | nil => exact .refl s
  | cons x l ih => exact (h x List.mem_cons_self s).trans (ih _ fun y hy => h y (List.mem_cons_of_mem x hy))
end

-- A byte in a cache -------------------------------------------------------------------------------------------------------

/-- The byte that a cache would answer with, where it has it. -/
def heldByte (c : SMap Line) (a : Nat) : Option Byte :=
  match mfind c (a / 128) with
  | some l => if bit l.valid (a % 128) then some (lineByte l.data (a % 128)) else none
  | none => none
/-- The copies of a byte in every L1, in every RDC and in the line of a window, and its place in home memory. -/
def byteCopies (a : Nat) (s : State) : (Nat → Option Byte) × (Nat → Option Byte) × Option Line × Byte :=
  (fun g => heldByte (getCore s g).l1 a, fun f => heldByte (getFld s f).rdc a, mfind s.aliasLines (a / 128), memGet s.mem a)

/-- A core sees one of the copies of a byte in its L1, in its field's RDC, in the line of a window and in home memory. -/
theorem coreByte_congr {s t : State} {g a : Nat} (hl1 : heldByte (getCore t g).l1 a = heldByte (getCore s g).l1 a)
    (hrdc : heldByte (getFld t (fieldOf g)).rdc a = heldByte (getFld s (fieldOf g)).rdc a) (hview : mfind t.aliasLines (a / 128) = mfind s.aliasLines (a / 128))
    (hmem : memGet t.mem a = memGet s.mem a) : coreByte t g a = coreByte s g a := by
  have hl1 : l1Byte t g a = l1Byte s g a := hl1
  have hrdc : rdcByte t (fieldOf g) a = rdcByte s (fieldOf g) a := hrdc
  simp only [coreByte, hl1, hrdc, hview, hmem]
theorem coreByte_of_byteCopies {s t : State} {a : Nat} (h : byteCopies a t = byteCopies a s) (g : Nat) : coreByte t g a = coreByte s g a := by
  simp only [byteCopies, Prod.mk.injEq, funext_iff] at h
  obtain ⟨hl1, hrdc, hview, hmem⟩ := h
  exact coreByte_congr (hl1 g) (hrdc _) hview hmem

/-- Bytes outside the mask come from the first line. -/
theorem lineByte_mergeBytes_other (a b : BitVec 1024) {m : BitVec 128} {i : Nat} (hi : i < 128) (hm : bit m i = false) : lineByte (mergeBytes a b m) i = lineByte a i := by
  unfold mergeBytes
  split
  · rename_i hfull
    rw [hfull] at hm
    simp [hi] at hm
  · refine BitVec.eq_of_getLsbD_eq fun j hj => ?_
    have hin : 8 * i + j < 1024 := by omega
    have hbyte : (8 * i + j) / 8 = i := by omega
    simp only [lineByte, BitVec.getLsbD_extractLsb', hj, hin, BitVec.getLsbD_or, BitVec.getLsbD_and, BitVec.getLsbD_not, getLsbD_byteMask m _ hin, hbyte, hm, Bool.not_false,
      Bool.and_false, Bool.and_true, Bool.or_false, decide_true, Bool.true_and]
/-- Other bytes written to a line leave a byte's copy in it. -/
theorem heldByte_putLine (c : SMap Line) {ln a : Nat} (d : BitVec 1024) {m : BitVec 128} (hm : a / 128 = ln → bit m (a % 128) = false) :
    heldByte (mput c ln (putLine (mget emptyLine c ln) d m)) a = heldByte c a := by
  by_cases hln : a / 128 = ln
  · subst hln
    have hclear := hm rfl
    simp only [heldByte, mfind_mput_same, putLine, BitVec.getLsbD_or, hclear, Bool.or_false, lineByte_mergeBytes_other _ _ (Nat.mod_lt a (by decide)) hclear, mget]
    cases mfind c (a / 128) with
    | none => simp [emptyLine]
    | some l => rfl
  · simp only [heldByte, mfind_mput_other _ _ _ _ hln]

-- Parts of 16 bytes that are there whole (R153) ---------------------------------------------------------------------------

theorem bit_foldl_rangeMask (ws : List Nat) (m : BitVec 128) (k : Nat) (hk : k < 128) :
    bit (ws.foldl (fun (m : BitVec 128) w => m ||| rangeMask (16 * w) 16) m) k = true ↔ bit m k = true ∨ k / 16 ∈ ws := by
  induction ws generalizing m with
  | nil => simp
  | cons w ws ih =>
    have hone : bit (rangeMask (16 * w) 16) k = true ↔ k / 16 = w := by
      constructor
      · intro h
        have := of_bit_rangeMask h
        omega
      · rintro rfl
        have hin := bit_rangeMask (16 * (k / 16)) 16 (k % 16) (by omega) (by omega)
        rwa [show 16 * (k / 16) + k % 16 = k by omega] at hin
    simp only [List.foldl_cons, ih, BitVec.getLsbD_or, Bool.or_eq_true, hone, List.mem_cons, or_assoc]
theorem mem_partsWhole (m : BitVec 128) (w : Nat) : w ∈ partsWhole m ↔ w < 8 ∧ ∀ i < 16, bit m (16 * w + i) = true := by
  have hall : nbits m (16 * w) 16 = 65535 ↔ ∀ i < 16, bit m (16 * w + i) = true := by
    have hones : nbits m (16 * w) 16 = 65535 ↔ m.extractLsb' (16 * w) 16 = BitVec.allOnes 16 := by
      rw [← BitVec.toNat_inj]
      rfl
    rw [hones]
    constructor
    · intro h i hi
      have hbit := congrArg (fun v => BitVec.getLsbD v i) h
      simpa only [BitVec.getLsbD_extractLsb', BitVec.getLsbD_allOnes, hi, decide_true, Bool.true_and] using hbit
    · intro h
      refine BitVec.eq_of_getLsbD_eq fun i hi => ?_
      simp only [BitVec.getLsbD_extractLsb', BitVec.getLsbD_allOnes, hi, h i hi, Bool.and_true]
  simp only [partsWhole, List.mem_filter, List.mem_range, beq_iff_eq, hall]
/-- A line may keep a byte that is dirty, and one of a part that is there whole. -/
theorem bit_keptBytes (l : Line) {k : Nat} (hk : k < 128) :
    bit (keptBytes l) k = true ↔ bit l.valid k = true ∧ (bit l.dirty k = true ∨ ∀ i < 16, bit l.valid (k / 16 * 16 + i) = true) := by
  have hpart : k / 16 < 8 := by omega
  simp only [keptBytes, BitVec.getLsbD_and, BitVec.getLsbD_or, Bool.and_eq_true, Bool.or_eq_true, bit_foldl_rangeMask _ _ _ hk, mem_partsWhole, hpart, true_and,
    BitVec.ofNat_eq_ofNat, BitVec.getLsbD_zero, Bool.false_eq_true, false_or, Nat.mul_comm (k / 16) 16]
theorem bit_keptBytes_of_bit {l : Line} (h : keptBytes l = l.valid) {k : Nat} (hk : k < 128) (hbit : bit l.valid k = true) :
    bit l.dirty k = true ∨ ∀ i < 16, bit l.valid (k / 16 * 16 + i) = true := ((bit_keptBytes l hk).1 (h ▸ hbit)).2
theorem keptBytes_eq_valid {l : Line} (h : ∀ k < 128, bit l.valid k = true → bit l.dirty k = true ∨ ∀ i < 16, bit l.valid (k / 16 * 16 + i) = true) : keptBytes l = l.valid := by
  refine BitVec.eq_of_getLsbD_eq fun k hk => Bool.eq_iff_iff.2 ?_
  rw [bit_keptBytes l hk]
  exact ⟨And.left, fun hbit => ⟨hbit, h k hk hbit⟩⟩
/-- A line that has given up the parts that are not whole has only whole ones. -/
theorem keptBytes_wholeWords (l : Line) : keptBytes (wholeWords l) = (wholeWords l).valid := by
  refine keptBytes_eq_valid fun k hk hbit => ?_
  obtain ⟨-, hdirty | hpart⟩ := (bit_keptBytes l hk).1 hbit
  · exact .inl hdirty
  · refine .inr fun i hi => (bit_keptBytes l (by omega)).2 ⟨hpart i hi, .inr ?_⟩
    rwa [show (k / 16 * 16 + i) / 16 = k / 16 by omega]
/-- Bytes written are dirty. -/
theorem keptBytes_putLine {l : Line} (d : BitVec 1024) (m : BitVec 128) (h : keptBytes l = l.valid) : keptBytes (putLine l d m) = (putLine l d m).valid := by
  refine keptBytes_eq_valid fun k hk hbit => ?_
  simp only [putLine, BitVec.getLsbD_or, Bool.or_eq_true] at hbit ⊢
  rcases hbit with hvalid | hm
  · rcases bit_keptBytes_of_bit h hk hvalid with hdirty | hpart
    · exact .inl (.inl hdirty)
    · exact .inr fun i hi => .inl (hpart i hi)
  · exact .inl (.inr hm)

/-- Of some lines a cache holds whole parts and dirty bytes alone. -/
def Whole (lns : List Nat) (c : SMap Line) : Prop := ∀ ln ∈ lns, ∀ l, mfind c ln = some l → keptBytes l = l.valid
theorem wholeLines_iff {g : Nat} {lns : List Nat} {s : State} : WholeLines g lns s ↔ Whole lns (getCore s g).l1 ∧ Whole lns (getFld s (fieldOf g)).rdc :=
  ⟨fun h => ⟨fun ln hln => (h ln hln).1, fun ln hln => (h ln hln).2⟩, fun h ln hln => ⟨h.1 ln hln, h.2 ln hln⟩⟩

section
variable {lns : List Nat} {c : SMap Line} (h : Whole lns c)
include h
theorem Whole.mput {ln : Nat} {l : Line} (hl : keptBytes l = l.valid) : Whole lns (mput c ln l) := by
  intro ln' hln' l' hl'
  rw [mfind_mput] at hl'
  split at hl'
  · cases hl'
    exact hl
  · exact h ln' hln' l' hl'
theorem Whole.mdel (ln : Nat) : Whole lns (mdel c ln) := by
  intro ln' hln' l' hl'
  rw [mfind_mdel] at hl'
  split at hl'
  · cases hl'
  · exact h ln' hln' l' hl'
theorem Whole.putLine {ln : Nat} (hln : ln ∈ lns) (d : BitVec 1024) (m : BitVec 128) : Whole lns (Machine.mput c ln (putLine (mget emptyLine c ln) d m)) := by
  refine h.mput (keptBytes_putLine d m ?_)
  rw [mget]
  cases hl : mfind c ln with
  | none => simp [keptBytes]
  | some l => exact h ln hln l hl
theorem Whole.dropBytes (m : BitVec 128) (ln : Nat) : Whole lns (dropBytes m ln c) := by
  unfold Machine.dropBytes
  split
  · exact h
  · unfold putKept
    split
    · exact h.mdel ln
    · exact h.mput (keptBytes_wholeWords _)
end

/-- No byte of the part that a byte lies in is in the mask. -/
def PartClear (a ln : Nat) (m : BitVec 128) : Prop := a / 128 = ln → ∀ i < 16, bit m (a % 128 / 16 * 16 + i) = false
theorem PartClear.bit {a ln : Nat} {m : BitVec 128} (h : PartClear a ln m) (hln : a / 128 = ln) : Machine.bit m (a % 128) = false := by
  have hself := h hln (a % 16) (by omega)
  rwa [show a % 128 / 16 * 16 + a % 16 = a % 128 by omega] at hself
theorem bit_and_not (v : BitVec 128) {m : BitVec 128} {k : Nat} (hk : k < 128) (hm : bit m k = false) : bit (v &&& ~~~m) k = bit v k := by
  simp only [BitVec.getLsbD_and, BitVec.getLsbD_not, hk, hm, decide_true, Bool.not_false, Bool.and_true]
/-- Bytes dropped from a line leave a byte's copy in it, where their parts are not its own. -/
theorem heldByte_dropBytes {lns : List Nat} {c : SMap Line} {ln a : Nat} {m : BitVec 128} (h : Whole lns c) (hln : ln ∈ lns) (hm : PartClear a ln m) :
    heldByte (dropBytes m ln c) a = heldByte c a := by
  unfold dropBytes
  split
  · rfl
  · rename_i l hl
    by_cases hline : a / 128 = ln
    · have hk : a % 128 < 128 := Nat.mod_lt a (by decide)
      have hvalid : bit (wholeWords { l with valid := l.valid &&& ~~~m, dirty := l.dirty &&& ~~~m, kept := false }).valid (a % 128) = bit l.valid (a % 128) := by
        have hself : bit l.valid (a % 128) = true ↔ bit l.valid (a % 128) = true ∧ (bit l.dirty (a % 128) = true ∨ ∀ i < 16, bit l.valid (a % 128 / 16 * 16 + i) = true) :=
          ⟨fun hbit => ⟨hbit, bit_keptBytes_of_bit (h ln hln l hl) hk hbit⟩, And.left⟩
        refine Bool.eq_iff_iff.2 ((bit_keptBytes _ hk).trans (Iff.trans ?_ hself.symm))
        simp only [bit_and_not _ hk (hm.bit hline)]
        refine and_congr_right fun _ => or_congr_right (forall₂_congr fun i hi => ?_)
        rw [bit_and_not _ (by omega) (hm hline i hi)]
      subst hline
      unfold putKept
      split
      · rename_i hempty
        have hnone : bit l.valid (a % 128) = false := by
          rw [← hvalid, hempty]
          simp
        simp only [heldByte, mfind_mdel, if_true, hl, hnone, Bool.false_eq_true, if_false]
      · simp only [heldByte, mfind_mput_same, hvalid, hl]
        rfl
    · unfold putKept
      split
      · simp only [heldByte, mfind_mdel, hline, if_false]
      · simp only [heldByte, mfind_mput_other _ _ _ _ hline]

end Sys2Proof.Machine
end

section
/-! What every core sees of the bytes that stores leave alone (R135, R139, R152, R153, R155). -/
namespace Sys2Proof.Machine
set_option Elab.async false -- Elaborating proofs side by side takes the memory of a thread for each.

-- Weak stores (R155) --------------------------------------------------------------------------------------------------------

/-- Some lines, each once, for which the caches have room. -/
def RoomFor (g : Nat) (lns : List Nat) (s : State) : Prop := lns.Nodup ∧ Roomy g lns s
theorem Confined.roomFor {g : Nat} {lns : List Nat} {W : Nat → Prop} {s t : State} (h : Confined g lns W s t) (hroom : RoomFor g lns s) : RoomFor g lns t :=
  ⟨hroom.1, (h.keeps hroom.1 hroom.2).1⟩
theorem CachesKept.coreByte {s t : State} (h : CachesKept s t) (g a : Nat) : Machine.coreByte t g a = Machine.coreByte s g a :=
  coreByte_congr (by rw [h.l1]) (by rw [h.rdc]) (by rw [h.views]) (by rw [h.mem])

/-- A write to an L1 leaves what another core sees, and what its core sees of the bytes not written. -/
theorem coreByte_l1Write {g g' ln a : Nat} {d : BitVec 1024} {m : BitVec 128} {lns : List Nat} {s : State} (hroom : Roomy g lns s) (hln : ln ∈ lns)
    (hm : g' = g → a / 128 = ln → bit m (a % 128) = false) (hlns : lns.Nodup) : coreByte (l1Write g ln d m s) g' a = coreByte s g' a := by
  have hover := (aside_overtake ln m s).caches
  have hroom' : Roomy g lns (overtake ln m s) := ((hover.confined (W := fun _ => False)).keeps hlns hroom).1
  unfold l1Write
  rw [l1Room_roomy hroom' hln, ← hover.coreByte g' a]
  refine coreByte_congr ?_ rfl rfl rfl
  rw [getCore_modCore]
  split
  · rename_i e
    subst e
    exact heldByte_putLine _ _ (hm rfl)
  · rfl
theorem keeps_weakStore {c : Ctx} {xs : List (LaneAt × Loc)} {n g a : Nat} {x : LaneAt × Loc} (hx : x ∈ xs) (ha : g = c.g → clearOf xs n a) (v : Nat) (s : State) :
    Keeps (RoomFor c.g (touched xs n)) (fun s => coreByte s g a) s (laneWrite c 0 x n v s) := by
  refine ⟨fun hroom => ⟨(confined_laneWrite (laneIn_touched hx n) 0 v s).roomFor hroom, ?_⟩⟩
  rcases laneWrite_cases c 0 x n v s with h | ⟨p, hp, h⟩
  · exact h.coreByte g a
  · refine (h.coreByte g a).trans (coreByte_l1Write hroom.2 (line_mem_touched hx hp n) (fun hg hline => Bool.eq_false_iff.2 fun hbit => ?_) hroom.1)
    obtain ⟨hlo, hhi⟩ := of_bit_rangeMask hbit
    exact ha hg x hx p hp (by omega)

-- Stores at any point (R152, R153) ------------------------------------------------------------------------------------------

/-- So that the caches hold whole parts and dirty bytes of them. -/
def WholeRoomFor (g : Nat) (lns : List Nat) (s : State) : Prop := RoomFor g lns s ∧ WholeLines g lns s

section
variable {g : Nat} {lns : List Nat} {a : Nat} {s t : State}
theorem CachesKept.keepsCopies (h : CachesKept s t) : Keeps (WholeRoomFor g lns) (byteCopies a) s t := by
  refine ⟨fun ⟨hroom, hwhole⟩ => ⟨⟨(h.confined (W := fun _ => False)).roomFor hroom, ?_⟩, ?_⟩⟩
  · rw [wholeLines_iff] at hwhole ⊢
    rwa [h.l1, h.rdc]
  · simp only [byteCopies, h.l1, h.rdc, h.views, h.mem]
theorem Aside.keepsCopies (h : Aside s t) : Keeps (WholeRoomFor g lns) (byteCopies a) s t := h.caches.keepsCopies
theorem keepsCopies_l1 (F : SMap Line → SMap Line) (hF : ∀ c, Steady lns c (F c)) (hwhole : ∀ c, Whole lns c → Whole lns (F c))
    (hheld : ∀ c, Whole lns c → heldByte (F c) a = heldByte c a) (s : State) :
    Keeps (WholeRoomFor g lns) (byteCopies a) s (modCore g (fun c => { c with l1 := F c.l1 }) s) := by
  refine ⟨fun ⟨hroom, hlines⟩ => ?_⟩
  obtain ⟨hl1, hrdc⟩ := wholeLines_iff.1 hlines
  refine ⟨⟨(confined_l1 (W := fun _ => False) F hF s).roomFor hroom, wholeLines_iff.2 ⟨?_, hrdc⟩⟩, ?_⟩
  · rw [getCore_modCore_same]
    exact hwhole _ hl1
  · have hcopy : ∀ g', heldByte (getCore (modCore g (fun c => { c with l1 := F c.l1 }) s) g').l1 a = heldByte (getCore s g').l1 a := by
      intro g'
      rw [getCore_modCore]
      split
      · rename_i e
        rw [e]
        exact hheld _ hl1
      · rfl
    simp only [byteCopies, hcopy]
    rfl
theorem keepsCopies_rdc (F : SMap Line → SMap Line) (hF : ∀ c, Steady lns c (F c)) (hwhole : ∀ c, Whole lns c → Whole lns (F c))
    (hheld : ∀ c, Whole lns c → heldByte (F c) a = heldByte c a) (s : State) :
    Keeps (WholeRoomFor g lns) (byteCopies a) s (modFld (fieldOf g) (fun k => { k with rdc := F k.rdc }) s) := by
  refine ⟨fun ⟨hroom, hlines⟩ => ?_⟩
  obtain ⟨hl1, hrdc⟩ := wholeLines_iff.1 hlines
  refine ⟨⟨(confined_rdc (W := fun _ => False) F hF s).roomFor hroom, wholeLines_iff.2 ⟨hl1, ?_⟩⟩, ?_⟩
  · rw [getFld_modFld_same]
    exact hwhole _ hrdc
  · have hcopy : ∀ f, heldByte (getFld (modFld (fieldOf g) (fun k => { k with rdc := F k.rdc }) s) f).rdc a = heldByte (getFld s f).rdc a := by
      intro f
      rw [getFld_modFld]
      split
      · rename_i e
        rw [e]
        exact hheld _ hrdc
      · rfl
    simp only [byteCopies, hcopy]
    rfl
theorem keepsCopies_views {ln : Nat} (hln : ln ∈ lns) (ha : a / 128 ≠ ln) (l : Line) :
    Keeps (WholeRoomFor g lns) (byteCopies a) s { s with aliasLines := mput s.aliasLines ln l } := by
  refine ⟨fun ⟨hroom, hlines⟩ => ⟨⟨(confined_views (W := fun _ => False) (steady_mput _ hln l)).roomFor hroom, hlines⟩, ?_⟩⟩
  simp only [byteCopies, mfind_mput_other _ _ _ _ ha]
  rfl
theorem keepsCopies_mem {m : List Host.Cell} {e : List (Nat × Bool)} (h : memGet m a = memGet s.mem a) :
    Keeps (WholeRoomFor g lns) (byteCopies a) s { s with mem := m, memErr := e } := by
  refine ⟨fun ⟨hroom, hlines⟩ => ⟨⟨(confined_mem (W := fun x => memGet m x ≠ memGet s.mem x) fun x hx => not_not.1 hx).roomFor hroom, hlines⟩, ?_⟩⟩
  simp only [byteCopies, h]
  rfl
end

/-- An address shows through a window by its bits from 46 up (R128). -/
theorem target_view_iff (pa : Nat) : (∃ f w o, target pa = .viewOf f w o) ↔
    ¬ 2 ^ 52 ≤ pa ∧ ¬ pa / 2 ^ 51 = 1 ∧ pa / 2 ^ 48 % 8 = 0 ∧ pa / 2 ^ 47 % 2 = 1 ∧ pa / 2 ^ 46 % 2 = 0 := by
  unfold target
  split
  · exact ⟨by simp, fun h => absurd ‹_› h.1⟩
  · split
    · simp_all
    · split
      · simp_all
      · split
        · split <;> simp_all
        · split <;> simp_all
/-- The bytes of a line lie in a window together. -/
theorem target_line {a f w o : Nat} (h : target (a / 128 * 128) = .viewOf f w o) : ∃ f w o, target a = .viewOf f w o := by
  rw [target_view_iff]
  have hline := (target_view_iff _).1 ⟨f, w, o, h⟩
  omega

section
variable {g : Nat} {lns : List Nat} {ln a : Nat} {m : BitVec 128} (hln : ln ∈ lns) (hm : PartClear a ln m)
include hln hm
theorem keepsCopies_dropL1 (s : State) : Keeps (WholeRoomFor g lns) (byteCopies a) s (modCore g (fun c => { c with l1 := dropBytes m ln c.l1 }) s) :=
  keepsCopies_l1 (dropBytes m ln) (fun c => steady_dropBytes hln m c) (fun _ hc => hc.dropBytes m ln) (fun _ hc => heldByte_dropBytes hc hln hm) s
theorem keepsCopies_dropRdc (s : State) : Keeps (WholeRoomFor g lns) (byteCopies a) s (modFld (fieldOf g) (fun k => { k with rdc := dropBytes m ln k.rdc }) s) :=
  keepsCopies_rdc (dropBytes m ln) (fun c => steady_dropBytes hln m c) (fun _ hc => hc.dropBytes m ln) (fun _ hc => heldByte_dropBytes hc hln hm) s
theorem keepsCopies_l1Write (d : BitVec 1024) (s : State) : Keeps (WholeRoomFor g lns) (byteCopies a) s (l1Write g ln d m s) := by
  refine (aside_overtake ln m s).keepsCopies.trans ⟨fun h => ?_⟩
  rw [l1Write, l1Room_roomy h.1.2 hln]
  exact (keepsCopies_l1 (fun c => mput c ln (putLine (mget emptyLine c ln) d m)) (fun c => steady_mput c hln _) (fun _ hc => hc.putLine hln d m)
    (fun c _ => heldByte_putLine c d hm.bit) _).keeps h
end

section
variable {g : Nat} {lns : List Nat} {ln a : Nat} (hln : ln ∈ lns) (ha : ∀ f w o, target a ≠ .viewOf f w o)
include hln ha
theorem keepsCopies_homeRead (s : State) : Keeps (WholeRoomFor g lns) (byteCopies a) s (homeRead ln s).2 := by
  refine ⟨fun h => Keeps.keeps ?_ h⟩
  rcases homeRead_roomy hln h.1.1 h.1.2 with hread | ⟨t, l, hread, ⟨f, w, o, hview⟩, e⟩
  · exact hread.keepsCopies
  · rw [e]
    refine hread.keepsCopies.trans (keepsCopies_views hln ?_ l)
    rintro rfl
    obtain ⟨f', w', o', hself⟩ := target_line hview
    exact ha f' w' o' hself

variable {m : BitVec 128} (hm : PartClear a ln m)
include hm
theorem keepsCopies_homeWrite (d : BitVec 1024) (s : State) : Keeps (WholeRoomFor g lns) (byteCopies a) s (homeWrite ln d m s) := by
  unfold homeWrite
  split
  · exact .refl s
  · refine (aside_overtake ln m s).keepsCopies.trans ?_
    simp only
    split
    · rename_i f w o hview
      have hline : a / 128 ≠ ln := by
        rintro rfl
        obtain ⟨f', w', o', hself⟩ := target_line hview
        exact ha f' w' o' hself
      refine (keepsCopies_homeRead hln ha _).trans ?_
      split
      · exact keepsCopies_views hln hline _
      · exact .refl _
    · refine Keeps.trans ?_ (aside_wakeLine ..).keepsCopies
      refine Keeps.trans ?_ (aside_wakePch ..).keepsCopies
      refine keepsCopies_mem ?_
      by_cases hin : ln * 128 ≤ a ∧ a < ln * 128 + 128
      · have hline : a / 128 = ln := by omega
        have hk : a % 128 < 128 := Nat.mod_lt a (by decide)
        have haddr : a = ln * 128 + a % 128 := by omega
        rw [haddr, memGet_memPutMask_inside _ _ _ _ (by simpa [upto] using hk)]
        simp [upto, hm.bit hline]
      · exact memGet_memPutMask_outside _ _ _ _ (by simpa [upto] using hin)
theorem keepsCopies_fldWrite (w : Option Bool) (d : BitVec 1024) (s : State) : Keeps (WholeRoomFor g lns) (byteCopies a) s (fldWrite w (fieldOf g) ln d m s) := by
  unfold fldWrite
  split
  · refine (aside_overtake ln m s).keepsCopies.trans ⟨fun h => ?_⟩
    rw [rdcRoom_roomy h.1.2 hln]
    exact (keepsCopies_rdc (fun c => mput c ln (putLine (mget emptyLine c ln) d m)) (fun c => steady_mput c hln _) (fun _ hc => hc.putLine hln d m)
      (fun c _ => heldByte_putLine c d hm.bit) _).keeps h
  · exact (aside_homeReq ..).keepsCopies.trans (keepsCopies_homeWrite hln ha hm d _)
theorem keepsCopies_writePoint (w : Bool) (pt : Nat) (d : BitVec 1024) (s : State) : Keeps (WholeRoomFor g lns) (byteCopies a) s (writePoint w g pt ln d m s) := by
  unfold writePoint
  split
  · exact keepsCopies_l1Write hln hm d s
  · exact (keepsCopies_fldWrite hln ha hm _ d s).trans (keepsCopies_dropL1 hln hm _)
  · exact (((aside_homeReq ..).keepsCopies.trans (keepsCopies_homeWrite hln ha hm d _)).trans (keepsCopies_dropRdc hln hm _)).trans (keepsCopies_dropL1 hln hm _)
end

/-- A store that lies on no byte of a byte's part leaves its copies. -/
theorem keeps_store {c : Ctx} {xs : List (LaneAt × Loc)} {n a : Nat} {x : LaneAt × Loc} (hx : x ∈ xs) (ha : ∀ f w o, target a ≠ .viewOf f w o)
    (hclear : ∀ i < 16, clearOf xs n (a / 16 * 16 + i)) (pt v : Nat) (s : State) :
    Keeps (WholeRoomFor c.g (touched xs n)) (byteCopies a) s (laneWrite c pt x n v s) := by
  rcases laneWrite_cases c pt x n v s with h | ⟨p, hp, h⟩
  · exact h.keepsCopies
  · refine (keepsCopies_writePoint (line_mem_touched hx hp n) ha (fun hline i hi => Bool.eq_false_iff.2 fun hbit => ?_) ..).trans h.keepsCopies
    obtain ⟨hlo, hhi⟩ := of_bit_rangeMask hbit
    exact hclear i hi x hx p hp (by omega)

end Sys2Proof.Machine
end

section
/-! What loads, stores and atomics leave alone (R411-R418). -/
namespace Sys2Proof.Machine
set_option Elab.async false -- Elaborating proofs side by side takes the memory of a thread for each.

-- Destinations of loads and atomics (R319, R405) --------------------------------------------------------------------------------

theorem dataN_pos (f : FmtM) : 0 < dataN f := by
  unfold dataN
  split <;> decide
section
variable {i : Instr} {f : FmtM} {c : Ctx} {s : State}
theorem namesDest_data (hreg : isR f.data = true) (hw : (shape i).writes = useOf f.data (dataN f)) : NamesDest i f.data (dataN f) := by
  have hn : (dataN f != 0) = true := bne_iff_ne.2 (Nat.ne_of_gt (dataN_pos f))
  exact .inr ⟨{ spec := f.data, n := dataN f }, by simp [hw, useOf, hreg, hn], rfl, le_rfl⟩
theorem isR_of_isV {spec : BitVec 9} (h : isV spec = true) : isR spec = true := by rw [isR, h, Bool.true_or]
theorem isR_of_isS {spec : BitVec 9} (h : isS spec = true) : isR spec = true := by rw [isR, h, Bool.or_true]
theorem namesDest_ld (h : Issues (.ld f) s c) : NamesDest (.ld f) f.data (dataN f) := by
  obtain ⟨-, hlegal⟩ := Bool.and_eq_true_iff.1 (shape_legal h.ready.lawful)
  simp only [Bool.and_eq_true] at hlegal
  obtain ⟨⟨-, hv⟩, -⟩ := hlegal
  exact namesDest_data (isR_of_isV hv) rfl
theorem namesDest_ldx (h : Issues (.ldx f) s c) : NamesDest (.ldx f) f.data (dataN f) := by
  obtain ⟨-, hlegal⟩ := Bool.and_eq_true_iff.1 (shape_legal h.ready.lawful)
  simp only [Bool.and_eq_true] at hlegal
  obtain ⟨⟨-, hs⟩, -⟩ := hlegal
  exact namesDest_data (isR_of_isS hs) rfl
theorem namesDest_atom (h : Issues (.atom f) s c) : NamesDest (.atom f) f.data (dataN f) := by
  obtain ⟨-, hlegal⟩ := Bool.and_eq_true_iff.1 (shape_legal h.ready.lawful)
  simp only [Bool.and_eq_true] at hlegal
  obtain ⟨⟨⟨⟨-, hv⟩, -⟩, -⟩, -⟩ := hlegal
  exact namesDest_data (isR_of_isV hv) rfl
theorem namesDest_cas (h : Issues (.cas f) s c) : NamesDest (.cas f) f.data (dataN f) := by
  obtain ⟨-, hlegal⟩ := Bool.and_eq_true_iff.1 (shape_legal h.ready.lawful)
  simp only [Bool.and_eq_true] at hlegal
  obtain ⟨⟨⟨⟨-, hv⟩, -⟩, -⟩, -⟩ := hlegal
  exact namesDest_data (isR_of_isV hv) rfl
/-- Values go to the word's destination, of active threads. -/
theorem onlyRegs_deliverVals (vs : List (Nat × Nat)) (he : c.entry = none) (hdest : NamesDest i f.data (dataN f)) :
    OnlyRegs c.blk (destRegs i c) s (deliverVals c f vs s) := by
  unfold deliverVals
  rcases hdest with hnull | hdest
  · rw [hnull, writeLanes_null]
    exact .refl ..
  · exact onlyRegs_writeLanes { c with active := _, all := [] } _ _ _ _ he fun l hl num hlo hhi =>
      destRegs_of_namesDest hdest ⟨l, (List.mem_filter.1 hl).1, rfl⟩ hlo hhi
end

-- What follows an access (R71, R92, R160) ---------------------------------------------------------------------------------------

theorem mem_after (c : Ctx) (f : FmtM) (xs : List (LaneAt × Loc)) (s : State) : (after c f xs s).mem = s.mem := by
  unfold after acquire
  split
  · simp only
    split
    · rfl
    · split <;> rfl
  · rfl
section
variable {i : Instr} {c : Ctx} {f : FmtM} {xs : List (LaneAt × Loc)} {s u v : State}
theorem onlyRegs_issued_unshadowed {D : Nat → Nat → Prop} (c : Ctx) (s t : State) (h : shadowed i = false) : OnlyRegs c.blk D t (issued i c s t) := by
  unfold issued
  rw [shadowIssue_unshadowed c _ h]
  exact (onlyRegs_noteOuts i c _ _ _ t rfl).trans (onlyRegs_advance c _)
/-- Every register but the word's destinations is as it was. -/
def OthersStay (i : Instr) (c : Ctx) (s t : State) : Prop := ∀ b r num, ¬(b = c.blk ∧ destRegs i c r num) → regAt t b r num = regAt s b r num
theorem mem_delivered (hshadow : shadowed i = false) (h : OnlyRegs c.blk (destRegs i c) u v) : (issued i c s (after c f xs v)).mem = u.mem := by
  obtain ⟨hissued, -⟩ := memoryKept_issued c s (after c f xs v) hshadow
  obtain ⟨hwritten, -⟩ := h.memory
  exact (hissued.trans (mem_after ..)).trans hwritten
theorem othersStay_delivered (hshadow : shadowed i = false) (hstart : RegsKept s u) (h : OnlyRegs c.blk (destRegs i c) u v) :
    OthersStay i c s (issued i c s (after c f xs v)) := by
  intro b r num hother
  rw [(onlyRegs_issued_unshadowed (D := destRegs i c) c s (after c f xs v) hshadow).regs b r num hother, (besideMemory_after ..).regs, h.regs b r num hother, hstart.regs]
/-- Translation, checks and the write-backs of the order write no register and no pad. -/
theorem besideMemory_reached {q : Req} {lanes : List LaneAt} {s' : State} (h : Reaches c q lanes s xs s') : BesideMemory s (before c f xs s') := by
  obtain ⟨-, -, hresolve⟩ := h
  exact (BesideMemory.of_result (besideMemory_resolveAll ..) hresolve).trans (besideMemory_before ..)
end

-- Loads (R411, R412) ------------------------------------------------------------------------------------------------------------

section
variable {f : FmtM} {c : Ctx} {xs : List (LaneAt × Loc)} {s s' : State}
/-- What a load leaves of memory and registers, delivered in either way. -/
theorem load_frame {i : Instr} {q : Req} {lanes : List LaneAt} {pt : Nat} {ro : Bool} {v : State} (hshadow : shadowed i = false) (hreach : Reaches c q lanes s xs s')
    (hroom : Roomy c.g (touched xs (widthOf f)) (before c f xs s'))
    (hv : OnlyRegs c.blk (destRegs i c) (laneReads c pt ro (widthOf f) xs (before c f xs s')).2 v) :
    (∀ a, memGet (issued i c s (after c f xs v)).mem a = memGet (before c f xs s').mem a) ∧ OthersStay i c s (issued i c s (after c f xs v)) := by
  refine ⟨fun a => ?_, othersStay_delivered hshadow ((besideMemory_reached hreach).toRegsKept.trans (besideMemory_laneReads ..).toRegsKept) hv⟩
  rw [mem_delivered hshadow hv]
  exact ((confined_laneReads (W := fun _ => False) c pt ro _ xs).keeps (nodup_touched ..) hroom).2 a id
/-- What a load does where its accesses resolve: the promotion of its order, its reads, and their values delivered. -/
def loadLanes (f : FmtM) (c : Ctx) (ls : List (LaneAt × Loc)) (s : State) : State :=
  let r := laneReads c (loadReq f).pt (f.hint == 1) (widthOf f) ls (before c f ls s)
  after c f ls (deliverVals c f r.1 r.2)
/-- The same of `ldx`, whose value goes to every active thread. -/
def loadOneLane (f : FmtM) (c : Ctx) (ls : List (LaneAt × Loc)) (s : State) : State :=
  match laneReads c (loadReq f).pt (f.hint == 1) (widthOf f) ls (before c f ls s) with
  | ((_, v) :: _, s) => after c f ls (writeLanes c f.data (dataN f) (fun _ => v) s)
  | ([], s) => s
theorem effLd_reached (he : c.entry = none) (hreach : Reaches c (loadReq f) (laneAddrs c (addrM c f)) s xs s') : effLd f c s = .done (loadLanes f c xs s') :=
  accessLanes_reaches (loadLanes f c) he hreach
theorem effLdx_reached (he : c.entry = none) (hreach : Reaches c (loadReq f) ((laneAddrs c (addrM c f)).take 1) s xs s') :
    effLdx f c s = .done (loadOneLane f c xs s') :=
  accessLanes_reaches (loadOneLane f c) he hreach
theorem ld_frame (h : Issues (.ld f) s c) (hreach : Reaches c (loadReq f) (laneAddrs c (addrM c f)) s xs s') (hroom : Roomy c.g (touched xs (widthOf f)) (before c f xs s')) :
    ∃ t, exec (.ld f) s = .next t ∧ (∀ a, memGet t.mem a = memGet (before c f xs s').mem a) ∧ OthersStay (.ld f) c s t :=
  ⟨_, issueM_next h (effLd_reached (context_entry h.here) hreach), load_frame rfl hreach hroom (onlyRegs_deliverVals _ (context_entry h.here) (namesDest_ld h))⟩
theorem loadOneLane_writes {i : Instr} (he : c.entry = none) (hdest : NamesDest i f.data (dataN f)) :
    ∃ v, loadOneLane f c xs s = after c f xs v ∧ OnlyRegs c.blk (destRegs i c) (laneReads c (loadReq f).pt (f.hint == 1) (widthOf f) xs (before c f xs s)).2 v := by
  cases xs with
  | nil => exact ⟨_, rfl, .refl ..⟩
  | cons x xs => exact ⟨_, rfl, (writesDests_writeLanes _ he hdest).regs⟩
theorem ldx_frame (h : Issues (.ldx f) s c) (hreach : Reaches c (loadReq f) ((laneAddrs c (addrM c f)).take 1) s xs s')
    (hroom : Roomy c.g (touched xs (widthOf f)) (before c f xs s')) :
    ∃ t, exec (.ldx f) s = .next t ∧ (∀ a, memGet t.mem a = memGet (before c f xs s').mem a) ∧ OthersStay (.ldx f) c s t := by
  have he := context_entry h.here
  obtain ⟨v, hlanes, hv⟩ := loadOneLane_writes (xs := xs) (s := s') he (namesDest_ldx h)
  refine ⟨_, issueM_next h (effLdx_reached he hreach), ?_⟩
  rw [hlanes]
  exact load_frame rfl hreach hroom hv

-- Stores (R152, R414) -----------------------------------------------------------------------------------------------------------

theorem effSt_reached (he : c.entry = none) (hreach : Reaches c (storeReq f) (laneAddrs c (addrM c f)) s xs s') : effSt f c s = .done (storeLanes f c xs s') := by
  have halign : decide (f.order ≠ 0) = (f.order != 0) := decide_not
  rw [storeReq, halign] at hreach
  exact accessLanes_reaches (storeLanes f c) he hreach
theorem confined_storeLanes : Confined c.g (touched xs (widthOf f)) (fun a => ¬ clearOf xs (widthOf f) a) (before c f xs s') (storeLanes f c xs s') :=
  .foldl _ xs _ fun _ hx => confined_laneWrite (laneIn_touched hx _) _ _
theorem coreByte_storeLanes_weak {g a : Nat} (hrel : hasRel f = false) (hhint : f.hint ≠ 2) (ha : g = c.g → clearOf xs (widthOf f) a)
    (hroom : Roomy c.g (touched xs (widthOf f)) (before c f xs s')) : coreByte (storeLanes f c xs s') g a = coreByte (before c f xs s') g a := by
  unfold storeLanes
  rw [storePoint_weak hrel hhint]
  exact ((Keeps.foldl _ xs _ fun _ hx => keeps_weakStore hx ha _).keeps ⟨nodup_touched .., hroom⟩).2
theorem coreByte_storeLanes {g a : Nat} (hclear : ∀ i < 16, clearOf xs (widthOf f) (a / 16 * 16 + i)) (ha : ∀ f w o, target a ≠ .viewOf f w o)
    (hroom : Roomy c.g (touched xs (widthOf f)) (before c f xs s')) (hwhole : WholeLines c.g (touched xs (widthOf f)) (before c f xs s')) :
    coreByte (storeLanes f c xs s') g a = coreByte (before c f xs s') g a :=
  coreByte_of_byteCopies ((Keeps.foldl _ xs _ fun _ hx => keeps_store hx ha hclear _ _).keeps ⟨⟨nodup_touched .., hroom⟩, hwhole⟩).2 g
theorem padRead_laneWrite {g off pt n v : Nat} {x : LaneAt × Loc} {s : State} (hx : ∀ ps, x.2 = .sc ps → Spot.pad g off ∉ ps) :
    padRead (laneWrite c pt x n v s) g off = padRead s g off := by
  rw [(memoryKept_laneWrite ..).padRead]
  obtain ⟨l, loc⟩ := x
  cases loc with
  | g p => exact congrArg (mget 0 · off) ((besideMemory_wrLoc_memory ..).pads g)
  | sc ps =>
    rw [wrLoc_scratch, padRead_spotsClean]
    refine padRead_padWrites_other _ _ fun hin => hx ps rfl ?_
    obtain ⟨y, hy, hspot⟩ := List.mem_map.1 hin
    exact hspot ▸ (List.of_mem_zip hy).1
  | l o => exact congrArg (mget 0 · off) ((BesideMemory.foldl _ _ s fun s _ => besideMemory_modSlice ..).pads g)
theorem padRead_storeLanes {g off : Nat} (hpad : ∀ x ∈ xs, ∀ ps, x.2 = .sc ps → Spot.pad g off ∉ ps) :
    padRead (storeLanes f c xs s') g off = padRead (before c f xs s') g off :=
  List.foldlRecOn (motive := fun t => padRead t g off = padRead (before c f xs s') g off) xs _ rfl fun _ ht x hx => (padRead_laneWrite (hpad x hx)).trans ht
theorem regsKept_storeLanes (hbacked : ∀ x ∈ xs, ∀ i < widthOf f, backingAt (before c f xs s') (rootOf (before c f xs s') c.blk) (x.1.2 + i) = none) :
    RegsKept (before c f xs s') (storeLanes f c xs s') :=
  List.foldlRecOn (motive := RegsKept (before c f xs s')) xs _ (.refl _) fun t ht x hx => ht.trans (regsKept_laneWrite _ _ _ _ _ _ fun i hi => by
    rw [ht.roots]
    exact ht.backingAt_none (hbacked x hx i hi))

-- Atomics (R415-R418) -----------------------------------------------------------------------------------------------------------

/-- What an atomic leaves of memory and registers, whether or not its old value is delivered. -/
theorem atomic_frame {i : Instr} {lanes : List LaneAt} {new : Nat → Nat → Option Nat} {v : State} (hshadow : shadowed i = false) (hreach : Reaches c (atomReq f) lanes s xs s')
    (hroom : Roomy c.g (touched xs (widthOf f)) (before c f xs s')) (hv : OnlyRegs c.blk (destRegs i c) (rmws c f new xs (before c f xs s')).2 v) :
    (∀ a, clearOf xs (widthOf f) a → memGet (issued i c s (after c f xs v)).mem a = memGet (before c f xs s').mem a) ∧
      ((∀ x ∈ xs, ∀ k < widthOf f, backingAt (before c f xs s') (rootOf (before c f xs s') c.blk) (x.1.2 + k) = none) →
        OthersStay i c s (issued i c s (after c f xs v))) := by
  refine ⟨fun a ha => ?_, fun hbacked => othersStay_delivered hshadow ((besideMemory_reached hreach).toRegsKept.trans (regsKept_rmws c f new xs _ hbacked)) hv⟩
  rw [mem_delivered hshadow hv]
  exact ((confined_rmws new (fun x hx => laneIn_touched hx _) _).keeps (nodup_touched ..) hroom).2 a (not_not.2 ha)
/-- What an atomic does where its accesses resolve: the write-backs of its order, each read-modify-write in turn, and the old values delivered if asked for. -/
def atomicLanes (f : FmtM) (dest : Bool) (new : Ctx → Nat → Nat → Option Nat) (c : Ctx) (ls : List (LaneAt × Loc)) (s : State) : State :=
  let r := rmws c f (new c) ls (before c f ls s)
  after c f ls (if dest then deliverVals c f r.1 r.2 else r.2)
theorem atomic_reached {i : Instr} {idx : Bool} (dest : Bool) (new : Ctx → Nat → Nat → Option Nat) (he : c.entry = none)
    (hreach : Reaches c (atomReq f) (laneAddrs c (addrAtom c f idx)) s xs s') : atomic i f idx dest new c s = .done (atomicLanes f dest new c xs s') :=
  accessLanes_reaches (atomicLanes f dest new c) he hreach
end

/-- Settles O57: each word performs its accesses one by one, and each of them stays inside the lines it touches. -/
theorem memoryWordsFrame : Obligations.MemoryWordsFrame := by
  intro f s s' c xs n s0 sq hroom
  refine ⟨?_, fun h hreach => ?_, ?_⟩
  · rintro i (⟨rfl, hreach⟩ | ⟨rfl, hreach⟩) h
    · exact ld_frame h hreach hroom
    · exact ldx_frame h hreach hroom
  · have hissued := onlyRegs_issued_unshadowed (i := .st f) (D := fun _ _ => False) c s (storeLanes f c xs s') rfl
    have hmem := hissued.memory
    refine ⟨_, issueM_next h (effSt_reached (context_entry h.here) hreach), fun a ha => ?_, fun hrel hhint g a ha => ?_, fun hwhole g a hclear ha => ?_,
      fun g off hpad => ?_, fun hbacked b r num => ?_⟩
    · obtain ⟨hsame, -⟩ := hmem
      rw [hsame]
      exact (confined_storeLanes.keeps (nodup_touched ..) hroom).2 a (not_not.2 ha)
    · exact (hmem.coreByte g a).trans (coreByte_storeLanes_weak hrel hhint ha hroom)
    · exact (hmem.coreByte g a).trans (coreByte_storeLanes hclear ha hroom hwhole)
    · exact (hmem.padRead g off).trans (padRead_storeLanes hpad)
    · rw [hissued.regs b r num (fun hdest => hdest.2), (regsKept_storeLanes hbacked).regs, (besideMemory_reached hreach).regs]
  · rintro i (⟨rfl, hreach⟩ | ⟨rfl, hreach⟩ | ⟨rfl, hreach⟩) h
    · exact ⟨_, issueM_next h (atomic_reached true _ (context_entry h.here) hreach),
        atomic_frame rfl hreach hroom (onlyRegs_deliverVals _ (context_entry h.here) (namesDest_atom h))⟩
    · exact ⟨_, issueM_next h (atomic_reached false _ (context_entry h.here) hreach), atomic_frame rfl hreach hroom (.refl ..)⟩
    · exact ⟨_, issueM_next h (atomic_reached true _ (context_entry h.here) hreach),
        atomic_frame rfl hreach hroom (onlyRegs_deliverVals _ (context_entry h.here) (namesDest_cas h))⟩

end Sys2Proof.Machine
end

section
/-! Memory instruction words (R151-R166, R404-R423): loads, stores, atomics, fences and line maintenance, each as its accesses and the write-backs of its order. -/
namespace Sys2Proof.Machine

-- Loads (R411, R412) ---------------------------------------------------------------------------------------------------

section
variable {f : FmtM} {c : Ctx} {xs : List (LaneAt × Loc)} {s : State}
/-- Where every active thread has been read, a load writes its destination with each thread's value. -/
theorem loadLanes_eq (ha : c.all = c.active) (hxs : xs.map (·.1) = laneAddrs c (addrM c f)) :
    loadLanes f c xs s = (
      let rd := laneReads c (loadReq f).pt (f.hint == 1) (loadReq f).n xs (before c f xs s)
      after c f xs (writeLanes c f.data (dataN f) (fun l => ((rd.1.find? (fun v => v.1 == l.2)).map (·.2)).getD 0) rd.2)) := by
  have hranks : xs.map (fun x => x.1.1.2) = c.active.map (·.2) := by
    have h := congrArg (List.map fun y => y.1.2) hxs
    simpa only [laneAddrs, List.map_map, Function.comp_def] using h
  refine congrArg (after c f xs) (deliver_all ha fun l hl => ?_)
  rw [laneReads_ranks, hranks]
  exact List.mem_map_of_mem hl
/-- Of `ldx` one access is read, and every active thread takes its value. -/
theorem loadOneLane_eq (hactive : c.active ≠ []) (hxs : xs.map (·.1) = (laneAddrs c (addrM c f)).take 1) :
    loadOneLane f c xs s = (
      let rd := laneReads c (loadReq f).pt (f.hint == 1) (loadReq f).n xs (before c f xs s)
      after c f xs (writeLanes c f.data (dataN f) (fun _ => (rd.1.headD (0, 0)).2) rd.2)) := by
  cases xs with
  | cons x xs => rfl
  | nil => cases hact : c.active with
    | nil => exact absurd hact hactive
    | cons l ls => simp [laneAddrs, hact] at hxs
end

/-- Settles O19: each thread that is active has been read, so delivery is a plain write of the destination. -/
theorem loadResults : Obligations.LoadResults := by
  intro f s s' c xs q rd
  refine ⟨fun h hreach => ?_, fun h hreach => ?_⟩
  · have ⟨hall, _⟩ := h.ready.whole
    have ⟨_, hxs, _⟩ := hreach
    rw [← loadLanes_eq hall hxs]
    exact issueM_next h (effLd_reached (context_entry h.here) hreach)
  · have ⟨_, hxs, _⟩ := hreach
    rw [← loadOneLane_eq h.ready.threads hxs]
    exact issueM_next h (effLdx_reached (context_entry h.here) hreach)

-- Stores (R414) --------------------------------------------------------------------------------------------------------

/-- The orders with a release, an acquire and a promotion, by number (R151). -/
theorem hasRel_iff (f : FmtM) : hasRel f = true ↔ f.order = 2 ∨ f.order = 3 ∨ f.order = 7 := by
  simp [hasRel, ← BitVec.toNat_inj]
theorem hasAcq_iff (f : FmtM) : hasAcq f = true ↔ f.order = 1 ∨ f.order = 3 ∨ f.order = 5 ∨ f.order = 7 := by
  simp [hasAcq, ← BitVec.toNat_inj]
theorem hasProm_iff (f : FmtM) : hasProm f = true ↔ f.order = 5 ∨ f.order = 7 := by
  simp [hasProm]

theorem storePoint_eq (f : FmtM) : storePoint f = (
    let nt := if f.hint = 2 then 1 else 0
    if f.order = 2 ∨ f.order = 3 ∨ f.order = 7 then max nt (min f.scope.toNat 2) else nt) := by
  simp only [storePoint, pointOf, beq_iff_eq, hasRel_iff]

/-- Settles O20: the release of the order, then every thread's bytes in turn, at the store's point. -/
theorem storeResults : Obligations.StoreResults := by
  intro f s s' c xs n nt pt h hreach
  have hpt : storePoint f = pt := storePoint_eq f
  rw [← hpt]
  exact issueM_next h (effSt_reached (context_entry h.here) hreach)

-- Atomics (R415-R418) --------------------------------------------------------------------------------------------------

theorem atopNew_eq (f : FmtM) (x y : Nat) : atopNew f x y = (if atopOp f = 6 then y else if atopOp f = 7 then (if y ≤ x then 0 else x + 1)
    else if atopOp f = 8 then (if x = 0 ∨ y < x then y else x - 1) else redOp (atopTy f) (atopOp f) x y) := by
  unfold atopNew
  simp only [Bool.or_eq_true, beq_iff_eq, decide_eq_true_eq]
  split
  next h => rw [if_pos h]
  next h => simp [h]
  next h => simp [h]
  next h6 h7 h8 => rw [if_neg h6, if_neg h7, if_neg h8]

/-- Settles O21: each thread's read-modify-write in turn; what differs is what is written and whether the old value is delivered. -/
theorem atomicResults : Obligations.AtomicResults := by
  intro f s s' c xs op new src done
  have hnew : atopNew f = new := funext fun x => funext (atopNew_eq f x)
  refine ⟨fun h hreach => ?_, fun h hreach => ?_, fun h hreach => ?_⟩
  · rw [← hnew]
    exact issueM_next h (atomic_reached true _ (context_entry h.here) hreach)
  · rw [← hnew]
    exact issueM_next h (atomic_reached false _ (context_entry h.here) hreach)
  · refine issueM_next h ((atomic_reached true _ (context_entry h.here) hreach).trans ?_)
    simp only [atomicLanes, beq_iff_eq, if_true, src]

-- Fences, prefetch, clean and inval (R419-R423) ------------------------------------------------------------------------

section
variable {f : FmtM} {c : Ctx} {xs : List (LaneAt × Loc)} {s s' : State}
/-- A fence whose order has no promotion makes no access (R419, R420). -/
theorem effFence_plain (hprom : ¬(f.order = 5 ∨ f.order = 7)) : effFence f c s = .done (
    let t := if hasRel f then release c.g f.scope.toNat s else s
    if hasAcq f then acquire c.g f.scope.toNat true t else t) := by
  rw [← hasProm_iff] at hprom
  exact if_neg hprom
theorem effFence_promotes (hprom : f.order = 5 ∨ f.order = 7) (he : c.entry = none)
    (hreach : Reaches c { space := 0, n := 1, align := false, acc := 0, detail := 0, code := 0, consume := false, acq := true }
      (laneAddrs c (fun l => addrOf c f false f.offset.toInt l.1 l.2)) s xs s') : effFence f c s = .done (after c f xs (before c f xs s')) := by
  rw [← hasProm_iff] at hprom
  exact (if_pos hprom).trans (accessLanes_reaches _ he hreach)
end

/-- What one thread's `prefetch` fills, once its address is translated: a line of memory, at the field with a hint of 2, else in the L1 (R421). -/
theorem effPrefetch_eq (f : FmtM) (c : Ctx) (s : State) : effPrefetch f c s = .done (c.active.foldl (fun s l =>
      match translate (.core c.g) (rootOf s c.blk) (secureOf s c.blk) (BitVec.ofNat 64 (addrM c f l)) 0 s with
      | (.ok pa, s) => if (homeOf pa).isNone then s
        else if f.hint = 2 then (fldRead (secureOf s c.blk) (fieldOf c.g) (pa / 128) fullMask s).2 else (l1Read (secureOf s c.blk) c.g (pa / 128) fullMask (f.hint == 1) s).2
      | (_, s) => s) s) := by
  refine congrArg Fin.done (List.foldl_ext _ _ _ fun s l _ => ?_)
  generalize translate (.core c.g) (rootOf s c.blk) (secureOf s c.blk) (BitVec.ofNat 64 (addrM c f l)) 0 s = r
  obtain ⟨res, t⟩ := r
  cases res with
  | ok pa => cases hhome : homeOf pa <;> simp [hhome]
  | fault => rfl
  | world => rfl
  | noexec => rfl

/-- Settles O22: a fence by its order; `clean` and `inval` line by line where their accesses resolve. -/
theorem fenceAndLineResults : Obligations.FenceAndLineResults := by
  intro f s s' c xs scope line
  refine ⟨fun ho h => issueM_next h ?_, fun ho h => issueM_next h ?_, fun ho h => issueM_next h ?_,
    fun ho h hreach => issueM_next h (effFence_promotes ho (context_entry h.here) hreach), fun h => issueM_next h (effPrefetch_eq f c s),
    fun h hreach => issueM_next h (accessLanes_reaches _ (context_entry h.here) hreach),
    fun h hreach => issueM_next h (accessLanes_reaches _ (context_entry h.here) hreach)⟩
  all_goals
    rw [effFence_plain (by simp [ho])]
    simp [hasRel_iff, hasAcq_iff, ho, scope]

end Sys2Proof.Machine
end

section
/-! Furrow instruction words (R169, R175, R183, R186, R428, R448-R450): the hand-over in slot order, or the wait for room. -/
namespace Sys2Proof.Machine

section
variable {f : FmtE} {c : Ctx} {s : State}

-- The hand-over (R428) -----------------------------------------------------------------------------------------------------

/-- The tag and the slice's queue have room for `n` more operations (R186, R278). -/
def fwRoom (f : FmtE) (c : Ctx) (s : State) (n : Nat) : Prop :=
  (getTag (getBlk s c.blk) f.tag.toNat).count + n ≤ 255 ∧ (getSlice s (fieldOf c.g) (nbits f.espec 0 3)).queue.length + n ≤ 32
/-- Each active thread hands over one operation, in slot order, after the field-scope release; its status goes to STATUS (R169, R428). -/
def fwHandOver (f : FmtE) (c : Ctx) (one : Nat × Nat → State → Nat × State) (s : State) : State :=
  let r := c.active.foldl (fun (acc : List (Nat × Nat) × State) l => (acc.1 ++ [(l.2, (one l acc.2).1)], (one l acc.2).2)) ([], release c.g 1 s)
  writeLanes c f.status 1 (fun l => ((r.1.find? (fun x => x.1 == l.2)).map (·.2)).getD 0) r.2

theorem fwIssue_room (one : Nat × Nat → State → Nat × State) (h : fwRoom f c s c.active.length) : fwIssue f one c s = .done (fwHandOver f c one s) := by
  obtain ⟨htag, hqueue⟩ := h
  unfold fwIssue
  rw [tagFull_eq_false htag, decide_eq_false (Nat.not_lt.2 hqueue)]
  rfl
theorem fwIssue_full (one : Nat × Nat → State → Nat × State) (h : ¬ fwRoom f c s c.active.length) : fwIssue f one c s = .stall := by
  have hfull : tagFull s c f.tag.toNat = true ∨ 32 < (getSlice s (fieldOf c.g) (nbits f.espec 0 3)).queue.length + c.active.length := by
    rw [fwRoom, Classical.not_and_iff_not_or_not, Nat.not_le, Nat.not_le] at h
    exact h.imp_left tagFull_eq_true
  unfold fwIssue
  simp only [Bool.or_eq_true, decide_eq_true_eq, hfull, if_true]

/-- A word whose effect is a hand-over makes it where there is room, and else waits whole. -/
theorem issueE_fwRoom {mk : FmtE → Instr} {eff : FmtE → Ctx → State → Fin} {one : Nat × Nat → State → Nat × State} (heff : eff f c s = fwIssue f one c s)
    (hroom : fwRoom f c s c.active.length) (h : Issues (mk f) s c) : issueE mk f eff s = .next (issued (mk f) c s (fwHandOver f c one s)) :=
  issueE_next h (heff.trans (fwIssue_room one hroom))
theorem issueE_fwFull {mk : FmtE → Instr} {eff : FmtE → Ctx → State → Fin} {one : Nat × Nat → State → Nat × State} (heff : eff f c s = fwIssue f one c s)
    (hfull : ¬ fwRoom f c s c.active.length) (h : Issues (mk f) s c) : issueE mk f eff s = .next s :=
  issueE_stall h (heff.trans (fwIssue_full one hfull))

-- One thread's operation (R449, R450) --------------------------------------------------------------------------------------

/-- One thread's operation is checked, and enters its slice's queue or is refused (R449): `w` element bits, `tile` the record's element bits and size. -/
def fwEnter (f : FmtE) (c : Ctx) (i : Instr) (w : Nat) (ways : BitVec 16) (rows : FwRows) (tile : Option (Nat × Nat)) (vals : List DWord) (record : Option (BitVec 1024))
    (slot : Option Nat) (l : Nat × Nat) (s : State) : Nat × State :=
  fwAccept (fwCheck s c.blk (fieldOf c.g) (nbits f.espec 0 3) (src32 c l.2 f.opnd 0) w ways rows tile) (fieldOf c.g) (nbits f.espec 0 3)
    { id := 0, blk := c.blk, core := c.g, tag := f.tag.toNat, instr := i, ways := ways, vals := vals, record := record, slot := slot } s
def wpartTurn (f : FmtE) (c : Ctx) (l : Nat × Nat) : State → Nat × State :=
  wpartOne c.blk f.tag.toNat (fieldOf c.g) (nbits f.espec 0 3) (BitVec.ofNat 32 (src32 c l.2 f.opnd 0))
/-- The rows of a way that `fwload` writes or `fwstore` reads. -/
def fwMoveRows (load : Bool) (f : FmtE) : FwRows :=
  if load then { dst := some (nbits f.ectl 0 7, nbits f.ectl 7 6), srcs := [] } else { dst := none, srcs := [(nbits f.ectl 0 7, nbits f.ectl 7 6)] }
def fwMoveOne (i : Instr) (load : Bool) (f : FmtE) (c : Ctx) (r : Rec) (l : Nat × Nat) : State → Nat × State :=
  fwEnter f c i (nbits f.ectl 7 6) (1 <<< nbits f.espec 3 4) (fwMoveRows load f) (some (4 * rE2 r, rCount r)) ((coordVals c l.2 f.coord r).map (BitVec.ofInt 64)) (some r)
    (some f.rslot.toNat) l
def fwopOne (f : FmtE) (c : Ctx) (l : Nat × Nat) : State → Nat × State :=
  fwEnter f c (.fwop f) (nbits f.ectl 16 6) (bits f.ectl 0 16) (fwopRows (nbits f.ectl 22 5) (nbits f.ectl 16 6) (BitVec.ofNat 64 (src32 c l.2 f.coord 0))) none
    [BitVec.ofNat 64 (src32 c l.2 f.coord 0)] none none l
def fwredOne (f : FmtE) (c : Ctx) (l : Nat × Nat) : State → Nat × State :=
  fwEnter f c (.fwred f) (nbits f.ectl 23 6) (bits f.ectl 0 16) { dst := none, srcs := [(nbits f.ectl 16 7, nbits f.ectl 23 6)] } none
    [BitVec.ofNat 64 (src64 c l.2 f.coord)] none none l
def fwfillOne (f : FmtE) (c : Ctx) (l : Nat × Nat) : State → Nat × State :=
  fwEnter f c (.fwfill f) (nbits f.ectl 23 6) (bits f.ectl 0 16) { dst := some (nbits f.ectl 16 7, nbits f.ectl 23 6), srcs := [] } none
    [BitVec.ofNat 64 (src32 c l.2 f.coord 0)] none none l

theorem effWpart_eq (f : FmtE) (c : Ctx) (s : State) : effWpart f c s = fwIssue f (wpartTurn f c) c s := rfl
theorem effFwop_eq (f : FmtE) (c : Ctx) (s : State) : effFwop f c s = fwIssue f (fwopOne f c) c s := rfl
theorem effFwfill_eq (f : FmtE) (c : Ctx) (s : State) : effFwfill f c s = fwIssue f (fwfillOne f c) c s := rfl

-- fwload and fwstore (R450) ----------------------------------------------------------------------------------------------

section
variable (i : Instr) (load : Bool)
theorem fwMove_empty (h : (getRec (getBlk s c.blk) f.rslot.toNat).valid = false) : fwMove i load f c s = .done (raise c c.active cRecordEmpty s) := by
  simp only [fwMove, h, Bool.not_false, if_true]
variable (h : (getRec (getBlk s c.blk) f.rslot.toNat).valid = true)
include h
theorem fwMove_badCoord (hbad : coordBad f.coord (getRec (getBlk s c.blk) f.rslot.toNat).bits = true) :
    fwMove i load f c s = .done (raise c c.active cIllegalEnc s) := by
  simp only [fwMove, h, Bool.not_true, Bool.false_eq_true, if_false, hbad, if_true]
theorem fwMove_issues (hgood : coordBad f.coord (getRec (getBlk s c.blk) f.rslot.toNat).bits = false) :
    fwMove i load f c s = fwIssue f (fwMoveOne i load f c (getRec (getBlk s c.blk) f.rslot.toNat).bits) c s := by
  simp only [fwMove, h, Bool.not_true, Bool.false_eq_true, if_false, hgood]
  rfl
end

/-- What keeps an `fwload` or `fwstore` from its hand-over: no record, coordinates past s63, or no room. -/
theorem fwMove_refused {mk : FmtE → Instr} {eff : FmtE → Ctx → State → Fin} {load : Bool} (heff : eff f c s = fwMove (mk f) load f c s) (h : Issues (mk f) s c) :
    let slot := getRec (getBlk s c.blk) f.rslot.toNat
    (slot.valid = false → issueE mk f eff s = .next (issued (mk f) c s (raise c c.active cRecordEmpty s))) ∧
    (slot.valid = true → coordBad f.coord slot.bits = true → issueE mk f eff s = .next (issued (mk f) c s (raise c c.active cIllegalEnc s))) ∧
    (slot.valid = true → coordBad f.coord slot.bits = false → ¬ fwRoom f c s c.active.length → issueE mk f eff s = .next s) :=
  ⟨fun hempty => issueE_next h (heff.trans (fwMove_empty _ _ hempty)), fun hvalid hbad => issueE_next h (heff.trans (fwMove_badCoord _ _ hvalid hbad)),
    fun hvalid hgood hfull => issueE_fwFull (heff.trans (fwMove_issues _ _ hvalid hgood)) hfull h⟩

-- fwred (R450) -------------------------------------------------------------------------------------------------------------

/-- The thread's result address is aligned to 8. -/
def fwAligned (f : FmtE) (c : Ctx) (l : Nat × Nat) : Bool := src64 c l.2 f.coord % 8 == 0
/-- The context of the threads with an aligned result address. -/
def fwredCtx (f : FmtE) (c : Ctx) : Ctx := { c with active := c.active.filter (fwAligned f c), all := c.active.filter (fwAligned f c) }
/-- The other threads have raised MISALIGN. -/
def fwredRaised (f : FmtE) (c : Ctx) (s : State) : State :=
  let bad := c.active.filter (fun l => !fwAligned f c l)
  if bad = [] then s else raiseAt c c.pc bad cMisalign 1 (fun r => BitVec.ofNat 64 (src64 c r f.coord)) s

/-- The members of a list that are not among those that fail a test are those that pass it. -/
theorem filter_not_contains_filter {α : Type} [BEq α] [LawfulBEq α] (p : α → Bool) (l : List α) :
    l.filter (fun x => !(l.filter (fun y => !p y)).contains x) = l.filter p :=
  List.filter_congr fun x hx => by simp [hx]

section
variable (hall : c.all = c.active)
include hall
theorem effFwred_eq : effFwred f c s = if (fwredCtx f c).active = [] then .done (fwredRaised f c s)
    else fwIssue f (fwredOne f c) (fwredCtx f c) (fwredRaised f c s) := by
  have hbad : c.active.filter (fun l => src64 c l.2 f.coord % 8 != 0) = c.active.filter (fun l => !fwAligned f c l) := rfl
  simp only [effFwred, hbad, hall, filter_not_contains_filter, List.isEmpty_iff]
  rfl
theorem effFwred_aligned (hactive : c.active ≠ []) (h : ∀ l ∈ c.active, src64 c l.2 f.coord % 8 = 0) : effFwred f c s = fwIssue f (fwredOne f c) c s := by
  have hgood : c.active.filter (fwAligned f c) = c.active := List.filter_eq_self.2 fun l hl => beq_iff_eq.2 (h l hl)
  have hbad : c.active.filter (fun l => !fwAligned f c l) = [] := List.filter_eq_nil_iff.2 fun l hl => by simp [fwAligned, h l hl]
  have hctx : fwredCtx f c = c := by
    rw [fwredCtx, hgood]
    exact congrArg (fun all => { c with all := all }) hall.symm
  rw [effFwred_eq hall, hctx, if_neg hactive, fwredRaised, hbad, if_pos rfl]
theorem effFwred_misaligned (hactive : c.active ≠ []) (h : ∀ l ∈ c.active, src64 c l.2 f.coord % 8 ≠ 0) :
    effFwred f c s = .done (raiseAt c c.pc c.active cMisalign 1 (fun r => BitVec.ofNat 64 (src64 c r f.coord)) s) := by
  have hbad : c.active.filter (fun l => !fwAligned f c l) = c.active := List.filter_eq_self.2 fun l hl => by simp [fwAligned, h l hl]
  have hgood : (fwredCtx f c).active = [] := List.filter_eq_nil_iff.2 fun l hl => by simp [fwAligned, h l hl]
  rw [effFwred_eq hall, if_pos hgood, fwredRaised, hbad, if_neg hactive]
/-- Where some threads are aligned, those alone hand over, or wait for room of their own. -/
theorem effFwred_some (hgood : (fwredCtx f c).active ≠ []) : effFwred f c s = fwIssue f (fwredOne f c) (fwredCtx f c) (fwredRaised f c s) :=
  (effFwred_eq hall).trans (if_neg hgood)
end
end

/-- Settles O27: each word hands its operations over where there is room and else waits whole; of `fwred`, the aligned threads alone. -/
theorem furrowResults : Obligations.FurrowResults := by
  intro f s c fl sl slot roomIn room aligned good bad s1 gives enter g moves
  refine ⟨fun hfull i hi h => ?_, fun i hi h => ?_, fun hmis h => issueE_next h (effFwred_misaligned h.ready.whole.1 h.ready.threads hmis),
    issueE_fwRoom (effWpart_eq f c s),
    fun hvalid hgood => issueE_fwRoom (mk := .fwload) (eff := effFwload) (fwMove_issues _ true hvalid hgood),
    fun hvalid hgood => issueE_fwRoom (mk := .fwstore) (eff := effFwstore) (fwMove_issues _ false hvalid hgood),
    issueE_fwRoom (effFwop_eq f c s),
    ⟨fun hal hroom h => issueE_fwRoom (effFwred_aligned h.ready.whole.1 h.ready.threads hal) hroom h,
      fun hne hroom h => issueE_next h ((effFwred_some h.ready.whole.1 hne).trans (fwIssue_room _ hroom)),
      fun hne hfull h => issueE_stall h ((effFwred_some h.ready.whole.1 hne).trans (fwIssue_full _ hfull))⟩,
    issueE_fwRoom (effFwfill_eq f c s)⟩
  · simp only [List.mem_cons, List.not_mem_nil, or_false] at hi
    rcases hi with rfl | rfl | rfl
    · exact issueE_fwFull (effWpart_eq f c s) hfull h
    · exact issueE_fwFull (effFwop_eq f c s) hfull h
    · exact issueE_fwFull (effFwfill_eq f c s) hfull h
  · simp only [List.mem_cons, List.not_mem_nil, or_false] at hi
    rcases hi with rfl | rfl
    · exact fwMove_refused (mk := .fwload) (eff := effFwload) rfl h
    · exact fwMove_refused (mk := .fwstore) (eff := effFwstore) rfl h

end Sys2Proof.Machine
end

section
/-! The reset state (R173, R194, R213, R236, R249, R258, R262, R284, R290, R302): every map is empty, so each register reads the value its map gives an unlisted key. -/
namespace Sys2Proof.Machine

-- What an empty machine keeps and does -------------------------------------------------------------------------------------

/-- Where there is no core, no consist is marked eligible. -/
theorem Settled.of_no_cores {s : State} (hcores : s.cores = []) : Settled s := by
  intro e he
  rw [hcores] at he
  exact absurd he List.not_mem_nil
/-- In the device's own turn no core or drill does anything. -/
theorem nextInstr_device {s : State} (hturn : s.turn = .device) : nextInstr s = none := by
  simp only [nextInstr, hturn]

-- Registers that nothing has written ---------------------------------------------------------------------------------------

@[simp] theorem mget_nil {α : Type} (d : α) (i : Nat) : mget d [] i = d := rfl
theorem getQ_of_no_queues {s : State} (h : s.queues = []) (q : Nat) : getQ s q = {} := by
  rw [getQ, h, mget_nil]
theorem getLink_of_no_links {s : State} (h : s.links = []) (id : Nat) : getLink s id = {} := by
  rw [getLink, h, mget_nil]
theorem getFld_of_no_fields {s : State} (h : s.fields = []) (f : Nat) : getFld s f = {} := by
  rw [getFld, h, mget_nil]
theorem getWin_of_no_fields {s : State} (h : s.fields = []) (f w : Nat) : getWin s f w = {} := by
  rw [getWin, getFld_of_no_fields h, mget_nil]
/-- A slice of an unlisted field has every way in cache and its first partition number (R173, R178; assumption 52). -/
theorem getSlice_of_no_fields {s : State} (h : s.fields = []) (f i : Nat) : getSlice s f i = { number := BitVec.ofNat 32 (0x100 + f * 8 + i) } := by
  rw [getSlice, getFld_of_no_fields h]
  rfl
/-- A granule that the world map does not list is non-secure (R145, R306; assumption 3). -/
theorem granSecure_of_no_worldMap {s : State} (h : s.worldMap = []) (a : Nat) : granSecure s a = false := by
  rw [granSecure, h, mget_nil]
  rfl

/-- Settles O52: the lists are empty and the plain registers zero as written, and a register in a map is one that nothing has written. -/
theorem resetState : Obligations.ResetState := by
  have hfields : State.reset.fields = [] := rfl
  refine ⟨Settled.of_no_cores rfl, wf_reset, rfl, rfl, rfl, rfl, rfl, rfl, rfl, fun q => ?queue, fun n => ?depctr, granSecure_of_no_worldMap rfl,
    fun id => ?link, fun f => ?field, fun f w => ?window, fun f i => ?slice, fun f o => ?event,
    rfl, rfl, rfl, rfl, rfl, rfl, rfl, rfl, rfl, rfl, nextInstr_device rfl⟩
  case queue => rw [getQ_of_no_queues rfl]; exact ⟨rfl, rfl, rfl⟩
  case depctr => exact mget_nil 0 n
  case link => rw [getLink_of_no_links rfl]; exact ⟨rfl, rfl⟩
  case field => rw [getFld_of_no_fields hfields]; exact ⟨rfl, rfl, rfl⟩
  case window => rw [getWin_of_no_fields hfields]
  case slice => rw [getSlice_of_no_fields hfields]; exact ⟨rfl, rfl⟩
  case event => rw [getFld_of_no_fields hfields]; exact mget_nil 0 o

end Sys2Proof.Machine
end

section
/-! The issue of a drill command (R219, R228, R443): what it leaves behind, and which command in turn is issued. -/
namespace Sys2Proof.Machine

-- What an issue leaves behind ------------------------------------------------------------------------------------

section
variable {b : Nat} {e : DEnt} {s : State}

/-- Each record that the command uses is in its slot. -/
def dRecsThere (b : Nat) (e : DEnt) (s : State) : Prop :=
  ((dUses e.instr).2.1 = true → (getRec (getBlk s b) e.cmd.reca.toNat).valid = true) ∧
  ((dUses e.instr).2.2 = true → (getRec (getBlk s b) e.cmd.recb.toNat).valid = true)
/-- The latched records are held. -/
def dHeld (b : Nat) (e : DEnt) (s : State) : State :=
  let s := if (dUses e.instr).2.1 then recHold b e.cmd.reca.toNat s else s
  if (dUses e.instr).2.2 then recHold b e.cmd.recb.toNat s else s
/-- The command stands in the table as issued, with the records it has latched from `k`. -/
def dLatched (b : Nat) (k : Block) (e : DEnt) (s : State) : State :=
  putEnt b { e with
    issued := true, order := s.nextId
    recA := if (dUses e.instr).2.1 then some (getRec k e.cmd.reca.toNat).bits else none
    recB := if (dUses e.instr).2.2 then some (getRec k e.cmd.recb.toNat).bits else none } { s with nextId := s.nextId + 1 }
/-- The pages of the record tiles of a command are walked ahead (R228). -/
def dPreWalked (b : Nat) (k : Block) (e : DEnt) (s : State) : State :=
  (dPages k e (getRec k e.cmd.reca.toNat).bits (getRec k e.cmd.recb.toNat).bits).foldl
    (fun s ps => preWalkPages (fieldOf k.core) (rootOf s b) (secureOf s b) (ps.eraseDups.take 32) s) s
/-- The command has failed: no tile awaits it, and it retires. -/
def dFailed (b code : Nat) (e : DEnt) (s : State) : State :=
  retireCmd b e (failDrill b code (modDrill b (fun d => { d with owed := d.owed.filter (fun o => o.1 != e.uid) }) s))

theorem dIssue_empty (h : ((dUses e.instr).2.1 = true ∧ (getRec (getBlk s b) e.cmd.reca.toNat).valid = false) ∨
    ((dUses e.instr).2.2 = true ∧ (getRec (getBlk s b) e.cmd.recb.toNat).valid = false)) : dIssue b e s = dFailed b cRecordEmpty e s := by
  simp only [dIssue, Bool.or_eq_true, Bool.and_eq_true, Bool.not_eq_true', h, if_true]
  rfl

variable (hthere : dRecsThere b e s)
include hthere
theorem dRecsThere.noneEmpty : ¬ (((dUses e.instr).2.1 = true ∧ (getRec (getBlk s b) e.cmd.reca.toNat).valid = false) ∨
    ((dUses e.instr).2.2 = true ∧ (getRec (getBlk s b) e.cmd.recb.toNat).valid = false)) := by
  rintro (⟨huse, hempty⟩ | ⟨huse, hempty⟩)
  · exact Bool.false_ne_true (hempty.symm.trans (hthere.1 huse))
  · exact Bool.false_ne_true (hempty.symm.trans (hthere.2 huse))
theorem dIssue_badRecs (hrecs : dRecsOk e (getRec (getBlk s b) e.cmd.reca.toNat).bits (getRec (getBlk s b) e.cmd.recb.toNat).bits = false) :
    dIssue b e s = dFailed b cIllegalEnc e s := by
  simp only [dIssue, Bool.or_eq_true, Bool.and_eq_true, Bool.not_eq_true', hthere.noneEmpty, if_false, hrecs, if_true]
  rfl

variable (hrecs : dRecsOk e (getRec (getBlk s b) e.cmd.reca.toNat).bits (getRec (getBlk s b) e.cmd.recb.toNat).bits = true)
include hrecs
theorem dIssue_nop {d : DCmd} (hnop : e.instr = .dnop d) : dIssue b e s = retireCmd b e (dHeld b e s) := by
  simp only [dIssue, Bool.or_eq_true, Bool.and_eq_true, Bool.not_eq_true', hthere.noneEmpty, if_false, hrecs, Bool.true_eq_false]
  simp only [hnop, if_true, dHeld]
theorem dIssue_issues (hnop : ∀ d, e.instr ≠ .dnop d) : dIssue b e s = dPreWalked b (getBlk s b) e (dLatched b (getBlk s b) e (dHeld b e s)) := by
  simp only [dIssue, Bool.or_eq_true, Bool.and_eq_true, Bool.not_eq_true', hthere.noneEmpty, if_false, hrecs, Bool.true_eq_false]
  rfl
end

-- The command in turn --------------------------------------------------------------------------------------------

/-- A command that may issue now: in a resident block, the earliest issuable one of the table (R219). -/
def dFirst (s : State) (b uid : Nat) (e : DEnt) : Prop :=
  (getBlk s b).phase = .resident ∧ e.fault = none ∧ e.done = false ∧
    ((getBlk s b).drill.table.find? (fun x => dIssuable (getBlk s b).drill x)).map (·.uid) = some uid

section
variable {i : Instr} {s : State} {b uid : Nat} {e : DEnt} (row : Nat → DEnt → State → RowOut) (hturn : s.turn = .drill b uid)
  (hfind : (getBlk s b).drill.table.find? (fun e => e.uid == uid && e.instr == i) = some e) (hissued : e.issued = false)
include hturn hfind hissued

theorem drillStep_issues (hfirst : dFirst s b uid e) : drillStep i row s = .next (dIssue b e s) := by
  obtain ⟨hphase, hfault, hdone, hearliest⟩ := hfirst
  simp only [drillStep, hturn, hfind, hphase, hfault, hdone, hissued, hearliest, bne_self_eq_false, Option.isSome_none, Bool.or_self, Bool.not_false,
    Bool.false_eq_true, if_false, if_true, beq_self_eq_true]
theorem drillStep_notFirst (hfirst : ¬ dFirst s b uid e) : drillStep i row s = .next s := by
  simp only [drillStep, hturn, hfind, hissued, Bool.not_false, if_true, Bool.or_eq_true, bne_iff_ne, beq_iff_eq, Option.isSome_iff_ne_none]
  split
  · rfl
  · rename_i hready
    simp only [not_or, not_not, Bool.not_eq_true] at hready
    obtain ⟨⟨hphase, hfault⟩, hdone⟩ := hready
    exact if_neg fun hearliest => hfirst ⟨hphase, hfault, hdone, hearliest⟩
end

/-- Every command is a step of the drill. -/
theorem exec_drillCommand (d : DCmd) (s : State) :
    ∀ i ∈ [Instr.dnop d, .dend d, .dbarBar d, .dbarReady d, .dzero d, .dldacc d, .dstacc d, .dscale d, .dmma d], ∃ row, exec i s = drillStep i row s :=
  have hnoRow : ∀ {i : Instr}, exec i s = drillStep i (fun _ _ s => .done 0 s) s → ∃ row, exec i s = drillStep i row s := fun h => ⟨_, h⟩
  List.forall_mem_cons.2 ⟨hnoRow rfl, List.forall_mem_cons.2 ⟨hnoRow rfl, List.forall_mem_cons.2 ⟨hnoRow rfl, List.forall_mem_cons.2 ⟨hnoRow rfl, exec_rowCommand d s⟩⟩⟩⟩

/-- Settles O29: the command in turn issues if it is the earliest issuable one, and else waits; an issue follows from the records it finds. -/
theorem drillIssue : Obligations.DrillIssue := by
  intro d s b uid e i hi k ra rb useA useB void hturn hfind hissued first
  obtain ⟨row, hexec⟩ := exec_drillCommand d s i hi
  obtain ⟨rfl, rfl⟩ : e.uid = uid ∧ e.instr = i := by simpa using List.find?_some hfind
  refine ⟨fun hfirst => hexec.trans (drillStep_notFirst row hturn hfind hissued hfirst), fun hfirst => ?_⟩
  have hissue : exec e.instr s = .next (dIssue b e s) := hexec.trans (drillStep_issues row hturn hfind hissued hfirst)
  refine ⟨fun ha hb hrecs => ?_, fun ha hb hrecs => ?_, fun hempty => ?_⟩
  · by_cases hnop : e.instr = .dnop d
    · rw [hissue, dIssue_nop ⟨ha, hb⟩ hrecs hnop]
      simp only [hnop, if_true]
      rfl
    · have hothers : ∀ d', e.instr ≠ .dnop d' := by
        intro d' heq
        simp only [heq, List.mem_cons, Instr.dnop.injEq, reduceCtorEq, List.not_mem_nil, or_false] at hi
        exact hnop (heq.trans (congrArg Instr.dnop hi))
      rw [hissue, dIssue_issues ⟨ha, hb⟩ hrecs hothers]
      simp only [hnop, if_false]
      rfl
  · rw [hissue, dIssue_badRecs ⟨ha, hb⟩ hrecs]
    rfl
  · rw [hissue, dIssue_empty hempty]
    rfl

end Sys2Proof.Machine
end

section
/-! Commands of a ring (R192-R202, R209, R260): what is taken from it, and the end of a SIGNAL. -/
namespace Sys2Proof.Machine

-- The next entry of a ring (R192, R197) ----------------------------------------------------------------------------

section
variable {q kind : Nat} {act : Nat → LRec → State → State} {s : State}

theorem takeCmd_nothing (h : 256 ≤ q ∨ mayTake (getQ s q) = false) : takeCmd q kind act s = s := by
  refine if_neg fun hready => ?_
  obtain ⟨hq, hmay⟩ : q < 256 ∧ mayTake (getQ s q) = true := by simpa using hready
  rcases h with hlarge | hnone
  · omega
  · exact Bool.false_ne_true (hnone.symm.trans hmay)

variable {s1 : State} {e : LRec} (hq : q < 256) (hmay : mayTake (getQ s q) = true) (hnext : nextEntry q s = (e, s1))
include hq hmay hnext
theorem takeCmd_bad (hbad : recBad (getQ s q) e = true) : takeCmd q kind act s = takeBad q e s1 := by
  simp only [takeCmd, hq, hmay, hnext, hbad, decide_true, Bool.and_self, if_true]
variable (hgood : recBad (getQ s q) e = false)
include hgood
theorem takeCmd_takes (hkind : nbits e 0 8 = kind) : takeCmd q kind act s = act (getQ s q).rd.toNat e (takeEntryQ q s1) := by
  simp only [takeCmd, hq, hmay, hnext, hgood, hkind, decide_true, Bool.and_self, Bool.false_eq_true, if_false, if_true, beq_self_eq_true]
theorem takeCmd_otherKind (hkind : nbits e 0 8 ≠ kind) : takeCmd q kind act s = s := by
  simp only [takeCmd, hq, hmay, hnext, hgood, beq_eq_false_iff_ne.2 hkind, decide_true, Bool.and_self, Bool.false_eq_true, if_false, if_true]
end

/-- The commands of a ring, each at the place of its kind. -/
def ringCommands (q : Nat) : List Instr := [.cmdNop q, .cmdLaunch q, .cmdSignal q, .cmdDepset q]
/-- Each of them takes the entries of its kind. -/
theorem exec_ringCommand (q : Nat) (s : State) :
    ∀ j ∈ ringCommands q, ∃ kind act, (ringCommands q)[kind]? = some j ∧ exec j s = .next (takeCmd q kind act s) :=
  List.forall_mem_cons.2 ⟨⟨0, _, rfl, rfl⟩, List.forall_mem_cons.2 ⟨⟨1, _, rfl, rfl⟩, List.forall_mem_cons.2 ⟨⟨2, _, rfl, rfl⟩,
    List.forall_mem_cons.2 ⟨⟨3, _, rfl, rfl⟩, List.forall_mem_nil _⟩⟩⟩⟩

-- The end of a SIGNAL (R202) -----------------------------------------------------------------------------------------

/-- Every L1 and RDC is written back, then DONEVALUE is written. -/
def signalWritten (q : Nat) (x : LRec) (s : State) : Bool × State :=
  writeDone (qRegion (getQ s q)) x ((upto 64).foldl (fun s f => flushRdc f s) ((mkeys s.cores).foldl (fun s g => flushL1 g s) s))

theorem exec_signalDone_waits {q : Nat} {s : State} (h : (getQ s q).signal = none ∨ (getQ s q).launches ≠ []) : exec (.signalDone q) s = .next s := by
  show execSignalDone q s = _
  cases hsignal : (getQ s q).signal with
  | none => simp only [execSignalDone, hsignal]
  | some p =>
    have hbusy : (getQ s q).launches ≠ [] := h.resolve_left (by simp [hsignal])
    simp only [execSignalDone, hsignal, List.isEmpty_eq_false_iff.2 hbusy, Bool.not_false, if_true]
theorem exec_signalDone_ends {q j : Nat} {x : LRec} {s : State} (hsignal : (getQ s q).signal = some (j, x)) (hidle : (getQ s q).launches = []) :
    exec (.signalDone q) s = .next (journal q j 4 (if (signalWritten q x s).1 then 0 else 0x16) (lTag x) 0
      (modQ q (fun k => { k with signal := none }) (signalWritten q x s).2)) := by
  show execSignalDone q s = _
  simp only [execSignalDone, hsignal, hidle, List.isEmpty_nil, Bool.not_true, Bool.false_eq_true, if_false]
  rfl

/-- Settles O36: each command takes an entry of its kind, leaves one of another kind, and journals a bad one, as all of them do. -/
theorem queueCommands : Obligations.QueueCommands := by
  intro s s1 q e k i t all takes
  have htakes : ∀ {n : Nat} {j : Instr} (act : Nat → LRec → State → State), exec j s = .next (takeCmd q n act s) → takes n →
      exec j s = .next (act i e t) := by
    intro n j act hexec ⟨hq, hmay, hnext, hgood, hkind⟩
    rw [hexec, takeCmd_takes hq hmay hnext hgood hkind]
    rfl
  refine ⟨htakes (fun i e => journal q i 4 0 (lTag e) 0) rfl, htakes (takeLaunch q) rfl,
    htakes (fun i e => modQ q (fun k => { k with signal := some (i, e) })) rfl,
    htakes (fun i e s => journal q i 4 0 (lTag e) 0 { s with depctr := mput s.depctr (nbits e 16 12) (bits e 64 32) }) rfl,
    fun n j htake hother hj => ?_, fun hnothing j hj => ?_, fun hq hmay hnext hbad j hj => ?_, fun j x => exec_signalDone_ends, exec_signalDone_waits⟩
  · obtain ⟨kind, act, hplace, hexec⟩ := exec_ringCommand q s j hj
    obtain ⟨hq, hmay, hnext, hgood, hkind⟩ := htake
    have hne : nbits e 0 8 ≠ kind := fun heq => hother ((hkind.symm.trans heq) ▸ hplace)
    rw [hexec, takeCmd_otherKind hq hmay hnext hgood hne]
  · obtain ⟨kind, act, -, hexec⟩ := exec_ringCommand q s j hj
    rw [hexec, takeCmd_nothing hnothing]
  · obtain ⟨kind, act, -, hexec⟩ := exec_ringCommand q s j hj
    rw [hexec, takeCmd_bad hq hmay hnext hbad]
    rfl

end Sys2Proof.Machine
end

section
/-! The host mailbox and the signal box (R211-R216): the mailbox's registers, the events the cores take, and the requests. -/
namespace Sys2Proof.Machine

-- The mailbox's registers (R213) -----------------------------------------------------------------------------------

section
variable {s : State} {host : Bool} {v : DWord}

theorem mbxGo_notGranted (hhost : host = true) (h : 8 ∉ s.grants) : mbxGo host s = s := by
  simp [mbxGo, hhost, h]
/-- A GO that counts: the firmware's, or the host's where the block is granted to it. -/
theorem mbxGo_granted (h : host = true → 8 ∈ s.grants) :
    mbxGo host s = if s.mbxBusy then { s with mbxLost := true } else sbEvent (4, 0) (.request s.mbxIn host) { s with mbxBusy := true } := by
  refine if_neg fun hrefused => ?_
  obtain ⟨hhost, hnot⟩ : host = true ∧ 8 ∉ s.grants := by simpa using hrefused
  exact hnot (h hhost)

/-- The outbound ring that a write of MBXOUTCTL asks for is one that it may have. -/
def mbxRingOk (v : DWord) (s : State) : Prop :=
  4 ≤ nbits v 0 4 ∧ nbits v 0 4 ≤ 12 ∧ nbits s.mbxOutBase 0 52 % (2 ^ nbits v 0 4 * 64) = 0 ∧ backed s (nbits s.mbxOutBase 0 52) = true
theorem mbxCtl_disables (h : bit v 16 = false) : mbxCtl v s = { s with mbxOutCtl := (v &&& 0x1FFFF) ||| (s.mbxOutCtl &&& 0x20000) } := by
  simp only [mbxCtl, h, Bool.not_false, if_true]
theorem mbxCtl_enables (h : bit v 16 = true) (hring : mbxRingOk v s) : mbxCtl v s = { s with mbxOutCtl := v &&& 0x1FFFF } := by
  obtain ⟨hlow, hhigh, haligned, hbacked⟩ := hring
  simp only [mbxCtl, h, hlow, hhigh, haligned, hbacked, decide_true, beq_self_eq_true, Bool.and_self, Bool.not_true, Bool.false_eq_true, if_false, if_true]
theorem mbxCtl_refuses (h : bit v 16 = true) (hring : ¬ mbxRingOk v s) : mbxCtl v s = { s with mbxOutCtl := (v &&& 0xFFFF) ||| 0x20000 } := by
  have hbad : ¬ (((4 ≤ nbits v 0 4 ∧ nbits v 0 4 ≤ 12) ∧ nbits s.mbxOutBase 0 52 % (2 ^ nbits v 0 4 * 64) = 0) ∧ backed s (nbits s.mbxOutBase 0 52) = true) := by
    rwa [mbxRingOk, ← and_assoc, ← and_assoc] at hring
  simp only [mbxCtl, h, Bool.not_true, Bool.false_eq_true, if_false, Bool.and_eq_true, decide_eq_true_eq, beq_iff_eq, hbad]

theorem mbxRd_moves (h : (s.mbxOutWr - v.setWidth 32).toNat ≤ 2 ^ mbxLog s) : mbxRd v s = { s with mbxOutRd := v.setWidth 32 } := if_pos h
theorem mbxRd_ignored (h : 2 ^ mbxLog s < (s.mbxOutWr - v.setWidth 32).toNat) : mbxRd v s = s := if_neg (Nat.not_le.2 h)
end

-- The cores of the signal box (R211, R212, R299) ---------------------------------------------------------------------

section
variable {s : State} {sb : Nat}

theorem execSignalBoxEvent_idle (h : 12 ≤ sb ∨ s.fwUp = false ∨ sbPick s sb = none) : execSignalBoxEvent sb s = .next s := by
  unfold execSignalBoxEvent
  split
  · rfl
  · rename_i hup
    have hnone : sbPick s sb = none := by
      simp only [Bool.or_eq_true, decide_eq_true_eq, Bool.not_eq_true', not_or] at hup
      exact (h.resolve_left hup.1).resolve_left hup.2
    simp only [hnone]

variable {e : SbEvent} (hsb : sb < 12) (hup : s.fwUp = true) (hpick : sbPick s sb = some e)
include hsb hup hpick
theorem execSignalBoxEvent_serves {t : State} (h : serve e (sbHand sb e s) = some t) : execSignalBoxEvent sb s = .next (dropEvent e.seq t) := by
  simp only [execSignalBoxEvent, Nat.not_le.2 hsb, hup, hpick, h, decide_false, Bool.not_true, Bool.or_self, Bool.false_eq_true, if_false]
theorem execSignalBoxEvent_holds (h : serve e (sbHand sb e s) = none) : execSignalBoxEvent sb s = .next (sbHand sb e s) := by
  simp only [execSignalBoxEvent, Nat.not_le.2 hsb, hup, hpick, h, decide_false, Bool.not_true, Bool.or_self, Bool.false_eq_true, if_false]
end

-- Requests (R215, R216) ------------------------------------------------------------------------------------------------

section
variable {op : Nat} {r : MbxReq} {act : MbxReq → State → Nat × State} {s : State}

/-- The request is carried out by the core that takes it, and replied to with its status. -/
def reqServed (r : MbxReq) (act : MbxReq → State → Nat × State) (sb : Nat) (e : SbEvent) (s : State) : State :=
  let x := act r (sbHand sb e s)
  dropEvent e.seq (reply e.seq r x.1 x.2)
theorem takeReq_serves {sb : Nat} {e : SbEvent} (hnext : reqNext op r s = some (sb, e)) (hup : s.fwUp = true) (hopen : mbxOpen s = true) :
    takeReq op r act s = reqServed r act sb e s := by
  simp only [takeReq, hnext, hup, hopen, Bool.not_true, Bool.or_self, Bool.false_eq_true, if_false]
  rfl
theorem takeReq_waits (h : reqNext op r s = none ∨ s.fwUp = false ∨ mbxOpen s = false) : takeReq op r act s = s := by
  unfold takeReq
  cases hnext : reqNext op r s with
  | none => rfl
  | some x =>
    have hshut : (!s.fwUp || !mbxOpen s) = true := by simpa [hnext] using h
    simp only [hshut, if_true]
end

section
variable {r : MbxReq} {s : State}

/-- A misused request answers BAD_OP, whatever it asks for (assumption 58). -/
theorem misused_badOp (h : r.misused = true) : bindOp r s = (1, s) ∧ stopOp r s = (1, s) ∧ resumeOp r s = (1, s) ∧ killOp r s = (1, s) ∧ unbindOp r s = (1, s) ∧
    uselistOp r s = (1, s) ∧ useclearOp r s = (1, s) :=
  ⟨if_pos h, if_pos h, if_pos h, if_pos h, if_pos h, if_pos h, if_pos h⟩

variable (hused : r.misused = false) (hallowed : reqDenied r s = false)
include hused hallowed
theorem stopOp_active (h : (getQ s r.queue).state = .active) : stopOp r s = (0, stopQueue r.queue s) := by
  simp only [stopOp, hused, hallowed, h, Bool.false_eq_true, if_false, beq_self_eq_true, if_true]
theorem stopOp_refused (h : (getQ s r.queue).state ≠ .active) : stopOp r s = (2, s) := by
  simp only [stopOp, hused, hallowed, beq_eq_false_iff_ne.2 h, Bool.false_eq_true, if_false]
theorem resumeOp_resumes (h : (getQ s r.queue).state = .stopped ∨ (getQ s r.queue).state = .faulted) (hpath : pathValid s (qRegion (getQ s r.queue)) = true) :
    resumeOp r s = (0, journal r.queue 0 9 0 0 0 (modQ r.queue (fun k => { k with state := .active }) s)) := by
  simp only [resumeOp, hused, hallowed, Bool.false_eq_true, if_false, Bool.and_eq_true, Bool.or_eq_true, beq_iff_eq, h, hpath, and_self, if_true]
theorem killOp_bound (h : (getQ s r.queue).state ≠ .unbound) : killOp r s = (0, killQueue r.queue s) := by
  simp only [killOp, hused, hallowed, Bool.false_eq_true, if_false, bne_iff_ne, ne_eq, h, not_false_eq_true, if_true]
theorem killOp_unbound (h : (getQ s r.queue).state = .unbound) : killOp r s = (2, s) := by
  simp only [killOp, hused, hallowed, h, bne_self_eq_false, Bool.false_eq_true, if_false]
theorem unbindOp_refused (h : (getQ s r.queue).state = .active ∨ (getQ s r.queue).state = .killing ∨ (getQ s r.queue).state = .unbound) : unbindOp r s = (2, s) := by
  have hstate : ((getQ s r.queue).state == .stopped || (getQ s r.queue).state == .faulted) = false := by
    rcases h with h | h | h <;> rw [h] <;> rfl
  simp only [unbindOp, hused, hallowed, hstate, Bool.false_and, Bool.false_eq_true, if_false]
end

/-- Settles O39: register by register, core by core and request by request, in the cases of each. -/
theorem mailboxEvents : Obligations.MailboxEvents := by
  intro s host v sb r n base k serves
  have hserves : ∀ (i : Instr) (code : Nat) (act : MbxReq → State → Nat × State), exec i s = .next (takeReq code r act s) → serves i code act := by
    intro i code act hexec
    refine ⟨fun c e hnext hup hopen => ?_, fun hwait => ?_⟩
    · rw [hexec, takeReq_serves hnext hup hopen]
      rfl
    · rw [hexec, takeReq_waits hwait]
  refine ⟨fun hhost hgrant => ?notGranted, fun hgrant hidle => ?go, fun hgrant hbusy => ?lost, fun hoff => ?disables, fun hon hlow hhigh haligned hbacked => ?enables,
    fun hon hbad => ?refuses, fun hfit => ?moves, fun hover => ?ignored, execSignalBoxEvent_idle,
    fun e hsb hup hpick => ⟨fun t => execSignalBoxEvent_serves hsb hup hpick, execSignalBoxEvent_holds hsb hup hpick⟩,
    hserves _ _ _ rfl, hserves _ _ _ rfl, hserves _ _ _ rfl, hserves _ _ _ rfl, hserves _ _ _ rfl, hserves _ _ _ rfl, hserves _ _ _ rfl, misused_badOp,
    fun hused hallowed => ⟨stopOp_active hused hallowed, stopOp_refused hused hallowed, resumeOp_resumes hused hallowed, killOp_bound hused hallowed,
      killOp_unbound hused hallowed, unbindOp_refused hused hallowed⟩⟩
  case notGranted => exact congrArg _ (mbxGo_notGranted hhost hgrant)
  case go => exact congrArg _ ((mbxGo_granted hgrant).trans (by rw [hidle]; rfl))
  case lost => exact congrArg _ ((mbxGo_granted hgrant).trans (if_pos hbusy))
  case disables => exact congrArg _ (mbxCtl_disables hoff)
  case enables => exact congrArg _ (mbxCtl_enables hon ⟨hlow, hhigh, haligned, hbacked⟩)
  case refuses =>
    refine congrArg _ (mbxCtl_refuses hon fun ⟨hlow, hhigh, haligned, hbacked⟩ => ?_)
    rcases hbad with h | h | h | h
    · exact Nat.not_le.2 h hlow
    · exact Nat.not_le.2 h hhigh
    · exact h haligned
    · exact Bool.false_ne_true (h.symm.trans hbacked)
  case moves => exact congrArg _ (mbxRd_moves hfit)
  case ignored => exact congrArg _ (mbxRd_ignored hover)

end Sys2Proof.Machine
end

section
/-! Why the clause about a full fault queue fails: a descriptor's read that faults and finds no room for its record is put off whole, so nothing that the read itself did stays
(R217, R266), while the clause keeps the state that the read left. -/
namespace Sys2Proof.Machine

theorem collRead_noRoom {m : CMember} {a : DWord} {again : Bool} {e : EFault} {s s' : State} (hspan : spanHeld s m a.toNat 64 = false)
    (hread : memberRead m a.toNat 64 s = (.error e, s')) (hroom : faultRoom s' (fieldOf (getBlk s m.blk).core) = false) :
    collRead m a again s = { s with collWait := s.collWait ++ [(m, a, again)] } := by
  simp only [collRead, hspan, hread, hroom, Bool.not_false, Bool.false_eq_true, if_false, if_true]

/-- A record that awaits its answer. -/
def openRecord : FRec := blkRec State.reset 0 0 (.double 0)
/-- The fault queue of field 0 is full, and the first word of memory, a root page table that maps nothing, has a single-bit error. -/
def fullQueueState : State :=
  { State.reset with memErr := [(0, false)], fields := [(0, { (default : Field) with faults := List.replicate 256 openRecord })] }

/-- The read of a descriptor at address 0 corrects that error on its walk, and faults. -/
theorem memberRead_corrects : (match memberRead default (0 : DWord).toNat 64 fullQueueState with
    | (.error _, t) => t.memErr.isEmpty && !faultRoom t (fieldOf (getBlk fullQueueState (default : CMember).blk).core)
    | (.ok _, _) => false) = true := by decide +kernel

/-- Refutes O28: where the fault queue is full, the read of an unmapped descriptor whose walk meets a correctable memory error is put off with the error still there, not
corrected as the clause says. -/
theorem not_collectiveResults : ¬ Obligations.CollectiveResults := by
  intro h
  obtain ⟨-, -, -, hreads, -⟩ := h (decE 0) (decA 0) fullQueueState secondGoesOn
  have hspan : spanHeld fullQueueState default (0 : DWord).toNat 64 = false := by decide +kernel
  have hcorrects := memberRead_corrects
  rcases hread : memberRead default (0 : DWord).toNat 64 fullQueueState with ⟨e | bs, t⟩ <;> rw [hread] at hcorrects
  · obtain ⟨hcorrected, hroom⟩ : t.memErr = [] ∧ faultRoom t (fieldOf (getBlk fullQueueState (default : CMember).blk).core) = false := by simpa using hcorrects
    obtain ⟨-, hfaults⟩ := hreads default 0 fullQueueState t false hspan
    obtain ⟨-, hclaimed⟩ := hfaults e hread
    have herr : (collRead default 0 false fullQueueState).memErr = t.memErr := by rw [hclaimed hroom]
    rw [collRead_noRoom hspan hread hroom, hcorrected] at herr
    exact absurd herr (List.cons_ne_nil _ _)
  · exact absurd hcorrects Bool.false_ne_true

end Sys2Proof.Machine
end

section
/-! Privileged words in a secure block (R35, R233-R236, R372, R373): the effect of each in each of its cases, and the blocks that a `ctxsave` stops. -/
namespace Sys2Proof.Machine

-- Invalidations (R234, R235) ---------------------------------------------------------------------------------------

section
variable (f : FmtA) (c : Ctx) (s : State)

/-- The open invalidations that the active threads have sent: those a `trsync` of theirs waits for. -/
def openInvals : List Nat := (s.invals.filter (fun v => v.blk == some c.blk && (c.active.map (·.2)).any (fun x => v.ranks.contains x))).map (·.id)
theorem effTrsync_eq : effTrsync f c s = .done (
    let r := release c.g 2 s
    if openInvals c r = [] then r else pendOut c r.nextId false true (modBlk c.blk (fun k => { k with
      syncs := k.syncs ++ [{ out := r.nextId, ranks := c.active.map (·.2), invals := openInvals c r }] }) { r with nextId := r.nextId + 1 })) := by
  simp only [effTrsync, List.isEmpty_iff]
  exact (apply_ite Fin.done _ _ _).symm
theorem tlbinvForm_eq (form va root : Nat) : tlbinvForm form va root c s = .done (
    let t := startInval form va root (some c.blk) (c.active.map (·.2)) s.nextId c.clause { s with nextId := s.nextId + 1 }
    if t.invals.length = s.invals.length then t else pendOut c s.nextId false true t) := by
  simp only [tlbinvForm, beq_iff_eq]
end

-- The blocks of a pre-empted unit (R35) ------------------------------------------------------------------------------

/-- A stop turns a resident block into a stopping one, and leaves every other as it was. -/
theorem getBlk_stopBlock (x b : Nat) (s : State) :
    getBlk (stopBlock x s) b = getBlk s b ∨ getBlk (stopBlock x s) b = { getBlk s b with phase := .stopping } ∧ (getBlk s b).phase = .resident := by
  rcases getBlk_modBlk_cases x b (fun k => if k.phase == .resident then { k with phase := .stopping } else k) s with h | ⟨-, h⟩
  · exact .inl h
  · split at h
    · rename_i hphase
      exact .inr ⟨h, beq_iff_eq.1 hphase⟩
    · exact .inl h
theorem stopBlock_notResident {b : Nat} {s : State} (hb : (mfind s.blocks b).isSome = true) : (getBlk (stopBlock b s) b).phase ≠ .resident := by
  rw [stopBlock, getBlk_modBlk_same _ _ _ hb]
  split
  · exact BlkPhase.noConfusion
  · rename_i hphase
    exact fun h => hphase (beq_iff_eq.2 h)

section
variable (bs : List Nat) (b : Nat) (s : State)
theorem foldl_stopBlock_held : (getBlk (bs.foldl (fun s x => stopBlock x s) s) b).held = (getBlk s b).held := by
  refine foldl_inv (fun t => (getBlk t b).held = (getBlk s b).held) _ bs s rfl fun x t ht => ?_
  rcases getBlk_stopBlock x b t with h | ⟨h, -⟩
  · rw [h, ht]
  · rw [h, ← ht]
theorem foldl_stopBlock_resident (hres : resident (getBlk s b) = true) : resident (getBlk (bs.foldl (fun s x => stopBlock x s) s) b) = true := by
  refine foldl_inv (fun t => resident (getBlk t b) = true) _ bs s hres fun x t ht => ?_
  rcases getBlk_stopBlock x b t with h | ⟨h, -⟩
  · rw [h, ht]
  · rw [h]
    rfl
theorem foldl_stopBlock_stopped (h : (getBlk s b).phase ≠ .resident) : (getBlk (bs.foldl (fun s x => stopBlock x s) s) b).phase ≠ .resident := by
  refine foldl_inv (fun t => (getBlk t b).phase ≠ .resident) _ bs s h fun x t ht => ?_
  rcases getBlk_stopBlock x b t with h | ⟨-, hres⟩
  · rwa [h]
  · exact absurd hres ht
end
theorem foldl_stopBlock_notResident {bs : List Nat} {b : Nat} {s : State} (hmem : b ∈ bs) (hb : (mfind s.blocks b).isSome = true) :
    (getBlk (bs.foldl (fun s x => stopBlock x s) s) b).phase ≠ .resident := by
  induction bs generalizing s with
  | nil => cases hmem
  | cons x rest ih =>
    rw [List.foldl_cons]
    rcases List.mem_cons.1 hmem with rfl | hrest
    · exact foldl_stopBlock_stopped rest b _ (stopBlock_notResident hb)
    · exact ih hrest ((present_modBlk ..).trans hb)

/-- Every block of the unit of a block that exists is one that exists. -/
theorem present_of_mem_unitOf {s : State} {a b : Nat} (ha : (mfind s.blocks a).isSome = true) (h : b ∈ unitOf s a) : (mfind s.blocks b).isSome = true := by
  unfold unitOf at h
  split at h
  · rwa [List.mem_singleton.1 h]
  · obtain ⟨e, he, rfl⟩ := List.mem_map.1 h
    refine Option.isSome_iff_ne_none.2 fun hnone => ?_
    exact (mfind_isNone_iff s.blocks e.1).1 (by rw [hnone]; rfl) (List.mem_map_of_mem (List.mem_filter.1 he).1)
theorem getBlk_of_mfind {s : State} {b : Nat} {k : Block} (h : mfind s.blocks b = some k) : getBlk s b = k := by
  rw [getBlk, mget, h, Option.getD_some]
theorem mem_unitOf_self {s : State} {b : Nat} (hb : (mfind s.blocks b).isSome = true) : b ∈ unitOf s b := by
  obtain ⟨k, hk⟩ := Option.isSome_iff_exists.1 hb
  unfold unitOf
  split
  · exact List.mem_singleton_self b
  · rename_i hnbhd
    rw [getBlk_of_mfind hk] at hnbhd
    exact List.mem_map.2 ⟨(b, k), List.mem_filter.2 ⟨mem_of_mfind _ _ _ hk, by simp only [hnbhd, beq_self_eq_true]⟩, rfl⟩

theorem mem_mput_of_mem {α : Type} {m : SMap α} {i : Nat} {v : α} {e : Nat × α} (h : e ∈ m) : e ∈ mput m i v ∨ e.1 = i := by
  induction m with
  | nil => cases h
  | cons x m ih =>
    obtain ⟨k, y⟩ := x
    simp only [mput]
    split
    · exact .inl (List.mem_cons_of_mem _ h)
    · rcases List.mem_cons.1 h with rfl | hrest
      · split
        · rename_i hk
          exact .inr hk.symm
        · exact .inl (List.mem_cons_self ..)
      · split
        · exact .inl (List.mem_cons_of_mem _ hrest)
        · exact (ih hrest).imp_left (List.mem_cons_of_mem _)
/-- A change of a block that leaves its neighbourhood leaves every block of its unit there. -/
theorem mem_unitOf_modBlk {s : State} {a b : Nat} (F : Block → Block) (hF : ∀ k, (F k).nbhd = k.nbhd) (h : b ∈ unitOf s a) : b ∈ unitOf (modBlk a F s) a := by
  cases ha : mfind s.blocks a with
  | none => rwa [modBlk_none a F s ha]
  | some k =>
    have hself : a ∈ unitOf (modBlk a F s) a := mem_unitOf_self (by rw [present_modBlk, ha]; rfl)
    by_cases hba : b = a
    · rwa [hba]
    have hnbhd : (getBlk (modBlk a F s) a).nbhd = (getBlk s a).nbhd := by rw [getBlk_modBlk_some a F s k ha, hF, getBlk_of_mfind ha]
    have hblocks : (modBlk a F s).blocks = mput s.blocks a (F k) := by simp only [modBlk, ha]
    unfold unitOf at h ⊢
    rw [hnbhd]
    split at h
    · rename_i hnone
      exact absurd (List.mem_singleton.1 h) hba
    · obtain ⟨e, he, rfl⟩ := List.mem_map.1 h
      obtain ⟨hmem, hsame⟩ := List.mem_filter.1 he
      refine List.mem_map_of_mem (List.mem_filter.2 ⟨?_, hsame⟩)
      rw [hblocks]
      exact (mem_mput_of_mem hmem).resolve_right hba

-- Contexts (R372) ------------------------------------------------------------------------------------------------------

theorem handleBlk_stands {s : State} {h : Nat} {k : Block} (hk : handleBlk s h = some k) : resident k = true ∨ k.phase = .saved := by
  obtain ⟨e, he, rfl⟩ := Option.map_eq_some_iff.1 hk
  have hfound := List.find?_some he
  simp only [Bool.and_eq_true, Bool.or_eq_true, beq_iff_eq] at hfound
  exact hfound.2

section
variable {f : FmtA} {c : Ctx} {s : State} {k : Block}

/-- The state in which a `ctxsave` holds the block it names. -/
def ctxHeld (k : Block) (s : State) : State := modBlk k.id (fun k => { k with held := true }) s
/-- The state in which it has also taken a number for the status that waits. -/
def ctxNumbered (k : Block) (s : State) : State := { ctxHeld k s with nextId := (ctxHeld k s).nextId + 1 }
/-- The state in which it has then requested the pre-emption of that block's unit. -/
def ctxStopping (k : Block) (s : State) : State := preemptUnit k.id (ctxNumbered k s)

theorem effCtx_unnamed (h : handleBlk s (src64 c (lead c) f.a) = none) : effCtxsave f c s = ctxStatus f c 1 s ∧ effCtxload f c s = ctxStatus f c 1 s := by
  simp only [effCtxsave, effCtxload, h, and_self]

variable (hk : handleBlk s (src64 c (lead c) f.a) = some k)
include hk
theorem effCtx_own (hid : k.id = c.blk) : effCtxsave f c s = ctxStatus f c 3 s ∧ effCtxload f c s = ctxStatus f c 3 s := by
  simp only [effCtxsave, effCtxload, hk, hid, beq_self_eq_true, if_true, and_self]

variable (hid : k.id ≠ c.blk)
include hid
theorem effCtxsave_saved (hphase : k.phase = .saved) : effCtxsave f c s = ctxStatus f c 0 (ctxHeld k s) := by
  simp only [effCtxsave, hk, beq_eq_false_iff_ne.2 hid, hphase, beq_self_eq_true, Bool.false_eq_true, if_false, if_true, ctxHeld]
theorem effCtxsave_waits (hentry : c.entry = none) (hphase : k.phase ≠ .saved) : effCtxsave f c s = .done (pendOut c (ctxHeld k s).nextId (decide (f.d ≠ null)) false
    { ctxStopping k s with ctxWaits := (ctxStopping k s).ctxWaits ++ [{
        target := k.id, blk := c.blk, ranks := c.active.map (·.2), d := f.d, out := (ctxHeld k s).nextId, entry := none }] }) := by
  have hnull : (f.d != null) = decide (f.d ≠ null) := by rw [Bool.eq_iff_iff]; simp
  simp only [effCtxsave, hk, beq_eq_false_iff_ne.2 hid, beq_eq_false_iff_ne.2 hphase, hentry, hnull, Bool.false_eq_true, if_false]
  rfl
theorem effCtxload_unsaved (hphase : k.phase ≠ .saved) : effCtxload f c s = ctxStatus f c 4 s := by
  simp only [effCtxload, hk, beq_eq_false_iff_ne.2 hid, bne_iff_ne, ne_eq, hphase, not_false_eq_true, Bool.false_eq_true, if_false, if_true]
theorem effCtxload_good (hphase : k.phase = .saved) (hgood : (ctxGood k.id s).1 = true) :
    effCtxload f c s = ctxStatus f c 0 (modBlk k.id (fun k => { k with held := false, halted := false }) (ctxGood k.id s).2) := by
  have hctx : ctxGood k.id s = (true, (ctxGood k.id s).2) := Prod.ext hgood rfl
  simp only [effCtxload, hk, beq_eq_false_iff_ne.2 hid, hphase, bne_self_eq_false, Bool.false_eq_true, if_false]
  rw [hctx]
theorem effCtxload_bad (hphase : k.phase = .saved) (hbad : (ctxGood k.id s).1 = false) : effCtxload f c s = ctxStatus f c 2 (ctxGood k.id s).2 := by
  have hctx : ctxGood k.id s = (false, (ctxGood k.id s).2) := Prod.ext hbad rfl
  simp only [effCtxload, hk, beq_eq_false_iff_ne.2 hid, hphase, bne_self_eq_false, Bool.false_eq_true, if_false]
  rw [hctx]
end

/-- A resident or stopping block that is held and whose unit is pre-empted stops, and no block of the unit is left running. -/
theorem ctxStopping_stops {k : Block} {s : State} (hb : mfind s.blocks k.id = some k) (hres : resident k = true) :
    (getBlk (ctxStopping k s) k.id).held = true ∧ (getBlk (ctxStopping k s) k.id).phase = .stopping ∧
      ∀ b ∈ unitOf s k.id, (getBlk (ctxStopping k s) b).phase ≠ .resident := by
  have hpresent : (mfind (ctxNumbered k s).blocks k.id).isSome = true := (present_modBlk ..).trans (by rw [hb]; rfl)
  have hheld : getBlk (ctxNumbered k s) k.id = { k with held := true } := getBlk_modBlk_some _ _ _ _ hb
  have hall : ∀ b ∈ unitOf s k.id, (getBlk (ctxStopping k s) b).phase ≠ .resident := fun b hmem => by
    have hunit : b ∈ unitOf (ctxNumbered k s) k.id := mem_unitOf_modBlk _ (fun _ => rfl) hmem
    exact foldl_stopBlock_notResident hunit (present_of_mem_unitOf hpresent hunit)
  have hstays : resident (getBlk (ctxStopping k s) k.id) = true := foldl_stopBlock_resident _ _ _ ((congrArg resident hheld).trans hres)
  simp only [resident, Bool.or_eq_true, beq_iff_eq] at hstays
  exact ⟨(foldl_stopBlock_held ..).trans (congrArg Block.held hheld), hstays.resolve_left (hall _ (mem_unitOf_self (by rw [hb]; rfl))), hall⟩

-- Error injection (R373) -------------------------------------------------------------------------------------------------

section
variable {f : FmtA} {c : Ctx} {s : State}
theorem effErrinj_register (h : nbits f.mods 0 3 ≤ 1) :
    effErrinj f c s = .done (c.active.foldl (fun s l => regError c.blk l.2 f.b.toNat (if nbits f.mods 0 3 = 1 then 3 else 1) s) s) := by
  obtain h | h : nbits f.mods 0 3 = 0 ∨ nbits f.mods 0 3 = 1 := by omega
  · simp only [effErrinj, h, zero_ne_one, if_false]
  · simp only [effErrinj, h, if_true]
/-- The error of one thread's word, of two bits or one: only a word of memory takes it. -/
def injectAt (two : Bool) (s : State) (x : LaneAt × Loc) : State :=
  match x.2 with
  | .g pa => homeError true pa two s
  | _ => s
theorem effErrinj_word (h : nbits f.mods 0 3 = 2 ∨ nbits f.mods 0 3 = 3) : effErrinj f c s =
    accessLanes c (.errinj f) { space := 0, n := 8, align := true, acc := 0, detail := 0, code := 0, consume := false } [] none
      (c.active.map (fun l => (l, src64 c l.2 f.a))) (fun xs s => xs.foldl (injectAt (nbits f.mods 0 3 == 3)) s) s := by
  rcases h with h | h
  · simp only [effErrinj, h]
    rfl
  · simp only [effErrinj, h]
    rfl
theorem effErrinj_mismatch (h : nbits f.mods 0 3 = 4) : effErrinj f c s =
    .done (if regShadow s (getBlk s c.blk).region = 0 then s else c.active.foldl (fun s l => modTh c.blk l.2 (fun t => { t with shadowInj := true }) s) s) := by
  simp only [effErrinj, h, beq_iff_eq]
end

/-- Settles O17: each word by its effect; what a `ctxsave` and a `ctxload` do turns on the block that the handle names. -/
theorem systemResults : Obligations.SystemResults := by
  intro f s c gives inv named status r open_
  refine ⟨fun h => issueA_next h (effTrsync_eq f c s), fun h => issueA_next h (tlbinvForm_eq c s ..), fun h => issueA_next h (tlbinvForm_eq c s ..),
    fun h => issueA_next h (tlbinvForm_eq c s ..), fun hnone => ?unnamed, fun k hk hid => ?own, fun k hk hid hphase => ?saved, fun k hk hid hphase => ?unsaved,
    fun hreg h => issueA_next h (effErrinj_register hreg), fun s' xs hword hreach h => ?word, fun harm hshadow h => ?unshadowed, fun harm hshadow h => ?armed⟩
  case unnamed => exact ⟨fun h => issueA_next h (effCtx_unnamed hnone).1, fun h => issueA_next h (effCtx_unnamed hnone).2⟩
  case own => exact ⟨fun h => issueA_next h (effCtx_own hk hid).1, fun h => issueA_next h (effCtx_own hk hid).2⟩
  case saved =>
    exact ⟨fun h => issueA_next h (effCtxsave_saved hk hid hphase), fun hgood h => issueA_next h (effCtxload_good hk hid hphase hgood),
      fun hbad h => issueA_next h (effCtxload_bad hk hid hphase hbad)⟩
  case unsaved =>
    exact ⟨fun h => issueA_next h (effCtxload_unsaved hk hid hphase), fun h => issueA_next h (effCtxsave_waits hk hid (context_entry h.here) hphase),
      fun hb => ctxStopping_stops hb ((handleBlk_stands hk).resolve_right hphase)⟩
  case word => exact issueA_next h ((effErrinj_word hword).trans (accessLanes_reaches _ (context_entry h.here) hreach))
  case unshadowed => exact issueA_next h ((effErrinj_mismatch harm).trans (by rw [if_pos hshadow]))
  case armed => exact issueA_next h ((effErrinj_mismatch harm).trans (by rw [if_neg hshadow]))

end Sys2Proof.Machine
end

section
/-! Writes of the control space's registers (R231, R236, R238, R249-R252, R257, R258, R288, R302, R307): an equation of each in each of its cases, and which register stands
at each offset. -/
namespace Sys2Proof.Machine

-- Region blocks (R257) --------------------------------------------------------------------------------------------------

/-- A region block as its home now has it. -/
def homeBlock (a : Nat) (s : State) : BitVec 2048 := ofBytes 2048 (homeGets a 256 s).1
/-- The state in which a held region block has been reread, with the share limits it had kept where they are lowered. -/
def reread (a : Nat) (old : BitVec 2048) (s : State) : State :=
  keepShares a (shareLimits old) (shareLimits (homeBlock a s)) { (homeGets a 256 s).2.2 with rcbs := mput (homeGets a 256 s).2.2.rcbs a (homeBlock a s) }
/-- The state in which the signal box has then been told, where one of the block's limits changed. -/
def rereadNoted (a : Nat) (old : BitVec 2048) (s : State) : State :=
  if nbits old 78 4 ≠ nbits (homeBlock a s) 78 4 ∨ nbits old 128 104 ≠ nbits (homeBlock a s) 128 104 then sbEvent (2, a) .note (reread a old s) else reread a old s

section
variable {a : Nat} {old : BitVec 2048} {s : State}
theorem rcbSync_notHeld (h : mfind s.rcbs a = none) : rcbSync a s = s := by
  simp only [rcbSync, h, Option.isNone_none, if_true]
/-- Where the block keeps its parent and every bound queue below it a valid path, a reread changes what the block says and stops what no longer fits. -/
theorem rcbSync_samePath (h : mfind s.rcbs a = some old) (hparent : nbits old 0 52 = nbits (homeBlock a s) 0 52)
    (hpaths : ∀ q ∈ boundQueues s, below s a (qRegion (getQ s q)) = true → pathValid (reread a old s) (qRegion (getQ (reread a old s) q)) = true) :
    rcbSync a s = growWake ((overBudget (rereadNoted a old s) a).foldl (fun s b => stopBlock b s) (rereadNoted a old s)) := by
  have hold : rcbOf s a = old := by rw [rcbOf, mget, h, Option.getD_some]
  have hmoved : (nbits old 0 52 != nbits (homeBlock a s) 0 52) = false := by rw [hparent, bne_self_eq_false]
  have hbad : ((boundQueues s).filter (fun q => below s a (qRegion (getQ s q)))).filter
      (fun q => !pathValid (reread a old s) (qRegion (getQ (reread a old s) q))) = [] := by
    refine List.filter_eq_nil_iff.2 fun q hq => ?_
    obtain ⟨hbound, hbelow⟩ := List.mem_filter.1 hq
    rw [hpaths q hbound hbelow]
    exact Bool.false_ne_true
  unfold rcbSync rereadNoted
  unfold reread homeBlock at *
  simp only [h, hold, hmoved, hbad, Option.isNone_some, Bool.false_and, Bool.false_eq_true, if_false, List.isEmpty_nil, if_true, List.foldl_nil, Bool.or_eq_true, bne_iff_ne]
end

-- The Placement Table cache and fill-transform windows (R238, R249-R252) ----------------------------------------------

section
variable {s : State} {f w : Nat} {v : DWord}
theorem plInv_all (h : v = 0) : plInv v s = { s with placeCache := [] } := by
  simp only [plInv, h, if_true]
theorem plInv_acre (h : v ≠ 0) : plInv v s = { s with placeCache := s.placeCache.filter (fun e => e.2.1 != nbits v 21 36) } := by
  simp only [plInv, h, if_false]

theorem ftw_noWindow (reg : Nat) (h : 64 ≤ f ∨ 16 ≤ w) : ftwCtl f w v s = s ∧ ftwReg f w reg v s = s := by
  simp only [ftwCtl, ftwReg, Bool.or_eq_true, decide_eq_true_eq, h, if_true, and_self]

variable (hwin : f < 64 ∧ w < 16)
include hwin
theorem windowInRange : (decide (64 ≤ f) || decide (16 ≤ w)) = false := by
  simp only [Nat.not_le.2 hwin.1, Nat.not_le.2 hwin.2, decide_false, Bool.or_self]
theorem ftwCtl_disables (h : bit v 0 = false) :
    ftwCtl f w v s = modWin f w (fun k' => { k' with ctl := (v &&& 7) ||| ((getWin (dropWindow f w s) f w).ctl &&& 8) }) (dropWindow f w s) := by
  simp only [ftwCtl, windowInRange hwin, h, Bool.not_false, Bool.false_eq_true, if_false, if_true]
theorem ftwCtl_enables (h : bit v 0 = true) (hok : winOk (dropWindow f w s) f (getWin (dropWindow f w s) f w) (nbits v 1 2) = true) :
    ftwCtl f w v s = modWin f w (fun k' => { k' with ctl := v &&& 7 }) (dropWindow f w s) := by
  simp only [ftwCtl, windowInRange hwin, h, hok, Bool.not_true, Bool.false_eq_true, if_false, if_true]
theorem ftwCtl_refuses (h : bit v 0 = true) (hbad : winOk (dropWindow f w s) f (getWin (dropWindow f w s) f w) (nbits v 1 2) = false) :
    ftwCtl f w v s = modWin f w (fun k' => { k' with ctl := (v &&& 6) ||| 8 }) (dropWindow f w s) := by
  simp only [ftwCtl, windowInRange hwin, h, hbad, Bool.not_true, Bool.false_eq_true, if_false]
theorem ftwReg_enabled (reg : Nat) (h : bit (getWin (dropWindow f w s) f w).ctl 0 = true) : ftwReg f w reg v s = dropWindow f w s := by
  simp only [ftwReg, windowInRange hwin, h, Bool.false_eq_true, if_false, if_true]
theorem ftwReg_disabled (h : bit (getWin (dropWindow f w s) f w).ctl 0 = false) :
    ftwReg f w 1 v s = modWin f w (fun k' => { k' with enc := v &&& 0xFFFFFF000 }) (dropWindow f w s) ∧
    ftwReg f w 2 v s = modWin f w (fun k' => { k' with len := v &&& 0xFFFFFF }) (dropWindow f w s) ∧
    ftwReg f w 3 v s = modWin f w (fun k' => { k' with scale := v &&& 0xFFFFFF000 }) (dropWindow f w s) := by
  simp only [ftwReg, windowInRange hwin, h, Bool.false_eq_true, if_false, and_self]
end

-- Start-up records and the world map (R302, R307) --------------------------------------------------------------------

section
variable {s : State} {host : Bool} {v : DWord}
theorem bootClear_clears (h : host = true → s.hostUp = true ∧ (bit s.bootStat 13 = true ∨ 7 ∈ s.grants)) :
    bootClear host s = { s with bootRecs := s.bootRecs.map (fun e => (e.1, setBits e.2 8 4 0)) } := by
  refine if_neg fun hshut => ?_
  simp only [Bool.and_eq_true, Bool.or_eq_true, Bool.not_eq_true', List.contains_eq_mem, decide_eq_false_iff_not] at hshut
  obtain ⟨hhost, hshut⟩ := hshut
  obtain ⟨hup, hgranted⟩ := h hhost
  simp [hup] at hshut
  simp [hshut] at hgranted
theorem bootClear_shut (hhost : host = true) (h : s.hostUp = false ∨ (bit s.bootStat 13 = false ∧ 7 ∉ s.grants)) : bootClear host s = s := by
  refine if_pos ?_
  simpa [hhost] using h

theorem wmapPut_refused (h : s.wmapBusy ≠ none ∨ 32768 < nbits v 6 15 + (nbits v 21 15 + 1) ∨ nbits v 40 24 ≠ 0) : wmapPut v s = { s with wmapErr := true } := by
  refine if_pos ?_
  simpa [Option.isSome_iff_ne_none, or_assoc] using h
theorem wmapPut_runs (hidle : s.wmapBusy = none) (hfits : nbits v 6 15 + (nbits v 21 15 + 1) ≤ 32768) (hrsv : nbits v 40 24 = 0) : wmapPut v s = (
    let pa := nbits v 0 6 * 2 ^ 36 + nbits v 6 15 * 2 ^ 21
    let z := zeroRange pa ((nbits v 21 15 + 1) * 2 ^ 21) { s with wmapErr := false, wmapBusy := some v, wmapCmd := v }
    { z with worldMap := (upto (nbits v 21 15 + 1)).foldl (fun m i =>
        if bits v 36 4 = (0 : BitVec 4) then mdel m (pa / 2 ^ 21 + i) else mput m (pa / 2 ^ 21 + i) (bits v 36 4)) z.worldMap }) := by
  refine if_neg ?_
  simpa [hidle, hrsv] using hfits
end

-- Registers by their offset (R6, R288) ------------------------------------------------------------------------------

/-- The ring indices stand at the start of the space, 16 bytes apart (R194). -/
theorem ctlPut_ringIndex {n : Nat} (h : n < 256) (v : DWord) (s : State) : ctlPut (16 * n / 8 * 8) v s = qwrPut n (bits v 0 32) s := by
  have hoff : 16 * n / 8 * 8 = 16 * n := by omega
  have hblock : 16 * n / 2 ^ 20 = 0 := by omega
  have hin : 16 * n % 2 ^ 20 = 16 * n := by omega
  have hreg : 16 * n < 0x1000 := by omega
  have hq : 16 * n / 16 = n := by omega
  simp only [ctlPut, hoff, hblock, hin, hreg, hq, Nat.mul_mod_right, decide_true, beq_self_eq_true, Bool.and_self, if_true]
theorem next_qwrPut (q : Nat) (v : Word) (s : State) : .next (qwrPut q v s) = exec (.doorbell q v) s := by
  obtain ⟨t, ht⟩ := event_answers (i := .doorbell q v) rfl s
  have hdoor : execDoorbell q v s = .next t := ht
  rw [ht, qwrPut, hdoor]
/-- Past the mailbox's block the space has no register. -/
theorem ctlPut_unlisted {a : Nat} (h : 9 ≤ a / 2 ^ 20) (v : DWord) (s : State) : ctlPut (a / 8 * 8) v s = s := by
  obtain ⟨n, hn⟩ : ∃ n, a / 8 * 8 / 2 ^ 20 = n + 9 := ⟨a / 2 ^ 20 - 9, by omega⟩
  simp only [ctlPut, hn]

section
variable {v : DWord} {s : State}
theorem exec_fqcmd_replay (h : nbits v 38 2 = 1) : exec (.registerWrite 0x200000 v) s = exec (.fqcmdReplay (nbits v 32 6) (bits v 0 32)) s := by
  have hcmd : fqCmd v s = answer (nbits v 32 6) (bits v 0 32) (replaySource (nbits v 32 6)) s := by simp only [fqCmd, h]
  exact (congrArg _ hcmd).trans (fqcmdReplay_field (bits v 32 6).isLt).symm
theorem exec_fqcmd_deny (h : nbits v 38 2 = 2) : exec (.registerWrite 0x200000 v) s = exec (.fqcmdDeny (nbits v 32 6) (bits v 0 32)) s := by
  have hcmd : fqCmd v s = answer (nbits v 32 6) (bits v 0 32) denySource s := by simp only [fqCmd, h]
  exact (congrArg _ hcmd).trans (fqcmdDeny_field (bits v 32 6).isLt).symm
theorem fqCmd_unknown (h : nbits v 38 2 = 0 ∨ nbits v 38 2 = 3) : fqCmd v s = evAdd (nbits v 32 6) 0x70 1 s := by
  rcases h with h | h
  · simp only [fqCmd, h]
  · simp only [fqCmd, h]
/-- A write of TRINVCMD starts the invalidation of its form. -/
theorem exec_trinvcmd {form : Nat} (h : nbits v 0 2 = form) : exec (.registerWrite 0x200018 v) s = .next (trInv form s) := by
  rw [← h]
  rfl
end

/-- Settles O40: register by register, in the cases of each, and then the register at each offset. -/
theorem registerEvents : Obligations.RegisterEvents := by
  intro s a n f w reg v x host t k win set
  refine ⟨fun hnone => congrArg _ (rcbSync_notHeld hnone), fun old hheld hparent hpaths => congrArg _ (rcbSync_samePath hheld hparent hpaths), ⟨_, rfl⟩,
    fun hv => congrArg _ (plInv_all hv), fun hv => congrArg _ (plInv_acre hv), rfl,
    fun hwin hoff => congrArg _ (ftwCtl_disables hwin hoff), fun hwin hon hok => congrArg _ (ftwCtl_enables hwin hon hok),
    fun hwin hon hbad => congrArg _ (ftwCtl_refuses hwin hon hbad), fun hwin hon => congrArg _ (ftwReg_enabled hwin reg hon),
    fun hwin hoff => ?window, fun hnowin => ?noWindow, rfl, rfl, rfl,
    fun hopen => congrArg _ (bootClear_clears hopen), fun hhost hshut => congrArg _ (bootClear_shut hhost hshut),
    fun hbad => congrArg _ (wmapPut_refused hbad), fun hidle hfits hrsv => congrArg _ (wmapPut_runs hidle hfits hrsv), rfl,
    fun hq => ?doorbell, rfl, rfl, exec_fqcmd_replay, exec_fqcmd_deny, fun hcmd => congrArg _ (fqCmd_unknown hcmd), rfl, rfl,
    exec_trinvcmd, exec_trinvcmd, exec_trinvcmd, exec_trinvcmd, rfl, rfl, rfl, rfl,
    fun hpast => congrArg _ (ctlPut_unlisted hpast v s), ⟨_, rfl⟩⟩
  case window =>
    obtain ⟨henc, hlen, hscale⟩ := ftwReg_disabled (s := s) (v := v) hwin hoff
    exact ⟨congrArg _ henc, congrArg _ hlen, congrArg _ hscale⟩
  case noWindow => exact ⟨congrArg _ (ftw_noWindow reg hnowin).1, congrArg _ (ftw_noWindow reg hnowin).2⟩
  case doorbell => exact (congrArg _ (ctlPut_ringIndex hq v s)).trans (next_qwrPut n (bits v 0 32) s)

end Sys2Proof.Machine
end

section
/-! The words that the spec prints (R233, R322, R349). -/
namespace Sys2Proof.Machine

/-- Settles O48: each word and its bytes are closed terms, which the decoder evaluates to the instruction printed beside them. -/
theorem printedWordsDecode : Obligations.PrintedWordsDecode := ⟨rfl, rfl, rfl, rfl, rfl, rfl, rfl, rfl, rfl, rfl, rfl, rfl⟩

end Sys2Proof.Machine
end

section
/-! Links, their training and their fault injectors (R262-R264, R275, R285-R287). -/
namespace Sys2Proof.Machine

section
variable {s : State} {id : Nat}

-- DISABLE (R262) -------------------------------------------------------------------------------------------------------

/-- A link after a write of 1 to DISABLE: of an ID that names no link the bit is stored alone (assumption 136). -/
def linkDisabled (id : Nat) (s : State) : State := modLink id (fun l => { l with disable := true, state := if linkNamed s id then 3 else l.state }) s
theorem linkDis_takes (hid : id < 256) (hoff : (getLink s id).disable = false) :
    linkDis id s = if (getLink s id).state = 1 then linkLost id 3 (linkDisabled id s) else linkDisabled id s := by
  simp only [linkDis, Nat.not_le.2 hid, hoff, decide_false, Bool.or_self, Bool.false_eq_true, if_false, beq_iff_eq]
  rfl
theorem linkDis_none (h : 256 ≤ id ∨ (getLink s id).disable = true) : linkDis id s = s := if_pos (by simpa using h)
theorem linkEna_takes (hid : id < 256) (hon : (getLink s id).disable = true) :
    linkEna id s = if (getLink s id).state = 3 then linkDown id (modLink id (fun l => { l with disable := false }) s)
      else modLink id (fun l => { l with disable := false }) s := by
  simp only [linkEna, Nat.not_le.2 hid, hon, decide_false, Bool.not_true, Bool.or_self, Bool.false_eq_true, if_false, beq_iff_eq]
theorem linkEna_none (h : 256 ≤ id ∨ (getLink s id).disable = false) : linkEna id s = s := if_pos (by simpa using h)

-- Failure and training (R264, R275) ------------------------------------------------------------------------------------

theorem linkFailure_up (hid : id < 152) (hup : (getLink s id).state = 1) : exec (.linkFailure id) s = .next (linkLost id 0 (linkDown id s)) :=
  if_neg (by simp [hid, hup])
theorem linkFailure_none (h : 152 ≤ id ∨ (getLink s id).state ≠ 1) : exec (.linkFailure id) s = .next s := if_pos (by simpa using h)
theorem linkTrainingStart_down (hnamed : linkNamed s id = true) (hdown : (getLink s id).state = 0) (hoff : (getLink s id).disable = false) :
    exec (.linkTrainingStart id) s = .next (modLink id (fun l => { l with state := 2 }) s) := if_neg (by simp [hnamed, hdown, hoff])
theorem linkTrainingStart_none (h : linkNamed s id = false ∨ (getLink s id).state ≠ 0 ∨ (getLink s id).disable = true) : exec (.linkTrainingStart id) s = .next s :=
  if_pos (by simpa [or_assoc] using h)
theorem linkTrainingEnd_training (h : (getLink s id).state = 2) (ok : Bool) : exec (.linkTrainingEnd id ok) s =
    if ok = true then .next (if (getLink s id).disable then s else modLink id (fun l => { l with state := 1 }) s) else .next (linkDown id s) :=
  if_neg (by simp [h])
theorem linkTrainingEnd_none (h : (getLink s id).state ≠ 2) (ok : Bool) : exec (.linkTrainingEnd id ok) s = .next s := if_pos (by simpa using h)

-- Injectors (R285, R286) -----------------------------------------------------------------------------------------------

/-- What a write that arms stores: ARM set, and reserved bits 0. -/
def armWord (v : DWord) : DWord := (v ||| 1) &&& 0xFFFF07FF
/-- An arming that is refused: an ACTION of 3, an N of 0, or a lane that the link has not. -/
def armRefused (s : State) (id : Nat) (v : DWord) : Prop :=
  nbits (armWord v) 2 2 = 3 ∨ nbits (getLink s id).injN 0 32 = 0 ∨ linkLanes id ≤ nbits (armWord v) 5 6
theorem linkInj_refused (hid : id < 256) {v : DWord} (h : armRefused s id v) : linkInj id (v ||| 1) s = modLink id (fun l => { l with inj := armWord v &&& ~~~1 }) s := by
  refine (if_neg (Nat.not_le.2 hid)).trans ((if_neg ?_).trans (if_pos ?_))
  · simp
  · simpa [armRefused, armWord, or_assoc] using h
theorem linkInj_arms (hid : id < 256) {v : DWord} (h : ¬ armRefused s id v) :
    linkInj id (v ||| 1) s = modLink id (fun l => { l with inj := armWord v, injC := 0, injF := 0 }) s := by
  refine (if_neg (Nat.not_le.2 hid)).trans ((if_neg ?_).trans (if_neg ?_))
  · simp
  · simpa [armRefused, armWord, or_assoc] using h
theorem linkInj_none (hid : 256 ≤ id) (v : DWord) : linkInj id v s = s := if_pos hid

/-- The flit counted for the field whose port it passes. -/
def flitCounted (id : Nat) (s : State) : State :=
  if id < 128 then perfAdd (if bit (getLink s id).inj 4 then (linkEnds id).2 else (linkEnds id).1) 0x13 none none 1 s else s
/-- A link whose injector has fired after `count` flits: with REPEAT it counts anew, else it disarms. -/
def fired (count : Nat) (l : Link) : Link := { l with
  injF := if l.injF = 0xFFFFFFFF then l.injF else l.injF + 1
  injC := BitVec.ofNat 64 ((if bit l.inj 1 then 0 else count) + 2 ^ 32)
  inj := if bit l.inj 1 then l.inj else l.inj &&& ~~~1 }
/-- A flit passes an UP link; an injector that is armed and has an N counts it, and fires where its count reaches N. -/
theorem injectorFire_up (hid : id < 152) (hup : (getLink s id).state = 1) : exec (.injectorFire id) s = .next (
    let l := getLink s id
    let count := nbits l.injC 0 32 + 1
    if bit l.inj 0 = false ∨ nbits l.injN 0 32 = 0 then flitCounted id s
    else if count < nbits l.injN 0 32 then modLink id (fun l => { l with injC := setBits l.injC 0 32 count }) (flitCounted id s)
    else modLink id (fired count) (flitCounted id s)) := by
  show execInjectorFire id s = _
  simp only [execInjectorFire, Nat.not_le.2 hid, hup, decide_false, bne_self_eq_false, Bool.or_self, Bool.false_eq_true, if_false, Bool.or_eq_true, Bool.not_eq_true', beq_iff_eq]
  rfl
theorem injectorFire_none (h : 152 ≤ id ∨ (getLink s id).state ≠ 1) : exec (.injectorFire id) s = .next s := if_pos (by simpa using h)
end

/-- Settles O41: event by event, in the cases of each. -/
theorem linkEvents : Obligations.LinkEvents := by
  intro s id ok v l put down lost arm counted n live count
  refine ⟨fun hid hoff hup => ?_, fun hid hoff hup => ?_, fun h => congrArg _ (linkDis_none h), fun hid hon hdis => ?_, fun hid hon hdis => ?_,
    fun h => congrArg _ (linkEna_none h), fun hid hkind hn hlane => congrArg _ (linkInj_arms hid (not_or.2 ⟨hkind, not_or.2 ⟨hn, Nat.not_le.2 hlane⟩⟩)), fun hid h => congrArg _ (linkInj_refused hid h), fun hid => congrArg _ (linkInj_none hid _),
    fun ⟨hid, hup, harmed, hn⟩ hbelow => ?_, fun ⟨hid, hup, harmed, hn⟩ hreached => ?_, fun hid hup h => ?_, injectorFire_none,
    linkFailure_up, linkFailure_none, linkTrainingStart_down, linkTrainingStart_none, fun htraining => ⟨fun hoff => ?_, fun hon => ?_, ?_⟩,
    fun h => linkTrainingEnd_none h ok⟩
  · exact congrArg _ ((linkDis_takes hid hoff).trans (if_pos hup))
  · exact congrArg _ ((linkDis_takes hid hoff).trans (if_neg hup))
  · exact congrArg _ ((linkEna_takes hid hon).trans (if_pos hdis))
  · exact congrArg _ ((linkEna_takes hid hon).trans (if_neg hdis))
  · exact (injectorFire_up hid hup).trans (congrArg _ ((if_neg (not_or.2 ⟨ne_false_of_eq_true harmed, hn⟩)).trans (if_pos hbelow)))
  · exact (injectorFire_up hid hup).trans (congrArg _ ((if_neg (not_or.2 ⟨ne_false_of_eq_true harmed, hn⟩)).trans (if_neg (Nat.not_lt.2 hreached))))
  · exact (injectorFire_up hid hup).trans (congrArg _ (if_pos h))
  · exact (linkTrainingEnd_training htraining true).trans (congrArg _ (if_neg (Bool.eq_false_iff.1 hoff)))
  · exact (linkTrainingEnd_training htraining true).trans (congrArg _ (if_pos hon))
  · exact linkTrainingEnd_training htraining false

end Sys2Proof.Machine
end

section
/-! The configuration record (R303) under accesses to memory and to the caches (R135-R142, R160, R221-R227): none of them writes it. -/
namespace Sys2Proof.Machine

/-- The configuration record is as it was. -/
def CfgKept (s t : State) : Prop := t.cfg = s.cfg

namespace CfgKept
variable {s t : State}

theorem refl (s : State) : CfgKept s s := rfl
theorem trans {u : State} (h : CfgKept s t) (h' : CfgKept t u) : CfgKept s u := Eq.trans h' h
/-- After an operation that answers beside its state. -/
theorem of_result {α : Type} {x : α × State} {a : α} (h : CfgKept s x.2) (hx : x = (a, t)) : CfgKept s t := by
  rwa [hx] at h

-- Whichever way a choice falls -----------------------------------------------------------------------------------------

theorem ite {u : State} {p : Prop} [Decidable p] (ht : CfgKept s t) (hu : CfgKept s u) : CfgKept s (if p then t else u) := by
  split
  · exact ht
  · exact hu
theorem ite_result {α : Type} {x y : α × State} {p : Prop} [Decidable p] (hx : CfgKept s x.2) (hy : CfgKept s y.2) : CfgKept s (if p then x else y).2 := by
  split
  · exact hx
  · exact hy
theorem some_none {x : Option Nat} {u : Nat → State} (hsome : ∀ i, CfgKept s (u i)) (hnone : CfgKept s t) : CfgKept s (match x with | some i => u i | none => t) := by
  cases x with
  | none => exact hnone
  | some i => exact hsome i
theorem none_some {x : Option Nat} {u : Nat → State} (hnone : CfgKept s t) (hsome : ∀ i, CfgKept s (u i)) : CfgKept s (match x with | none => t | some i => u i) := by
  cases x with
  | none => exact hnone
  | some i => exact hsome i
theorem line_none {x : Option Line} {u : Line → State} (hline : ∀ l, CfgKept s (u l)) (hnone : CfgKept s t) : CfgKept s (match x with | some l => u l | none => t) := by
  cases x with
  | none => exact hnone
  | some l => exact hline l
theorem none_line {x : Option Line} {u : Line → State} (hnone : CfgKept s t) (hline : ∀ l, CfgKept s (u l)) : CfgKept s (match x with | none => t | some l => u l) := by
  cases x with
  | none => exact hnone
  | some l => exact hline l
theorem view {x : Target} {u : Nat → Nat → Nat → State} (hview : ∀ f w o, CfgKept s (u f w o)) (hother : CfgKept s t) :
    CfgKept s (match x with | .viewOf f w o => u f w o | _ => t) := by
  cases x with
  | viewOf f w o => exact hview f w o
  | _ => exact hother
theorem line_view {x : Option Line} {y : Target} {u : Line → Nat → Nat → Nat → State} (hview : ∀ l f w o, CfgKept s (u l f w o)) (hother : CfgKept s t) :
    CfgKept s (match x, y with | some l, .viewOf f w o => u l f w o | _, _ => t) := by
  cases x with
  | none => exact hother
  | some l =>
    cases y with
    | viewOf f w o => exact hview l f w o
    | _ => exact hother
theorem dev {x : Target} {u : Nat → State} (hdev : ∀ f, CfgKept s (u f)) (hother : CfgKept s t) : CfgKept s (match x with | .dev f _ => u f | _ => t) := by
  cases x with
  | dev f => exact hdev f
  | _ => exact hother
theorem ctl {x : Target} {u : Nat → State} (hctl : ∀ o, CfgKept s (u o)) (hother : CfgKept s t) : CfgKept s (match x with | .ctl o => u o | _ => t) := by
  cases x with
  | ctl o => exact hctl o
  | _ => exact hother

variable (h : CfgKept s t)
include h
theorem foldl {α : Type} {f : State → α → State} (hf : ∀ u a, CfgKept s u → CfgKept s (f u a)) (l : List α) : CfgKept s (l.foldl f t) :=
  foldl_inv (CfgKept s) f l t h fun a u => hf u a
theorem modFld {i : Nat} {F : Field → Field} : CfgKept s (Machine.modFld i F t) := h
theorem modCore {g : Nat} {F : Core → Core} : CfgKept s (Machine.modCore g F t) := h
theorem modBlk {b : Nat} {F : Block → Block} : CfgKept s (Machine.modBlk b F t) := h.trans (modBlk_cfg b F t)
theorem modTh {b r : Nat} {F : Thread → Thread} : CfgKept s (Machine.modTh b r F t) := h.modBlk
/-- A change of other parts of the state. -/
theorem before {u : State} (hu : u.cfg = t.cfg := by rfl) : CfgKept s u := h.trans hu

-- Threads that wake (R30, R33, R361) -----------------------------------------------------------------------------------

theorem fileThread {g b r : Nat} : CfgKept s (Machine.fileThread g b r t) :=
  some_none (fun _ => h.modCore.modTh) (some_none (fun _ => h.modCore.modTh) h.modCore.modTh)
theorem makeReady {b r : Nat} : CfgKept s (Machine.makeReady b r t) := .ite h.fileThread h.modTh.modBlk
theorem endWait {b r : Nat} {p : Wait → Bool} : CfgKept s (Machine.endWait b r p t) := .ite h.before.modTh.makeReady h.before.modTh
theorem wakeLines {f : Nat} {lns : List Nat} : CfgKept s (Machine.wakeLines f lns t) := .ite h (h.modFld.foldl (fun _ _ hu => hu.endWait) _)
theorem wakeLine {ln : Nat} : CfgKept s (Machine.wakeLine ln t) := none_some h fun _ => h.wakeLines

-- Counting, corrections, pseudo-channels and copies (R140, R171, R287, R298) ---------------------------------------------

theorem perfAdd {f code : Nat} {core : Option Nat} {req : Option Bool} {n : Nat} : CfgKept s (Machine.perfAdd f code core req n t) :=
  h.trans (perfAdd_frame State.cfg modFld_cfg ..)
theorem freeW : CfgKept s (Machine.freeW t).2 := h
theorem flits : CfgKept s (Machine.flits t) := h.foldl (fun _ _ hu => hu.freeW.perfAdd) _
theorem llcMiss {w : Option Bool} {n pa : Nat} : CfgKept s (Machine.llcMiss w n pa t) := none_some h fun _ => .ite h h.freeW.perfAdd
theorem crossReq {w : Option Bool} {n f f' : Nat} : CfgKept s (Machine.crossReq w n f f' t) := .ite h h.perfAdd.perfAdd.flits
theorem homeReq {w : Option Bool} {f ln : Nat} : CfgKept s (Machine.homeReq w f ln t) := none_some h fun _ => h.crossReq.llcMiss
theorem walkReq {w : Bool} {fld : Option Nat} {ln : Nat} : CfgKept s (Machine.walkReq w fld ln t) := by
  cases fld with
  | none => exact h.llcMiss
  | some => exact h.homeReq
theorem correctHome {pa n : Nat} : CfgKept s (Machine.correctHome pa n t) := .ite h (some_none (fun _ => h.before.modFld.modFld) h.before)
theorem wakePch {pa : Nat} : CfgKept s (Machine.wakePch pa t) := dev (fun _ => .ite (.ite h.before h) (modFld (.ite h.before h))) h
/-- The data of a line that a window shows lie in one pseudo-channel, and its scales, where it has any, in another. -/
theorem wakePchs {data scales : Nat} {p : Prop} [Decidable p] : CfgKept s (Machine.wakePch data (if p then t else Machine.wakePch scales t)) := wakePch (.ite h h.wakePch)
theorem overtake {ln : Nat} {m : BitVec 128} : CfgKept s (Machine.overtake ln m t) := .ite h h.before

-- Homes (R138, R140-R142) ----------------------------------------------------------------------------------------------

theorem aliasDrop {ln : Nat} : CfgKept s (Machine.aliasDrop ln t) :=
  line_view (fun _ _ _ _ => .ite h.before (wakeLines (wakePchs (.ite h.before h.before.modFld)))) h
theorem aliasWay {f pa : Nat} : CfgKept s (Machine.aliasWay f pa t).2 := by
  delta Machine.aliasWay
  extract_lets ws
  split
  · exact h
  · exact h.freeW.foldl (fun _ _ hu => hu.aliasDrop) _
theorem homeRead {ln : Nat} : CfgKept s (Machine.homeRead ln t).2 := by
  fun_cases Machine.homeRead ln t
  case case1 => exact h
  case case2 f w o _ _ e n sb sn _ read v bad d p way u hway =>
    have hread : CfgKept s read := h.correctHome.correctHome
    have hkept : CfgKept s u := hread.wakePchs.aliasWay.of_result hway
    exact hkept.before
  case case3 => exact h.wakePch.correctHome
theorem homeWrite {ln : Nat} {d : BitVec 1024} {m : BitVec 128} : CfgKept s (Machine.homeWrite ln d m t) :=
  .ite h (.view (fun _ _ _ => line_none (fun _ => h.overtake.homeRead.before) h.overtake.homeRead) h.overtake.before.wakePch.wakeLine)
theorem homePoison {ln : Nat} {p : BitVec 16} {m : BitVec 128} : CfgKept s (Machine.homePoison ln p m t) := .ite h (.view (fun _ _ _ => h.before) h.before)

-- Caches (R135, R139, R161) --------------------------------------------------------------------------------------------

theorem cleanRdc {f ln : Nat} : CfgKept s (Machine.cleanRdc f ln t) := none_line h fun _ => .ite h h.homeReq.modFld.homeWrite.homePoison
theorem rdcRoom {f ln : Nat} : CfgKept s (Machine.rdcRoom f ln t) := .ite h h.freeW.cleanRdc.modFld
theorem fldWrite {w : Option Bool} {f ln : Nat} {d : BitVec 1024} {m : BitVec 128} : CfgKept s (Machine.fldWrite w f ln d m t) :=
  .ite h.overtake.rdcRoom.modFld h.homeReq.homeWrite
theorem cleanL1 {g ln : Nat} : CfgKept s (Machine.cleanL1 g ln t) :=
  none_line h fun _ => .ite h (.ite h.modCore.fldWrite.modFld h.modCore.fldWrite.homePoison)
theorem pushWords {g ln : Nat} {m : BitVec 128} : CfgKept s (Machine.pushWords g ln m t) :=
  .ite (.ite h h.cleanL1) (.cleanRdc (.ite h h.cleanL1))

-- Translation (R221-R227) ----------------------------------------------------------------------------------------------

theorem readPte {w : Bool} {fld : Option Nat} {pa : Nat} : CfgKept s (Machine.readPte w fld pa t).2 := h.walkReq.homeRead
theorem walkKeep {fld : Option Nat} {root level : Nat} {va : DWord} {table : Nat} : CfgKept s (Machine.walkKeep fld root level va table t) := none_some h fun _ => h.modFld
theorem walkFrom {fld : Option Nat} {root : Nat} {sec : Bool} {va : DWord} {n table : Nat} : CfgKept s (Machine.walkFrom fld root sec va n table t).2 := by
  fun_induction Machine.walkFrom fld root sec va n table t
  case case1 | case3 => exact h
  case case2 ih => exact ih h
  case case4 | case5 | case6 | case7 | case8 | case10 => exact h.readPte.of_result ‹_›
  case case9 hread _ _ _ _ _ _ ih => exact ih (h.readPte.of_result hread).walkKeep
theorem walk {fld : Option Nat} {root : Nat} {sec : Bool} {va : DWord} : CfgKept s (Machine.walk fld root sec va t).2 := ite_result h (ite_result h.walkFrom h)
theorem leafEntry {root level at_ : Nat} {pte va : DWord} {sec d : Bool} : CfgKept s (Machine.leafEntry root level at_ pte va sec d t).2 := by
  delta Machine.leafEntry
  dsimp only
  split
  · split <;> exact h.homeRead
  · exact h
theorem setTlb {a : Agent} {l : List TlbEntry} : CfgKept s (Machine.setTlb a l t) := by
  cases a with
  | core => exact h.modCore
  | ttu => exact h.modFld
  | term => exact h.before
theorem translateWalk {ag : Agent} {root : Nat} {sec : Bool} {va : DWord} {acc : Nat} : CfgKept s (Machine.translateWalk ag root sec va acc t).2 := by
  fun_cases Machine.translateWalk ag root sec va acc t
  case case1 hwalk | case3 hwalk _ _ _ _ _ => exact h.walk.of_result hwalk
  case case2 level at_ pte u hwalk _ _ _ _ pa _ _ pte' v e x hleaf _ =>
    have hu : CfgKept s u := h.walk.of_result hwalk
    have hmarked : CfgKept s v := .ite hu hu.walkReq.homeWrite
    exact (hmarked.leafEntry.of_result hleaf).setTlb
theorem translate {ag : Agent} {root : Nat} {sec : Bool} {va : DWord} {acc : Nat} : CfgKept s (Machine.translate ag root sec va acc t).2 := by
  delta Machine.translate
  split
  · exact ite_result h.translateWalk h
  · exact h.translateWalk

-- Engines (R146, R169, R226) -------------------------------------------------------------------------------------------

theorem ttuXl {f root : Nat} {sec : Bool} {va acc : Nat} : CfgKept s (Machine.ttuXl f root sec va acc t).2 := by
  delta Machine.ttuXl
  have hx := h.translate (ag := .ttu f) (root := root) (sec := sec) (va := BitVec.ofNat 64 va) (acc := acc)
  revert hx
  generalize Machine.translate _ _ _ _ _ _ = x
  obtain ⟨r, u⟩ := x
  cases r <;> exact id
theorem ttuParts {f root : Nat} {sec : Bool} {acc : Nat} {l : List (Nat × Nat × Nat)} : CfgKept s (Machine.ttuParts f root sec acc l t).2 := by
  induction l generalizing t with
  | nil => exact h
  | cons x l ih =>
    have hx := h.ttuXl (f := f) (root := root) (sec := sec) (va := x.1 * 128 + x.2.1) (acc := acc)
    conv => arg 2; arg 1; whnf -- one step of the recursion
    revert hx
    generalize Machine.ttuXl _ _ _ _ _ _ = y
    obtain ⟨r, u⟩ := y
    cases r with
    | error => exact id
    | ok =>
      intro hu
      have hrest := ih hu
      revert hrest
      dsimp only
      generalize Machine.ttuParts _ _ _ _ l u = z
      obtain ⟨r, v⟩ := z
      cases r <;> exact id
theorem writeParts {sec : Bool} {lost : List Nat} {g : Nat} {l : List (Nat × Nat)} {bs : List Byte} : CfgKept s (Machine.writeParts sec lost g l bs t) := by
  induction l generalizing bs t with
  | nil => exact h
  | cons x l ih => exact ih (modFld (modCore (ctl (fun _ => h.before) h.pushWords.homeReq.homeWrite)))
theorem ttuWrite {g root : Nat} {sec : Bool} {va : Nat} {bs : List Byte} {lost : List Nat} : CfgKept s (Machine.ttuWrite g root sec va bs t lost).2 := by
  delta Machine.ttuWrite
  split
  · exact h.ttuParts.of_result ‹_›
  · exact (h.ttuParts.of_result ‹_›).writeParts
/-- A result written to the members of this package. -/
theorem deliverTo {k : Collective} {lo : Nat} {bs : List Byte} {l : List CMember} : CfgKept s (Machine.deliverTo k lo bs l t).2 := by
  induction l generalizing t with
  | nil => exact h
  | cons m l ih =>
    have hwrite : CfgKept s (dstWrite k m lo bs t).2 := h.before.ttuWrite
    conv => arg 2; arg 1; whnf -- one step of the recursion
    revert hwrite
    generalize dstWrite k m lo bs t = x
    obtain ⟨r, u⟩ := x
    cases r with
    | error => exact id
    | ok => exact ih
/-- The package's number is one of the record's. -/
theorem pkgId_eq : pkgId t = pkgId s := by
  rw [pkgId, cfgBits, h]
  rfl

end CfgKept
end Sys2Proof.Machine
end

section
/-! The chunks and trees of a collective, and the messages of other packages (R266-R277, R459). -/
namespace Sys2Proof.Machine

-- When a chunk is due (R271, R277) -----------------------------------------------------------------------------------

/-- A member's part of a chunk waits where an access of it to a chunk of the same tree has faulted. -/
theorem partWaits_iff (k : Collective) (m : CMember) (c : Nat) : partWaits k m c = true ↔ ∃ x ∈ m.faults, treeNo k x.1 = treeNo k c :=
  List.any_eq_true.trans (exists_congr fun _ => and_congr_right' beq_iff_eq)
/-- A chunk that runs is of a collective whose mileposts are zeroed, and is not set back. -/
theorem zeroed_of_chunkRuns {s : State} {k : Collective} {c : Nat} (h : chunkRuns s k c = true) : k.zeroed = true ∧ (k.chunks.getD c {}).reset = false := by
  have hruns := Bool.and_elim_left h
  exact ⟨Bool.and_elim_left (Bool.and_elim_left (Bool.and_elim_left (Bool.and_elim_left hruns))), Bool.eq_false_of_not_eq_true' (Bool.and_elim_right hruns)⟩

-- Guards, and what a search finds ------------------------------------------------------------------------------------------

theorem or_eq_false {a b : Bool} (ha : a = false) (hb : b = false) : (a || b) = false := Bool.or_eq_false_iff.2 ⟨ha, hb⟩
theorem not_eq_false {a : Bool} (ha : a = true) : (!a) = false := congrArg not ha
theorem ite_unmet {α : Type} {a : Bool} {x y : α} (ha : a = false) : (if a = true then x else y) = y := if_neg (Bool.eq_false_iff.1 ha)
theorem ite_beq {α : Type} {a b : Nat} {x y : α} : (if (a == b) = true then x else y) = if a = b then x else y := if_congr beq_iff_eq rfl rfl
theorem ite_eq_false {p q : Prop} {i j : Nat} {a b : Bool} (ha : p → a = false) (hb : q → b = false) (h : if i = j then p else q) :
    (if (i == j) = true then a else b) = false := by
  rw [ite_beq]
  split at h
  next hij => exact (if_pos hij).trans (ha h)
  next hij => exact (if_neg hij).trans (hb h)
/-- A guard moves from the step into the state that follows. -/
theorem next_ite {a : Bool} {p : Prop} [Decidable p] {x y : State} (h : a = true ↔ p) :
    (if a = true then .next x else .next y : Host.Outcome State Fault Refusal) = .next (if p then x else y) := by
  rw [if_congr h rfl rfl, apply_ite Host.Outcome.next]
theorem coll_found {β : Type} {k : Collective} {u : Collective → β} {v : β} {x : Option Collective} :
    x = some k → (match x with | none => v | some k => u k) = u k := by
  rintro rfl
  rfl
theorem found_coll {β : Type} {k : Collective} {u : Collective → β} {v : β} {x : Option Collective} :
    x = some k → (match x with | some k => u k | none => v) = u k := by
  rintro rfl
  rfl
theorem member_found {β : Type} {k : CMember} {u : CMember → β} {v : β} {x : Option CMember} :
    x = some k → (match x with | none => v | some k => u k) = u k := by
  rintro rfl
  rfl
theorem edge_found {β : Type} {k : Edge} {u : Edge → β} {v : β} {x : Option Edge} :
    x = some k → (match x with | none => v | some k => u k) = u k := by
  rintro rfl
  rfl

/-- The members of this package but the root. -/
def ownMembers (s : State) (k : Collective) : List CMember :=
  k.members.filter (fun x => x.pkg == pkgId s && x.pkg * 64 + x.field != gRoot (collDescOf k))

/-- Nothing keeps a chunk's result from this package's members. -/
theorem deliver_unbarred {s : State} {k : Collective} {c : Nat} (hruns : chunkRuns s k c = true) (hchunk : c < gCount (collDescOf k))
    (hphase : (k.chunks.getD c {}).phase = 2) (hfree : ∀ x ∈ ownMembers s k, partWaits k x c = false) :
    (!chunkRuns s k c || decide (gCount (collDescOf k) ≤ c) || (k.chunks.getD c {}).phase != 2 || (ownMembers s k).any (fun x => partWaits k x c)) = false := by
  have hfree : (ownMembers s k).any (fun x => partWaits k x c) = false := List.any_eq_false.2 fun x hx => Bool.eq_false_iff.1 (hfree x hx)
  simp only [hruns, Nat.not_le.2 hchunk, hphase, hfree, Bool.not_true, decide_false, bne_self_eq_false, Bool.or_self]

-- A partial for another package (R271, R272) ---------------------------------------------------------------------------

/-- The node's partial stands ready for its parent. -/
def partialReady (k : Collective) (c node : Nat) (arrived : List Nat) (s : State) : State :=
  modChunk k.seq c (fun x => { x with phase := 1, sent := x.sent ++ [node], arrived := arrived }) (flits s)

section
variable {s : State} {k : Collective} {c node : Nat} {m : CMember} (hroot : memberOf k (gRoot (collDescOf k)) = some m)
include hroot
/-- A partial for a parent in another package stands ready at once where the root is not here, or its milepost shows the chunk REDUCING already. -/
theorem sendOut_ready (h : m.pkg ≠ pkgId s ∨ (k.chunks.getD c {}).phase = 1) : sendOut k c node s = partialReady k c node (k.chunks.getD c {}).arrived s :=
  (member_found hroot).trans (if_pos (Bool.or_eq_true_iff.2 (h.imp bne_iff_ne.2 beq_iff_eq.2)))
/-- Else the milepost of the root is written first. -/
theorem sendOut_milepost (hhere : m.pkg = pkgId s) (hphase : (k.chunks.getD c {}).phase ≠ 1) (hfree : partWaits k m c = false) :
    (∀ s1, mileWrite k m c 1 1 s = (.ok (), s1) → sendOut k c node s = partialReady k c node [gRoot (collDescOf k)] s1) ∧
    (∀ x s1, mileWrite k m c 1 1 s = (.error x, s1) → sendOut k c node s = collFault m k.seq c 7 x false s1) := by
  have hdue : sendOut k c node s = _ := (member_found hroot).trans ((ite_unmet (or_eq_false (bne_eq_false_iff_eq.2 hhere) (beq_eq_false_iff_ne.2 hphase))).trans
    (ite_unmet hfree))
  have hout := fun x (hx : mileWrite _ _ _ _ _ s = x) => hx ▸ hdue
  exact ⟨fun _ hmile => hout _ hmile, fun _ _ hmile => hout _ hmile⟩
end

section
variable {s s' : State} {seq : DWord} {k : Collective} {c node : Nat} (hk : collOf s seq = some k)
include hk

-- CHUNK_PARTIAL_ARRIVAL (R271-R273) ----------------------------------------------------------------------------------

theorem chunkPartialArrival_starts (hzero : k.zeroed = false) : exec (.chunkPartialArrival seq c node) s = .next (collStart seq s) :=
  (coll_found hk).trans (if_pos (congrArg not hzero))
theorem chunkPartialArrival_resets (hzero : k.zeroed = true) (hreset : (k.chunks.getD c {}).reset = true) :
    exec (.chunkPartialArrival seq c node) s = .next (collResets seq s) :=
  (coll_found hk).trans ((ite_unmet (not_eq_false hzero)).trans (if_pos hreset))
theorem chunkPartialArrival_due {e : Edge} (hedge : (chunkTree k c).find? (fun e => e.b == node) = some e) (hruns : chunkRuns s k c = true)
    (hkind : gKind (collDescOf k) ≠ 2) (hchunk : c < gCount (collDescOf k)) (hphase : (k.chunks.getD c {}).phase ≤ 1) (horder : chunkOrder k c 1 = true)
    (hfresh : node ∉ (k.chunks.getD c {}).sent) (hhere : node / 64 = pkgId s) (hbelow : ∀ x ∈ chunkTree k c, x.a = node → x.b ∈ (k.chunks.getD c {}).sent)
    (hfree : nodeWaits k c node = false) (hup : nodeWaits k c e.a = false) :
    (∀ p, nodePartial k (k.chunks.getD c {}) c node s = (.ok p, s') →
      exec (.chunkPartialArrival seq c node) s = .next (if e.a / 64 != pkgId s' then sendOut k c node s' else mergeChild k c e p s')) ∧
    (∀ m x, nodePartial k (k.chunks.getD c {}) c node s = (.error (m, x), s') → exec (.chunkPartialArrival seq c node) s = .next (collFault m seq c 6 x false s')) := by
  obtain ⟨hzero, hreset⟩ := zeroed_of_chunkRuns hruns
  have hbelow : ((chunkTree k c).filter (fun x => x.a == node)).all (fun x => (k.chunks.getD c {}).sent.contains x.b) = true := by
    refine List.all_eq_true.2 fun x hx => ?_
    obtain ⟨hx, ha⟩ := List.mem_filter.1 hx
    exact List.contains_iff_mem.2 (hbelow x hx (beq_iff_eq.1 ha))
  have hfresh : (k.chunks.getD c {}).sent.contains node = false := Bool.eq_false_iff.2 (mt List.contains_iff_mem.1 hfresh)
  have hdue : exec (.chunkPartialArrival seq c node) s = _ :=
    (coll_found hk).trans ((ite_unmet (not_eq_false hzero)).trans ((ite_unmet hreset).trans ((edge_found hedge).trans (ite_unmet (by
      simp only [hruns, beq_eq_false_iff_ne.2 hkind, Nat.not_le.2 hchunk, Nat.not_lt.2 hphase, horder, hfresh, hhere, hbelow, hfree, hup,
        Bool.not_true, decide_false, bne_self_eq_false, Bool.or_self])))))
  have hout := fun x (hx : nodePartial _ _ _ _ s = x) => hx ▸ hdue
  exact ⟨fun _ hp => hout _ hp, fun _ _ hp => hout _ hp⟩

-- CHUNK_REDUCED (R271-R274) ------------------------------------------------------------------------------------------

/-- The contributions the root's partial is made of: of a broadcast, the root's own. -/
def rootPartial (s : State) (k : Collective) (c : Nat) : Except (CMember × EFault) (List (List Byte)) × State :=
  nodePartial k (if gKind (collDescOf k) = 2 then {} else k.chunks.getD c {}) c (gRoot (collDescOf k)) s
/-- What the root writes to its destination. -/
def rootResult (k : Collective) (p : List (List Byte)) : List Byte := if gKind (collDescOf k) = 2 then p.headD [] else chunkResult (collDescOf k) p
/-- The phase of a chunk whose result stands at the root: a reduction to the root is delivered with it. -/
def reducedPhase (k : Collective) : Nat := if gKind (collDescOf k) = 1 then 3 else 2

variable {m : CMember} (hroot : memberOf k (gRoot (collDescOf k)) = some m) (hruns : chunkRuns s k c = true) (hchunk : c < gCount (collDescOf k))
include hroot hruns hchunk
/-- The root's part of a chunk, as far as it comes: read, written to the destination, and shown in the milepost. -/
theorem chunkReduced_due {lo n : Nat} (hspan : chunkSpan (collDescOf k) c = (lo, n)) (hhere : m.pkg = pkgId s) (hfree : partWaits k m c = false)
    (horder : chunkOrder k c 2 = true)
    (hphase : if gKind (collDescOf k) = 2 then (k.chunks.getD c {}).phase = 0
      else (k.chunks.getD c {}).phase = 1 ∧ ∀ n ∈ gMembers (collDescOf k), n ∈ (k.chunks.getD c {}).arrived) :
    (∀ x e, rootPartial s k c = (.error (x, e), s') → exec (.chunkReduced seq c) s = .next (collFault x seq c 6 e false s')) ∧
    (∀ p s1 x, rootPartial s k c = (.ok p, s') → dstWrite k m lo (rootResult k p) s' = (.error x, s1) →
      exec (.chunkReduced seq c) s = .next (collFault m seq c 7 x false s1)) ∧
    (∀ p s1 s2, rootPartial s k c = (.ok p, s') → dstWrite k m lo (rootResult k p) s' = (.ok (), s1) →
      mileWrite k m c (reducedPhase k) (k.chunks.getD c {}).arrived.length s1 = (.ok (), s2) →
      exec (.chunkReduced seq c) s = .next (collEnd seq (modChunk seq c (fun x => { x with phase := reducedPhase k, partials := [], sent := [], result := [] }) s2))) := by
  have hphase : (if gKind (collDescOf k) == 2 then (k.chunks.getD c {}).phase != 0
      else (k.chunks.getD c {}).phase != 1 || !(gMembers (collDescOf k)).all (fun n => (k.chunks.getD c {}).arrived.contains n)) = false := by
    refine ite_eq_false bne_eq_false_iff_eq.2 (fun h => ?_) hphase
    obtain ⟨hone, hall⟩ := h
    exact or_eq_false (bne_eq_false_iff_eq.2 hone) (not_eq_false (List.all_eq_true.2 fun n hn => List.contains_iff_mem.2 (hall n hn)))
  have hdue : exec (.chunkReduced seq c) s = _ :=
    (coll_found hk).trans ((member_found hroot).trans (ite_unmet (by
      simp only [hruns, hhere, hfree, Nat.not_le.2 hchunk, horder, hphase, Bool.not_true, decide_false, bne_self_eq_false, Bool.or_self])))
  rw [hspan] at hdue
  have hread : nodePartial k (if gKind (collDescOf k) == 2 then {} else k.chunks.getD c {}) c (gRoot (collDescOf k)) s = rootPartial s k c :=
    congrArg (fun ch => nodePartial k ch c (gRoot (collDescOf k)) s) ite_beq
  have hresult : ∀ p, (if gKind (collDescOf k) == 2 then p.headD [] else chunkResult (collDescOf k) p) = rootResult k p := fun _ => ite_beq
  have hlevel : (if gKind (collDescOf k) == 1 then 3 else 2) = reducedPhase k := ite_beq
  have hout := fun x (hx : rootPartial s k c = x) => (hread.trans hx) ▸ hdue
  refine ⟨fun x e hp => hout _ hp, fun p s1 x hp hw => ?_, fun p s1 s2 hp hw hmile => ?_⟩
  · rw [hout _ hp]
    dsimp only
    rw [hresult, hw]
  · rw [hout _ hp]
    dsimp only
    rw [hresult, hw]
    dsimp only
    rw [hlevel, hmile]

-- CHUNK_DELIVERED (R271-R273) ----------------------------------------------------------------------------------------

variable {lo n : Nat} (hspan : chunkSpan (collDescOf k) c = (lo, n)) (hphase : (k.chunks.getD c {}).phase = 2) (hfree : ∀ x ∈ ownMembers s k, partWaits k x c = false)
include hspan hphase hfree
/-- Away from the root, the chunk's result goes to the members of this package once. -/
theorem chunkDelivered_away (haway : m.pkg ≠ pkgId s) (hfirst : pkgId s ∉ (k.chunks.getD c {}).pkgsDone) :
    (deliverTo k lo (k.chunks.getD c {}).result (ownMembers s k) s = (none, s') →
      exec (.chunkDelivered seq c) s = .next (modChunk seq c (fun x => { x with pkgsDone := x.pkgsDone ++ [pkgId s] }) (flits s'))) ∧
    (∀ x e, deliverTo k lo (k.chunks.getD c {}).result (ownMembers s k) s = (some (x, e), s') →
      exec (.chunkDelivered seq c) s = .next (collFault x seq c 7 e false s')) := by
  have hdue : exec (.chunkDelivered seq c) s = _ := (coll_found hk).trans (member_found hroot)
  rw [hspan] at hdue
  have hdue := hdue.trans ((ite_unmet (deliver_unbarred hruns hchunk hphase hfree)).trans ((if_pos (bne_iff_ne.2 haway)).trans
    (ite_unmet (Bool.eq_false_iff.2 (mt List.contains_iff_mem.1 hfirst)))))
  have hout := fun x (hx : deliverTo _ _ _ (ownMembers s k) s = x) => hx ▸ hdue
  refine ⟨fun hdeliver => ?_, fun _ _ hdeliver => hout _ hdeliver⟩
  rw [hout _ hdeliver]
  dsimp only
  rw [((CfgKept.refl s).deliverTo.of_result hdeliver).pkgId_eq]
/-- At the root, the chunk's result is read back, goes to the other members of this package, and the milepost shows it delivered. -/
theorem chunkDelivered_root (hhere : m.pkg = pkgId s) (hself : partWaits k m c = false) (horder : chunkOrder k c 3 = true)
    (hdone : ∀ p ∈ gPkgs (collDescOf k), p = pkgId s ∨ p ∈ (k.chunks.getD c {}).pkgsDone) :
    (∀ bs s1 s2, memberRead m (m.dst.toNat + lo) n s = (.ok bs, s1) →
      deliverTo k lo bs (ownMembers s k) s1 = (none, s2) → mileWrite k m c 3 (k.chunks.getD c {}).arrived.length s2 = (.ok (), s') →
      exec (.chunkDelivered seq c) s = .next (collEnd seq (modChunk seq c (fun x => { x with phase := 3 }) (flits s')))) ∧
    (∀ e, memberRead m (m.dst.toNat + lo) n s = (.error e, s') →
      exec (.chunkDelivered seq c) s = .next (collFault m seq c 6 e false s')) := by
  have hdone : (gPkgs (collDescOf k)).all (fun p => p == pkgId s || (k.chunks.getD c {}).pkgsDone.contains p) = true :=
    List.all_eq_true.2 fun p hp => Bool.or_eq_true_iff.2 ((hdone p hp).imp beq_iff_eq.2 List.contains_iff_mem.2)
  have hdue : exec (.chunkDelivered seq c) s = _ := (coll_found hk).trans (member_found hroot)
  rw [hspan] at hdue
  have hdue := hdue.trans ((ite_unmet (deliver_unbarred hruns hchunk hphase hfree)).trans ((ite_unmet (bne_eq_false_iff_eq.2 hhere)).trans
    (ite_unmet (or_eq_false (or_eq_false hself (not_eq_false horder)) (not_eq_false hdone)))))
  have hout := fun x (hx : memberRead _ _ _ s = x) => hx ▸ hdue
  refine ⟨fun bs s1 s2 hread hdeliver hmile => ?_, fun _ hread => hout _ hread⟩
  rw [hout _ hread]
  unfold ownMembers at hdeliver
  dsimp only
  rw [hdeliver]
  dsimp only
  rw [hmile]
end

section
variable {s s' : State} {seq : DWord} {k : Collective} {c node : Nat} (hk : collOf s seq = some k)
include hk

-- RE_TREE (R276) -----------------------------------------------------------------------------------------------------

/-- A paused collective in its next generation: a new tree set, and each chunk set back to where its milepost lets it resume. -/
def newGeneration (seq : DWord) (k : Collective) (s : State) : State :=
  modColl seq (fun k' => { k' with
    paused := false, trees := buildTrees s (collDescOf k), gen := k'.gen + 1
    chunks := k'.chunks.map (fun c =>
      if c.phase ≤ 1 then { ({} : Chunk) with reset := c.reset || (decide (gRoot (collDescOf k) / 64 = pkgId s) && c.phase == 1) }
      else if c.phase == 2 then { c with pkgsDone := [] } else c) }) (sbEvent (3, 0) .note (countRetree k s))
theorem reTree_paused (hpaused : k.paused = true) (hstatus : k.status = none) :
    exec (.reTree seq) s = .next (if buildTrees s (collDescOf k) = [] then collFinish seq 0x34 (newGeneration seq k s) else collResets seq (newGeneration seq k s)) :=
  (coll_found hk).trans ((ite_unmet (or_eq_false (not_eq_false hpaused) (Option.isSome_eq_false_iff.2 (Option.isNone_iff_eq_none.2 hstatus)))).trans
    (congrArg Host.Outcome.next (if_congr List.isEmpty_iff rfl rfl)))
theorem reTree_none (h : k.paused = false ∨ k.status ≠ none) : exec (.reTree seq) s = .next s :=
  (coll_found hk).trans (if_pos (Bool.or_eq_true_iff.2 (h.imp (congrArg not) Option.isSome_iff_ne_none.2)))

-- What other packages send (R266, R268, R271) ------------------------------------------------------------------------

theorem quifin_partialChunk {e : Edge} (hedge : (chunkTree k c).find? (fun e => e.b == node) = some e) (hruns : chunkRuns s k c = true)
    (hfar : node / 64 ≠ pkgId s) (hparent : e.a / 64 = pkgId s) (hkind : gKind (collDescOf k) ≠ 2) (hchunk : c < gCount (collDescOf k))
    (hphase : (k.chunks.getD c {}).phase ≤ 1) (horder : chunkOrder k c 1 = true) (hfresh : node ∉ (k.chunks.getD c {}).sent) (hup : nodeWaits k c e.a = false) (parts : List (List Byte)) :
    exec (.quifinMessage (.partialChunk seq c node parts)) s = .next (mergeChild k c e parts s) :=
  (coll_found hk).trans ((edge_found hedge).trans (ite_unmet (by
    simp only [hruns, beq_eq_false_iff_ne.2 hfar, hparent, beq_eq_false_iff_ne.2 hkind, Nat.not_le.2 hchunk, Nat.not_lt.2 hphase, horder, hfresh, hup,
      List.contains_eq_mem, Bool.not_true, decide_false, bne_self_eq_false, Bool.or_self])))
theorem quifin_resultChunk (bytes : List Byte) : exec (.quifinMessage (.resultChunk seq c bytes)) s = .next (
    if collRuns s k = true ∧ gRoot (collDescOf k) / 64 ≠ pkgId s ∧ c < gCount (collDescOf k) ∧ (k.chunks.getD c {}).phase ≤ 1 then
      modChunk seq c (fun x => { x with phase := 2, result := bytes }) s else s) := by
  refine (found_coll hk).trans ((next_ite (p := ¬ _) ?_).trans (congrArg _ (ite_not ..)))
  simp only [Bool.or_eq_true, Bool.not_eq_true', beq_iff_eq, decide_eq_true_eq, not_and_or, Bool.not_eq_true, not_ne_iff, Nat.not_lt, Nat.not_le, or_assoc]
theorem quifin_chunkDone (pkg : Nat) : exec (.quifinMessage (.chunkDone seq c pkg)) s = .next (
    if collRuns s k = false ∨ pkg = pkgId s ∨ gCount (collDescOf k) ≤ c then s
    else if gRoot (collDescOf k) / 64 = pkg then collEnd seq (modChunk seq c (fun x => { x with phase := 3 }) s)
    else if gRoot (collDescOf k) / 64 = pkgId s then modChunk seq c (fun x => { x with pkgsDone := x.pkgsDone ++ [pkg] }) s
    else s) := by
  refine (found_coll hk).trans (Eq.trans (congrArg (ite _ _) ?_) (next_ite ?_))
  · exact (congrArg (ite _ _) (next_ite beq_iff_eq)).trans (next_ite beq_iff_eq)
  · simp only [Bool.or_eq_true, Bool.not_eq_true', beq_iff_eq, decide_eq_true_eq, or_assoc]
end

section
variable {s : State} {pkg : Nat}
theorem quifin_coll {field : Nat} {desc : List Byte} : exec (.quifinMessage (.coll pkg field desc)) s = .next (
    if pkg = pkgId s ∨ 16 ≤ pkg ∨ 64 ≤ field ∨ desc.length ≠ 64 then s
    else collAccept { id := s.nextId, pkg := pkg, field := field, blk := 0, tag := 0, src := 0, dst := 0, desc := desc } false { s with nextId := s.nextId + 1 }) :=
  next_ite (by simp only [Bool.or_eq_true, beq_iff_eq, decide_eq_true_eq, bne_iff_ne, or_assoc])
/-- A link table: links that were UP and are so no longer pause what uses them, and each collective that waits for tables is judged again. -/
theorem quifin_links {up : List Nat} {far : List (Nat × Nat × Nat)} {fal : Nat} : exec (.quifinMessage (.links pkg up far fal)) s = .next (
    if pkg = pkgId s ∨ 16 ≤ pkg then s else
      let old : RemoteLinks := mget default s.remoteLinks pkg
      let u := pauseRemote pkg old (old.up.filter (fun n => !up.contains n)) { s with remoteLinks := mput s.remoteLinks pkg { up := up, far := far, fallow := fal } }
      u.colls.foldl (fun s k =>
        if k.started = false ∧ k.status = none ∧ groupBad s (collDescOf k) = true then collFinish k.seq 0x31 s else collStart k.seq s) u) := by
  refine (next_ite (by simp only [Bool.or_eq_true, beq_iff_eq, decide_eq_true_eq])).trans (congrArg _ (if_congr Iff.rfl rfl ?_))
  refine congrArg (fun f => List.foldl f _ _) (funext fun s => funext fun k => if_congr ?_ rfl rfl)
  simp only [Bool.and_eq_true, Bool.not_eq_true', Option.isNone_iff_eq_none, and_assoc]
end

/-- Settles O35: event by event, a chunk's in the cases of what its accesses meet. -/
theorem collectiveEvents : Obligations.CollectiveEvents := by
  intro s s' seq k c node pkg field fal up far desc bytes parts denied d ch t own hk
  have hspan : chunkSpan d c = ((chunkSpan d c).1, (chunkSpan d c).2) := rfl
  refine ⟨chunkPartialArrival_starts hk, chunkPartialArrival_resets hk,
    fun e _ hedge hruns hkind hchunk hphase horder hfresh hhere hbelow hfree hup => ?sends,
    fun m hroot hruns hhere hfree hchunk horder hphase => chunkReduced_due hk hroot hruns hchunk hspan hhere hfree horder hphase,
    fun m hroot hruns hchunk hphase hfree => ⟨chunkDelivered_away hk hroot hruns hchunk hspan hphase hfree,
      chunkDelivered_root hk hroot hruns hchunk hspan hphase hfree⟩,
    reTree_paused hk, fun m => partWaits_iff k m c, reTree_none hk, quifin_coll, quifin_links,
    fun e hedge hruns hfar hparent hkind hchunk hphase horder hfresh hup => quifin_partialChunk hk hedge hruns hfar hparent hkind hchunk hphase horder hfresh hup parts,
    rfl, quifin_resultChunk hk bytes, quifin_chunkDone hk pkg⟩
  case sends =>
    obtain ⟨hsends, hfaults⟩ := chunkPartialArrival_due (s' := s') hk hedge hruns hkind hchunk hphase horder hfresh hhere hbelow hfree hup
    refine ⟨fun p hp hparent => ?_, fun p hp hparent m hroot => ⟨fun h => ?_, fun hmhere hnot hmfree => ⟨fun s1 hmile => ?_, fun x s1 hmile => ?_⟩⟩, hfaults⟩
    · exact (hsends p hp).trans (congrArg _ (ite_unmet (bne_eq_false_iff_eq.2 hparent)))
    all_goals refine (hsends p hp).trans (congrArg _ ((if_pos (bne_iff_ne.2 hparent)).trans ?_))
    · exact sendOut_ready hroot h
    · exact (sendOut_milepost hroot hmhere hnot hmfree).1 s1 hmile
    · exact (sendOut_milepost hroot hmhere hnot hmfree).2 x s1 hmile
end Sys2Proof.Machine
end

section
/-! The fields of a word: read from their joined bits, and joined from what is read (R314-R317, R328). -/
namespace Sys2Proof.Encoding

section
variable {α : Type}
/-- A function of fields of the widths `ns`, highest first. -/
abbrev OfFields (α : Type) (ns : List Nat) : Type := ns.foldr (fun n β => BitVec n → β) α
/-- The bits of fields of the widths `ns` below `k` bits. -/
abbrev width (k : Nat) (ns : List Nat) : Nat := ns.foldl (· + ·) k
/-- Bits with fields joined below them. -/
def joined : ∀ (ns : List Nat) (k : Nat), BitVec k → OfFields (BitVec (width k ns)) ns
  | [], _, x => x
  | n :: ns, k, x => fun y => joined ns (k + n) (x ++ y)
/-- A function of a word's fields, the last of them at bit 0. -/
def ofCut {w : Nat} (x : BitVec w) : ∀ ns : List Nat, OfFields α ns → α
  | [], a => a
  | n :: ns, f => ofCut x ns (f (x.extractLsb' ns.sum n))
/-- `P` of the word of `x` and of any fields below it, and of what `f` makes of the fields. -/
def EachWord : ∀ (ns : List Nat) (k : Nat), BitVec k → OfFields α ns → (BitVec (width k ns) → α → Prop) → Prop
  | [], _, x, a, P => P x a
  | n :: ns, k, x, f, P => ∀ y : BitVec n, EachWord ns (k + n) (x ++ y) (f y) P

/-- A word is its fields joined. -/
theorem ofCut_joined (ns : List Nat) : ∀ (k : Nat) (x : BitVec (width k ns)), ofCut x ns (joined ns k (x.extractLsb' ns.sum k)) = x := by
  induction ns with
  | nil => exact fun k x => BitVec.extractLsb'_eq_self
  | cons n ns ih => exact fun k x => (congrArg (fun y => ofCut x ns (joined ns (k + n) y)) (BitVec.extractLsb'_append_extractLsb'_eq_extractLsb' (Nat.add_comm ..))).trans (ih (k + n) x)
theorem EachWord.mono {ns : List Nat} : ∀ {k : Nat} {x : BitVec k} {f : OfFields α ns} {P Q : BitVec (width k ns) → α → Prop}, (∀ w a, P w a → Q w a) →
    EachWord ns k x f P → EachWord ns k x f Q := by
  induction ns with
  | nil => exact fun h => h _ _
  | cons n ns ih => exact fun h hf y => ih h (hf y)
/-- The fields of a word are those it is joined from. -/
theorem fields_read (ns : List Nat) : ∀ (k : Nat) (x : BitVec k) (f : OfFields α ns), EachWord ns k x f fun w a => w.extractLsb' ns.sum k = x ∧ ofCut w ns f = a := by
  induction ns with
  | nil => exact fun k x f => ⟨BitVec.extractLsb'_eq_self, rfl⟩
  | cons n ns ih =>
    refine fun k x f y => (ih (k + n) (x ++ y) (f y)).mono fun w a h => ?_
    have hsplit := (BitVec.extractLsb'_append_extractLsb'_eq_extractLsb' (x := w) (Nat.add_comm n ns.sum)).trans h.1
    have hy := BitVec.extractLsb'_append_eq_right.symm.trans ((congrArg (BitVec.extractLsb' 0 n) hsplit).trans BitVec.extractLsb'_append_eq_right)
    have hx := BitVec.extractLsb'_append_eq_left.symm.trans ((congrArg (BitVec.extractLsb' n k) hsplit).trans BitVec.extractLsb'_append_eq_left)
    exact ⟨hx, (congrArg (fun y => ofCut w ns (f y)) hy).trans h.2⟩
theorem fields_read_below {ns : List Nat} {m : Nat} (hm : ns.sum = m) (k : Nat) (x : BitVec k) (f : OfFields α ns) :
    EachWord ns k x f fun w a => w.extractLsb' m k = x ∧ ofCut w ns f = a := hm ▸ fields_read ns k x f
end

-- The formats (R314-R317, R322, R328) ------------------------------------------------------------------------------------

theorem encA_reads (op : BitVec 10) (f : FmtA) : (encA op f).at 86 10 = op ∧ decA (encA op f) = f :=
  fields_read_below (ns := [1, 3, 2, 9, 9, 12, 9, 9, 5, 7, 20]) (by decide +kernel) 10 op (fun n p x => FmtA.mk ⟨n, p, x⟩)
    f.g.neg f.g.pred f.g.fx f.d f.a f.am f.b f.c f.ty f.mods f.imm
theorem encA_decA (w : IWord) : encA (w.at 86 10) (decA w) = w := ofCut_joined [1, 3, 2, 9, 9, 12, 9, 9, 5, 7, 20] 10 w
theorem encI_reads (op : BitVec 10) (f : FmtI) : (encI op f).at 86 10 = op ∧ decI (encI op f) = f :=
  fields_read_below (ns := [1, 3, 2, 9, 9, 12, 2, 5, 11, 32]) (by decide +kernel) 10 op (fun n p x => FmtI.mk ⟨n, p, x⟩)
    f.g.neg f.g.pred f.g.fx f.d f.a f.am f.rsv f.ty f.mods f.imm
theorem encI_decI (w : IWord) : encI (w.at 86 10) (decI w) = w := ofCut_joined [1, 3, 2, 9, 9, 12, 2, 5, 11, 32] 10 w
theorem encM_reads (op : BitVec 10) (f : FmtM) : (encM op f).at 86 10 = op ∧ decM (encM op f) = f :=
  fields_read_below (ns := [1, 3, 2, 9, 9, 12, 9, 4, 4, 3, 2, 2, 26]) (by decide +kernel) 10 op (fun n p x => FmtM.mk ⟨n, p, x⟩)
    f.g.neg f.g.pred f.g.fx f.data f.base f.am f.index f.width f.space f.order f.scope f.hint f.offset
theorem encM_decM (w : IWord) : encM (w.at 86 10) (decM w) = w := ofCut_joined [1, 3, 2, 9, 9, 12, 9, 4, 4, 3, 2, 2, 26] 10 w
theorem encE_reads (op : BitVec 10) (f : FmtE) : (encE op f).at 86 10 = op ∧ decE (encE op f) = f :=
  fields_read_below (ns := [1, 3, 2, 9, 9, 4, 6, 11, 9, 32]) (by decide +kernel) 10 op (fun n p x => FmtE.mk ⟨n, p, x⟩)
    f.g.neg f.g.pred f.g.fx f.status f.coord f.rslot f.tag f.espec f.opnd f.ectl
theorem encE_decE (w : IWord) : encE (w.at 86 10) (decE w) = w := ofCut_joined [1, 3, 2, 9, 9, 4, 6, 11, 9, 32] 10 w
theorem encH_reads (op : BitVec 10) (f : FmtH) : (encH op f).at 86 10 = op ∧ decH (encH op f) = f :=
  fields_read_below (ns := [1, 3, 2, 12, 5, 5, 5, 1, 52]) (by decide +kernel) 10 op (fun n p x => FmtH.mk ⟨n, p, x⟩)
    f.g.neg f.g.pred f.g.fx f.wait f.len f.seta f.setb f.unif f.rsv
theorem encH_decH (w : IWord) : encH (w.at 86 10) (decH w) = w := ofCut_joined [1, 3, 2, 12, 5, 5, 5, 1, 52] 10 w
theorem encD_reads (op : BitVec 8) (f : DCmd) : (encD op f).at 88 8 = op ∧ decD (encD op f) = f :=
  fields_read_below (ns := [8, 1, 8, 1, 8, 4, 4, 4, 50]) (by decide +kernel) 8 op DCmd.mk f.id f.p1v f.p1 f.p2v f.p2 f.acc f.reca f.recb f.ctl
theorem encD_decD (w : IWord) : encD (w.at 88 8) (decD w) = w := ofCut_joined [8, 1, 8, 1, 8, 4, 4, 4, 50] 8 w

-- The opcodes (R335-R344) ------------------------------------------------------------------------------------------------

/-- The opcodes that are defined, in order, each with its instruction by its format; `J` where numbers are left out (R335-R344). -/
noncomputable def opcodes {β : Type} (A : (FmtA → Instr) → β → β) (I : (FmtI → Instr) → β → β) (M : (FmtM → Instr) → β → β) (E : (FmtE → Instr) → β → β)
    (H : (FmtH → Instr) → β → β) (J : Nat → β → β) (marshals preempts tlbinvs : β → β) (z : β) : β :=
  H .clause <| A .nop <| I .br <| A .brx <| I .call <| A .callx <| A .ret <| A .exit <| I .trap <| A .tret <| marshals <| A .yield <| I .repeatN <| A .sleep <|
    M .waitaddr <| M .wakeaddr <| preempts <| A .bar <| A .bara <| A .barw <| A .grow <| A .shrink <| A .growa <| A .shrinka <| A .gets <| A .sets <| A .launch <|
    A .depdec <| M .locq <|
  J 0x040 <| A .add <| A .sub <| A .addc <| A .subb <| A .mul <| A .mulhi <| A .mad <| A .madw <| A .div <| A .rem <| A .min <| A .max <| A .abs <| A .neg <|
    A .and <| A .or <| A .xor <| A .not <| A .andn <| A .shl <| A .shr <| A .sar <| A .rot <| A .bfe <| A .bfi <| A .popc <| A .clz <| A .ctz <| A .brev <|
    A .sel <| A .cmp <| A .mov <| I .movi <| M .lea <| A .add64 <| A .sub64 <| A .mad64 <| A .pand <| A .por <| A .pxor <| A .pnot <| A .pmov <|
  J 0x080 <| A .fadd <| A .fsub <| A .fmul <| A .fma <| A .fmin <| A .fmax <| A .fcmp <| A .fclass <| A .frnd <| A .frcp <| A .frsq <| A .fsqrt <| A .fexp2 <|
    A .flog2 <| A .fsin <| A .fcos <| A .ftanh <| A .fsig <| A .fdot2 <| A .fdot4 <|
  J 0x0C0 <| A .cvt <| A .cvts <| A .pack2 <| A .unpack <| A .scalex <| A .q4enc <| A .q4dec <|
  J 0x0C8 <| A .ballot <| A .matchEq <| A .vote <| A .reduce <| A .scan <| A .shfl <| A .slotof <| A .rankof <|
  J 0x100 <| M .ld <| M .ldx <| M .st <| M .atom <| M .atomn <| M .cas <| M .fence <| M .prefetch <| M .clean <| M .inval <| M .ysend <| M .yrecv <| A .yprobe <|
  J 0x140 <| E .trec <| E .tcopy <| E .tstore <| E .tcopymc <| E .recvarm <| E .tagwait <| E .tagffs <| E .tagclr <| E .tagstat <|
  J 0x180 <| A .drill <| A .mready <| A .mwait <| A .accrd <| A .accwr <| A .nanrd <|
  J 0x1C0 <| E .wpart <| E .fwload <| E .fwstore <| E .fwop <| E .fwred <| E .fwfill <|
  J 0x1C8 <| E .coll <| A .collq <|
  J 0x3C0 <| A .trsync <| tlbinvs <| A .ctxsave <| A .ctxload <| A .errinj <| z
section
variable {α β γ : Type} {d : α} {n : Nat}
/-- A table's entries, numbered from a number, folded. -/
noncomputable abbrev walk (f : α × Nat → Nat → β → β) (z : β) (t : List ((α × Nat) ⊕ Nat)) : Nat → β :=
  t.rec (fun _ => z) fun e _ rest k => e.casesOn (fun x => f x k (rest (k + 1))) rest
/-- What a table gives a number, `d` where it has none. -/
noncomputable def find (d : α) (n : Nat) : List ((α × Nat) ⊕ Nat) → Nat → α := walk (fun x k => cond (n.beq k) x.1) d
/-- The same, by the cases of a decoder. -/
noncomputable abbrev casesOf (d : α) (n : Nat) : List ((α × Nat) ⊕ Nat) → Nat → α := walk (fun x k r => dite (n = k) (Eq.ndrec_symm (motive := fun _ => α) x.1) fun _ => r) d
theorem case_eq_cond (x : α × Nat) (k : Nat) (r : α) : dite (n = k) (Eq.ndrec_symm (motive := fun _ => α) x.1) (fun _ => r) = cond (n.beq k) x.1 r := by
  by_cases h : n = k
  · subst h
    exact (dif_pos rfl).trans (congrArg (cond · _ _) (Nat.beq_refl n)).symm
  · exact (dif_neg h).trans (congrArg (cond · _ _) (Bool.eq_false_iff.2 (h <| Nat.eq_of_beq_eq_true ·))).symm
theorem casesOf_eq_find (d : α) (n : Nat) (t : List ((α × Nat) ⊕ Nat)) : casesOf d n t 0 = find d n t 0 :=
  congrArg (walk · d t 0) (funext fun x => funext fun k => funext fun r => case_eq_cond x k r)
theorem cond_of {P : α → Prop} {b : Bool} {x r : α} (hx : b = true → P x) (hr : P r) : P (cond b x r) :=
  match b with
  | true => hx rfl
  | false => hr
/-- What a table gives is what holds of its default, and of each entry at its number. -/
theorem find_of {P : α → Prop} (hd : P d) {f g : α × Nat → Nat → γ} (hP : ∀ x, f x n = g x n → P x.1) (t : List ((α × Nat) ⊕ Nat)) :
    ∀ k, walk (fun x k => (f x k :: ·)) [] t k = walk (fun x k => (g x k :: ·)) [] t k → P (find d n t k) := by
  induction t with
  | nil => exact fun _ _ => hd
  | cons e t ih =>
    intro k h
    cases e with
    | inl x =>
      obtain ⟨hentry, hrest⟩ := List.cons.inj h
      exact cond_of (fun hk => hP x (Nat.eq_of_beq_eq_true hk ▸ hentry)) (ih (k + 1) hrest)
    | inr j => exact ih j h
end

/-- The defined opcodes, with the formats by number. -/
noncomputable def words (a : FmtA) (i : FmtI) (m : FmtM) (e : FmtE) (h : FmtH) (marshals : Bool) (va : Decidable (a.mods = 0)) (root : Decidable (a.mods = 1)) :
    List ((Instr × Nat) ⊕ Nat) :=
  opcodes (fun c => (.inl (c a, 0) :: ·)) (fun c => (.inl (c i, 1) :: ·)) (fun c => (.inl (c m, 2) :: ·)) (fun c => (.inl (c e, 3) :: ·)) (fun c => (.inl (c h, 4) :: ·))
    (fun n => (.inr n :: ·)) (.inl (if marshals then .marshalRank a else .marshal a, 0) :: ·) (.inl (if marshals then .preemptOn a else .preemptOff a, 0) :: ·)
    (.inl (@ite _ (a.mods = 0) va (.tlbinvVa a) (@ite _ (a.mods = 1) root (.tlbinvRoot a) (.tlbinvAll a)), 0) :: ·) []
/-- The instruction of an opcode and of a word's fields. -/
noncomputable def wordAt (op : BitVec 10) (a : FmtA) (i : FmtI) (m : FmtM) (e : FmtE) (h : FmtH) (w : IWord) : Instr :=
  find (.undefinedOpcode w) op.toNat (words a i m e h (a.mods.getLsbD 0) inferInstance inferInstance) 0
theorem decodeWord_eq (w : IWord) : decodeWord w = wordAt (w.at 86 10) (decA w) (decI w) (decM w) (decE w) (decH w) w := by
  refine Eq.trans ?_ (casesOf_eq_find ..)
  delta decodeWord decodeWord.match_1
  exact Eq.refl (casesOf (Instr.undefinedOpcode w) (w.at 86 10).toNat
    (words (decA w) (decI w) (decM w) (decE w) (decH w) ((decA w).mods.getLsbD 0) inferInstance inferInstance) 0)

/-- The word of the fields in a format, by the format's number. -/
noncomputable def wordOf (w : IWord) (op : BitVec 10) (format : Nat) : IWord :=
  [encA op (decA w), encI op (decI w), encM op (decM w), encE op (decE w), encH op (decH w)].getD format w
theorem wordOf_eq (w : IWord) : ∀ format, wordOf w (w.at 86 10) format = w
  | 0 => encA_decA w
  | 1 => encI_decI w
  | 2 => encM_decM w
  | 3 => encE_decE w
  | 4 => encH_decH w
  | _ + 5 => rfl
/-- The word of each entry is that of its own number and format. -/
theorem encode_words (w : IWord) (b : Bool) (va : Decidable ((decA w).mods = 0)) (root : Decidable ((decA w).mods = 1)) :
    walk (fun x _ => (encode x.1 :: ·)) [] (words (decA w) (decI w) (decM w) (decE w) (decH w) b va root) 0 =
      walk (fun x k => (some (wordOf w (BitVec.ofNat 10 k) x.2) :: ·)) [] (words (decA w) (decI w) (decM w) (decE w) (decH w) b va root) 0 := by
  cases b
  · cases va
    · cases root <;> rfl
    · rfl
  · cases va
    · cases root <;> rfl
    · rfl
theorem encode_decodeWord (w : IWord) : encode (decodeWord w) = some w := by
  rw [decodeWord_eq w]
  refine find_of (P := fun x => encode x = some w) ?_ (fun x h => ?_) _ 0 (encode_words w ..)
  · rfl
  · exact h.trans (congrArg some ((congrArg (wordOf w · x.2) (BitVec.ofNat_toNat ..)).trans (wordOf_eq w x.2)))

-- Drill commands (R328, R346) ------------------------------------------------------------------------------------------

/-- The defined commands, in order, with a number where some are left out. -/
noncomputable def drillWords (c : DCmd) (ready : Bool) : List ((Option Instr × Nat) ⊕ Nat) :=
  [.inr 1, .inl (some (.dnop c), 0), .inl (some (.dend c), 0), .inl (some (if ready then .dbarReady c else .dbarBar c), 0), .inr 8, .inl (some (.dzero c), 0),
    .inl (some (.dldacc c), 0), .inl (some (.dstacc c), 0), .inl (some (.dscale c), 0), .inr 0x10, .inl (some (.dmma c), 0)]
theorem decodeDrill_eq (w : IWord) : decodeDrill w = find none (w.at 88 8).toNat (drillWords (decD w) ((decD w).ctl.getLsbD 4)) 0 := by
  refine Eq.trans ?_ (casesOf_eq_find ..)
  delta decodeDrill decodeDrill.match_1
  exact Eq.refl (casesOf none (w.at 88 8).toNat (drillWords (decD w) ((decD w).ctl.getLsbD 4)) 0)
theorem encode_drillWords (w : IWord) (b : Bool) : walk (fun x _ => (x.1.map (fun i => (Machine.isDrillCmd i, encode i)) :: ·)) [] (drillWords (decD w) b) 0 =
    walk (fun _ k => (some (true, some (encD (BitVec.ofNat 8 k) (decD w))) :: ·)) [] (drillWords (decD w) b) 0 := b.casesOn rfl rfl

/-- What a drill command's word decodes to is a drill command, and has that word. -/
def DrillOf (w : IWord) (x : Option Instr) : Prop := ∀ i, x = some i → Machine.isDrillCmd i = true ∧ encode i = some w
theorem drillOf_decodeDrill (w : IWord) : DrillOf w (decodeDrill w) := by
  rw [decodeDrill_eq w]
  refine find_of (P := DrillOf w) (d := none) (f := fun x _ => x.1.map fun i => (Machine.isDrillCmd i, encode i)) (g := fun _ k => some (true, some (encD (BitVec.ofNat 8 k) (decD w))))
    (fun _ h => nomatch h) (fun x h i hi => ?_) _ 0 (encode_drillWords w _)
  obtain ⟨hdrill, hword⟩ := Prod.mk.inj (Option.some.inj ((congrArg (Option.map fun i => (Machine.isDrillCmd i, encode i)) hi).symm.trans h))
  exact ⟨hdrill, hword.trans (congrArg some ((congrArg (encD · _) (BitVec.ofNat_toNat ..)).trans (encD_decD w)))⟩

/-- Settles O46: the table of each decoder gives the word back at every entry, and what no entry names keeps it. -/
theorem encodeOfDecode : Obligations.EncodeOfDecode := ⟨encode_decodeWord, drillOf_decodeDrill⟩

-- An instruction's word decoded --------------------------------------------------------------------------------------

/-- An instruction that tells its mnemonic from the others of its opcode is what its word decodes to. -/
def Decoded (i : Instr) : Prop := (encode i).elim True fun w => variantOk i = true → if Machine.isDrillCmd i then decodeDrill w = some i else decodeWord w = i
theorem decode_encA (n : Nat) (f : FmtA) :
    let w := encA (BitVec.ofNat 10 n) f; decodeWord w = wordAt (BitVec.ofNat 10 n) f (decI w) (decM w) (decE w) (decH w) w :=
  (decodeWord_eq _).trans (congrArg₂ (fun op f => wordAt op f (decI _) (decM _) (decE _) (decH _) _) (encA_reads (BitVec.ofNat 10 n) f).1 (encA_reads (BitVec.ofNat 10 n) f).2)
theorem decode_encI (n : Nat) (f : FmtI) :
    let w := encI (BitVec.ofNat 10 n) f; decodeWord w = wordAt (BitVec.ofNat 10 n) (decA w) f (decM w) (decE w) (decH w) w :=
  (decodeWord_eq _).trans (congrArg₂ (fun op f => wordAt op (decA _) f (decM _) (decE _) (decH _) _) (encI_reads (BitVec.ofNat 10 n) f).1 (encI_reads (BitVec.ofNat 10 n) f).2)
theorem decode_encM (n : Nat) (f : FmtM) :
    let w := encM (BitVec.ofNat 10 n) f; decodeWord w = wordAt (BitVec.ofNat 10 n) (decA w) (decI w) f (decE w) (decH w) w :=
  (decodeWord_eq _).trans (congrArg₂ (fun op f => wordAt op (decA _) (decI _) f (decE _) (decH _) _) (encM_reads (BitVec.ofNat 10 n) f).1 (encM_reads (BitVec.ofNat 10 n) f).2)
theorem decode_encE (n : Nat) (f : FmtE) :
    let w := encE (BitVec.ofNat 10 n) f; decodeWord w = wordAt (BitVec.ofNat 10 n) (decA w) (decI w) (decM w) f (decH w) w :=
  (decodeWord_eq _).trans (congrArg₂ (fun op f => wordAt op (decA _) (decI _) (decM _) f (decH _) _) (encE_reads (BitVec.ofNat 10 n) f).1 (encE_reads (BitVec.ofNat 10 n) f).2)
theorem decode_encH (n : Nat) (f : FmtH) :
    let w := encH (BitVec.ofNat 10 n) f; decodeWord w = wordAt (BitVec.ofNat 10 n) (decA w) (decI w) (decM w) (decE w) f w :=
  (decodeWord_eq _).trans (congrArg₂ (fun op f => wordAt op (decA _) (decI _) (decM _) (decE _) f _) (encH_reads (BitVec.ofNat 10 n) f).1 (encH_reads (BitVec.ofNat 10 n) f).2)
theorem decode_encD (n : Nat) (c : DCmd) : decodeDrill (encD (BitVec.ofNat 8 n) c) = find none (BitVec.ofNat 8 n).toNat (drillWords c (c.ctl.getLsbD 4)) 0 :=
  (decodeDrill_eq _).trans (congrArg₂ (fun (op : BitVec 8) c => find none op.toNat (drillWords c (c.ctl.getLsbD 4)) 0) (encD_reads ..).1 (encD_reads ..).2)

theorem decoded (i : Instr) : Decoded i := by
  cases i with
  | clause f => exact fun _ => decode_encH 0x000 f
  | br f | call f | trap f | repeatN f | movi f => exact fun _ => decode_encI _ f
  | waitaddr f | wakeaddr f | locq f | lea f | ld f | ldx f | st f | atom f | atomn f | cas f | fence f | prefetch f | clean f | inval f | ysend f
  | yrecv f => exact fun _ => decode_encM _ f
  | trec f | tcopy f | tstore f | tcopymc f | recvarm f | tagwait f | tagffs f | tagclr f | tagstat f | wpart f | fwload f | fwstore f | fwop f
  | fwred f | fwfill f | coll f => exact fun _ => decode_encE _ f
  | dnop c | dend c | dzero c | dldacc c | dstacc c | dscale c | dmma c => exact fun _ => decode_encD _ c
  | nop f | brx f | callx f | ret f | exit f | tret f | yield f | sleep f | bar f | bara f | barw f | grow f | shrink f | growa f | shrinka f
  | gets f | sets f | launch f | depdec f | add f | sub f | addc f | subb f | mul f | mulhi f | mad f | madw f | div f | rem f | min f | max f
  | abs f | neg f | and f | or f | xor f | not f | andn f | shl f | shr f | sar f | rot f | bfe f | bfi f | popc f | clz f | ctz f | brev f | sel f
  | cmp f | mov f | add64 f | sub64 f | mad64 f | pand f | por f | pxor f | pnot f | pmov f | fadd f | fsub f | fmul f | fma f | fmin f | fmax f
  | fcmp f | fclass f | frnd f | frcp f | frsq f | fsqrt f | fexp2 f | flog2 f | fsin f | fcos f | ftanh f | fsig f | fdot2 f | fdot4 f | cvt f
  | cvts f | pack2 f | unpack f | scalex f | q4enc f | q4dec f | ballot f | matchEq f | vote f | reduce f | scan f | shfl f | slotof f | rankof f
  | yprobe f | drill f | mready f | mwait f | accrd f | accwr f | nanrd f | collq f | trsync f | ctxsave f | ctxload f | errinj f => exact fun _ => decode_encA _ f
  | marshal f => exact fun hv => (decode_encA 0x00A f).trans (Machine.ite_unmet (Bool.eq_false_of_not_eq_true' hv))
  | marshalRank f => exact fun hv => (decode_encA 0x00A f).trans (if_pos hv)
  | preemptOff f => exact fun hv => (decode_encA 0x010 f).trans (Machine.ite_unmet (Bool.eq_false_of_not_eq_true' hv))
  | preemptOn f => exact fun hv => (decode_encA 0x010 f).trans (if_pos hv)
  | tlbinvVa f => exact fun hv => (decode_encA 0x3C1 f).trans (if_pos (eq_of_beq hv))
  | tlbinvRoot f => exact fun hv => (decode_encA 0x3C1 f).trans ((if_neg (eq_of_beq hv ▸ by decide)).trans (if_pos (eq_of_beq hv)))
  | tlbinvAll f =>
    intro hv
    obtain ⟨hva, hroot⟩ := Bool.and_eq_true_iff.1 hv
    exact (decode_encA 0x3C1 f).trans ((if_neg (bne_iff_ne.1 hva)).trans (if_neg (bne_iff_ne.1 hroot)))
  | dbarBar c => exact fun hv => (decode_encD 0x03 c).trans (congrArg some (Machine.ite_unmet (Bool.eq_false_of_not_eq_true' hv)))
  | dbarReady c => exact fun hv => (decode_encD 0x03 c).trans (congrArg some (if_pos hv))
  | undefinedOpcode w => exact eq_of_beq
  | _ => exact trivial

/-- Settles O45: by the instruction, each at its own opcode. -/
theorem decodeOfEncode : Obligations.DecodeOfEncode := by
  intro i w h hw
  exact (congrArg (Option.elim · True _) hw).mp (decoded i) (Bool.and_eq_true_iff.1 h).1
end Sys2Proof.Encoding
end

section
/-! The bytes of a slot (R309). -/
namespace Sys2Proof.Encoding
open Laws Machine

/-- A byte list read as one value gives back each of its bytes. -/
theorem bits_ofBytes {n : Nat} {bs : List Byte} (hn : bs.length = n) {i : Nat} (hi : i < bs.length) : bits (ofBytes (8 * n) bs) (8 * i) 8 = bs[i] := by
  refine BitVec.eq_of_getLsbD_eq fun j hj => ?_
  have h := getLsbD_ofBytes (8 * n) bs i j hj hi (by omega)
  simpa [hj] using h
/-- A value is that of its bytes. -/
theorem ofBytes_toBytes (n : Nat) (v : BitVec (8 * n)) : ofBytes (8 * n) (toBytes n v) = v := by
  refine BitVec.eq_of_getLsbD_eq fun k hk => ?_
  have hlen : k / 8 < (toBytes n v).length := by rw [length_toBytes]; omega
  have h := getLsbD_ofBytes (8 * n) (toBytes n v) (k / 8) (k % 8) (Nat.mod_lt _ (by decide)) hlen (by omega)
  rw [Nat.div_add_mod, getElem_toBytes] at h
  simpa [Nat.div_add_mod, Nat.mod_lt] using h
theorem decodeBytes_of_length {bs : List Byte} (h : bs.length = 12) : decodeBytes bs = some (decodeWord (ofBytes 96 bs)) := if_pos h
theorem decodeBytes_toBytes (w : IWord) : decodeBytes (toBytes 12 w) = some (decodeWord w) :=
  (decodeBytes_of_length (length_toBytes 12 w)).trans (congrArg (some ∘ decodeWord) (ofBytes_toBytes 12 w))

/-- Settles O47: bytes and words of a slot give each other back. -/
theorem slotBytesDecode : Obligations.SlotBytesDecode := by
  refine ⟨fun w n => ⟨decodeBytes_toBytes w, ?_⟩, fun bs h => if_neg h, fun bs h => ⟨_, decodeBytes_of_length h, fun i hi => ?_⟩⟩
  · rw [decodeTableWord, BitVec.ofNat_toNat, BitVec.setWidth_eq]
    exact decodeBytes_toBytes w
  · have hlt : i < bs.length := h ▸ hi
    rw [List.getD_eq_getElem _ _ hlt]
    exact congrArg BitVec.toNat (bits_ofBytes h hlt)

end Sys2Proof.Encoding
end

section
/-! Address waits (R360-R362). -/
namespace Sys2Proof.Machine

/-- Settles O14: every access resolves, and each thread then compares, or wakes, at its own location. -/
theorem addressWaitResults : Obligations.AddressWaitResults := by
  intro f s s' c xs
  refine ⟨fun h hreach => ?_, fun h hreach => issueM_next h (accessLanes_reaches _ (context_entry h.here) hreach)⟩
  refine issueM_next (eff := effWaitaddr) h ?_
  unfold effWaitaddr
  refine (accessLanes_reaches _ (context_entry h.here) hreach).trans (congrArg Fin.done ?_)
  simp only [context_entry h.here, Option.isSome_none, Bool.false_eq_true, if_false]
  refine List.foldl_ext _ _ _ fun s x _ => ?_
  cases x.2 with
  | g pa => exact if_congr beq_iff_eq rfl rfl
  | _ => rfl
end Sys2Proof.Machine
end

section
/-! Words that raise their cause (R324, R336, R337). -/
namespace Sys2Proof.Machine

-- A recorded cause (R86) -----------------------------------------------------------------------------------------------

/-- A thread of a block that stands. -/
def Stands (s : State) (b r : Nat) : Prop := (mfind s.blocks b).isSome = true ∧ (mfind (getBlk s b).members r).isSome = true
theorem isSome_members_modTh (b r b' r' : Nat) (F : Thread → Thread) (s : State) :
    (mfind (getBlk (modTh b r F s) b').members r').isSome = (mfind (getBlk s b').members r').isSome := by
  obtain ⟨G, hupdate, hG⟩ := modTh_eq b r F s
  rw [hupdate]
  rcases getBlk_modBlk_cases b b' G s with hother | ⟨rfl, hsame⟩
  · rw [hother]
  · rw [hsame]
    rcases hG (getBlk s b') with ⟨t, hfound, hput⟩ | ⟨-, hkept⟩
    · rw [hput]
      by_cases hr : r' = r
      · rw [hr, mfind_mput_same, hfound]
        rfl
      · rw [mfind_mput, if_neg hr]
    · rw [hkept]
theorem Stands.modTh {s : State} {b r : Nat} (h : Stands s b r) (b' r' : Nat) (F : Thread → Thread) : Stands (modTh b' r' F s) b r :=
  ⟨(present_modBlk ..).trans h.1, (isSome_members_modTh ..).trans h.2⟩

section
variable {s : State} {b r code detail : Nat} {pc : DWord} {rep : Option (BitVec 16 × BitVec 16)}
/-- The first cause recorded of a thread stays. -/
theorem raised_recordTrap (va : DWord) (h : Stands s b r) (r' : Nat) : (getTh (recordTrap b r' code detail pc va rep s) b r).raised =
    if r' = r then some ((getTh s b r).raised.getD { code := BitVec.ofNat 8 code, detail := BitVec.ofNat 8 detail, pc := pc, va := va, rep := rep }) else (getTh s b r).raised := by
  unfold recordTrap
  split
  next hr =>
    rw [hr, getTh_modTh_same _ _ _ _ h.1 h.2]
    cases hraised : (getTh s b r).raised <;> simp [hraised]
  next hr => rw [getTh_modTh_other _ _ fun e => hr e.2.symm]
theorem Stands.recordTrap (h : Stands s b r) (r' : Nat) (va : DWord) : Stands (recordTrap b r' code detail pc va rep s) b r := h.modTh ..
theorem raised_foldl_recordTrap (va : DWord) (ls : List (Nat × Nat)) (h : Stands s b r) : (getTh (ls.foldl (fun s l => recordTrap b l.2 code detail pc va rep s) s) b r).raised =
    if r ∈ ls.map (·.2) then some ((getTh s b r).raised.getD { code := BitVec.ofNat 8 code, detail := BitVec.ofNat 8 detail, pc := pc, va := va, rep := rep })
    else (getTh s b r).raised := by
  induction ls generalizing s with
  | nil => rfl
  | cons l ls ih =>
    rw [List.foldl_cons, ih (h.recordTrap l.2 va), raised_recordTrap va h l.2, List.map_cons]
    by_cases hr : l.2 = r
    · simp [hr]
    · rw [if_neg hr]
      exact if_congr (List.mem_cons.trans (or_iff_right fun e => hr e.symm)).symm rfl rfl
end
/-- A cause of an instruction outside a replay and a repeat is recorded of each of its threads, with the word's own PC. -/
theorem raised_raise {s : State} {c : Ctx} {code : Nat} {l : Nat × Nat} {ls : List (Nat × Nat)} (he : c.entry = none) (hr : c.rep = none) (h : Stands s c.blk l.2)
    (hl : l ∈ ls) (hraised : (getTh s c.blk l.2).raised = none) :
    (getTh (raise c ls code s) c.blk l.2).raised = some { code := BitVec.ofNat 8 code, detail := 0, pc := c.pc, va := 0, rep := none } := by
  have hrecord := raised_foldl_recordTrap (code := code) (detail := 0) (pc := c.pc) (rep := repOf c) 0 ls h
  rw [if_pos (List.mem_map_of_mem hl), hraised] at hrecord
  unfold raise raiseAt
  rw [he]
  refine hrecord.trans ?_
  rw [repOf, hr]
  rfl

-- Words by their format --------------------------------------------------------------------------------------------------

/-- A word that its context alone refuses comes to its cause on every executing thread. -/
def Refuses (i : Instr) : Prop := ∀ (s : State) (c : Ctx) (code : Nat), context i s = some c → c.rep = none → wordCause i i c s = some code →
  exec i s = .next (advance c (raise c c.exec code s))
theorem refuses_clause (f : FmtH) : Refuses (.clause f) := by
  intro s c code hc _ hw
  refine Eq.trans (b := execClause f s) rfl ?_
  unfold execClause
  rw [hc]
  exact congrArg _ (issueIn_cause hw)
theorem refuses_undefinedOpcode (w : IWord) : Refuses (.undefinedOpcode w) := by
  intro s c code hc _ hw
  refine Eq.trans (b := execUndefinedOpcode w s) rfl ?_
  unfold execUndefinedOpcode
  rw [hc]
  exact congrArg _ (issueIn_cause hw)
/-- Each format refuses alike. -/
theorem refuses_word {i : Instr} (hword : encode i ≠ none) (hrep : ∀ f, i ≠ .repeatN f)
    (hdrill : ∀ d, i ≠ .dnop d ∧ i ≠ .dend d ∧ i ≠ .dbarBar d ∧ i ≠ .dbarReady d ∧ i ≠ .dzero d ∧ i ≠ .dldacc d ∧ i ≠ .dstacc d ∧ i ≠ .dscale d ∧
      i ≠ .dmma d) : Refuses i := by
  cases i with
  | clause f => exact refuses_clause f
  | undefinedOpcode w => exact refuses_undefinedOpcode w
  | repeatN f => exact absurd rfl (hrep f)
  | dnop d | dend d | dbarBar d | dbarReady d | dzero d | dldacc d | dstacc d | dscale d | dmma d => simp at hdrill
  | br f | call f | trap f | movi f => exact fun _ _ _ => issueI_cause _ f _
  | waitaddr f | wakeaddr f | locq f | lea f | ld f | ldx f | st f | atom f | atomn f | cas f | fence f | prefetch f | clean f | inval f | ysend f | yrecv f =>
    exact fun _ _ _ => issueM_cause _ f _
  | trec f | tcopy f | tstore f | tcopymc f | recvarm f | tagwait f | tagffs f | tagclr f | tagstat f | wpart f | fwload f | fwstore f | fwop f | fwred f
  | fwfill f | coll f => exact fun _ _ _ hc _ => issueE_cause _ f _ hc
  | nop f | brx f | callx f | ret f | exit f | tret f | marshal f | marshalRank f | yield f | sleep f | preemptOff f | preemptOn f | bar f | bara f | barw f | grow f
  | shrink f | growa f | shrinka f | gets f | sets f | launch f | depdec f | add f | sub f | addc f | subb f | mul f | mulhi f | mad f | madw f | div f | rem f | min f
  | max f | abs f | neg f | and f | or f | xor f | not f | andn f | shl f | shr f | sar f | rot f | bfe f | bfi f | popc f | clz f | ctz f | brev f | sel f | cmp f | mov f
  | add64 f | sub64 f | mad64 f | pand f | por f | pxor f | pnot f | pmov f | fadd f | fsub f | fmul f | fma f | fmin f | fmax f | fcmp f | fclass f | frnd f | frcp f
  | frsq f | fsqrt f | fexp2 f | flog2 f | fsin f | fcos f | ftanh f | fsig f | fdot2 f | fdot4 f | cvt f | cvts f | pack2 f | unpack f | scalex f | q4enc f | q4dec f
  | ballot f | matchEq f | vote f | reduce f | scan f | shfl f | slotof f | rankof f | yprobe f | drill f | mready f | mwait f | accrd f | accwr f | nanrd f | collq f
  | trsync f | tlbinvVa f | tlbinvRoot f | tlbinvAll f | ctxsave f | ctxload f | errinj f => exact fun _ _ _ => issueA_cause _ f _
  | _ => exact absurd rfl hword
theorem wordCause_privileged {i : Instr} {c : Ctx} {s : State} (hp : privileged i = true) (hs : secureOf s c.blk = false) : wordCause i i c s = some cPriv := by
  unfold wordCause
  split
  · cases hp
  · exact if_pos (Bool.and_eq_true_iff.2 ⟨hp, congrArg (!·) hs⟩)

/-- Settles O18: by the word's format, and the cause as each executing thread records it. -/
theorem refusedWords : Obligations.RefusedWords := by
  intro i s c code hc hr hword hrep hdrill hw
  refine ⟨refuses_word hword hrep hdrill s c code hc hr hw, ?_, fun hp hs => ?_, fun l hl hblk hth hraised => ?_⟩
  · rintro w rfl
    exact (Option.some.inj hw).symm
  · exact Option.some.inj (hw.symm.trans (wordCause_privileged hp hs))
  · exact raised_raise (context_entry hc) hr ⟨Option.isSome_iff_ne_none.2 hblk, Option.isSome_iff_ne_none.2 hth⟩ hl hraised
end Sys2Proof.Machine
end

section
/-! The frame of the words that direct threads (R349-R355, R359, R363). -/
namespace Sys2Proof.Machine

-- What leaves all but next PCs, waits and windows ---------------------------------------------------------------------

section
variable {b : Nat} {D : Nat → Nat → Prop} {s t u : State}
theorem OnlyRegs.onlyDirected (h : OnlyRegs b D s t) : OnlyDirected b D s t where
  memory := h.memory
  blocks b' := by
    have hblock := h.blocks b'
    simp only [blockKept] at hblock ⊢
    simp [hblock]
  kept b' r := by
    have hthread := h.kept b' r
    simp only [threadKept] at hthread ⊢
    simp [hthread]
  regs := h.regs
theorem OnlyDirected.trans (h : OnlyDirected b D s t) (h' : OnlyDirected b D t u) : OnlyDirected b D s u where
  memory := h.memory.trans h'.memory
  blocks b' := by
    have hfirst := h.blocks b'
    have hthen := h'.blocks b'
    simp only [blockKept] at hfirst hthen ⊢
    simp [hfirst, hthen]
  kept b' r := by
    have hfirst := h.kept b' r
    have hthen := h'.kept b' r
    simp only [threadKept] at hfirst hthen ⊢
    simp [hfirst, hthen]
  regs b' r num hother := (h'.regs b' r num hother).trans (h.regs b' r num hother)
/-- One pass for each thread. -/
theorem onlyDirected_foldl {α : Type} (f : State → α → State) (h : ∀ s a, OnlyDirected b D s (f s a)) (l : List α) (s : State) : OnlyDirected b D s (l.foldl f s) :=
  foldl_inv (OnlyDirected b D s) f l s (OnlyRegs.refl b D s).onlyDirected fun a _ ht => ht.trans (h _ a)
end

/-- A thread's next PC, and its waits. -/
theorem onlyDirected_modTh (b r : Nat) {D : Nat → Nat → Prop} (F : Thread → Thread) (s : State)
    (hkept : ∀ t, threadKept t { F t with nextPc := t.nextPc, via := t.via, waits := t.waits, began := t.began }) (hregs : ∀ t num, threadReg (F t) num = threadReg t num) :
    OnlyDirected b D s (modTh b r F s) where
  memory := memoryKept_modTh b r F s
  blocks b' := by
    obtain ⟨m, hm⟩ := getBlk_modTh b r b' F s
    rw [hm]
    exact blockKept.refl _
  kept b' r' := by
    rcases getTh_modTh_cases b r b' r' F s with hother | ⟨-, -, hown⟩
    · rw [hother]
      exact threadKept.refl _
    · rw [hown]
      exact hkept _
  regs b' r' num _ := by
    unfold regAt
    rcases getTh_modTh_cases b r b' r' F s with hother | ⟨-, -, hown⟩
    · rw [hother]
    · rw [hown, hregs]
/-- A block's window (R363). -/
theorem onlyDirected_window (b : Nat) {D : Nat → Nat → Prop} (F : Block → Block) (s : State) (hF : ∀ k, ∃ start holders, F k = { k with winStart := start, holders := holders }) :
    OnlyDirected b D s (modBlk b F s) := by
  have hthreads : ∀ b' r, getTh (modBlk b F s) b' r = getTh s b' r := fun b' r => by
    rw [getTh_modBlk_of_members b F s fun k => ?_]
    obtain ⟨start, holders, hk⟩ := hF k
    rw [hk]
  refine ⟨⟨by simp, by simp, by simp, by simp, by simp, by simp, by simp, fun g => by simp, fun f => by simp⟩, fun b' => ?_, fun b' r => ?_, fun b' r num _ => ?_⟩
  · rcases getBlk_modBlk_cases b b' F s with hother | ⟨rfl, hown⟩
    · rw [hother]
      exact blockKept.refl _
    · obtain ⟨start, holders, hk⟩ := hF (getBlk s b')
      rw [hown, hk]
      exact blockKept.refl _
  · rw [hthreads]
    exact threadKept.refl _
  · rw [regAt, hthreads]
    rfl
/-- A mark of the clause. -/
theorem onlyDirected_modClause {b : Nat} {D : Nat → Nat → Prop} (g cn : Nat) (F : Clause → Clause) (s : State) : OnlyDirected b D s (modClause g cn F s) :=
  (onlyRegs_modConsist g cn _ s).onlyDirected

-- What each word does (R349-R355, R359, R363) ---------------------------------------------------------------------------

section
variable {i : Instr} {s : State} {c : Ctx}
/-- A word whose effect leaves all but next PCs, waits, windows and its destinations. -/
def Directs (i : Instr) (s : State) (c : Ctx) : Prop := ∃ t, exec i s = .next t ∧ OnlyDirected c.blk (destRegs i c) s t
theorem directs_of_effect {t : State} (hshadow : shadowed i = false) (hexec : exec i s = .next (issued i c s t)) (h : OnlyDirected c.blk (destRegs i c) s t) : Directs i s c :=
  ⟨_, hexec, h.trans (onlyRegs_issued_unshadowed c s t hshadow).onlyDirected⟩
theorem onlyDirected_jump {D : Nat → Nat → Prop} (c : Ctx) (dst : Nat × Nat → DWord) (s : State) : OnlyDirected c.blk D s (jump c dst s) := by
  unfold jump
  refine onlyDirected_foldl _ (fun s l => ?_) _ s
  exact onlyDirected_modTh c.blk l.2 _ s (fun t => threadKept.refl t) fun _ _ => rfl
/-- The link of a call, and then its target. -/
theorem onlyDirected_call {spec : BitVec 9} (dst : Nat × Nat → DWord) (link : Nat × Nat → Nat) (he : c.entry = none) (hdest : NamesDest i spec 2) :
    OnlyDirected c.blk (destRegs i c) s (jump c dst (writeLanes c spec 2 link s)) :=
  (writesDests_writeLanes link he hdest).regs.onlyDirected.trans (onlyDirected_jump c dst _)
end
theorem namesDest_call {f : FmtI} {s : State} {c : Ctx} (h : Issues (.call f) s c) : NamesDest (.call f) f.d 2 := by
  have hlegal : (shI f .pair).legal = true := shape_legal h.ready.lawful
  simp only [shI, Bool.and_eq_true] at hlegal
  obtain ⟨⟨-, hd⟩, -⟩ := hlegal
  exact namesDest_of_use hd (by decide) (by decide) le_rfl fun _ hu => hu
theorem namesDest_callx {f : FmtA} {s : State} {c : Ctx} (h : Issues (.callx f) s c) : NamesDest (.callx f) f.d 2 :=
  namesDest_of_use (dstOk_shA (shape_legal h.ready.lawful)).1 (by decide) (by decide) le_rfl fun _ hu => hu
/-- Settles O56: by the word, each a mark of its clause, an update of its threads or of the window, or a link and a jump. -/
theorem controlWordsFrame : Obligations.ControlWordsFrame := by
  intro i s c hdirects h
  change Directs i s c
  cases i with
  | nop f => exact directs_of_effect rfl (issueA_next h rfl) (OnlyRegs.refl ..).onlyDirected
  | br f => exact directs_of_effect rfl (issueI_next h rfl) (onlyDirected_jump c _ s)
  | brx f | ret f => exact directs_of_effect rfl (issueA_next h rfl) (onlyDirected_jump c _ s)
  | call f => exact directs_of_effect rfl (issueI_next h rfl) (onlyDirected_call _ _ (context_entry h.here) (namesDest_call h))
  | callx f => exact directs_of_effect rfl (issueA_next h rfl) (onlyDirected_call _ _ (context_entry h.here) (namesDest_callx h))
  | exit f | marshal f | marshalRank f | yield f => exact directs_of_effect rfl (issueA_next h rfl) (onlyDirected_modClause ..)
  | sleep f =>
    refine directs_of_effect rfl (issueA_next h (effSleep_eq f c s)) (onlyDirected_foldl _ (fun s l => ?_) _ s)
    split
    · exact (OnlyRegs.refl ..).onlyDirected
    · exact onlyDirected_modTh c.blk l.2 _ s (fun t => threadKept.refl t) fun _ _ => rfl
  | preemptOff f => exact directs_of_effect rfl (issueA_next h rfl) (onlyDirected_window c.blk _ s fun k => ⟨_, _, rfl⟩)
  | preemptOn f =>
    exact directs_of_effect rfl (issueA_next h rfl) (onlyDirected_foldl _ (fun s l => onlyDirected_window c.blk _ s fun k => ⟨k.winStart, _, rfl⟩) _ s)
  | _ => cases hdirects
end Sys2Proof.Machine
end

section
/-! The words of arithmetic, bits, moves, floating point and conversions (R379-R399), those that direct threads and clauses (R349-R357), and the tags' (R278-R281). -/
namespace Sys2Proof.Machine

section
variable {f : FmtA} {s : State} {c : Ctx}
/-- Each word of a list that issues does what its effect answers; with them stands what else is to be said. -/
theorem words_act (ws : List ((FmtA → Instr) × (FmtA → Ctx → State → Fin))) {P : Prop} (h : P) : ws.foldr (fun w P => (Issues (w.1 f) s c →
    issueA w.1 f w.2 s = .next (match w.2 f c s with
      | .done t => issued (w.1 f) c s t
      | .stall => s
      | .suspend => suspendFull c s
      | .refault _ _ _ _ _ => s)) ∧ P) P := by
  induction ws with
  | nil => exact h
  | cons w ws ih =>
    refine ⟨fun hw => ?_, ih⟩
    simp only [issueA, hw.here, hw.noRepeat]
    exact congrArg _ (issueIn_ready hw.ready)
/-- A guard of the step that compares, as the proposition it decides. -/
theorem ite_beq_eq {α β : Type} [BEq α] [LawfulBEq α] [DecidableEq α] {a b : α} {x y : β} :
    (if (a == b) = true then x else y) = if a = b then x else y := if_congr beq_iff_eq rfl rfl
theorem done_writeTy {d : BitVec 9} {ty : Nat} {v v' : Nat × Nat → Nat} (h : ∀ l, v l = v' l) : Fin.done (writeTy c d ty v s) = .done (writeTy c d ty v' s) :=
  congrArg (fun v => Fin.done (writeTy c d ty v s)) (funext h)
theorem done_writeLanes {d : BitVec 9} {n : Nat} {v v' : Nat × Nat → Nat} (h : ∀ l, v l = v' l) : Fin.done (writeLanes c d n v s) = .done (writeLanes c d n v' s) :=
  congrArg (fun v => Fin.done (writeLanes c d n v s)) (funext h)
end

-- Arithmetic and bits (R379-R382) ------------------------------------------------------------------------------------

/-- Settles O1: each word's effect is the one stated, the quotient's and the remainder's by whether the divisor is 0. -/
theorem integerResults : Obligations.IntegerResults := fun _ _ _ =>
  words_act [(.add, effAdd), (.sub, effSub), (.mul, effMul), (.mulhi, effMulhi), (.mad, effMad)]
    ⟨fun h => issueA_next h (done_writeTy fun _ => congrArg (wrap _) ite_beq_eq), fun h => issueA_next h (done_writeTy fun _ => congrArg (wrap _) ite_beq_eq),
      words_act [(.min, effMin), (.max, effMax), (.abs, effAbs)] (issueA_next · rfl)⟩

/-- p7 takes no write (R50). -/
theorem regAt_writeP_p7 (c : Ctx) (v : Nat × Nat → Bool) (s : State) (b r num : Nat) : regAt (writeP c 0x147 v s) b r num = regAt s b r num := by
  by_cases h : num = 0x147
  · subst h
    rfl
  · exact (onlyRegs_writeP c 0x147 v s (D := fun _ n => n = 0x147) fun _ _ _ hlo hhi => Nat.le_antisymm (Nat.le_of_lt_succ hhi) hlo).regs b r num fun hn => h hn.2

/-- Settles O2: each word's effect is the one stated, and p7 reads as 1 and takes no write. -/
theorem carryAndWideResults : Obligations.CarryAndWideResults := fun _ s c =>
  words_act [(.addc, effAddc), (.subb, effSubb), (.madw, effMadw), (.add64, effAdd64), (.sub64, effSub64), (.mad64, effMad64)]
    ⟨fun _ => rfl, fun v b r num => regAt_writeP_p7 c v s b r num⟩

/-- Settles O3: each word's effect is the one stated. -/
theorem bitResults : Obligations.BitResults := fun _ _ _ =>
  words_act [(.and, effAnd), (.or, effOr), (.xor, effXor), (.not, effNot), (.andn, effAndn), (.shl, effShl), (.shr, effShr), (.sar, effSar), (.rot, effRot),
    (.bfe, effBfe), (.bfi, effBfi), (.brev, effBrev), (.popc, effPopc), (.clz, effClz)] (issueA_next · rfl)

-- Moves and predicates (R383-R388) -----------------------------------------------------------------------------------

/-- Settles O4: each word's effect is the one stated, `movi`'s by its type and `lea`'s by its space. -/
theorem moveAndPredicateResults : Obligations.MoveAndPredicateResults := fun _ _ _ _ _ =>
  words_act [(.sel, effSel), (.mov, effMov)]
    ⟨fun h => issueI_next h (done_writeLanes fun _ => if_congr (Bool.or_eq_true_iff.trans
        (or_congr (beq_iff_eq.trans (BitVec.toNat_inj (y := 3))) (beq_iff_eq.trans (BitVec.toNat_inj (y := 7))))) rfl rfl),
      fun h => issueM_next h (done_writeLanes fun _ => if_congr bne_iff_ne rfl rfl),
      words_act [(.cmp, effCmp), (.pand, effPand), (.por, effPor), (.pxor, effPxor), (.pnot, effPnot)] (issueA_next · rfl)⟩

-- Floating point and conversions (R389-R399) ---------------------------------------------------------------------------

/-- Settles O5: each word's effect is the one stated. -/
theorem floatResults : Obligations.FloatResults := fun _ _ _ =>
  words_act [(.fadd, effFadd), (.fsub, effFsub), (.fmul, effFmul), (.fma, effFma), (.fmin, effFmin), (.fmax, effFmax), (.frnd, effFrnd), (.frcp, effFrcp),
    (.frsq, effFrsq), (.fsqrt, effFsqrt), (.fexp2, effFexp2), (.flog2, effFlog2), (.fsin, effFsin), (.fcos, effFcos), (.ftanh, effFtanh), (.fsig, effFsig),
    (.fcmp, effFcmp), (.fclass, effFclass), (.fdot2, effFdot2)] (issueA_next · rfl)

/-- The words of a Q4X block, gathered one by one (R399). -/
theorem foldl_upto_four (y : Nat → Nat) : (upto 4).foldl (fun v q => v + y q) 0 = y 0 + y 1 + y 2 + y 3 := congrArg (· + y 1 + y 2 + y 3) (Nat.zero_add (y 0))
theorem joined_words (x : Nat → Nat) : (upto 4).foldl (fun v q => v + x q * 2 ^ (32 * q)) 0 = x 0 + x 1 * 2 ^ 32 + x 2 * 2 ^ 64 + x 3 * 2 ^ 96 :=
  (foldl_upto_four fun q => x q * 2 ^ (32 * q)).trans (congrArg (· + x 1 * 2 ^ 32 + x 2 * 2 ^ 64 + x 3 * 2 ^ 96) (Nat.mul_one (x 0)))

/-- Settles O6: each word's effect is the one stated, where it compares and where it gathers. -/
theorem conversionResults : Obligations.ConversionResults := fun f s c =>
  words_act [(.cvt, effCvt), (.cvts, effCvts)]
    ⟨fun h => issueA_next h (done_writeLanes fun _ => ite_beq_eq),
      words_act [(.unpack, effUnpack)]
        ⟨fun h => issueA_next h (done_writeTy fun _ => congrArg (joinEls _ _) (funext fun _ => congrArg (fround _) (if_congr Iff.rfl ite_beq_eq rfl))),
          fun h => issueA_next h (congrArg (fun enc : BitVec 128 × BitVec 16 => Fin.done (writeLanes c f.d 1
            (fun l => if bit f.mods 1 then enc.2.toNat else nbits enc.1 (32 * (l.1 % 4)) 32) s)) ite_beq_eq),
          fun h => issueA_next h (done_writeTy fun l => congrArg (fun w => narrowF _ .even false (q4elem (BitVec.ofNat 128 w) _ l.1)) (joined_words _))⟩⟩

-- Control (R349-R357) --------------------------------------------------------------------------------------------------

/-- Settles O8: each word's effect is the one stated; a `trap` outside a repeat and a replay records none of either. -/
theorem transferResults : Obligations.TransferResults := fun fi f s c =>
  ⟨fun h => issueI_next h rfl, fun h => issueA_next h rfl, fun h => issueI_next h rfl, fun h => issueA_next h rfl, fun h => issueA_next h rfl, fun h => issueA_next h rfl,
    fun h => issueI_next h (by simp only [effTrap, raiseAt, repOf, context_entry h.here, h.noRepeat]; rfl)⟩

/-- A `repeat` acts for every thread that executes, whatever its guard (R356). -/
theorem execRepeatN_next {f : FmtI} {s t : State} {c : Ctx} (h : context (.repeatN f) s = some c) (hready : Ready (.repeatN f) s { c with active := c.exec, all := c.exec })
    (he : effRepeatN f { c with active := c.exec, all := c.exec } s = .done t) :
    execRepeatN f s = .next (issued (.repeatN f) { c with active := c.exec, all := c.exec } s t) := by
  unfold execRepeatN
  rw [h]
  exact congrArg _ (issueIn_done hready he)

/-- Settles O11: each word's effect is the one stated, `repeat`'s by its count. -/
theorem clauseControlResults : Obligations.ClauseControlResults := by
  intro f fi s c gives all first count
  refine words_act [(.nop, effNop), (.marshal, effMarshal), (.marshalRank, effMarshalRank), (.yield, effYield)]
    ⟨fun h hready hcount => execRepeatN_next h hready (if_neg fun e => hcount (beq_iff_eq.1 e)), fun k cl h hready hcount hk hcl hgood => execRepeatN_next h hready ?_⟩
  refine (if_pos (beq_iff_eq.2 hcount)).trans ?_
  simp only [hk, Option.bind_some, hcl, hgood]
  rfl

-- Tags (R278-R281, R437) -------------------------------------------------------------------------------------------------

/-- Settles O25: each word's effect is the one stated. -/
theorem tagResults : Obligations.TagResults := fun f s c =>
  ⟨fun h => issueE_next h rfl, fun h => issueE_next h rfl,
    fun h => issueE_next h (by simp only [effTagclr, Bool.and_eq_true, beq_iff_eq]; rfl), fun h => issueE_next h rfl⟩

end Sys2Proof.Machine
end
